-- ==== Sys2Proof/Word.lean ====
section
/-! DEFINITION. The machine's word types (00 R2, R8): bytes, 64-bit registers, 2,048-bit vector registers. -/

namespace Sys2Proof

/-- One byte of memory. -/
abbrev Byte := BitVec 8
/-- A 64-bit register, CSR, handle or address. -/
abbrev Word := BitVec 64
/-- A vector register v0 to v31 or o0 to o7 (03 R69, "a vector register is 2,048 bits wide"). -/
abbrev Vec := BitVec 2048

end Sys2Proof
end

