-- ==== Sys2Proof/Machine/Table.lean ====
section
/-! DEFINITION. Sparse data by key in one canonical form, and bytes in little-endian order (00 R3).
A table lists (key, value) with keys strictly rising and no value equal to the default that an unlisted key reads as,
so that equal contents are equal lists. Memory is such a table of bytes. -/

namespace Sys2Proof.Machine

/-- Sparse data by key. -/
abbrev Table (α : Type) := List (Nat × α)

/-- The value at a key; an unlisted key reads as the default. -/
def tget {α : Type} (d : α) : Table α → Nat → α
  | [], _ => d
  | (k, v) :: rest, a => if a = k then v else tget d rest a

/-- Remove a key. -/
def tdel {α : Type} : Table α → Nat → Table α
  | [], _ => []
  | (k, v) :: rest, a => if a = k then rest else if a < k then (k, v) :: rest else (k, v) :: tdel rest a

/-- Set a key to a value that is listed. -/
def tins {α : Type} : Table α → Nat → α → Table α
  | [], a, x => [(a, x)]
  | (k, v) :: rest, a, x =>
    if a = k then (a, x) :: rest else if a < k then (a, x) :: (k, v) :: rest else (k, v) :: tins rest a x

/-- Set a key; writing the default removes the entry, so the form stays canonical. -/
def tput {α : Type} [DecidableEq α] (d : α) (t : Table α) (a : Nat) (x : α) : Table α :=
  if x = d then tdel t a else tins t a x

/-- Change the value at a key by a function. -/
def tmod {α : Type} [DecidableEq α] (d : α) (t : Table α) (a : Nat) (f : α → α) : Table α :=
  tput d t a (f (tget d t a))

/-- Every key listed is above a bound. -/
def tabove {α : Type} (b : Nat) : Table α → Bool
  | [] => true
  | (k, _) :: _ => b < k

/-- The canonical form: keys strictly rising, no default listed. -/
def twf {α : Type} [DecidableEq α] (d : α) : Table α → Bool
  | [] => true
  | (k, v) :: rest => decide (v ≠ d) && tabove k rest && twf d rest

/-- Memory in bytes: an unlisted address reads as 0 (log entry 2). -/
abbrev Memory := Table Byte

/-- One byte of memory. -/
def Memory.read (m : Memory) (a : Nat) : Byte := tget 0 m a
/-- Store one byte. -/
def Memory.write (m : Memory) (a : Nat) (b : Byte) : Memory := tput 0 m a b
/-- The canonical form of memory. -/
def Memory.wf (m : Memory) : Bool := twf (0 : Byte) m

/-- n bytes from address a up. -/
def Memory.bytes (m : Memory) (a : Nat) : Nat → List Byte
  | 0 => []
  | n + 1 => m.read a :: Memory.bytes m (a + 1) n

/-- Store bytes from address a up, ascending. -/
def Memory.store (m : Memory) (a : Nat) : List Byte → Memory
  | [] => m
  | b :: bs => Memory.store (m.write a b) (a + 1) bs

/-- The number that bytes hold, least significant first (00 R3). -/
def leNat : List Byte → Nat
  | [] => 0
  | b :: bs => b.toNat + 256 * leNat bs

/-- n bytes of a number, least significant first (00 R3). -/
def natLE : Nat → Nat → List Byte
  | 0, _ => []
  | n + 1, x => BitVec.ofNat 8 x :: natLE n (x / 256)

/-- n bytes of a number, most significant first (used by the hash and signature standards). -/
def natBE (n x : Nat) : List Byte := (natLE n x).reverse
/-- The number that bytes hold, most significant first. -/
def beNat (bs : List Byte) : Nat := leNat bs.reverse

/-- The number in bytes [off + n − 1 : off] of a record (00 R3). Bytes past the end read as 0. -/
def fieldLE (bs : List Byte) (off n : Nat) : Nat := leNat ((bs.drop off).take n)

/-- A record with bytes [off + n − 1 : off] replaced by a number. -/
def setLE (bs : List Byte) (off n x : Nat) : List Byte := bs.take off ++ natLE n x ++ bs.drop (off + n)

/-- Bits [hi : lo] of a natural number (00 R9). -/
def bits (x hi lo : Nat) : Nat := (x >>> lo) % 2 ^ (hi + 1 - lo)

/-- Bit n of a natural number. -/
def bit (x n : Nat) : Bool := x.testBit n

/-- The quotient rounded up. -/
def ceilDiv (a b : Nat) : Nat := (a + b - 1) / b

/-- Every element is zero. -/
def allZero (bs : List Byte) : Bool := bs.all (· == 0)

/-- n zero bytes. -/
def zeros (n : Nat) : List Byte := List.replicate n 0

/-- Two byte ranges (first address, length) share a byte. -/
def overlaps (a n b m : Nat) : Bool := decide (a < b + m) && decide (b < a + n)

/-- Replace element k of a list. -/
def setAt {α : Type} : List α → Nat → α → List α
  | [], _, _ => []
  | _ :: xs, 0, y => y :: xs
  | x :: xs, k + 1, y => x :: setAt xs k y

/-- Lane i of width w of a vector (00 R10). -/
def lane (v : Vec) (w i : Nat) : Nat := (v.toNat >>> (w * i)) % 2 ^ w

/-- The vector whose lane i of width w is f i, for i below n (00 R10). -/
def ofLanes (w n : Nat) (f : Nat → Nat) : Vec :=
  BitVec.ofNat 2048 ((List.range n).foldl (fun acc i => acc ||| ((f i % 2 ^ w) <<< (w * i))) 0)

/-- SInt of a w-bit number (00 R10). -/
def sint (w x : Nat) : Int := if x % 2 ^ w < 2 ^ (w - 1) then (x % 2 ^ w : Int) else (x % 2 ^ w : Int) - 2 ^ w

/-- The slice [w−1:0] of an integer (00 R13). -/
def islice (w : Nat) (z : Int) : Nat := (z % (2 ^ w : Int)).toNat

/-- The floor of a square root, bit by bit from bit n down (n bounds the root's bits). -/
def isqrtAux (x : Nat) : Nat → Nat → Nat
  | 0, r => r
  | n + 1, r => if (r + 2 ^ n) * (r + 2 ^ n) ≤ x then isqrtAux x n (r + 2 ^ n) else isqrtAux x n r

/-- The floor of the square root. -/
def isqrt (x : Nat) : Nat := isqrtAux x (x.log2 / 2 + 1) 0

end Sys2Proof.Machine
end

