-- ==== Sys2Proof/Syntax.lean ====
section
/-! DEFINITION. The instructions and events of spec/opcode_table.json: one constructor of Instr per row.
The operand records follow the slot-word layouts of 08 R170, the extension words of R172 and the move slot of 22 R402.
Every field holds the number that stands in its bits. -/

namespace Sys2Proof

/-- Layout F3 (R170) with its guard (R168) and extension word (R172). -/
structure F3 where
  g : Nat
  fn : Nat
  d : Nat
  a : Nat
  b : Nat
  ext : Option Nat
  deriving DecidableEq, Repr

/-- Layout FI (R170). -/
structure FI where
  g : Nat
  d : Nat
  a : Nat
  imm9 : Nat
  ext : Option Nat
  deriving DecidableEq, Repr

/-- Layout FB (R170). -/
structure FB where
  g : Nat
  imm21 : Nat
  ext : Option Nat
  deriving DecidableEq, Repr

/-- Layout FK (R170); FN is the constructor's. -/
structure FK where
  g : Nat
  reg : Nat
  csr : Nat
  deriving DecidableEq, Repr

/-- Layout FM (R170). -/
structure FM where
  g : Nat
  fn : Nat
  td : Nat
  ta : Nat
  tb : Nat
  ka : Nat
  kb : Nat
  ext : Option Nat
  deriving DecidableEq, Repr

/-- Layout FY (R170). -/
structure FY where
  g : Nat
  kind : Nat
  flag : Nat
  a : Nat
  b : Nat
  ext : Option Nat
  deriving DecidableEq, Repr

/-- Layout FW (R170). -/
structure FW where
  g : Nat
  mask : Nat
  deriving DecidableEq, Repr

/-- A move slot of an Adesal word (R402); the destination is the constructor's, or beside it in MOVE.
imm holds slot k + 1 of the word when SRC is 0x7FF (R403). -/
structure LM where
  gen : Bool
  gq : Nat
  ginv : Bool
  src : Nat
  imm : Nat
  deriving DecidableEq, Repr

/-- Who issued a counter add or armed a waiter: the context and strand that a failure is offered to (R121). -/
structure Issuer where
  ctx : Nat
  strand : Nat
  deriving DecidableEq, Repr

/-- The kinds of R126 with their targets. -/
inductive WaiterKind where
  | flag (ctx strand n : Nat)
  | task (id : Nat)
  | event (addr tag : Nat)
  | hostint (vec : Nat)
  | forward (h2 amount : Nat)
  deriving DecidableEq, Repr

/-- One waiter at a counter's home (R126); armed is the cycle from which its deadline counts (R130). -/
structure Waiter where
  h : Nat
  threshold : Nat
  kind : WaiterKind
  deadline : Nat
  pid : Nat
  aspace : Nat
  die : Nat
  by_ : Issuer
  armed : Nat := 0
  deriving DecidableEq, Repr

/-- A data or counter packet on a port (R385, R386): its 32-byte placement header, its payload, the condition it arrives in,
and for each payload byte whether its source line was ciphertext (R341); total is the length of the message that the packet is part of, as UET's
own header gives it (log entry 139). -/
structure Packet where
  port : Nat
  conn : Nat
  psn : Nat
  header : List Byte
  payload : List Byte
  trimmed : Bool
  badIcv : Bool
  badAuth : Bool
  cipher : List Bool
  path : Nat := 0
  ecn : Bool := false
  mode : Nat := 0
  an : Nat := 0
  total : Nat := 0
  deriving DecidableEq, Repr

/-- One constructor per row of spec/opcode_table.json, in its order. -/
inductive Instr where
  -- S slot (09)
  | nop (g : Nat)
  | add (f : F3) | sub (f : F3) | mul (f : F3) | mulh (f : F3) | div (f : F3) | rem (f : F3)
  | and (f : F3) | or (f : F3) | xor (f : F3) | shl (f : F3) | shr (f : F3) | sra (f : F3)
  | min (f : F3) | max (f : F3) | clz (f : F3) | popc (f : F3) | sel (f : F3) | setp (f : F3)
  | addi (f : FI) | andi (f : FI) | ori (f : FI) | xori (f : FI) | shli (f : FI) | shri (f : FI)
  | srai (f : FI) | movi (f : FI) | movh (f : FI)
  | br (f : FB) | jmp (f : F3) | call (f : FB) | ret (f : F3)
  | loop (f : F3) | loopi (f : FB) | lbrk (f : F3) | exit (f : F3)
  | csrr (f : FK) | csrw (f : FK) | csrwSet (f : FK) | csrwClr (f : FK)
  | svc (f : FB) | sret (f : F3) | fence (f : F3) | join (f : F3) | leave (f : F3) | grp (f : F3)
  | launch (f : F3) | yieldOp (f : F3) | dress (f : F3) | plog (f : F3) | pmov (f : F3) | tdef (f : F3)
  -- V slot (10)
  | vadd (f : F3) | vsub (f : F3) | vmul (f : F3) | vfma (f : F3) | vmin (f : F3) | vmax (f : F3)
  | vabs (f : F3) | vneg (f : F3) | vand (f : F3) | vor (f : F3) | vxor (f : F3)
  | vshl (f : F3) | vshr (f : F3) | vsra (f : F3) | vcmp (f : F3) | vsel (f : F3)
  | vred (f : F3) | vscan (f : F3) | vperm (f : F3) | vbcast (f : F3) | vextr (f : F3)
  | vrcp (f : F3) | vrsq (f : F3) | vexp2 (f : F3) | vlog2 (f : F3) | viota (f : F3) | vdot4 (f : F3)
  -- L slot (11)
  | lds (f : F3) | sts (f : F3) | ldv (f : F3) | stv (f : F3) | ldvs (f : F3) | stvs (f : F3)
  | ldvx (f : F3) | stvx (f : F3) | pref (f : F3) | atom (f : F3) | accv (f : F3)
  | cflush (f : F3) | cinv (f : F3)
  -- X slot (10)
  | cvt (f : F3) | qnt (f : F3) | dqnt (f : F3) | ldk (f : F3) | stk (f : F3) | movk (f : F3)
  | rndw (f : F3) | rndc (f : F3) | sealTile (f : F3) | openTile (f : F3) | pack (f : F3) | unpack (f : F3)
  -- M slots (12)
  | mldb (f : FM) | mma (f : FM) | mtrn (f : FM) | mscl (f : FM) | madd (f : FM) | mcvt (f : FM)
  | mzero (f : FM) | mcpy (f : FM) | mvs (f : FM) | mqnt (f : FM)
  -- C slot (11, 12)
  | cpy (f : F3) | cpyD (f : F3) | send (f : F3) | arm (f : F3) | disarm (f : F3)
  | cadd (f : F3) | caddf (f : F3) | caddm (f : F3) | mcst (f : F3) | cload (f : F3) | coll (f : F3)
  | gen (f : F3) | qstat (f : F3)
  -- Y slot (11)
  | waitf (f : FW) | watch (f : FY) | unwatch (f : FY)
  -- the core pipeline (07)
  | bundleInstanceIssue (agent : Nat)
  | releaseBufferDrain (core : Nat)
  | resultLanding (core : Nat)
  | tileOperationComplete (core : Nat)
  | freezeClear (core : Nat)
  | loadEccFailure (core addr : Nat)
  | arrayReadFailure (core addr : Nat)
  | preemptionRequest (core : Nat)
  | preemptionFreezeTimeout (core : Nat)
  | bankroleZeroingStart (mill : Nat)
  | bankroleZeroingEnd (mill : Nat)
  | mOperationDispatch (core : Nat)
  | dressWaitExpiry (core : Nat)
  -- counters (06)
  | counterUpdate (h amount : Nat) (by_ : Issuer)
  | hostintPost (link vec : Nat)
  | waiterArrival (w : Waiter)
  | waiterRemoval (ctx strand flag : Nat)
  | watchDeadlineExpiry (ctx strand flag : Nat)
  | hostCounterStore (link off width value : Nat)
  -- the scheduler (19)
  | launchQueueEntryAccept (pid queue : Nat)
  | dispatch (pid : Nat)
  | contextSwitchOut (ctx base tagAddr : Nat)
  | contextRestore (ctx : Nat)
  | contextComplete (ctx : Nat)
  | blockYield (ctx : Nat)
  | agePeriodExpiry (pid task : Nat)
  | watchdog (ctx : Nat)
  | gangSliceStart (pid gang k : Nat)
  | gangSliceEnd (pid gang : Nat)
  | gangMiss (pid gang task k : Nat)
  | idleStateEntry (unit_ level : Nat)
  | idleWake (unit_ : Nat)
  -- translation and containment (20)
  | translationWalkComplete (die pid space va : Nat)
  | pageDevice (core : Nat) (mapped : Bool) (entryAddr entry : Nat)
  | pageRequestResponse (die index code : Nat)
  | atsTranslationCompletion (die pid space page addr : Nat) (r w : Bool)
  | atsInvalidateRequest (pid space page pages : Nat)
  | hostLoss (link : Nat)
  | hostlostGraceExpiry (pid : Nat)
  -- engines and collectives (12, 14)
  | engineCommandStart (id : Nat)
  | sluiceBeatDelivery (id : Nat)
  | engineCommandComplete (id : Nat)
  | mcstComplete (id : Nat)
  | armEffect (id : Nat)
  | disarmEffect (id : Nat)
  | cloadStart (id : Nat)
  | collInstanceStart (id : Nat)
  | chunkOperationStart (die slot op : Nat)
  | chunkOperationComplete (die slot op : Nat)
  | mvsComplete (core : Nat)
  -- the fabric (21)
  | dataPacketReceive (p : Packet)
  | counterPacketReceive (p : Packet)
  | ackReceive (conn cumulative bitmap credit marked : Nat)
  | instanceNotArmed (conn psn inst slot : Nat)
  | trimRx (conn psn : Nat)
  | rtoExpired (conn : Nat)
  | llrReplay (port frames first : Nat)
  | keyExpiry (port conn key pn : Nat) (sublayer : Bool)
  | ptpTimeCorrection (backward : Bool) (ns : Nat)
  | connReq (port node : Nat) (addr : List Byte)
  | connectionHandshakeComplete (conn : Nat)
  | connClose (conn : Nat)
  | connectionClosed (conn : Nat)
  | linkDown (port mask : Nat)
  -- the leat core (22)
  | move (m : LM) (dst : Nat)
  | aluAdd (m : LM) | aluSub (m : LM) | aluAnd (m : LM) | aluOr (m : LM) | aluXor (m : LM)
  | aluShl (m : LM) | aluShr (m : LM) | aluSra (m : LM) | aluEq (m : LM) | aluLt (m : LM)
  | aluLtu (m : LM) | aluSel (m : LM)
  | lsuLd32 (m : LM) | lsuLd64 (m : LM) | lsuSt32 (m : LM) | lsuSt64 (m : LM)
  | evqPop (m : LM) | evqPeek (m : LM)
  | txuTxdesc (m : LM) | txuRetx (m : LM) | txuAcknow (m : LM)
  | bmuBset (m : LM) | bmuBtest (m : LM) | bmuBffc (m : LM) | bmuBcnt (m : LM)
  | ccuWinupd (m : LM) | ccuRateset (m : LM)
  | tmrTarm (m : LM) | tmrTcancel (m : LM)
  | ctrCadd (m : LM)
  | pcJump (m : LM) | pcCall (m : LM) | pcRet (m : LM) | pcHalt (m : LM)
  | programTimerExpiry (leat n : Nat)
  | lctlRun (leat value : Nat)
  -- management requests (26 R443): the TAG of R443 and the body
  | readBootStatus (tag : Nat)
  | writePartitionDescriptor (tag : Nat) (body : List Byte)
  | activatePartition (tag pid : Nat)
  | destroyPartition (tag pid : Nat)
  | drainingComplete (pid : Nat)
  | writeLaunchQueueDescriptor (tag pid queue : Nat) (body : List Byte)
  | writeAddressSpaceDescriptor (tag pid space : Nat) (body : List Byte)
  | writeGangDescriptor (tag pid gang : Nat) (body : List Byte)
  | invalidateTranslations (tag pid space base len : Nat)
  | openConnection (tag pid index : Nat) (body : List Byte)
  | closeConnection (tag pid index : Nat)
  | loadKeySlot (tag slot : Nat) (body : List Byte)
  | detach (tag pid : Nat)
  | reattach (tag pid : Nat)
  | killSuspended (tag pid : Nat)
  | readPartitionRecord (tag pid which : Nat)
  | requestActivation (tag kind : Nat) (image : List Byte)
  | raiseSvnFloor (tag kind floor : Nat)
  -- firmware activation (24)
  | activationFreeze (hver : Nat) (payload : List Byte)
  | activationHandover
  | activationFreezeTimeout
  | heartbeat (value : Nat)
  | heartbeatTimeout
  -- SPDM (24, 25): the message as it stands in RXBUF
  | getVersion (msg : List Byte) | getCapabilities (msg : List Byte) | negotiateAlgorithms (msg : List Byte)
  | getDigests (msg : List Byte) | getCertificate (msg : List Byte) | challenge (msg : List Byte)
  | getMeasurements (msg : List Byte) | keyExchange (msg : List Byte) | finish (msg : List Byte)
  | spdmHeartbeat (msg : List Byte) | keyUpdate (msg : List Byte) | endSession (msg : List Byte)
  -- the management controller (25)
  | doeObjectReceive (object : List Byte)
  | txgo (len : Nat)
  | rxdone
  | hashReset (cmd : Nat) | hashAbsorb (cmd : Nat) | hashDigest (cmd : Nat) | hashSign (cmd : Nat)
  | hashClone (cmd : Nat)
  | randRead
  | managementControllerFault (code : Nat)
  -- the host link, resets and the module (26)
  | hostMemoryWrite (link addr : Nat) (data : List Byte)
  | hostMemoryRead (link addr len : Nat)
  | packageReset
  | linkHotReset (link : Nat)
  | functionLevelReset (link : Nat)
  | thermalThrottle (die : Nat)
  | thermalTrip
  | sidePortResetRequest
  | activationStageTimeout
  | nackRx (conn psn reason : Nat)
  | priReenable (die : Nat)
  | linkUp (port : Nat)
  | linkPartnerAcknowledgement (port frame : Nat)
  | debuggerHalt (ctx : Nat) (halt : Bool)
  | serviceKeyHashInstall (pid : Nat) (hash : List Byte)
  | designPowerThrottle (on : Bool)
  | snoop (link addr : Nat)
  deriving DecidableEq, Repr

end Sys2Proof
end

