-- ==== Sys2Proof/Machine/Legal.lean ====
section
/-! DEFINITION. The decode checks of R179, steps 4 to 6, for one instruction: opcode forms and unused bits (R171, R172, R220),
operand codes (R173 to R175), rounding and format codes (R58, R176). -/

namespace Sys2Proof.Machine

/-- The slots (R164): S 0, V 1, L 2, X 3, M0 4, M1 5, C 6, Y 7. -/
abbrev SlotNo := Nat

/-- The fault codes of R378. -/
def cIllegalBundle : Nat := 0x01
def cIllegalOp : Nat := 0x02
def cIllegalOperand : Nat := 0x03
def cPriv : Nat := 0x04
def cAlign : Nat := 0x05
def cPageDevice : Nat := 0x06
def cPageHost : Nat := 0x07
def cAccess : Nat := 0x08
def cBound : Nat := 0x09
def cPoison : Nat := 0x0A
def cQueueFull : Nat := 0x0B
def cCounterHandle : Nat := 0x0C
def cWaiterExhausted : Nat := 0x0D
def cRngOverlap : Nat := 0x0E
def cDetViolation : Nat := 0x0F
def cSegmentAuth : Nat := 0x10
def cForm : Nat := 0x11
def cExportPlaintext : Nat := 0x12
def cLoopOverflow : Nat := 0x13
def cLoopUnderflow : Nat := 0x14
def cWatchdog : Nat := 0x15
def cDoubleFault : Nat := 0x16
def cSvc : Nat := 0x17
def cDressTable : Nat := 0x18
def cHostlost : Nat := 0x19
def cLaunchDepth : Nat := 0x1A
def cLaunchPool : Nat := 0x1B
def cTileShape : Nat := 0x1C
def cFormat : Nat := 0x1D

/-- The first fault of a list of checks (R179): each pairs a condition that must hold with the code it raises. -/
def firstFail : List (Bool × Nat) → Option Nat
  | [] => none
  | (ok, code) :: rest => if ok then firstFail rest else some code

/-- A scalar source code of S, L, X (R173); in C codes 42 and 43 raise, in M and Y 40 and 41 read zero (R141). -/
def okSrc (slot : SlotNo) (c : Nat) : Bool :=
  c < 32 || c == 40 || c == 41 || c == 63 || ((c == 42 || c == 43) && slot < 4)
/-- A scalar destination code (R173). -/
def okDst (c : Nat) : Bool := c < 32 || c == 63
/-- A vector source code (R173). -/
def okVSrc (c : Nat) : Bool := c < 44 || c == 63
/-- A vector destination code (R173). -/
def okVDst (c : Nat) : Bool := c < 40 || c == 63
/-- A predicate or scale register (R175). -/
def okP (c : Nat) : Bool := c < 8
/-- A predicate destination: p0 raises (R175). -/
def okPDst (c : Nat) : Bool := 0 < c && c < 8
/-- A tile descriptor (R175). -/
def okT (c : Nat) : Bool := c < 16

/-- The CSR numbers of R204. -/
def csrListed (n : Nat) : Bool :=
  n ≤ 0x00C || (0x010 ≤ n && n ≤ 0x013) || (0x018 ≤ n && n ≤ 0x01C) || (0x020 ≤ n && n ≤ 0x021) ||
  (0x028 ≤ n && n ≤ 0x029) || (0x030 ≤ n && n ≤ 0x031) || (0x100 ≤ n && n ≤ 0x104) || (0x200 ≤ n && n ≤ 0x201)

/-! ### S slot -/

/-- An S instruction of layout F3: no extension word (R172), FN up to its limit, unused fields zero (R171). -/
def s3 (f : F3) (fnMax : Nat) (dUsed aUsed bUsed : Bool) (dstOk srcOk : Bool) : Option Nat :=
  firstFail
    [(f.ext.isNone && decide (f.fn ≤ fnMax) && (dUsed || f.d == 0) && (aUsed || f.a == 0) && (bUsed || f.b == 0), cIllegalOp),
     (dstOk && srcOk, cIllegalOperand)]

/-- Register arithmetic (R192): d, a, b. -/
def legalArith (fnMax : Nat) (f : F3) : Option Nat :=
  s3 f fnMax true true true (okDst f.d) (okSrc 0 f.a && okSrc 0 f.b)
/-- CLZ and POPC (R192): d, a. -/
def legalUnary (f : F3) : Option Nat := s3 f 0 true true false (okDst f.d) (okSrc 0 f.a)
/-- An instruction that uses no field (R200, R201, R208, R211, R214). -/
def legalBare (f : F3) : Option Nat := s3 f 0 false false false true true
/-- An instruction that uses A alone (R197, R198, R213). -/
def legalA (f : F3) : Option Nat := s3 f 0 false true false true (okSrc 0 f.a)
/-- Layout FI (R172, R194): with an extension word IMM9 is 0; MOVI leaves A unused. -/
def legalFI (aUsed : Bool) (f : FI) : Option Nat :=
  firstFail [((f.ext.isNone || f.imm9 == 0) && (aUsed || f.a == 0), cIllegalOp), (okDst f.d && (!aUsed || okSrc 0 f.a), cIllegalOperand)]
/-- Layout FB (R172): with an extension word IMM21 is 0. -/
def legalFB (f : FB) : Option Nat := firstFail [(f.ext.isNone || f.imm21 == 0, cIllegalOp)]
/-- The immediate of layout FI (R172, R194). -/
def immFI (f : FI) : Word :=
  match f.ext with
  | some e => (BitVec.ofNat 32 e).signExtend 64
  | none => (BitVec.ofNat 9 f.imm9).signExtend 64
/-- The immediate of layout FB (R172). -/
def immFB (f : FB) : Word :=
  match f.ext with
  | some e => (BitVec.ofNat 32 e).signExtend 64
  | none => (BitVec.ofNat 21 f.imm21).signExtend 64

/-! ### Extension fields (R172) -/

/-- A field of an extension word, its default when the word is absent. -/
def extField (e : Option Nat) (hi lo dflt : Nat) : Nat :=
  match e with
  | some w => bits w hi lo
  | none => dflt

/-- V: MSK, RM, SUB, SAT, CS. -/
def vMsk (f : F3) : Nat := extField f.ext 31 29 0
def vRm (f : F3) : Nat := extField f.ext 28 26 0
def vSub (f : F3) : Nat := extField f.ext 25 23 0
def vSat (f : F3) : Bool := extField f.ext 22 22 0 == 1
def vCs (f : F3) : Nat := extField f.ext 5 0 f.d
/-- L: HINT, MSK, SUB, OFF. -/
def lHint (f : F3) : Nat := extField f.ext 31 30 0
def lMsk (f : F3) : Nat := extField f.ext 29 27 0
def lSub (f : F3) : Nat := extField f.ext 26 24 0
def lOff (f : F3) : Int := sint 24 (extField f.ext 23 0 0)
/-- X: RM, TY, KR, OFF. -/
def xRm (f : F3) : Nat := extField f.ext 31 29 0
def xTy (f : F3) : Nat := extField f.ext 28 26 0
def xKr (f : F3) : Nat := extField f.ext 25 23 0
def xOffBits (f : F3) : Nat := extField f.ext 22 0 0
def xOff (f : F3) : Int := sint 23 (xOffBits f)
/-- M: RM, TR, SE, HR, SR. -/
def mRm (f : FM) : Nat := extField f.ext 31 29 0
def mTr (f : FM) : Bool := extField f.ext 28 28 0 == 1
def mSe (f : FM) : Int := sint 8 (extField f.ext 23 16 0)
def mHr (f : FM) : Nat := extField f.ext 11 6 0
def mSr (f : FM) : Nat := extField f.ext 5 0 63
/-- C: SLACK, CHAN, IMM26. -/
def cSlack (f : F3) : Nat := extField f.ext 31 29 7
def cChan (f : F3) : Nat := extField f.ext 28 26 0
def cImm (f : F3) : Nat := extField f.ext 25 0 0

/-! ### Lane types and element formats (R176) -/

/-- The width in bits of a lane type. -/
def ltWidth : Nat → Nat
  | 0 => 32 | 1 => 32 | 2 => 16 | 3 => 16 | 4 => 16 | _ => 8
/-- The lane types that are integers: INT32, INT16, INT8. -/
def ltInt (t : Nat) : Bool := t == 0 || t == 4 || t == 5
/-- FP8 lane types. -/
def ltFp8 (t : Nat) : Bool := t == 6 || t == 7

/-! ### V slot (R220 to R234) -/

/-- The shape of a V instruction's checks: which of B, SUB, SAT, RM and CS it uses, the SUB values listed, the lane types
accepted, and the extra FORMAT condition. -/
structure VShape where
  bUsed : Bool
  csUsed : Bool
  subOk : Bool
  satUsed : Bool
  rounds : Bool
  typeOk : Bool
  fmtOk : Bool
  dOk : Bool

/-- The checks of one V word (R179, R220, R222). -/
def legalV (f : F3) (v : VShape) : Option Nat :=
  firstFail
    [((v.bUsed || f.b == 0) && (extField f.ext 21 6 0 == 0) && (v.csUsed || vCs f == f.d) && v.subOk &&
        (v.satUsed || !vSat f) && (v.rounds || vRm f == 0), cIllegalOp),
     (v.dOk && okVSrc f.a && (!v.bUsed || okVSrc f.b) && (!v.csUsed || okVSrc (vCs f)), cIllegalOperand),
     (v.typeOk && v.fmtOk && (!v.rounds || decide (vRm f ≤ 6)), cFormat)]

/-- Arithmetic with integer SUB values up to n (R222). -/
def legalVArith (subMax satMax : Nat) (cs fp8 : Bool) (rounding : Bool) (f : F3) : Option Nat :=
  let i := ltInt f.fn
  legalV f { bUsed := true, csUsed := cs, subOk := if i then decide (vSub f ≤ subMax) else vSub f == 0,
             satUsed := i && decide (vSub f ≤ satMax), rounds := rounding && !i, typeOk := fp8 || !ltFp8 f.fn, fmtOk := true, dOk := okVDst f.d }

def legalVmin (f : F3) : Option Nat :=
  legalV f { bUsed := true, csUsed := false, subOk := if ltInt f.fn then decide (vSub f ≤ 1) else vSub f == 0, satUsed := false,
             rounds := false, typeOk := true, fmtOk := true, dOk := okVDst f.d }
def legalVabs (f : F3) : Option Nat :=
  legalV f { bUsed := false, csUsed := false, subOk := vSub f == 0, satUsed := ltInt f.fn, rounds := false, typeOk := true,
             fmtOk := true, dOk := okVDst f.d }
def legalVlogic (f : F3) : Option Nat :=
  legalV f { bUsed := true, csUsed := false, subOk := vSub f == 0, satUsed := false, rounds := false, typeOk := true,
             fmtOk := true, dOk := okVDst f.d }
def legalVshift (f : F3) : Option Nat :=
  legalV f { bUsed := true, csUsed := false, subOk := vSub f == 0, satUsed := false, rounds := false, typeOk := ltInt f.fn,
             fmtOk := true, dOk := okVDst f.d }
def legalVcmp (f : F3) : Option Nat :=
  legalV f { bUsed := true, csUsed := false, subOk := true, satUsed := true, rounds := false, typeOk := true, fmtOk := true,
             dOk := okPDst f.d }
def legalVsel (f : F3) : Option Nat :=
  legalV f { bUsed := true, csUsed := false, subOk := true, satUsed := false, rounds := false, typeOk := true, fmtOk := true,
             dOk := okVDst f.d }
/-- VRED and VSCAN (R228, R229): STO and the integer operations of a floating lane type raise FORMAT. -/
def legalVred (f : F3) : Option Nat :=
  let i := ltInt f.fn
  legalV f { bUsed := false, csUsed := false, subOk := true, satUsed := i && vSub f == 0, rounds := !i && vSub f == 0,
             typeOk := true, fmtOk := i || (decide (vSub f ≤ 2) && vRm f != 5), dOk := okVDst f.d }
def legalVperm (f : F3) : Option Nat :=
  legalV f { bUsed := true, csUsed := true, subOk := vSub f == 0, satUsed := false, rounds := false, typeOk := true,
             fmtOk := true, dOk := okVDst f.d }
/-- VEXTR requires MSK = p0 (R232). -/
def legalVextr (f : F3) : Option Nat :=
  legalV f { bUsed := true, csUsed := false, subOk := vSub f == 0 && vMsk f == 0, satUsed := false, rounds := false,
             typeOk := true, fmtOk := true, dOk := okVDst f.d }
def legalVfn (f : F3) : Option Nat :=
  legalV f { bUsed := false, csUsed := false, subOk := vSub f == 0, satUsed := false, rounds := true,
             typeOk := f.fn == 1 || f.fn == 2 || f.fn == 3, fmtOk := true, dOk := okVDst f.d }
def legalViota (f : F3) : Option Nat :=
  legalV f { bUsed := false, csUsed := false, subOk := decide (vSub f ≤ 1), satUsed := false, rounds := !ltInt f.fn,
             typeOk := true, fmtOk := true, dOk := okVDst f.d }
def legalVdot4 (f : F3) : Option Nat :=
  let i := ltInt f.fn
  legalV f { bUsed := true, csUsed := true, subOk := if i then decide (vSub f ≤ 2) else vSub f == 0, satUsed := i,
             rounds := !i, typeOk := !(f.fn == 0 || f.fn == 1), fmtOk := true, dOk := okVDst f.d }

/-! ### L slot (R249 to R256) -/

/-- The checks of one L word: FN listed, D and B used as the entry says, the extension fields it uses. -/
def legalL (f : F3) (fnOk dZero hintUsed mskUsed : Bool) (subOk other : Bool) (dOk bOk : Bool) (fmtOk : Bool) : Option Nat :=
  firstFail
    [(fnOk && (!dZero || f.d == 0) && (hintUsed || lHint f == 0) && (mskUsed || lMsk f == 0) && subOk && other, cIllegalOp),
     (dOk && okSrc 2 f.a && bOk, cIllegalOperand),
     (fmtOk, cFormat)]

def legalLds (f : F3) : Option Nat :=
  legalL f (decide (f.fn ≤ 6)) false true false (lSub f == 0) true (okDst f.d) (okSrc 2 f.b) true
def legalSts (f : F3) : Option Nat :=
  legalL f (f.fn == 0 || f.fn == 1 || f.fn == 3 || f.fn == 5) false true false (lSub f == 0) true (okSrc 2 f.d) (okSrc 2 f.b) true
def legalLdv (f : F3) : Option Nat :=
  legalL f (f.fn == 0) false true true (lSub f == 0) true (okVDst f.d) (okSrc 2 f.b) true
def legalStv (f : F3) : Option Nat :=
  legalL f (f.fn == 0) false true true (lSub f == 0) true (okVSrc f.d) (okSrc 2 f.b) true
def legalLdvs (f : F3) : Option Nat :=
  legalL f (decide (f.fn ≤ 2)) false true true (lSub f == 0) true (okVDst f.d) (okSrc 2 f.b) true
def legalStvs (f : F3) : Option Nat :=
  legalL f (decide (f.fn ≤ 2)) false true true (lSub f == 0) true (okVSrc f.d) (okSrc 2 f.b) true
def legalLdvx (f : F3) : Option Nat :=
  legalL f (decide (f.fn ≤ 2)) false true true (lSub f == 0) true (okVDst f.d) (okVSrc f.b) true
def legalStvx (f : F3) : Option Nat :=
  legalL f (decide (f.fn ≤ 2)) false true true (lSub f == 0) true (okVSrc f.d) (okVSrc f.b) true
def legalPref (f : F3) : Option Nat := legalL f true true true false (lSub f == 0) true true (okSrc 2 f.b) true
def legalAtom (f : F3) : Option Nat :=
  legalL f true false false false (decide (lSub f < 4)) true (okDst f.d) (okSrc 2 f.b) true
/-- ACCV (R256). -/
def legalAccv (f : F3) : Option Nat :=
  legalL f true false false true (decide (lSub f ≤ 4)) true (okVSrc f.d) (okSrc 2 f.b)
    (decide (f.fn ≤ 4) && (ltInt f.fn || decide (lSub f ≤ 2)))
/-- CFLUSH and CINV (R253): the whole-cache forms use no address field. -/
def legalCache (fnMax : Nat) (f : F3) : Option Nat :=
  legalL f (decide (f.fn ≤ fnMax)) true false false (lSub f == 0) (f.fn == 0 || (f.a == 0 && f.b == 0 && lOff f == 0)) true
    (okSrc 2 f.b) true

/-! ### X slot (R236 to R243) -/

/-- Widths of the ratio of a CVT (R237). -/
def cvtRatio (src dst : Nat) : Nat :=
  if ltWidth src < ltWidth dst then ltWidth dst / ltWidth src else ltWidth src / ltWidth dst
/-- A CVT that can never round (R61, R237): between integers, between equal types, to FP32, or FP8 to BF16 or FP16. -/
def cvtExact (src dst : Nat) : Bool :=
  (ltInt src && ltInt dst) || src == dst ||
  (!ltInt src && !ltInt dst && (dst == 1 || (ltFp8 src && (dst == 2 || dst == 3))))

/-- The checks of one X word (R179, R236). -/
def legalX (f : F3) (fnOk extOk unusedOk : Bool) (operandOk fmtOk : Bool) : Option Nat :=
  firstFail [(fnOk && (extOk || f.ext.isNone) && unusedOk, cIllegalOp), (operandOk, cIllegalOperand), (fmtOk, cFormat)]

def legalCvt (f : F3) : Option Nat :=
  let src := f.fn
  let dst := xTy f
  legalX f true true
    (f.b == 0 && xKr f == 0 && xOffBits f < 4 &&
      (if ltWidth src == ltWidth dst then xOffBits f == 0 else decide (xOffBits f < cvtRatio src dst)) &&
      (!cvtExact src dst || xRm f == 0))
    (okVDst f.d && okVSrc f.a) (cvtExact src dst || decide (xRm f ≤ 6))

/-- The blocks of QNT and DQNT for lane type t (R238). -/
def qBlocks (t : Nat) : Nat := 2048 / ltWidth t / 32
/-- The element width of a block format code (R63, R176). -/
def mxBits : Nat → Nat
  | 0 => 8 | 1 => 6 | _ => 4
/-- The fit rules of R238: KPOS + B ≤ 8 and the code bytes end within 256. -/
def qFits (f : F3) : Bool :=
  decide (xOffBits f % 8 + qBlocks f.fn ≤ 8) &&
  decide (32 * (xOffBits f / 8 % 8) + qBlocks f.fn * 4 * mxBits (xTy f) ≤ 256)
/-- The floating lane types of QNT and DQNT (R238, R239). -/
def qType (t : Nat) : Bool := t == 1 || t == 2 || t == 3 || t == 6 || t == 7

def legalQnt (f : F3) : Option Nat :=
  legalX f true true (f.b == 0 && decide (xOffBits f < 64) && (decide (xTy f > 2) || qFits f)) (okVDst f.d && okVSrc f.a)
    (qType f.fn && decide (xTy f ≤ 2) && decide (xRm f ≤ 6))
/-- DQNT to FP32 or BF16 never rounds (R65), so its RM must be 0. -/
def legalDqnt (f : F3) : Option Nat :=
  legalX f true true
    (f.b == 0 && decide (xOffBits f < 64) && (decide (xTy f > 2) || qFits f) && (!(f.fn == 1 || f.fn == 2) || xRm f == 0))
    (okVDst f.d && okVSrc f.a) (qType f.fn && decide (xTy f ≤ 2) && decide (xRm f ≤ 6))
def legalLdk (f : F3) : Option Nat :=
  legalX f (f.fn == 0) true (xRm f == 0 && xTy f == 0 && xKr f == 0) (okP f.d && okSrc 3 f.a && okSrc 3 f.b) true
def legalMovk (f : F3) : Option Nat :=
  legalX f (decide (f.fn ≤ 2)) false (f.b == 0)
    (match f.fn with
     | 0 => okP f.d && okSrc 3 f.a
     | 1 => okDst f.d && okP f.a
     | _ => okP f.d && okP f.a) true
def legalRndw (f : F3) : Option Nat := legalX f (f.fn == 0) false (f.a == 0 && f.b == 0) (okDst f.d) true
def legalRndc (f : F3) : Option Nat := legalX f (f.fn == 0) false (f.a == 0 && f.b == 0) (okVDst f.d) true
def legalSeal (f : F3) : Option Nat := legalX f (f.fn == 0) false true (okT f.d && okSrc 3 f.a && okSrc 3 f.b) true
def legalPack (f : F3) : Option Nat :=
  legalX f (f.fn == 0) true (f.b == 0 && xRm f == 0 && xKr f == 0 && xOffBits f == 0) (okVDst f.d && okVSrc f.a)
    (xTy f == 1 || xTy f == 2)

/-! ### M slots (R266) -/

/-- Which fields an M instruction uses (R266). -/
structure MShape where
  fnMax : Nat
  td : Bool := false
  ta : Bool := false
  tb : Bool := false
  ka : Bool := false
  kb : Bool := false
  rm : Bool := false
  tr : Bool := false
  se : Bool := false
  hr : Bool := false
  sr : Bool := false

/-- The checks of one M word (R266). -/
def legalM (f : FM) (m : MShape) : Option Nat :=
  firstFail
    [(decide (f.fn ≤ m.fnMax) && (m.td || f.td == 0) && (m.ta || f.ta == 0) && (m.tb || f.tb == 0) &&
        (m.ka || f.ka == 0) && (m.kb || f.kb == 0) && (m.rm || mRm f == 0) && (m.tr || !mTr f) && (m.se || mSe f == 0) &&
        (m.hr || mHr f == 0) && (m.sr || mSr f == 63) && extField f.ext 27 24 0 == 0 && extField f.ext 15 12 0 == 0, cIllegalOp),
     ((!m.sr || okSrc 4 (mSr f)) && (!m.hr || okSrc 4 (mHr f)), cIllegalOperand),
     (!m.rm || decide (mRm f ≤ 6), cFormat)]

def shapeMldb (f : FM) : MShape := { fnMax := 1, tb := true, kb := f.fn == 1, tr := true }
def shapeMma (f : FM) : MShape := { fnMax := 1, td := true, ta := true, ka := f.fn == 1, se := true }
def shapeMove2 : MShape := { fnMax := 0, td := true, ta := true }
def shapeMscl : MShape := { fnMax := 0, td := true, ta := true, rm := true, se := true, sr := true }
def shapeMadd : MShape := { fnMax := 3, td := true, ta := true, tb := true, rm := true }
def shapeRound2 : MShape := { fnMax := 0, td := true, ta := true, rm := true }
def shapeMzero : MShape := { fnMax := 0, td := true }
/-- MVS needs its extension word, and SR 63 raises ILLEGAL_OPERAND (R266). -/
def legalMvs (f : FM) : Option Nat :=
  if f.ext.isNone then some cIllegalOp
  else match legalM f { fnMax := 0, td := true, ta := true, tb := true, hr := true, sr := true } with
    | some c => some c
    | none => if mSr f == 63 then some cIllegalOperand else none

/-! ### C and Y slots (R259 to R266, R282) -/

/-- The checks of one C word. -/
def legalC (f : F3) (fnMax : Nat) (dUsed aUsed bUsed slackUsed chanUsed immUsed : Bool) (other : Bool) (dOk : Bool) : Option Nat :=
  firstFail
    [(decide (f.fn ≤ fnMax) && (dUsed || f.d == 0) && (aUsed || f.a == 0) && (bUsed || f.b == 0) &&
        (slackUsed || extField f.ext 31 29 0 == 0) && (chanUsed || cChan f == 0) && (immUsed || cImm f == 0) && other, cIllegalOp),
     (dOk && (!aUsed || okSrc 6 f.a) && (!bUsed || okSrc 6 f.b), cIllegalOperand)]

def legalCpy (f : F3) : Option Nat :=
  legalC f 0 true true true true true true (f.ext.isSome && cImm f != 0) (okSrc 6 f.d)
def legalCpyD (f : F3) : Option Nat := legalC f 1 false true false true true false (f.fn == 1) true
def legalSend (f : F3) : Option Nat := legalC f 0 false true false true false false true true
/-- ARM, CLOAD, COLL and MCST: IMM26 is 0 when D is 63 (R282, R263). -/
def legalInc (f : F3) : Option Nat :=
  legalC f 0 true true true false false true (f.d != 63 || cImm f == 0) (okSrc 6 f.d)
def legalDisarm (f : F3) : Option Nat :=
  legalC f 0 true false true false false true (f.d != 63 || cImm f == 0) (okSrc 6 f.d)
def legalCadd (f : F3) : Option Nat := legalC f 0 false true true false false true true true
def legalCaddf (f : F3) : Option Nat := legalC f 0 true true true false false true true (okDst f.d)
/-- CADDM: IMM26[25:16] is 0 and the mask is not 0 (R262). -/
def legalCaddm (f : F3) : Option Nat :=
  legalC f 0 false true true false false true (decide (0 < cImm f) && decide (cImm f < 65536)) true
def legalGen (f : F3) : Option Nat := legalC f 0 true true true false false false true (okSrc 6 f.d)
def legalQstat (f : F3) : Option Nat := legalC f 1 true false false false true false true (okDst f.d)

/-- WATCH (R259): KIND 1 to 3 need the extension word and FLAG 0. -/
def legalWatch (f : FY) : Option Nat :=
  firstFail
    [(decide (f.kind ≤ 3) && (f.kind == 0 || (f.ext.isSome && f.flag == 0 && extField f.ext 31 12 0 == 0 &&
        (f.kind != 2 || extField f.ext 11 6 0 == 0))), cIllegalOp),
     (okSrc 7 f.a && okSrc 7 f.b && (f.kind == 0 || (okSrc 7 (extField f.ext 5 0 0) && okSrc 7 (extField f.ext 11 6 0))),
      cIllegalOperand)]
/-- UNWATCH (R261). -/
def legalUnwatch (f : FY) : Option Nat :=
  firstFail [(f.kind == 0 && f.a == 0 && f.b == 0 && f.ext.isNone, cIllegalOp)]

/-! ### Leat moves (R402, R403) -/

/-- The source codes of R403. -/
def leatSrcOk (c : Nat) : Bool := c < 0x44 || (0x100 ≤ c && c ≤ 0x10A) || 0x7FF ≤ c
/-- A destination that is a register or an operand port (R404). -/
def leatPlainDst (c : Nat) : Bool :=
  c < 0x44 || c == 0x100 || c == 0x101 || c == 0x120 || c == 0x150 || c == 0x151 || c == 0x170 || c == 0x190 || c == 0x1B0 ||
  c == 0x1D0
/-- A move slot that stands alone (R402, R403). -/
def legalLM (m : LM) : Option Nat :=
  firstFail [(m.gen || (m.gq == 0 && !m.ginv), cIllegalBundle), (leatSrcOk m.src, cIllegalOperand)]
def legalMove (m : LM) (dst : Nat) : Option Nat :=
  firstFail [(m.gen || (m.gq == 0 && !m.ginv), cIllegalBundle), (leatSrcOk m.src, cIllegalOperand), (leatPlainDst dst, cIllegalOp)]

/-- The first decode fault of an instruction under steps 4 to 6 of R179, or none. Events have no encoding and no such check. -/
def legal : Instr → Option Nat
  | .nop _ => none
  | .add f => legalArith 2 f | .sub f => legalArith 2 f | .mul f => legalArith 0 f | .mulh f => legalArith 2 f
  | .div f => legalArith 1 f | .rem f => legalArith 1 f
  | .and f => legalArith 0 f | .or f => legalArith 0 f | .xor f => legalArith 0 f
  | .shl f => legalArith 0 f | .shr f => legalArith 0 f | .sra f => legalArith 0 f
  | .min f => legalArith 1 f | .max f => legalArith 1 f
  | .clz f => legalUnary f | .popc f => legalUnary f
  | .sel f => s3 f 7 true true true (okDst f.d) (okSrc 0 f.a && okSrc 0 f.b)
  | .setp f => s3 f 7 true true true (okPDst f.d) (okSrc 0 f.a && okSrc 0 f.b)
  | .addi f => legalFI true f | .andi f => legalFI true f | .ori f => legalFI true f | .xori f => legalFI true f
  | .shli f => legalFI true f | .shri f => legalFI true f | .srai f => legalFI true f
  | .movi f => legalFI false f | .movh f => legalFI true f
  | .br f => legalFB f | .jmp f => legalA f | .call f => legalFB f | .ret f => legalA f
  | .loop f => legalA f
  | .loopi f => firstFail [(f.ext.isNone || f.imm21 == 0, cIllegalOp), (!(immFB f).msb, cIllegalOp)]
  | .lbrk f => legalBare f | .exit f => legalBare f
  | .csrr f => firstFail [(okDst f.reg && csrListed f.csr, cIllegalOperand)]
  | .csrw f => firstFail [(okSrc 0 f.reg && csrListed f.csr, cIllegalOperand)]
  | .csrwSet f => firstFail [(okSrc 0 f.reg && csrListed f.csr, cIllegalOperand)]
  | .csrwClr f => firstFail [(okSrc 0 f.reg && csrListed f.csr, cIllegalOperand)]
  | .svc f => legalFB f | .sret f => legalBare f
  | .fence f => s3 f 7 false false false true (decide (f.fn ≤ 4))
  | .join f => s3 f 4 false true true true (okSrc 0 f.a && okSrc 0 f.b)
  | .leave f => legalBare f
  | .grp f => s3 f 2 true (f.fn == 2) false (okDst f.d) (okSrc 0 f.a)
  | .launch f => legalA f | .yieldOp f => legalBare f
  | .dress f => s3 f 0 false true true true (okSrc 0 f.a && okSrc 0 f.b)
  | .plog f => s3 f 5 true true (decide (f.fn ≤ 4)) (okPDst f.d) (okP f.a && okP f.b)
  | .pmov f => s3 f 2 true true false (if f.fn == 1 then okDst f.d else okPDst f.d) (if f.fn == 1 then okP f.a else okSrc 0 f.a)
  | .tdef f => s3 f 0 true true false (okT f.d) (okSrc 0 f.a)
  | .vadd f => legalVArith 1 1 false false true f | .vsub f => legalVArith 1 1 false false true f
  | .vmul f => legalVArith 3 1 false false true f | .vfma f => legalVArith 1 1 true false true f
  | .vmin f => legalVmin f | .vmax f => legalVmin f
  | .vabs f => legalVabs f | .vneg f => legalVabs f
  | .vand f => legalVlogic f | .vor f => legalVlogic f | .vxor f => legalVlogic f
  | .vshl f => legalVshift f | .vshr f => legalVshift f | .vsra f => legalVshift f
  | .vcmp f => legalVcmp f | .vsel f => legalVsel f | .vred f => legalVred f | .vscan f => legalVred f
  | .vperm f => legalVperm f | .vbcast f => legalVlogic f | .vextr f => legalVextr f
  | .vrcp f => legalVfn f | .vrsq f => legalVfn f | .vexp2 f => legalVfn f | .vlog2 f => legalVfn f
  | .viota f => legalViota f | .vdot4 f => legalVdot4 f
  | .lds f => legalLds f | .sts f => legalSts f | .ldv f => legalLdv f | .stv f => legalStv f
  | .ldvs f => legalLdvs f | .stvs f => legalStvs f | .ldvx f => legalLdvx f | .stvx f => legalStvx f
  | .pref f => legalPref f | .atom f => legalAtom f | .accv f => legalAccv f
  | .cflush f => legalCache 1 f | .cinv f => legalCache 2 f
  | .cvt f => legalCvt f | .qnt f => legalQnt f | .dqnt f => legalDqnt f
  | .ldk f => legalLdk f | .stk f => legalLdk f | .movk f => legalMovk f
  | .rndw f => legalRndw f | .rndc f => legalRndc f
  | .sealTile f => legalSeal f | .openTile f => legalSeal f
  | .pack f => legalPack f | .unpack f => legalPack f
  | .mldb f => legalM f (shapeMldb f) | .mma f => legalM f (shapeMma f)
  | .mtrn f => legalM f shapeMove2 | .mscl f => legalM f shapeMscl | .madd f => legalM f shapeMadd
  | .mcvt f => legalM f shapeRound2 | .mzero f => legalM f shapeMzero | .mcpy f => legalM f shapeMove2
  | .mvs f => legalMvs f | .mqnt f => legalM f shapeRound2
  | .cpy f => legalCpy f | .cpyD f => legalCpyD f | .send f => legalSend f
  | .arm f => legalInc f | .disarm f => legalDisarm f
  | .cadd f => legalCadd f | .caddf f => legalCaddf f | .caddm f => legalCaddm f
  | .mcst f => legalInc f | .cload f => legalInc f | .coll f => legalInc f
  | .gen f => legalGen f | .qstat f => legalQstat f
  | .waitf _ => none
  | .watch f => legalWatch f | .unwatch f => legalUnwatch f
  | .move m d => legalMove m d
  | .aluAdd m => legalLM m | .aluSub m => legalLM m | .aluAnd m => legalLM m | .aluOr m => legalLM m
  | .aluXor m => legalLM m | .aluShl m => legalLM m | .aluShr m => legalLM m | .aluSra m => legalLM m
  | .aluEq m => legalLM m | .aluLt m => legalLM m | .aluLtu m => legalLM m | .aluSel m => legalLM m
  | .lsuLd32 m => legalLM m | .lsuLd64 m => legalLM m | .lsuSt32 m => legalLM m | .lsuSt64 m => legalLM m
  | .evqPop m => legalLM m | .evqPeek m => legalLM m
  | .txuTxdesc m => legalLM m | .txuRetx m => legalLM m | .txuAcknow m => legalLM m
  | .bmuBset m => legalLM m | .bmuBtest m => legalLM m | .bmuBffc m => legalLM m | .bmuBcnt m => legalLM m
  | .ccuWinupd m => legalLM m | .ccuRateset m => legalLM m
  | .tmrTarm m => legalLM m | .tmrTcancel m => legalLM m | .ctrCadd m => legalLM m
  | .pcJump m => legalLM m | .pcCall m => legalLM m | .pcRet m => legalLM m | .pcHalt m => legalLM m
  | _ => none

end Sys2Proof.Machine
end

