-- ==== Sys2Proof/WellFormed.lean ====
section
/-! DEFINITION. Well-formed instructions: every field within the width its layout gives it (R168, R170, R172, R402) and no decode
check of R179 fails. -/

namespace Sys2Proof

open Sys2Proof.Machine

/-- An extension word fits 32 bits. -/
def extFits : Option Nat → Bool
  | none => true
  | some e => decide (e < 2 ^ 32)

def F3.fits (f : F3) : Bool :=
  decide (f.g < 16) && decide (f.fn < 8) && decide (f.d < 64) && decide (f.a < 64) && decide (f.b < 64) && extFits f.ext
def FI.fits (f : FI) : Bool :=
  decide (f.g < 16) && decide (f.d < 64) && decide (f.a < 64) && decide (f.imm9 < 512) && extFits f.ext
def FB.fits (f : FB) : Bool := decide (f.g < 16) && decide (f.imm21 < 2 ^ 21) && extFits f.ext
def FK.fits (f : FK) : Bool := decide (f.g < 16) && decide (f.reg < 64) && decide (f.csr < 4096)
def FM.fits (f : FM) : Bool :=
  decide (f.g < 16) && decide (f.fn < 8) && decide (f.td < 16) && decide (f.ta < 16) && decide (f.tb < 16) &&
  decide (f.ka < 8) && decide (f.kb < 8) && extFits f.ext
def FY.fits (f : FY) : Bool :=
  decide (f.g < 16) && decide (f.kind < 8) && decide (f.flag < 16) && decide (f.a < 64) && decide (f.b < 64) && extFits f.ext
def FW.fits (f : FW) : Bool := decide (f.g < 16) && decide (f.mask < 65536)
/-- A move's fields; the immediate word is 0 unless SRC is 0x7FF. -/
def LM.fits (m : LM) : Bool :=
  decide (m.gq < 4) && decide (m.src < 4096) && decide (m.imm < 2 ^ 32) && (m.src == 0x7FF || m.imm == 0)

/-- The fields of an instruction lie within their widths; an event has no encoding and none to check. -/
def Instr.fits : Instr → Bool
  | .nop g => decide (g < 16)
  | .add f | .sub f | .mul f | .mulh f | .div f | .rem f | .and f | .or f | .xor f | .shl f | .shr f | .sra f
  | .min f | .max f | .clz f | .popc f | .sel f | .setp f | .jmp f | .ret f | .loop f | .lbrk f | .exit f
  | .sret f | .fence f | .join f | .leave f | .grp f | .launch f | .yieldOp f | .dress f | .plog f | .pmov f | .tdef f
  | .vadd f | .vsub f | .vmul f | .vfma f | .vmin f | .vmax f | .vabs f | .vneg f | .vand f | .vor f | .vxor f
  | .vshl f | .vshr f | .vsra f | .vcmp f | .vsel f | .vred f | .vscan f | .vperm f | .vbcast f | .vextr f
  | .vrcp f | .vrsq f | .vexp2 f | .vlog2 f | .viota f | .vdot4 f
  | .lds f | .sts f | .ldv f | .stv f | .ldvs f | .stvs f | .ldvx f | .stvx f | .pref f | .atom f | .accv f
  | .cflush f | .cinv f
  | .cvt f | .qnt f | .dqnt f | .ldk f | .stk f | .movk f | .rndw f | .rndc f | .sealTile f | .openTile f
  | .pack f | .unpack f
  | .cpy f | .cpyD f | .send f | .arm f | .disarm f | .cadd f | .caddf f | .caddm f | .mcst f | .cload f | .coll f
  | .gen f | .qstat f => f.fits
  | .addi f | .andi f | .ori f | .xori f | .shli f | .shri f | .srai f | .movi f | .movh f => f.fits
  | .br f | .call f | .loopi f | .svc f => f.fits
  | .csrr f | .csrw f | .csrwSet f | .csrwClr f => f.fits
  | .mldb f | .mma f | .mtrn f | .mscl f | .madd f | .mcvt f | .mzero f | .mcpy f | .mvs f | .mqnt f => f.fits
  | .waitf f => f.fits
  | .watch f | .unwatch f => f.fits
  | .move m d => m.fits && decide (d < 4096)
  | .aluAdd m | .aluSub m | .aluAnd m | .aluOr m | .aluXor m | .aluShl m | .aluShr m | .aluSra m | .aluEq m | .aluLt m
  | .aluLtu m | .aluSel m | .lsuLd32 m | .lsuLd64 m | .lsuSt32 m | .lsuSt64 m | .evqPop m | .evqPeek m
  | .txuTxdesc m | .txuRetx m | .txuAcknow m | .bmuBset m | .bmuBtest m | .bmuBffc m | .bmuBcnt m
  | .ccuWinupd m | .ccuRateset m | .tmrTarm m | .tmrTcancel m | .ctrCadd m | .pcJump m | .pcCall m | .pcRet m
  | .pcHalt m => m.fits
  | _ => true

/-- A well-formed instruction: it fits its encoding and passes the decode checks of R179. -/
def Instr.wf (i : Instr) : Bool := i.fits && (legal i).isNone

end Sys2Proof
end

