-- ==== Sys2Proof/Decode.lean ====
section
/-! DEFINITION. The decoder of slot words, bundles and move slots, and the encoder, both from the encoding tables of 08 and 22.
Every function is total; what the spec refuses is refused with the fault code that R179, R403, R404 or R406 names. -/

namespace Sys2Proof

open Sys2Proof.Machine

/-! ### Fields of the layouts (R168, R170) -/

def getF3 (w : Nat) (ext : Option Nat) : F3 := ⟨bits w 31 28, bits w 20 18, bits w 17 12, bits w 11 6, bits w 5 0, ext⟩
def getFI (w : Nat) (ext : Option Nat) : FI := ⟨bits w 31 28, bits w 20 15, bits w 14 9, bits w 8 0, ext⟩
def getFB (w : Nat) (ext : Option Nat) : FB := ⟨bits w 31 28, bits w 20 0, ext⟩
def getFK (w : Nat) : FK := ⟨bits w 31 28, bits w 20 15, bits w 11 0⟩
def getFM (w : Nat) (ext : Option Nat) : FM :=
  ⟨bits w 31 28, bits w 20 18, bits w 17 14, bits w 13 10, bits w 9 6, bits w 5 3, bits w 2 0, ext⟩
def getFY (w : Nat) (ext : Option Nat) : FY := ⟨bits w 31 28, bits w 20 18, bits w 17 14, bits w 11 6, bits w 5 0, ext⟩
def getFW (w : Nat) : FW := ⟨bits w 31 28, bits w 15 0⟩

/-- The EXT bit as a number (R168). -/
def extBit (e : Option Nat) : Nat := if e.isSome then 2097152 else 0

def putF3 (opc : Nat) (f : F3) : Nat :=
  f.g * 268435456 + opc * 4194304 + extBit f.ext + f.fn * 262144 + f.d * 4096 + f.a * 64 + f.b
def putFI (opc : Nat) (f : FI) : Nat :=
  f.g * 268435456 + opc * 4194304 + extBit f.ext + f.d * 32768 + f.a * 512 + f.imm9
def putFB (opc : Nat) (f : FB) : Nat := f.g * 268435456 + opc * 4194304 + extBit f.ext + f.imm21
def putFK (opc fn : Nat) (f : FK) : Nat := f.g * 268435456 + opc * 4194304 + f.reg * 32768 + fn * 4096 + f.csr
def putFM (opc : Nat) (f : FM) : Nat :=
  f.g * 268435456 + opc * 4194304 + extBit f.ext + f.fn * 262144 + f.td * 16384 + f.ta * 1024 + f.tb * 64 + f.ka * 8 + f.kb
def putFY (opc : Nat) (f : FY) : Nat :=
  f.g * 268435456 + opc * 4194304 + extBit f.ext + f.kind * 262144 + f.flag * 16384 + f.a * 64 + f.b
def putFW (opc : Nat) (f : FW) : Nat := f.g * 268435456 + opc * 4194304 + f.mask

/-- NOP requires bits [21:0] zero (R171). -/
def decodeNop (w : Nat) : Option Instr := if bits w 21 0 == 0 then some (.nop (bits w 31 28)) else none

/-- CSRW FN 0 to 2 (R202); the EXT bit is refused (R172). -/
def decodeCsrw (w : Nat) : Option Instr :=
  if bits w 21 21 == 0 then
    match bits w 14 12 with
    | 0 => some (.csrw (getFK w))
    | 1 => some (.csrwSet (getFK w))
    | 2 => some (.csrwClr (getFK w))
    | _ => none
  else none

/-- The S column of the opcode map (R177). -/
def decodeS (w : Nat) (ext : Option Nat) : Option Instr :=
  match bits w 27 22 with
  | 0 => decodeNop w
  | 1 => some (.add (getF3 w ext))
  | 2 => some (.sub (getF3 w ext))
  | 3 => some (.mul (getF3 w ext))
  | 4 => some (.mulh (getF3 w ext))
  | 5 => some (.div (getF3 w ext))
  | 6 => some (.rem (getF3 w ext))
  | 7 => some (.and (getF3 w ext))
  | 8 => some (.or (getF3 w ext))
  | 9 => some (.xor (getF3 w ext))
  | 10 => some (.shl (getF3 w ext))
  | 11 => some (.shr (getF3 w ext))
  | 12 => some (.sra (getF3 w ext))
  | 13 => some (.min (getF3 w ext))
  | 14 => some (.max (getF3 w ext))
  | 15 => some (.clz (getF3 w ext))
  | 16 => some (.popc (getF3 w ext))
  | 17 => some (.sel (getF3 w ext))
  | 18 => some (.setp (getF3 w ext))
  | 19 => some (.addi (getFI w ext))
  | 20 => some (.andi (getFI w ext))
  | 21 => some (.ori (getFI w ext))
  | 22 => some (.xori (getFI w ext))
  | 23 => some (.shli (getFI w ext))
  | 24 => some (.shri (getFI w ext))
  | 25 => some (.srai (getFI w ext))
  | 26 => some (.movi (getFI w ext))
  | 27 => some (.movh (getFI w ext))
  | 28 => some (.br (getFB w ext))
  | 29 => some (.jmp (getF3 w ext))
  | 30 => some (.call (getFB w ext))
  | 31 => some (.ret (getF3 w ext))
  | 32 => some (.loop (getF3 w ext))
  | 33 => some (.loopi (getFB w ext))
  | 34 => some (.lbrk (getF3 w ext))
  | 35 => some (.exit (getF3 w ext))
  | 36 => if bits w 21 21 == 0 && bits w 14 12 == 0 then some (.csrr (getFK w)) else none
  | 37 => decodeCsrw w
  | 38 => some (.svc (getFB w ext))
  | 39 => some (.sret (getF3 w ext))
  | 40 => some (.fence (getF3 w ext))
  | 41 => some (.join (getF3 w ext))
  | 42 => some (.leave (getF3 w ext))
  | 43 => some (.grp (getF3 w ext))
  | 44 => some (.launch (getF3 w ext))
  | 45 => some (.yieldOp (getF3 w ext))
  | 46 => some (.dress (getF3 w ext))
  | 47 => some (.plog (getF3 w ext))
  | 48 => some (.pmov (getF3 w ext))
  | 49 => some (.tdef (getF3 w ext))
  | _ => none

/-- The V column of the opcode map (R177). -/
def decodeV (w : Nat) (ext : Option Nat) : Option Instr :=
  match bits w 27 22 with
  | 0 => decodeNop w
  | 1 => some (.vadd (getF3 w ext))
  | 2 => some (.vsub (getF3 w ext))
  | 3 => some (.vmul (getF3 w ext))
  | 4 => some (.vfma (getF3 w ext))
  | 5 => some (.vmin (getF3 w ext))
  | 6 => some (.vmax (getF3 w ext))
  | 7 => some (.vabs (getF3 w ext))
  | 8 => some (.vneg (getF3 w ext))
  | 9 => some (.vand (getF3 w ext))
  | 10 => some (.vor (getF3 w ext))
  | 11 => some (.vxor (getF3 w ext))
  | 12 => some (.vshl (getF3 w ext))
  | 13 => some (.vshr (getF3 w ext))
  | 14 => some (.vsra (getF3 w ext))
  | 15 => some (.vcmp (getF3 w ext))
  | 16 => some (.vsel (getF3 w ext))
  | 17 => some (.vred (getF3 w ext))
  | 18 => some (.vscan (getF3 w ext))
  | 19 => some (.vperm (getF3 w ext))
  | 20 => some (.vbcast (getF3 w ext))
  | 21 => some (.vextr (getF3 w ext))
  | 22 => some (.vrcp (getF3 w ext))
  | 23 => some (.vrsq (getF3 w ext))
  | 24 => some (.vexp2 (getF3 w ext))
  | 25 => some (.vlog2 (getF3 w ext))
  | 26 => some (.viota (getF3 w ext))
  | 27 => some (.vdot4 (getF3 w ext))
  | _ => none

/-- The L column of the opcode map (R177). -/
def decodeL (w : Nat) (ext : Option Nat) : Option Instr :=
  match bits w 27 22 with
  | 0 => decodeNop w
  | 1 => some (.lds (getF3 w ext))
  | 2 => some (.sts (getF3 w ext))
  | 3 => some (.ldv (getF3 w ext))
  | 4 => some (.stv (getF3 w ext))
  | 5 => some (.ldvs (getF3 w ext))
  | 6 => some (.stvs (getF3 w ext))
  | 7 => some (.ldvx (getF3 w ext))
  | 8 => some (.stvx (getF3 w ext))
  | 9 => some (.pref (getF3 w ext))
  | 10 => some (.atom (getF3 w ext))
  | 11 => some (.accv (getF3 w ext))
  | 12 => some (.cflush (getF3 w ext))
  | 13 => some (.cinv (getF3 w ext))
  | _ => none

/-- The X column of the opcode map (R177). -/
def decodeX (w : Nat) (ext : Option Nat) : Option Instr :=
  match bits w 27 22 with
  | 0 => decodeNop w
  | 1 => some (.cvt (getF3 w ext))
  | 2 => some (.qnt (getF3 w ext))
  | 3 => some (.dqnt (getF3 w ext))
  | 4 => some (.ldk (getF3 w ext))
  | 5 => some (.stk (getF3 w ext))
  | 6 => some (.movk (getF3 w ext))
  | 7 => some (.rndw (getF3 w ext))
  | 8 => some (.rndc (getF3 w ext))
  | 9 => some (.sealTile (getF3 w ext))
  | 10 => some (.openTile (getF3 w ext))
  | 11 => some (.pack (getF3 w ext))
  | 12 => some (.unpack (getF3 w ext))
  | _ => none

/-- The M column of the opcode map (R177). -/
def decodeM (w : Nat) (ext : Option Nat) : Option Instr :=
  match bits w 27 22 with
  | 0 => decodeNop w
  | 1 => some (.mldb (getFM w ext))
  | 2 => some (.mma (getFM w ext))
  | 3 => some (.mtrn (getFM w ext))
  | 4 => some (.mscl (getFM w ext))
  | 5 => some (.madd (getFM w ext))
  | 6 => some (.mcvt (getFM w ext))
  | 7 => some (.mzero (getFM w ext))
  | 8 => some (.mcpy (getFM w ext))
  | 9 => some (.mvs (getFM w ext))
  | 10 => some (.mqnt (getFM w ext))
  | _ => none

/-- The C column of the opcode map (R177). -/
def decodeC (w : Nat) (ext : Option Nat) : Option Instr :=
  match bits w 27 22 with
  | 0 => decodeNop w
  | 1 => some (if bits w 20 18 == 0 then .cpy (getF3 w ext) else .cpyD (getF3 w ext))
  | 2 => some (.send (getF3 w ext))
  | 3 => some (.arm (getF3 w ext))
  | 4 => some (.disarm (getF3 w ext))
  | 5 => some (.cadd (getF3 w ext))
  | 6 => some (.caddf (getF3 w ext))
  | 7 => some (.caddm (getF3 w ext))
  | 8 => some (.mcst (getF3 w ext))
  | 9 => some (.cload (getF3 w ext))
  | 10 => some (.coll (getF3 w ext))
  | 11 => some (.gen (getF3 w ext))
  | 12 => some (.qstat (getF3 w ext))
  | _ => none

/-- The Y column of the opcode map (R177). -/
def decodeY (w : Nat) (ext : Option Nat) : Option Instr :=
  match bits w 27 22 with
  | 0 => decodeNop w
  | 1 => if bits w 21 16 == 0 then some (.waitf (getFW w)) else none
  | 2 => if bits w 13 12 == 0 then some (.watch (getFY w ext)) else none
  | 3 => if bits w 13 12 == 0 then some (.unwatch (getFY w ext)) else none
  | _ => none

/-- One slot word with its extension word, before the checks of R179: none when the opcode or form is not listed (R177). -/
def decodeRaw (slot w : Nat) (ext : Option Nat) : Option Instr :=
  match slot with
  | 0 => decodeS w ext
  | 1 => decodeV w ext
  | 2 => decodeL w ext
  | 3 => decodeX w ext
  | 4 => decodeM w ext
  | 5 => decodeM w ext
  | 6 => decodeC w ext
  | 7 => decodeY w ext
  | _ => none

/-- One slot word, steps 4 to 6 of R179: the instruction, or the fault code it raises. -/
def decodeSlot (slot w : Nat) (ext : Option Nat) : Except Nat Instr :=
  match decodeRaw slot w ext with
  | none => .error cIllegalOp
  | some i =>
    match legal i with
    | some c => .error c
    | none => .ok i

/-! ### Adesal (R402 to R406) -/

/-- The fields of a move slot (R402); imm is the next slot's word, used when SRC is 0x7FF. -/
def getLM (w imm : Nat) : LM :=
  ⟨bits w 31 31 == 1, bits w 30 29, bits w 28 28 == 1, bits w 27 16, if bits w 27 16 == 0x7FF then imm % 4294967296 else 0⟩
def putLM (m : LM) (dst : Nat) : Nat :=
  (if m.gen then 2147483648 else 0) + m.gq * 536870912 + (if m.ginv then 268435456 else 0) + m.src * 65536 + dst * 16
/-- The word after a move whose source is a long immediate (R403). -/
def putImm (m : LM) : Option Nat := if m.src == 0x7FF then some m.imm else none

/-- The trigger ports of R404; every other destination is a plain move. -/
def leatCtor (m : LM) (dst : Nat) : Instr :=
  match dst with
  | 0x110 => .aluAdd m
  | 0x111 => .aluSub m
  | 0x112 => .aluAnd m
  | 0x113 => .aluOr m
  | 0x114 => .aluXor m
  | 0x115 => .aluShl m
  | 0x116 => .aluShr m
  | 0x117 => .aluSra m
  | 0x118 => .aluEq m
  | 0x119 => .aluLt m
  | 0x11A => .aluLtu m
  | 0x11B => .aluSel m
  | 0x130 => .lsuLd32 m
  | 0x131 => .lsuLd64 m
  | 0x132 => .lsuSt32 m
  | 0x133 => .lsuSt64 m
  | 0x140 => .evqPop m
  | 0x141 => .evqPeek m
  | 0x160 => .txuTxdesc m
  | 0x161 => .txuRetx m
  | 0x162 => .txuAcknow m
  | 0x180 => .bmuBset m
  | 0x181 => .bmuBtest m
  | 0x182 => .bmuBffc m
  | 0x183 => .bmuBcnt m
  | 0x1A0 => .ccuWinupd m
  | 0x1A1 => .ccuRateset m
  | 0x1C0 => .tmrTarm m
  | 0x1C1 => .tmrTcancel m
  | 0x1E0 => .ctrCadd m
  | 0x1F0 => .pcJump m
  | 0x1F1 => .pcCall m
  | 0x1F2 => .pcRet m
  | 0x1F3 => .pcHalt m
  | d => .move m d

/-- One move slot (R402 to R404, R406), or the fault code it raises alone. -/
def decodeMove (w imm : Nat) : Except Nat Instr :=
  if bits w 3 0 != 0 then .error cIllegalBundle
  else
    match legal (leatCtor (getLM w imm) (bits w 15 4)) with
    | some c => .error c
    | none => .ok (leatCtor (getLM w imm) (bits w 15 4))

/-! ### The encoder -/

/-- The words of an encoded instruction: its slot (R164; 4 for either M slot, 8 for an Adesal move), its word and, when it has
one, the word that follows. -/
structure Encoded where
  slot : Nat
  word : Nat
  ext : Option Nat
  deriving DecidableEq, Repr

/-- The encoding of an instruction, from the tables of 08 and 22; events have none. -/
def encode : Instr → Option Encoded
  | .nop g => some ⟨0, g * 268435456, none⟩
  | .add f => some ⟨0, putF3 1 f, f.ext⟩
  | .sub f => some ⟨0, putF3 2 f, f.ext⟩
  | .mul f => some ⟨0, putF3 3 f, f.ext⟩
  | .mulh f => some ⟨0, putF3 4 f, f.ext⟩
  | .div f => some ⟨0, putF3 5 f, f.ext⟩
  | .rem f => some ⟨0, putF3 6 f, f.ext⟩
  | .and f => some ⟨0, putF3 7 f, f.ext⟩
  | .or f => some ⟨0, putF3 8 f, f.ext⟩
  | .xor f => some ⟨0, putF3 9 f, f.ext⟩
  | .shl f => some ⟨0, putF3 10 f, f.ext⟩
  | .shr f => some ⟨0, putF3 11 f, f.ext⟩
  | .sra f => some ⟨0, putF3 12 f, f.ext⟩
  | .min f => some ⟨0, putF3 13 f, f.ext⟩
  | .max f => some ⟨0, putF3 14 f, f.ext⟩
  | .clz f => some ⟨0, putF3 15 f, f.ext⟩
  | .popc f => some ⟨0, putF3 16 f, f.ext⟩
  | .sel f => some ⟨0, putF3 17 f, f.ext⟩
  | .setp f => some ⟨0, putF3 18 f, f.ext⟩
  | .addi f => some ⟨0, putFI 19 f, f.ext⟩
  | .andi f => some ⟨0, putFI 20 f, f.ext⟩
  | .ori f => some ⟨0, putFI 21 f, f.ext⟩
  | .xori f => some ⟨0, putFI 22 f, f.ext⟩
  | .shli f => some ⟨0, putFI 23 f, f.ext⟩
  | .shri f => some ⟨0, putFI 24 f, f.ext⟩
  | .srai f => some ⟨0, putFI 25 f, f.ext⟩
  | .movi f => some ⟨0, putFI 26 f, f.ext⟩
  | .movh f => some ⟨0, putFI 27 f, f.ext⟩
  | .br f => some ⟨0, putFB 28 f, f.ext⟩
  | .jmp f => some ⟨0, putF3 29 f, f.ext⟩
  | .call f => some ⟨0, putFB 30 f, f.ext⟩
  | .ret f => some ⟨0, putF3 31 f, f.ext⟩
  | .loop f => some ⟨0, putF3 32 f, f.ext⟩
  | .loopi f => some ⟨0, putFB 33 f, f.ext⟩
  | .lbrk f => some ⟨0, putF3 34 f, f.ext⟩
  | .exit f => some ⟨0, putF3 35 f, f.ext⟩
  | .csrr f => some ⟨0, putFK 36 0 f, none⟩
  | .csrw f => some ⟨0, putFK 37 0 f, none⟩
  | .csrwSet f => some ⟨0, putFK 37 1 f, none⟩
  | .csrwClr f => some ⟨0, putFK 37 2 f, none⟩
  | .svc f => some ⟨0, putFB 38 f, f.ext⟩
  | .sret f => some ⟨0, putF3 39 f, f.ext⟩
  | .fence f => some ⟨0, putF3 40 f, f.ext⟩
  | .join f => some ⟨0, putF3 41 f, f.ext⟩
  | .leave f => some ⟨0, putF3 42 f, f.ext⟩
  | .grp f => some ⟨0, putF3 43 f, f.ext⟩
  | .launch f => some ⟨0, putF3 44 f, f.ext⟩
  | .yieldOp f => some ⟨0, putF3 45 f, f.ext⟩
  | .dress f => some ⟨0, putF3 46 f, f.ext⟩
  | .plog f => some ⟨0, putF3 47 f, f.ext⟩
  | .pmov f => some ⟨0, putF3 48 f, f.ext⟩
  | .tdef f => some ⟨0, putF3 49 f, f.ext⟩
  | .vadd f => some ⟨1, putF3 1 f, f.ext⟩
  | .vsub f => some ⟨1, putF3 2 f, f.ext⟩
  | .vmul f => some ⟨1, putF3 3 f, f.ext⟩
  | .vfma f => some ⟨1, putF3 4 f, f.ext⟩
  | .vmin f => some ⟨1, putF3 5 f, f.ext⟩
  | .vmax f => some ⟨1, putF3 6 f, f.ext⟩
  | .vabs f => some ⟨1, putF3 7 f, f.ext⟩
  | .vneg f => some ⟨1, putF3 8 f, f.ext⟩
  | .vand f => some ⟨1, putF3 9 f, f.ext⟩
  | .vor f => some ⟨1, putF3 10 f, f.ext⟩
  | .vxor f => some ⟨1, putF3 11 f, f.ext⟩
  | .vshl f => some ⟨1, putF3 12 f, f.ext⟩
  | .vshr f => some ⟨1, putF3 13 f, f.ext⟩
  | .vsra f => some ⟨1, putF3 14 f, f.ext⟩
  | .vcmp f => some ⟨1, putF3 15 f, f.ext⟩
  | .vsel f => some ⟨1, putF3 16 f, f.ext⟩
  | .vred f => some ⟨1, putF3 17 f, f.ext⟩
  | .vscan f => some ⟨1, putF3 18 f, f.ext⟩
  | .vperm f => some ⟨1, putF3 19 f, f.ext⟩
  | .vbcast f => some ⟨1, putF3 20 f, f.ext⟩
  | .vextr f => some ⟨1, putF3 21 f, f.ext⟩
  | .vrcp f => some ⟨1, putF3 22 f, f.ext⟩
  | .vrsq f => some ⟨1, putF3 23 f, f.ext⟩
  | .vexp2 f => some ⟨1, putF3 24 f, f.ext⟩
  | .vlog2 f => some ⟨1, putF3 25 f, f.ext⟩
  | .viota f => some ⟨1, putF3 26 f, f.ext⟩
  | .vdot4 f => some ⟨1, putF3 27 f, f.ext⟩
  | .lds f => some ⟨2, putF3 1 f, f.ext⟩
  | .sts f => some ⟨2, putF3 2 f, f.ext⟩
  | .ldv f => some ⟨2, putF3 3 f, f.ext⟩
  | .stv f => some ⟨2, putF3 4 f, f.ext⟩
  | .ldvs f => some ⟨2, putF3 5 f, f.ext⟩
  | .stvs f => some ⟨2, putF3 6 f, f.ext⟩
  | .ldvx f => some ⟨2, putF3 7 f, f.ext⟩
  | .stvx f => some ⟨2, putF3 8 f, f.ext⟩
  | .pref f => some ⟨2, putF3 9 f, f.ext⟩
  | .atom f => some ⟨2, putF3 10 f, f.ext⟩
  | .accv f => some ⟨2, putF3 11 f, f.ext⟩
  | .cflush f => some ⟨2, putF3 12 f, f.ext⟩
  | .cinv f => some ⟨2, putF3 13 f, f.ext⟩
  | .cvt f => some ⟨3, putF3 1 f, f.ext⟩
  | .qnt f => some ⟨3, putF3 2 f, f.ext⟩
  | .dqnt f => some ⟨3, putF3 3 f, f.ext⟩
  | .ldk f => some ⟨3, putF3 4 f, f.ext⟩
  | .stk f => some ⟨3, putF3 5 f, f.ext⟩
  | .movk f => some ⟨3, putF3 6 f, f.ext⟩
  | .rndw f => some ⟨3, putF3 7 f, f.ext⟩
  | .rndc f => some ⟨3, putF3 8 f, f.ext⟩
  | .sealTile f => some ⟨3, putF3 9 f, f.ext⟩
  | .openTile f => some ⟨3, putF3 10 f, f.ext⟩
  | .pack f => some ⟨3, putF3 11 f, f.ext⟩
  | .unpack f => some ⟨3, putF3 12 f, f.ext⟩
  | .mldb f => some ⟨4, putFM 1 f, f.ext⟩
  | .mma f => some ⟨4, putFM 2 f, f.ext⟩
  | .mtrn f => some ⟨4, putFM 3 f, f.ext⟩
  | .mscl f => some ⟨4, putFM 4 f, f.ext⟩
  | .madd f => some ⟨4, putFM 5 f, f.ext⟩
  | .mcvt f => some ⟨4, putFM 6 f, f.ext⟩
  | .mzero f => some ⟨4, putFM 7 f, f.ext⟩
  | .mcpy f => some ⟨4, putFM 8 f, f.ext⟩
  | .mvs f => some ⟨4, putFM 9 f, f.ext⟩
  | .mqnt f => some ⟨4, putFM 10 f, f.ext⟩
  | .cpy f => some ⟨6, putF3 1 f, f.ext⟩
  | .cpyD f => some ⟨6, putF3 1 f, f.ext⟩
  | .send f => some ⟨6, putF3 2 f, f.ext⟩
  | .arm f => some ⟨6, putF3 3 f, f.ext⟩
  | .disarm f => some ⟨6, putF3 4 f, f.ext⟩
  | .cadd f => some ⟨6, putF3 5 f, f.ext⟩
  | .caddf f => some ⟨6, putF3 6 f, f.ext⟩
  | .caddm f => some ⟨6, putF3 7 f, f.ext⟩
  | .mcst f => some ⟨6, putF3 8 f, f.ext⟩
  | .cload f => some ⟨6, putF3 9 f, f.ext⟩
  | .coll f => some ⟨6, putF3 10 f, f.ext⟩
  | .gen f => some ⟨6, putF3 11 f, f.ext⟩
  | .qstat f => some ⟨6, putF3 12 f, f.ext⟩
  | .waitf f => some ⟨7, putFW 1 f, none⟩
  | .watch f => some ⟨7, putFY 2 f, f.ext⟩
  | .unwatch f => some ⟨7, putFY 3 f, f.ext⟩
  | .aluAdd m => some ⟨8, putLM m 0x110, putImm m⟩
  | .aluSub m => some ⟨8, putLM m 0x111, putImm m⟩
  | .aluAnd m => some ⟨8, putLM m 0x112, putImm m⟩
  | .aluOr m => some ⟨8, putLM m 0x113, putImm m⟩
  | .aluXor m => some ⟨8, putLM m 0x114, putImm m⟩
  | .aluShl m => some ⟨8, putLM m 0x115, putImm m⟩
  | .aluShr m => some ⟨8, putLM m 0x116, putImm m⟩
  | .aluSra m => some ⟨8, putLM m 0x117, putImm m⟩
  | .aluEq m => some ⟨8, putLM m 0x118, putImm m⟩
  | .aluLt m => some ⟨8, putLM m 0x119, putImm m⟩
  | .aluLtu m => some ⟨8, putLM m 0x11A, putImm m⟩
  | .aluSel m => some ⟨8, putLM m 0x11B, putImm m⟩
  | .lsuLd32 m => some ⟨8, putLM m 0x130, putImm m⟩
  | .lsuLd64 m => some ⟨8, putLM m 0x131, putImm m⟩
  | .lsuSt32 m => some ⟨8, putLM m 0x132, putImm m⟩
  | .lsuSt64 m => some ⟨8, putLM m 0x133, putImm m⟩
  | .evqPop m => some ⟨8, putLM m 0x140, putImm m⟩
  | .evqPeek m => some ⟨8, putLM m 0x141, putImm m⟩
  | .txuTxdesc m => some ⟨8, putLM m 0x160, putImm m⟩
  | .txuRetx m => some ⟨8, putLM m 0x161, putImm m⟩
  | .txuAcknow m => some ⟨8, putLM m 0x162, putImm m⟩
  | .bmuBset m => some ⟨8, putLM m 0x180, putImm m⟩
  | .bmuBtest m => some ⟨8, putLM m 0x181, putImm m⟩
  | .bmuBffc m => some ⟨8, putLM m 0x182, putImm m⟩
  | .bmuBcnt m => some ⟨8, putLM m 0x183, putImm m⟩
  | .ccuWinupd m => some ⟨8, putLM m 0x1A0, putImm m⟩
  | .ccuRateset m => some ⟨8, putLM m 0x1A1, putImm m⟩
  | .tmrTarm m => some ⟨8, putLM m 0x1C0, putImm m⟩
  | .tmrTcancel m => some ⟨8, putLM m 0x1C1, putImm m⟩
  | .ctrCadd m => some ⟨8, putLM m 0x1E0, putImm m⟩
  | .pcJump m => some ⟨8, putLM m 0x1F0, putImm m⟩
  | .pcCall m => some ⟨8, putLM m 0x1F1, putImm m⟩
  | .pcRet m => some ⟨8, putLM m 0x1F2, putImm m⟩
  | .pcHalt m => some ⟨8, putLM m 0x1F3, putImm m⟩
  | .move m d => some ⟨8, putLM m d, putImm m⟩
  | _ => none

/-- Decode an encoded instruction again. -/
def decodeEncoded (e : Encoded) : Option Instr :=
  if e.slot == 8 then (decodeMove e.word (e.ext.getD 0)).toOption else (decodeSlot e.slot e.word e.ext).toOption

/-! ### Bundles (R164 to R166, R179) -/

/-- One present slot operation of a bundle, with its words for sticky re-issue (R146). -/
structure SlotOp where
  slot : Nat
  op : Instr
  word : Nat
  ext : Option Nat
  deriving DecidableEq, Repr

/-- The header's fields (R164) and the present slot operations in slot order. -/
structure Bundle where
  len : Nat
  rep : Nat
  ckpt : Bool
  stick : Bool
  lend : Bool
  ops : List SlotOp
  deriving DecidableEq, Repr

/-- A slot is present (R164). -/
def presBit (h slot : Nat) : Bool := h.testBit (31 - slot)

/-- Split the words after a header among the present slots (R164): each slot word and its extension word. None when LEN disagrees
with R165. -/
def splitWords (h : Nat) : List Nat → List Nat → Option (List (Nat × Nat × Option Nat))
  | [], [] => some []
  | [], _ :: _ => none
  | slot :: slots, ws =>
    if presBit h slot then
      match ws with
      | [] => none
      | w :: ws' =>
        if w.testBit 21 then
          match ws' with
          | [] => none
          | x :: ws'' => (splitWords h slots ws'').map ((slot, w, some x) :: ·)
        else (splitWords h slots ws').map ((slot, w, none) :: ·)
    else splitWords h slots ws

/-- The operations that pop one random word by decode alone (R221): rounding by STO, RNDW and RNDC. A form that never rounds pops nothing,
whatever its RM holds (R58, R220). -/
def pops : Instr → Bool
  | .rndw _ => true
  | .rndc _ => true
  | .vadd f | .vsub f | .vmul f | .vfma f | .viota f | .vdot4 f => vRm f == 5 && !ltInt f.fn
  | .vrcp f | .vrsq f | .vexp2 f | .vlog2 f => vRm f == 5
  | .cvt f => xRm f == 5 && !cvtExact f.fn (xTy f)
  | .dqnt f => xRm f == 5 && !(f.fn == 1 || f.fn == 2)
  | .qnt f => xRm f == 5
  | .mscl f | .madd f | .mcvt f | .mqnt f => mRm f == 5
  | _ => false

/-- S instructions that may not share a bundle with REP (R166). -/
def noRep : Instr → Bool
  | .br _ | .jmp _ | .call _ | .ret _ | .exit _ | .svc _ | .sret _ | .loop _ | .loopi _ | .lbrk _ | .join _ | .leave _ => true
  | _ => false
/-- S instructions that may not share a bundle with LEND (R166). -/
def noLend : Instr → Bool
  | .br _ | .jmp _ | .call _ | .ret _ | .svc _ | .sret _ | .loop _ | .loopi _ => true
  | _ => false

/-- Where a bundle is decoded: the privilege (R155), the slot that R163 refuses on this core, if any, whether only the
scalar profile may issue (R432), and the slots that a re-execution under IGNORE masks in this instance (R41, R179). -/
structure DecodeCtx where
  service : Bool
  deadSlot : Option Nat
  profile : Bool
  masked : List Nat := []

/-- Steps 4 to 6 for one slot (R179), with the M slot of PRIVATE (R163) and the scalar profile (R432). -/
def checkSlot (c : DecodeCtx) (x : Nat × Nat × Option Nat) : Except (Nat × Nat) SlotOp :=
  match decodeSlot x.1 x.2.1 x.2.2 with
  | .ok i =>
    if c.deadSlot == some x.1 && bits x.2.1 27 22 != 0 then .error (cIllegalOp, x.1)
    else if c.profile && !(x.1 == 0 || x.1 == 2 || x.1 == 6) then .error (cIllegalOp, x.1)
    else .ok ⟨x.1, i, x.2.1, x.2.2⟩
  | .error e =>
    if (c.deadSlot == some x.1 || (c.profile && !(x.1 == 0 || x.1 == 2 || x.1 == 6))) && (decodeRaw x.1 x.2.1 x.2.2).isSome then
      .error (cIllegalOp, x.1)
    else .error (e, x.1)

/-- Steps 4 to 6 for each present slot in order (R179); a masked slot that fails them is not reported again. -/
def checkSlots (c : DecodeCtx) : List (Nat × Nat × Option Nat) → Except (Nat × Nat) (List SlotOp)
  | [] => .ok []
  | x :: xs =>
    let r : Except (Nat × Nat) SlotOp := match checkSlot c x with
      | .ok o => .ok o
      | .error e => if c.masked.contains x.1 then .ok ⟨x.1, .nop 0, x.2.1, x.2.2⟩ else .error e
    match r with
    | .error e => .error e
    | .ok o =>
      match checkSlots c xs with
      | .error e => .error e
      | .ok os => .ok (o :: os)

/-- The words that LEN gives (R164). -/
def bundleLen (h : Nat) : Nat := bits h 15 12

/-- Decode a bundle instance from its header and the LEN words after it, in the order of R179. An error is the fault code and the
slot of its record (9 for none, R379). -/
def decodeBundle (c : DecodeCtx) (h : Nat) (ws : List Nat) : Except (Nat × Nat) Bundle :=
  if bits h 16 16 != 0 || bits h 11 0 != 0 then .error (cIllegalBundle, 9)
  else
    match splitWords h [0, 1, 2, 3, 4, 5, 6, 7] ws with
    | none => .error (cIllegalBundle, 9)
    | some xs =>
      let raws := xs.filterMap fun x => decodeRaw x.1 x.2.1 x.2.2
      if (bits h 23 20 != 0 && raws.any noRep) || (bits h 17 17 == 1 && raws.any noLend) || decide (1 < (raws.filter pops).length) then
        .error (cIllegalBundle, 9)
      else
        match (if c.service then xs.find? fun x => !(x.1 == 0 || x.1 == 2) && !c.masked.contains x.1 else none) with
        | some x => .error (cPriv, x.1)
        | none =>
          match checkSlots c xs with
          | .error e => .error e
          | .ok ops => .ok ⟨bundleLen h, bits h 23 20, bits h 19 19 == 1, bits h 18 18 == 1, bits h 17 17 == 1, ops⟩

/-- The words of a byte list, little-endian (00 R3). -/
def wordsOf : List Byte → List Nat
  | b0 :: b1 :: b2 :: b3 :: rest => leNat [b0, b1, b2, b3] :: wordsOf rest
  | _ => []

/-- The four move slots of a 128-bit word (R402). -/
def moveSlots (bs : List Byte) : List Nat := (wordsOf bs).take 4

/-- One move of a decoded Adesal word: its slot, the move, its destination code. -/
structure LeatMove where
  slot : Nat
  op : Instr
  dst : Nat
  deriving DecidableEq, Repr

/-- The unit a trigger port belongs to (R404). -/
def leatUnit (dst : Nat) : Nat := dst / 16

/-- The moves of a word with their slots; the slot after a long immediate is no move (R403). -/
def leatMoveList : Nat → List Nat → List (Nat × Nat × Nat)
  | k, w :: x :: rest =>
    if bits w 27 16 == 0x7FF then (k, w, x) :: leatMoveList (k + 2) rest else (k, w, 0) :: leatMoveList (k + 1) (x :: rest)
  | k, [w] => [(k, w, 0)]
  | _, [] => []

/-- A trigger port of a unit (R404). -/
def leatTrigger (dst : Nat) : Bool :=
  [(0x110, 12), (0x130, 4), (0x140, 2), (0x160, 3), (0x180, 4), (0x1A0, 2), (0x1C0, 2), (0x1E0, 1), (0x1F0, 4)].any fun r =>
    decide (r.1 ≤ dst) && decide (dst < r.1 + r.2)
/-- The ILLEGAL_BUNDLE cases of R406. -/
def leatBundleBad (xs : List (Nat × Nat × Nat)) : Bool :=
  let dsts := xs.map fun x => bits x.2.1 15 4
  let trig := dsts.filter leatTrigger
  xs.any (fun x => bits x.2.1 3 0 != 0 || (bits x.2.1 31 31 == 0 && bits x.2.1 30 28 != 0) || (x.1 == 3 && bits x.2.1 27 16 == 0x7FF)) ||
  !(dsts.filter (· != 0)).Nodup || !(trig.map leatUnit).Nodup

/-- The moves that stand alone, checked in slot order (R403, R404). -/
def leatChecks : List (Nat × Nat × Nat) → Except Nat (List LeatMove)
  | [] => .ok []
  | x :: xs =>
    match decodeMove x.2.1 x.2.2 with
    | .error e => .error e
    | .ok i =>
      match leatChecks xs with
      | .error e => .error e
      | .ok ms => .ok (⟨x.1, i, bits x.2.1 15 4⟩ :: ms)

/-- Decode an Adesal word (R406), or the fault it raises. -/
def decodeLeat (bs : List Byte) : Except Nat (List LeatMove) :=
  let xs := leatMoveList 0 (moveSlots bs)
  if leatBundleBad xs then .error cIllegalBundle else leatChecks xs

/-! ### The host's question -/

/-- The slots a lone word is tried in. -/
def trySlots (w : Nat) (ext : Option Nat) : List Nat → Option Instr
  | [] => none
  | s :: ss =>
    match decodeSlot s w ext with
    | .ok i => some i
    | .error _ => trySlots w ext ss

/-- The instruction the decoder reads from a lone table word. A Garsum word does not name its slot (R164: the header does), so it
is tried in the slots S, V, L, X, M0, C, Y, then as an Adesal move, and the first legal reading is the answer (log entry 10). -/
def decodeTableWord (nbits w : Nat) : Option Instr :=
  if nbits != 32 then none
  else
    let word := w % 4294967296
    let ext := if word.testBit 21 then some 0 else none
    match trySlots word ext [0, 1, 2, 3, 4, 6, 7] with
    | some i => some i
    | none => (decodeMove word 0).toOption

end Sys2Proof
end

