-- ==== Sys2Proof/Machine/Crypto.lean ====
section
/-! DEFINITION. The cryptographic functions that the spec names by their standards: AES-256 and its GCM and GMAC modes
(10 R243, 18 R343, R346; NIST SP 800-38D), its XTS mode (18 R339), SHA-384 (24 R422 to R424), ECDSA on P-384 with the nonce of RFC 6979
(24 R422, 25 R436). Each is written from the named standard; log entry 20. -/

namespace Sys2Proof.Machine

/-! ## AES-256 -/

/-- The substitution box of AES. -/
def aesSbox : List Nat := [
  0x63, 0x7C, 0x77, 0x7B, 0xF2, 0x6B, 0x6F, 0xC5, 0x30, 0x01, 0x67, 0x2B, 0xFE, 0xD7, 0xAB, 0x76,
  0xCA, 0x82, 0xC9, 0x7D, 0xFA, 0x59, 0x47, 0xF0, 0xAD, 0xD4, 0xA2, 0xAF, 0x9C, 0xA4, 0x72, 0xC0,
  0xB7, 0xFD, 0x93, 0x26, 0x36, 0x3F, 0xF7, 0xCC, 0x34, 0xA5, 0xE5, 0xF1, 0x71, 0xD8, 0x31, 0x15,
  0x04, 0xC7, 0x23, 0xC3, 0x18, 0x96, 0x05, 0x9A, 0x07, 0x12, 0x80, 0xE2, 0xEB, 0x27, 0xB2, 0x75] ++ [
  0x09, 0x83, 0x2C, 0x1A, 0x1B, 0x6E, 0x5A, 0xA0, 0x52, 0x3B, 0xD6, 0xB3, 0x29, 0xE3, 0x2F, 0x84,
  0x53, 0xD1, 0x00, 0xED, 0x20, 0xFC, 0xB1, 0x5B, 0x6A, 0xCB, 0xBE, 0x39, 0x4A, 0x4C, 0x58, 0xCF,
  0xD0, 0xEF, 0xAA, 0xFB, 0x43, 0x4D, 0x33, 0x85, 0x45, 0xF9, 0x02, 0x7F, 0x50, 0x3C, 0x9F, 0xA8,
  0x51, 0xA3, 0x40, 0x8F, 0x92, 0x9D, 0x38, 0xF5, 0xBC, 0xB6, 0xDA, 0x21, 0x10, 0xFF, 0xF3, 0xD2] ++ [
  0xCD, 0x0C, 0x13, 0xEC, 0x5F, 0x97, 0x44, 0x17, 0xC4, 0xA7, 0x7E, 0x3D, 0x64, 0x5D, 0x19, 0x73,
  0x60, 0x81, 0x4F, 0xDC, 0x22, 0x2A, 0x90, 0x88, 0x46, 0xEE, 0xB8, 0x14, 0xDE, 0x5E, 0x0B, 0xDB,
  0xE0, 0x32, 0x3A, 0x0A, 0x49, 0x06, 0x24, 0x5C, 0xC2, 0xD3, 0xAC, 0x62, 0x91, 0x95, 0xE4, 0x79,
  0xE7, 0xC8, 0x37, 0x6D, 0x8D, 0xD5, 0x4E, 0xA9, 0x6C, 0x56, 0xF4, 0xEA, 0x65, 0x7A, 0xAE, 0x08] ++ [
  0xBA, 0x78, 0x25, 0x2E, 0x1C, 0xA6, 0xB4, 0xC6, 0xE8, 0xDD, 0x74, 0x1F, 0x4B, 0xBD, 0x8B, 0x8A,
  0x70, 0x3E, 0xB5, 0x66, 0x48, 0x03, 0xF6, 0x0E, 0x61, 0x35, 0x57, 0xB9, 0x86, 0xC1, 0x1D, 0x9E,
  0xE1, 0xF8, 0x98, 0x11, 0x69, 0xD9, 0x8E, 0x94, 0x9B, 0x1E, 0x87, 0xE9, 0xCE, 0x55, 0x28, 0xDF,
  0x8C, 0xA1, 0x89, 0x0D, 0xBF, 0xE6, 0x42, 0x68, 0x41, 0x99, 0x2D, 0x0F, 0xB0, 0x54, 0xBB, 0x16]

/-- SubBytes on one byte. -/
def aesSub (x : Nat) : Nat := aesSbox.getD x 0
/-- Multiplication by x in the field of AES. -/
def aesX (a : Nat) : Nat := if a < 128 then 2 * a else (2 * a) ^^^ 0x11B

/-- One word of key expansion: i counts words, prev is word i − 1, back is word i − 8. -/
def aesKeyWord (i rcon : Nat) (prev back : List Nat) : List Nat :=
  let t :=
    if i % 8 == 0 then
      match prev with
      | [a, b, c, d] => [aesSub b ^^^ rcon, aesSub c, aesSub d, aesSub a]
      | _ => prev
    else if i % 8 == 4 then prev.map aesSub
    else prev
  List.zipWith (· ^^^ ·) back t

/-- Key expansion: words newest first. -/
def aesExpand : Nat → Nat → Nat → List (List Nat) → List (List Nat)
  | 0, _, _, ws => ws
  | n + 1, i, rcon, ws =>
    let w := aesKeyWord i rcon (ws.getD 0 []) (ws.getD 7 [])
    aesExpand n (i + 1) (if i % 8 == 0 then aesX rcon else rcon) (w :: ws)

/-- The 60 round-key words of a 32-byte key. -/
def aesKeys (key : List Nat) : List (List Nat) :=
  let first := (List.range 8).map fun i => (key.drop (4 * i)).take 4
  (aesExpand 52 8 1 first.reverse).reverse

/-- The 16 bytes of round key r. -/
def aesRoundKey (ks : List (List Nat)) (r : Nat) : List Nat := ((ks.drop (4 * r)).take 4).flatten

/-- ShiftRows on a column-major state. -/
def aesShift (s : List Nat) : List Nat :=
  (List.range 16).map fun i => s.getD ((i + 4 * (i % 4)) % 16) 0

/-- MixColumns on one column. -/
def aesMixCol : List Nat → List Nat
  | [a, b, c, d] =>
    [aesX a ^^^ aesX b ^^^ b ^^^ c ^^^ d, a ^^^ aesX b ^^^ aesX c ^^^ c ^^^ d,
     a ^^^ b ^^^ aesX c ^^^ aesX d ^^^ d, aesX a ^^^ a ^^^ b ^^^ c ^^^ aesX d]
  | l => l

/-- MixColumns. -/
def aesMix (s : List Nat) : List Nat := ((List.range 4).map fun c => aesMixCol ((s.drop (4 * c)).take 4)).flatten

/-- One inner round. -/
def aesRound (ks : List (List Nat)) (s : List Nat) (r : Nat) : List Nat :=
  List.zipWith (· ^^^ ·) (aesMix (aesShift (s.map aesSub))) (aesRoundKey ks r)

/-- AES-256 of one 16-byte block. -/
def aesBlock (ks : List (List Nat)) (b : List Nat) : List Nat :=
  let s := List.zipWith (· ^^^ ·) b (aesRoundKey ks 0)
  let s := (List.range 13).foldl (fun s r => aesRound ks s (r + 1)) s
  List.zipWith (· ^^^ ·) (aesShift (s.map aesSub)) (aesRoundKey ks 14)

/-! ## XTS -/

/-- Inverse of SubBytes on one byte. -/
def aesUnsub (x : Nat) : Nat := aesSbox.findIdx (· == x)
/-- Inverse of ShiftRows. -/
def aesUnshift (s : List Nat) : List Nat := (List.range 16).map fun i => s.getD ((i + 12 * (i % 4)) % 16) 0
/-- Multiplication by a small constant in the field of AES. -/
def aesTimes (k a : Nat) : Nat :=
  let b := aesX a
  let c := aesX b
  (if k.testBit 0 then a else 0) ^^^ (if k.testBit 1 then b else 0) ^^^ (if k.testBit 2 then c else 0) ^^^ (if k.testBit 3 then aesX c else 0)
/-- Inverse of MixColumns on one column: row i of the product takes byte j times the constant at i − j. -/
def aesUnmixCol (col : List Nat) : List Nat :=
  (List.range 4).map fun i => (List.range 4).foldl (fun acc j => acc ^^^ aesTimes ([14, 9, 13, 11].getD ((i + 4 - j) % 4) 0) (col.getD j 0)) 0
/-- Inverse of MixColumns. -/
def aesUnmix (s : List Nat) : List Nat := ((List.range 4).map fun c => aesUnmixCol ((s.drop (4 * c)).take 4)).flatten
/-- AES-256 decryption of one 16-byte block. -/
def aesUnblock (ks : List (List Nat)) (b : List Nat) : List Nat :=
  let open_ (s : List Nat) (r : Nat) : List Nat := List.zipWith (· ^^^ ·) ((aesUnshift s).map aesUnsub) (aesRoundKey ks r)
  open_ ((List.range 13).foldl (fun s i => aesUnmix (open_ s (13 - i))) (List.zipWith (· ^^^ ·) b (aesRoundKey ks 14))) 0

/-- The next tweak of XTS: times x, the first byte least significant. -/
def xtsNext (t : List Nat) : List Nat :=
  let x := leNat (t.map (BitVec.ofNat 8))
  (natLE 16 (2 * x ^^^ (if x.testBit 127 then 0x87 else 0))).map (·.toNat)
/-- The blocks of a data unit, each under its tweak. -/
def xtsBlocks (f : List Nat → List Nat) : Nat → List Nat → List Nat → List Nat
  | 0, _, _ => []
  | n + 1, t, d => List.zipWith (· ^^^ ·) t (f (List.zipWith (· ^^^ ·) t (d.take 16))) ++ xtsBlocks f n (xtsNext t) (d.drop 16)
/-- AES-XTS-256 of a 128-byte data unit (18 R339; IEEE 1619), with both halves of a 64-byte key. -/
def xtsUnit (enc : Bool) (key : List Byte) (unit_ : Nat) (data : List Byte) : List Byte :=
  let k1 := aesKeys ((key.take 32).map (·.toNat))
  let t := aesBlock (aesKeys ((key.drop 32).map (·.toNat))) ((natLE 16 unit_).map (·.toNat))
  (xtsBlocks (if enc then aesBlock k1 else aesUnblock k1) 8 t (data.map (·.toNat))).map (BitVec.ofNat 8)

/-! ## GCM -/

/-- Multiplication in the field of GHASH; blocks are 128-bit numbers, first byte most significant. -/
def ghashMul (x y : Nat) : Nat :=
  ((List.range 128).foldl (fun (acc : Nat × Nat) i =>
    let z := if x.testBit (127 - i) then acc.1 ^^^ acc.2 else acc.1
    let v := if acc.2 % 2 == 1 then (acc.2 / 2) ^^^ (0xE1 <<< 120) else acc.2 / 2
    (z, v)) (0, y)).1

/-- GHASH over bytes padded to whole blocks; n bounds the block count. -/
def ghash (h : Nat) : Nat → Nat → List Byte → Nat
  | 0, acc, _ => acc
  | n + 1, acc, bs =>
    let b := bs.take 16
    ghash h n (ghashMul (acc ^^^ beNat (b ++ zeros (16 - b.length))) h) (bs.drop 16)

/-- Zero bytes that fill the last block. -/
def pad16 (bs : List Byte) : List Byte := bs ++ zeros ((16 - bs.length % 16) % 16)

/-- A number as 16 byte values, most significant first. -/
def block16 (x : Nat) : List Nat := (natBE 16 x).map (·.toNat)

/-- The key stream of GCM from counter value c. -/
def gcmStream (ks : List (List Nat)) (iv : List Byte) : Nat → Nat → List Byte
  | 0, _ => []
  | n + 1, c => (aesBlock ks ((iv.map (·.toNat)) ++ block16 c |>.take 12 |>.append ((natBE 4 c).map (·.toNat)))).map (BitVec.ofNat 8)
      ++ gcmStream ks iv n (c + 1)

/-- The tag of GCM over additional data and ciphertext. -/
def gcmTag (ks : List (List Nat)) (iv aad ct : List Byte) : List Byte :=
  let h := beNat ((aesBlock ks (List.replicate 16 0)).map (BitVec.ofNat 8))
  let data := pad16 aad ++ pad16 ct ++ natBE 8 (8 * aad.length) ++ natBE 8 (8 * ct.length)
  let s := ghash h (data.length / 16) 0 data
  let e := beNat (gcmStream ks iv 1 1)
  natBE 16 (s ^^^ e)

/-- The key stream applied to data (encryption and decryption alike). -/
def gcmCrypt (ks : List (List Nat)) (iv data : List Byte) : List Byte :=
  List.zipWith (· ^^^ ·) data (gcmStream ks iv (ceilDiv data.length 16) 2)

/-- AES-GCM-256 with a 96-bit IV: ciphertext and 128-bit tag. -/
def gcmSeal (key iv aad pt : List Byte) : List Byte × List Byte :=
  let ks := aesKeys (key.map (·.toNat))
  let ct := gcmCrypt ks iv pt
  (ct, gcmTag ks iv aad ct)

/-- AES-GCM-256 decryption: nothing when the tag does not match. -/
def gcmOpen (key iv aad ct tag : List Byte) : Option (List Byte) :=
  let ks := aesKeys (key.map (·.toNat))
  if gcmTag ks iv aad ct == tag then some (gcmCrypt ks iv ct) else none

/-- AES-GMAC: the tag over additional data and a message that is authenticated alone. The message stands in the
position of the ciphertext (18 R343, R346: additional data and message are given apart; log entry 21). -/
def gmac (key iv aad msg : List Byte) : List Byte :=
  gcmTag (aesKeys (key.map (·.toNat))) iv aad msg

/-! ## SHA-384 -/

/-- Round constants of SHA-384. -/
def shaK : List Nat := [
  0x428A2F98D728AE22, 0x7137449123EF65CD, 0xB5C0FBCFEC4D3B2F, 0xE9B5DBA58189DBBC,
  0x3956C25BF348B538, 0x59F111F1B605D019, 0x923F82A4AF194F9B, 0xAB1C5ED5DA6D8118,
  0xD807AA98A3030242, 0x12835B0145706FBE, 0x243185BE4EE4B28C, 0x550C7DC3D5FFB4E2,
  0x72BE5D74F27B896F, 0x80DEB1FE3B1696B1, 0x9BDC06A725C71235, 0xC19BF174CF692694,
  0xE49B69C19EF14AD2, 0xEFBE4786384F25E3, 0x0FC19DC68B8CD5B5, 0x240CA1CC77AC9C65,
  0x2DE92C6F592B0275, 0x4A7484AA6EA6E483, 0x5CB0A9DCBD41FBD4, 0x76F988DA831153B5,
  0x983E5152EE66DFAB, 0xA831C66D2DB43210, 0xB00327C898FB213F, 0xBF597FC7BEEF0EE4,
  0xC6E00BF33DA88FC2, 0xD5A79147930AA725, 0x06CA6351E003826F, 0x142929670A0E6E70,
  0x27B70A8546D22FFC, 0x2E1B21385C26C926, 0x4D2C6DFC5AC42AED, 0x53380D139D95B3DF,
  0x650A73548BAF63DE, 0x766A0ABB3C77B2A8, 0x81C2C92E47EDAEE6, 0x92722C851482353B] ++ [
  0xA2BFE8A14CF10364, 0xA81A664BBC423001, 0xC24B8B70D0F89791, 0xC76C51A30654BE30,
  0xD192E819D6EF5218, 0xD69906245565A910, 0xF40E35855771202A, 0x106AA07032BBD1B8,
  0x19A4C116B8D2D0C8, 0x1E376C085141AB53, 0x2748774CDF8EEB99, 0x34B0BCB5E19B48A8,
  0x391C0CB3C5C95A63, 0x4ED8AA4AE3418ACB, 0x5B9CCA4F7763E373, 0x682E6FF3D6B2B8A3,
  0x748F82EE5DEFB2FC, 0x78A5636F43172F60, 0x84C87814A1F0AB72, 0x8CC702081A6439EC,
  0x90BEFFFA23631E28, 0xA4506CEBDE82BDE9, 0xBEF9A3F7B2C67915, 0xC67178F2E372532B,
  0xCA273ECEEA26619C, 0xD186B8C721C0C207, 0xEADA7DD6CDE0EB1E, 0xF57D4F7FEE6ED178,
  0x06F067AA72176FBA, 0x0A637DC5A2C898A6, 0x113F9804BEF90DAE, 0x1B710B35131C471B,
  0x28DB77F523047D84, 0x32CAAB7B40C72493, 0x3C9EBE0A15C9BEBC, 0x431D67C49C100D4C,
  0x4CC5D4BECB3E42B6, 0x597F299CFC657E2A, 0x5FCB6FAB3AD6FAEC, 0x6C44198C4A475817]

/-- Initial hash value of SHA-384. -/
def shaH0 : List Word := ([
  0xCBBB9D5DC1059ED8, 0x629A292A367CD507, 0x9159015A3070DD17, 0x152FECD8F70E5939,
  0x67332667FFC00B31, 0x8EB44A8768581511, 0xDB0C2E0D64F98FA7, 0x47B5481DBEFA4FA4] : List Nat).map (BitVec.ofNat 64)

/-- The message schedule, newest word first. -/
def shaSchedule : Nat → List Word → List Word
  | 0, ws => ws
  | n + 1, ws =>
    let w2 := ws.getD 1 0
    let w15 := ws.getD 14 0
    let s0 := w15.rotateRight 1 ^^^ w15.rotateRight 8 ^^^ (w15 >>> 7)
    let s1 := w2.rotateRight 19 ^^^ w2.rotateRight 61 ^^^ (w2 >>> 6)
    shaSchedule n ((ws.getD 15 0 + s0 + ws.getD 6 0 + s1) :: ws)

/-- One round. -/
def shaRound (st : List Word) (kw : Word) : List Word :=
  match st with
  | [a, b, c, d, e, f, g, h] =>
    let s1 := e.rotateRight 14 ^^^ e.rotateRight 18 ^^^ e.rotateRight 41
    let ch := (e &&& f) ^^^ (~~~e &&& g)
    let t1 := h + s1 + ch + kw
    let s0 := a.rotateRight 28 ^^^ a.rotateRight 34 ^^^ a.rotateRight 39
    let mj := (a &&& b) ^^^ (a &&& c) ^^^ (b &&& c)
    [t1 + s0 + mj, a, b, c, d + t1, e, f, g]
  | l => l

/-- One 128-byte block. -/
def shaBlock (st : List Word) (b : List Byte) : List Word :=
  let w16 := (List.range 16).map fun i => BitVec.ofNat 64 (beNat ((b.drop (8 * i)).take 8))
  let ws := (shaSchedule 64 w16.reverse).reverse
  List.zipWith (· + ·) st ((List.zipWith (fun k w => BitVec.ofNat 64 k + w) shaK ws).foldl shaRound st)

/-- The blocks of a padded message; n bounds their count. -/
def shaBlocks : Nat → List Word → List Byte → List Word
  | 0, st, _ => st
  | n + 1, st, bs => shaBlocks n (shaBlock st (bs.take 128)) (bs.drop 128)

/-- SHA-384 (FIPS 180-4). -/
def sha384 (m : List Byte) : List Byte :=
  let p := m ++ [0x80#8] ++ zeros ((239 - m.length % 128) % 128) ++ natBE 16 (8 * m.length)
  ((shaBlocks (p.length / 128) shaH0 p).flatMap fun w => natBE 8 w.toNat).take 48

/-- HMAC with SHA-384. -/
def hmac384 (key msg : List Byte) : List Byte :=
  let k := (if key.length > 128 then sha384 key else key)
  let k := k ++ zeros (128 - k.length)
  sha384 (k.map (· ^^^ 0x5C#8) ++ sha384 (k.map (· ^^^ 0x36#8) ++ msg))

/-! ## ECDSA on P-384 -/

/-- The field prime of P-384. -/
def p384P : Nat := 2 ^ 384 - 2 ^ 128 - 2 ^ 96 + 2 ^ 32 - 1
/-- The group order of P-384. -/
def p384N : Nat := 0xFFFFFFFFFFFFFFFFFFFFFFFFFFFFFFFFFFFFFFFFFFFFFFFFC7634D81F4372DDF581A0DB248B0A77AECEC196ACCC52973
/-- The coefficient b of P-384. -/
def p384B : Nat := 0xB3312FA7E23EE7E4988E056BE3F82D19181D9C6EFE8141120314088F5013875AC656398D8A2ED19D2A85C8EDD3EC2AEF
/-- The base point of P-384. -/
def p384G : Nat × Nat :=
  (0xAA87CA22BE8B05378EB1C71EF320AD746E1D3B628BA79B9859F741E082542A385502F25DBF55296C3A545E3872760AB7,
   0x3617DE4A96262C6F5D9E98BF9292DC29F8F41DBD289A147CE9DA3113B5F0B8C00A60B1CE1D7E819D7A431D7C90EA0E5F)

/-- b^e modulo m, over n bits of e from the least significant. -/
def powMod (m : Nat) : Nat → Nat → Nat → Nat → Nat
  | 0, _, _, acc => acc
  | n + 1, b, e, acc => powMod m n (b * b % m) (e / 2) (if e % 2 == 1 then acc * b % m else acc)

/-- The inverse modulo a prime. -/
def invMod (p x : Nat) : Nat := powMod p 384 (x % p) (p - 2) 1

/-- A point of the curve; none is the point at infinity. -/
abbrev Point := Option (Nat × Nat)

/-- Point addition. -/
def ecAdd : Point → Point → Point
  | none, q => q
  | p, none => p
  | some (x1, y1), some (x2, y2) =>
    let p := p384P
    if x1 == x2 && (y1 + y2) % p == 0 then none
    else
      let l := if x1 == x2 then (3 * x1 * x1 + (p - 3)) % p * invMod p (2 * y1) % p
        else ((y2 + p - y1) % p) * invMod p (x2 + p - x1) % p
      let x3 := (l * l + 2 * p - x1 - x2) % p
      some (x3, (l * ((x1 + p - x3) % p) + p - y1) % p)

/-- Scalar multiplication over n bits of k. -/
def ecMul : Nat → Nat → Point → Point → Point
  | 0, _, _, acc => acc
  | n + 1, k, q, acc => ecMul n (k / 2) (ecAdd q q) (if k % 2 == 1 then ecAdd acc q else acc)

/-- A point lies on P-384. -/
def onCurve (x y : Nat) : Bool :=
  decide (x < p384P) && decide (y < p384P) && (y * y % p384P == (x * x * x + (p384P - 3) * x + p384B) % p384P)

/-- ECDSA verification (FIPS 186-5) of a 48-byte digest under an uncompressed 97-byte point, signature r then s. -/
def ecdsaVerify (pub digest sig : List Byte) : Bool :=
  let x := beNat ((pub.drop 1).take 48)
  let y := beNat ((pub.drop 49).take 48)
  let r := beNat (sig.take 48)
  let s := beNat ((sig.drop 48).take 48)
  let z := beNat digest
  if pub.take 1 != [0x04#8] || !onCurve x y || r == 0 || s == 0 || decide (r ≥ p384N) || decide (s ≥ p384N) then false
  else
    let w := invMod p384N s
    match ecAdd (ecMul 384 (z * w % p384N) (some p384G) none) (ecMul 384 (r * w % p384N) (some (x, y)) none) with
    | none => false
    | some (px, _) => px % p384N == r

/-- The candidate nonces of RFC 6979: state k, v; n bounds the tries. -/
def rfc6979Loop : Nat → List Byte → List Byte → Nat
  | 0, _, _ => 1
  | n + 1, k, v =>
    let v := hmac384 k v
    let c := beNat v
    if c ≥ 1 ∧ c < p384N then c
    else
      let k := hmac384 k (v ++ [0x00#8])
      rfc6979Loop n k (hmac384 k v)

/-- The nonce of RFC 6979 for a private key and a digest. -/
def rfc6979 (d : Nat) (digest : List Byte) : Nat :=
  let x := natBE 48 d
  let h := natBE 48 (beNat digest % p384N)
  let v := List.replicate 48 0x01#8
  let k := zeros 48
  let k := hmac384 k (v ++ [0x00#8] ++ x ++ h)
  let v := hmac384 k v
  let k := hmac384 k (v ++ [0x01#8] ++ x ++ h)
  let v := hmac384 k v
  rfc6979Loop 16 k v

/-- ECDSA of a digest under a private key: r then s, each 48 bytes big-endian (25 R436). -/
def ecdsaSign (d : Nat) (digest : List Byte) : List Byte :=
  let k := rfc6979 d digest
  let r := (match ecMul 384 k (some p384G) none with | none => 0 | some (x, _) => x % p384N)
  let s := invMod p384N k * ((beNat digest + r * d) % p384N) % p384N
  natBE 48 r ++ natBE 48 s

end Sys2Proof.Machine
end

