-- ==== Sys2Proof/Machine/Number.lean ====
section
/-! DEFINITION. Number formats, rounding and the special values (03 R52 to R69), on exact rationals.
A real is a sign and a quotient of naturals; nothing rounds except roundMag and its callers. -/

namespace Sys2Proof.Machine

/-- The floating-point formats of 03 R53. -/
inductive Fmt where
  | fp32 | fp16 | bf16 | e4m3 | e5m2
  deriving DecidableEq, Repr

/-- The rounding modes of 03 R58, codes 0 to 6. -/
inductive RMode where
  | rne | rtz | rup | rdn | rna | sto | rnes
  deriving DecidableEq, Repr

/-- The rounding mode of a code (03 R58); code 7 is refused at decode. -/
def RMode.ofCode : Nat → RMode
  | 0 => .rne | 1 => .rtz | 2 => .rup | 3 => .rdn | 4 => .rna | 5 => .sto | _ => .rnes

/-- STATUS bits (09 R205) as weights: NV, OF, UF, NX, SAT. -/
def fNV : Nat := 1
def fOF : Nat := 2
def fUF : Nat := 4
def fNX : Nat := 8
def fSAT : Nat := 16

/-- Exponent field width (03 R53). -/
def Fmt.ebits : Fmt → Nat
  | .fp32 => 8 | .fp16 => 5 | .bf16 => 8 | .e4m3 => 4 | .e5m2 => 5
/-- Fraction width (03 R53). -/
def Fmt.fbits : Fmt → Nat
  | .fp32 => 23 | .fp16 => 10 | .bf16 => 7 | .e4m3 => 3 | .e5m2 => 2
/-- Exponent bias (03 R53). -/
def Fmt.bias : Fmt → Nat
  | .fp32 => 127 | .fp16 => 15 | .bf16 => 127 | .e4m3 => 7 | .e5m2 => 15
/-- Width in bits. -/
def Fmt.width (f : Fmt) : Nat := 1 + f.ebits + f.fbits
/-- Largest finite code, without sign (03 R53). -/
def Fmt.maxCode : Fmt → Nat
  | .fp32 => 0x7F7FFFFF | .fp16 => 0x7BFF | .bf16 => 0x7F7F | .e4m3 => 0x7E | .e5m2 => 0x7B
/-- The code an infinite result takes, without sign: infinity, or NaN in E4M3 (03 R59). -/
def Fmt.infCode : Fmt → Nat
  | .fp32 => 0x7F800000 | .fp16 => 0x7C00 | .bf16 => 0x7F80 | .e4m3 => 0x7F | .e5m2 => 0x7C
/-- Canonical NaN (03 R53). -/
def Fmt.nanCode : Fmt → Nat
  | .fp32 => 0x7FC00000 | .fp16 => 0x7E00 | .bf16 => 0x7FC0 | .e4m3 => 0x7F | .e5m2 => 0x7E
/-- The sign bit of a code. -/
def Fmt.sign (f : Fmt) (neg : Bool) : Nat := if neg then 2 ^ (f.width - 1) else 0

/-- A floating-point datum: NaN, infinity, or an exact value n/d with a sign. -/
inductive Fp where
  | nan
  | inf (neg : Bool)
  | fin (neg : Bool) (n d : Nat)
  deriving DecidableEq, Repr

/-- +0. -/
def Fp.zero : Fp := .fin false 0 1

/-- n · 2^e as a quotient. -/
def scaleUp (n d : Nat) (e : Int) : Nat × Nat := (n * 2 ^ e.toNat, d * 2 ^ (-e).toNat)

/-- The value of a code (03 R53, R54). -/
def Fmt.decode (f : Fmt) (code : Nat) : Fp :=
  let neg := code.testBit (f.width - 1)
  let ex := (code >>> f.fbits) % 2 ^ f.ebits
  let fr := code % 2 ^ f.fbits
  let top := ex == 2 ^ f.ebits - 1
  if f == .e4m3 && top && fr == 7 then .nan
  else if f != .e4m3 && top then (if fr == 0 then .inf neg else .nan)
  else
    let m := if ex == 0 then fr else fr + 2 ^ f.fbits
    let e : Int := (if ex == 0 then (1 : Int) else (ex : Int)) - f.bias - f.fbits
    let (n, d) := scaleUp m 1 e
    .fin neg n d

/-- The exponent e with 2^e ≤ n/d < 2^(e+1), for n, d positive. -/
def floorLog2 (n d : Nat) : Int :=
  let e : Int := (n.log2 : Int) - (d.log2 : Int)
  if n * 2 ^ (-e).toNat ≥ d * 2 ^ e.toNat then e else e - 1

/-- Round the magnitude n/d to a natural number under a mode (03 R58, R72): the result and whether it is inexact.
u is the 32-bit draw that STO uses. -/
def roundMag (rm : RMode) (neg : Bool) (u n d : Nat) : Nat × Bool :=
  let q := n / d
  let r := n % d
  if r == 0 then (q, false) else
  let up := match rm with
    | .rne | .rnes => decide (2 * r > d) || (decide (2 * r = d) && q % 2 == 1)
    | .rtz => false
    | .rup => !neg
    | .rdn => neg
    | .rna => decide (2 * r ≥ d)
    | .sto => decide (u < r * 2 ^ 32 / d)
  (if up then q + 1 else q, true)

/-- The result of an overflow (03 R59). -/
def overflowResult (f : Fmt) (rm : RMode) (neg : Bool) : Nat × Nat :=
  let fin := f.sign neg + f.maxCode
  let inf := f.sign neg + f.infCode
  match rm with
  | .rne | .rna | .sto => (inf, fOF + fNX)
  | .rtz => (fin, fOF + fNX)
  | .rup => (if neg then fin else inf, fOF + fNX)
  | .rdn => (if neg then inf else fin, fOF + fNX)
  | .rnes => (fin, fSAT)

/-- Round(v, EF, RM) of the finite value ±n/d (03 R59): its code and the status bits of 03 R57. -/
def roundFin (f : Fmt) (rm : RMode) (u : Nat) (neg : Bool) (n d : Nat) : Nat × Nat :=
  if n == 0 then (f.sign neg, 0) else
  let e := floorLog2 n d
  let emin : Int := 1 - (f.bias : Int)
  let qe : Int := (if e < emin then emin else e) - f.fbits
  let (sn, sd) := scaleUp n d (-qe)
  let (k, inex) := roundMag rm neg u sn sd
  let code := ((qe + f.fbits + f.bias - 1).toNat <<< f.fbits) + k
  if code > f.maxCode then overflowResult f rm neg else
  let (tn, td) := scaleUp n d (f.fbits - e)
  let (tk, _) := roundMag rm neg u tn td
  let tiny := decide (e < emin) && !(decide (e = emin - 1) && decide (tk = 2 ^ (f.fbits + 1)))
  (f.sign neg + code, (if inex then fNX else 0) + (if tiny && inex then fUF else 0))

/-- Round of any datum into a format: NaN becomes the canonical NaN, an infinity follows 03 R60. DEDUCED: an infinite result of an
operation under mode 6 follows R60 as an infinite input does (log entry 91). -/
def roundFp (f : Fmt) (rm : RMode) (u : Nat) : Fp → Nat × Nat
  | .nan => (f.nanCode, 0)
  | .inf neg =>
    if rm == .rnes then (f.sign neg + f.maxCode, fSAT)
    else if f == .e4m3 then (f.nanCode, fNV)
    else (f.sign neg + f.infCode, 0)
  | .fin neg n d => roundFin f rm u neg n d

/-- Negation. -/
def Fp.neg : Fp → Fp
  | .nan => .nan
  | .inf s => .inf !s
  | .fin s n d => .fin (!s) n d

/-- The exact value of a finite datum scaled by 2^e; NaN and infinities are kept. -/
def Fp.scale (x : Fp) (e : Int) : Fp :=
  match x with
  | .fin s n d => let (n', d') := scaleUp n d e; .fin s n' d'
  | y => y

/-- Exact sum (03 R56, R59): infinities follow IEEE 754, ∞ − ∞ is NaN and sets NV, and an exact zero of opposite
signs is +0, or −0 under RDN. -/
def Fp.add (rdn : Bool) : Fp → Fp → Fp × Nat
  | .nan, _ => (.nan, 0)
  | _, .nan => (.nan, 0)
  | .inf s, .inf t => if s == t then (.inf s, 0) else (.nan, fNV)
  | .inf s, _ => (.inf s, 0)
  | _, .inf t => (.inf t, 0)
  | .fin s n d, .fin t m c =>
    let a := n * c
    let b := m * d
    if s == t then (.fin s (a + b) (d * c), 0)
    else if a == b then (.fin rdn 0 1, 0)
    else if a > b then (.fin s (a - b) (d * c), 0)
    else (.fin t (b - a) (d * c), 0)

/-- Exact product; 0 × ∞ is NaN and sets NV (03 R56). -/
def Fp.mul : Fp → Fp → Fp × Nat
  | .nan, _ => (.nan, 0)
  | _, .nan => (.nan, 0)
  | .inf s, .inf t => (.inf (s != t), 0)
  | .inf s, .fin t n _ => if n == 0 then (.nan, fNV) else (.inf (s != t), 0)
  | .fin s n _, .inf t => if n == 0 then (.nan, fNV) else (.inf (s != t), 0)
  | .fin s n d, .fin t m c => (.fin (s != t) (n * m) (d * c), 0)

/-- a × b + c, exact; an invalid product sets NV even when c is NaN (10 R223). -/
def Fp.fma (rdn : Bool) (a b c : Fp) : Fp × Nat :=
  let (p, f) := Fp.mul a b
  let (r, g) := Fp.add rdn p c
  (r, f ||| g)

/-- Ordered comparison x < y of non-NaN data, −0 equal to +0. -/
def Fp.lt : Fp → Fp → Bool
  | .nan, _ => false
  | _, .nan => false
  | .inf s, .inf t => s && !t
  | .inf s, _ => s
  | _, .inf t => !t
  | .fin s n d, .fin t m c =>
    let a := n * c
    let b := m * d
    match s, t with
    | false, false => decide (a < b)
    | true, true => decide (b < a)
    | true, false => !(a == 0 && b == 0)
    | false, true => false

/-- Ordered equality, −0 equal to +0; NaN equals nothing. -/
def Fp.eq (x y : Fp) : Bool := x != .nan && y != .nan && !Fp.lt x y && !Fp.lt y x

/-- The sign of a datum. -/
def Fp.isNeg : Fp → Bool
  | .nan => false
  | .inf s => s
  | .fin s _ _ => s

/-- x comes before y for minimumNumber: −0 below +0 (03 R56). -/
def Fp.below (x y : Fp) : Bool := Fp.lt x y || (Fp.eq x y && x.isNeg && !y.isNeg)

/-- Minimum or maximum by 03 R56, on codes: the chosen operand's encoding, or the canonical NaN when both are NaN. -/
def fpMinMax (f : Fmt) (isMax : Bool) (a b : Nat) : Nat :=
  let x := f.decode a
  let y := f.decode b
  if x == .nan && y == .nan then f.nanCode
  else if x == .nan then b
  else if y == .nan then a
  else if isMax then (if Fp.below x y then b else a)
  else (if Fp.below y x then b else a)

/-- A code with a NaN made canonical. -/
def canonNaN (f : Fmt) (code : Nat) : Nat := if f.decode code == .nan then f.nanCode else code

/-- The conversions that R61 makes exact. -/
def fpExact (src dst : Fmt) : Bool := dst == .fp32 || ((src == .e4m3 || src == .e5m2) && (dst == .bf16 || dst == .fp16))
/-- Conversion between floating formats (03 R59 to R61): an exact conversion keeps the value, an infinity too, and never sets status. -/
def fpConvert (src dst : Fmt) (rm : RMode) (u code : Nat) : Nat × Nat :=
  if src == dst then (canonNaN dst code, 0)
  else if fpExact src dst then ((roundFp dst .rne u (src.decode code)).1, 0)
  else roundFp dst rm u (src.decode code)

/-- Float to a signed integer of w bits (03 R62): the value's two's complement and the status. DEDUCED: a value that clamps, and an
infinity, set SAT alone and not NX (log entry 92). -/
def fpToInt (w : Nat) (rm : RMode) (u : Nat) : Fp → Nat × Nat
  | .nan => (0, fNV)
  | .inf true => (2 ^ (w - 1), fSAT)
  | .inf false => (2 ^ (w - 1) - 1, fSAT)
  | .fin s n d =>
    let (k, inex) := roundMag rm s u n d
    if s then (if k > 2 ^ (w - 1) then (2 ^ (w - 1), fSAT) else (islice w (-(k : Int)), if inex then fNX else 0))
    else (if k > 2 ^ (w - 1) - 1 then (2 ^ (w - 1) - 1, fSAT) else (k, if inex then fNX else 0))

/-- An integer as an exact datum. -/
def Fp.ofInt (z : Int) : Fp := .fin (decide (z < 0)) z.natAbs 1

/-- Fit of 10 R223: wrap, or clamp to the signed or unsigned range of w bits and set SAT. -/
def fitInt (v : Int) (w : Nat) (unsigned sat : Bool) : Nat × Nat :=
  let lo : Int := if unsigned then 0 else -(2 ^ (w - 1))
  let hi : Int := if unsigned then 2 ^ w - 1 else 2 ^ (w - 1) - 1
  if !sat then (islice w v, 0)
  else if v > hi then (islice w hi, fSAT)
  else if v < lo then (islice w lo, fSAT)
  else (islice w v, 0)

/-! ## Block formats (03 R63 to R67) -/

/-- The block element formats. -/
inductive Mx where
  | mx8 | mx6 | mx4
  deriving DecidableEq, Repr

/-- Element width. -/
def Mx.width : Mx → Nat
  | .mx8 => 8 | .mx6 => 6 | .mx4 => 4
/-- Fraction bit count f. -/
def Mx.f : Mx → Nat
  | .mx8 => 6 | .mx6 => 4 | .mx4 => 2
/-- Largest produced code M. -/
def Mx.top : Mx → Nat
  | .mx8 => 127 | .mx6 => 31 | .mx4 => 7

/-- RNEInt of |x| · 2^s, for a finite datum: its magnitude. -/
def rneIntMag (n d : Nat) (s : Int) : Nat :=
  let (n', d') := scaleUp n d s
  (roundMag .rne false 0 n' d').1

/-- Every element of a block rounds within ±M at exponent e (03 R66). -/
def blockFits (m : Mx) (e : Int) (xs : List Fp) : Bool :=
  xs.all fun x => match x with
    | .fin _ n d => decide (rneIntMag n d ((m.f : Int) - e) ≤ m.top)
    | _ => false

/-- The search of 03 R66 over the remaining exponents from e up. -/
def scaleSearch (m : Mx) (xs : List Fp) : Nat → Nat → Nat
  | 0, _ => 0xFE
  | fuel + 1, c => if blockFits m ((c : Int) - 127) xs then c else scaleSearch m xs fuel (c + 1)

/-- ScaleRoundUp (03 R66). -/
def scaleRoundUp (m : Mx) (xs : List Fp) : Nat :=
  if xs.any (fun x => match x with | .fin _ _ _ => false | _ => true) then 0xFF
  else if xs.all (fun x => match x with | .fin _ n _ => n == 0 | _ => false) then 0
  else scaleSearch m xs 255 0

/-- One element's code in a block of scale c (03 R67): the code as a signed integer and the status bits. -/
def mxEncode (m : Mx) (c : Nat) (rm : RMode) (u : Nat) (x : Fp) : Int × Nat :=
  if c == 0xFF then (0, fNV) else
  match x with
  | .fin s n d =>
    let (sn, sd) := scaleUp n d ((m.f : Int) - ((c : Int) - 127))
    let (k, inex) := roundMag rm s u sn sd
    let (kr, _) := roundMag .rne s u sn sd
    let clamp := decide (k > m.top)
    let k' := if clamp then m.top else k
    let sat := clamp && c == 0xFE && decide (kr > m.top)
    (if s then -(k' : Int) else k',
      (if sat then fSAT else 0) ||| (if inex || clamp then fNX else 0) ||| (if n != 0 && k' == 0 then fUF else 0))
  | _ => (0, fNV)

/-- The exact value of a block element, NaN when the scale is 0xFF (03 R63, R65). -/
def mxValue (m : Mx) (c : Nat) (q : Int) : Fp :=
  if c == 0xFF then .nan
  else (Fp.ofInt q).scale ((c : Int) - 127 - m.f)

/-- Element i of packed block data (03 R64), as a signed integer. -/
def mxUnpack (m : Mx) (data : List Byte) (i : Nat) : Int :=
  match m with
  | .mx8 => sint 8 (fieldLE data i 1)
  | .mx6 => sint 6 (fieldLE data (3 * (i / 4)) 3 >>> (6 * (i % 4)))
  | .mx4 => sint 4 (fieldLE data (i / 2) 1 >>> (4 * (i % 2)))

/-- Pack codes by 03 R64: the codes form one little-endian bit string, element i at bit width × i. -/
def mxPack (m : Mx) (codes : List Int) : List Byte :=
  let n := codes.foldr (fun q acc => islice m.width q + acc * 2 ^ m.width) 0
  natLE (codes.length * m.width / 8) n

/-! ## Entry alignment of floating operands (03 R68) -/

/-- E of 03 R68: the largest unbiased exponent of the finite nonzero elements, a subnormal counting as 1 − bias. -/
def alignExp (f : Fmt) (codes : List Nat) : Option Int :=
  codes.foldl (fun acc c =>
    if c % 2 ^ (f.width - 1) == 0 then acc
    else
      let ex := (c >>> f.fbits) % 2 ^ f.ebits
      let e : Int := (if ex == 0 then (1 : Int) else (ex : Int)) - f.bias
      match acc with
      | none => some e
      | some a => some (if e > a then e else a)) none

/-- A block of one operand on an array: with a NaN, with an infinity and no NaN, which R68 marks NaN too, or integers with an exponent and a
fraction bit count. -/
inductive ABlock where
  | nan
  | inf
  | ints (q : List Int) (e : Int) (f : Nat)
  deriving DecidableEq, Repr

/-- Entry alignment of a floating block to W-bit integers (03 R68). -/
def alignBlock (f : Fmt) (codes : List Nat) : ABlock :=
  let w : Nat := if f.width == 8 then 8 else 16
  if codes.any (fun c => match f.decode c with | .nan => true | _ => false) then .nan
  else if codes.any (fun c => match f.decode c with | .fin _ _ _ => false | _ => true) then .inf
  else
    let e := (alignExp f codes).getD 0
    .ints (codes.map fun c => match f.decode c with
      | .fin s n d =>
        let k := rneIntMag n d ((w : Int) - 2 - e)
        if s then -(k : Int) else k
      | _ => 0) e (w - 2)

/-- A block of an MX operand (03 R63). -/
def mxBlock (m : Mx) (c : Nat) (q : List Int) : ABlock :=
  if c == 0xFF then .nan else .ints q ((c : Int) - 127) m.f

/-- One block's step of the accumulation of 03 R69 and 12 R273: the FP32 accumulator and the NV and OF bits. NV is set where a NaN is made of
operands that are none (R56), as where a block holds an infinity. -/
def accStep (se : Int) (acc : Nat) (a b : ABlock) : Nat × Nat :=
  match Fmt.fp32.decode acc, a, b with
  | .nan, _, _ => (Fmt.fp32.nanCode, 0)
  | x, .ints qa ea fa, .ints qb eb fb =>
    let p : Int := (List.zipWith (· * ·) qa qb).foldl (· + ·) 0
    let (s, f) := Fp.add false x ((Fp.ofInt p).scale (ea + eb - fa - fb + se))
    let (c, g) := roundFp .fp32 .rne 0 s
    (c, (f ||| g) % 4)
  | _, .nan, _ | _, _, .nan => (Fmt.fp32.nanCode, 0)
  | _, _, _ => (Fmt.fp32.nanCode, fNV)

/-- The sum over blocks in ascending K order (03 R69). -/
def accBlocks (se : Int) (acc : Nat) : List ABlock → List ABlock → Nat × Nat
  | a :: as, b :: bs =>
    let (c, f) := accStep se acc a b
    let (c', f') := accBlocks se c as bs
    (c', f ||| f')
  | _, _ => (acc, 0)

/-! ## The mixing function and the generator (03 R74) -/

/-- H of 03 R74. -/
def mixH (x : Word) : Word :=
  let x := x ^^^ (x >>> 31)
  let x := x * 0xA24BAED4963EE407#64
  let x := x ^^^ (x >>> 29)
  let x := x * 0x9FB21C651E98DF25#64
  x ^^^ (x >>> 32)

/-- Word n under key k (03 R74). -/
def genG (k n : Word) : Word := mixH (k ^^^ mixH n)

/-- The 32-bit draw of element i from a popped word w (03 R73). -/
def drawU (w : Word) (i : Nat) : Nat := (mixH (w ^^^ BitVec.ofNat 64 i)).toNat % 2 ^ 32

/-! ## The four function instructions (10 R235) -/

/-- F(v) of 10 R235: an exact value rounded to FP32 by RNE, kept as an exact datum. -/
def rF (x : Fp) : Fp := Fmt.fp32.decode (roundFp .fp32 .rne 0 x).1

/-- a × b + c, exact. -/
def xfma (a b c : Fp) : Fp := (Fp.fma false a b c).1

/-- F(1/√(n/d)) for the table of VRSQ: the root to 64 extra bits, then rounded; a square of the table is exact. -/
def rsqTable (n d : Nat) : Fp :=
  let k := isqrt (d * 2 ^ 160 / n)
  let exact := k * k * n == d * 2 ^ 160
  rF (.fin false (if exact then 2 * k else 2 * k + 1) (2 ^ 81))

/-- T = F(2^(j/64)) for j = 0 to 63, FP32 codes (10 R235). -/
def exp2Table : List Nat := [
  0x3F800000, 0x3F8164D2, 0x3F82CD87, 0x3F843A29, 0x3F85AAC3, 0x3F871F62, 0x3F88980F, 0x3F8A14D5,
  0x3F8B95C2, 0x3F8D1ADF, 0x3F8EA43A, 0x3F9031DC, 0x3F91C3D3, 0x3F935A2B, 0x3F94F4F0, 0x3F96942D,
  0x3F9837F0, 0x3F99E046, 0x3F9B8D3A, 0x3F9D3EDA, 0x3F9EF532, 0x3FA0B051, 0x3FA27043, 0x3FA43516,
  0x3FA5FED7, 0x3FA7CD94, 0x3FA9A15B, 0x3FAB7A3A, 0x3FAD583F, 0x3FAF3B79, 0x3FB123F6, 0x3FB311C4,
  0x3FB504F3, 0x3FB6FD92, 0x3FB8FBAF, 0x3FBAFF5B, 0x3FBD08A4, 0x3FBF179A, 0x3FC12C4D, 0x3FC346CD,
  0x3FC5672A, 0x3FC78D75, 0x3FC9B9BE, 0x3FCBEC15, 0x3FCE248C, 0x3FD06334, 0x3FD2A81E, 0x3FD4F35B,
  0x3FD744FD, 0x3FD99D16, 0x3FDBFBB8, 0x3FDE60F5, 0x3FE0CCDF, 0x3FE33F89, 0x3FE5B907, 0x3FE8396A,
  0x3FEAC0C7, 0x3FED4F30, 0x3FEFE4BA, 0x3FF28177, 0x3FF5257D, 0x3FF7D0DF, 0x3FFA83B3, 0x3FFD3E0C]

/-- Lg = F(−log2 Rc) with Rc = F(1/(1 + j/64)), for j = 0 to 63, FP32 codes (10 R235). -/
def log2Table : List Nat := [
  0x00000000, 0x3CB73CB3, 0x3D35D690, 0x3D8759C9, 0x3DB31FB7, 0x3DDE420E, 0x3E0462C4, 0x3E195751,
  0x3E2E00D1, 0x3E42615F, 0x3E567AEF, 0x3E6A4F70, 0x3E7DE0B5, 0x3E88983F, 0x3E92203D, 0x3E9B8925,
  0x3EA4D3C2, 0x3EAE00D1, 0x3EB71110, 0x3EC0052D, 0x3EC8DDD3, 0x3ED19BAF, 0x3EDA3F60, 0x3EE2C97E,
  0x3EEB3A9E, 0x3EF39355, 0x3EFBD42A, 0x3F01FED4, 0x3F060828, 0x3F0A0650, 0x3F0DF98A, 0x3F11E20E,
  0x3F15C01A, 0x3F1993E4, 0x3F1D5DA0, 0x3F211D84, 0x3F24D3C3, 0x3F28808D, 0x3F2C2410, 0x3F2FBE7F,
  0x3F335004, 0x3F36D8CA, 0x3F3A58FE, 0x3F3DD0C9, 0x3F41404E, 0x3F44A7BB, 0x3F480731, 0x3F4B5ED6,
  0x3F4EAECF, 0x3F51F740, 0x3F553847, 0x3F58720A, 0x3F5BA4A5, 0x3F5ED038, 0x3F61F4E5, 0x3F6512C6,
  0x3F6829FA, 0x3F6B3AA0, 0x3F6E44CF, 0x3F7148A2, 0x3F744636, 0x3F773DA2, 0x3F7A2F03, 0x3F7D1A71]

/-- FP32 code as an exact datum. -/
def f32 (c : Nat) : Fp := Fmt.fp32.decode c

/-- Vrcp (10 R235) of ±m × 2^e, m = n/d in [1, 2). -/
def vrcpFin (s : Bool) (n d : Nat) (e : Int) : Fp :=
  let i := (n * 128 - d * 128) / d
  let m : Fp := .fin false n d
  let r := rF (.fin false 128 (128 + i))
  let t := rF (xfma m.neg r (.fin false 1 1))
  let r := rF (xfma r t r)
  let t := rF (xfma m.neg r (.fin false 1 1))
  match (xfma r t r).scale (-e) with
  | .fin _ a b => .fin s a b
  | y => y

/-- Vrsq (10 R235) of m × 2^e with m = n/d in [1, 2). -/
def vrsqFin (n d : Nat) (e : Int) : Fp :=
  let odd := e % 2 == 1
  let n := if odd then 2 * n else n
  let e := if odd then e - 1 else e
  let i := (n * 64 - d * 64) / d
  let h : Fp := .fin false n (2 * d)
  let half : Fp := .fin false 1 2
  let r := rsqTable (64 + i) 64
  let q := rF (xfma r r .zero)
  let t := rF (xfma h.neg q half)
  let r := rF (xfma r t r)
  let q := rF (xfma r r .zero)
  let t := rF (xfma h.neg q half)
  (xfma r t r).scale (-(e / 2))

/-- Vexp2 (10 R235) of the finite value ±n/d. -/
def vexp2Fin (s : Bool) (n d : Nat) : Fp :=
  if !s && decide (n ≥ 128 * d) then .fin false (2 ^ 128) 1
  else if s && decide (n > 160 * d) then .fin false 1 (2 ^ 160)
  else
    let z : Int := if s then -(n : Int) else n
    let fl : Int := z / (d : Int)
    let fr : Nat := (z - fl * d).toNat
    let j := fr * 64 / d
    let g : Fp := .fin false (fr * 64 - j * d) (64 * d)
    let tT := f32 (exp2Table.getD j 0)
    let q := f32 0x3D635847
    let q := rF (xfma g q (f32 0x3E75FDF0))
    let q := rF (xfma g q (f32 0x3F317218))
    let q := rF (xfma g q .zero)
    (xfma tT q tT).scale fl

/-- Vlog2 (10 R235) of m × 2^e with m = n/d in [1, 2). -/
def vlog2Fin (n d : Nat) (e : Int) : Fp :=
  let j := (n * 64 - d * 64) / d
  let rc := rF (.fin false 64 (64 + j))
  let u := rF (xfma (.fin false n d) rc (.fin true 1 1))
  let q := f32 0xBEB8AA3B
  let q := rF (xfma u q (f32 0x3EF6384F))
  let q := rF (xfma u q (f32 0xBF38AA3B))
  let q := rF (xfma u q (f32 0x3FB8AA3B))
  let t := rF (xfma u q .zero)
  (Fp.add false (Fp.add false (Fp.ofInt e) (f32 (log2Table.getD j 0))).1 t).1

/-- The four functions. -/
inductive FnOp where
  | rcp | rsq | exp2 | log2
  deriving DecidableEq, Repr

/-- The exact result of a function instruction on any operand, with NV where 10 R235 marks it. -/
def fnExact (op : FnOp) (x : Fp) : Fp × Nat :=
  match x with
  | .nan => (.nan, 0)
  | .inf false => (match op with | .rcp | .rsq => (.zero, 0) | _ => (.inf false, 0))
  | .inf true => (match op with
    | .rcp => (.fin true 0 1, 0) | .exp2 => (.zero, 0) | _ => (.nan, fNV))
  | .fin s n d =>
    if n == 0 then (match op with
      | .rcp | .rsq => (.inf s, 0) | .exp2 => (.fin false 1 1, 0) | .log2 => (.inf true, 0))
    else
      let e := floorLog2 n d
      let (mn, md) := scaleUp n d (-e)
      match op with
      | .rcp => (vrcpFin s mn md e, 0)
      | .exp2 => (vexp2Fin s n d, 0)
      | .rsq => if s then (.nan, fNV) else (vrsqFin mn md e, 0)
      | .log2 => if s then (.nan, fNV) else (vlog2Fin mn md e, 0)

/-- A function instruction on one lane (10 R235). -/
def fnLane (op : FnOp) (f : Fmt) (rm : RMode) (u code : Nat) : Nat × Nat :=
  let (y, fl) := fnExact op (f.decode code)
  let (c, g) := roundFp f rm u y
  (c, fl ||| g)

end Sys2Proof.Machine
end

