-- ==== Sys2Proof/Config.lean ====
section
/-! DEFINITION. What the spec leaves to the part: free values with no body, applied to a counter of the state
(log entries 5 to 9), and the fixed numbers the spec does give. -/

namespace Sys2Proof.Config

/-- The nanoseconds of fabric time that pass in step n of the machine (R397); any value (log entry 5). -/
opaque elapsedNs : Nat → Nat
/-- The cycles of a die's arithmetic clock that pass in step n (R204 CYCLE); any value (log entry 5). -/
opaque elapsedCycles : Nat → Nat
/-- The cycles of a die's leat cores that pass in step n (R403 CYC); any value (log entry 5). -/
opaque leatCycles : Nat → Nat
/-- The n-th 64-bit word that the hardware draws: the key of a strand with no claim (R76), RAND (R433),
NONCE words of SPDM (R430); any value (log entry 6). -/
opaque drawn : Nat → Word
/-- Byte i that the spec calls unpredictable under R6 (R307, "Unpredictable, under R6, for a non-REDUCE slot"), delivered in a cycle: any
function of the cycle count, which every context can read (log entry 7). -/
opaque unpredictable : Nat → Nat → Byte
/-- How far the copy of fabric time on a die is ahead of the earliest one, in ns modulo 9 (R397); any value (log entry 5). -/
opaque timeSkew : Nat → Nat
/-- The port that the management firmware makes a PTP client (R397); any value (log entry 107). -/
opaque ptpPort : Nat
/-- Whether the fabric firmware sets a port up at its n-th occasion (R394, R395); any value (log entry 107). -/
opaque setsPort : Nat → Nat → Bool
/-- How a port is split at its n-th occasion: 0 one 800GbE, 1 two 400GbE, 2 four 200GbE, modulo 3 (R21); any value (log entry 107). -/
opaque portSplit : Nat → Nat → Nat
/-- Whether a port is put into long-haul mode at its n-th occasion (R394); any value (log entry 107). -/
opaque longHaul : Nat → Nat → Bool
/-- The 16 MiB units, less one and modulo 8, of a long-haul port's retry buffer (R394); any value (log entry 107). -/
opaque retryUnits : Nat → Nat → Nat
/-- Where in the HBM of its die a long-haul port's retry buffer lies (R394); any value (log entry 107). -/
opaque retryArea : Nat → Nat → Nat
/-- Whether a port runs MACsec (R395); any value (log entry 107). -/
opaque macOn : Nat → Nat → Bool
/-- The association of a port that is active after its n-th occasion (R395); any value (log entry 107). -/
opaque macActive : Nat → Nat → Nat
/-- The key of that association (R395); any value (log entry 107). -/
opaque macKey : Nat → Nat → List Byte
/-- The rekey mark that the firmware gives a port at its n-th occasion, none for the default (R395); any value (log entry 107). -/
opaque rekeyMark : Nat → Nat → Option Nat
/-- Entry i of a port's path table after its n-th occasion (R398); any value (log entry 107). -/
opaque pathEntry : Nat → Nat → Nat → Nat
/-- The association under which a control frame of a step arrives (R395), modulo 4: no argument of its event says it; any value (log entry
138). -/
opaque frameAn : Nat → Nat
/-- How many single-bit errors of a partition's memory the hardware has corrected between its n-th draw of a free value and the one
before (R381); any value (log entry 101). -/
opaque corrected : Nat → Nat
/-- Where the old image of firmware kind k writes its hand-over block (R428): a package physical address in an area of the firmware's own;
any value (log entry 107). -/
opaque handoverArea : Nat → Nat
/-- The vector that the host has set for a partition's measurement-event list by the end of the n-th activation, if it has set one (R429);
any value (log entry 78). -/
opaque eventVector : Nat → Nat → Option Nat
/-- The number of Page Requests that the host lets a die keep outstanding through the PRI capability (R376); any value (log entry 102). -/
opaque priAllocation : Nat → Nat
/-- The package's own node number in REMOTE handles (R121); any value (log entry 8). -/
opaque ownNode : Nat
/-- The module's fused key hash for firmware kind k, 48 bytes (R423); any value (log entry 8). -/
opaque fusedKeyHash : Nat → List Byte
/-- What the firmware's own generator loads into key slot k at the n-th draw, when a partition that holds the slot is configured; none where
the firmware does not load the slot itself (R339); any value (log entry 108). -/
opaque generatedKey : Nat → Nat → Option (List Byte)
/-- Whether the responder that the package runs serves version 1.3 beside 1.2 (R430, R438); any value (log entry 31). -/
opaque serves13 : Bool
/-- What the side port reads in a step as temperature n, and as the input power (R446); any value (log entry 134). -/
opaque temperature : Nat → Nat → Nat
/-- The input power that the side port reads in a step (R446); any value (log entry 134). -/
opaque inputPower : Nat → Nat
/-- The digest of the boot ROM (R424 MEAS0); any value (log entry 8). -/
opaque romDigest : List Byte
/-- SHA-384 of the fuse configuration without the SVN floors (R424 MEAS4); any value (log entry 8). -/
opaque fuseConfig : List Byte
/-- The certificate chain of slot 0, and the private key that R436 signs with; any value (log entry 8). -/
opaque certificateChain : List Byte
/-- The private key of certificate slot 0 (R436); any value (log entry 8). -/
opaque certificateKey : Nat
/-- What a session message of SPDM carries beyond the fields the spec lays down (R430 names DSP0277 and gives no layout);
any bytes (log entry 9). -/
opaque sessionBody : Nat → List Byte
/-- The identifier that the hardware gives the n-th context or group (R26 CTXID, R36 GRPID); any value (log entry 6). -/
opaque identifier : Nat → Nat

/-- RETRY_LIMIT (R40). -/
def retryLimit : Nat := 3
/-- The number of masks a region's mask set holds (R41). -/
def maskLimit : Nat := 64
/-- DRESS_WAIT in bundle instances (R292). -/
def dressWait : Nat := 16
/-- SLICE_GRACE in ns (R363, "20 µs"). -/
def sliceGrace : Nat := 20000
/-- The deepest launching context that may not launch again (R32). -/
def launchDepth : Nat := 24
/-- Waiter entries per die, SRAM and spill together (R134). -/
def waiterEntries : Nat := 1179648

end Sys2Proof.Config
end

