-- ==== Sys2Proof/Machine/State.lean ====
section
/-! DEFINITION. The machine's state as plain data, and the state after reset. Sparse collections are Tables by key (Table.lean);
a core, mill, die, partition, port or leat core that a table does not list is as after reset. -/

namespace Sys2Proof.Machine

/-- Reasons a step stops with a fault. Only a misuse of the model raises one. -/
inductive Fault where
  /-- Raised by no meaning today; kept for an access outside the part. Safe: the machine stops where hardware has nothing to do. -/
  | noSuchUnit
  deriving DecidableEq, Repr

/-- Reasons a step is refused. -/
inductive Refusal where
  /-- An instruction of the opcode table with no meaning yet, by mnemonic. Safe. -/
  | notModelled (mnemonic : String)
  deriving DecidableEq, Repr

/-! ### Places in memory -/

/-- The storages a byte can lie in: banks (mill × 2^23 + offset, R79), HBM by package physical address (R335), host memory by host
address (R94), MCRAM and the control window of the management controller (R432), and nothing. -/
inductive Space where
  | bank | hbm | host | mcram | ctl
  deriving DecidableEq, Repr

/-- A byte's place: its storage and its address there. -/
structure Loc where
  sp : Space
  addr : Nat
  deriving DecidableEq, Repr

/-! ### Compute core (07) -/

/-- A loop stack entry (R147, R199). -/
structure LoopEnt where
  count : Nat
  index : Nat
  start : Word
  skip : Bool
  deriving DecidableEq, Repr

/-- The last operation of a slot and its offset (R146, R169); word 0 is NOP. -/
structure Sticky where
  word : Nat := 0
  ext : Option Nat := none
  off : Int := 0
  deriving DecidableEq, Repr

/-- The shadowed state of a core (R149): registers by number, latches by 2 × slot + age (none is undefined, R37), the loop stack
innermost first, PC, REP instances left, sticky operations by slot, STATUS, the step CSRs by slot, QMODE, DRESSPERM, and the index of
the next random word (R75). -/
structure Arch where
  s : Table Word := []
  v : Table Vec := []
  o : Table Vec := []
  p : Table Word := []
  k : Table Word := []
  t : Table Word := []
  latch : Table (Option Vec) := []
  loops : List LoopEnt := []
  pc : Word := 0
  rep : Nat := 0
  sticky : Table Sticky := []
  status : Word := 0
  steps : Table Word := []
  qmode : Word := 0
  dressperm : Word := 0
  rngNext : Nat := 0
  deriving DecidableEq, Repr

/-- The register files a result can land in; csr holds CSRs written by CSRW (R202), none is destination code 63 (R173). -/
inductive RegFile where
  | s | v | o | p | k | t | csr | none
  deriving DecidableEq, Repr

/-- A register result in flight (R139, R160): the bits of mask are replaced by those of val when left reaches 0 (R219).
older marks a result of an earlier region (R148), mem the result of an access to memory, which a FENCE awaits (R99). -/
structure Landing where
  slot : Nat
  file : RegFile
  num : Nat
  val : Vec
  mask : Vec
  latch : Bool
  left : Nat
  older : Bool
  mem : Bool := false
  deriving DecidableEq, Repr

/-- What holds a strand (R45, R99, R375); group: another member of its LOCKSTEP group is held. -/
inductive Hold where
  | group
  | waitf (mask : Nat)
  | join
  | pageDevice (va : Nat)
  | pageHost (page : Nat)
  | ats (page : Nat)
  | fence
  deriving DecidableEq, Repr

/-- A tile descriptor's use by an M operation (R89): the register, its value stepped by the sticky offset. -/
structure TileRef where
  reg : Nat := 0
  desc : Word := 0
  deriving DecidableEq, Repr

/-- An M-slot operation, SEAL or OPEN as it stands after issue (R290): opcode (SEAL 16, OPEN 17), form, operands read at issue. ka and kb
are the registers that its KA and KB fields name, as read at issue. age counts the bundle instances issued since it entered the window
(R292), orig the original operations that its dispatch adds to the tile skip count (R151), and seq is its place in its mill's order of
dispatch (R270). -/
structure MOp where
  slot : Nat
  opc : Nat
  fn : Nat
  td : TileRef := {}
  ta : TileRef := {}
  tb : TileRef := {}
  off : Int := 0
  ka : Word := 0
  kb : Word := 0
  rm : Nat := 0
  tr : Bool := false
  se : Int := 0
  sr : Option Nat := none
  rnd : Word := 0
  baddr : Nat := 0
  bphys : List Nat := []
  handle : Option Nat := none
  key : Nat := 0
  iv : Word := 0
  pc : Word := 0
  inst : Nat := 0
  rule : Option Nat := none
  fold : Option Int := none
  set_ : Nat := 0
  cmd : Nat := 0
  age : Nat := 0
  orig : Nat := 1
  seq : Nat := 0
  deriving DecidableEq, Repr

/-- A fault with the place it arose: waiting for the strand's next bundle boundary (R158, R243, R255, R291), or kept while the strand
is held on a page (R374, R376). flags are those of the fault record (R379). -/
structure PendingFault where
  code : Nat
  info : Nat
  pc : Word
  slot : Nat
  rule : Option Nat := none
  inst : Nat := 0
  flags : Nat := 0
  deriving DecidableEq, Repr

/-- An engine command of R280, MCST and MVS's footprint entry. -/
inductive CmdKind where
  | cpy | send | arm | disarm | cload | coll | mcst | mvs
  deriving DecidableEq, Repr

/-- Where an engine command stands (R280). -/
inductive CmdStage where
  | held | released | running | stalledDevice (va : Nat) | stalledAts (page : Nat) | stalledHost (page va : Nat)
  deriving DecidableEq, Repr

/-- An engine command (R280 to R289): its kind, issuer and place, fields, footprint (R281) and progress. It starts after the tile
operations of its core up to number after have completed (R103); begun tells that a CPY has passed its start checks, and stallDie is the die
whose translation a stalled command waits for. -/
structure ECmd where
  id : Nat
  kind : CmdKind
  job : Nat
  strand : Nat
  core : Nat
  pid : Nat
  aspace : Nat
  chan : Nat := 0
  slack : Nat := 7
  src : Nat := 0
  dst : Nat := 0
  rowBytes : Nat := 0
  rows : Nat := 0
  spitch : Int := 0
  dpitch : Int := 0
  desc : List Byte := []
  slot : Nat := 0
  number : Nat := 0
  handle : Option Nat := none
  inc : Nat := 0
  rnd : Word := 0
  reads : List (Nat × Nat) := []
  writes : List (Nat × Nat) := []
  stage : CmdStage := .held
  done : Nat := 0
  acks : List (Nat × Nat) := []
  replicas : List Nat := []
  user : Bool := true
  lb : List Word := []
  kept : List Byte := []
  after : Nat := 0
  begun : Bool := false
  stallDie : Nat := 0
  deriving DecidableEq, Repr

/-- A side-effecting command in the release buffer (R150). -/
inductive BufCmd where
  | cadd (h amount : Nat)
  | caddm (hs : List Nat) (amount : Nat)
  | engine (id : Nat)
  | accv (loc : Loc) (fn sub : Nat) (mask val : Vec)
  | cinv (fn : Nat) (line : Option Nat)
  | cflush (fn : Nat) (line : Option Nat)
  | watch (w : Waiter)
  | unwatch (flag : Nat)
  | launch (rec : List Byte) (loc : Loc)
  | gen (seed : Word) (base len : Nat)
  | dress (rules : List (List Byte))
  deriving DecidableEq, Repr

/-- An entry of the release buffer in program order (R150): bytes written from a place up with the store's hint (R87), or a command. -/
inductive BufEnt where
  | write (loc : Loc) (bytes : List Byte) (hint : Nat)
  | cmd (c : BufCmd)
  deriving DecidableEq, Repr

/-- A CADDF that waits for the tile operations of its own bundle (R109): its handle, amount and destination, the release-buffer entries before
it, and the issued cycles until its result is due (R139). -/
structure Owed where
  h : Nat
  amount : Nat
  d : Nat
  ents : Nat
  left : Nat := 40
  deriving DecidableEq, Repr

/-- What the end of a bundle instance still asks for while the windows of the cores that issued it empty (R148, R301): the entry into
SERVICE, with the address after the SVC and its IMM21 (R207), or the return from it (R208), a checkpoint, then the wait for its writes (R99,
R253), a YIELD (R214), the strands' end (R201); or the stop of a pre-emption, whose checkpoint it is (R159, R330). -/
structure Closing where
  cores : List Nat := []
  sync : Bool := false
  yield : Bool := false
  exits : Bool := false
  svc : Option (Word × Nat) := none
  sret : Bool := false
  stop : Bool := false
  deriving DecidableEq, Repr

/-- A counter read by a CADDF of amount 0 (R113): 1 + the die of a home at DIE scope or wider, else 0; the release scope that the FENCE
must have; the cycles until the value lands. -/
structure CtrSeen where
  home : Nat
  scope : Nat
  left : Nat
  deriving DecidableEq, Repr

/-- A load whose integrity check is pending (R157). -/
structure LoadCheck where
  loc : Loc
  len : Nat
  left : Nat
  again : Bool
  pc : Word := 0
  inst : Nat := 0
  slot : Nat := 2
  deriving DecidableEq, Repr

/-- A TLB entry (R372): partition and space tags, page base and size, permissions, and the page's place. host marks a HOST leaf, whose addr is a
host address; ats a host translation that ATS returned, which va names by host address (R375). -/
structure TlbEnt where
  pid : Nat
  aspace : Nat
  va : Nat
  size : Nat
  r : Bool
  w : Bool
  x : Bool
  host : Bool
  addr : Nat
  ats : Bool := false
  deriving DecidableEq, Repr

/-- The CSRs of the management controller that on a compute core show a mill's or a partition's field and that only FIRM writes (R204, R432):
MILLMODE, BANKROLE, LATTOL and AGE_PERIOD, at R204's values after reset. -/
structure FirmRegs where
  millmode : Word := 0
  bankrole : Word := 0
  lattol : Word := 0
  agePeriod : Word := 1000
  deriving DecidableEq, Repr

/-- A compute core, or the management controller's scalar core (R432). fhome holds, for a flag that a waiter set, 1 + the die that homes
its counter, 0 for a LOCAL counter (R88, R111). window holds the entries of the dressing stage that are not decided, staged the operations
it has decided to dispatch (R290, R291); later the released commands that wait for tile operations up to a number (R109); owed the
CADDFs that wait for the tile operations of their own bundle (R109). idle counts the cycles that its strand has been held (R46); power is 1 in ISSUE_IDLE, and
idleAt the fabric time since which it has been known to meet the conditions of an idle state (R365). stale tells that the release buffer (1)
or the drain (2) holds accesses that began with a translation that has been invalidated (R373, R377). -/
structure Core where
  live : Arch := {}
  shadow : Arch := {}
  ckptPc : Word := 0
  epc : Word := 0
  ecause : Word := 0
  faultinfo : Word := 0
  retrycnt : Word := 0
  reread : Word := 0
  flags : BitVec 16 := 0
  fto : BitVec 16 := 0
  fhome : Table Nat := []
  job : Option Nat := none
  strand : Nat := 0
  stopped : Bool := false
  hold : Option Hold := none
  grpid : Word := 0
  rank : Word := 0
  codebase : Word := 0
  codelen : Nat := 0
  seghead : List Byte := []
  checked : List (Nat × List Byte) := []
  lbound : List Word := [0, 0, 0, 0]
  svcvec : Word := 0
  rngKey : Word := 0
  rngEnd : Nat := 0
  rngClaim : Bool := false
  inflight : List Landing := []
  buf : List BufEnt := []
  drain : List BufEnt := []
  drainBy : Issuer := ⟨0, 0⟩
  readBits : List Nat := []
  tileSkip : Nat := 0
  tileDrop : Nat := 0
  tiles : List MOp := []
  window : List MOp := []
  staged : List MOp := []
  later : List (Nat × Issuer × BufCmd) := []
  owed : List Owed := []
  closing : Option Closing := none
  seen : List CtrSeen := []
  rules : List (List Byte) := []
  reexec : Bool := false
  masks : List (Nat × Nat) := []
  instCount : Nat := 0
  loads : List LoadCheck := []
  eccAddr : Option Loc := none
  pending : List PendingFault := []
  pageFault : Option PendingFault := none
  preempt : Bool := false
  frozen : Bool := false
  phase : Nat := 0
  idle : Nat := 0
  power : Nat := 0
  idleAt : Option Nat := none
  tlb : List TlbEnt := []
  stale : Nat := 0
  dressBad : Bool := false
  dround : Bool := false
  stalled : Bool := false
  firm : FirmRegs := {}
  deriving DecidableEq, Repr

/-! ### Mill (04, 12) -/

/-- A CACHE line (R85, R87): its package physical line number, class (the HINT code) and data; the list is most recent first. -/
structure CacheLine where
  line : Nat
  cls : Nat
  data : List Byte
  deriving DecidableEq, Repr

/-- A loaded B set (R271, R272): the source descriptor, form, and its codes and scales. -/
structure BSet where
  loaded : Bool := false
  desc : Word := 0
  tr : Bool := false
  kb : Option Word := none
  codes : List Byte := []
  scales : List Byte := []
  deriving DecidableEq, Repr

/-- A BANKROLE change under way (R83). -/
structure RoleChange where
  roles : Word
  zeroing : Bool
  deriving DecidableEq, Repr

/-- A mill (R81, R85, R162, R271). tileSeq counts the tile operations dispatched, and lastMma holds the number of the last MMA of an array
(R273). -/
structure Mill where
  bankrole : Word := 0
  millmode : Bool := false
  bsets : Table BSet := []
  bptr : Table Nat := []
  tileSeq : Nat := 0
  lastMma : Table Nat := []
  cache : List CacheLine := []
  stall : Table Nat := []
  halted : List Nat := []
  change : Option RoleChange := none
  idle : Nat := 0
  idleAt : Option Nat := none
  deriving DecidableEq, Repr

/-! ### Die (05, 12, 14, 20) -/

/-- An armed slot (R286, R305 to R313). placed counts the clean bytes of each chunk, landed holds the chunks whose bit is set,
published the tiles published; waitDev and waitHost the address, or the host page and address, whose translation arriving data waits for (R448). -/
structure Armed where
  inst : Nat
  desc : List Byte
  job : Nat
  strand : Nat
  pid : Nat
  aspace : Nat
  det : Bool
  core : Nat
  closing : Bool
  effective : Bool
  placed : Table Nat
  landed : List Nat
  published : List Nat
  count : Nat
  user : Bool
  lb : List Word
  waitDev : Option Nat := none
  waitHost : Option (Nat × Nat) := none
  deriving DecidableEq, Repr

/-- An operation of a graph instance (R319). -/
inductive OpStage where
  | waiting | running | done
  deriving DecidableEq, Repr

/-- The progress of one chunk operation: bytes arrived of its input (R320), its contributor list (R327). -/
structure OpState where
  stage : OpStage := .waiting
  arrived : Nat := 0
  contrib : List Nat := []
  folded : Nat := 0
  flen : Nat := 0
  status : Nat := 0
  deriving DecidableEq, Repr

/-- A graph slot (R288, R289, R319, R321). -/
structure Graph where
  job : Nat
  image : List Byte
  inst : Option Nat := none
  last : Nat := 0
  ctrs : Table Nat := []
  ops : Table OpState := []
  bases : List Byte := []
  cmd : Nat := 0
  deriving DecidableEq, Repr

/-- An outstanding Page Request (R376). -/
structure PageReq where
  pid : Nat
  aspace : Nat
  page : Nat
  deriving DecidableEq, Repr

structure Die where
  clock : List Nat := [0, 0, 0, 0, 0, 0, 0, 0]
  l2 : List TlbEnt := []
  pageReqs : List PageReq := []
  priOff : Bool := false
  armed : Table (Option Armed) := []
  graphs : Table (Option Graph) := []
  idle : Nat := 0
  idleAt : Option Nat := none
  throttled : Bool := false
  deriving DecidableEq, Repr

/-! ### Partitions, jobs (18, 19) -/

inductive PartState where
  | free | configured | active | draining
  deriving DecidableEq, Repr

/-- A launch queue (R350): its descriptor, BELL's value at enable, entries consumed. -/
structure LaunchQueue where
  desc : List Byte := []
  base : Nat := 0
  taken : Nat := 0
  deriving DecidableEq, Repr

/-- An RNG claim (R76, R77): live, or reserved by a GEN that is not released. -/
structure Claim where
  seed : Word
  base : Nat
  len : Nat
  job : Nat
  strand : Option Nat
  live : Bool := true
  deriving DecidableEq, Repr

/-- A packet that a connection sends, held as a descriptor (R389): its command (0 for a counter add) and graph operation, who is told
of a failure with which SLOT and FAULTINFO, its header, the source ranges that a retransmission reads afresh or the bytes kept for it; got
holds stretches of the source, by address, that its port has read for another destination (R314); its payload length, and how often it has
been sent. -/
structure Sent where
  psn : Nat := 0
  cmd : Nat := 0
  op : Option Nat := none
  by_ : Issuer
  slot : Nat := 9
  info : Nat := 0
  header : List Byte
  src : List (Nat × Nat) := []
  kept : Option (List Byte) := none
  got : List (Nat × List (Byte × Bool)) := []
  len : Nat := 0
  tx : Nat := 0
  deriving DecidableEq, Repr

/-- A connection entry (R398) and its transport state (R389 to R391, R415): queue holds packets not yet sent, sent those not yet acknowledged; held
the resends that a limit stops, each a PSN with its entropy value; numbered counts the PSNs given; rxSel holds PSNs accepted above the cumulative one,
rxPath the path of the last packet answered; timerAt the time of its retransmit timer's last restart. A window or rate that was never given sets no
limit (log entry 27). -/
structure Conn where
  entry : List Byte := []
  port : Nat := 0
  nextPsn : Nat := 0
  ackCum : Nat := 0xFFFFFFFF
  ackSel : List Nat := []
  rxCum : Nat := 0xFFFFFFFF
  rxSel : List Nat := []
  rxPath : Nat := 0
  window : Option Nat := none
  rate : Option Nat := none
  credit : Nat := 0
  granted : Nat := 0
  timeout : Nat := 0
  held : List (Nat × Nat) := []
  numbered : Nat := 0
  timerOn : Bool := false
  timerAt : Nat := 0
  queue : List Sent := []
  sent : List Sent := []
  deriving DecidableEq, Repr

/-- A partition (R335 to R339, R350 to R363, R368, R382, R398, R424, R429). due lists the doorbell updates whose entries are not all consumed,
oldest first: the queues that an update rang, and the entries of each that were due after it (R351). agePeriod has its default at first (R204). -/
structure Partition where
  st : PartState := .free
  desc : List Byte := []
  queues : Table LaunchQueue := []
  due : List (List (Nat × Nat)) := []
  spaces : Table (List Byte) := []
  fring : Table Nat := []
  lost : List Nat := []
  gangs : Table (List Byte) := []
  slice : Table (Option Nat) := []
  submission : Nat := 0
  tickets : Nat := 0
  reserved : Table Nat := []
  conns : Table Conn := []
  record : List Byte := []
  pmeas : List Byte := []
  svcHash : List Byte := []
  nonce : Nat := 0
  claims : List Claim := []
  events : List (List Byte) := []
  eventsLost : Nat := 0
  eventVec : Option Nat := none
  lattol : Word := 0
  agePeriod : Word := 1000
  deriving DecidableEq, Repr

/-- A job's life: its TASK waiter armed, ready in its queue, running, switched out and not ready, suspended by host loss, ended. -/
inductive JobPhase where
  | waiting | ready | running | out | suspended | ended
  deriving DecidableEq, Repr

/-- A strand of a job: on a core, ended, or in the saved image. -/
inductive StrandAt where
  | core (c : Nat)
  | exited
  | retired
  | saved
  deriving DecidableEq, Repr

/-- A group of a context (R36): its key, size, policy and attribute, the STRANDIDs that have joined (by position once formed), those
that have left or retired since, and its identifier. -/
structure Group where
  key : Word
  size : Nat
  policy : Nat
  lockstep : Bool
  formed : Bool
  gid : Word
  roster : List Nat
  gone : List Nat := []
  deriving DecidableEq, Repr

/-- A task record and, once dispatched, its context (R27, R30, R34, R345, R353). While it is switched out, image holds the base of its
image, the address of its tag array and the NONCE; kept holds each strand's core and keptMills each mill, as saved and as waiters and
engines have changed them since (R126, R447); savedCmds its queued engine commands (R348). clock is the vector clock of the launching die at
its submission (R33); lastCore holds the core that each strand was last on (R379). Of a switched-out context that holds
no mills, keptFrom lists the mills it left, keptCtrs the LOCAL counters 0 to 23 of their cores in placement order (R119), and keptWaiters the waiters on LOCAL
counters (R46, R135). readyAt is the fabric time at which the record became ready or last rose a level (R47). The watchdog counts from wdogAt on;
wdogHit tells that it has been offered (R364). -/
structure Job where
  id : Nat
  pid : Nat
  record : List Byte
  recLoc : Loc
  depth : Nat
  parent : Option Nat
  key : List Nat
  level : Nat
  phase : JobPhase
  launched : Bool
  dispatched : Bool := false
  ctxid : Nat := 0
  mills : List Nat := []
  strands : List StrandAt := []
  outcome : Nat := 2
  fcode : Nat := 0
  leaving : Bool := false
  wakeAfter : Bool := false
  image : Option (Nat × Nat × Nat) := none
  seghead : List Byte := []
  kept : Table Core := []
  keptMills : List Mill := []
  savedCmds : List ECmd := []
  launches : Table Nat := []
  groups : List Group := []
  halted : Bool := false
  wdogNs : Nat := 0
  wdogAt : Nat := 0
  wdogHit : Bool := false
  readyAt : Nat := 0
  keptFrom : List Nat := []
  keptCtrs : List (List Word) := []
  keptWaiters : List Waiter := []
  clock : List Nat := []
  lastCore : Table Nat := []
  skipped : Option Nat := none
  deriving DecidableEq, Repr

/-! ### Outputs -/

/-- What the package gives the outside: DOE responses to SPDM messages and to management requests, MSI-X messages, Page Requests, ATS requests and
completions, packets and acknowledgements, host read data. -/
inductive Output where
  | doe (bytes : List Byte)
  | mgmtReply (bytes : List Byte)
  | msix (link vec : Nat)
  | pageRequest (die pasid page : Nat)
  | atsRequest (die pasid page : Nat)
  | atsInvalidateDone (page : Nat)
  | packet (port conn psn path : Nat) (header payload : List Byte) (cipher : List Bool)
  | ack (conn cumulative sel credit path marked : Nat)
  | refusal (conn psn inst : Nat)
  | poisoned (conn psn slot chunk : Nat)
  | nack (conn psn reason : Nat)
  | probe (conn path : Nat)
  | trimAck (conn psn : Nat)
  | handshake (conn kind : Nat)
  | hostRead (bytes : List Byte)
  | snoopMiss (link addr : Nat)
  deriving DecidableEq, Repr

/-! ### Fabric (21) and leat cores (22) -/

/-- MACsec on a port (R395): whether it runs; the association it sends under and the one it accepts, with the one installed before until
the first frame under the newer; the packet number of each association, and its key; the rekey mark that the firmware has set, if any. -/
structure Mac where
  on : Bool := false
  tx : Nat := 0
  rx : Nat := 0
  old : Option Nat := none
  pn : Table Nat := []
  keys : Table (List Byte) := []
  mark : Option Nat := none
  deriving DecidableEq, Repr

/-- A port (R384, R393 to R395, R398, R401): the lanes that are down, of four; split is 0, 1 or 2 for one, two or four ports (R21); retry holds
the frames that the link partner has not acknowledged, by number, buffer the bytes that a long-haul port's retry buffer takes, bufferAt its
place in HBM, and waiting the control frames that a full buffer stops; turns counts the firmware's occasions to set the port up; paths is the
path table. -/
structure Port where
  lanesDown : Nat := 0
  split : Nat := 0
  longHaul : Bool := false
  buffer : Nat := 0
  bufferAt : Nat := 0
  waiting : List Output := []
  turns : Nat := 0
  paths : Table Nat := []
  errors : Nat := 0
  frames : Nat := 0
  retry : List (Nat × Output) := []
  mac : Mac := {}
  requests : List (Nat × List Byte) := []
  deriving DecidableEq, Repr

/-- An event record (R400). -/
structure EventRec where
  code : Nat
  port : Nat
  sub : Bool
  conn : Nat
  time : Nat
  data : List Byte
  coalesced : Bool
  deriving DecidableEq, Repr

/-- A result on its way in a leat core (R404, R405): to a register, a unit's result port, or the bytes of a POP for DMEM (R411). -/
inductive LeatResult where
  | reg (code : Nat) (val : Word)
  | port (code : Nat) (val : Word)
  | pop (addr : Nat) (bytes : List Byte)
  deriving DecidableEq, Repr

structure LeatLanding where
  res : LeatResult
  left : Nat
  deriving DecidableEq, Repr

/-- A leat core (R402 to R418): registers b and q, operand ports and result ports by code, the return stack, the address of the
word to issue and the target after a delay slot, LCTL, memories, the event queue with its pending pairs, and the 16 timers. -/
structure Leat where
  b : Table Word := []
  q : BitVec 4 := 0
  operand : Table Word := []
  result : Table Word := []
  flight : List LeatLanding := []
  stack : List Nat := []
  pc : Nat := 0
  target : Option Nat := none
  run : Bool := false
  halted : Bool := true
  fcode : Nat := 0
  fpc : Nat := 0
  imem : Memory := []
  dmem : Memory := []
  queue : List EventRec := []
  fresh : Nat := 0
  waiting : List EventRec := []
  pending : List EventRec := []
  timers : Table (Option Nat) := []
  tmrx : BitVec 16 := 0
  deriving DecidableEq, Repr

/-! ### Management controller (24, 25) -/

/-- SPDM's order of requests (R430, R438): 0 none, 1 versioned, 2 capable, 3 negotiated, and a session's handshake. -/
structure Spdm where
  state : Nat := 0
  session : Nat := 0
  keysUpdated : Nat := 0
  ended : Nat := 0
  deriving DecidableEq, Repr

/-- A decision of the scheduler that waits for RESUME (R427): an event, or what the YIELD of a context asks for. -/
inductive Work where
  | event (i : Instr)
  | yield (id : Nat)
  deriving DecidableEq, Repr

/-- A live activation (R426): since is the fabric time at which STAGE, FREEZE or RESUME began, block the address of the retained hand-over
block (R428), deferred what waits for RESUME in the order of arrival (R427). -/
structure Activation where
  state : Nat := 0
  kind : Nat := 0
  result : Nat := 0
  hbcnt : Nat := 0
  seq : Nat := 0
  since : Nat := 0
  image : List Byte := []
  block : Option Nat := none
  pendingMeas : List Byte := []
  deferred : List Work := []
  deriving DecidableEq, Repr

/-- A management request that waits (R427, R443): its OPCODE and TAG, the numbers of its body, and the bytes that follow them. -/
structure Request where
  op : Nat
  tag : Nat
  args : List Nat
  body : List Byte
  deriving DecidableEq, Repr

/-- An invalidation whose entries are gone and whose completion waits for the accesses that began with them (R373, R377): the request that
asks again, whether it is one of the mailbox, the cores that hold such accesses, and the MVS commands. -/
structure Inval where
  ask : Instr
  doe : Bool
  cores : List Nat
  cmds : List Nat
  deriving DecidableEq, Repr

structure Mgmt where
  rxbuf : List Byte := []
  rxready : Bool := false
  rxsecond : Option (List Byte) := none
  rxlost : Nat := 0
  txbuf : List Byte := []
  hcmd : Word := 0
  hsrc : Word := 0
  hlen : Word := 0
  hdst : Word := 0
  hash : Table (List Byte) := []
  lastRand : Word := 0
  meas : Table (List Byte) := []
  act : Activation := {}
  flash : Table (List Byte) := []
  committed : Table Nat := []
  running : Table (List Byte) := []
  svnFloor : Table Nat := []
  commitKinds : List Nat := []
  bootBits : Nat := 0
  boots : Nat := 0
  spdm : Spdm := {}
  busyUntilPoll : Bool := false
  handed : Table (Option Nat) := []
  ptpPort : Option Nat := none
  doeQueue : List Request := []
  invals : List Inval := []
  deriving DecidableEq, Repr

/-! ### Offers -/

/-- A fault of an agent other than a running slot, waiting to be offered (R121, R131, R447): to a strand, or from the context level
when that strand has ended. slot is the record's SLOT (R379): 8 for an engine command, whose record carries ENGINE; rule, epc and inst are
those of a tile operation whose strand has ended (R304); add marks a counter add that failed (R382). -/
structure Offer where
  by_ : Issuer
  code : Nat
  info : Nat
  flags : Nat
  slot : Nat
  rule : Option Nat := none
  epc : Word := 0
  inst : Nat := 0
  add : Bool := false
  deriving DecidableEq, Repr

/-! ### Issue cursor -/

/-- Effects of a bundle instance that take place after every slot has issued (R153, R248). -/
inductive Eff where
  | store (loc : Loc) (bytes : List Byte) (hint : Nat)
  | cmd (c : BufCmd)
  | tile (m : MOp)
  | atom (loc : Loc) (f : F3) (y z : Word)
  | caddf (h amount : Nat) (d : Nat)
  | csr (n form : Nat) (a : Word)
  | join (key : Word) (size policy : Nat) (lockstep : Bool)
  | leave
  | yield
  | ctlStore (off n : Nat) (val : Nat)
  | ctlLoad (off n : Nat) (fn d : Nat)
  | ctlAtom (off : Nat) (f : F3) (y z : Word)
  | ctlTouch
  | flush
  deriving DecidableEq, Repr

/-- Which core and slot is issuing, and what the bundle instance has come to so far; mates holds the LOCAL ranges that the M operations
of the instance write, and all they touch, by slot (R268). -/
structure Cursor where
  core : Nat := 0
  slot : Nat := 0
  off : Int := 0
  inst : Nat := 0
  pc : Word := 0
  next : Word := 0
  aborted : Bool := false
  frozen : Bool := false
  freezePage : Option Nat := none
  target : Option Word := none
  enterSvc : Option Word := none
  leaveSvc : Bool := false
  exits : Bool := false
  ckpt : Bool := false
  follower : Bool := false
  pops : Nat := 0
  effs : List Eff := []
  locals : List (Nat × Nat × Bool) := []
  tdef : Option Nat := none
  mates : List (Nat × List (Nat × Nat) × List (Nat × Nat)) := []
  sync : Bool := false
  fresh : Bool := false
  stallChan : Option Nat := none
  illegal : Bool := false
  leatTarget : Option Nat := none
  leatHalt : Bool := false
  leatSeen : Option (Nat × BitVec 16) := none
  leatFault : Nat := 0
  deriving DecidableEq, Repr

/-! ### The machine -/

/-- cycle and leatCycle are the cycles of the arithmetic clock and of the leat cores since die reset (R204 CYCLE, R403 CYC). lostAt holds, for a
partition whose host was lost less than HOSTLOST_GRACE ago, the fabric time of the loss (R383). hbmForm and bankForm hold, for a line that carries
ciphertext (R340), which of its bytes no engine has written from plaintext since, as a 128-bit mask (R341); hbmWritten the 128-byte lines of HBM that
have been written, zeros too, and hbmKeys the ranges with the key that their bytes were encrypted under last (R339). -/
structure State where
  agenda : List Instr := []
  runQueue : List Nat := []
  cur : Cursor := {}
  ticks : Nat := 0
  cycle : Nat := 0
  leatCycle : Nat := 0
  draws : Nat := 0
  timeShift : Nat := 0
  hbm : Memory := []
  banks : Memory := []
  hostMem : Memory := []
  mcram : Memory := []
  hbmForm : Table Nat := []
  hbmWritten : Table Nat := []
  bankForm : Table Nat := []
  poison : Table Nat := []
  cores : Table Core := []
  mills : Table Mill := []
  dies : Table Die := []
  ctrs : Table Word := []
  waiters : List Waiter := []
  firings : List (Waiter × Word) := []
  offers : List Offer := []
  engines : List ECmd := []
  nextCmd : Nat := 0
  parts : Table Partition := []
  jobs : Table Job := []
  nextJob : Nat := 0
  keys : Table (List Byte) := []
  hbmKeys : List (Nat × Nat × List Byte) := []
  ports : Table Port := []
  leats : Table Leat := []
  mgmt : Mgmt := {}
  hostLost : List Nat := []
  lostAt : Table (Option Nat) := []
  hostRefusals : Table Nat := []
  throttle : Bool := false
  outputs : List Output := []
  deriving DecidableEq, Repr

/-- The machine right after package reset, before boot (R444, "Everything is cleared: every partition becomes FREE, MEAS registers
are zeroed"): every table empty, every register 0, every leat core HALTED (R418), flash empty (log entries 1 to 4). -/
def State.reset : State := {}

/-- A core by package-wide index (R16); 768 is the management controller's. -/
def State.core (s : State) (c : Nat) : Core := tget {} s.cores c
/-- Replace a core. -/
def State.setCore (s : State) (c : Nat) (x : Core) : State := { s with cores := tins s.cores c x }
/-- A mill by package-wide index (R16). -/
def State.mill (s : State) (m : Nat) : Mill := tget {} s.mills m
def State.setMill (s : State) (m : Nat) (x : Mill) : State := { s with mills := tins s.mills m x }
def State.die (s : State) (d : Nat) : Die := tget {} s.dies d
def State.setDie (s : State) (d : Nat) (x : Die) : State := { s with dies := tins s.dies d x }
def State.part (s : State) (p : Nat) : Partition := tget {} s.parts p
def State.setPart (s : State) (p : Nat) (x : Partition) : State := { s with parts := tins s.parts p x }
def State.leat (s : State) (n : Nat) : Leat := tget {} s.leats n
def State.setLeat (s : State) (n : Nat) (x : Leat) : State := { s with leats := tins s.leats n x }
def State.port (s : State) (n : Nat) : Port := tget {} s.ports n
def State.setPort (s : State) (n : Nat) (x : Port) : State := { s with ports := tins s.ports n x }
/-- The core that issues. -/
def State.curCore (s : State) : Core := s.core s.cur.core
/-- Put events at the end of the agenda. -/
def State.push (s : State) (is : List Instr) : State := { s with agenda := s.agenda ++ is }
/-- Give the outside an output. -/
def State.emit (s : State) (o : Output) : State := { s with outputs := s.outputs ++ [o] }

end Sys2Proof.Machine
end

