-- ==== Sys2Proof/Machine/Records.lean ====
section
/-! DEFINITION. Time, draws, and the fields of the records that live as bytes: partition descriptors (R335), address spaces (R368),
task records (R353), page homes (R92, R335), counter handles (R118). -/

namespace Sys2Proof.Machine

/-- The sum of a free increment over the steps so far. -/
def sumTo (f : Nat → Nat) : Nat → Nat
  | 0 => 0
  | n + 1 => sumTo f n + f n

/-- Fabric time in ns (R397): what has passed, and the corrections. -/
def State.fabricTime (s : State) : Nat := sumTo Config.elapsedNs s.ticks + s.timeShift
/-- The copy of fabric time that a die keeps (R397): no two differ by more than 8 ns. -/
def State.dieTime (s : State) (die : Nat) : Nat := s.fabricTime + Config.timeSkew die % 9
/-- The lanes of each link of a port as masks (R21): one link of four lanes, two of two, or four of one. -/
def Port.links (p : Port) : List Nat := if p.split == 0 then [15] else if p.split == 1 then [3, 12] else [1, 2, 4, 8]
/-- No link of a port is up: each has a lane that is down (R21, R401). While one is up, it carries the port's connections (log entry 137). -/
def Port.down (p : Port) : Bool := p.links.all fun m => p.lanesDown &&& m != 0
/-- The jobs of a partition. -/
def State.jobsOf (s : State) (pid : Nat) : List Job := (s.jobs.filter fun e => e.2.pid == pid).map (·.2)
/-- The next value the hardware draws (log entry 6), and the state after the draw. -/
def State.draw (s : State) : Word × State := (Config.drawn s.draws, { s with draws := s.draws + 1 })

/-! ### Partition descriptor (R335) -/

def Partition.ceiling (p : Partition) : Nat := fieldLE p.desc 3 1
def Partition.policy (p : Partition) : Nat := fieldLE p.desc 4 1 % 8
def Partition.flag (p : Partition) (n : Nat) : Bool := (fieldLE p.desc 5 1).testBit n
def Partition.pool (p : Partition) : Nat := fieldLE p.desc 6 2
def Partition.hasQuad (p : Partition) (q : Nat) : Bool := (fieldLE p.desc 8 12).testBit q
def Partition.hasPort (p : Partition) (n : Nat) : Bool := (fieldLE p.desc 20 6).testBit n
def Partition.hasKey (p : Partition) (n : Nat) : Bool := (fieldLE p.desc 32 16).testBit n
def Partition.svcVec (p : Partition) : Nat := fieldLE p.desc 48 8
def Partition.svcBase (p : Partition) : Nat := fieldLE p.desc 56 8
def Partition.svcLen (p : Partition) : Nat := fieldLE p.desc 64 4
def Partition.svcRng (p : Partition) : Nat := fieldLE p.desc 68 1
def Partition.saveRng (p : Partition) : Nat := fieldLE p.desc 69 1
def Partition.hostBase (p : Partition) : Nat := fieldLE p.desc 80 4
def Partition.hostCnt (p : Partition) : Nat := fieldLE p.desc 84 4
/-- The QUOTA fields of die d at byte k (R335). -/
def Partition.quota (p : Partition) (d k : Nat) : Nat := fieldLE p.desc (128 + 32 * d + k) 4
/-- The die of a partition's home scheduler: the lowest-numbered die that holds a quad of it (19). -/
def Partition.schedDie (p : Partition) : Nat := ((List.range 96).find? p.hasQuad).getD 0 / 12
/-- The number of quads a partition holds. -/
def Partition.quads (p : Partition) : Nat := ((List.range 96).filter p.hasQuad).length
/-- A partition that is not FREE holds mill m (R335 QUADS). -/
def Partition.hasMill (p : Partition) (m : Nat) : Bool := p.hasQuad (m / 4)
/-- A node in the trust set (R342). -/
def Partition.trustsNode (p : Partition) (node : Nat) : Bool :=
  (List.range 4).any fun i =>
    decide (fieldLE p.desc (96 + 8 * i) 3 ≤ node) && decide (node ≤ fieldLE p.desc (99 + 8 * i) 3)

/-- An HBM range entry (R335). -/
structure HbmRange where
  base : Nat
  pages : Nat
  stack : Bool
  die : Nat
  stk : Nat
  dies : List Nat
  key : Nat
  deriving DecidableEq, Repr

/-- HBM range i of a descriptor (R335). -/
def hbmRange (desc : List Byte) (i : Nat) : HbmRange :=
  let t := fieldLE desc (396 + 16 * i) 1
  { base := fieldLE desc (384 + 16 * i) 8, pages := fieldLE desc (392 + 16 * i) 4, stack := t.testBit 0, die := t / 2 % 8,
    stk := t / 16 % 2, dies := (List.range 8).filter fun d => (fieldLE desc (397 + 16 * i) 1).testBit d,
    key := fieldLE desc (398 + 16 * i) 1 }

/-- The stack extents of a range: stack number (2d + s), first offset, length (R335, "The overlap check … is made on these stack
offsets"). -/
def HbmRange.extents (r : HbmRange) : List (Nat × Nat × Nat) :=
  if r.pages == 0 then []
  else if r.stack then [(2 * r.die + r.stk, r.base, r.pages * 4096)]
  else
    let share := r.pages / r.dies.length
    (r.dies.map fun d => [(2 * d, r.base / 2, (share + 1) / 2 * 4096), (2 * d + 1, r.base / 2, share / 2 * 4096)]).flatten

/-- The package physical address of byte x of a range (R92, R335). -/
def HbmRange.phys (r : HbmRange) (x : Nat) : Nat :=
  if r.stack then (2 * r.die + r.stk) * 2 ^ 36 + r.base + x
  else
    let i := x / 4096
    let k := r.dies.length
    let j := i / k
    let d := r.dies.getD (i % k) 0
    (2 * d + j % 2) * 2 ^ 36 + r.base / 2 + 4096 * (j / 2) + x % 4096

/-- An extent covers a package physical address. -/
def extentAt (a : Nat) (e : Nat × Nat × Nat) : Bool := decide (e.1 * 2 ^ 36 + e.2.1 ≤ a) && decide (a < e.1 * 2 ^ 36 + e.2.1 + e.2.2)
/-- Extents cover every byte from a up to z: each one met carries the claim on to its end. -/
def coveredTo (es : List (Nat × Nat × Nat)) (z : Nat) : Nat → Nat → Bool
  | 0, a => decide (z ≤ a)
  | fuel + 1, a =>
    decide (z ≤ a) || (match es.find? (extentAt a) with | some e => coveredTo es z fuel (e.1 * 2 ^ 36 + e.2.1 + e.2.2) | none => false)
/-- Bytes a to a + n − 1 lie in a range. -/
def HbmRange.holds (r : HbmRange) (a n : Nat) : Bool := coveredTo r.extents (a + n) r.extents.length a

/-- The ranges of a partition. -/
def Partition.ranges (p : Partition) : List HbmRange := (List.range 8).map (hbmRange p.desc)
/-- Bytes a to a + n − 1 lie in the partition's HBM, whatever ranges they cross (R369, R371). -/
def Partition.holds (p : Partition) (a n : Nat) : Bool :=
  let es := (p.ranges.map HbmRange.extents).flatten
  coveredTo es (a + n) es.length a
/-- Bytes a to a + n − 1 lie wholly in one of the partition's HBM ranges (R350). -/
def Partition.holdsOne (p : Partition) (a n : Nat) : Bool := p.ranges.any fun r => r.holds a n
/-- Bytes a to a + n − 1 lie wholly inside one STACK range (R93). -/
def Partition.holdsStack (p : Partition) (a n : Nat) : Bool := p.ranges.any fun r => r.stack && r.holds a n

/-- The die that homes a package physical address (R92). -/
def homeDie (a : Nat) : Nat := a / 2 ^ 37

/-! ### Address spaces (R368) -/

def spaceRoot (d : List Byte) : Nat := fieldLE d 0 8
def spacePasid (d : List Byte) : Nat := fieldLE d 8 4
def spaceEnabled (d : List Byte) : Bool := (fieldLE d 12 1).testBit 0
def spaceHostmaps (d : List Byte) : Bool := (fieldLE d 12 1).testBit 1
def spaceFrlog (d : List Byte) : Nat := fieldLE d 13 1
def spaceFrbase (d : List Byte) : Nat := fieldLE d 16 8
def spaceFrctr (d : List Byte) : Nat := fieldLE d 24 8
def spaceFrack (d : List Byte) : Nat := fieldLE d 32 8

/-! ### Task records (R353) -/

def recSegment (r : List Byte) : Nat := fieldLE r 0 8
def recEntry (r : List Byte) : Nat := fieldLE r 8 4
def recNstrand (r : List Byte) : Nat := fieldLE r 12 2
def recNquads (r : List Byte) : Nat := fieldLE r 14 1
def recFlags (r : List Byte) : Nat := fieldLE r 15 1
def recAlternate (r : List Byte) : Bool := (recFlags r).testBit 0
def recDet (r : List Byte) : Bool := (recFlags r).testBit 1
def recDepabs (r : List Byte) : Bool := (recFlags r).testBit 2
def recGang (r : List Byte) : Bool := (recFlags r).testBit 3
def recLevel (r : List Byte) : Nat := fieldLE r 16 1
def recGangix (r : List Byte) : Nat := fieldLE r 17 1
def recPolicy (r : List Byte) : Nat := fieldLE r 18 2
def recAspace (r : List Byte) : Nat := fieldLE r 20 4
def recDeph (r : List Byte) : Nat := fieldLE r 24 8
def recDept (r : List Byte) : Nat := fieldLE r 32 8
def recDressptr (r : List Byte) : Nat := fieldLE r 40 8
def recRngseed (r : List Byte) : Nat := fieldLE r 48 8
def recRngbase (r : List Byte) : Nat := fieldLE r 56 8
def recRnglen (r : List Byte) : Nat := fieldLE r 64 8
def recArgs (r : List Byte) : Nat := fieldLE r 72 8
def recDoneh (r : List Byte) : Nat := fieldLE r 80 8
def recDoneinc (r : List Byte) : Nat := fieldLE r 88 8
def recWdog (r : List Byte) : Nat := fieldLE r 96 4

/-- A context by its number; what is none belongs to no partition. -/
def State.job (s : State) (id : Nat) : Job :=
  tget { id := 0, pid := 32, record := [], recLoc := ⟨.host, 0⟩, depth := 0, parent := none, key := [], level := 0, phase := .ended,
         launched := false } s.jobs id
def State.setJob (s : State) (id : Nat) (j : Job) : State := { s with jobs := tins s.jobs id j }
def Job.det (j : Job) : Bool := recDet j.record
def Job.aspace (j : Job) : Nat := recAspace j.record
def State.coreJob (s : State) (c : Nat) : Job := s.job ((s.core c).job.getD 0)
def State.corePart (s : State) (c : Nat) : Partition := s.part (s.coreJob c).pid
/-- A resident context runs on the core. -/
def State.hasJob (s : State) (c : Nat) : Bool := (s.core c).job.isSome

/-- The die of a core; the management controller is on die 0 (R17). -/
def coreDie (c : Nat) : Nat := if c < 768 then c / 96 else 0
/-- The package-wide mill of a core (R16). -/
def coreMill (c : Nat) : Nat := c / 2
/-- The die of a mill. -/
def millDie (m : Nat) : Nat := m / 48
/-- The management controller's core. -/
def mgmtCore : Nat := 768
/-- The agent number of a die's scheduler core (R16, R331): beside the compute cores. -/
def schedCore (die : Nat) : Nat := 769 + die

/-- STATUS.PRIV (R205). -/
def Arch.priv_ (a : Arch) : Nat := bits a.status.toNat 15 14

/-! ### Counter handles (R118) -/

/-- The kind of a handle (R118). -/
def hKind (h : Nat) : Nat := h / 2 ^ 61
def hDie (h : Nat) : Nat := bits h 60 58
def hMill (h : Nat) : Nat := bits h 57 52
def hCoreBit (h : Nat) : Nat := bits h 51 51
def hIndex (h : Nat) : Nat := bits h 23 0
def hNode (h : Nat) : Nat := bits h 60 37
def hRkind (h : Nat) : Nat := bits h 36 34
def hRdie (h : Nat) : Nat := bits h 33 31

/-- Build a WEIR or SPILL handle. -/
def mkHandle (kind die index : Nat) : Nat := kind * 2 ^ 61 + die * 2 ^ 58 + index
/-- The handle of HOST counter i. -/
def hostHandle (i : Nat) : Nat := 3 * 2 ^ 61 + i
/-- The handle of a LOCAL counter of a package-wide core. -/
def localHandle (c index : Nat) : Nat := (c / 96) * 2 ^ 58 + (c % 96 / 2) * 2 ^ 52 + (c % 2) * 2 ^ 51 + index

/-- A valid handle (R118): every unnamed bit zero, every field in range. -/
def handleOk (h : Nat) : Bool :=
  match hKind h with
  | 0 => decide (hMill h < 48) && bits h 50 5 == 0
  | 1 => bits h 57 18 == 0
  | 2 => bits h 57 24 == 0
  | 3 => bits h 60 20 == 0
  | 4 => (hRkind h == 1 && bits h 30 18 == 0) || (hRkind h == 2 && bits h 30 24 == 0)
  | _ => false

/-- A REMOTE handle that names the package's own node acts as the local handle (R121). -/
def ownHandle (h : Nat) : Nat :=
  if hKind h == 4 && hNode h == Config.ownNode then mkHandle (hRkind h) (hRdie h) (hIndex h) else h
/-- A handle that leaves the package. -/
def isRemote (h : Nat) : Bool := hKind h == 4 && hNode h != Config.ownNode

/-- A sluice write pointer's handle (R119). -/
def isWritePtr (h : Nat) : Bool := hKind h == 0 && decide (24 ≤ bits h 4 0)
/-- The key a counter is stored under: the two cores of a mill share the write pointers (R96). -/
def ctrKey (h : Nat) : Nat := if isWritePtr h then h - hCoreBit h * 2 ^ 51 else h
/-- The package-wide core that a LOCAL handle names. -/
def hCore (h : Nat) : Nat := 96 * hDie h + 2 * hMill h + hCoreBit h
/-- The package-wide mill that a LOCAL handle names. -/
def hPkgMill (h : Nat) : Nat := 48 * hDie h + hMill h
/-- The die that homes a counter (R118): HOST counters are homed in the weir of die 0. -/
def hHome (h : Nat) : Nat := if hKind h == 3 then 0 else hDie h

/-- A WEIR, SPILL or HOST index in the partition's ranges (R120); a LOCAL counter of one of the mills given. REMOTE passes. -/
def handleIn (p : Partition) (mills : Nat → Bool) (h : Nat) : Bool :=
  match hKind h with
  | 0 => mills (hPkgMill h)
  | 1 => decide (p.quota (hDie h) 0 ≤ hIndex h) && decide (hIndex h < p.quota (hDie h) 0 + p.quota (hDie h) 4)
  | 2 => decide (p.quota (hDie h) 8 ≤ hIndex h) && decide (hIndex h < p.quota (hDie h) 8 + p.quota (hDie h) 12)
  | 3 => decide (p.hostBase ≤ bits h 19 0) && decide (bits h 19 0 < p.hostBase + p.hostCnt)
  | _ => true

/-- The checks of a handle given to an add (R118, R96, R120, R123): the fault it raises, or none. -/
def addCheck (p : Partition) (mills : Nat → Bool) (h amount : Nat) : Option Nat :=
  let k := ownHandle h
  firstFail [(handleOk h && !isWritePtr k && decide (amount < 2 ^ 62), cCounterHandle), (handleIn p mills k, cAccess)]

/-- The mills of a core's context (R120). -/
def State.jobMill (s : State) (c : Nat) (m : Nat) : Bool := (s.coreJob c).mills.contains m

/-- The value of a counter. -/
def State.ctr (s : State) (h : Nat) : Word := tget 0 s.ctrs (ctrKey h)
/-- T is reached by V (R124). -/
def reached (v t : Word) : Bool := decide ((v - t).toNat < 2 ^ 63)

/-- The strand that issues on a core. -/
def State.issuer (s : State) (c : Nat) : Issuer := ⟨(s.core c).job.getD 0, (s.core c).strand⟩

end Sys2Proof.Machine
end

