-- ==== Sys2Proof/Machine/Translate.lean ====
section
/-! DEFINITION. Addresses: the windows (R79, R279, R333, R432), the page walk (R370, R371), TLBs (R372), host pages (R375), bank roles
and bounds (R80, R82), and the checks of a memory access (R246). -/

namespace Sys2Proof.Machine

/-- What an access needs of a page (R371). -/
inductive Need where
  | read | write | both | fetch
  deriving DecidableEq, Repr

/-- An access that cannot be made: its fault code, the faulting address, MALFORMED (R371), the host page when the answer must come from
ATS (R375), and the host page whose translation denies the access (R376). -/
structure Flt where
  code : Nat
  info : Nat
  malformed : Bool := false
  atsPage : Option Nat := none
  page : Nat := 0
  before : List (Loc × List Byte × List Bool) := []
  deriving DecidableEq, Repr

/-- Canonical in 57 bits (R78). -/
def canonical (va : Nat) : Bool := decide (va < 2 ^ 56) || (decide (2 ^ 64 - 2 ^ 56 ≤ va) && decide (va < 2 ^ 64))
/-- Every byte of an access is canonical and none lies past the top (R246, step 1). -/
def spanCanonical (va n : Nat) : Bool := canonical va && decide (va + n ≤ 2 ^ 64) && canonical (va + n - 1)
/-- The LOCAL window (R79). -/
def localBase : Nat := 0xFFFFFFFFFF800000
def isLocal (va : Nat) : Bool := decide (localBase ≤ va) && decide (va < 2 ^ 64)
/-- The mill-qualified range (R279). -/
def isMillQual (va : Nat) : Bool := va / 2 ^ 32 == 0xFFFFFFFE
/-- The service window of a partition (R333). -/
def svcWindow : Nat := 0xFFFFFFFF00000000
def isSvc (p : Partition) (va : Nat) : Bool := decide (svcWindow ≤ va) && decide (va < svcWindow + p.svcLen)
/-- The control window and MCRAM (R432). -/
def ctlWindow : Nat := 0xFFFFFFFD00000000
def isCtl (va : Nat) : Bool := decide (ctlWindow ≤ va) && decide (va < ctlWindow + 65536)
def isMcram (va : Nat) : Bool := decide (va < 2 ^ 20)

/-! ### The walk (R370, R371) -/

/-- The outcome of a walk. -/
inductive Walk where
  | page (e : TlbEnt)
  | missing
  | malformed
  deriving DecidableEq, Repr

/-- An entry of a table; a table outside the partition's HBM reads as V = 0. -/
def readEntry (s : State) (p : Partition) (a : Nat) : Nat := if p.holds a 8 then leNat (s.hbm.bytes a 8) else 0

/-- Reserved bits, or a flag where it may not stand (R370, R371); n is the level. -/
def entryBad (e n : Nat) : Bool :=
  bits e 63 52 != 0 || bits e 11 8 != 0 || bits e 6 6 != 0 ||
  (if e.testBit 1 then decide (n = 3) || decide (n = 4) || decide (bits e 51 12 * 4096 % 2 ^ (12 + 9 * n) ≠ 0) || (e.testBit 7 && n != 0)
   else n == 0 || bits e 5 2 != 0 || e.testBit 7)

/-- Walk from a table at level n − 1 (n counts the levels left). -/
def walkFrom (s : State) (p : Partition) (pid asp va : Nat) : Nat → Nat → Walk
  | 0, _ => .malformed
  | n + 1, table =>
    let e := readEntry s p (table + 8 * (va / 2 ^ (12 + 9 * n) % 512))
    if !e.testBit 0 then .missing
    else if entryBad e n then .malformed
    else if e.testBit 1 then
      let size := 2 ^ (12 + 9 * n)
      .page { pid := pid, aspace := asp, va := va / size * size, size := size, r := e.testBit 2, w := e.testBit 3, x := e.testBit 4,
              host := e.testBit 5, addr := bits e 51 12 * 4096 }
    else walkFrom s p pid asp va n (bits e 51 12 * 4096)

/-- The page of va in an address space. -/
def walk (s : State) (pid asp va : Nat) : Walk :=
  let p := s.part pid
  walkFrom s p pid asp (va % 2 ^ 57) 5 (spaceRoot (tget [] p.spaces asp))

/-! ### TLBs (R372) -/

/-- An entry of a space whose page holds va. -/
def TlbEnt.spans (e : TlbEnt) (pid asp va : Nat) : Bool :=
  e.pid == pid && e.aspace == asp && decide (e.va ≤ va % 2 ^ 57) && decide (va % 2 ^ 57 < e.va + e.size)
/-- A device translation of va. -/
def TlbEnt.covers (e : TlbEnt) (pid asp va : Nat) : Bool := !e.ats && e.spans pid asp va
/-- A host translation of a host page (R375). -/
def TlbEnt.hosts (e : TlbEnt) (pid asp page : Nat) : Bool := e.ats && e.spans pid asp page
def tlbFind (l : List TlbEnt) (pid asp va : Nat) : Option TlbEnt := l.find? fun e => e.covers pid asp va
/-- Add an entry, dropping the oldest beyond the capacity (log entry 12). -/
def tlbAdd (l : List TlbEnt) (cap : Nat) (e : TlbEnt) : List TlbEnt := (e :: l.filter (· != e)).take cap

/-- The page of va as the TLBs and then the walk give it. -/
def lookup (s : State) (l1 : List TlbEnt) (die pid asp va : Nat) : Walk :=
  match tlbFind l1 pid asp va with
  | some e => .page e
  | none =>
    match tlbFind (s.die die).l2 pid asp va with
    | some e => .page e
    | none => walk s pid asp va

/-- The host translation of a host page as the TLBs hold it (R372, R375). -/
def hostFind (s : State) (l1 : List TlbEnt) (die pid asp page : Nat) : Option TlbEnt :=
  match l1.find? fun e => e.hosts pid asp page with
  | some e => some e
  | none => (s.die die).l2.find? fun e => e.hosts pid asp page

/-- Permissions of a leaf (R371). -/
def permits (r w x : Bool) : Need → Bool
  | .read => r
  | .write => w
  | .both => r && w
  | .fetch => x

/-- Translate va for an agent on a die (R371, R375): the place of its byte and the entries used, or the fault. Of a HOST leaf the leaf's own
permissions decide before the host is asked, in the order of R371 (log entry 103). -/
def translate (s : State) (l1 : List TlbEnt) (die pid asp va : Nat) (need : Need) : Except Flt (Loc × List TlbEnt) :=
  match lookup s l1 die pid asp va with
  | .missing => .error { code := cPageDevice, info := va }
  | .malformed => .error { code := cPageDevice, info := va, malformed := true }
  | .page e =>
    let p := s.part pid
    let off := va % 2 ^ 57 - e.va
    if e.host then
      if !spaceHostmaps (tget [] p.spaces asp) || !permits e.r e.w e.x need then .error { code := cAccess, info := va }
      else
        let page := (e.addr + off) / 4096 * 4096
        match hostFind s l1 die pid asp page with
        | none => .error { code := cPageHost, info := va, atsPage := some page }
        | some a =>
          if !permits a.r a.w a.x need then .error { code := cPageHost, info := va, page := page }
          else .ok (⟨.host, a.addr + (e.addr + off) % 4096⟩, [e, a])
    else if !p.holds e.addr e.size then .error { code := cAccess, info := va }
    else if !permits e.r e.w e.x need then .error { code := cAccess, info := va }
    else .ok (⟨.hbm, e.addr + off⟩, [e])

/-! ### Banks (R80 to R82) -/

/-- The role of bank b (R81): 0 SCRATCH, 1 CACHE, 2 OPERAND. -/
def roleOf (roles : Word) (b : Nat) : Nat := bits roles.toNat (2 * b + 1) (2 * b)

/-- What wants a bank (R82). -/
inductive BankUse where
  | core | delivery | tile
  deriving DecidableEq, Repr

/-- The roles that an access admits (R82). -/
def roleAdmits : BankUse → Nat → Bool
  | .core, r => r == 0 || r == 2
  | .delivery, r => r == 0 || r == 2
  | .tile, r => r == 2

/-- Every byte of LOCAL offsets off to off + n − 1 lies in a bank whose role admits the access (R82). -/
def rolesAdmit (roles : Word) (u : BankUse) (off n : Nat) : Bool :=
  (List.range ((off + n - 1) / 262144 + 1 - off / 262144)).all fun i => roleAdmits u (roleOf roles (off / 262144 + i))

/-- The bytes lie inside one non-empty pair (R80, R187): lower and upper offset in 4 KiB units. -/
def inBounds (lb : List Word) (off n : Nat) : Bool :=
  lb.any fun w =>
    let lo := bits w.toNat 15 0 * 4096
    let hi := bits w.toNat 31 16 * 4096
    decide (lo < hi) && decide (lo ≤ off) && decide (off + n ≤ hi)

/-- The role and bound checks of a LOCAL range of a mill, USER unless the access is privileged (R80, R82). -/
def localCheck (s : State) (mill : Nat) (lb : List Word) (user : Bool) (u : BankUse) (off n va : Nat) : Option Flt :=
  if !rolesAdmit (s.mill mill).bankrole u off n then some { code := cAccess, info := va }
  else if user && !inBounds lb off n then some { code := cBound, info := va }
  else none

/-- The bank address of a LOCAL offset. -/
def bankLoc (mill off : Nat) : Loc := ⟨.bank, mill * 2 ^ 23 + off⟩

/-! ### Pieces of an access -/

/-- A run of bytes of an access: where it lies and how long it is. -/
structure Piece where
  loc : Loc
  len : Nat
  deriving DecidableEq, Repr

/-- Cut a range of addresses at 4 KiB boundaries; fuel bounds the pages. -/
def pageCuts : Nat → Nat → Nat → List (Nat × Nat)
  | 0, _, _ => []
  | _, _, 0 => []
  | fuel + 1, va, n + 1 =>
    let room := 4096 - va % 4096
    if n + 1 ≤ room then [(va, n + 1)] else (va, room) :: pageCuts fuel (va + room) (n + 1 - room)

/-- Translate every cut (R246, steps 6 to 8): the pieces and the pages used, or the first fault. Steps 6 to 8 of one page are decided before those
of the next; no rule orders the faults of two pages. DESIGN CHOICE (log entry 129). -/
def translateCuts (s : State) (l1 : List TlbEnt) (die pid asp : Nat) (need : Need) :
    List (Nat × Nat) → Except Flt (List Piece × List TlbEnt)
  | [] => .ok ([], [])
  | (va, n) :: rest =>
    match translate s l1 die pid asp va need with
    | .error e => .error e
    | .ok (loc, ents) =>
      match translateCuts s l1 die pid asp need rest with
      | .error e => .error e
      | .ok (ps, es) => .ok (⟨loc, n⟩ :: ps, ents ++ es)

/-- An alignment rule (R246, step 3): the address is a multiple of n. -/
def aligned (va n : Nat) : Bool := n == 0 || va % n == 0

/-- What stands at an offset of the control window (R433): 1 a register, 2 a buffer, 0 nothing. -/
def ctlKind (off : Nat) : Nat :=
  if off < 0x10 || (decide (0x100 ≤ off) && decide (off < 0x120)) || (decide (0x128 ≤ off) && decide (off < 0x130)) ||
      (decide (0x200 ≤ off) && decide (off < 0x208)) || (decide (0x300 ≤ off) && decide (off < 0x308)) ||
      (decide (0x400 ≤ off) && decide (off < 0x580)) || (decide (0x800 ≤ off) && decide (off < 0x8C0)) then 1
  else if decide (0x1000 ≤ off) && decide (off < 0x4000) then 2
  else 0
/-- The fault of an access to the control window (R433): ACCESS where nothing stands, ALIGN for a register not taken whole. -/
def ctlFault (off n : Nat) : Option Nat :=
  let ks := (List.range n).map fun i => ctlKind (off + i)
  if ks.any (· == 0) then some cAccess
  else if ks.any (· == 1) && !(n == 8 && off % 8 == 0) then some cAlign
  else none

/-- The checks of one core access of n bytes at va (R246, steps 1 to 9; R333 in SERVICE; R432 on the management controller):
its pieces, and the pages to keep in the TLB. The ACCESS of the mill-qualified range (R279) stands before ALIGN; no rule places it among the
steps. DESIGN CHOICE (log entry 130). -/
def coreAccess (s : State) (c : Nat) (va n align : Nat) (need : Need) (noHost : Bool) : Except Flt (List Piece × List TlbEnt) :=
  let core := s.core c
  let p := s.corePart c
  let flt (code : Nat) : Except Flt (List Piece × List TlbEnt) := .error { code := code, info := va }
  if !spanCanonical va n then flt cAccess
  else if c == mgmtCore then
    if isMcram va && isMcram (va + n - 1) then (if aligned va align then .ok ([⟨⟨.mcram, va⟩, n⟩], []) else flt cAlign)
    else if isCtl va && isCtl (va + n - 1) then
      (if !aligned va align then flt cAlign
       else
         match ctlFault (va - ctlWindow) n with
         | some e => flt e
         | none => .ok ([⟨⟨.ctl, va - ctlWindow⟩, n⟩], []))
    else flt cAccess
  else if isLocal va != isLocal (va + n - 1) then flt cAccess
  else if isLocal va then
    if !aligned va align then flt cAlign
    else
      match localCheck s (coreMill c) core.lbound (core.live.priv_ == 0) .core (va - localBase) n va with
      | some e => .error e
      | none => .ok ([⟨bankLoc (coreMill c) (va - localBase), n⟩], [])
  else if isMillQual va || isMillQual (va + n - 1) then flt cAccess
  else if core.live.priv_ == 1 then
    if isSvc p va && isSvc p (va + n - 1) then
      (if aligned va align then
        .ok ((pageCuts (n / 4096 + 2) va n).map fun x =>
          ⟨⟨.hbm, (hbmRange p.desc p.svcRng).phys (p.svcBase + (x.1 - svcWindow))⟩, x.2⟩, [])
      else flt cAlign)
    else flt cAccess
  else if !aligned va align then flt cAlign
  else if isSvc p va || isSvc p (va + n - 1) then flt cAccess
  else
    match translateCuts s core.tlb (coreDie c) (s.coreJob c).pid (s.coreJob c).aspace need (pageCuts (n / 4096 + 2) va n) with
    | .error e => .error e
    | .ok r => if noHost && r.1.any (fun x => x.loc.sp == .host) then flt cAccess else .ok r

/-- A die is awake: an engine command, or an access to its stacks (R366). -/
def wakeDie (s : State) (die : Nat) : State :=
  let d := s.die die
  if d.idle == 0 && d.idleAt.isNone then s else s.setDie die { d with idle := 0, idleAt := none }
/-- An access to a place of a die's stacks wakes the die (R366). -/
def wakeHome (s : State) (l : Loc) : State := if l.sp == .hbm then wakeDie s (homeDie l.addr) else s
/-- The dies whose stacks hold the tables that a walk reads; the arguments are those of walkFrom. -/
def walkDies (s : State) (p : Partition) (va : Nat) : Nat → Nat → List Nat
  | 0, _ => []
  | n + 1, table =>
    let e := readEntry s p (table + 8 * (va / 2 ^ (12 + 9 * n) % 512))
    homeDie table :: (if !e.testBit 0 || entryBad e n || e.testBit 1 then [] else walkDies s p va n (bits e 51 12 * 4096))
/-- The walks that gave those of the pages which no TLB held wake the dies of their tables (R366). -/
def wakeWalks (s : State) (held : List TlbEnt) (es : List TlbEnt) : State :=
  es.foldl
    (fun t e =>
      if e.ats || held.contains e then t
      else (walkDies s (s.part e.pid) e.va 5 (spaceRoot (tget [] (s.part e.pid).spaces e.aspace))).foldl wakeDie t) s

/-- Keep the pages an access used in the first- and second-level TLBs (R372). -/
def keepPages (s : State) (c : Nat) (es : List TlbEnt) : State :=
  let core := s.core c
  let t := wakeWalks s (core.tlb ++ (s.die (coreDie c)).l2) es
  let d := t.die (coreDie c)
  (t.setCore c { core with tlb := es.foldl (fun l e => tlbAdd l 64 e) core.tlb }).setDie (coreDie c)
    { d with l2 := es.foldl (fun l e => tlbAdd l 8192 e) d.l2 }

/-- Keep the pages that an agent of a die used in its second-level TLB (R372). -/
def keepL2 (s : State) (die : Nat) (es : List TlbEnt) : State :=
  if es.isEmpty then s
  else
    let t := wakeWalks s (s.die die).l2 es
    let d := t.die die
    t.setDie die { d with l2 := es.foldl (fun l e => tlbAdd l 8192 e) d.l2 }

/-- The pieces of an engine range (R279, R280) and the pages used: LOCAL of the issuing core's mill, a mill-qualified range of the
partition, or translated pages; with the role and bound checks of R80 and R82. A command of the management controller reaches MCRAM (R432). -/
def engineReach (s : State) (core die pid asp va n : Nat) (user : Bool) (lb : List Word) (need : Need) :
    Except Flt (List Piece × List TlbEnt) :=
  let flt (code : Nat) : Except Flt (List Piece × List TlbEnt) := .error { code := code, info := va }
  if n == 0 then .ok ([], [])
  else if !spanCanonical va n then flt cAccess
  else if core == mgmtCore then (if isMcram va && isMcram (va + n - 1) then .ok ([⟨⟨.mcram, va⟩, n⟩], []) else flt cAccess)
  else if isLocal va != isLocal (va + n - 1) || isMillQual va != isMillQual (va + n - 1) then flt cAccess
  else if isLocal va then
    match localCheck s (coreMill core) lb user .delivery (va - localBase) n va with
    | some e => .error e
    | none => .ok ([⟨bankLoc (coreMill core) (va - localBase), n⟩], [])
  else if isMillQual va then
    let m := bits va 28 23
    let mill := 48 * bits va 31 29 + m
    if decide (48 ≤ m) || !(s.part pid).hasMill mill || va / 2 ^ 23 != (va + n - 1) / 2 ^ 23 then flt cAccess
    else
      match localCheck s mill lb user .delivery (va % 2 ^ 23) n va with
      | some e => .error e
      | none => .ok ([⟨bankLoc mill (va % 2 ^ 23), n⟩], [])
  else if isSvc (s.part pid) va || isSvc (s.part pid) (va + n - 1) then flt cAccess
  else translateCuts s [] die pid asp need (pageCuts (n / 4096 + 2) va n)
/-- The pieces of an engine range. -/
def engineAccess (s : State) (core die pid asp va n : Nat) (user : Bool) (lb : List Word) (need : Need) : Except Flt (List Piece) :=
  match engineReach s core die pid asp va n user lb need with
  | .error e => .error e
  | .ok r => .ok r.1

/-! ### Bytes, form bits and poison by place -/

/-- A byte of a buffer or measurement register of the control window (R433, R434). -/
def State.ctlByte (s : State) (off : Nat) : Byte :=
  if decide (0x1000 ≤ off) && decide (off < 0x2000) then s.mgmt.rxbuf.getD (off - 0x1000) 0
  else if decide (0x2000 ≤ off) && decide (off < 0x3000) then s.mgmt.txbuf.getD (off - 0x2000) 0
  else if decide (0x3000 ≤ off) && decide (off < 0x4000) then (Config.certificateChain.take 4088).getD (off - 0x3000) 0
  else if decide (0x400 ≤ off) && decide (off < 0x580) then (tget (zeros 48) s.mgmt.meas ((off - 0x400) / 48)).getD ((off - 0x400) % 48) 0
  else 0

/-- The byte at a place. -/
def State.byteAt (s : State) (l : Loc) : Byte :=
  match l.sp with
  | .bank => s.banks.read l.addr
  | .hbm => s.hbm.read l.addr
  | .host => s.hostMem.read l.addr
  | .mcram => s.mcram.read l.addr
  | .ctl => s.ctlByte l.addr

/-- The key of a line's poison mark (R381): the lines of each storage have marks of their own. -/
def poisonKey (l : Loc) : Nat :=
  4 * (l.addr / 128) + (match l.sp with | .hbm => 0 | .bank => 1 | .host => 2 | .mcram | .ctl => 3)
/-- The poison marks after the byte at a place has been written (R381). -/
def State.cleanByte (s : State) (l : Loc) : Table Nat :=
  if s.poison.isEmpty then [] else tmod 0 s.poison (poisonKey l) fun m => m &&& (2 ^ 128 - 1 - 2 ^ (l.addr % 128))

/-- Replace the byte at a place; a poisoned line is clean again once all of its 128 bytes are written (R381), so a mark holds the
bytes still to be written as a 128-bit mask. -/
def State.putByte (s : State) (l : Loc) (b : Byte) : State :=
  match l.sp with
  | .bank => { s with banks := s.banks.write l.addr b, poison := s.cleanByte l }
  | .hbm => { s with hbm := s.hbm.write l.addr b, hbmWritten := tput 0 s.hbmWritten (l.addr / 128) 1, poison := s.cleanByte l }
  | .host => { s with hostMem := s.hostMem.write l.addr b, poison := s.cleanByte l }
  | .mcram => { s with mcram := s.mcram.write l.addr b, poison := s.cleanByte l }
  | .ctl =>
    if decide (0x2000 ≤ l.addr) && decide (l.addr < 0x3000) then
      { s with mgmt := { s.mgmt with txbuf := setAt (s.mgmt.txbuf ++ zeros (4096 - s.mgmt.txbuf.length)) (l.addr - 0x2000) b } }
    else s

/-- n bytes from a place up. -/
def State.bytesAt (s : State) (l : Loc) (n : Nat) : List Byte :=
  (List.range n).map fun i => s.byteAt ⟨l.sp, l.addr + i⟩
/-- Store bytes from a place up, ascending. -/
def State.putBytes (s : State) (l : Loc) : List Byte → State
  | [] => s
  | b :: bs => (s.putByte l b).putBytes ⟨l.sp, l.addr + 1⟩ bs

/-- The form bit of the 128-byte line of a place (R340): 1 is ciphertext. -/
def State.form (s : State) (l : Loc) : Bool :=
  match l.sp with
  | .bank => tget 0 s.bankForm (l.addr / 128) != 0
  | .hbm => tget 0 s.hbmForm (l.addr / 128) != 0
  | _ => false
/-- Change the bytes of a line that count as ciphertext (R341). -/
def State.onForm (s : State) (l : Loc) (f : Nat → Nat) : State :=
  match l.sp with
  | .bank => { s with bankForm := tmod 0 s.bankForm (l.addr / 128) f }
  | .hbm => { s with hbmForm := tmod 0 s.hbmForm (l.addr / 128) f }
  | _ => s
/-- Set or clear the form bit of a line. -/
def State.setForm (s : State) (l : Loc) (b : Bool) : State := s.onForm l fun _ => if b then 2 ^ 128 - 1 else 0
/-- Some line of n bytes from a place carries ciphertext. -/
def State.anyForm (s : State) (l : Loc) (n : Nat) : Bool :=
  (List.range ((l.addr + n - 1) / 128 + 1 - l.addr / 128)).any fun i => s.form ⟨l.sp, (l.addr / 128 + i) * 128⟩

/-- A line is marked as poisoned (R381). -/
def State.poisoned (s : State) (l : Loc) : Bool := tget 0 s.poison (poisonKey l) != 0
/-- Mark a line as poisoned. -/
def State.setPoison (s : State) (l : Loc) : State := { s with poison := tput 0 s.poison (poisonKey l) (2 ^ 128 - 1) }
/-- The first poisoned line of n bytes from a place (R381). -/
def State.firstPoison (s : State) (l : Loc) (n : Nat) : Option Loc :=
  if s.poison.isEmpty then none
  else (((List.range ((l.addr + n - 1) / 128 + 1 - l.addr / 128)).map fun i => (⟨l.sp, (l.addr / 128 + i) * 128⟩ : Loc)).find? s.poisoned)
/-- Some line of n bytes from a place is poisoned. -/
def State.anyPoison (s : State) (l : Loc) (n : Nat) : Bool :=
  !s.poison.isEmpty && (List.range ((l.addr + n - 1) / 128 + 1 - l.addr / 128)).any fun i => s.poisoned ⟨l.sp, (l.addr / 128 + i) * 128⟩

end Sys2Proof.Machine
end

