-- ==== Sys2Proof/Machine/Packets.lean ====
section
/-! DEFINITION. What engines and the transport share: finding, stalling and stopping an engine command (R280, R376, R399), reading its
source (R341, R342, R381), and a connection's packets from its queue to the port (R387 to R393, R398). -/

namespace Sys2Proof.Machine

/-! ### Vector clocks (R108) -/

/-- A die's clock entry counts the writes and adds issued on it (R108). -/
def tickClock (s : State) (die : Nat) : State :=
  let d := s.die die
  s.setDie die { d with clock := setAt d.clock die (d.clock.getD die 0 + 1) }
/-- An acquire merges a clock into the reader's, the larger value in each entry (R108). -/
def mergeWith (s : State) (die : Nat) (clock : List Nat) : State :=
  let d := s.die die
  s.setDie die { d with clock := (List.range 8).map fun i => Nat.max (d.clock.getD i 0) (clock.getD i 0) }
/-- An acquire merges the home's clock into the reader's (R108). -/
def mergeClock (s : State) (die home : Nat) : State := mergeWith s die (s.die home).clock
/-- A read that returns a value from another die merges its home's clock (R108). -/
def mergeFrom (s : State) (die home : Nat) : State := if die == home then s else mergeClock s die home

/-! ### Writes (R108, R366) -/

/-- A unit of a die writes bytes from a place up: the write counts in the die's clock (R108). -/
def writeAt (s : State) (die : Nat) (l : Loc) (bs : List Byte) : State := wakeHome (tickClock (s.putBytes l bs) die) l

/-! ### Connection entries (R398) -/

/-- The fields of a connection entry (R398). -/
def connState (e : List Byte) : Nat := fieldLE e 0 1
def connE8 (e : List Byte) : Bool := (fieldLE e 1 1).testBit 0
def connPorts (e : List Byte) : Nat := fieldLE e 2 1
def connNpath (e : List Byte) : Nat := fieldLE e 3 1
def connNode (e : List Byte) : Nat := fieldLE e 4 4 % 2 ^ 24
def connPayload (e : List Byte) : Nat := fieldLE e 32 2
def connTss (e : List Byte) : Nat := fieldLE e 34 1
def connDie (e : List Byte) : Nat := fieldLE e 37 1 % 8
def connWbase (e : List Byte) : Nat := fieldLE e 40 8
def connWpitch (e : List Byte) : Nat := fieldLE e 48 4

/-- A connection's place in the machine: the partition and index in one number (log entry 13). -/
def connPid (c : Nat) : Nat := c / 2 ^ 20
def connIndex (c : Nat) : Nat := c % 2 ^ 20
def connId (pid index : Nat) : Nat := pid * 2 ^ 20 + index
def State.conn (s : State) (c : Nat) : Conn := tget {} (s.part (connPid c)).conns (connIndex c)
def State.setConn (s : State) (c : Nat) (x : Conn) : State :=
  let p := s.part (connPid c)
  s.setPart (connPid c) { p with conns := tins p.conns (connIndex c) x }

/-- The lowest-indexed OPEN entry of a partition whose peer is a node (R399). -/
def openConnTo (s : State) (pid node : Nat) : Option Nat :=
  ((s.part pid).conns.find? fun e => connState e.2.entry == 2 && connNode e.2.entry == node).map (·.1)

/-! ### Pages that commands wait for (R375, R376) -/

/-- The PASID of an address space (R368). -/
def State.pasid (s : State) (pid asp : Nat) : Nat := spacePasid (tget [] (s.part pid).spaces asp)
/-- A die asks for the translation of a host page under the space's PASID (R375). -/
def askAts (s : State) (die pid asp page : Nat) : State := s.emit (.atsRequest die (s.pasid pid asp) page)
/-- The Page Requests that a die may keep outstanding (R376). -/
def priLimit (die : Nat) : Nat := Nat.min 256 (Config.priAllocation die)
/-- Send a Page Request for a page and PASID unless one stands, the die may send none (R376), or the host is lost (R383). -/
def requestPage (s : State) (die pid asp page : Nat) : State :=
  let d := s.die die
  if d.pageReqs.contains ⟨pid, asp, page⟩ || d.priOff || decide (priLimit die ≤ d.pageReqs.length) || s.hostLost.contains pid then s
  else (s.setDie die { d with pageReqs := d.pageReqs ++ [⟨pid, asp, page⟩] }).emit (.pageRequest die (s.pasid pid asp) page)

/-- Remove TLB entries from a die and its cores. -/
def dropOnDie (s : State) (die : Nat) (p : TlbEnt → Bool) : State :=
  { s.setDie die { s.die die with l2 := (s.die die).l2.filter fun e => !p e } with
    cores := s.cores.map fun c => (c.1, if coreDie c.1 == die then { c.2 with tlb := c.2.tlb.filter fun e => !p e } else c.2) }
/-- Forget a host translation that denied an access: the next use asks ATS again. -/
def dropAts (s : State) (die pid asp page : Nat) : State := dropOnDie s die fun e => e.hosts pid asp page

/-! ### Engine commands (R280) -/

/-- The event that takes a released engine command on (R280). -/
def engineEvent (e : ECmd) : Instr :=
  match e.kind with
  | .arm => .armEffect e.id
  | .disarm => .disarmEffect e.id
  | .cload => .cloadStart e.id
  | .coll => .collInstanceStart e.id
  | .mcst => .mcstComplete e.id
  | _ => .engineCommandStart e.id

/-- A command by its number. -/
def State.cmd (s : State) (id : Nat) : Option ECmd := s.engines.find? fun e => e.id == id
/-- Replace a command where it stands. -/
def updCmd (s : State) (e : ECmd) : State := { s with engines := s.engines.map fun (x : ECmd) => if x.id == e.id then e else x }
/-- Remove a command. -/
def dropCmd (s : State) (id : Nat) : State := { s with engines := s.engines.filter fun e => e.id != id }

/-- After a command ends, those that waited for it look again (R83, R115, R278, R284). -/
def retryEngines (s : State) : State :=
  s.push
    (((s.engines.filter fun e => e.stage == .released && e.kind != .mvs).map engineEvent) ++
     ((s.cores.filter fun c => c.2.tiles.any fun m => m.opc == 9).map fun c => .mvsComplete c.1) ++
     ((s.mills.filter fun m => match m.2.change with | some r => !r.zeroing | none => false).map fun m => .bankroleZeroingStart m.1))

/-- The SEND operations of the instances that run in the package's graph slots look again: a die's data may now be taken (R320, R321). -/
def retryGraphs (s : State) : State :=
  s.push ((s.dies.map fun d => (d.2.graphs.map fun q =>
    match q.2 with
    | some g => if g.inst.isNone then [] else
        ((List.range (fieldLE g.image 6 2)).filter fun i => fieldLE g.image (64 + 32 * i) 1 == 1).map fun i => Instr.chunkOperationStart d.1 q.1 i
    | none => []).flatten).flatten)
/-- Remove the packets of a command that wait to be sent; those already sent stay until they are acknowledged (R399). -/
def unqueue (s : State) (cmd : Nat) : State :=
  { s with parts := s.parts.map fun p =>
      (p.1, { p.2 with conns := p.2.conns.map fun c => (c.1, { c.2 with queue := c.2.queue.filter fun k => k.cmd != cmd }) }) }

/-- A COLL that stops abandons its instance, which counts as the slot's last (R289). -/
def abandonGraph (s : State) (e : ECmd) : State :=
  let d := s.die (coreDie e.core)
  match tget none d.graphs e.slot with
  | some g =>
    if g.job == e.job && (g.inst.isNone || g.inst == some e.number) then
      retryGraphs (s.setDie (coreDie e.core)
        { d with graphs := tins d.graphs e.slot (some { g with inst := none, last := e.number, ops := [], ctrs := [] }) })
    else s
  | none => s

/-- A command stops with a fault (R280): no completion add is made, the fault is offered to its strand, a CPY's channel discards what it
has queued (R97), a COLL abandons its instance. -/
def stopEngine (s : State) (e : ECmd) (code info flags : Nat) : State :=
  let s1 := unqueue { dropCmd s e.id with offers := s.offers ++ [{ by_ := ⟨e.job, e.strand⟩, code := code, info := info, flags := flags, slot := 8 }] } e.id
  let s2 : State :=
    match e.kind with
    | .cpy =>
      { s1 with engines := s1.engines.filter fun x =>
          !(x.kind == .cpy && coreMill x.core == coreMill e.core && x.chan == e.chan && x.stage == .released) }
    | .coll => abandonGraph s1 e
    | _ => s1
  (retryEngines s2).push [.contextComplete e.job]

/-! ### Bytes that engines move (R341, R342, R381) -/

/-- The physical line address of a place, as FAULTINFO shows it: of HBM its package physical address, of a bank its mill-qualified
address (R381, R279; log entry 24). -/
def lineInfo (l : Loc) : Nat :=
  if l.sp == .bank then
    let mill := l.addr / 2 ^ 23
    0xFFFFFFFE * 2 ^ 32 + mill / 48 * 2 ^ 29 + mill % 48 * 2 ^ 23 + l.addr % 2 ^ 23 / 128 * 128
  else l.addr / 128 * 128

/-- The first poisoned line of some pieces. -/
def poisonIn (s : State) (ps : List Piece) : Option Flt :=
  if s.poison.isEmpty then none
  else (ps.findSome? fun p => s.firstPoison p.loc p.len).map fun l => { code := cPoison, info := lineInfo l }
/-- For each byte of some pieces, whether its line carries ciphertext (R340). -/
def formsOf (s : State) (ps : List Piece) : List Bool :=
  (ps.map fun p => if s.hbmForm.isEmpty && s.bankForm.isEmpty then List.replicate p.len false
    else (List.range p.len).map fun i => s.form ⟨p.loc.sp, p.loc.addr + i⟩).flatten
/-- The bytes of some pieces as an engine reads them, and their forms; a line that fails its check twice is POISON (R381). -/
def readPieces (s : State) (ps : List Piece) : Except Flt (List Byte × List Bool) :=
  match poisonIn s ps with
  | some f => .error f
  | none => .ok ((ps.map fun p => s.bytesAt p.loc p.len).flatten, formsOf s ps)

/-- The bytes lo to hi − 1 of a line, as a mask. -/
def lineMask (lo hi : Nat) : Nat := 2 ^ hi - 2 ^ lo
/-- The form of a destination line after bytes from a place are written (R341); cs are the bytes' source forms. -/
def landForm (s : State) (l : Loc) (cs : List Bool) (line : Nat) : State :=
  let lo := Nat.max l.addr (line * 128)
  let hi := Nat.min (l.addr + cs.length) (line * 128 + 128)
  let here := (cs.drop (lo - l.addr)).take (hi - lo)
  if here.any id then s.setForm ⟨l.sp, line * 128⟩ true
  else if s.form ⟨l.sp, line * 128⟩ then
    s.onForm ⟨l.sp, line * 128⟩ fun m => m &&& (2 ^ 128 - 1 - lineMask (lo - line * 128) (hi - line * 128))
  else s
/-- Write bytes with their source forms to pieces, ascending (R341). -/
def landPieces (s : State) : List Piece → List Byte → List Bool → State
  | [], _, _ => s
  | p :: ps, bs, cs =>
    let here := cs.take p.len
    let s1 := s.putBytes p.loc (bs.take p.len)
    let s2 := if p.len == 0 then s1
      else (List.range ((p.loc.addr + p.len - 1) / 128 + 1 - p.loc.addr / 128)).foldl (fun t i => landForm t p.loc here (p.loc.addr / 128 + i)) s1
    landPieces s2 ps (bs.drop p.len) (cs.drop p.len)

/-- Plaintext forms for n bytes. -/
def plain (n : Nat) : List Bool := List.replicate n false

/-- The check of EXPGUARD for bytes that leave (R342): trusted is the destination's place in the trust set. -/
def exportBlocked (p : Partition) (trusted : Bool) (cs : List Bool) : Bool := p.flag 2 && !trusted && cs.any (!·)
/-- How many bytes of some pieces come before the first line that may not leave for host memory (R342), if there is such a line. -/
def exportCut (p : Partition) : List Piece → List Bool → Option Nat
  | [], _ => none
  | q :: qs, cs =>
    match if q.loc.sp == .host && exportBlocked p (p.flag 3) (cs.take q.len) then (cs.take q.len).findIdx? (!·) else none with
    | some i => some ((q.loc.addr + i) / 128 * 128 - q.loc.addr)
    | none => (exportCut p qs (cs.drop q.len)).map (· + q.len)
/-- The first k bytes of what goes to some pieces, place by place. -/
def firstBytes : Nat → List Piece → List Byte → List Bool → List (Loc × List Byte × List Bool)
  | _, [], _, _ => []
  | k, p :: ps, bs, cs =>
    if k == 0 then [] else (p.loc, bs.take (Nat.min k p.len), cs.take (Nat.min k p.len)) :: firstBytes (k - p.len) ps (bs.drop p.len) (cs.drop p.len)
/-- The stop of an engine at the first line that may not leave (R342): the lines before it are delivered. -/
def exportStop (p : Partition) (va : Nat) (ps : List Piece) (bs : List Byte) (cs : List Bool) : Option Flt :=
  (exportCut p ps cs).map fun k => { code := cExportPlaintext, info := va + k, before := firstBytes k ps bs cs }
/-- What was delivered before a failure lands, as a write of a die. -/
def landBefore (s : State) (die : Nat) (xs : List (Loc × List Byte × List Bool)) : State :=
  if xs.isEmpty then s else tickClock (xs.foldl (fun t x => landPieces (wakeHome t x.1) [⟨x.1, x.2.1.length⟩] x.2.1 x.2.2) s) die
/-- Bytes as they stand in some pieces, with their forms. -/
def standing (s : State) (ps : List Piece) : List (Loc × List Byte × List Bool) := ps.map fun p => (p.loc, s.bytesAt p.loc p.len, formsOf s [p])
/-- A failure after more was delivered: at a line that may not leave, what came before stays (R342). -/
def Flt.after (f : Flt) (xs : List (Loc × List Byte × List Bool)) : Flt := if f.code == cExportPlaintext then { f with before := xs ++ f.before } else f

/-! ### A failed access of a command (R280) -/

/-- A failure that an answer may end: a translation that is missing. -/
def Flt.waits (f : Flt) : Bool := f.atsPage.isSome || f.code == cPageDevice || f.code == cPageHost
/-- A command meets a failed access on a die (R280): a page makes it stall where it stands, anything else stops it. A killed context's command
ends at a page of a host that is lost (R383). -/
def engineFltAt (s : State) (e : ECmd) (f : Flt) (die : Nat) : State :=
  if (f.atsPage.isSome || f.code == cPageHost) && s.hostLost.contains e.pid && (s.job e.job).outcome != 2 then
    (retryEngines (dropCmd s e.id)).push [.contextComplete e.job]
  else
  match f.atsPage with
  | some p => askAts (updCmd s { e with stage := .stalledAts p, stallDie := die }) die e.pid e.aspace p
  | none =>
    if f.code == cPageDevice then updCmd s { e with stage := .stalledDevice f.info, stallDie := die }
    else if f.code == cPageHost then
      requestPage (dropAts (updCmd s { e with stage := .stalledHost f.page f.info, stallDie := die }) die e.pid e.aspace f.page) die e.pid e.aspace
        f.page
    else stopEngine (landBefore s die f.before) e f.code f.info (if f.malformed then 8 else 0)
/-- A command meets a failed access on its own die. -/
def engineFlt (s : State) (e : ECmd) (f : Flt) : State := engineFltAt s e f (coreDie e.core)
/-- A peer node in the trust set; the own node is the partition's own memory. -/
def trustedNode (p : Partition) (node : Nat) : Bool := node == Config.ownNode || p.trustsNode node

/-! ### Packets on their way out (R387 to R393) -/

/-- The ranges of a packet, as the engine reads them: the bytes with their forms, or the failure. -/
def readRanges (s : State) (die pid asp : Nat) : List (Nat × Nat) → Except Flt (List Byte × List Bool)
  | [] => .ok ([], [])
  | r :: rs =>
    match engineAccess s 0 die pid asp r.1 r.2 false [] .read with
    | .error f => .error f
    | .ok ps =>
      match readPieces s ps with
      | .error f => .error f
      | .ok x =>
        match readRanges s die pid asp rs with
        | .error f => .error f
        | .ok y => .ok (x.1 ++ y.1, x.2 ++ y.2)
/-- What an engine of a die has read of pieces: the pages used stay in the die's TLB (R372), the die is awake (R366), and the homes' clocks
merge (R108). -/
def noteRead (s : State) (die : Nat) (r : List Piece × List TlbEnt) : State :=
  r.1.foldl (fun t p => if p.loc.sp == .hbm then wakeDie (mergeFrom t die (homeDie p.loc.addr)) (homeDie p.loc.addr) else t) (keepL2 s die r.2)
/-- A die's engine has read some ranges of a space. -/
def noteRanges (s : State) (die pid asp : Nat) (rs : List (Nat × Nat)) : State :=
  rs.foldl (fun t r => match engineReach t 0 die pid asp r.1 r.2 false [] .read with | .ok x => noteRead t die x | .error _ => t) s
/-- What an engine of a die has written: the pages stay in its TLB, and the dies of the homes are awake (R366, R372). -/
def noteWrite (s : State) (die : Nat) (r : List Piece × List TlbEnt) : State :=
  r.1.foldl (fun t p => if p.loc.sp == .hbm then wakeDie t (homeDie p.loc.addr) else t) (keepL2 s die r.2)

/-- What a port has read of a byte of a packet's source (R314). -/
def Sent.gotByte (k : Sent) (a : Nat) : Option (Byte × Bool) :=
  k.got.findSome? fun g => if g.1 ≤ a then g.2[a - g.1]? else none
/-- The stretches of n bytes from a that a packet's port has not read. -/
def Sent.gaps (k : Sent) : Nat → Nat → List (Nat × Nat)
  | 0, _ => []
  | n + 1, a =>
    if (k.gotByte a).isSome then k.gaps n (a + 1)
    else
      match k.gaps n (a + 1) with
      | (b, m) :: rs => if b == a + 1 then (a, m + 1) :: rs else (a, 1) :: (b, m) :: rs
      | [] => [(a, 1)]
/-- What a packet has still to be read. -/
def Sent.unread (k : Sent) : List (Nat × Nat) := (k.src.map fun r => k.gaps r.2 r.1).flatten
/-- The source of a packet from what was read before and, for the rest, from bytes just read. -/
def Sent.fill (k : Sent) : List Nat → List (Byte × Bool) → List (Byte × Bool)
  | [], _ => []
  | a :: as, xs =>
    match k.gotByte a, xs with
    | some x, _ => x :: k.fill as xs
    | none, x :: rest => x :: k.fill as rest
    | none, [] => []
/-- The addresses of a packet's source, in order. -/
def Sent.addrs (k : Sent) : List Nat := (k.src.map fun r => (List.range r.2).map (r.1 + ·)).flatten
/-- The payload of a packet as it is read now (R389), or the failure of the read. -/
def payloadOf (s : State) (x : Conn) (pid : Nat) (k : Sent) : Except Flt (List Byte × List Bool) :=
  let p := s.part pid
  let guarded (r : List Byte × List Bool) : Except Flt (List Byte × List Bool) :=
    if exportBlocked p (trustedNode p (connNode x.entry)) r.2 then .error { code := cExportPlaintext, info := (k.src.headD (k.info, 0)).1 } else .ok r
  match k.kept with
  | some bs => guarded (bs, bs.map fun _ => false)
  | none =>
    match readRanges s (connDie x.entry) pid (s.job k.by_.ctx).aspace k.unread with
    | .error f => .error f
    | .ok r => let l := k.fill k.addrs (List.zip r.1 r.2); guarded (l.map (·.1), l.map (·.2))
/-- Bytes read from ranges one after another, as stretches by address. -/
def stretches : List (Nat × Nat) → List (Byte × Bool) → List (Nat × List (Byte × Bool))
  | [], _ => []
  | r :: rs, xs => (r.1, xs.take r.2) :: stretches rs (xs.drop r.2)
/-- The packets of a command that wait for other destinations of a port take the bytes that the port has read for this one, however they are
cut (R314): the port reads every source byte once. -/
def shareRead (s : State) (pid port : Nat) (k : Sent) (r : List Byte × List Bool) : State :=
  if k.cmd == 0 || k.kept.isSome then s
  else
    let p := s.part pid
    let xs := stretches k.src (List.zip r.1 r.2)
    let take (q : Sent) : Sent :=
      if q.cmd == k.cmd && q.op == k.op && q.kept.isNone then
        { q with got := q.got ++ xs.filter fun x => q.src.any fun v => overlaps v.1 v.2 x.1 x.2.length }
      else q
    s.setPart pid
      { p with conns := p.conns.map fun c => (c.1, if c.2.port == port then { c.2 with queue := c.2.queue.map take } else c.2) }

/-- The bytes of the headers of a frame without preamble and gap (R385): Ethernet with its FCS, IPv4 and UDP, and UET's, the placement header
where it is carried, and MACsec's where the port runs it. -/
def headerBytes (p : Port) (placed : Bool) : Nat := 18 + 28 + 44 + (if placed then 32 else 0) + if p.mac.on then 32 else 0
/-- The bytes of a frame on a port (R385): a control frame has UET's headers alone (log entry 87). -/
def frameBytes (p : Port) : Output → Nat
  | .packet _ _ _ _ h bs _ => bs.length + headerBytes p (h.length == 32)
  | _ => headerBytes p false
/-- The bytes that a packet with a header and n bytes of payload takes on a port. -/
def packetBytes (p : Port) (h : List Byte) (n : Nat) : Nat := n + headerBytes p (h.length == 32)
/-- The retry buffer of a port takes another frame (R394). -/
def Port.room (p : Port) (n : Nat) : Bool := p.buffer == 0 || decide ((p.retry.map fun f => frameBytes p f.2).sum + n ≤ p.buffer)
/-- The packet number of the association that a port sends under (R395). -/
def Port.macPn (p : Port) : Nat := tget 0 p.mac.pn p.mac.tx
/-- The rekey mark (R395): the firmware's, 2^62 where it has set none. -/
def Mac.rekeyMark (m : Mac) : Nat := m.mark.getD (2 ^ 62)
/-- A frame leaves a port (R393 to R395): link-level retry numbers it and holds it, on a long-haul port in the HBM of its die; MACsec numbers it
under the active association, and KEY_EXPIRY is reported when the number reaches the mark. -/
def sendFrame (s : State) (port : Nat) (o : Output) : State :=
  let p := s.port port
  let n := p.frames + 1
  let pn := p.macPn + 1
  let t := (s.setPort port
    { p with frames := n, retry := p.retry ++ [(n, o)], mac := if p.mac.on then { p.mac with pn := tput 0 p.mac.pn p.mac.tx pn } else p.mac }).emit o
  let u := if p.buffer == 0 then t else wakeDie t (port / 6)
  if p.mac.on && pn == p.mac.rekeyMark then u.push [.keyExpiry port 0 p.mac.tx pn false] else u

/-- Bytes sent and not acknowledged (R391). -/
def outstanding (x : Conn) : Nat := (x.sent.map (·.len)).sum
/-- A packet's bytes fit the window and the receiver's credit (R391); a window or rate of 0 stops sending, of packets without payload too
(R414). -/
def withinLimits (x : Conn) (len : Nat) : Bool :=
  (match x.window with | some w => w != 0 && decide (outstanding x + len ≤ w) | none => true) &&
  decide (outstanding x + len ≤ x.credit * 256) && x.rate != some 0

/-- The entropy value of a PSN: n mod NPATH of the entry (R389, R398). -/
def connPath (e : List Byte) (psn : Nat) : Nat := fieldLE e 24 8 / 16 ^ (psn % Nat.max 1 (connNpath e)) % 16
/-- The path that an entropy value names in a port's path table (R398). -/
def portPath (s : State) (port ev : Nat) : Nat := tget ev (s.port port).paths ev
/-- A port may send a frame of n bytes: it is up, the packet number has not run out, and the retry buffer has room (R394, R395, R401). -/
def portSends (s : State) (port n : Nat) : Bool :=
  let p := s.port port
  !p.down && (!p.mac.on || decide (p.macPn < 2 ^ 64 - 1)) && p.room n
/-- A port sends a control frame. A full retry buffer holds it back (R394); on a link that is down, or once the packet number has run out, it is
lost. -/
def sendOn (s : State) (port : Nat) (o : Output) : State :=
  let p := s.port port
  if portSends s port (headerBytes p false) && p.waiting.isEmpty then sendFrame s port o
  else if portSends s port 0 then s.setPort port { p with waiting := p.waiting ++ [o] }
  else s
/-- A connection's port sends a frame of its own making. -/
def sendCtl (s : State) (c : Nat) (o : Output) : State := sendOn s (s.conn c).port o
/-- A port sends the control frames that a full buffer has held back. -/
def sendStopped (s : State) (port : Nat) : State :=
  if (s.port port).down then s
  else (s.port port).waiting.foldl (fun t o => sendOn t port o) (s.setPort port { s.port port with waiting := [] })

/-- The command of a packet is stalled at a page. -/
def cmdStalled (s : State) (cmd : Nat) : Bool :=
  match s.cmd cmd with
  | some e => (match e.stage with | .stalledDevice _ => true | .stalledHost _ _ => true | .stalledAts _ => true | _ => false)
  | none => false

/-- Send the packet at the head of a connection's queue with the next PSN (R389); false when it cannot leave now. A read that fails
stalls or stops the command. -/
def sendHead (s : State) (c : Nat) : State × Bool :=
  let x := s.conn c
  match x.queue with
  | [] => (s, false)
  | k :: ks =>
    if !withinLimits x k.len || !portSends s x.port (packetBytes (s.port x.port) k.header k.len) || cmdStalled s k.cmd then (s, false)
    else
      match payloadOf s x (connPid c) k with
      | .error f => (match s.cmd k.cmd with | some e => (engineFltAt s e f (connDie x.entry), true) | none => (s.setConn c { x with queue := ks }, true))
      | .ok r =>
        let s0 := if k.kept.isSome then s else noteRanges s (connDie x.entry) (connPid c) (s.job k.by_.ctx).aspace k.unread
        let s1 := s0.setConn c
          { x with queue := ks, nextPsn := (x.nextPsn + 1) % 2 ^ 32, numbered := x.numbered + 1, timerOn := x.timerOn || x.sent.isEmpty,
                   timerAt := if x.sent.isEmpty then s.fabricTime else x.timerAt,
                   sent := x.sent ++ [{ k with psn := x.nextPsn, tx := 1, got := [] }] }
        (sendFrame (shareRead s1 (connPid c) x.port k r) x.port
          (.packet x.port c x.nextPsn (portPath s x.port (connPath x.entry x.nextPsn)) k.header r.1 r.2), true)
/-- Send from a connection's queue while its limits allow; the number bounds the packets. -/
def pumpSome (c : Nat) : Nat → State → State
  | 0, s => s
  | n + 1, s => let r := sendHead s c; if r.2 then pumpSome c n r.1 else r.1
/-- Send all that a connection may send now. -/
def pumpConn (s : State) (c : Nat) : State := pumpSome c (s.conn c).queue.length s
/-! ### Resends (R389, R390, R412 to R414) -/

/-- A packet that a connection has sent and that is not acknowledged. -/
def sentPacket (s : State) (c psn : Nat) : Option Sent := (s.conn c).sent.find? fun k => k.psn == psn
/-- A limit lets a packet be resent (R414): a window or rate of 0 stops sending. -/
def resendFits (x : Conn) (len : Nat) : Bool := (match x.window with | some w => w != 0 && decide (len ≤ w) | none => true) && x.rate != some 0
/-- Resend a packet on a path (R389, R390): its payload is read afresh. What stops it, a limit, the port or a page, holds it with its path. -/
def resend (s : State) (c : Nat) (k : Sent) (path : Nat) : State :=
  let x := s.conn c
  let hold := s.setConn c { x with held := x.held ++ [(k.psn, path)] }
  if !resendFits x k.len || !portSends s x.port (packetBytes (s.port x.port) k.header k.len) || cmdStalled s k.cmd then hold
  else
    match payloadOf s x (connPid c) k with
    | .error f => (match s.cmd k.cmd with | some e => engineFltAt (if f.waits then hold else s) e f (connDie x.entry) | none => s)
    | .ok r =>
      let s1 := s.setConn c { x with sent := x.sent.map fun (q : Sent) => if q.psn == k.psn then { q with tx := q.tx + 1 } else q }
      sendFrame s1 x.port (.packet x.port c k.psn (portPath s x.port path) k.header r.1 r.2)
/-- Resend what a connection holds. -/
def resendHeld (s : State) (c : Nat) : State :=
  (s.conn c).held.foldl (fun t p => match sentPacket t c p.1 with | some k => resend t c k p.2 | none => t) (s.setConn c { s.conn c with held := [] })
/-- A connection sends what its limits allow now: held resends, then its queue. -/
def sendOut (s : State) (c : Nat) : State := pumpConn (resendHeld s c) c
/-- The connections that carry packets of a command. -/
def cmdConns (s : State) (cmd : Nat) : List Nat :=
  (s.parts.map fun p => (p.2.conns.filter fun c => (c.2.queue ++ c.2.sent).any fun k => k.cmd == cmd).map fun c => connId p.1 c.1).flatten
/-- A command that was stalled sends its packets on. -/
def sendOnward (s : State) (cmd : Nat) : State := (cmdConns s cmd).foldl sendOut s

/-- Put a packet at the end of a connection's queue. -/
def enqueue (s : State) (c : Nat) (k : Sent) : State :=
  let x := s.conn c
  s.setConn c { x with queue := x.queue ++ [k] }

end Sys2Proof.Machine
end

