-- ==== Sys2Proof/Machine/Counters.lean ====
section
/-! DEFINITION. Counters at their homes (06): applying an update, firing waiters, arming and removing them. -/

namespace Sys2Proof.Machine

/-! ### Doorbells (R350, R351) -/

def lqRing (d : List Byte) : Nat := fieldLE d 0 8
def lqLogn (d : List Byte) : Nat := fieldLE d 8 1
def lqEnabled (d : List Byte) : Bool := (fieldLE d 9 1).testBit 0
def lqBell (d : List Byte) : Nat := fieldLE d 12 4
def lqTaken (d : List Byte) : Nat := fieldLE d 16 4

/-- The queue of an update whose next entry has the least k among those not consumed (R351). -/
def leastDue (p : Partition) : List (Nat × Nat) → Option Nat
  | [] => none
  | u :: us =>
    let k := (tget {} p.queues u.1).taken
    match leastDue p us with
    | none => if k < u.2 then some u.1 else none
    | some q => if k < u.2 && decide (k ≤ (tget {} p.queues q).taken) then some u.1 else some q
/-- The queue of the oldest update with entries that are not consumed (R351). -/
def nextDue (p : Partition) : Option Nat := p.due.findSome? (leastDue p)
/-- The acceptance of a partition's oldest due entry, when there is one. -/
def acceptNext (s : State) (pid : Nat) : List Instr :=
  match nextDue (s.part pid) with
  | some q => [.launchQueueEntryAccept pid q]
  | none => []
/-- A partition's due entries are served. -/
def serveQueues (s : State) (pid : Nat) : State := s.push (acceptNext s pid)
/-- The entries of the queues on a doorbell that are due now (R350). -/
def dueNow (s : State) (p : Partition) (h : Nat) : List (Nat × Nat) :=
  p.queues.filterMap fun q =>
    let n := (s.ctr (hostHandle (lqBell q.2.desc)) - BitVec.ofNat 64 q.2.base).toNat
    if lqEnabled q.2.desc && lqBell q.2.desc == bits h 19 0 && decide (n < 2 ^ 63) && decide (q.2.taken < n) then some (q.1, n) else none
/-- A doorbell of a partition has been updated (R350, R351). -/
def noteDue (s : State) (pid h : Nat) : State :=
  let p := s.part pid
  let new := dueNow s p h
  if new.isEmpty then s
  else serveQueues (s.setPart pid { p with due := (p.due.filter fun u => (leastDue p u).isSome) ++ [new] }) pid
/-- An update of a HOST counter is a doorbell of the enabled queues that name it (R350). -/
def ringBells (s : State) (h : Nat) : State := if hKind h != 3 then s else s.parts.foldl (fun t e => noteDue t e.1 h) s

/-! ### Counters and waiters -/

/-- Replace the value of a counter. -/
def State.setCtr (s : State) (h : Nat) (v : Word) : State := { s with ctrs := tput 0 s.ctrs (ctrKey h) v }

/-- A strand's core, when its job is resident. -/
def State.strandCore (s : State) (job strand : Nat) : Option Nat :=
  match (s.job job).strands[strand]? with
  | some (.core c) => if (s.core c).job == some job then some c else none
  | _ => none

/-- The flag bit n as a 16-bit value (R175). -/
def flagBit (n : Nat) : BitVec 16 := BitVec.ofNat 16 (2 ^ n)

/-- A held strand's wait has ended (R46): its whole mask is set. -/
def waitDone (mask : Nat) (flags : BitVec 16) : Bool := mask &&& flags.toNat == mask

/-- A flag whose WATCH is released and has not arrived yet: it counts as clear, since the arrival clears it (R128, R258; log entry 33). -/
def Core.arming (x : Core) (mask : Nat) : Bool :=
  x.drain.any fun e =>
    match e with
    | .cmd (.watch w) => (match w.kind with | .flag _ _ n => mask.testBit n | _ => false)
    | _ => false
/-- A resident strand's wait has ended (R257). -/
def Core.flagsReady (x : Core) (mask : Nat) : Bool := waitDone mask x.flags && !x.arming mask

/-- A switched-out job becomes ready at its level and with its key (R46, R357); during its switch-out it becomes ready afterwards. -/
def wakeJob (s : State) (id : Nat) : State :=
  let j := s.job id
  match j.phase with
  | .out => (s.setJob id { j with phase := .ready, level := recLevel j.record, readyAt := s.fabricTime }).push [.dispatch j.pid]
  | .running => if j.leaving then s.setJob id { j with wakeAfter := true } else s
  | _ => s

/-- A strand is held at a wait of its own that has not ended (R45). -/
def Core.waits (x : Core) : Bool :=
  match x.hold with
  | some (.waitf mask) => !x.flagsReady mask
  | some .join | some (.pageDevice _) | some (.pageHost _) => true
  | _ => false
/-- A saved strand is held at a wait: a member of a LOCKSTEP group while any member of it is (R45, R46). -/
def Job.strandWaits (j : Job) (strand : Nat) : Bool :=
  let own (n : Nat) : Bool := (tget {} j.kept n).waits
  match j.groups.find? fun g => g.formed && g.lockstep && g.roster.contains strand && !g.gone.contains strand with
  | some g => g.roster.any fun n => !g.gone.contains n && own n
  | none => own strand

/-! ### Idle units (R366) -/

/-- The die of a mill, and the mill, are awake. -/
def wakeMill (s : State) (m : Nat) : State :=
  let d := s.die (millDie m)
  let x := s.mill m
  let t := if d.idle == 0 && d.idleAt.isNone then s else s.setDie (millDie m) { d with idle := 0, idleAt := none }
  if x.idle == 0 && x.idleAt.isNone then t else t.setMill m { x with idle := 0, idleAt := none }
/-- A core returns to issue, and its mill and die with it. -/
def wakeCore (s : State) (c : Nat) : State :=
  let x := s.core c
  wakeMill (if x.power == 0 && x.idleAt.isNone then s else s.setCore c { x with power := 0, idleAt := none }) (coreMill c)

/-- Change the state of a strand, on its core or as saved (R126, R447). -/
def onStrand (s : State) (job strand : Nat) (f : Core → Core) : State :=
  match s.strandCore job strand with
  | some c => s.setCore c (f (s.core c))
  | none =>
    let j := s.job job
    if j.strands[strand]? == some .saved then s.setJob job { j with kept := tins j.kept strand (f (tget {} j.kept strand)) } else s

/-- Set a flag of a strand, resident or saved (R126), and the FTO bit with it when a deadline expired (R130); home is 1 + the die of a
counter homed at DIE scope or wider, else 0. A saved context whose wait ends becomes ready (R46). -/
def setFlag (s : State) (job strand n : Nat) (timeout : Bool) (home : Nat) : State :=
  let t := onStrand s job strand fun x =>
    { x with
      flags := x.flags ||| flagBit n, fto := if timeout then x.fto ||| flagBit n else x.fto,
      fhome := tput 0 x.fhome n home }
  match t.strandCore job strand with
  | some c => if (t.core c).hold.isSome then wakeCore t c else t
  | none => if (t.job job).strands[strand]? == some .saved && !(t.job job).strandWaits strand then wakeJob t job else t

/-- The event record of R131. -/
def eventRecord (tag threshold time value : Nat) : List Byte :=
  natLE 2 0 ++ natLE 1 0x40 ++ natLE 1 0 ++ natLE 4 tag ++ natLE 8 threshold ++ natLE 8 time ++ natLE 8 value

/-- Write bytes to the pieces of an access, ascending; a destination line keeps or loses its form by R341 (plaintext source). -/
def putPieces (s : State) : List Piece → List Byte → State
  | [], _ => s
  | p :: ps, bs => putPieces (s.putBytes p.loc (bs.take p.len)) ps (bs.drop p.len)

/-- A firing keeps its place behind others of its counter that have not been carried out (R127). -/
def queueFiring (s : State) (w : Waiter) (v : Word) : State := { s with firings := s.firings ++ [(w, v)] }
/-- Carry out a firing on the value V its update left (R126). An EVENT record whose host page has no cached translation waits for ATS
(R375); any other fault of it is left to be offered (R131). HOSTINT is discarded while the host is lost (R383). -/
def fireNow (s : State) (w : Waiter) (v : Word) : State :=
  match w.kind with
  | .flag ctx strand n => setFlag s ctx strand n false (if hKind w.h == 0 then 0 else 1 + hHome w.h)
  | .task id =>
    let j := s.job id
    if j.phase == .waiting then (s.setJob id { j with phase := .ready, readyAt := s.fabricTime }).push [.dispatch j.pid] else s
  | .event addr tag =>
    match engineReach s 0 w.die w.pid w.aspace addr 32 false [] .write with
    | .error e =>
      (match e.atsPage with
       | some p => askAts (queueFiring s w v) w.die w.pid w.aspace p
       | none =>
         let t := if e.code == cPageHost then dropAts s w.die w.pid w.aspace e.page else s
         { t with offers := t.offers ++ [{ by_ := w.by_, code := e.code, info := e.info, flags := 0, slot := 9 }] })
    | .ok r => tickClock (putPieces (noteWrite s w.die r) r.1 (eventRecord tag w.threshold (s.dieTime w.die) v.toNat)) w.die
  | .hostint vec =>
    if s.hostLost.contains w.pid then s else s.push [.hostintPost (if (s.part w.pid).flag 6 then 1 else 0) vec]
  | .forward h2 amount => (tickClock s w.die).push [.counterUpdate h2 amount w.by_]
/-- Fire a waiter: the firings of a counter are carried out in order (R127). -/
def fire (s : State) (w : Waiter) (v : Word) : State :=
  if s.firings.any fun f => ctrKey f.1.h == ctrKey w.h then queueFiring s w v else fireNow s w v
/-- Carry out again the firings that wait, when one of those named may now go on (R375). -/
def resumeFirings (s : State) (may : Waiter → Bool) : State :=
  if s.firings.any fun f => may f.1 then s.firings.foldl (fun t f => fire t f.1 f.2) { s with firings := [] } else s

/-- A waiter that the update from V to Vn takes from not reached to reached (R127). -/
def fires (h : Nat) (v vn : Word) (w : Waiter) : Bool :=
  ctrKey w.h == ctrKey h && !reached v (BitVec.ofNat 64 w.threshold) && reached vn (BitVec.ofNat 64 w.threshold)

/-- Apply an add of a to counter h at its home, firing its waiters in arming order (R123, R127); a doorbell's entries become due (R350). -/
def applyAdd (s : State) (h a : Nat) : State :=
  let v := s.ctr h
  let vn := v + BitVec.ofNat 64 a
  let s1 := s.setCtr h vn
  let s2 := { s1 with waiters := s1.waiters.filter fun w => !fires h v vn w }
  ringBells ((s1.waiters.filter (fires h v vn)).foldl (fun t w => fire t w vn) s2) h

/-- The strand and flag of a FLAG waiter. -/
def isFlagOf (job strand n : Nat) (w : Waiter) : Bool := w.kind == .flag job strand n
/-- The cycles of a FLAG waiter's deadline have passed since it was armed (R130). -/
def deadlinePassed (s : State) (job strand n : Nat) (w : Waiter) : Bool :=
  isFlagOf job strand n w && w.deadline != 0 && decide (w.armed + w.deadline ≤ s.cycle)
/-- Remove the FLAG waiter of a strand's flag, if it has one (R129). -/
def removeFlagWaiter (s : State) (job strand n : Nat) : State :=
  { s with waiters := s.waiters.filter fun w => !isFlagOf job strand n w }
/-- A waiter is no FLAG waiter of a strand. -/
def notOfStrand (job strand : Nat) (w : Waiter) : Bool :=
  match w.kind with
  | .flag j st _ => !(j == job && st == strand)
  | _ => true
/-- A waiter is no FLAG waiter of a context. -/
def notOfJob (job : Nat) (w : Waiter) : Bool :=
  match w.kind with
  | .flag j _ _ => j != job
  | _ => true
/-- Remove every FLAG waiter of a strand (R43, R135, R201), those kept with its context too. -/
def removeStrandWaiters (s : State) (job strand : Nat) : State :=
  let t := { s with waiters := s.waiters.filter (notOfStrand job strand) }
  let j := t.job job
  if j.keptWaiters.isEmpty then t else t.setJob job { j with keptWaiters := j.keptWaiters.filter (notOfStrand job strand) }

/-- The target of a waiter is still there: a strand that has ended keeps no FLAG waiter (R135, R201). -/
def targetLives (s : State) (w : Waiter) : Bool :=
  match w.kind with
  | .flag j st _ => (match (s.job j).strands[st]? with | some (.core _) | some .saved => true | _ => false)
  | _ => true
/-- A waiter arrives at its home (R128), where its deadline begins to count (R130): a FLAG waiter clears its flag and FTO bit and replaces the flag's
waiter; a threshold already reached fires at once and takes no entry. -/
def armWaiter (s : State) (w : Waiter) : State :=
  if !targetLives s w then s
  else
  let s1 :=
    match w.kind with
    | .flag j st n =>
      let s0 := removeFlagWaiter s j st n
      onStrand s0 j st fun x => { x with flags := x.flags &&& ~~~(flagBit n), fto := x.fto &&& ~~~(flagBit n) }
    | _ => s
  if reached (s1.ctr w.h) (BitVec.ofNat 64 w.threshold) then fire s1 w (s1.ctr w.h)
  else { s1 with waiters := s1.waiters ++ [{ w with armed := s.cycle }] }

/-- The waiter entries in use: of a partition on a die's weir, of a die, of a core's LOCAL counters (R134). -/
def waitersOn (s : State) (pid die : Nat) : Nat :=
  (s.waiters.filter fun w => w.pid == pid && hKind w.h != 0 && hHome w.h == die).length
def waitersOfDie (s : State) (die : Nat) : Nat := (s.waiters.filter fun w => hKind w.h != 0 && hHome w.h == die).length
def waitersOfCore (s : State) (c : Nat) : Nat :=
  (s.waiters.filter fun w => hKind w.h == 0 && hCore w.h == c).length

/-- The release scope of an add to a counter by a core, as a scope code (R98, R109). -/
def releaseScope (c h : Nat) : Nat :=
  match hKind h with
  | 0 => if hPkgMill h == coreMill c then 1 else if hDie h == coreDie c then 2 else 3
  | 1 | 2 => if hDie h == coreDie c then 2 else 3
  | _ => 4
/-- 1 + the die of a counter's home when an acquire of it by a core is at DIE scope or wider, else 0 (R88, R111); 9 for a REMOTE one. -/
def acquireHome (c h : Nat) : Nat := if isRemote h then 9 else if releaseScope c h == 1 then 0 else 1 + hHome (ownHandle h)

/-- The pool of entries a waiter takes from (R134): a die's weir, or 8 + a core for a LOCAL counter. -/
def waiterPool (h : Nat) : Nat := if hKind h == 0 then 8 + hCore h else hHome h
/-- Reserve an entry for a waiter that a released command will arm, or give it back (R134). -/
def Partition.reserve (p : Partition) (h : Nat) : Partition := { p with reserved := tmod 0 p.reserved (waiterPool h) (· + 1) }
def Partition.unreserve (p : Partition) (h : Nat) : Partition := { p with reserved := tmod 0 p.reserved (waiterPool h) (· - 1) }

/-- The fields of a REMOTE add as a COUNTER packet's header (R386). -/
def counterHeader (h amount : Nat) : List Byte :=
  natLE 1 0x31 ++ natLE 1 0 ++ natLE 1 (hRdie h) ++ natLE 1 0 ++ natLE 4 0 ++ natLE 4 (hRkind h) ++ natLE 4 (hIndex h) ++ natLE 4 0 ++
  natLE 4 0 ++ natLE 8 amount

/-- An add that its connection cannot carry is offered as ACCESS to who made it (R121), with the SLOT of R379. -/
def refuseAdd (s : State) (by_ : Issuer) (h slot : Nat) : State :=
  { s with offers := s.offers ++ [{ by_ := by_, code := cAccess, info := h, flags := 0, slot := slot, add := true }] }
/-- Make an add by an agent (R121, R123): a REMOTE add leaves as a COUNTER packet or is offered as ACCESS; any other is applied at its
home. slot is 6 for a C-slot operation, 8 for an engine's completion, 9 for any other add. -/
def doAdd (s : State) (h a : Nat) (by_ : Issuer) (slot : Nat) : State :=
  let k := ownHandle h
  if isRemote h then
    match openConnTo s (s.job by_.ctx).pid (hNode h) with
    | some ix =>
      let c := connId (s.job by_.ctx).pid ix
      if connE8 (s.conn c).entry then pumpConn (enqueue s c { by_ := by_, slot := slot, info := h, header := counterHeader h a, kept := some [] }) c
      else refuseAdd s by_ h slot
    | none => refuseAdd s by_ h slot
  else applyAdd s k a

/-- An add that a unit of a die issues: it counts in the die's clock (R108). -/
def addFrom (s : State) (die h a : Nat) (by_ : Issuer) (slot : Nat) : State := tickClock (doAdd s h a by_ slot) die

end Sys2Proof.Machine
end

