-- ==== Sys2Proof/Machine/Operands.lean ====
section
/-! DEFINITION. Reading operands at issue (R141, R168, R173, R174) and landing results (R139, R140, R148, R219). -/

namespace Sys2Proof.Machine

/-- All lane bits one. -/
def allOnes : Word := BitVec.allOnes 64

/-- A predicate register; p0 is all ones (R26). -/
def Arch.pred (a : Arch) (n : Nat) : Word := if n = 0 then allOnes else tget 0 a.p n
/-- A scalar register; s0 reads zero (R26). -/
def Arch.sreg (a : Arch) (n : Nat) : Word := if n = 0 then 0 else tget 0 a.s n
/-- A vector register by code, v0 to v31 then o0 to o7 (R173). -/
def Arch.vreg (a : Arch) (c : Nat) : Vec := if c < 32 then tget 0 a.v c else tget 0 a.o (c - 32)
/-- A scale register. -/
def Arch.kreg (a : Arch) (n : Nat) : Word := tget 0 a.k n
/-- A tile descriptor. -/
def Arch.treg (a : Arch) (n : Nat) : Word := tget 0 a.t n
/-- A last-result latch (R141): age 0 last, 1 previous; none is undefined (R37). -/
def Arch.latchOf (a : Arch) (slot age : Nat) : Option Vec := tget (some 0) a.latch (2 * slot + age)

/-- The partner slot of R141: S with V, L with X. -/
def partner (slot : Nat) : Nat := if slot % 2 = 0 then slot + 1 else slot - 1

/-- The latch that a source code names, if it names one (R141, R173). -/
def latchCode (a : Arch) (slot code : Nat) : Option (Option Vec) :=
  if code = 40 ∨ code = 41 then (if slot = 4 ∨ slot = 5 ∨ slot = 7 then none else some (a.latchOf slot (code - 40)))
  else if code = 42 ∨ code = 43 then some (a.latchOf (partner slot) (code - 42))
  else none

/-- A scalar source (R173, R174). -/
def readS (a : Arch) (slot code : Nat) : Word :=
  if code < 32 then a.sreg code
  else
    match latchCode a slot code with
    | some (some x) => x.setWidth 64
    | _ => 0

/-- A vector source (R173, R174). -/
def readV (a : Arch) (slot code : Nat) : Vec :=
  if code < 40 then a.vreg code
  else
    match latchCode a slot code with
    | some (some x) => x
    | _ => 0

/-- A source code reads a latch that is undefined (R37). -/
def readsUndef (a : Arch) (slot code : Nat) : Bool := latchCode a slot code == some none

/-- The guard of R168. -/
def guardPasses (a : Arch) (g : Nat) : Bool :=
  if g = 0 then true else if g < 8 then (a.pred g).getLsbD 0 else if g = 8 then false else !(a.pred (g - 8)).getLsbD 0

/-- STATUS bits of R205. -/
def stLatchrd : Word := 0x80
def stIgnored : Word := 0x40

/-- Change the live copy of a core. -/
def Core.onLive (c : Core) (f : Arch → Arch) : Core := { c with live := f c.live }
/-- Change both copies (R269). -/
def Core.onBoth (c : Core) (f : Arch → Arch) : Core := { c with live := f c.live, shadow := f c.shadow }
def Arch.orStatus (a : Arch) (x : Word) : Arch := { a with status := a.status ||| x }
/-- Change the issuing core. -/
def State.onCore (s : State) (c : Nat) (f : Core → Core) : State := s.setCore c (f (s.core c))

/-- OR the status bits of an operation into the live STATUS (R57, R221). -/
def orStatus (s : State) (x : Nat) : State :=
  if x = 0 then s else s.onCore s.cur.core fun c => c.onLive fun a => a.orStatus (BitVec.ofNat 64 x)

/-- A read of an undefined latch sets LATCHRD (R37). -/
def noteReads (s : State) (slot : Nat) (codes : List Nat) : State :=
  if codes.any (readsUndef s.curCore.live slot) then orStatus s 0x80 else s

/-! ### Results in flight -/

/-- Put a result in flight on the issuing core (R139). -/
def addLanding (s : State) (l : Landing) : State :=
  s.onCore s.cur.core fun c => { c with inflight := c.inflight ++ [l] }

/-- A scalar destination code as a file and number (R173). -/
def sDest (d : Nat) : RegFile × Nat := if d < 32 then (.s, d) else (.none, 0)
/-- A vector destination code as a file and number (R173). -/
def vDest (d : Nat) : RegFile × Nat := if d < 32 then (.v, d) else if d < 40 then (.o, d - 32) else (.none, 0)

/-- The mask of the low 64 bits. -/
def mask64 : Vec := BitVec.ofNat 2048 (2 ^ 64 - 1)
/-- The mask of every bit. -/
def maskAll : Vec := BitVec.allOnes 2048

/-- A 64-bit result of a slot with latency lat. -/
def result64 (slot : Nat) (file : RegFile) (num : Nat) (v : Word) (lat : Nat) (latch : Bool) : Landing :=
  { slot := slot, file := file, num := num, val := v.setWidth 2048, mask := mask64, latch := latch, left := lat, older := false }

/-- Deliver a scalar result to destination code d (R190). -/
def giveS (s : State) (slot d : Nat) (v : Word) (lat : Nat) : State :=
  addLanding s (result64 slot (sDest d).1 (sDest d).2 v lat true)
/-- Deliver a predicate (R190, R227). -/
def giveP (s : State) (slot d : Nat) (v : Word) (mask : Word) (lat : Nat) : State :=
  addLanding s { slot := slot, file := .p, num := d, val := v.setWidth 2048, mask := mask.setWidth 2048, latch := true, left := lat, older := false }
/-- Deliver a scale register, outside the latches (R238, R241). -/
def giveK (s : State) (slot d : Nat) (v mask : Word) (lat : Nat) (latch : Bool) : State :=
  addLanding s { slot := slot, file := .k, num := d, val := v.setWidth 2048, mask := mask.setWidth 2048, latch := latch, left := lat, older := false }
/-- Deliver a scale register that LDK has loaded (R241). -/
def loadK (s : State) (d : Nat) (v : Word) : State :=
  addLanding s { slot := 3, file := .k, num := d, val := v.setWidth 2048, mask := mask64, latch := true, left := 6, older := false, mem := true }
/-- Deliver a vector result: the bits of mask are replaced (R219). -/
def giveV (s : State) (slot d : Nat) (v mask : Vec) (lat : Nat) : State :=
  addLanding s { slot := slot, file := (vDest d).1, num := (vDest d).2, val := v, mask := mask, latch := true, left := lat, older := false }

/-- The bits of mask from new, the rest from old (R219). -/
def mergeV (old new mask : Vec) : Vec := (old &&& ~~~mask) ||| (new &&& mask)

/-- The value of a register of a file as 2,048 bits. -/
def Arch.get (a : Arch) : RegFile → Nat → Vec
  | .s, n => (a.sreg n).setWidth 2048
  | .v, n => tget 0 a.v n
  | .o, n => tget 0 a.o n
  | .p, n => (a.pred n).setWidth 2048
  | .k, n => (a.kreg n).setWidth 2048
  | .t, n => (a.treg n).setWidth 2048
  | .csr, n =>
    (if n = 0x000 then a.status else if n = 0x020 then a.qmode else if n = 0x021 then a.dressperm else tget 0 a.steps n).setWidth 2048
  | .none, _ => 0

/-- Write a register of a file; s0 and p0 are fixed (R26). -/
def Arch.put (a : Arch) (f : RegFile) (n : Nat) (x : Vec) : Arch :=
  match f with
  | .s => if n = 0 then a else { a with s := tput 0 a.s n (x.setWidth 64) }
  | .v => { a with v := tput 0 a.v n x }
  | .o => { a with o := tput 0 a.o n x }
  | .p => if n = 0 then a else { a with p := tput 0 a.p n (x.setWidth 64) }
  | .k => { a with k := tput 0 a.k n (x.setWidth 64) }
  | .t => { a with t := tput 0 a.t n (x.setWidth 64) }
  | .csr =>
    if n = 0x000 then { a with status := x.setWidth 64 }
    else if n = 0x020 then { a with qmode := x.setWidth 64 }
    else if n = 0x021 then { a with dressperm := x.setWidth 64 }
    else { a with steps := tput 0 a.steps n (x.setWidth 64) }
  | .none => a

/-- Push a result into a slot's latches (R141). -/
def Arch.pushLatch (a : Arch) (slot : Nat) (x : Vec) : Arch :=
  { a with latch := tput (some 0) (tput (some 0) a.latch (2 * slot + 1) (a.latchOf slot 0)) (2 * slot) (some x) }

/-- Land one result in a copy of the state: the register's masked bits, then the latches (R141, R219; log entry 14). -/
def Arch.land (a : Arch) (l : Landing) : Arch :=
  let x := mergeV (a.get l.file l.num) l.val l.mask
  let a1 := a.put l.file l.num x
  if l.latch then a1.pushLatch l.slot x else a1

/-- Land one result: in the live copy, and in the shadow copy when its region has ended (R148). -/
def Core.land (c : Core) (l : Landing) : Core :=
  { c with live := c.live.land l, shadow := if l.older then c.shadow.land l else c.shadow }

/-- Land every result that is due, in issue order (R140). -/
def Core.landDue (c : Core) : Core :=
  let d := (c.inflight.filter fun l => l.left == 0).foldl Core.land c
  { d with inflight := c.inflight.filter fun l => l.left != 0 }

/-- The loads whose checks complete in this cycle clear an earlier failure at their address (R157). -/
def Core.passChecks (c : Core) : Core :=
  let done := c.loads.filter fun x => decide (x.left ≤ 1)
  let clean := done.any (·.again)
  { c with loads := (c.loads.filter fun x => decide (1 < x.left)).map fun (x : LoadCheck) => { x with left := x.left - 1 },
           reread := if clean then c.reread + 1 else c.reread, eccAddr := if clean then none else c.eccAddr }

/-- One issued cycle: every result comes one cycle nearer, and those due land (R139, R143). -/
def Core.cycle (c : Core) : Core :=
  ({ c.passChecks with
      inflight := c.inflight.map fun (l : Landing) => { l with left := l.left - 1 },
      owed := c.owed.map fun (o : Owed) => { o with left := o.left - 1 },
      seen := c.seen.map fun (r : CtrSeen) => { r with left := r.left - 1 } }).landDue

/-- n issued cycles. -/
def Core.cycles (c : Core) : Nat → Core
  | 0 => c
  | n + 1 => c.cycle.cycles n

/-- Pop the next random word (R73, R75): none at the end of the range. -/
def Core.popWord (c : Core) : Option Nat := if c.live.rngNext < c.rngEnd then some c.live.rngNext else none

end Sys2Proof.Machine
end

