-- ==== Sys2Proof/Machine/Memory.lean ====
section
/-! DEFINITION. Loads and stores: forwarding from the release buffer (R150), CACHE banks (R85 to R88), stores applied at their home
(R86, R102), atomics at memory (R254, R256). -/

namespace Sys2Proof.Machine

/-! ### Forwarding (R150) -/

/-- The byte that an entry gives a place. -/
def BufEnt.byteAt? (e : BufEnt) (l : Loc) : Option Byte :=
  match e with
  | .write w bs _ => if w.sp == l.sp && decide (w.addr ≤ l.addr) && decide (l.addr < w.addr + bs.length) then bs[l.addr - w.addr]? else none
  | .cmd _ => none

/-- The latest buffered byte of a place, over entries in program order. -/
def bufByte (es : List BufEnt) (l : Loc) : Option Byte :=
  es.foldl (fun acc e => match e.byteAt? l with | some b => some b | none => acc) none

/-- A core's view of bytes it reads: the buffered ones, those still draining, the rest as given. -/
def Core.overlay (x : Core) (l : Loc) (bs : List Byte) : List Byte :=
  if x.buf.isEmpty && x.drain.isEmpty then bs
  else bs.zipIdx.map fun b => (bufByte (x.drain ++ x.buf) ⟨l.sp, l.addr + b.2⟩).getD b.1

/-! ### CACHE banks (R85 to R88) -/

/-- The number of CACHE banks of a mill (R85). -/
def cacheBanks (m : Mill) : Nat := ((List.range 32).filter fun b => roleOf m.bankrole b == 1).length
/-- The set of a line: its CACHE bank and its set there (R85). -/
def cacheSet (n line : Nat) : Nat × Nat := (line % n, line / n % 128)
/-- The last element of a list that has a property. -/
def findLast {α : Type} (p : α → Bool) (xs : List α) : Option α := xs.foldl (fun acc x => if p x then some x else acc) none
/-- The victim of a full set: the least recent STREAM line, else DEFAULT, else STICKY (R87); the list is most recent first. -/
def cacheVictim (xs : List CacheLine) : Option CacheLine :=
  match findLast (fun x => x.cls == 1) xs with
  | some v => some v
  | none =>
    match findLast (fun x => x.cls == 0) xs with
    | some v => some v
    | none => findLast (fun x => x.cls == 2) xs
/-- Allocate a line with a class (R86, R87). -/
def cacheAlloc (m : Mill) (line cls : Nat) (data : List Byte) : Mill :=
  let n := cacheBanks m
  let inSet := m.cache.filter fun x => cacheSet n x.line == cacheSet n line
  let keep :=
    if decide (16 ≤ inSet.length) then (match cacheVictim inSet with | some v => m.cache.erase v | none => m.cache) else m.cache
  { m with cache := ⟨line, cls, data⟩ :: keep }
/-- A line of the cache. -/
def cacheFind (m : Mill) (line : Nat) : Option CacheLine := m.cache.find? fun x => x.line == line
/-- Make a line most recent with a class. -/
def cacheTouch (m : Mill) (x : CacheLine) (cls : Nat) : Mill := { m with cache := { x with cls := cls } :: m.cache.erase x }
/-- The 128 bytes of a line at its home. -/
def homeLine (s : State) (line : Nat) : List Byte := s.bytesAt ⟨.hbm, line * 128⟩ 128

/-- Load a line for a mill with a hint (R86, R87): the data a load sees, whether it hit, and the state after. -/
def loadLine (s : State) (mill line hint : Nat) : List Byte × Bool × State :=
  let m := s.mill mill
  if cacheBanks m == 0 then (homeLine s line, false, s)
  else
    match cacheFind m line with
    | some x =>
      if hint == 3 then
        (homeLine s line, false,
         s.setMill mill { m with cache := m.cache.map fun y => if y.line == line then { y with data := homeLine s line } else y })
      else (x.data, true, s.setMill mill (cacheTouch m x hint))
    | none =>
      if hint == 3 then (homeLine s line, false, s)
      else (homeLine s line, false, s.setMill mill (cacheAlloc m line hint (homeLine s line)))

/-- Prefetch a line (R252). -/
def prefLine (s : State) (mill line hint : Nat) : State :=
  let m := s.mill mill
  if cacheBanks m == 0 || hint == 3 then s
  else
    match cacheFind m line with
    | some x => s.setMill mill (cacheTouch m x hint)
    | none => s.setMill mill (cacheAlloc m line hint (homeLine s line))

/-- Remove lines of a mill's cache (R253, R86, R88). -/
def dropLines (s : State) (mill : Nat) (p : CacheLine → Bool) : State :=
  let m := s.mill mill
  if m.cache.isEmpty then s else s.setMill mill { m with cache := m.cache.filter fun x => !p x }
/-- An acquire at DIE scope or wider invalidates every line that is not STICKY (R88). -/
def acquireCache (s : State) (c : Nat) : State := dropLines s (coreMill c) fun x => x.cls != 2

/-! ### Loads (R247) -/

/-- The latency class of a load (R139). -/
def latLocal : Nat := 8
def latHit : Nat := 12
def latOther : Nat := 40

/-- Bytes of one piece, loaded line by line through the cache; fuel bounds the lines. A line from another die's home brings its clock
(R108). Gives bytes, slowest latency and state. -/
def loadHbm (s : State) (mill hint : Nat) : Nat → Nat → Nat → List Byte × Nat × State
  | 0, _, _ => ([], latHit, s)
  | fuel + 1, a, n =>
    if n == 0 then ([], latHit, s)
    else
      let k := Nat.min n (128 - a % 128)
      let r := loadLine s mill (a / 128) hint
      let s1 := if r.2.1 then r.2.2 else wakeDie (mergeFrom r.2.2 (millDie mill) (homeDie a)) (homeDie a)
      let t := loadHbm s1 mill hint fuel (a + k) (n - k)
      ((r.1.drop (a % 128)).take k ++ t.1, Nat.max (if r.2.1 then latHit else latOther) t.2.1, t.2.2)

/-- Load the pieces of an access on a core: bytes with forwarding, the latency of the slowest, the state after. -/
def loadPieces (s : State) (c hint : Nat) : List Piece → List Byte × Nat × State
  | [] => ([], 0, s)
  | p :: ps =>
    let r : List Byte × Nat × State :=
      if p.loc.sp == .hbm && c != mgmtCore then loadHbm s (coreMill c) hint (p.len / 128 + 2) p.loc.addr p.len
      else (s.bytesAt p.loc p.len, if p.loc.sp == .bank || c == mgmtCore then latLocal else latOther, s)
    let t := loadPieces r.2.2 c hint ps
    ((s.core c).overlay p.loc r.1 ++ t.1, Nat.max r.2.1 t.2.1, t.2.2)

/-- Load the pieces of a descriptor, a record or a table (R213, R215, R280): a load without a hint, its bytes and the state after. -/
def loadWhole (s : State) (c : Nat) (ps : List Piece) : List Byte × State := let r := loadPieces s c 0 ps; (r.1, r.2.2)

/-- Set the read-bitmap bits of LOCAL pieces (R152). -/
def noteLocalReads (s : State) (c : Nat) (ps : List (Nat × Nat)) : State :=
  let gs := (ps.map fun p => (List.range ((p.1 + p.2 - 1) / 1024 + 1 - p.1 / 1024)).map fun i => p.1 / 1024 + i).flatten
  if gs.isEmpty then s else s.onCore c fun x => { x with readBits := gs.foldl (fun l g => if l.contains g then l else g :: l) x.readBits }
/-- The LOCAL pieces of an access, as offsets in the mill. -/
def localPieces (ps : List Piece) : List (Nat × Nat) := (ps.filter fun p => p.loc.sp == .bank).map fun p => (p.loc.addr % 2 ^ 23, p.len)

/-- A load's integrity checks are pending (R157). -/
def noteChecks (s : State) (c : Nat) (ps : List Piece) : State :=
  s.onCore c fun x =>
    { x with loads := x.loads ++ ps.map fun p => ⟨p.loc, p.len, 40, match x.eccAddr with
        | some l => l.sp == p.loc.sp && decide (p.loc.addr ≤ l.addr) && decide (l.addr < p.loc.addr + p.len)
        | none => false, s.cur.pc, s.cur.inst, s.cur.slot⟩ }

/-! ### Stores at their home (R86, R102, R340) -/

/-- Bytes laid over a line's data. -/
def patchLine (a : Nat) (bs : List Byte) (x : CacheLine) : CacheLine :=
  if overlaps a bs.length (x.line * 128) 128 then
    { x with data := x.data.zipIdx.map fun d =>
        let p := x.line * 128 + d.2
        if decide (a ≤ p) && decide (p < a + bs.length) then bs.getD (p - a) d.1 else d.1 }
  else x

/-- The lines that n bytes from an address touch. -/
def linesOf (a n : Nat) : List Nat := (List.range ((a + n - 1) / 128 + 1 - a / 128)).map fun i => a / 128 + i
/-- A store's hit with DEFAULT, STREAM or STICKY sets the line's class and makes it most recent (R87). -/
def touchLines (m : Mill) (hint : Nat) : List Nat → Mill
  | [] => m
  | line :: ls => touchLines (match cacheFind m line with | some x => cacheTouch m x hint | none => m) hint ls
/-- The cache of a mill after a store of one of its cores (R86, R87): the data of the lines it hits, and by its hint their class and
recency. -/
def cacheStore (m : Mill) (a : Nat) (bs : List Byte) (hint : Nat) : Mill :=
  let m1 := { m with cache := m.cache.map (patchLine a bs) }
  if hint == 3 then m1 else touchLines m1 hint (linesOf a bs.length)
/-- Apply a store of a core at its home: the bytes, and the lines of the storing mill's cache when it hits. -/
def storeHome (s : State) (c : Nat) (l : Loc) (bs : List Byte) (hint : Nat) : State :=
  let s1 := writeAt s (coreDie c) l bs
  if l.sp == .hbm && c != mgmtCore && !bs.isEmpty then
    let m := s1.mill (coreMill c)
    if m.cache.isEmpty then s1 else s1.setMill (coreMill c) (cacheStore m l.addr bs hint)
  else s1

/-! ### Atomics at memory -/

/-- NewValue of ATOM (R254): w is the width in bits. -/
def atomNew (fn w : Nat) (unsigned : Bool) (old y z : Nat) : Nat :=
  let less := if unsigned then decide (y < old) else decide (sint w y < sint w old)
  match fn with
  | 0 => y
  | 1 => (old + y) % 2 ^ w
  | 2 => old &&& y
  | 3 => old ||| y
  | 4 => old ^^^ y
  | 5 => if less then y else old
  | 6 => if less || old == y then old else y
  | _ => if old == y then z else old

/-- The floating format of a lane type (R176). -/
def ltFmt : Nat → Fmt
  | 1 => .fp32 | 2 => .bf16 | 3 => .fp16 | 6 => .e4m3 | _ => .e5m2

/-- One lane of ACCV (R256): lane type, operation, memory value, source. -/
def accvLane (lt sub m x : Nat) : Nat :=
  let w := ltWidth lt
  if ltInt lt then
    match sub with
    | 0 => (m + x) % 2 ^ w
    | 1 => if sint w x < sint w m then x else m
    | 2 => if sint w m < sint w x then x else m
    | 3 => Nat.min m x
    | _ => Nat.max m x
  else
    match sub with
    | 0 => (roundFp (ltFmt lt) .rne 0 (Fp.add false ((ltFmt lt).decode m) ((ltFmt lt).decode x)).1).1
    | 1 => fpMinMax (ltFmt lt) false m x
    | _ => fpMinMax (ltFmt lt) true m x

/-- ACCV's update of its 256 bytes (R256); act tells the active lanes. -/
def accvUpdate (lt sub : Nat) (act : Nat → Bool) (mem val : Vec) : Vec :=
  let w := ltWidth lt
  ofLanes w (2048 / w) fun i => if act i then accvLane lt sub (lane mem w i) (lane val w i) else lane mem w i

/-- Perform ACCV at the home; a cached line it hits is invalidated (R86). DEDUCED: where a line is poisoned nothing is written, as ATOM
writes nothing, and POISON is offered to the strand (R255, R381; log entry 105). -/
def performAccv (s : State) (c : Nat) (by_ : Issuer) (l : Loc) (lt sub : Nat) (mask val : Vec) : State :=
  match s.firstPoison l 256 with
  | some q => { s with offers := s.offers ++ [{ by_ := by_, code := cPoison, info := lineInfo q, flags := 0, slot := 2 }] }
  | none =>
  let old : Vec := BitVec.ofNat 2048 (leNat (s.bytesAt l 256))
  let new := accvUpdate lt sub (fun i => mask.getLsbD (ltWidth lt * i)) old val
  let s1 := writeAt s (coreDie c) l (natLE 256 new.toNat)
  if l.sp == .hbm then dropLines s1 (coreMill c) fun x => x.line == l.addr / 128 || x.line == l.addr / 128 + 1 else s1

end Sys2Proof.Machine
end

