-- ==== Sys2Proof/Machine/Tiles.lean ====
section
/-! DEFINITION. Tiles (R89 to R91), the checks of M operations (R267, R268, R272 to R276), and what each tile operation computes
(R271 to R278, R243). -/

namespace Sys2Proof.Machine

/-! ### Tile geometry (R89 to R91) -/

/-- A descriptor's fields with BASE and SCL stepped, in units of 128 bytes (R89, R146). rows and cols are the counts. -/
structure Tile where
  ef : Nat
  ax : Nat
  rows : Nat
  cols : Nat
  pitch : Nat
  base : Int
  scl : Int
  deriving DecidableEq, Repr

/-- The tile of a descriptor, stepped by a sticky offset. -/
def tileOf (w : Word) (off : Int) : Tile :=
  let d := w.toNat
  let ef := bits d 46 44
  { ef := ef, ax := bits d 47 47, rows := bits d 33 25 + 1, cols := bits d 43 34 + 1, pitch := bits d 24 16,
    base := (bits d 15 0 : Int) + off, scl := (bits d 63 48 : Int) + (if ef ≤ 2 then off else 0) }

/-- The descriptor of a stepped tile whose fields are in range. -/
def stepDesc (w : Word) (off : Int) : Word :=
  let t := tileOf w off
  BitVec.ofNat 64 (t.scl.toNat * 2 ^ 48 + bits w.toNat 47 16 * 2 ^ 16 + t.base.toNat)

/-- An MX format (R89). -/
def Tile.mx (t : Tile) : Bool := decide (t.ef ≤ 2)
/-- The bits of one element (R90, R176). -/
def efBits : Nat → Nat
  | 0 => 8 | 1 => 6 | 2 => 4 | 3 => 8 | 4 => 8 | 5 => 16 | 6 => 16 | _ => 32
/-- The block format of an EF (R176). -/
def efMx : Nat → Mx
  | 0 => .mx8 | 1 => .mx6 | _ => .mx4
/-- The floating format of an EF (R176). -/
def efFmt : Nat → Fmt
  | 3 => .e4m3 | 4 => .e5m2 | 5 => .bf16 | 6 => .fp16 | _ => .fp32

/-- The row bytes (R90). -/
def Tile.rowBytes (t : Tile) : Nat := t.cols * efBits t.ef / 8
/-- The first byte, as a LOCAL offset. -/
def Tile.start (t : Tile) : Nat := t.base.toNat * 128
/-- The length from the first byte to the last, padding between rows included (R80). -/
def Tile.span (t : Tile) : Nat := (t.rows - 1) * t.pitch * 128 + t.rowBytes
/-- The blocks along a row, and along a column (R91). -/
def Tile.blocksC (t : Tile) : Nat := ceilDiv t.cols 32
def Tile.blocksR (t : Tile) : Nat := ceilDiv t.rows 32
/-- The bytes of the scale strip (R91). -/
def Tile.stripLen (t : Tile) : Nat := if t.mx then (if t.ax == 0 then t.rows * t.blocksC else t.blocksR * t.cols) else 0
/-- The first byte of the strip, as a LOCAL offset. -/
def Tile.stripAt (t : Tile) : Nat := t.scl.toNat * 128

/-- The row ranges of a tile, one range when the rows are contiguous. -/
def Tile.rowRanges (t : Tile) : List (Nat × Nat) :=
  if t.pitch * 128 == t.rowBytes then [(t.start, t.rows * t.rowBytes)]
  else (List.range t.rows).map fun i => (t.start + i * t.pitch * 128, t.rowBytes)
/-- The strip's range. -/
def Tile.stripRange (t : Tile) : List (Nat × Nat) := if t.mx then [(t.stripAt, t.stripLen)] else []
/-- Every byte range of a tile with its strip. -/
def Tile.ranges (t : Tile) : List (Nat × Nat) := t.rowRanges ++ t.stripRange
/-- The accesses that R80 and R82 check: the extent and the strip. -/
def Tile.accesses (t : Tile) : List (Nat × Nat) := (t.start, t.span) :: t.stripRange

/-- Two lists of ranges share a byte. -/
def rangesMeet (xs ys : List (Nat × Nat)) : Bool := xs.any fun x => ys.any fun y => overlaps x.1 x.2 y.1 y.2
/-- Two tiles share a byte. -/
def Tile.meets (t u : Tile) : Bool := rangesMeet t.ranges u.ranges
/-- Two tiles are byte for byte the same range, strips included (R268). -/
def Tile.same (t u : Tile) : Bool := t.rowRanges == u.rowRanges && t.stripRange == u.stripRange

/-- A stepped tile or strip leaves the LOCAL window (R267, step 2). -/
def Tile.outside (t : Tile) : Bool :=
  decide (t.base < 0) || decide (2 ^ 23 < t.start + t.span) ||
  (t.mx && (decide (t.scl < 0) || decide (2 ^ 23 < t.stripAt + t.stripLen)))

/-- TDEF's test of a descriptor (R90). -/
def tdefBad (w : Word) : Bool :=
  let t := tileOf w 0
  t.pitch == 0 || decide (t.pitch * 128 < t.rowBytes) || (t.ef == 1 && t.cols % 4 != 0) || (t.ef == 2 && t.cols % 2 != 0) || t.outside

/-! ### Reading and writing tiles -/

/-- The w-bit fields of a little-endian bit string (R64, R91). -/
def fieldsOf (w n : Nat) (bs : List Byte) : List Nat :=
  let x := leNat bs
  (List.range n).map fun j => (x >>> (w * j)) % 2 ^ w
/-- The bytes of a list of w-bit fields. -/
def bytesOfFields (w : Nat) (xs : List Nat) : List Byte :=
  natLE (xs.length * w / 8) (xs.foldr (fun q acc => q % 2 ^ w + acc * 2 ^ w) 0)

/-- The codes of a tile's row in a mill's banks. -/
def tileRow (s : State) (mill : Nat) (t : Tile) (i : Nat) : List Nat :=
  fieldsOf (efBits t.ef) t.cols (s.bytesAt (bankLoc mill (t.start + i * t.pitch * 128)) t.rowBytes)
/-- The codes of a tile by rows. -/
def tileRows (s : State) (mill : Nat) (t : Tile) : List (List Nat) := (List.range t.rows).map (tileRow s mill t)
/-- The bytes of a tile's strip. -/
def tileStrip (s : State) (mill : Nat) (t : Tile) : List Byte := s.bytesAt (bankLoc mill t.stripAt) t.stripLen

/-- Write rows of codes; row padding is never written (R274). -/
def writeRows (s : State) (mill : Nat) (t : Tile) : Nat → List (List Nat) → State
  | _, [] => s
  | i, r :: rs => writeRows (s.putBytes (bankLoc mill (t.start + i * t.pitch * 128)) (bytesOfFields (efBits t.ef) r)) mill t (i + 1) rs
/-- Write a tile and its strip. -/
def writeTile (s : State) (mill : Nat) (t : Tile) (rows : List (List Nat)) (strip : List Byte) : State :=
  let s1 := writeRows s mill t 0 rows
  if t.mx then s1.putBytes (bankLoc mill t.stripAt) strip else s1

/-- The scale of element (i, j) in a strip (R91). -/
def scaleOf (t : Tile) (strip : List Byte) (i j : Nat) : Nat :=
  (strip.getD (if t.ax == 0 then i * t.blocksC + j / 32 else i / 32 * t.cols + j) 0).toNat

/-- Rows and columns exchanged; n is the number of columns. -/
def transposeL {α : Type} (dflt : α) (n : Nat) (rows : List (List α)) : List (List α) :=
  (List.range n).map fun j => rows.map fun r => r.getD j dflt
/-- Split a list into runs of k; fuel bounds the runs. -/
def chunksOf {α : Type} (k : Nat) : Nat → List α → List (List α)
  | 0, _ => []
  | fuel + 1, xs => if xs.isEmpty then [] else xs.take k :: chunksOf k fuel (xs.drop k)

/-- The exact value of a code (R53, R63). -/
def efValue (ef c code : Nat) : Fp :=
  if ef ≤ 2 then mxValue (efMx ef) c (sint (efBits ef) code) else (efFmt ef).decode code

/-! ### Checks (R267, R268) -/

/-- The array path of an EF: 0 the 8-bit, 1 the 4-bit, 2 the 16-bit path, none for FP32 (R272). -/
def pathOf (ef : Nat) : Option Nat :=
  if ef == 2 then some 1 else if ef == 5 || ef == 6 then some 2 else if ef == 7 then none else some 0
/-- K and N of a path (R272). -/
def pathK : Nat → Nat
  | 0 => 128 | 1 => 512 | _ => 64
def pathN : Nat → Nat
  | 2 => 64 | _ => 128

/-- The format checks of an M instruction (R272 to R276); tr and fn are its fields. -/
def mFormatOk (opc fn : Nat) (tr : Bool) (td ta tb : Tile) : Bool :=
  match opc with
  | 1 => tb.ef != 7 && (!tb.mx || tb.ax == (if tr then 0 else 1)) && (fn == 0 || decide (tb.ef ≤ 1))
  | 2 => td.ef == 7 && (!ta.mx || ta.ax == 0) && (fn == 0 || decide (ta.ef ≤ 1))
  | 3 => td.ef == ta.ef
  | 4 => !td.mx && !ta.mx
  | 5 => !td.mx && !ta.mx && !tb.mx
  | 6 => !td.mx
  | 8 => td.ef == ta.ef && (!td.mx || td.ax == ta.ax)
  | 9 => (ta.ef == 5 || ta.ef == 7) && (tb.ef == 0 || decide (5 ≤ tb.ef)) && td.ef == 7
  | 10 => !ta.mx && td.mx
  | _ => true

/-- Equal rows and columns (R274). -/
def sameShape (t u : Tile) : Bool := t.rows == u.rows && t.cols == u.cols

/-- The shape relations of an M instruction (R272 to R276). -/
def mShapeOk (opc : Nat) (tr : Bool) (td ta tb : Tile) : Bool :=
  match opc with
  | 1 =>
    match pathOf tb.ef with
    | some p => if tr then tb.rows == pathN p && tb.cols == pathK p else tb.rows == pathK p && tb.cols == pathN p
    | none => false
  | 2 => td.rows == ta.rows
  | 3 => td.rows == ta.cols && td.cols == ta.rows && (!td.mx || td.ax == 1 - ta.ax)
  | 5 => sameShape td ta && sameShape td tb
  | 7 => true
  | 9 =>
    decide (ta.rows ≤ 8) && tb.rows == ta.cols && td.rows == ta.rows && td.cols == tb.cols && tb.pitch % 16 == 0
  | _ => sameShape td ta

/-- The overlap rules between an operation's own tiles (R268). -/
def mOverlapOk (opc : Nat) (td ta tb : Tile) : Bool :=
  match opc with
  | 2 | 3 | 6 | 10 | 9 => !td.meets ta
  | 4 | 8 => td.same ta || !td.meets ta
  | 5 => (td.same ta || !td.meets ta) && (td.same tb || !td.meets tb)
  | _ => true

/-- Which operands an opcode uses: TD, TA, TB (R266). -/
def mUses : Nat → Bool × Bool × Bool
  | 1 => (false, false, true)
  | 5 | 9 => (true, true, true)
  | 7 => (true, false, false)
  | _ => (true, true, false)

/-- The LOCAL tiles of an operation: its destination first; TB of MVS is a template (R276). -/
def mLocals (opc : Nat) (td ta tb : Tile) : List Tile :=
  let u := mUses opc
  (if u.1 then [td] else []) ++ (if u.2.1 then [ta] else []) ++ (if u.2.2 && opc != 9 then [tb] else [])

/-- The LOCAL address of an offset. -/
def localVa (off : Nat) : Nat := localBase + off

/-- The first access of a list that fails a test. -/
def firstBad (ok : Nat × Nat → Bool) (xs : List (Nat × Nat)) : Option Nat := (xs.find? fun x => !ok x).map (·.1)

/-! ### The tiles of an operation after issue -/

/-- The tiles of an operation. -/
def MOp.dT (m : MOp) : Tile := tileOf m.td.desc 0
def MOp.aT (m : MOp) : Tile := tileOf m.ta.desc 0
def MOp.bT (m : MOp) : Tile := tileOf m.tb.desc 0
/-- SEAL or OPEN (R243). -/
def MOp.isSeal (m : MOp) : Bool := decide (16 ≤ m.opc)
/-- The tag of SEAL and OPEN: 16 bytes from this LOCAL offset (R243). -/
def Tile.tagAt (t : Tile) : Nat := t.start + t.rows * t.pitch * 128
/-- The bytes an operation writes (R142). -/
def MOp.writes (m : MOp) : List (Nat × Nat) :=
  if m.isSeal then m.dT.ranges ++ [(m.dT.tagAt, 16)] else if m.opc == 1 then [] else m.dT.ranges
/-- The bytes an operation reads (R142, R152): MMA and MVS read their destination. -/
def MOp.reads (m : MOp) : List (Nat × Nat) :=
  if m.isSeal then m.writes
  else
    let u := mUses m.opc
    (if m.opc == 2 || m.opc == 9 then m.dT.ranges else []) ++ (if u.2.1 then m.aT.ranges else []) ++
    (if u.2.2 && m.opc != 9 then m.bT.ranges else [])

/-- The LOCAL bytes whose form a SEAL or OPEN in flight on a core is changing. -/
def sealing (x : Core) : List (Nat × Nat) := ((x.tiles.filter MOp.isSeal).map MOp.writes).flatten
/-- Ciphertext stands in the way of an access of a core (R246, R267). Bytes that a SEAL or OPEN of the core still works on are checked after
the hold of R142, not before. -/
def formBlocks (s : State) (c : Nat) (l : Loc) (n : Nat) : Bool :=
  s.anyForm l n && !(l.sp == .bank && rangesMeet [(l.addr % 2 ^ 23, n)] (sealing (s.core c)))

/-! ### The checks of R267 -/

/-- The checks of R267 on a core: the fault and its FAULTINFO, or none. FAULTINFO is the address of the tile or strip that fails,
0 where no address is at fault (log entry 22). clash tells that the operation breaks R268 against others of its instance, det that RM is
STO without a claim under DET. -/
def mCheck (s : State) (c opc fn : Nat) (tr : Bool) (td ta tb : Tile) (clash det : Bool) : Option (Nat × Nat) :=
  let tiles := mLocals opc td ta tb
  let acc := (tiles.map Tile.accesses).flatten
  let core := s.core c
  let mill := coreMill c
  if !mFormatOk opc fn tr td ta tb then some (cFormat, 0)
  else if !mShapeOk opc tr td ta tb || tiles.any Tile.outside || !mOverlapOk opc td ta tb || clash then some (cTileShape, 0)
  else
    match firstBad (fun x => rolesAdmit (s.mill mill).bankrole .tile x.1 x.2) acc with
    | some a => some (cAccess, localVa a)
    | none =>
      match (if core.live.priv_ == 0 then firstBad (fun x => inBounds core.lbound x.1 x.2) acc else none) with
      | some a => some (cBound, localVa a)
      | none =>
        match firstBad (fun x => !formBlocks s c (bankLoc mill x.1) x.2) ((tiles.map Tile.ranges).flatten) with
        | some a => some (cForm, localVa a)
        | none => if det then some (cDetViolation, 0) else none

/-! ### What the edge units compute (R274, R275) -/

/-- A matrix of results with the status bits ORed. -/
def mapRows (f : Nat → Nat → Nat → Nat × Nat) (rows : List (List Nat)) : List (List Nat) × Nat :=
  let out := rows.zipIdx.map fun r => r.1.zipIdx.map fun x => f r.2 x.2 x.1
  (out.map fun r => r.map (·.1), out.foldl (fun acc r => r.foldl (fun a x => a ||| x.2) acc) 0)

/-- The draw of element (i, j) (R269). -/
def tileDraw (w : Word) (i j : Nat) : Nat := drawU w (i * 65536 + j)

/-- Round an exact value into an EF. -/
def roundEf (ef : Nat) (rm : RMode) (u : Nat) (x : Fp) : Nat × Nat := roundFp (efFmt ef) rm u x

/-- The operand that .max and .min choose (R56). -/
def fpChoose (isMax : Bool) (x y : Fp) : Fp :=
  if x == .nan then y else if y == .nan then x
  else if isMax then (if Fp.below x y then y else x) else (if Fp.below y x then y else x)

/-- MSCL on one element (R274); f is the factor. -/
def msclElem (ef efd : Nat) (f : Fp) (se : Int) (rm : RMode) (u code : Nat) : Nat × Nat :=
  let p := Fp.mul ((efFmt ef).decode code) f
  let r := roundEf efd rm u (p.1.scale se)
  (r.1, p.2 ||| r.2)

/-- MADD on one element (R274). -/
def maddElem (efa efb efd fn : Nat) (rm : RMode) (u x y : Nat) : Nat × Nat :=
  let a := (efFmt efa).decode x
  let b := (efFmt efb).decode y
  if fn ≤ 1 then
    let p := Fp.add (rm == .rdn) a (if fn == 1 then b.neg else b)
    let r := roundEf efd rm u p.1
    (r.1, p.2 ||| r.2)
  else roundEf efd rm u (fpChoose (fn == 2) a b)

/-- MCVT on one element (R274). -/
def mcvtElem (t : Tile) (strip : List Byte) (efd : Nat) (rm : RMode) (i j u code : Nat) : Nat × Nat :=
  if t.mx then roundEf efd rm u (efValue t.ef (scaleOf t strip i j) code)
  else fpConvert (efFmt t.ef) (efFmt efd) rm u code

/-- Quantise one run of up to 32 values (R275): the scale, then the codes with status. us gives each element's draw. -/
def mqntBlock (m : Mx) (rm : RMode) (xs : List (Fp × Nat)) : Nat × List (Nat × Nat) :=
  let c := scaleRoundUp m (xs.map (·.1) ++ List.replicate (32 - xs.length) Fp.zero)
  (c, xs.map fun x => let r := mxEncode m c rm x.2 x.1; (islice m.width r.1, r.2))

/-- Quantise a list of lines, each cut into blocks: codes by line, scales by line, status. -/
def mqntLines (m : Mx) (rm : RMode) (lines : List (List (Fp × Nat))) : List (List Nat) × List (List Nat) × Nat :=
  let out := lines.map fun l => (chunksOf 32 l.length l).map (mqntBlock m rm)
  (out.map fun l => (l.map fun b => b.2.map (·.1)).flatten, out.map fun l => l.map (·.1),
   out.foldl (fun acc l => l.foldl (fun a b => b.2.foldl (fun z e => z ||| e.2) a) acc) 0)

/-! ### The arrays (R271 to R273) -/

/-- The blocks along K of a line of codes, with the scale of each block (R68, R69). -/
def lineBlocks (ef : Nat) (codes : List Nat) (scale : Nat → Nat) : List ABlock :=
  (chunksOf 32 codes.length codes).zipIdx.map fun b =>
    if ef ≤ 2 then mxBlock (efMx ef) (scale b.2) (b.1.map (sint (efBits ef))) else alignBlock (efFmt ef) b.1

/-- Byte b of a scale register. -/
def kByte (k : Word) (b : Nat) : Nat := bits k.toNat (8 * b + 7) (8 * b)

/-- The columns of a B set as blocks (R272): B(k, n) is element (k, n) of its source, or (n, k) with .t. -/
def bColumns (b : BSet) : List (List ABlock) :=
  let t := tileOf b.desc 0
  let rows := (chunksOf t.rowBytes t.rows b.codes).map (fieldsOf (efBits t.ef) t.cols)
  let lines := if b.tr then rows else transposeL 0 t.cols rows
  lines.zipIdx.map fun l => lineBlocks t.ef l.1 fun blk =>
    match b.kb with
    | some k => kByte k blk
    | none => if b.tr then scaleOf t b.scales l.2 (32 * blk) else scaleOf t b.scales (32 * blk) l.2

/-- Every rounded accumulator value of one element passes the test of R300. -/
def foldPass (s : Int) (acc : Nat) : Bool :=
  match Fmt.fp32.decode acc with
  | .fin _ n d =>
    n == 0 ||
      (let lo := scaleUp 1 1 (-126 + max 0 s)
       let hi := scaleUp 1 1 (128 + min 0 s)
       decide (lo.1 * d ≤ n * lo.2) && decide (n * hi.2 < hi.1 * d))
  | _ => false

/-- One element under FOLD (R300): the accumulation, and whether every value passed. -/
def foldBlocks (se s : Int) (acc : Nat) : List ABlock → List ABlock → Nat × Nat × Bool
  | a :: as, b :: bs =>
    let r := accStep se acc a b
    let t := foldBlocks se s r.1 as bs
    (t.1, r.2 ||| t.2.1, foldPass s r.1 && t.2.2)
  | _, _ => (acc, 0, true)

/-- One element of MMA (R273, R300). -/
def mmaElem (m : MOp) (acc : Nat) (a b : List ABlock) : Nat × Nat :=
  match m.fold with
  | none => accBlocks m.se acc a b
  | some s =>
    let r := foldBlocks m.se s acc a b
    if r.2.2 then (r.1, r.2.1)
    else
      let o := accBlocks (m.se - s) 0 a b
      let e := msclElem 7 7 (.fin false 1 1) s .rne 0 o.1
      (e.1, o.2 ||| e.2)

/-- MMA: the new rows of TD and the status bits (R273). -/
def mmaRows (m : MOp) (set_ : BSet) (ta : Tile) (astrip : List Byte) (arows drows : List (List Nat)) : List (List Nat) × Nat :=
  let cols := bColumns set_
  let out := (List.zip arows drows).zipIdx.map fun r =>
    let a := lineBlocks ta.ef r.1.1 fun blk => if m.fn == 1 then kByte m.ka blk else scaleOf ta astrip r.2 (32 * blk)
    (List.zip r.1.2 cols).map fun x => mmaElem m x.1 a x.2
  (out.map fun r => r.map (·.1), out.foldl (fun acc r => r.foldl (fun z x => z ||| x.2) acc) 0)

/-! ### The stack MV unit (R276 to R278) -/

/-- The length of B's extent with its scales (R276); t is the template. -/
def mvsExtent (t : Tile) : Nat :=
  (if t.ef == 0 then t.rows * t.pitch * 128 + t.blocksR * t.cols else (t.rows - 1) * t.pitch * 128 + t.rowBytes)

/-- The sum of R277 for one element: values of X's row and B's column in ascending k, each step fused. -/
def mvsSum (acc : Nat) : List Fp → List Fp → Nat × Nat
  | x :: xs, b :: bs =>
    let p := Fp.fma false x b (Fmt.fp32.decode acc)
    let r := roundFp .fp32 .rne 0 p.1
    let t := mvsSum r.1 xs bs
    (t.1, ((p.2 ||| r.2) % 4) ||| t.2)
  | _, _ => (acc, 0)

/-- The values of B by columns (R276), from the bytes of its extent. -/
def mvsColumns (t : Tile) (bs : List Byte) : List (List Fp) :=
  let rows := (List.range t.rows).map fun k => fieldsOf (efBits t.ef) t.cols ((bs.drop (k * t.pitch * 128)).take t.rowBytes)
  let scales := bs.drop (t.rows * t.pitch * 128)
  let vals := rows.zipIdx.map fun r => r.1.zipIdx.map fun x =>
    efValue t.ef ((scales.getD (r.2 / 32 * t.cols + x.2) 0).toNat) x.1
  transposeL Fp.zero t.cols vals

/-- The bytes of B: the pieces of its extent by physical page (R276). -/
def mvsBytes (s : State) (m : MOp) : List Byte :=
  ((List.zip m.bphys (pageCuts (mvsExtent m.bT / 4096 + 2) m.baddr (mvsExtent m.bT))).map fun x => s.bytesAt ⟨.hbm, x.1⟩ x.2.2).flatten

/-! ### Results -/

/-- The rounding factor of MSCL: 1, or the FP32 in the low half of SR (R274). -/
def msclFactor (sr : Option Nat) : Fp :=
  match sr with
  | none => .fin false 1 1
  | some x => Fmt.fp32.decode (x % 2 ^ 32)

/-- What an array or edge-unit operation writes, with its status bits (R272 to R277): the state with TD written. -/
def runTile (s : State) (c : Nat) (m : MOp) : State × Nat :=
  let mill := coreMill c
  let td := m.dT
  let ta := m.aT
  let tb := m.bT
  let rm := RMode.ofCode m.rm
  match m.opc with
  | 1 =>
    let x := s.mill mill
    let set_ : BSet := { loaded := true, desc := m.tb.desc, tr := m.tr, kb := if m.fn == 1 then some m.kb else none,
                         codes := ((List.range tb.rows).map fun i =>
                           s.bytesAt (bankLoc mill (tb.start + i * tb.pitch * 128)) tb.rowBytes).flatten,
                         scales := tileStrip s mill tb }
    (s.setMill mill { x with bsets := tput {} x.bsets (2 * (m.slot - 4) + m.set_) set_ }, 0)
  | 2 =>
    let set_ := tget {} (s.mill mill).bsets (2 * (m.slot - 4) + m.set_)
    let r := mmaRows m set_ ta (tileStrip s mill ta) (tileRows s mill ta) (tileRows s mill td)
    (writeTile s mill td r.1 [], r.2)
  | 3 =>
    let scales := if ta.ax == 0 then chunksOf ta.blocksC ta.rows (tileStrip s mill ta) else chunksOf ta.cols ta.blocksR (tileStrip s mill ta)
    (writeTile s mill td (transposeL 0 ta.cols (tileRows s mill ta))
      (transposeL 0 (if ta.ax == 0 then ta.blocksC else ta.cols) scales).flatten, 0)
  | 4 =>
    let r := mapRows (fun i j x => msclElem ta.ef td.ef (msclFactor m.sr) m.se rm (tileDraw m.rnd i j) x) (tileRows s mill ta)
    (writeTile s mill td r.1 [], r.2)
  | 5 =>
    let brows := tileRows s mill tb
    let r := mapRows (fun i j x => maddElem ta.ef tb.ef td.ef m.fn rm (tileDraw m.rnd i j) x ((brows.getD i []).getD j 0)) (tileRows s mill ta)
    (writeTile s mill td r.1 [], r.2)
  | 6 =>
    let strip := tileStrip s mill ta
    let r := mapRows (fun i j x => mcvtElem ta strip td.ef rm i j (tileDraw m.rnd i j) x) (tileRows s mill ta)
    (writeTile s mill td r.1 [], r.2)
  | 7 => (writeTile s mill td (List.replicate td.rows (List.replicate td.cols 0)) (zeros td.stripLen), 0)
  | 8 => (writeTile s mill td (tileRows s mill ta) (tileStrip s mill ta), 0)
  | 9 =>
    let cols := mvsColumns tb (mvsBytes s m)
    let out := (List.zip (tileRows s mill ta) (tileRows s mill td)).map fun r =>
      (List.zip r.2 cols).map fun x => mvsSum x.1 (r.1.map (efFmt ta.ef).decode) x.2
    (writeTile s mill td (out.map fun r => r.map (·.1)) [], out.foldl (fun acc r => r.foldl (fun z x => z ||| x.2) acc) 0)
  | 10 =>
    let vals := (tileRows s mill ta).zipIdx.map fun r => r.1.zipIdx.map fun x => ((efFmt ta.ef).decode x.1, tileDraw m.rnd r.2 x.2)
    let mxf := efMx td.ef
    if td.ax == 0 then
      let q := mqntLines mxf rm vals
      (writeTile s mill td q.1 (q.2.1.flatten.map (BitVec.ofNat 8)), q.2.2)
    else
      let q := mqntLines mxf rm (transposeL (Fp.zero, 0) td.cols vals)
      (writeTile s mill td (transposeL 0 td.rows q.1) ((transposeL 0 td.blocksR q.2.1).flatten.map (BitVec.ofNat 8)), q.2.2)
  | _ => (s, 0)

/-! ### SEAL and OPEN (R243) -/

/-- The lines of the bytes that SEAL and OPEN work on. -/
def sealLines (m : MOp) : List Nat :=
  (m.writes.map fun x => (List.range ((x.1 + x.2 - 1) / 128 + 1 - x.1 / 128)).map fun i => x.1 / 128 + i).flatten
/-- Set the form bits of those lines. -/
def sealForm (s : State) (mill : Nat) (m : MOp) (b : Bool) : State :=
  (sealLines m).foldl (fun t l => t.setForm (bankLoc mill (l * 128)) b) s
/-- The text of the tile: row bytes without padding, then the strip (R243). -/
def sealText (s : State) (mill : Nat) (m : MOp) : List Byte :=
  (m.dT.ranges.map fun x => s.bytesAt (bankLoc mill x.1) x.2).flatten
/-- Write the text back over the ranges. -/
def putRanges (s : State) (mill : Nat) : List (Nat × Nat) → List Byte → State
  | [], _ => s
  | x :: xs, bs => putRanges (s.putBytes (bankLoc mill x.1) (bs.take x.2)) mill xs (bs.drop x.2)
/-- The additional data: the descriptor with BASE and SCL zero (R243). -/
def sealAad (m : MOp) : List Byte := natLE 8 (bits m.td.desc.toNat 47 16 * 2 ^ 16)
/-- The IV (R243). -/
def sealIv (m : MOp) : List Byte := natLE 8 m.iv.toNat ++ zeros 4
/-- The key: the first 256 bits of the slot (R339). -/
def keyOf (s : State) (slot : Nat) : List Byte := ((tget [] s.keys slot) ++ zeros 64).take 32

/-- SEAL or OPEN as it runs: the new state, or none when FORM arises (R244). -/
def runSeal (s : State) (c : Nat) (m : MOp) : Option State :=
  let mill := coreMill c
  let key := keyOf s m.key
  let tag := bankLoc mill m.dT.tagAt
  if m.opc == 16 then
    if (sealLines m).any fun l => s.form (bankLoc mill (l * 128)) then none
    else
      let r := gcmSeal key (sealIv m) (sealAad m) (sealText s mill m)
      some (sealForm ((putRanges s mill m.dT.ranges r.1).putBytes tag r.2) mill m true)
  else if (sealLines m).any fun l => !s.form (bankLoc mill (l * 128)) then none
  else
    match gcmOpen key (sealIv m) (sealAad m) (sealText s mill m) (s.bytesAt tag 16) with
    | none => none
    | some pt => some (sealForm ((putRanges s mill m.dT.ranges pt).putBytes tag (zeros 16)) mill m false)

end Sys2Proof.Machine
end

