-- ==== Sys2Proof/Machine/Flight.lean ====
section
/-! DEFINITION. Tile operations in flight: what holds a dispatch (R142, R163, R271, R273, R291), the checks at dispatch (R271, R291), and an
operation's start. -/

namespace Sys2Proof.Machine

/-- The core of a mill, 0 or 1. -/
def coreSide (c : Nat) : Nat := c % 2
/-- The cores that drive an array. -/
def millCores (mill : Nat) : List Nat := [2 * mill, 2 * mill + 1]
/-- The tile operations in flight on the cores of a mill. -/
def millTiles (s : State) (mill : Nat) : List MOp := ((millCores mill).map fun d => (s.core d).tiles).flatten

/-! ### B sets (R271) -/

/-- The B set an operation uses when it dispatches (R271). -/
def bSetOf (s : State) (c : Nat) (m : MOp) : Nat :=
  let x := s.mill (coreMill c)
  let p := tget 0 x.bptr (m.slot - 4)
  if x.millmode then coreSide c else if m.opc == 1 then 1 - p else p

/-- The source tile of a B set: of the last MLDB in flight to it, else of the set as loaded. -/
def bSetSource (s : State) (mill slot k : Nat) : Option Word :=
  match ((millTiles s mill).filter fun t => t.opc == 1 && t.slot == slot && t.set_ == k).getLast? with
  | some t => some t.tb.desc
  | none => let b := tget {} (s.mill mill).bsets (2 * (slot - 4) + k); if b.loaded then some b.desc else none

/-- The fault of an MMA's dispatch against the set it reads (R271, R273). -/
def mmaFault (s : State) (c : Nat) (m : MOp) : Option Nat :=
  match bSetSource s (coreMill c) m.slot (bSetOf s c m) with
  | none => some cFormat
  | some d =>
    match pathOf (tileOf d 0).ef with
    | none => some cFormat
    | some p =>
      firstFail [(pathOf m.aT.ef == some p, cFormat), (m.aT.cols == pathK p && m.dT.cols == pathN p, cTileShape)]

/-- The pieces of B as MVS reads them (R276): from the address va, at the places given for its pages. -/
def bPieces (va n : Nat) (phys : List Nat) : List Piece :=
  (List.zip phys (pageCuts (n / 4096 + 2) va n)).map fun x => ⟨⟨.hbm, x.1⟩, x.2.2⟩
/-- A line of an operation's tiles, or of the B extent of MVS, carries ciphertext (R291, R340): its address. -/
def mFormAt (s : State) (c : Nat) (m : MOp) : Option Nat :=
  if m.isSeal then none
  else
    match firstBad (fun x => !s.anyForm (bankLoc (coreMill c) x.1) x.2) (m.reads ++ m.writes) with
    | some x => some (localVa x)
    | none => if m.opc == 9 && (bPieces m.baddr (mvsExtent m.bT) m.bphys).any (fun p => s.anyForm p.loc p.len) then some m.baddr else none

/-! ### Holds (R142, R163, R271, R273) -/

/-- SEAL, OPEN and MVS do not pass through the window (R290): the bundle that carries one is held for it. -/
def MOp.direct (m : MOp) : Bool := m.isSeal || m.opc == 9

/-- An operation would touch bytes in a way that an operation in flight forbids (R142). -/
def busyFor (m t : MOp) : Bool := rangesMeet m.writes (t.reads ++ t.writes) || rangesMeet m.reads t.writes

/-- An MMA on the D tile of the previous MMA of its array (R273). -/
def chained (s : State) (c : Nat) (m t : MOp) : Bool :=
  m.opc == 2 && t.opc == 2 && t.slot == m.slot && t.seq == tget 0 (s.mill (coreMill c)).lastMma m.slot && m.dT.same t.dT

/-- R142, R271 and R291 hold the dispatch of an operation: busy bytes, a ninth operation, a B set that an MMA still streams from. -/
def dispatchHeld (s : State) (c : Nat) (m : MOp) : Bool :=
  let fl := (s.core c).tiles
  decide (8 ≤ fl.length) || (fl.any fun t => busyFor m t && !chained s c m t) ||
  (m.opc == 1 && (millTiles s (coreMill c)).any fun t => t.opc == 2 && t.slot == m.slot && t.set_ == bSetOf s c m)

/-- In ALTERNATE a core's M slots act in the cycles of its window (R163, R291). -/
def windowOpen (s : State) (c : Nat) : Bool := !(s.mill (coreMill c)).millmode || s.cycle % 8 / 4 == coreSide c

/-! ### Start -/

/-- An operation is in flight (R270): it takes the next number of its mill, and an MLDB turns its array's pointer (R271). -/
def startTile (s : State) (c : Nat) (m : MOp) : State :=
  let k := bSetOf s c m
  let x := s.mill (coreMill c)
  let n := x.tileSeq + 1
  let y := { x with
    tileSeq := n, lastMma := if m.opc == 2 then tput 0 x.lastMma m.slot n else x.lastMma,
    bptr := if m.opc == 1 && !x.millmode then tput 0 x.bptr (m.slot - 4) k else x.bptr }
  (((wakeMill s (coreMill c)).setMill (coreMill c) { y with idle := 0, idleAt := none }).onCore c fun z => { z with tiles := z.tiles ++ [{ m with set_ := k, seq := n }] }).push
    [if m.opc == 9 then .mvsComplete c else .tileOperationComplete c]

/-- Leave a fault of an operation for the strand's next bundle boundary (R291). -/
def addPending (s : State) (c : Nat) (m : MOp) (code info : Nat) : State :=
  (if m.opc == 9 then dropCmd s m.cmd else s).onCore c fun x =>
    { x with pending := x.pending ++ [{ code := code, info := info, pc := m.pc, slot := m.slot, rule := m.rule, inst := m.inst }] }

/-- The operations that follow the first replacement of a match go with it when it faults (R304). -/
def dropMatch (m : MOp) (ms : List MOp) : List MOp := if m.orig == 0 then ms else ms.dropWhile fun t => t.orig == 0

/-- Dispatch an operation that nothing holds (R271, R291, R329): the checks of dispatch are made; it starts, sets the read bits of what it
reads and counts the original operations it stands for (R151), or faults. -/
def startOp (s : State) (c : Nat) (m : MOp) : State :=
  match mFormAt s c m with
  | some a => (addPending s c m cForm a).onCore c fun x => { x with staged := dropMatch m x.staged }
  | none =>
    match (if m.opc == 2 then mmaFault s c m else none) with
    | some f => (addPending s c m f 0).onCore c fun x => { x with staged := dropMatch m x.staged }
    | none => (startTile (noteLocalReads s c m.reads) c m).onCore c fun x => { x with tileSkip := x.tileSkip + m.orig }

/-- The staged operations of a match whose first replacement has dispatched (R303). -/
def startedMatch (x : Core) : List MOp := x.staged.takeWhile fun m => m.orig == 0
/-- Dispatch operations of a begun match in order, each from the head of the staged ones, up to the first that R142 holds. -/
def startRest (s : State) (c : Nat) : List MOp → State
  | [] => s
  | m :: ms => if dispatchHeld s c m then s else startRest (startOp (s.onCore c fun x => { x with staged := x.staged.drop 1 }) c m) c ms
/-- Before a rollback the rest of a match that has begun is dispatched (R151, R303), as far as R142 lets it go. -/
def finishMatch (s : State) (c : Nat) : State := startRest s c (startedMatch (s.core c))
/-- R142 holds some of the rest of a match that has begun: a rollback of the core waits (R151, R303). -/
def begunHeld (s : State) (c : Nat) : Bool := !(startedMatch ((finishMatch s c).core c)).isEmpty

end Sys2Proof.Machine
end

