-- ==== Sys2Proof/Machine/Ops.lean ====
section
/-! DEFINITION. The shared operations over the whole machine: rolling a region back (R154), writing a fault record (R379), taking a
fault and offering it to containment (R39 to R44, R447), retiring strands and killing contexts (R40, R43), and the page-fault
holds (R374 to R376). Entering service code and returning from it stand beside them (R155, R207, R208). -/

namespace Sys2Proof.Machine

/-! ### Who is on which core -/

/-- The cores that hold strands of a job, in STRANDID order. -/
def State.jobCores (s : State) (id : Nat) : List Nat :=
  (s.job id).strands.filterMap fun x => match x with | .core c => some c | _ => none

/-- A strand at a core's place. -/
def StrandAt.done : StrandAt → Bool
  | .exited => true
  | .retired => true
  | _ => false

/-- The group of a strand, while it has joined and not left (R36). -/
def Job.groupOf (j : Job) (strand : Nat) : Option Group :=
  j.groups.find? fun g => g.roster.contains strand && !g.gone.contains strand
/-- The formed group of a strand. -/
def Job.memberOf (j : Job) (strand : Nat) : Option Group :=
  match j.groupOf strand with
  | some g => if g.formed then some g else none
  | none => none
/-- The group that the strand on a core is a member of. -/
def State.coreGroup (s : State) (c : Nat) : Option Group := (s.coreJob c).memberOf (s.core c).strand

/-- The resident members of a group, in STRANDID order (R36). -/
def State.membersOn (s : State) (id : Nat) (g : Group) : List Nat :=
  (s.jobCores id).filter fun d => g.roster.contains (s.core d).strand && !g.gone.contains (s.core d).strand

/-- The cores that issue together with a core: the whole LOCKSTEP group, or the core alone (R38). -/
def State.issueCores (s : State) (c : Nat) : List Nat :=
  match s.coreGroup c with
  | some g => if g.lockstep then s.membersOn ((s.core c).job.getD 0) g else [c]
  | none => [c]
/-- The lead of a LOCKSTEP group is the member at position 0 (R38). -/
def State.isFollower (s : State) (c : Nat) : Bool :=
  match s.coreGroup c with
  | some g => g.lockstep && g.roster.head? != some (s.core c).strand
  | none => false
/-- A member of a formed LOCKSTEP group (R38). -/
def State.inLockstep (s : State) (c : Nat) : Bool :=
  match s.coreGroup c with
  | some g => g.lockstep
  | none => false

/-- A strand leaves its group or withdraws its registration (R37, R43, R210); the group ends with its last member. -/
def leaveGroup (s : State) (id strand : Nat) : State :=
  let j := s.job id
  let out (g : Group) : Group :=
    if g.roster.contains strand && !g.gone.contains strand then
      (if g.formed then { g with gone := strand :: g.gone } else { g with roster := g.roster.filter (· != strand) })
    else g
  s.setJob id { j with groups := (j.groups.map out).filter fun g => decide (g.gone.length < g.roster.length) }

/-! ### Rolling back (R154) -/

/-- Undo what a buffered command reserved at issue: the launch ticket (R31), the held engine command (R280), the waiter reservation
(R134), the RNG claim (R77). -/
def undoCmd (s : State) (c : Nat) : BufCmd → State
  | .engine id => { s with engines := s.engines.filter fun e => e.id != id }
  | .launch rec _ =>
    let pid := (s.coreJob c).pid
    let p := s.part pid
    s.setPart pid (if recDepabs rec then { p with tickets := p.tickets - 1 } else { p.unreserve (recDeph rec) with tickets := p.tickets - 1 })
  | .watch w => s.setPart w.pid ((s.part w.pid).unreserve w.h)
  | .gen seed base len =>
    let pid := (s.coreJob c).pid
    let p := s.part pid
    s.setPart pid { p with claims := p.claims.erase ⟨seed, base, len, (s.core c).job.getD 0, some (s.core c).strand, false⟩ }
  | _ => s

/-- Discard the release buffer (R154, step 2). -/
def dropBuf (s : State) (c : Nat) : State :=
  let s1 := (s.core c).buf.foldl (fun t e => match e with | .cmd k => undoCmd t c k | _ => t) s
  s1.onCore c fun x => { x with buf := [], stale := if x.stale == 1 then 2 else x.stale }

/-- Restore the shadowed state and clear the region (R154, steps 3 and 4; R303): the tile skip count is kept, results of the region in
flight are discarded, results of earlier regions still land. -/
def Core.restore (x : Core) : Core :=
  { x with live := x.shadow, inflight := x.inflight.filter (·.older), readBits := [], tileDrop := x.tileSkip, window := [],
           staged := [], closing := none, owed := [], frozen := false, reexec := true, instCount := 0, loads := [] }

/-- Roll one core back to its last checkpoint (R154), once a match that has begun to dispatch is whole (R303). -/
def rollbackCore (s : State) (c : Nat) : State := (finishMatch (dropBuf s c) c).onCore c Core.restore

/-- Roll a core back, and with it every member of its LOCKSTEP group (R38). -/
def rollback (s : State) (c : Nat) : State := (s.issueCores c).foldl rollbackCore s

/-! ### Ends of strands and contexts -/

/-- Every strand of a job has ended, every engine command it issued has completed and what its cores released has been performed
(R30). -/
def jobDone (s : State) (id : Nat) : Bool :=
  let j := s.job id
  j.phase != .ended && j.dispatched && j.strands.all (·.done) && s.engines.all (fun e => e.job != id) &&
    j.savedCmds.isEmpty &&
    j.mills.all fun m => (millCores m).all fun c => (s.core c).drain.isEmpty && (s.core c).later.isEmpty && (s.core c).tiles.isEmpty

/-- Let a job complete when nothing of it is left (R30). -/
def tryComplete (s : State) (id : Nat) : State := if jobDone s id then s.push [.contextComplete id] else s

/-- Record where a strand of a job stands. -/
def setStrand (s : State) (id strand : Nat) (at_ : StrandAt) : State :=
  let j := s.job id
  s.setJob id { j with strands := setAt j.strands strand at_ }

/-- The core that a strand was on last (R379). -/
def noteLast (s : State) (id strand c : Nat) : State :=
  let j := s.job id
  s.setJob id { j with lastCore := tput 0 j.lastCore strand c }

/-! ### The watchdog's count (R364) -/

/-- A strand of the context waits for the host's page response. -/
def awaitsPage (s : State) (id : Nat) : Bool :=
  (s.jobCores id).any fun c => match (s.core c).hold with | some (.pageHost _) => true | _ => false
/-- The watchdog counts: the context is resident and not halted, and none of its strands awaits a page response. -/
def watchCounts (s : State) (id : Nat) : Bool :=
  let j := s.job id
  recWdog j.record != 0 && j.phase == .running && j.image.isNone && !j.halted && !awaitsPage s id
/-- Bring a context's watchdog count up to now, before what decides whether it counts changes. -/
def noteWatch (s : State) (id : Nat) : State :=
  let j := s.job id
  if recWdog j.record == 0 then s
  else s.setJob id { j with wdogNs := if watchCounts s id then j.wdogNs + (s.fabricTime - j.wdogAt) else j.wdogNs, wdogAt := s.fabricTime }

/-- A fault of a tile operation that still waited for the boundary of a strand which has ended: it is offered from the context level (R39,
R303). -/
def PendingFault.offer (p : PendingFault) (by_ : Issuer) : Offer :=
  { by_ := by_, code := p.code, info := p.info, flags := p.flags, slot := p.slot, rule := p.rule, epc := p.pc, inst := p.inst }

/-- A strand leaves its core at its end (R43, R201): its buffer is discarded, its FLAG waiters are removed, its core becomes idle, and
what it released goes on draining; faults that waited for its boundary are offered. -/
def endStrand (s : State) (c : Nat) (at_ : StrandAt) : State :=
  let x := s.core c
  match x.job with
  | none => s
  | some id =>
    let s0 := noteWatch s id
    let s1 := noteLast (leaveGroup (removeStrandWaiters (setStrand (dropBuf s0 c) id x.strand at_) id x.strand) id x.strand) id x.strand c
    let s2 := s1.setCore c { drain := x.drain, drainBy := x.drainBy, later := x.later, tiles := x.tiles, tlb := x.tlb }
    tryComplete { s2 with runQueue := s2.runQueue.filter (· != c), offers := s2.offers ++ x.pending.map (·.offer ⟨id, x.strand⟩) } id

/-- Retire the strand on a core; with the lead of a LOCKSTEP group every member is retired (R43). -/
def retireCore (s : State) (c : Nat) : State :=
  (if s.isFollower c then [c] else s.issueCores c).foldl (fun t d => endStrand t d .retired) s

/-- The engine commands that were queued in a context's saved image go to their engines: what was released runs to completion (R43). -/
def runSaved (s : State) (id : Nat) : State :=
  let j := s.job id
  if j.savedCmds.isEmpty then s
  else ({ s.setJob id { j with savedCmds := [] } with engines := s.engines ++ j.savedCmds } : State).push (j.savedCmds.map engineEvent)

/-- Retire a strand of a switched-out context (R447). With its last strand the commands of its image run (R43): nothing restores it. -/
def retireSaved (s : State) (id strand : Nat) : State :=
  let s1 := setStrand s id strand .retired
  let j := s1.job id
  let s2 := leaveGroup (removeStrandWaiters (s1.setJob id { j with kept := tdel j.kept strand }) id strand) id strand
  tryComplete (if (s2.job id).strands.all (·.done) then runSaved s2 id else s2) id

/-- Where the host is lost no response comes: a killed context's commands that are stalled at its pages end without an add (R383). -/
def stopHostless (s : State) (id : Nat) : State :=
  let atHost (e : ECmd) : Bool := e.job == id && (match e.stage with | .stalledAts _ | .stalledHost _ _ => true | _ => false)
  if s.hostLost.contains (s.job id).pid && s.engines.any atHost then
    retryEngines { s with engines := s.engines.filter fun e => !atHost e }
  else s

/-- Add to a field of the partition record (R382). -/
def recordAdd (s : State) (pid off n amount : Nat) : State :=
  let p := s.part pid
  let r := if p.record.isEmpty then zeros 512 else p.record
  s.setPart pid { p with record := setLE r off n (fieldLE r off n + amount) }
/-- Set a field of the partition record. -/
def recordSet (s : State) (pid off n v : Nat) : State :=
  let p := s.part pid
  let r := if p.record.isEmpty then zeros 512 else p.record
  s.setPart pid { p with record := setLE r off n v }
/-- A context is suspended by host loss and has not been killed (R383). -/
def Job.suspendedNow (j : Job) : Bool := j.phase == .suspended && j.outcome == 2
/-- The partition record counts the contexts that are suspended (R382). -/
def noteSuspended (s : State) (pid : Nat) : State := recordSet s pid 34 2 ((s.jobsOf pid).filter (·.suspendedNow)).length

/-- Retire every strand of a context and record its outcome (R40): 3 KILLED, 4 DOUBLE_FAULT, with the fault's code. What
its strands released before runs to completion, the commands that were queued in its saved image too (R43). -/
def killJob (s : State) (id outcome code : Nat) : State :=
  let j := s.job id
  if j.phase == .ended || !j.dispatched then s
  else
    let s1 := s.setJob id { j with outcome := if j.outcome == 2 then outcome else j.outcome, fcode := if j.outcome == 2 then code else j.fcode }
    let s2 := (s1.jobCores id).foldl (fun t c => endStrand t c .retired) s1
    let j2 := s2.job id
    let s3 := s2.setJob id
      { j2 with
        strands := j2.strands.map fun x => if x == .saved then .retired else x, kept := [], keptWaiters := [] }
    let s4 := if j.phase == .suspended then noteSuspended s3 j.pid else s3
    tryComplete (stopHostless (runSaved { s4 with waiters := s4.waiters.filter (notOfJob id) } id) id) id

/-- A double fault kills the context (R380): its entry in the partition record, then the kill. -/
def doubleFault (s : State) (id code : Nat) : State :=
  let j := s.job id
  let p := s.part j.pid
  let count := fieldLE (if p.record.isEmpty then zeros 512 else p.record) 33 1
  let s1 := recordSet (recordSet (recordSet s j.pid 28 4 j.ctxid) j.pid 32 1 code) j.pid 33 1 (Nat.min 255 (count + 1))
  killJob s1 id 4 code

/-! ### The stopped controller (R432, R437) -/

/-- An ERROR response (R438). -/
def spdmError (code : Nat) : List Byte := natLE 1 0x12 ++ natLE 1 0x7F ++ natLE 1 code ++ natLE 1 0
/-- The mailbox itself answers the SPDM requests that it holds with an ERROR (R432, R437). -/
def errorWaiting (s : State) (code : Nat) : State :=
  let n := (if s.mgmt.rxready then 1 else 0) + (if s.mgmt.rxsecond.isSome then 1 else 0)
  { s with mgmt := { s.mgmt with rxbuf := [], rxready := false, rxsecond := none },
           outputs := s.outputs ++ List.replicate n (.doe (spdmError code)) }

/-! ### Fault records (R379) -/

/-- Where an occurrence arose: its code, FAULTINFO, SLOT, instance count, record flags, bundle address and dressing rule;
of a PAGE_HOST also the host page. -/
structure FaultAt where
  code : Nat
  info : Nat := 0
  slot : Nat := 9
  inst : Nat := 0
  flags : Nat := 0
  epc : Word := 0
  rule : Option Nat := none
  page : Nat := 0
  deriving DecidableEq, Repr

/-- The record of an occurrence (R379). The die of the space's ring writes it, so its TIME is that die's copy (R397, log entry 125). -/
def faultRecord (s : State) (f : FaultAt) (id strand core retry priv level action : Nat) (ckpt : Word) (lost : Bool) : List Byte :=
  let p := s.part (s.job id).pid
  natLE 1 f.code ++
  natLE 1 ((if f.rule.isSome then 1 else 0) ||| f.flags ||| (if lost then 4 else 0) ||| (if action == 1 then 32 else 0)) ++
  natLE 1 level ++ natLE 1 action ++ natLE 1 (f.rule.getD 0) ++ natLE 1 f.slot ++ natLE 1 retry ++ natLE 1 priv ++
  natLE 4 (s.job id).ctxid ++ natLE 2 strand ++ natLE 2 core ++ natLE 8 f.epc.toNat ++ natLE 8 ckpt.toNat ++ natLE 8 f.info ++
  natLE 8 (s.dieTime (homeDie (spaceFrbase (tget [] p.spaces (s.job id).aspace)))) ++ natLE 8 f.inst ++ zeros 8

/-- Write a record to the ring of the job's space and add 1 to FRCTR (R379): false when its line cannot be written (R380). -/
def writeRecord (s : State) (id : Nat) (rec : Bool → List Byte) : State × Bool :=
  let j := s.job id
  let p := s.part j.pid
  let d := tget [] p.spaces j.aspace
  let size := 2 ^ spaceFrlog d
  let k := tget 0 p.fring j.aspace
  if decide (size ≤ (s.ctr (spaceFrctr d) - s.ctr (spaceFrack d)).toNat) then
    let s1 := recordAdd s j.pid 16 8 1
    let p1 := s1.part j.pid
    (s1.setPart j.pid { p1 with lost := if p1.lost.contains j.aspace then p1.lost else j.aspace :: p1.lost }, true)
  else
    let a := spaceFrbase d + 64 * (k % size)
    let loc : Loc := ⟨.hbm, a⟩
    if s.form loc || s.poisoned loc then (s, false)
    else
      let s1 := writeAt s (homeDie a) loc (rec (p.lost.contains j.aspace))
      let p1 := s1.part j.pid
      let s2 := s1.setPart j.pid { p1 with fring := tput 0 p1.fring j.aspace (k + 1), lost := p1.lost.filter (· != j.aspace) }
      let s3 := tickClock (applyAdd s2 (spaceFrctr d) 1) (homeDie a)
      (if s3.offers.isEmpty then s3 else s3.push [.counterUpdate (spaceFrctr d) 0 ⟨id, 0⟩], true)

/-! ### Offering a fault (R39 to R44, R447) -/

/-- How an occurrence meets the policies: kill turns IGNORE and RETRY into KILL_SELF at the context level (R44, R334); fetch cannot be
masked (R167); engine faults take no rollback (R447); full is a full mask set (R41); retries is RETRYCNT. -/
structure Course where
  kill : Bool := false
  fetch : Bool := false
  engine : Bool := false
  full : Bool := false
  retries : Nat := 0
  deriving DecidableEq, Repr

/-- The first level whose policy absorbs an occurrence, and the policy applied there (R40, R41): levels and policies from the first
offered up. Above the partition no level is left, and the occurrence acts as KILL_SELF there (R40, R349). -/
def resolve (c : Course) : List (Nat × Nat) → Nat × Nat
  | [] => (3, 3)
  | (lvl, pol) :: rest =>
    if pol == 1 then
      (if (c.kill && lvl == 2) || c.fetch then (lvl, 3)
       else if c.engine || !c.full then (lvl, 1)
       else resolve c rest)
    else if pol == 2 then
      (if c.kill && lvl == 2 then (lvl, 3)
       else if c.engine || decide (c.retries < Config.retryLimit) then (lvl, 2)
       else resolve c rest)
    else if pol == 3 || pol == 4 then (lvl, pol)
    else resolve c rest

/-- The context and partition levels of a job. -/
def upperLevels (s : State) (id : Nat) : List (Nat × Nat) :=
  [(2, recPolicy (s.job id).record / 64 % 8), (3, (s.part (s.job id).pid).policy)]

/-- The levels a fault of a strand is offered to (R39): in a LOCKSTEP group the strand level is skipped. -/
def strandLevels (s : State) (id strand : Nat) : List (Nat × Nat) :=
  let own := [(0, recPolicy (s.job id).record % 8)]
  (match (s.job id).memberOf strand with
   | some g => (if g.lockstep then [] else own) ++ [(1, g.policy)]
   | none => own) ++ upperLevels s id
/-- The levels of the strand on a core. -/
def coreLevels (s : State) (c : Nat) : List (Nat × Nat) := strandLevels s ((s.core c).job.getD 0) (s.core c).strand

/-- Kill every running context of a partition, and the faulting one (R40, R349). -/
def killPartition (s : State) (id code : Nat) : State :=
  let pid := (s.job id).pid
  let ids := (s.jobs.filter fun e => e.2.pid == pid && (e.2.phase == .running || e.1 == id) && e.2.phase != .ended).map (·.1)
  ids.foldl (fun t i => killJob t i 3 code) (recordAdd s pid 24 4 ids.length)

/-- Kill a context, and the context that launched it (R40, KILL_PARENT at the context level). -/
def killParent (s : State) (id code : Nat) : State :=
  let s1 := killJob s id 3 code
  if (s.part (s.job id).pid).flag 0 then
    match (s.job id).parent with
    | some p => killJob s1 p 3 code
    | none => s1
  else s1

/-- Retire a strand wherever it is (R40). -/
def retireStrand (s : State) (id strand : Nat) : State :=
  match s.strandCore id strand with
  | some c => retireCore s c
  | none => if (s.job id).strands[strand]? == some .saved then retireSaved s id strand else s
/-- Retire a group and all its members (R40). -/
def killGroup (s : State) (id : Nat) (g : Group) : State :=
  (g.roster.filter fun x => !g.gone.contains x).foldl (fun t x => retireStrand t id x) s

/-- The retirements of R40 for a strand: at its level, or one level up under KILL_PARENT. -/
def killAt (s : State) (id strand level action code : Nat) : State :=
  let g := (s.job id).memberOf strand
  match level, action == 4, g with
  | 0, false, _ => retireStrand s id strand
  | 0, true, some g => killGroup s id g
  | 0, true, none => killJob s id 3 code
  | 1, false, some g => killGroup s id g
  | 1, _, _ => killJob s id 3 code
  | 2, up, _ => if up then killParent s id code else killJob s id 3 code
  | _, _, _ => killPartition s id code

/-- Set STATUS.FAULT_IGNORED in both copies (R40): it is sticky until a CSRW (R41). -/
def Core.setIgnored (x : Core) : Core := x.onBoth fun a => a.orStatus stIgnored

/-- Apply the action of the absorbing level to a strand that has been rolled back (R40 to R42). DESIGN CHOICE: of a LOCKSTEP group, which
rolls back as a whole, the faulting member alone counts the retry (log entry 99). -/
def applyAction (s : State) (c : Nat) (f : FaultAt) (level action : Nat) : State :=
  if action == 1 then s.onCore c fun x => { x.setIgnored with masks := x.masks ++ [(f.inst, f.slot)] }
  else if action == 2 then s.onCore c fun x => { x with retrycnt := x.retrycnt + 1 }
  else killAt s ((s.core c).job.getD 0) (s.core c).strand level action f.code

/-- Offer an occurrence on a core to containment: the record, then the action (R40, R379, R380). -/
def offerOnCore (s : State) (c : Nat) (f : FaultAt) (co : Course) (levels : List (Nat × Nat)) : State :=
  let x := s.core c
  let id := x.job.getD 0
  let r := resolve { co with full := decide (Config.maskLimit ≤ x.masks.length), retries := x.retrycnt.toNat } levels
  let w := writeRecord s id fun lost =>
    faultRecord s f id x.strand c x.retrycnt.toNat (x.live.priv_ % 2) r.1 r.2 x.ckptPc lost
  let s1 := if f.code == cPoison then recordAdd w.1 (s.job id).pid 8 8 1 else w.1
  if w.2 then (if (s1.core c).job == some id then applyAction s1 c f r.1 r.2 else s1) else doubleFault s1 id f.code

/-- Write ECAUSE, FAULTINFO and EPC of a fault (R154, step 5); CKPTPC holds the region's first bundle. -/
def Core.saveFault (x : Core) (f : FaultAt) : Core :=
  { x with ecause := BitVec.ofNat 64 f.code, faultinfo := BitVec.ofNat 64 f.info, epc := f.epc }

/-- Hold a rolled-back strand on a page (R374, R376), keeping the fault for a refusal. -/
def holdOnPage (s : State) (c : Nat) (f : FaultAt) (h : Hold) : State :=
  let s1 := (noteWatch s ((s.core c).job.getD 0)).onCore c fun x =>
    { x with hold := some h, idle := 0,
             pageFault := some { code := f.code, info := f.info, pc := f.epc, slot := f.slot, inst := f.inst, flags := f.flags } }
  match h with
  | .pageHost page =>
    let j := s1.coreJob c
    requestPage (dropAts s1 (coreDie c) j.pid j.aspace page) (coreDie c) j.pid j.aspace page
  | _ => s1

/-- TAKING A FAULT on a core (R154, R44, R334): the region rolls back and the saved registers are written; then a page fault holds the
strand, and any other fault is offered to containment. A fault in SERVICE, and SEGMENT_AUTH, are offered from the context level. A
fault of the management controller stops it (R432). -/
def takeFault (s : State) (c : Nat) (f : FaultAt) (fetch : Bool) : State :=
  let svc := (s.core c).live.priv_ == 1
  let id := (s.core c).job.getD 0
  let s1 := (rollback s c).onCore c (·.saveFault f)
  if c == mgmtCore then errorWaiting (s1.onCore c fun x => { x with stopped := true }) 0x05
  else if fetch && svc && isSvc (s.corePart c) f.epc.toNat then doubleFault s1 id f.code
  else if f.code == cPageDevice then holdOnPage s1 c f (.pageDevice f.info)
  else if f.code == cPageHost then holdOnPage s1 c f (.pageHost f.page)
  else if svc || f.code == cSegmentAuth || f.code == cWatchdog then
    offerOnCore s1 c f { kill := true, fetch := fetch } (upperLevels s1 id)
  else offerOnCore s1 c f { fetch := fetch } (coreLevels s1 c)

/-- A strand is held at a page no more: its core, mill and die are awake (R365, R366). -/
def releasePage (s : State) (c : Nat) : State :=
  wakeCore ((noteWatch s ((s.core c).job.getD 0)).onCore c fun x => { x with hold := none, pageFault := none }) c
/-- A page fault that was refused is offered from the strand level (R374, R376). -/
def offerPage (s : State) (c : Nat) (f : PendingFault) : State :=
  let g : FaultAt := { code := f.code, info := f.info, slot := f.slot, inst := f.inst, flags := f.flags, epc := f.pc, rule := f.rule }
  let s1 := releasePage s c
  offerOnCore s1 c g { fetch := f.slot == 9 } (coreLevels s1 c)

/-- A fault of an agent acting for a strand, after release (R447): IGNORE and RETRY only set FAULT_IGNORED; a strand that has ended is
passed over, and the fault is offered from the context level (R39). No context has the number 0: what is of none is the management
controller's, and stops it (R432). -/
def offerEngine (s : State) (o : Offer) : State :=
  let id := o.by_.ctx
  let st := o.by_.strand
  let j := s.job id
  if id == 0 then takeFault s mgmtCore { code := o.code, info := o.info, slot := o.slot, epc := (s.core mgmtCore).live.pc } false
  else if j.phase == .ended || !j.dispatched then (if o.add then recordAdd s j.pid 36 4 1 else s)
  else
    let f : FaultAt :=
      { code := o.code, info := o.info, slot := o.slot, flags := if o.slot == 8 then o.flags ||| 2 else o.flags, rule := o.rule, epc := o.epc,
        inst := o.inst }
    match s.strandCore id st with
    | some c =>
      let x := s.core c
      let r := resolve { engine := true } (coreLevels s c)
      let w := writeRecord s id fun lost =>
        faultRecord s { f with epc := x.live.pc } id st c x.retrycnt.toNat (x.live.priv_ % 2) r.1 r.2 x.ckptPc lost
      let s1 := if o.code == cPoison then recordAdd w.1 j.pid 8 8 1 else w.1
      if !w.2 then doubleFault s1 id o.code
      else if decide (r.2 < 3) then s1.onCore c Core.setIgnored
      else killAt s1 id st r.1 r.2 o.code
    | none =>
      let saved := j.strands[st]? == some .saved
      let x := tget {} j.kept st
      let r := resolve { engine := true } (if saved then strandLevels s id st else upperLevels s id)
      let w := writeRecord s id fun lost =>
        faultRecord s (if saved then { f with epc := x.live.pc } else f) id st (tget 0 j.lastCore st) x.retrycnt.toNat (x.live.priv_ % 2) r.1 r.2
          x.ckptPc lost
      let s1 := if o.code == cPoison then recordAdd w.1 j.pid 8 8 1 else w.1
      if !w.2 then doubleFault s1 id o.code
      else if decide (r.2 < 3) then
        (if saved then onStrand s1 id st Core.setIgnored
        else s1)
      else killAt s1 id st r.1 r.2 o.code

/-! ### Invalidations that wait (R373, R377) -/

/-- A core still holds accesses that began with an invalidated translation. -/
def Core.holdsStale (x : Core) : Bool := x.stale == 1 || (x.stale == 2 && !(x.drain.isEmpty && x.later.isEmpty))
/-- Every access that began with the entries of an invalidation has been performed. -/
def Inval.settled (k : Inval) (s : State) : Bool :=
  (k.cores.all fun c => !(s.core c).holdsStale) && k.cmds.all fun id => s.engines.all fun e => e.id != id
/-- A request has an invalidation whose accesses have all been performed. -/
def State.invalReady (s : State) (ask : Instr) : Bool := s.mgmt.invals.any fun k => k.ask == ask && k.settled s
/-- Invalidations whose accesses have all been performed are asked for again, and now complete. -/
def askInvals (s : State) : State :=
  if s.mgmt.invals.isEmpty then s
  else s.push ((s.mgmt.invals.filter fun k => k.settled s && !s.agenda.contains k.ask).map (·.ask))

/-- Offer every fault that agents have left; a meaning that ends applies this (R121, R131, R447). -/
def offerAll (s : State) : State := askInvals (s.offers.foldl offerEngine { s with offers := [] })

/-! ### Service code (R155, R207, R208) -/

/-- Set STATUS.PRIV (R205). -/
def Arch.setPriv (a : Arch) (p : Nat) : Arch :=
  { a with status := (a.status &&& ~~~(0xC000 : Word)) ||| BitVec.ofNat 64 (p * 2 ^ 14) }

/-- Enter SERVICE at SVCVEC; the management controller stays at FIRM (R331). EPC holds the address after the SVC, ECAUSE and FAULTINFO the cause
(R155, R207). -/
def enterService (s : State) (c : Nat) (after : Word) (imm : Nat) : State :=
  s.onCore c fun x =>
    { x with epc := after, ecause := BitVec.ofNat 64 cSvc, faultinfo := BitVec.ofNat 64 imm,
             live := { (if c == mgmtCore then x.live else x.live.setPriv 1) with pc := x.svcvec } }

/-- Return from SERVICE to EPC at the strand's earlier privilege (R155, R208). PC is a multiple of 4 (R167): the low two bits of an EPC
that service code wrote are dropped (log entry 98). -/
def leaveService (s : State) (c : Nat) : State :=
  s.onCore c fun x => { x with live := { x.live.setPriv 0 with pc := x.epc &&& ~~~(3 : Word) } }

end Sys2Proof.Machine
end

