-- ==== Sys2Proof/Machine/Firmware.lean ====
section
/-! DEFINITION. Firmware images (R422, R423), measurement registers (R424), starting images (R425, R418), the ends of a live activation
(R426, R427) and the re-measurement records (R429). -/

namespace Sys2Proof.Machine

/-! ### Images (R422, R423) -/

def imgMagic (h : List Byte) : Nat := fieldLE h 0 4
def imgKind (h : List Byte) : Nat := fieldLE h 6 1
def imgVer (h : List Byte) : Nat := fieldLE h 8 4
def imgSvn (h : List Byte) : Nat := fieldLE h 12 4
def imgHver (h : List Byte) : Nat := fieldLE h 16 2
def imgCompat (h : List Byte) (i : Nat) : Nat := fieldLE h (32 + 2 * i) 2
def imgCodelen (h : List Byte) : Nat := fieldLE h 48 4
def imgDatalen (h : List Byte) : Nat := fieldLE h 52 4
def imgEntry (h : List Byte) : Nat := fieldLE h 56 4
/-- The body: code and then data. -/
def imgBody (h : List Byte) : List Byte := (h.drop 512).take (imgCodelen h + imgDatalen h)
/-- The digest D. -/
def imgDigest (h : List Byte) : List Byte := sha384 (h.take 256 ++ imgBody h)
/-- The public key and the signature. -/
def imgPubkey (h : List Byte) : List Byte := (h.drop 64).take 97
def imgSig (h : List Byte) : List Byte := (h.drop 256).take 96

/-- Reserved bytes [b : a] of a header are zero. -/
def reservedZero (h : List Byte) (a b : Nat) : Bool := allZero ((h.take (b + 1)).drop a)

/-- An image is well formed and signed by the key whose hash is given (R422, R423). -/
def imgSigned (h keyHash : List Byte) : Bool :=
  decide (512 ≤ h.length) && imgMagic h == 0x4D524946 && fieldLE h 4 2 == 1 && reservedZero h 7 7 && reservedZero h 18 31 &&
  reservedZero h 60 63 && reservedZero h 161 255 && reservedZero h 352 511 && h.length == 512 + imgCodelen h + imgDatalen h &&
  sha384 (imgPubkey h) == keyHash && ecdsaVerify (imgPubkey h) (imgDigest h) (imgSig h)

/-- An image of a kind is accepted (R423). -/
def imgAccepted (s : State) (kind : Nat) (h : List Byte) : Bool :=
  imgKind h == kind && imgSigned h (Config.fusedKeyHash kind) && decide (tget 0 s.mgmt.svnFloor kind ≤ imgSvn h)

/-! ### Measurement (R424) -/

/-- A measurement register. -/
def measOf (s : State) (n : Nat) : List Byte := tget (zeros 48) s.mgmt.meas n
/-- Extend a register's value (R424). -/
def extend (v d : List Byte) : List Byte := sha384 (v ++ d)
/-- Extend a measurement register. -/
def measExtend (s : State) (n : Nat) (d : List Byte) : State :=
  { s with mgmt := { s.mgmt with meas := tput (zeros 48) s.mgmt.meas n (extend (measOf s n) d) } }

/-! ### Starting images (R418, R425) -/

/-- A result lands in a leat core (R404, R405, R411): in a register, on a result port, or in DMEM. -/
def Leat.land (x : Leat) : LeatResult → Leat
  | .reg c v => if c == 0 then x else if c < 64 then { x with b := tput 0 x.b c v }
    else { x with q := if v.getLsbD 0 then x.q ||| BitVec.ofNat 4 (2 ^ (c - 64)) else x.q &&& ~~~(BitVec.ofNat 4 (2 ^ (c - 64))) }
  | .port c v => { x with result := tput 0 x.result c v }
  | .pop a bs => { x with dmem := x.dmem.store a bs }
/-- A cycle passes: what is due lands. -/
def Leat.tick (x : Leat) : Leat :=
  (x.flight.filter fun f => f.left ≤ 1).foldl (fun y f => y.land f.res)
    { x with flight := (x.flight.filter fun f => 1 < f.left).map fun (f : LeatLanding) => { f with left := f.left - 1 } }
/-- Everything in flight lands (R407). -/
def Leat.settle (x : Leat) : Leat := x.flight.foldl (fun y f => y.land f.res) { x with flight := [] }

/-- Start or stop a leat core (R418). -/
def lctlWrite (s : State) (n val : Nat) : State :=
  let l := s.leat n
  if val % 2 == 1 then
    if l.halted then
      { s.setLeat n { l with b := [], q := 0, operand := [], result := [], flight := [], stack := [], pc := 0, target := none, run := true,
                             halted := false, fcode := 0, fpc := 0, timers := [], tmrx := 0 } with
        runQueue := s.runQueue.filter (· != 1000 + n) ++ [1000 + n] }
    else s
  else if l.halted then s
  else { s.setLeat n { l.settle with run := false, halted := true, fcode := 0, fpc := 0 } with runQueue := s.runQueue.filter (· != 1000 + n) }
/-- What LCTL reads (R418). -/
def lctlRead (s : State) (n : Nat) : Nat :=
  let l := s.leat n
  l.fpc * 2 ^ 48 + l.fcode * 2 ^ 16 + (if l.halted then 2 else 0) + (if l.run then 1 else 0)

/-- Every leat core of the package. -/
def allLeats : List Nat := List.range 24
/-- Load the fabric image into a halted leat core and start it (R425): code into IMEM, data into DMEM. -/
def startLeat (img : List Byte) (s : State) (n : Nat) : State :=
  let l := s.leat n
  let body := imgBody img
  lctlWrite (s.setLeat n { l with imem := Memory.store [] 0 (body.take (imgCodelen img)), dmem := Memory.store [] 0 (body.drop (imgCodelen img)),
                                  halted := true, run := false }) n 1
/-- Every leat core halts (R427). -/
def haltLeats (s : State) : State := allLeats.foldl (fun t n => lctlWrite t n 0) s

/-- A connection entry that is not CLOSED uses a port. -/
def portBusy (s : State) (port : Nat) : Bool := s.parts.any fun p => p.2.conns.any fun c => c.2.port == port && connState c.2.entry != 0
/-- The association that the firmware makes active at its n-th occasion (R395): a newer one takes its key and starts to number, and the one
before it is accepted until the first frame under the newer; the rekey mark is the firmware's. -/
def Mac.installed (m : Mac) (port n : Nat) : Mac :=
  let an := Config.macActive port n % 4
  if m.on && m.tx == an then { m with on := Config.macOn port n, mark := Config.rekeyMark port n }
  else
    { m with on := Config.macOn port n, tx := an, rx := an, old := if m.on then some m.rx else none, pn := tput 0 m.pn an 0,
             keys := tins m.keys an (Config.macKey port n), mark := Config.rekeyMark port n }
/-- The fabric firmware sets up a port (R21, R394, R395, R398): its MACsec association, key and mark; and while no connection uses it, how it is
split, its path table, and long-haul mode, which one port of a die may have (R20). The spec gives no order of Adesal for this (log entry 107). -/
def setUpPort (s : State) (port : Nat) : State :=
  let p := s.port port
  let n := p.turns
  let q : Port := { p with mac := p.mac.installed port n, turns := n + 1 }
  let other := (List.range 6).any fun k => port / 6 * 6 + k != port && (s.port (port / 6 * 6 + k)).longHaul
  let far := Config.longHaul port n && !other
  s.setPort port
    (if portBusy s port then q
     else
      { q with split := Config.portSplit port n % 3, longHaul := far, buffer := if far then 2 ^ 24 * (1 + Config.retryUnits port n % 8) else 0,
               bufferAt := if far then Config.retryArea port n else 0, paths := (List.range 16).map fun i => (i, Config.pathEntry port n i) })
/-- The fabric firmware has an occasion to set a port up: it does so or leaves the port as it is (log entry 107). -/
def firmwareTurn (s : State) (port : Nat) : State :=
  let p := s.port port
  if Config.setsPort port p.turns then setUpPort s port else s.setPort port { p with turns := p.turns + 1 }

/-- CERTLEN (R433). -/
def certLen : Nat := Nat.min 4088 Config.certificateChain.length
/-- The slot-0 chain as CERT holds it (R433). -/
def chainBytes : List Byte := Config.certificateChain.take certLen
/-- Start the image of a kind (R425): the management firmware in MCRAM, whose responder has context 3 absorb the chain (R438), the fabric firmware on
the leat cores, the scheduler firmware on the eight scheduler cores, whose acts are the events of the scheduler: the spec gives their code no place in
memory (log entry 106). There is nothing to start where no image runs, and a stopped controller stays stopped until package reset (R432). block is the
address of the hand-over block that the image is started with, if there is one (R426, R428). -/
def startImage (s : State) (kind : Nat) (img : List Byte) (block : Option Nat) : State :=
  let s1 := { s with mgmt := { s.mgmt with bootBits := s.mgmt.bootBits ||| 2 ^ (kind - 1), handed := tput none s.mgmt.handed kind block } }
  if img.isEmpty then s
  else if kind == 1 && (s.core mgmtCore).stopped then s1
  else if kind == 1 then
    { s1.setCore mgmtCore { live := { pc := BitVec.ofNat 64 (imgEntry img) }, shadow := { pc := BitVec.ofNat 64 (imgEntry img) },
                            ckptPc := BitVec.ofNat 64 (imgEntry img), codelen := 2 ^ 20 } with
      mgmt := { s1.mgmt with ptpPort := some (Config.ptpPort % 48), hash := tput [] s1.mgmt.hash 3 chainBytes },
      mcram := Memory.store [] 0 ((imgBody img).take (2 ^ 20)), runQueue := s1.runQueue.filter (· != mgmtCore) ++ [mgmtCore] }
  else if kind == 3 then (List.range 48).foldl setUpPort (allLeats.foldl (startLeat img) s1)
  else (List.range 8).foldl (fun t d => t.setCore (schedCore d) { live := { pc := BitVec.ofNat 64 (imgEntry img) } }) s1

/-- Stop the image of a kind (R426): its core stops, its leat cores halt, or its scheduler cores hold no program. -/
def stopImage (s : State) (kind : Nat) : State :=
  if kind == 1 then { s with runQueue := s.runQueue.filter (· != mgmtCore) }
  else if kind == 3 then haltLeats s
  else (List.range 8).foldl (fun t d => t.setCore (schedCore d) {}) s

/-! ### The ends of an activation (R426, R429) -/

/-- Append a record to a partition's measurement-event list (R429). The message carries the vector that the host has set by then, a free
value: no request of the spec sets it (log entry 78). -/
def appendEvent (s : State) (pid : Nat) (rec : List Byte) : State :=
  let p := s.part pid
  let full := decide (16 ≤ p.events.length)
  let vec := Config.eventVector pid s.mgmt.act.seq
  let s1 := s.setPart pid
    { p with events := (if full then p.events.drop 1 else p.events) ++ [rec], eventsLost := p.eventsLost + (if full then 1 else 0), eventVec := vec }
  match vec with
  | some v => s1.emit (.msix (if p.flag 6 then 1 else 0) v)
  | none => s1

/-- Append a record to the list of every partition that is CONFIGURED or ACTIVE. -/
def recordEvents (s : State) (status : Nat) : State :=
  let a := s.mgmt.act
  let img := tget [] s.mgmt.running a.kind
  let rec_ := natLE 2 status ++ natLE 1 0x41 ++ natLE 1 a.kind ++ natLE 4 (imgVer img) ++ natLE 8 a.seq ++ natLE 8 (s.dieTime 0) ++
    natLE 4 (imgSvn img) ++ natLE 1 (a.kind + 1) ++ zeros 3
  (s.parts.filter fun e => e.2.st == .configured || e.2.st == .active).foldl (fun t e => appendEvent t e.1 rec_) s

/-- COMMIT (R426): the pending register becomes live, and the image goes into the flash slot that is not committed. -/
def commitAct (s : State) : State :=
  let a := s.mgmt.act
  let slot := 1 - tget 0 s.mgmt.committed a.kind
  let m := { s.mgmt with
    meas := tput (zeros 48) s.mgmt.meas a.kind a.pendingMeas, running := tput [] s.mgmt.running a.kind a.image, flash := tput [] s.mgmt.flash (2 * a.kind + slot) a.image,
    committed := tput 0 s.mgmt.committed a.kind slot, commitKinds := a.kind :: s.mgmt.commitKinds.filter (· != a.kind),
    act := { a with state := 0, result := 1, seq := a.seq + 1, pendingMeas := [], block := none, image := [] } }
  recordEvents { s with mgmt := m } 0

/-- FALLBACK begins (R426): the new image stops. What ends it is the event that moves an activation on. -/
def enterFallback (s : State) : State :=
  let t := stopImage s s.mgmt.act.kind
  ({ t with mgmt := { t.mgmt with act := { t.mgmt.act with state := 8 } } } : State).push [.activationHandover]
/-- FALLBACK ends (R426): the old image starts again from its retained block, and the pending register is discarded. -/
def fallbackAct (s : State) : State :=
  let a := s.mgmt.act
  let old := tget [] s.mgmt.running a.kind
  let s2 := startImage s a.kind old a.block
  let m := { s2.mgmt with
    bootBits := if old.isEmpty then s2.mgmt.bootBits &&& (7 ^^^ 2 ^ (a.kind - 1)) else s2.mgmt.bootBits,
    busyUntilPoll := s2.mgmt.busyUntilPoll && a.kind == 1,
    act := { a with state := 0, result := 2, seq := a.seq + 1, pendingMeas := [], block := none, image := [] } }
  recordEvents { s2 with mgmt := m } 1

/-- The firmware of a kind has stopped deciding (R427): from FREEZE to the start of RESUME, and while FALLBACK restarts the old image. -/
def State.actPaused (s : State) (kind : Nat) : Bool :=
  s.mgmt.act.kind == kind && (s.mgmt.act.state == 3 || s.mgmt.act.state == 4 || s.mgmt.act.state == 8)
/-- Scheduler decisions are paused (R427). -/
def State.schedPaused (s : State) : Bool := s.actPaused 2
/-- The leat cores stay halted (R427). -/
def State.fabricPaused (s : State) : Bool := s.actPaused 3
/-- Management requests wait (R427). -/
def State.mgmtPaused (s : State) : Bool := s.actPaused 1
/-- A decision of the scheduler waits for RESUME (R427). -/
def State.defer (s : State) (w : Work) : State :=
  { s with mgmt := { s.mgmt with act := { s.mgmt.act with deferred := s.mgmt.act.deferred ++ [w] } } }
/-- The same, of an event that is enabled until it is done: it waits once. -/
def State.deferOnce (s : State) (i : Instr) : State := if s.mgmt.act.deferred.contains (.event i) then s else s.defer (.event i)

/-- The time in ns since STAGE, FREEZE or RESUME began (R426). -/
def State.actTime (s : State) : Nat := s.fabricTime - s.mgmt.act.since
/-- The three heartbeats fall within this time of RESUME (R426). -/
def heartbeatNs : Nat := 50000000
/-- A heartbeat (R426): a write of HBCNT + 1; with the third, within 50 ms of RESUME, COMMIT begins. -/
def heartbeatWrite (s : State) (v : Nat) : State :=
  let a := s.mgmt.act
  if v != (a.hbcnt + 1) % 4 || v == 0 then s
  else
    let s1 := { s with mgmt := { s.mgmt with act := { a with hbcnt := v } } }
    if a.state == 6 && v == 3 && decide (s.actTime ≤ heartbeatNs) then
      ({ s1 with mgmt := { s1.mgmt with act := { s1.mgmt.act with state := 7 } } } : State).push [.activationHandover]
    else s1

end Sys2Proof.Machine
end

