-- ==== Sys2Proof/Machine/Ctl.lean ====
section
/-! DEFINITION. The control window of the management controller (R433): the mailbox (R434), the hash unit (R435, R436), RAND, ACTSTAT
and LCTL, as its loads and stores reach them. -/

namespace Sys2Proof.Machine

/-- Change the management controller's state. -/
def State.onMgmt (s : State) (f : Mgmt → Mgmt) : State := { s with mgmt := f s.mgmt }

/-! ### The mailbox (R434) -/

/-- DOESTAT. -/
def doeStat (s : State) : Nat := if s.mgmt.rxready then s.mgmt.rxbuf.length * 2 ^ 32 + 1 else 0
/-- Send the first n bytes of TXBUF as one DOE object (R434): the message it carries. -/
def sendTx (s : State) (n : Nat) : State := s.emit (.doe ((s.mgmt.txbuf ++ zeros 4096).take n))
/-- Free RXBUF (R434): a second request that waits takes its place. -/
def freeRx (s : State) : State :=
  s.onMgmt fun m =>
    match m.rxsecond with
    | some x => { m with rxbuf := x, rxready := true, rxsecond := none }
    | none => { m with rxbuf := [], rxready := false }
/-- A write of DOECTL (R434): ignored whole when TXGO comes with a length outside 1 to 4,096. -/
def doeCtl (s : State) (v : Nat) : State :=
  let n := v / 2 ^ 32
  if v.testBit 1 && !(decide (1 ≤ n) && decide (n ≤ 4096)) then s
  else
    let s1 := if v.testBit 1 then sendTx s n else s
    if v.testBit 0 then freeRx s1 else s1

/-! ### The hash unit (R435, R436) -/

def hOp (v : Nat) : Nat := bits v 2 0
def hMask (v : Nat) : List Nat := (List.range 4).filter fun i => v.testBit (4 + i)
def hCs (v : Nat) : Nat := bits v 9 8
def hSrcctx (v : Nat) : Nat := bits v 11 10

/-- Bytes that the hash unit may read (R435). -/
def hashReadable (a n : Nat) : Bool :=
  let inside (lo hi : Nat) : Bool := decide (lo ≤ a) && decide (a < hi) && decide (a + n ≤ hi)
  inside 0 (2 ^ 20) || inside (ctlWindow + 0x1000) (ctlWindow + 0x2000) || inside (ctlWindow + 0x2000) (ctlWindow + 0x3000) ||
  inside (ctlWindow + 0x3000) (ctlWindow + 0x4000) || inside (ctlWindow + 0x400) (ctlWindow + 0x580)
/-- Bytes that it may write (R435). -/
def hashWritable (a n : Nat) : Bool :=
  let inside (lo hi : Nat) : Bool := decide (lo ≤ a) && decide (a + n ≤ hi)
  inside 0 (2 ^ 20) || inside (ctlWindow + 0x2000) (ctlWindow + 0x3000)
/-- The place of an address of the controller. -/
def mgmtLoc (a : Nat) : Loc := if isMcram a then ⟨.mcram, a⟩ else ⟨.ctl, a - ctlWindow⟩

/-- A command that is refused (R435): HSRC and HDST must lie in their places whatever the operation is, with the bytes that ABSORB, DIGEST and
SIGN reach. -/
def hashRefused (s : State) (v : Nat) : Bool :=
  let op := hOp v
  let src := s.mgmt.hsrc.toNat
  let len := s.mgmt.hlen.toNat
  bits v 62 13 != 0 || v.testBit 3 || op == 0 || decide (6 ≤ op) || (hMask v).isEmpty ||
  ((op == 3 || op == 4) && decide (1 < (hMask v).length)) || (op == 4 && (hCs v == 0 || hCs v == 3)) ||
  (op == 2 && decide (65536 < len)) || !hashReadable src (if op == 2 then len else 1) ||
  !hashWritable s.mgmt.hdst.toNat (if op == 3 then 48 else if op == 4 then 96 else 1)

/-- The ASCII bytes of a string. -/
def asciiBytes (t : String) : List Byte := t.toList.map fun c => BitVec.ofNat 8 c.toNat

/-- The 100 bytes of P (R436). -/
def signPrefix (v13 : Bool) (cs : Nat) : List Byte :=
  let v := asciiBytes (if v13 then "dmtf-spdm-v1.3.*" else "dmtf-spdm-v1.2.*")
  v ++ v ++ v ++ v ++ (if cs == 1 then zeros 4 ++ asciiBytes "responder-challenge_auth signing" else zeros 6 ++ asciiBytes "responder-measurements signing")

/-- The signature of R436 over a context's digest. -/
def spdmSign (v13 : Bool) (cs : Nat) (ctx : List Byte) : List Byte :=
  ecdsaSign Config.certificateKey (sha384 (signPrefix v13 cs ++ sha384 ctx))

/-- A hash context's absorbed bytes. -/
def hashCtx (s : State) (i : Nat) : List Byte := tget [] s.mgmt.hash i
/-- Set hash contexts. -/
def setHash (s : State) (is : List Nat) (f : List Byte → List Byte) : State :=
  s.onMgmt fun m => { m with hash := is.foldl (fun t i => tmod [] t i f) m.hash }

/-- What HCMD keeps of a write: its reserved bits read as zero (R5, R435). -/
def hcmdKept (v : Nat) (refused : Bool) : Word := BitVec.ofNat 64 (v &&& 0x1FF7) ||| (if refused then BitVec.ofNat 64 (2 ^ 63) else 0)
/-- A write of HCMD (R435): the command runs at once, or is refused and sets HERR. -/
def hashCommand (s : State) (v0 : Nat) : State :=
  let v := v0 % 2 ^ 63
  if hashRefused s v then s.onMgmt fun m => { m with hcmd := hcmdKept v true }
  else
    let s1 := s.onMgmt fun m => { m with hcmd := hcmdKept v false }
    let ctx := hashCtx s ((hMask v).headD 0)
    match hOp v with
    | 1 => setHash s1 (hMask v) fun _ => []
    | 2 =>
      let bs := s.bytesAt (mgmtLoc s.mgmt.hsrc.toNat) s.mgmt.hlen.toNat
      setHash s1 (hMask v) (· ++ bs)
    | 3 => s1.putBytes (mgmtLoc s.mgmt.hdst.toNat) (sha384 ctx)
    | 4 => s1.putBytes (mgmtLoc s.mgmt.hdst.toNat) (spdmSign (v.testBit 12) (hCs v) ctx)
    | _ => setHash s1 (hMask v) fun _ => hashCtx s (hSrcctx v)

/-! ### ACTSTAT, RAND and the registers (R426, R433) -/

/-- ACTSTAT (R426). -/
def actStat (s : State) : Nat :=
  let a := s.mgmt.act
  a.seq % 2 ^ 32 * 2 ^ 32 + a.hbcnt % 4 * 2 ^ 10 + a.result % 4 * 2 ^ 8 + a.kind % 16 * 2 ^ 4 + a.state % 16
/-- A load of RAND draws 64 bits (R433; log entry 6). -/
def randDraw (s : State) : Word × State :=
  (s.draw.1, s.draw.2.onMgmt fun m => { m with lastRand := s.draw.1 })

/-- A load of n bytes at an offset of the control window (R433): the value and the state after. The first load of DOESTAT ends the Busy
answers of R437. -/
def ctlLoad (s : State) (off n : Nat) : Nat × State :=
  if off == 0x0 then (doeStat s, s.onMgmt fun m => { m with busyUntilPoll := m.busyUntilPoll && s.mgmtPaused })
  else if off == 0x100 then (s.mgmt.hcmd.toNat, s)
  else if off == 0x108 then (s.mgmt.hsrc.toNat, s)
  else if off == 0x110 then (s.mgmt.hlen.toNat, s)
  else if off == 0x118 then (s.mgmt.hdst.toNat, s)
  else if off == 0x128 then ((randDraw s).1.toNat, (randDraw s).2)
  else if off == 0x200 then (actStat s, s)
  else if off == 0x300 then (certLen, s)
  else if decide (0x800 ≤ off) && decide (off < 0x8C0) then (lctlRead s ((off - 0x800) / 8), s)
  else (leNat (s.bytesAt ⟨.ctl, off⟩ n), s)

/-- A store of n bytes at an offset of the control window (R433): read-only places discard it. -/
def ctlStore (s : State) (off n val : Nat) : State :=
  if off == 0x8 then doeCtl s val
  else if off == 0x100 then hashCommand s val
  else if off == 0x108 then s.onMgmt fun m => { m with hsrc := BitVec.ofNat 64 val }
  else if off == 0x110 then s.onMgmt fun m => { m with hlen := BitVec.ofNat 64 val }
  else if off == 0x118 then s.onMgmt fun m => { m with hdst := BitVec.ofNat 64 val }
  else if off == 0x200 then heartbeatWrite s (bits val 11 10)
  else if decide (0x800 ≤ off) && decide (off < 0x8C0) then (if s.fabricPaused then s else lctlWrite s ((off - 0x800) / 8) val)
  else s.putBytes ⟨.ctl, off⟩ (natLE n val)

end Sys2Proof.Machine
end

