-- ==== Sys2Proof/Machine/Jobs.lean ====
section
/-! DEFINITION. Task records at submission: their checks (R27, R189, R344, R353, R368), RNG claims (R76, R77), ticket keys (R34), the
submission itself (R28, R31, R33, R35, R351, R360), and LAUNCH's issue (R213). -/

namespace Sys2Proof.Machine

/-! ### Reading through an address space -/

/-- Bytes of a partition's space, or none where a page is missing or denied. -/
def readSpace (s : State) (pid asp va n : Nat) : Option (List Byte) :=
  match translateCuts s [] 0 pid asp .read (pageCuts (n / 4096 + 2) va n) with
  | .ok r => some (r.1.map fun p => s.bytesAt p.loc p.len).flatten
  | .error _ => none

/-! ### Segment headers (R187 to R189, R344) -/

def segMagic (h : List Byte) : Nat := fieldLE h 0 4
def segSigned (h : List Byte) : Bool := (fieldLE h 6 2).testBit 0
def segCodelen (h : List Byte) : Nat := fieldLE h 8 4
def segEntry (h : List Byte) (i : Nat) : Nat := fieldLE h (20 + 4 * i) 4
def segLb (h : List Byte) (i : Nat) : Nat := fieldLE h (36 + 4 * i) 4
def segCodeoff (h : List Byte) : Nat := fieldLE h 52 4
def segTagcnt (h : List Byte) : Nat := fieldLE h 56 2
def segKeyslot (h : List Byte) : Nat := fieldLE h 58 1

/-- The checks of R189 and R344 on a header, for a record with this entry offset; none header is an unreadable one (log entry 23). R189 names no
refusal for a CODELEN that breaks R187, and such a header is accepted (DESIGN CHOICE, log entry 128); nor for a CODEOFF above its bound that is
no multiple of 4,096, which is refused with SEGMENT_AUTH (DESIGN CHOICE, log entry 140). -/
def headerFault (p : Partition) (entry : Nat) : Option (List Byte) → Option Nat
  | none => some cSegmentAuth
  | some h =>
    let tags := if segSigned h then ceilDiv (segCodelen h) 4096 else 0
    firstFail
      [(segMagic h == 0x314D5347 && fieldLE h 4 2 == 1 && decide (fieldLE h 6 2 < 2) && allZero (h.drop 59) && segTagcnt h == tags &&
          decide (64 + 16 * tags ≤ segCodeoff h) && segCodeoff h % 4096 == 0, cSegmentAuth),
       (if segSigned h then p.hasKey (segKeyslot h) && decide (segKeyslot h < 128) else p.flag 5, cSegmentAuth),
       (((List.range 4).any fun i => segEntry h i == entry) && entry != 0xFFFFFFFF && entry % 4 == 0 && decide (entry < segCodelen h) &&
          (List.range 4).all fun i => decide (bits (segLb h i) 15 0 ≤ 2048) && decide (bits (segLb h i) 31 16 ≤ 2048), cBound)]

/-! ### Claims (R76, R77) -/

/-- Two index ranges share an index. -/
def claimMeets (a : Claim) (seed : Word) (base len : Nat) : Bool := a.seed == seed && overlaps a.base a.len base len

/-- A claim conflicts with a live one (R77): a strand claim inside its context's claim meets only that context's strand claims. -/
def claimConflict (p : Partition) (job : Option Nat) (seed : Word) (base len : Nat) : Bool :=
  let own := p.claims.any fun a => some a.job == job && a.strand.isNone && a.seed == seed && decide (a.base ≤ base) && decide (base + len ≤ a.base + a.len)
  p.flag 1 && p.claims.any fun a => claimMeets a seed base len && (!own || (some a.job == job && a.strand.isSome))

/-- Every claim of a job ends (R77). -/
def endClaims (s : State) (pid id : Nat) : State :=
  let p := s.part pid
  s.setPart pid { p with claims := p.claims.filter fun a => a.job != id }

/-! ### Waiter entries (R134) -/

/-- No entry is left for a waiter of a partition on a counter. -/
def waiterFull (s : State) (pid h : Nat) : Bool :=
  let p := s.part pid
  if hKind h == 0 then decide (32 ≤ waitersOfCore s (hCore h) + tget 0 p.reserved (waiterPool h))
  else
    decide (p.quota (hHome h) 16 ≤ waitersOn s pid (hHome h) + tget 0 p.reserved (waiterPool h)) ||
    decide (Config.waiterEntries ≤ waitersOfDie s (hHome h))

/-! ### Checks of a record (R27, R353) -/

/-- The limits and reserved bits of a record (R353). -/
def recordLimits (p : Partition) (r : List Byte) : Bool :=
  let pol := recPolicy r
  fieldLE r 103 1 == 0 && allZero (r.drop 108) && decide (recFlags r < 16) && decide (pol < 512) && decide (pol % 8 ≤ 4) &&
  decide (pol / 8 % 8 ≤ 4) && decide (pol / 64 % 8 ≤ 4) && decide (1 ≤ recNquads r) && decide (recNquads r ≤ Nat.min 96 p.quads) &&
  decide (recLevel r ≤ 127) && decide (1 ≤ recNstrand r) && decide (recNstrand r ≤ 8 * recNquads r) && decide (recGangix r < 16) &&
  (recGang r || recGangix r == 0) && recSegment r % 4096 == 0 && (!recDepabs r || recDeph r == 0)
/-- The fault of a record's dependency (R353): its handle, its reach, its waiter entry. -/
def recordDep (s : State) (pid : Nat) (r : List Byte) : Option Nat :=
  let p := s.part pid
  let h := recDeph r
  if recDepabs r then none
  else firstFail [(handleOk h && hKind h != 0 && hKind h != 4, cCounterHandle), (handleIn p p.hasMill h, cAccess),
    (!waiterFull s pid h, cWaiterExhausted)]
/-- The fault of a record's completion add (R30, R353). -/
def recordDone (p : Partition) (r : List Byte) : Option Nat :=
  if recDoneinc r == 0 then some cCounterHandle else addCheck p p.hasMill (recDoneh r) (recDoneinc r)
/-- The fault that refuses a record, checked in this order: limits and reserved bits, address space, gang, dependency, claim,
completion, segment (log entry 23); with it the handle it concerns, if any. -/
def recordFaultAt (s : State) (pid : Nat) (r : List Byte) : Option (Nat × Option Nat) :=
  let p := s.part pid
  match firstFail
    [(recordLimits p r, cBound), (decide (recAspace r < 64) && spaceEnabled (tget [] p.spaces (recAspace r)), cBound),
     (!recGang r || (fieldLE (tget [] p.gangs (recGangix r)) 16 1).testBit 0, cBound)] with
  | some c => some (c, none)
  | none =>
    match recordDep s pid r with
    | some c => some (c, some (recDeph r))
    | none =>
      match firstFail
        [(recRnglen r == 0 || decide (recRngbase r + recRnglen r ≤ 2 ^ 64), cBound),
         (recRnglen r == 0 || !claimConflict p none (BitVec.ofNat 64 (recRngseed r)) (recRngbase r) (recRnglen r), cRngOverlap)] with
      | some c => some (c, none)
      | none =>
        match recordDone p r with
        | some c => some (c, some (recDoneh r))
        | none => (headerFault p (recEntry r) (readSpace s pid (recAspace r) (recSegment r) 64)).map fun c => (c, none)
def recordFault (s : State) (pid : Nat) (r : List Byte) : Option Nat := (recordFaultAt s pid r).map (·.1)

/-! ### Submission -/

/-- Write an output field of a job's record in memory (R353, R355). -/
def writeRec (s : State) (j : Job) (off : Nat) (bs : List Byte) : State :=
  writeAt s (s.part j.pid).schedDie ⟨j.recLoc.sp, j.recLoc.addr + off⟩ bs

/-- Set STATUS and FCODE of a record (R353). -/
def writeStatus (s : State) (j : Job) (status fcode : Nat) : State := writeRec s j 100 (natLE 2 status ++ natLE 1 fcode)

/-- Enter a checked record: it is PENDING, its claim is live, and its TASK waiter is armed (R28, R351, R360). The record is kept with
the level and DET flag it runs under (R35), and with its segment's header. -/
def submit (s : State) (pid : Nat) (rec : List Byte) (loc : Loc) (depth : Nat) (parent : Option Nat) (key : List Nat) (launched : Bool) : State :=
  let id := s.nextJob + 1
  let j : Job := { id := id, pid := pid, record := rec, recLoc := loc, depth := depth, parent := parent, key := key,
                   level := recLevel rec, phase := .waiting, launched := launched,
                   seghead := (readSpace s pid (recAspace rec) (recSegment rec) 64).getD [] }
  let s1 := writeStatus ({ s with nextJob := id }.setJob id j) j 0 0
  let p := s1.part pid
  let s2 :=
    if recRnglen rec == 0 then s1
    else s1.setPart pid { p with claims := p.claims ++ [⟨BitVec.ofNat 64 (recRngseed rec), recRngbase rec, recRnglen rec, id, none, true⟩] }
  if recDepabs rec then (s2.setJob id { j with phase := .ready, readyAt := s.fabricTime }).push [.dispatch pid]
  else
    armWaiter s2 { h := recDeph rec, threshold := recDept rec, kind := .task id, deadline := 0, pid := pid, aspace := recAspace rec,
                   die := hHome (recDeph rec), by_ := ⟨id, 0⟩ }

/-- The next submission number of a partition (R34). -/
def nextSubmission (s : State) (pid : Nat) : Nat × State :=
  let p := s.part pid
  (p.submission + 1, s.setPart pid { p with submission := p.submission + 1 })

/-- The waiter entry that a record reserves at its LAUNCH is given back as its waiter arrives (R134). -/
def unreserveDep (s : State) (pid : Nat) (rec : List Byte) : State :=
  if recDepabs rec then s else s.setPart pid ((s.part pid).unreserve (recDeph rec))
/-- The new job carries the clock of the launching die (R33). -/
def stampJob (s : State) (die : Nat) : State := s.setJob s.nextJob { s.job s.nextJob with clock := (s.die die).clock }
/-- A released LAUNCH submits its record (R31 to R35, R360): by_ is the launching strand, on core c. -/
def launchRelease (s0 : State) (c : Nat) (by_ : Issuer) (rec : List Byte) (loc : Loc) : State :=
  let parent := s0.job by_.ctx
  let pid := parent.pid
  let s := unreserveDep s0 pid rec
  let level := Nat.max (recLevel rec) (s.part pid).ceiling
  let rec1 := setLE rec 16 1 level
  if parent.det then
    let n := tget 0 parent.launches by_.strand
    let s1 := s.setJob by_.ctx { parent with launches := tput 0 parent.launches by_.strand (n + 1) }
    stampJob (submit s1 pid (setLE rec1 15 1 (recFlags rec ||| 2)) loc (parent.depth + 1) (some by_.ctx) (parent.key ++ [by_.strand, n]) true)
      (coreDie c)
  else
    let n := nextSubmission s pid
    stampJob (submit n.2 pid rec1 loc (parent.depth + 1) (some by_.ctx) [n.1] true) (coreDie c)

/-- Lexicographic order of ticket keys; a key is lower than every key that extends it (R34). -/
def keyLt (a b : List Nat) : Bool := decide (a < b)

end Sys2Proof.Machine
end

