-- ==== Sys2Proof/Machine/Dressing.lean ====
section
/-! DEFINITION. Releasing a region's entries to memory (R102, R150), dispatching tile operations (R291), and the dressing stage:
its rules, matching, replacement and flushes (R290 to R304). -/

namespace Sys2Proof.Machine

/-! ### Performing released entries (R102, R150) -/

/-- A command is released: it takes its place in release order (R115, R280), and starts no sooner than the tile writes before it (R103). -/
def releaseEngine (s : State) (c id : Nat) : State :=
  match s.engines.find? fun e => e.id == id with
  | none => s
  | some e =>
    let after := if (s.core c).tiles.isEmpty then 0 else (s.mill (coreMill c)).tileSeq
    ({ wakeDie s (coreDie c) with engines := (s.engines.filter fun (x : ECmd) => x.id != id) ++ [{ e with stage := .released, after := after }] } : State).push
      [engineEvent e]

/-- The claims of a partition once a strand's reservation of a range is its live claim: its earlier one has ended (R77). -/
def claimLive (cs : List Claim) (a : Claim) : List Claim :=
  ((cs.filter fun x => !(x.job == a.job && x.strand == a.strand && x.live)).erase { a with live := false }) ++ [{ a with live := true }]

/-- A released GEN loads its strand's generator, and the strand's earlier claim ends (R77). -/
def loadClaim (s : State) (c : Nat) (by_ : Issuer) (seed : Word) (base len : Nat) : State :=
  let pid := (s.job by_.ctx).pid
  let p := s.part pid
  (s.setPart pid { p with claims := claimLive p.claims ⟨seed, base, len, by_.ctx, some by_.strand, true⟩ }).onCore c fun x =>
    { x.onBoth fun a => { a with rngNext := base } with rngKey := seed, rngEnd := base + len, rngClaim := true }

/-- Perform one released command on behalf of its issuer (R102). GEN and DRESS took effect with the release itself (R77, R295). -/
def performCmd (s : State) (c : Nat) (by_ : Issuer) : BufCmd → State
  | .cadd h a => addFrom s (coreDie c) h a by_ 6
  | .caddm hs a => hs.foldl (fun t h => addFrom t (coreDie c) h a by_ 6) s
  | .engine id => releaseEngine s c id
  | .accv l fn sub m v => performAccv s c by_ l fn sub m v
  | .cinv fn line | .cflush fn line =>
    dropLines s (coreMill c) fun x => if fn == 0 then some x.line == line else if fn == 1 then true else x.cls != 2
  | .watch w =>
    armWaiter (s.setPart w.pid ((s.part w.pid).unreserve w.h)) w
  | .unwatch flag => removeFlagWaiter s by_.ctx by_.strand flag
  | .launch rec loc => launchRelease s c by_ rec loc
  | .gen _ _ _ | .dress _ => s

/-- Adds and submissions follow every write before them, those of tile operations too (R33, R109). -/
def BufCmd.followsTiles : BufCmd → Bool
  | .cadd _ _ | .caddm _ _ | .launch _ _ => true
  | _ => false

/-- Perform one entry of a core's released buffer, on behalf of its issuer (R102); a command that follows tile writes is put back while
the core's tile operations are in flight, or an earlier one waits so. -/
def performEntry (s : State) (c : Nat) (by_ : Issuer) : BufEnt → State
  | .write l bs h => storeHome s c l bs h
  | .cmd k =>
    let x := s.core c
    if k.followsTiles && !(x.tiles.isEmpty && x.later.isEmpty) then
      s.onCore c fun x => { x with later := x.later ++ [((s.mill (coreMill c)).tileSeq, by_, k)] }
    else performCmd s c by_ k

/-- Perform the commands whose tile writes have been made (R109). -/
def settleLater (s : State) (c : Nat) : State :=
  let x := s.core c
  let go := x.later.takeWhile fun e => x.tiles.all fun t => decide (e.1 < t.seq)
  go.foldl (fun t e => performCmd t c e.2.1 e.2.2) (s.onCore c fun y => { y with later := y.later.drop go.length })

/-- Perform everything a core has released and not yet drained. -/
def drainAll (s : State) (c : Nat) : State :=
  let x := s.core c
  if x.drain.isEmpty then s
  else x.drain.foldl (fun t e => performEntry t c x.drainBy e) (s.setCore c { x with drain := [] })

/-- Perform the oldest released entry of a core. -/
def drainOne (s : State) (c : Nat) : State :=
  match (s.core c).drain with
  | [] => s
  | e :: es => performEntry (s.onCore c fun x => { x with drain := es }) c (s.core c).drainBy e

/-- Every pending integrity check of a core passes (R148, R151): a clean re-read counts (R157). -/
def settleLoads (s : State) (c : Nat) : State :=
  if (s.core c).loads.isEmpty then s
  else s.onCore c fun x =>
    let again := x.loads.any (·.again)
    { x with loads := [], reread := if again then x.reread + 1 else x.reread, eccAddr := if again then none else x.eccAddr }

/-! ### Dispatch of tile operations (R291) -/

/-- Dispatch one operation to its unit (R291): what the core released before is performed, its loads' checks have passed (R151), and
the checks of dispatch are made. -/
def dispatchOp (s : State) (c : Nat) (m : MOp) : State := startOp (settleLoads (drainAll s c) c) c m

/-- Dispatch the staged operations of a core in order, up to the first that is held (R142, R291) or faults. -/
def stagedRun (c : Nat) : Nat → State → State
  | 0, s => s
  | n + 1, s =>
    match (s.core c).staged with
    | [] => s
    | m :: ms =>
      if !(s.core c).pending.isEmpty || dispatchHeld s c m || !windowOpen s c then s
      else stagedRun c n (dispatchOp (s.onCore c fun x => { x with staged := ms }) c m)

/-! ### Rules (R297, R298) -/

def ruleCtrl (r : List Byte) : Nat := fieldLE r 0 1
def ruleGuard (r : List Byte) : Nat := fieldLE r 1 1
def ruleEn (r : List Byte) : Bool := (ruleCtrl r).testBit 0
def ruleRound (r : List Byte) : Bool := (ruleCtrl r).testBit 1
def ruleOrder (r : List Byte) : Bool := (ruleCtrl r).testBit 2
def ruleNp (r : List Byte) : Nat := bits (ruleCtrl r) 4 3
def ruleNr (r : List Byte) : Nat := bits (ruleCtrl r) 6 5
def ruleRne (r : List Byte) : Bool := (ruleGuard r).testBit 0
def ruleSrone (r : List Byte) : Bool := (ruleGuard r).testBit 1
def ruleFold (r : List Byte) : Bool := (ruleGuard r).testBit 2

/-- A pattern operation (R297). -/
structure Pat where
  opc : Nat
  fn : Nat
  any : Bool
  dm : Nat
  am : Nat
  bm : Nat
  dv : Nat
  av : Nat
  bv : Nat
  rest : Nat
  deriving DecidableEq, Repr

/-- Pattern operation j of a rule. -/
def rulePat (r : List Byte) (j : Nat) : Pat :=
  let x := fieldLE r (4 + 6 * j) 6
  { opc := bits x 3 0, fn := bits x 6 4, any := x.testBit 7, dm := bits x 15 8, am := bits x 23 16, bm := bits x 31 24,
    dv := bits x 35 32, av := bits x 39 36, bv := bits x 43 40, rest := bits x 47 44 }

/-- A replacement operation (R297). -/
structure Rep where
  opc : Nat
  fn : Nat
  trx : Bool
  dv : Nat
  av : Nat
  bv : Nat
  src : Nat
  sesum : Bool
  seadd : Nat
  rest : Nat
  deriving DecidableEq, Repr

/-- Replacement operation i of a rule. -/
def ruleRep (r : List Byte) (i : Nat) : Rep :=
  let x := fieldLE r (22 + 5 * i) 5
  { opc := bits x 3 0, fn := bits x 6 4, trx := x.testBit 7, dv := bits x 11 8, av := bits x 15 12, bv := bits x 19 16,
    src := bits x 21 20, sesum := x.testBit 24, seadd := bits x 26 25, rest := bits x 23 22 + bits x 31 27 + bits x 39 32 }

/-- The opcodes a rule may name. -/
def ruleOpc (o : Nat) : Bool := (decide (1 ≤ o) && decide (o ≤ 8)) || o == 10
/-- The FN values an opcode lists (R266). -/
def opcFnMax : Nat → Nat
  | 1 => 1 | 2 => 1 | 5 => 3 | _ => 0
/-- A variable code stands exactly where the opcode uses the field, and is well formed. -/
def varOk (used : Bool) (v : Nat) : Bool := if used then decide (8 ≤ v) else v == 0
/-- The opcode has an RM field (R266). -/
def opcHasRm (o : Nat) : Bool := o == 4 || o == 5 || o == 6 || o == 10

def patBad (p : Pat) : Bool :=
  let u := mUses p.opc
  !ruleOpc p.opc || (if p.any then p.fn != 0 else decide (opcFnMax p.opc < p.fn)) || p.rest != 0 ||
  !(u.1 == (p.dm != 0)) || !(u.2.1 == (p.am != 0)) || !(u.2.2 == (p.bm != 0)) ||
  !varOk u.1 p.dv || !varOk u.2.1 p.av || !varOk u.2.2 p.bv

/-- The variables that a rule's patterns bind. -/
def ruleVars (r : List Byte) : List Nat :=
  ((List.range (ruleNp r)).map fun j => let p := rulePat r j; [p.dv, p.av, p.bv]).flatten.filter fun v => decide (8 ≤ v)

def repBad (r : List Byte) (q : Rep) : Bool :=
  let vars := ruleVars r
  let bound (v : Nat) : Bool := v == 0 || vars.contains v
  q.rest != 0 || decide (ruleNp r ≤ q.src) || decide (ruleNp r ≤ q.seadd) ||
  (if q.opc == 15 then q.fn != 0 || q.trx || q.dv != 0 || q.av != 0 || q.bv != 0 || q.sesum || q.seadd != 0
   else
    let u := mUses q.opc
    !ruleOpc q.opc || (q.fn != 7 && decide (opcFnMax q.opc < q.fn)) || !varOk u.1 q.dv || !varOk u.2.1 q.av || !varOk u.2.2 q.bv ||
    !bound q.dv || !bound q.av || !bound q.bv)

/-- The shape that FOLD needs (R300). -/
def foldShape (r : List Byte) : Bool :=
  let p0 := rulePat r 0
  let p1 := rulePat r 1
  let p2 := rulePat r 2
  let q0 := ruleRep r 0
  let q1 := ruleRep r 1
  ruleNp r == 3 && ruleNr r == 2 && ruleRne r && ruleSrone r && p0.opc == 7 && p1.opc == 2 && p1.dv == p0.dv && p2.opc == 4 &&
  p2.dv == p0.dv && p2.av == p0.dv && q0.opc == 15 && q0.src == 0 && q1.opc == 2 && q1.src == 1 && q1.sesum && q1.seadd == 2

/-- A malformed rule (R298). -/
def ruleBad (r : List Byte) : Bool :=
  let np := ruleNp r
  let nr := ruleNr r
  (ruleCtrl r).testBit 7 || decide (8 ≤ ruleGuard r) || fieldLE r 2 2 != 0 || np == 0 || nr == 3 ||
  ((List.range 3).any fun j => if j < np then patBad (rulePat r j) else fieldLE r (4 + 6 * j) 6 != 0) ||
  ((List.range 2).any fun i => if i < nr then repBad r (ruleRep r i) else fieldLE r (22 + 5 * i) 5 != 0) ||
  (ruleFold r && !foldShape r)

/-! ### Matching (R299) -/

/-- A variable's binding: register and sticky offset, with the descriptor the entry used. -/
structure Bind where
  v : Nat
  reg : Nat
  off : Int
  desc : Word
  deriving DecidableEq, Repr

/-- Bind a variable, or find that it cannot be: one variable is one pair, two variables are two pairs. -/
def bindVar (bs : List Bind) (v : Nat) (t : TileRef) (off : Int) : Option (List Bind) :=
  if v == 0 then some bs
  else
    match bs.find? fun b => b.v == v with
    | some b => if b.reg == t.reg && b.off == off then some bs else none
    | none => if bs.any fun b => b.reg == t.reg && b.off == off then none else some (⟨v, t.reg, off, t.desc⟩ :: bs)

/-- The mask admits the EF of a descriptor; an unused field has mask 0. -/
def efIn (mask : Nat) (d : Word) : Bool := mask == 0 || mask.testBit (tileOf d 0).ef

/-- Pattern operation against entry (R299): the bindings after. -/
def matchPat (r : List Byte) (p : Pat) (e : MOp) (bs : List Bind) : Option (List Bind) :=
  if e.opc == p.opc && (p.any || e.fn == p.fn) && efIn p.dm e.td.desc && efIn p.am e.ta.desc && efIn p.bm e.tb.desc &&
      !(opcHasRm e.opc && e.rm == 5) && (!ruleRne r || !opcHasRm e.opc || e.rm == 0) && (!ruleSrone r || e.opc != 4 || e.sr.isNone) then
    match bindVar bs p.dv e.td e.off with
    | none => none
    | some b1 =>
      match bindVar b1 p.av e.ta e.off with
      | none => none
      | some b2 => bindVar b2 p.bv e.tb e.off
  else none

/-- Match patterns j, j + 1, … against entries of one slot; ends with the patterns or the entries. -/
def matchFrom (r : List Byte) (slot : Nat) : Nat → Nat → List MOp → List Bind → Option (List Bind)
  | 0, _, _, bs => some bs
  | _, _, [], bs => some bs
  | n + 1, j, e :: es, bs =>
    if e.slot != slot then none
    else
      match matchPat r (rulePat r j) e bs with
      | none => none
      | some b => matchFrom r slot n (j + 1) es b

/-- The tile reference of a variable. -/
def boundRef (bs : List Bind) (v : Nat) : TileRef :=
  match bs.find? fun b => b.v == v with
  | some b => ⟨b.reg, b.desc⟩
  | none => {}
/-- The offsets of the variables that a replacement uses. -/
def repOffs (bs : List Bind) (q : Rep) : List Int := (bs.filter fun b => b.v == q.dv || b.v == q.av || b.v == q.bv).map (·.off)

/-- Build a replacement (R300), or fail the match; ix is the rule's index. Copied fields that the new opcode does not use take their
defaults. KA and KB are register numbers: what is copied is the value that the source entry's register held at its issue. -/
def buildRep (r : List Byte) (ix : Nat) (es : List MOp) (bs : List Bind) (q : Rep) : Option MOp :=
  match es[q.src]?, es[0]? with
  | some src, some first =>
    if q.opc == 15 then some { src with rule := some ix, pc := first.pc, inst := first.inst }
    else
      let offs := repOffs bs q
      let se := if q.sesum then src.se + ((es[q.seadd]?).map (·.se)).getD 0 else src.se
      if !(offs.all fun o => some o == offs.head?) || decide (se < -128) || decide (127 < se) then none
      else
        let fn := if q.fn == 7 then src.fn else q.fn
        let usesSe := q.opc == 2 || q.opc == 4
        if decide (opcFnMax q.opc < fn) then none
        else
        some { slot := src.slot, opc := q.opc, fn := fn, td := boundRef bs q.dv, ta := boundRef bs q.av, tb := boundRef bs q.bv,
               off := offs.head?.getD 0, ka := src.ka, kb := src.kb,
               rm := if opcHasRm q.opc then src.rm else 0, tr := if q.opc == 1 then src.tr != q.trx else false,
               se := if usesSe then se else 0, sr := if q.opc == 4 then src.sr else none, rnd := src.rnd, pc := first.pc, inst := first.inst,
               rule := some ix,
               fold := if ruleFold r && q.opc == 2 then (es[q.seadd]?).map (·.se) else none }
  | _, _ => none

/-- The checks of R267 on a built operation. -/
def repPasses (s : State) (c : Nat) (m : MOp) : Bool :=
  (mCheck s c m.opc m.fn m.tr m.dT m.aT m.bT false false).isNone

/-- All of a list, when every element is there. -/
def allSome {α : Type} : List (Option α) → Option (List α)
  | [] => some []
  | none :: _ => none
  | some x :: xs => match allSome xs with | some ys => some (x :: ys) | none => none

/-- A full match of rule r at the head of the window: the replacements (R299, R300). -/
def fullMatch (s : State) (c ix : Nat) (r : List Byte) (w : List MOp) : Option (List MOp) :=
  let np := ruleNp r
  let es := w.take np
  if es.length < np then none
  else
    match es with
    | [] => none
    | e :: _ =>
      match matchFrom r e.slot np 0 es [] with
      | none => none
      | some bs =>
        match allSome ((List.range (ruleNr r)).map fun i => buildRep r ix es bs (ruleRep r i)) with
        | none => none
        | some ms => if ms.all (repPasses s c) then some ms else none

/-- The entries present are a proper prefix of the pattern (R292). -/
def prefixMatch (r : List Byte) (w : List MOp) : Bool :=
  match w with
  | [] => false
  | e :: _ => decide (w.length < ruleNp r) && (matchFrom r e.slot (ruleNp r) 0 w []).isSome

/-- A rule applies (R293). -/
def ruleApplies (s : State) (c : Nat) (r : List Byte) : Bool :=
  let x := s.core c
  let perm := x.live.dressperm
  ruleEn r && !x.reexec &&
  (if (s.coreJob c).det then !ruleRound r && !ruleOrder r
   else (!ruleRound r || (x.dround && perm.getLsbD 0)) && (!ruleOrder r || perm.getLsbD 1))

/-- What the stage does with the oldest entry (R292). -/
inductive Decision where
  | replace (n : Nat) (ms : List MOp)
  | wait
  | pass
  deriving DecidableEq, Repr

/-- Decide of R292 over the rules from index ix on. -/
def decideAt (s : State) (c : Nat) (nowait : Bool) (w : List MOp) : Nat → List (List Byte) → Decision
  | _, [] => .pass
  | ix, r :: rs =>
    if ruleApplies s c r then
      match fullMatch s c ix r w with
      | some ms => .replace (ruleNp r) ms
      | none => if !nowait && prefixMatch r w then .wait else decideAt s c nowait w (ix + 1) rs
    else decideAt s c nowait w (ix + 1) rs

/-- The operations of a match in order: its first dispatch counts all n originals (R151). -/
def countFirst (n : Nat) : List MOp → List MOp
  | [] => []
  | m :: ms => { m with orig := n } :: ms.map fun (t : MOp) => { t with orig := 0 }

/-- Step the stage once (R292): the state after, and whether an entry left the window. A match without replacements is counted as it is
made. -/
def stageStep (s : State) (c : Nat) (nowait : Bool) : State × Bool :=
  let x := s.core c
  match x.window with
  | [] => (s, false)
  | e :: rest =>
    match decideAt s c nowait x.window 0 x.rules with
    | .wait => (s, false)
    | .pass => (s.setCore c { x with window := rest, staged := x.staged ++ [{ e with orig := 1 }] }, true)
    | .replace n ms =>
      (s.setCore c
        { x with
          window := x.window.drop n, staged := x.staged ++ countFirst n ms,
          tileSkip := if ms.isEmpty then x.tileSkip + n else x.tileSkip }, true)

/-- The oldest entry waits no longer (R292): the window is full, or it has waited DRESS_WAIT further instances. -/
def stageFull (x : Core) : Bool :=
  decide (8 ≤ x.window.length) || (match x.window with | e :: _ => decide (Config.dressWait ≤ e.age) | [] => false)

/-- Step the stage until it waits, is empty, a dispatch is held, or one has faulted; fuel bounds the entries. -/
def stageRun (c : Nat) (nowait : Bool) : Nat → State → State
  | 0, s => stagedRun c 9 s
  | n + 1, s0 =>
    let s := stagedRun c 9 s0
    let x := s.core c
    if !x.staged.isEmpty || !x.pending.isEmpty then s
    else
      let r := stageStep s c (nowait || stageFull x)
      if r.2 then stageRun c nowait n r.1 else r.1

/-- Every entry of the window has been dispatched (R301). -/
def Core.flushed (x : Core) : Bool := x.window.isEmpty && x.staged.isEmpty
/-- A flush (R301) as far as R142 lets it go; once the window is empty a change of DROUND applies (R338). -/
def flushWindow (s : State) (c : Nat) : State :=
  let t := stageRun c true 9 s
  if (t.core c).flushed then t.onCore c fun x => { x with dround := (s.corePart c).flag 4 } else t

/-- R142 holds the oldest staged dispatch of a core: the freeze line is up (R291). -/
def stageHeld (s : State) (c : Nat) : Bool :=
  match (s.core c).staged with
  | m :: _ => (s.core c).pending.isEmpty && dispatchHeld s c m
  | [] => false

/-- Empty the windows of cores before a bundle issues (R301): the state, and whether all are empty and no fault waits. A dispatch that
is held raises the freeze line of them all. -/
def tryFlush (s : State) (cs : List Nat) : State × Bool :=
  let t := cs.foldl flushWindow s
  if cs.any fun c => !(t.core c).pending.isEmpty then (t, false)
  else if cs.all fun c => (t.core c).flushed then (t, true)
  else (cs.foldl (fun u c => u.onCore c fun x => { x with frozen := true }) t, false)

/-- A further instance has issued, or a cycle of a hold has passed: every entry of the window has waited one more (R99, R292). -/
def Core.ageWindow (x : Core) : Core := { x with window := x.window.map fun (m : MOp) => { m with age := m.age + 1 } }

/-- An M-slot operation, SEAL or OPEN enters after its instance has issued (R290, R151): a re-execution drops it while the skip count
has not been passed, and else dispatches it at once; MVS, SEAL and OPEN never enter the window. -/
def enterTile (s : State) (c : Nat) (m : MOp) : State :=
  let x := s.core c
  if 0 < x.tileDrop then s.setCore c { x with tileDrop := x.tileDrop - 1 }
  else if m.direct then dispatchOp s c m
  else if x.reexec then stagedRun c 9 (s.setCore c { x with staged := x.staged ++ [m] })
  else stageRun c false 9 (s.setCore c { x with window := x.window ++ [m] })

end Sys2Proof.Machine
end

