-- ==== Sys2Proof/Machine/Region.lean ====
section
/-! DEFINITION. Checkpoints (R148, R152), late integrity failures (R157), and the gate that every slot operation
of a bundle instance passes (R12, R41, R153, R168). -/

namespace Sys2Proof.Machine

/-! ### Checkpoints (R148) -/

/-- LAUNCH is submitted after every write of its region (R33). -/
def BufEnt.isLaunch : BufEnt → Bool
  | .cmd (.launch _ _) => true
  | _ => false
/-- GEN and DRESS take effect as their region is released (R77, R295). -/
def BufEnt.atRelease : BufEnt → Bool
  | .cmd (.gen _ _ _) | .cmd (.dress _) => true
  | _ => false
/-- The entries that a release puts in the drain, in program order but for its submissions (R33, R102). -/
def releasedEnts (buf : List BufEnt) : List BufEnt :=
  (buf.filter fun e => !e.isLaunch && !e.atRelease) ++ buf.filter BufEnt.isLaunch
/-- The table that a released DRESS leaves (R295). -/
def releasedRules (old : List (List Byte)) (buf : List BufEnt) : List (List Byte) :=
  buf.foldl (fun r e => match e with | .cmd (.dress rules) => rules | _ => r) old

/-- A core's state after a checkpoint whose region begins at pc (R148): the buffer is released, the live copy is the shadow, the read
bitmaps, the skip count, RETRYCNT and the mask set are cleared. -/
def Core.checkpointed (x : Core) (pc : Word) : Core :=
  let a := { x.live with pc := pc }
  { x with
           rules := releasedRules x.rules x.buf,
           live := a, shadow := a, ckptPc := pc, inflight := x.inflight.map fun (l : Landing) => { l with older := true },
           readBits := [], tileSkip := 0, tileDrop := 0, retrycnt := 0, masks := [], instCount := 0, reexec := false,
           drain := x.drain ++ releasedEnts x.buf, buf := [], drainBy := ⟨x.job.getD 0, x.strand⟩,
           stale := if x.stale == 1 || x.holdsStale then 2 else 0 }

/-- The claims of a released region's GENs are loaded (R77). -/
def loadClaims (s : State) (c : Nat) (by_ : Issuer) (buf : List BufEnt) : State :=
  buf.foldl (fun t e => match e with | .cmd (.gen seed base len) => loadClaim t c by_ seed base len | _ => t) s

/-- Take a checkpoint on a core (R148): loads' checks pass and the window is flushed first; a dispatch that faults there stops it, and
the fault waits for the bundle boundary (R291); one that is held puts the checkpoint off. -/
def checkpoint (s : State) (c : Nat) (pc : Word) : State :=
  let s1 := flushWindow (settleLoads s c) c
  let x := s1.core c
  if !x.pending.isEmpty || !x.flushed then s1
  else
    let s2 := loadClaims (s1.setCore c (x.checkpointed pc)) c ⟨x.job.getD 0, x.strand⟩ x.buf
    if (s2.core c).drain.isEmpty then s2 else s2.push [.releaseBufferDrain c]

/-- Take a checkpoint on every core that issues together, each at its own PC (R38). -/
def checkpointAll (s : State) (cs : List Nat) : State := cs.foldl (fun t c => checkpoint t c (t.core c).live.pc) s

/-- Close the region of cores that issue together (R148, R301): the state, and whether their windows could be emptied and it is closed. -/
def tryClose (s : State) (cs : List Nat) : State × Bool :=
  let r := tryFlush (cs.foldl settleLoads s) cs
  if r.2 then (checkpointAll r.1 cs, true) else r

/-- Put off the end of an instance on cores until their windows are empty (R301). -/
def askClose (s : State) (k : Closing) : State := k.cores.foldl (fun t c => t.onCore c fun x => { x with closing := some k }) s

/-! ### Late integrity failures (R157) -/

/-- A load's late check fails at a place: the first time the region rolls back and re-executes without a fault; the second time at
that place POISON is offered (R157), and the line is marked (R381). -/
def eccFailure (s : State) (c : Nat) (k : LoadCheck) (l : Loc) : State :=
  if (s.core c).eccAddr == some l then
    takeFault ((s.onCore c fun x => { x with eccAddr := none }).setPoison l) c
      { code := cPoison, info := lineInfo l, slot := k.slot, inst := k.inst, epc := k.pc } false
  else (rollback s c).onCore c fun x => { x with eccAddr := some l }

/-- The first pending load that reads a poisoned line, with the place of the line. -/
def poisonedLoad (s : State) (c : Nat) : Option (LoadCheck × Loc) :=
  if s.poison.isEmpty then none
  else
    (s.core c).loads.findSome? fun k => (s.firstPoison k.loc k.len).map fun l => (k, l)

/-! ### The gate of a slot operation -/

/-- Undo what the effects of an instance have reserved, when it faults. -/
def undoEffs (s : State) (c : Nat) (es : List Eff) : State :=
  es.foldl (fun t e => match e with | .cmd k => undoCmd t c k | _ => t) s

/-- A slot operation faults at issue (R153, R154): none of the instance's slots issue, and the fault is taken. -/
def raiseFlt (s : State) (f : FaultAt) : State :=
  let c := s.cur.core
  let s1 := undoEffs s c s.cur.effs
  let s2 := takeFault s1 c { f with slot := s.cur.slot, inst := s.cur.inst, epc := s.cur.pc } false
  { s2 with cur := { s2.cur with aborted := true, effs := [] } }

/-- Raise a fault code with its FAULTINFO. -/
def raise (s : State) (code info : Nat) : State := raiseFlt s { code := code, info := info }

/-- The instance cannot issue yet: it is held and issues again later (R143, R153). -/
def freeze (s : State) (page : Option Nat) : State := { s with cur := { s.cur with frozen := true, freezePage := page } }

/-- An access that failed: a missing host translation freezes the core while ATS answers (R153, R375); every other failure faults. -/
def accessFail (s : State) (e : Flt) : State :=
  match e.atsPage with
  | some p => freeze s (some p)
  | none => raiseFlt s { code := e.code, info := e.info, flags := if e.malformed then 8 else 0, page := e.page }

/-- Make an access of the issuing core and go on with its pieces (R246). -/
def withAccess (s : State) (va n align : Nat) (need : Need) (noHost : Bool) (k : State → List Piece → State) : State :=
  match coreAccess s s.cur.core va n align need noHost with
  | .error e => accessFail s e
  | .ok r => k (keepPages s s.cur.core r.2) r.1

/-- The issue of a slot operation: nothing happens once the instance has faulted or is held, when the guard fails (R12, R168), or when
the operation is masked (R41, R199). -/
def slotOp (slot g : Nat) (s : State) (k : State → State) : State :=
  if s.cur.aborted || s.cur.frozen then s
  else
    let x := s.curCore
    if !guardPasses x.live g || x.masks.contains (s.cur.inst, slot) then { s with cur := { s.cur with slot := slot } }
    else k { s with cur := { s.cur with slot := slot } }

/-- Put an effect after those of the instance so far (R153, R248). -/
def addEff (s : State) (e : Eff) : State := { s with cur := { s.cur with effs := s.cur.effs ++ [e] } }
/-- A side-effecting command of the instance (R150). -/
def addCmd (s : State) (k : BufCmd) : State := addEff s (.cmd k)
/-- Note latch reads that are undefined, in the issuing slot (R37). -/
def reads (s : State) (codes : List Nat) : State := noteReads s s.cur.slot codes
/-- A scalar operand of the issuing slot. -/
def State.sval (s : State) (code : Nat) : Word := readS s.curCore.live s.cur.slot code
/-- A vector operand of the issuing slot. -/
def State.vval (s : State) (code : Nat) : Vec := readV s.curCore.live s.cur.slot code

/-- Pop a random word (R73 to R75): BOUND at the end of the range, DET_VIOLATION without a claim under DET (R50, R221). -/
def popRandom (s : State) (k : State → Word → State) : State :=
  let x := s.curCore
  if (s.coreJob s.cur.core).det && !x.rngClaim then raise s cDetViolation 0
  else
    match x.popWord with
    | none => raise s cBound 0
    | some n =>
      k (s.onCore s.cur.core fun y => y.onLive fun a => { a with rngNext := a.rngNext + 1 }) (genG x.rngKey (BitVec.ofNat 64 n))

/-- The draws of a rounding (R73, R221): under STO those of a popped word, else none is made. -/
def withDraws (s : State) (rm : Nat) (k : State → (Nat → Nat) → State) : State :=
  if rm == 5 then popRandom s fun t w => k t (drawU w) else k s fun _ => 0

end Sys2Proof.Machine
end

