-- ==== Sys2Proof/Machine/Flags.lean ====
section
/-! DEFINITION. STATUS and FTO (R205, R206): what software may write of them, the sticky bits that operations set (R57, R190), and the
saturating integer sums that set SAT (R192). -/

namespace Sys2Proof.Machine

/-- STATUS bits that software may write: SAT to NV, FAULT_IGNORED, LATCHRD (R205). -/
def statusRw : Word := 0xDF

/-- A write of a register's fields in the three forms of CSRW (R202): 0 replaces, 1 sets, 2 clears; rw are the writable bits. -/
def csrWrite (form : Nat) (rw old a : Word) : Word :=
  match form with
  | 0 => (old &&& ~~~rw) ||| (a &&& rw)
  | 1 => old ||| (a &&& rw)
  | _ => old &&& ~~~(a &&& rw)

/-- FTO is W1C in every form (R202, R206). -/
def ftoWrite (old : BitVec 16) (a : Word) : BitVec 16 := old &&& ~~~(a.setWidth 16)

/-- The sum of ADD with its saturation (R192): result and the SAT bit; fn 0 wraps, 1 is signed, 2 unsigned. -/
def addSat (fn : Nat) (a b : Word) : Word × Nat :=
  match fn with
  | 0 => (a + b, 0)
  | 1 => let r := fitInt (a.toInt + b.toInt) 64 false true; (BitVec.ofNat 64 r.1, r.2)
  | _ => let r := fitInt ((a.toNat : Int) + b.toNat) 64 true true; (BitVec.ofNat 64 r.1, r.2)

/-- The difference of SUB with its saturation (R192). -/
def subSat (fn : Nat) (a b : Word) : Word × Nat :=
  match fn with
  | 0 => (a - b, 0)
  | 1 => let r := fitInt (a.toInt - b.toInt) 64 false true; (BitVec.ofNat 64 r.1, r.2)
  | _ => let r := fitInt ((a.toNat : Int) - b.toNat) 64 true true; (BitVec.ofNat 64 r.1, r.2)

/-- The condition of SETP (R195). -/
def setpCond (fn : Nat) (a b : Word) : Bool :=
  match fn with
  | 0 => a == b
  | 1 => a != b
  | 2 => a.slt b
  | 3 => !a.slt b
  | 4 => a.ult b
  | 5 => !a.ult b
  | 6 => a &&& b != 0
  | _ => a &&& b == 0

/-- All lanes of a predicate at one outcome (R195). -/
def predOf (b : Bool) : Word := if b then allOnes else 0

end Sys2Proof.Machine
end

