-- ==== Sys2Proof/Machine/Scalar.lean ====
section
/-! DEFINITION. The integer, immediate and predicate instructions of the S slot (R190 to R195). -/

namespace Sys2Proof.Machine

/-- What a meaning answers. -/
abbrev Out := Host.Outcome State Fault Refusal

/-- A 64-bit result of an S operation on two sources (R190): res gives the result and the STATUS bits. -/
def opAB (f : F3) (lat : Nat) (s : State) (res : Word → Word → Word × Nat) : Out :=
  .next (slotOp 0 f.g s fun t =>
    let r := res (t.sval f.a) (t.sval f.b)
    giveS (orStatus (reads t [f.a, f.b]) r.2) 0 f.d r.1 lat)

/-- A 64-bit result of an S operation on one source. -/
def opA (f : F3) (lat : Nat) (s : State) (res : Word → Word) : Out :=
  .next (slotOp 0 f.g s fun t => giveS (reads t [f.a]) 0 f.d (res (t.sval f.a)) lat)

/-- A 64-bit result of an immediate instruction (R194). -/
def opImm (f : FI) (s : State) (res : Word → Word → Word) : Out :=
  .next (slotOp 0 f.g s fun t => giveS (reads t [f.a]) 0 f.d (res (t.sval f.a) (immFI f)) 1)

/-- DivRem of R193: quotient and remainder. -/
def divRem (unsigned : Bool) (a b : Word) : Word × Word :=
  if b = 0 then (allOnes, a)
  else if unsigned then (a / b, a % b)
  else (BitVec.ofInt 64 (a.toInt.tdiv b.toInt), BitVec.ofInt 64 (a.toInt.tmod b.toInt))

/-- Shifts by an amount that may be 64 or more (R192). -/
def shiftL (a b : Word) : Word := if 64 ≤ b.toNat then 0 else a <<< b.toNat
def shiftR (a b : Word) : Word := if 64 ≤ b.toNat then 0 else a >>> b.toNat
def shiftA (a b : Word) : Word := if 64 ≤ b.toNat then (if a.msb then allOnes else 0) else a.sshiftRight b.toNat

/-- The high half of a product (R192): fn 0 signed, 1 unsigned, 2 signed by unsigned. -/
def mulHigh (fn : Nat) (a b : Word) : Word :=
  let x : Int := if fn = 1 then a.toNat else a.toInt
  let y : Int := if fn = 0 then b.toInt else b.toNat
  BitVec.ofInt 64 (x * y / 2 ^ 64)

/-- The number of leading zero bits. -/
def leadZeros (a : Word) : Nat := if a = 0 then 64 else 63 - a.toNat.log2
/-- The number of one bits. -/
def countOnes (a : Word) : Nat := ((List.range 64).filter fun i => a.getLsbD i).length

def execNop (_ : Nat) (s : State) : Out := .next s
/-- ADD (R192). -/
def execAdd (f : F3) (s : State) : Out := opAB f 1 s (addSat f.fn)
/-- SUB (R192). -/
def execSub (f : F3) (s : State) : Out := opAB f 1 s (subSat f.fn)
/-- MUL (R192). -/
def execMul (f : F3) (s : State) : Out := opAB f 3 s fun a b => (a * b, 0)
/-- MULH (R192). -/
def execMulh (f : F3) (s : State) : Out := opAB f 3 s fun a b => (mulHigh f.fn a b, 0)
/-- DIV (R193). -/
def execDiv (f : F3) (s : State) : Out := opAB f 24 s fun a b => ((divRem (f.fn == 1) a b).1, 0)
/-- REM (R193). -/
def execRem (f : F3) (s : State) : Out := opAB f 24 s fun a b => ((divRem (f.fn == 1) a b).2, 0)
/-- AND (R192). -/
def execAnd (f : F3) (s : State) : Out := opAB f 1 s fun a b => (a &&& b, 0)
/-- OR (R192). -/
def execOr (f : F3) (s : State) : Out := opAB f 1 s fun a b => (a ||| b, 0)
/-- XOR (R192). -/
def execXor (f : F3) (s : State) : Out := opAB f 1 s fun a b => (a ^^^ b, 0)
/-- SHL (R192). -/
def execShl (f : F3) (s : State) : Out := opAB f 1 s fun a b => (shiftL a b, 0)
/-- SHR (R192). -/
def execShr (f : F3) (s : State) : Out := opAB f 1 s fun a b => (shiftR a b, 0)
/-- SRA (R192). -/
def execSra (f : F3) (s : State) : Out := opAB f 1 s fun a b => (shiftA a b, 0)
/-- MIN (R192). -/
def execMin (f : F3) (s : State) : Out :=
  opAB f 1 s fun a b => (if (if f.fn == 1 then b.ult a else b.slt a) then b else a, 0)
/-- MAX (R192). -/
def execMax (f : F3) (s : State) : Out :=
  opAB f 1 s fun a b => (if (if f.fn == 1 then a.ult b else a.slt b) then b else a, 0)
/-- CLZ (R192). -/
def execClz (f : F3) (s : State) : Out := opA f 1 s fun a => BitVec.ofNat 64 (leadZeros a)
/-- POPC (R192). -/
def execPopc (f : F3) (s : State) : Out := opA f 1 s fun a => BitVec.ofNat 64 (countOnes a)
/-- SEL (R195): a when bit 0 of the predicate FN names is 1, else b. -/
def execSel (f : F3) (s : State) : Out :=
  opAB f 1 s fun a b => (if (s.curCore.live.pred f.fn).getLsbD 0 then a else b, 0)
/-- SETP (R195). -/
def execSetp (f : F3) (s : State) : Out :=
  .next (slotOp 0 f.g s fun t =>
    giveP (reads t [f.a, f.b]) 0 f.d (predOf (setpCond f.fn (t.sval f.a) (t.sval f.b))) allOnes 1)
/-- ADDI (R194). -/
def execAddi (f : FI) (s : State) : Out := opImm f s (· + ·)
/-- ANDI (R194). -/
def execAndi (f : FI) (s : State) : Out := opImm f s (· &&& ·)
/-- ORI (R194). -/
def execOri (f : FI) (s : State) : Out := opImm f s (· ||| ·)
/-- XORI (R194). -/
def execXori (f : FI) (s : State) : Out := opImm f s (· ^^^ ·)
/-- SHLI (R194). -/
def execShli (f : FI) (s : State) : Out := opImm f s shiftL
/-- SHRI (R194). -/
def execShri (f : FI) (s : State) : Out := opImm f s shiftR
/-- SRAI (R194). -/
def execSrai (f : FI) (s : State) : Out := opImm f s shiftA
/-- MOVI (R194). -/
def execMovi (f : FI) (s : State) : Out :=
  .next (slotOp 0 f.g s fun t => giveS t 0 f.d (immFI f) 1)
/-- MOVH (R194). -/
def execMovh (f : FI) (s : State) : Out :=
  opImm f s fun a imm => (imm <<< 32) ||| (a &&& 0xFFFFFFFF)

/-- The bitwise operations of PLOG (R195). -/
def plogOp (fn : Nat) (a b : Word) : Word :=
  match fn with
  | 0 => a &&& b
  | 1 => a ||| b
  | 2 => a ^^^ b
  | 3 => a &&& ~~~b
  | 4 => a ||| ~~~b
  | _ => ~~~a

/-- PLOG (R195). -/
def execPlog (f : F3) (s : State) : Out :=
  .next (slotOp 0 f.g s fun t =>
    giveP t 0 f.d (plogOp f.fn (t.curCore.live.pred f.a) (t.curCore.live.pred f.b)) allOnes 1)
/-- PMOV (R195): to a predicate, from a predicate, or a whole predicate by a test. -/
def execPmov (f : F3) (s : State) : Out :=
  .next (slotOp 0 f.g s fun t =>
    if f.fn == 1 then giveS t 0 f.d (t.curCore.live.pred f.a) 1
    else giveP (reads t [f.a]) 0 f.d (if f.fn == 0 then t.sval f.a else predOf (t.sval f.a != 0)) allOnes 1)

end Sys2Proof.Machine
end

