-- ==== Sys2Proof/Machine/Vector.lean ====
section
/-! DEFINITION. The V slot: lane arithmetic, comparisons, reductions and scans, lane movement, VDOT4 and the four function
instructions (R217 to R235). -/

namespace Sys2Proof.Machine

/-! ### Lanes and masks (R217, R218) -/

/-- Lane i of width w is active under a mask predicate (R218). -/
def activeLane (m : Word) (w i : Nat) : Bool := m.getLsbD (i * w / 32)
/-- The bits of a register that a mask predicate lets an operation write. -/
def groupMask (m : Word) : Vec := ofLanes 32 64 fun j => if m.getLsbD j then 2 ^ 32 - 1 else 0
/-- A register from its lanes of width w, lane 0 first. -/
def packLanes (w : Nat) (xs : List Nat) : Vec := BitVec.ofNat 2048 (xs.foldr (fun x acc => x % 2 ^ w + acc * 2 ^ w) 0)
/-- The number of lanes of width w. -/
def laneCount (w : Nat) : Nat := 2048 / w
/-- The status bits of a list of results. -/
def orAll (xs : List (Nat × Nat)) : Nat := xs.foldl (fun acc x => acc ||| x.2) 0
/-- The mask predicate of a V operation. -/
def vMask (s : State) (f : F3) : Word := s.curCore.live.pred (vMsk f)

/-- Deliver active lanes g i of width w (R218, R221): each lane's code with its status bits. -/
def giveLanes (s : State) (f : F3) (w lat : Nat) (g : Nat → Nat × Nat) : State :=
  let m := vMask s f
  let rs := (List.range (laneCount w)).map fun i => if activeLane m w i then g i else (0, 0)
  giveV (orStatus s (orAll rs)) 1 f.d (packLanes w (rs.map (·.1))) (groupMask m) lat

/-- A V operation on lanes of a, b and c; latencies for integer and floating lane types (R222). -/
def vLanes (f : F3) (latI latF : Nat) (s : State) (g : RMode → Nat → Nat → Nat → Nat → Nat → Nat × Nat) : Out :=
  .next (slotOp 1 f.g s fun t0 =>
    let w := ltWidth f.fn
    let t := reads t0 [f.a, f.b, vCs f]
    withDraws t (vRm f) fun u draw =>
      let a := t.vval f.a
      let b := t.vval f.b
      let c := t.vval (vCs f)
      giveLanes u f w (if ltInt f.fn then latI else latF) fun i =>
        g (RMode.ofCode (vRm f)) (draw i) i (lane a w i) (lane b w i) (lane c w i))

/-! ### Arithmetic (R223, R224) -/

/-- The integer value of a lane under the signed or unsigned reading. -/
def intOf (unsigned : Bool) (w x : Nat) : Int := if unsigned then (x : Int) else sint w x
/-- An integer form of VADD, VSUB, VMUL (SUB 0, 1) and VFMA on exact values (R223). -/
def intLane (f : F3) (op : Int → Int → Int → Int) (x y z : Nat) : Nat × Nat :=
  let w := ltWidth f.fn
  let un := vSub f == 1
  fitInt (op (intOf un w x) (intOf un w y) (intOf un w z)) w un (vSat f)
/-- A floating form: the exact result, rounded once (R223). -/
def floatLane (f : F3) (rm : RMode) (u : Nat) (p : Fp × Nat) : Nat × Nat :=
  let r := roundFp (ltFmt f.fn) rm u p.1
  (r.1, p.2 ||| r.2)
/-- The value of a floating lane. -/
def fpLane (f : F3) (x : Nat) : Fp := (ltFmt f.fn).decode x

/-- VADD (R223). -/
def execVadd (f : F3) (s : State) : Out :=
  vLanes f 2 4 s fun rm u _ x y z =>
    if ltInt f.fn then intLane f (fun X Y _ => X + Y) x y z
    else floatLane f rm u (Fp.add (rm == .rdn) (fpLane f x) (fpLane f y))
/-- VSUB (R223). -/
def execVsub (f : F3) (s : State) : Out :=
  vLanes f 2 4 s fun rm u _ x y z =>
    if ltInt f.fn then intLane f (fun X Y _ => X - Y) x y z
    else floatLane f rm u (Fp.add (rm == .rdn) (fpLane f x) (fpLane f y).neg)
/-- The high half of a product of lanes (R223, SUB 2 and 3). -/
def mulHi (unsigned : Bool) (w x y : Nat) : Nat := islice w (intOf unsigned w x * intOf unsigned w y / 2 ^ w)
/-- VMUL (R223). -/
def execVmul (f : F3) (s : State) : Out :=
  vLanes f 2 4 s fun rm u _ x y z =>
    if ltInt f.fn then
      (if 2 ≤ vSub f then (mulHi (vSub f == 3) (ltWidth f.fn) x y, 0) else intLane f (fun X Y _ => X * Y) x y z)
    else floatLane f rm u (Fp.mul (fpLane f x) (fpLane f y))
/-- VFMA (R223). -/
def execVfma (f : F3) (s : State) : Out :=
  vLanes f 2 4 s fun rm u _ x y z =>
    if ltInt f.fn then intLane f (fun X Y Z => X * Y + Z) x y z
    else floatLane f rm u (Fp.fma (rm == .rdn) (fpLane f x) (fpLane f y) (fpLane f z))
/-- The smaller or larger of two lanes (R224). -/
def minMaxLane (f : F3) (isMax : Bool) (x y : Nat) : Nat :=
  if ltInt f.fn then
    let w := ltWidth f.fn
    let un := vSub f == 1
    if isMax then (if intOf un w x < intOf un w y then y else x) else (if intOf un w y < intOf un w x then y else x)
  else fpMinMax (ltFmt f.fn) isMax x y
/-- VMIN (R224). -/
def execVmin (f : F3) (s : State) : Out := vLanes f 2 4 s fun _ _ _ x y _ => (minMaxLane f false x y, 0)
/-- VMAX (R224). -/
def execVmax (f : F3) (s : State) : Out := vLanes f 2 4 s fun _ _ _ x y _ => (minMaxLane f true x y, 0)
/-- A floating lane with its sign bit replaced; a NaN becomes canonical (R224). -/
def signLane (f : F3) (x : Nat) (neg : Bool) : Nat :=
  if fpLane f x == .nan then (ltFmt f.fn).nanCode
  else x % 2 ^ (ltWidth f.fn - 1) + (if neg then 2 ^ (ltWidth f.fn - 1) else 0)
/-- VABS (R224). -/
def execVabs (f : F3) (s : State) : Out :=
  vLanes f 2 2 s fun _ _ _ x _ _ =>
    if ltInt f.fn then fitInt (sint (ltWidth f.fn) x).natAbs (ltWidth f.fn) false (vSat f) else (signLane f x false, 0)
/-- VNEG (R224). -/
def execVneg (f : F3) (s : State) : Out :=
  vLanes f 2 2 s fun _ _ _ x _ _ =>
    if ltInt f.fn then fitInt (-(sint (ltWidth f.fn) x)) (ltWidth f.fn) false (vSat f)
    else (signLane f x (!x.testBit (ltWidth f.fn - 1)), 0)

/-! ### Bits and shifts (R225), select (R226) -/

/-- A bitwise V operation on whole registers (R225). -/
def vBits (f : F3) (s : State) (op : Vec → Vec → Vec) : Out :=
  .next (slotOp 1 f.g s fun t =>
    giveV (reads t [f.a, f.b]) 1 f.d (op (t.vval f.a) (t.vval f.b)) (groupMask (vMask t f)) 2)
/-- VAND (R225). -/
def execVand (f : F3) (s : State) : Out := vBits f s (· &&& ·)
/-- VOR (R225). -/
def execVor (f : F3) (s : State) : Out := vBits f s (· ||| ·)
/-- VXOR (R225). -/
def execVxor (f : F3) (s : State) : Out := vBits f s (· ^^^ ·)
/-- VSHL (R225). -/
def execVshl (f : F3) (s : State) : Out :=
  vLanes f 2 2 s fun _ _ _ x n _ => (if ltWidth f.fn ≤ n then 0 else x * 2 ^ n % 2 ^ ltWidth f.fn, 0)
/-- VSHR (R225). -/
def execVshr (f : F3) (s : State) : Out :=
  vLanes f 2 2 s fun _ _ _ x n _ => (if ltWidth f.fn ≤ n then 0 else x / 2 ^ n, 0)
/-- VSRA (R225). -/
def execVsra (f : F3) (s : State) : Out :=
  vLanes f 2 2 s fun _ _ _ x n _ => (islice (ltWidth f.fn) (sint (ltWidth f.fn) x / 2 ^ Nat.min n (ltWidth f.fn)), 0)
/-- VSEL (R226). -/
def execVsel (f : F3) (s : State) : Out :=
  vLanes f 2 2 s fun _ _ i x y _ =>
    (if activeLane (s.curCore.live.pred (vSub f)) (ltWidth f.fn) i then x else y, 0)

/-! ### VCMP (R227) -/

/-- The outcome of a lane's comparison. -/
def cmpLane (f : F3) (x y : Nat) : Bool :=
  let w := ltWidth f.fn
  if ltInt f.fn then
    match vSub f with
    | 0 => x == y
    | 1 => x != y
    | 2 => decide (sint w x < sint w y)
    | 3 => decide (sint w x ≤ sint w y)
    | 4 => decide (sint w y < sint w x)
    | 5 => decide (sint w y ≤ sint w x)
    | 6 => decide (x < y)
    | _ => decide (x ≤ y)
  else
    let a := fpLane f x
    let b := fpLane f y
    let un := a == .nan || b == .nan
    match vSub f with
    | 0 => Fp.eq a b
    | 1 => !Fp.eq a b
    | 2 => Fp.lt a b
    | 3 => Fp.lt a b || Fp.eq a b
    | 4 => Fp.lt b a
    | 5 => Fp.lt b a || Fp.eq a b
    | 6 => un
    | _ => !un
/-- The outcome of lane group j (R227): the AND, or with .any the OR, of its lanes. -/
def cmpGroup (f : F3) (a b : Vec) (j : Nat) : Bool :=
  let w := ltWidth f.fn
  let outs := (List.range (32 / w)).map fun k => cmpLane f (lane a w (32 / w * j + k)) (lane b w (32 / w * j + k))
  if vSat f then outs.any id else outs.all id
/-- VCMP (R227). -/
def execVcmp (f : F3) (s : State) : Out :=
  .next (slotOp 1 f.g s fun t =>
    let a := t.vval f.a
    let b := t.vval f.b
    let bits_ : Word := BitVec.ofNat 64 ((List.range 64).foldr (fun j acc => (if cmpGroup f a b j then 1 else 0) + 2 * acc) 0)
    giveP (reads t [f.a, f.b]) 1 f.d bits_ (vMask t f) 2)

/-! ### Reductions and scans (R70, R71, R228, R229) -/

/-- Apply in the accumulation type T, a lane type: add, min, max, and, or, xor, minu, maxu (R229). -/
def redApply (t sub : Nat) (sat : Bool) (rm : RMode) (x y : Nat) : Nat × Nat :=
  let w := ltWidth t
  match sub with
  | 0 =>
    if ltInt t then fitInt (sint w x + sint w y) w false sat
    else
      let p := Fp.add (rm == .rdn) ((ltFmt t).decode x) ((ltFmt t).decode y)
      let r := roundFp (ltFmt t) rm 0 p.1
      (r.1, p.2 ||| r.2)
  | 1 => if ltInt t then (if sint w y < sint w x then y else x, 0) else (fpMinMax (ltFmt t) false x y, 0)
  | 2 => if ltInt t then (if sint w x < sint w y then y else x, 0) else (fpMinMax (ltFmt t) true x y, 0)
  | 3 => (x &&& y, 0)
  | 4 => (x ||| y, 0)
  | 5 => (x ^^^ y, 0)
  | 6 => (Nat.min x y, 0)
  | _ => (Nat.max x y, 0)

/-- One level of the tree (R70): pairs of lanes, none for a lane that takes no part, with the status so far. -/
def treeLevel (ap : Nat → Nat → Nat × Nat) : List (Option Nat) → List (Option Nat) × Nat
  | x :: y :: rest =>
    let t := treeLevel ap rest
    match x, y with
    | some a, some b => let r := ap a b; (some r.1 :: t.1, r.2 ||| t.2)
    | some a, none => (some a :: t.1, t.2)
    | none, z => (z :: t.1, t.2)
  | xs => (xs, 0)
/-- TreeReduce (R70); fuel bounds the levels. A NaN lane that passes without an Apply is made canonical by the caller (R56, log entry 93). -/
def treeReduce (ap : Nat → Nat → Nat × Nat) : Nat → List (Option Nat) → Nat × Nat
  | 0, xs => ((xs.headD none).getD 0, 0)
  | n + 1, xs =>
    if xs.length ≤ 1 then ((xs.headD none).getD 0, 0)
    else
      let l := treeLevel ap xs
      let r := treeReduce ap n l.1
      (r.1, l.2 ||| r.2)

/-- The accumulation type of VRED (R228). -/
def redType (t sub : Nat) : Nat := if sub == 0 then (if ltInt t then 0 else 1) else t
/-- A lane as it enters the reduction (R228, R61). -/
def redEnter (t sub x : Nat) : Nat :=
  if sub != 0 || t == redType t sub then x
  else if ltInt t then islice 32 (sint (ltWidth t) x)
  else (fpConvert (ltFmt t) .fp32 .rne 0 x).1
/-- VRED (R228, R229). -/
def execVred (f : F3) (s : State) : Out :=
  .next (slotOp 1 f.g s fun t =>
    let w := ltWidth f.fn
    let a := t.vval f.a
    let m := vMask t f
    let ty := redType f.fn (vSub f)
    let xs := (List.range (laneCount w)).map fun i =>
      if activeLane m w i then some (redEnter f.fn (vSub f) (lane a w i)) else none
    let r := treeReduce (redApply ty (vSub f) (vSat f) (RMode.ofCode (vRm f))) 8 xs
    let out := if ltInt ty then islice 32 (sint (ltWidth ty) r.1) else canonNaN (ltFmt ty) r.1 % 2 ^ 32
    giveV (orStatus (reads t [f.a]) r.2) 1 f.d (BitVec.ofNat 2048 out) maskAll 12)

/-- The running values of a scan (R71). A NaN that is the first active lane is made canonical by the caller (R56, log entry 93). -/
def scanLanes (ap : Nat → Nat → Nat × Nat) : Option Nat → List (Option Nat) → List (Nat × Nat)
  | _, [] => []
  | none, none :: xs => (0, 0) :: scanLanes ap none xs
  | none, some x :: xs => (x, 0) :: scanLanes ap (some x) xs
  | some u, none :: xs => (u, 0) :: scanLanes ap (some u) xs
  | some u, some x :: xs => ap u x :: scanLanes ap (some (ap u x).1) xs
/-- VSCAN (R228, R229). -/
def execVscan (f : F3) (s : State) : Out :=
  .next (slotOp 1 f.g s fun t =>
    let w := ltWidth f.fn
    let a := t.vval f.a
    let m := vMask t f
    let xs := (List.range (laneCount w)).map fun i => if activeLane m w i then some (lane a w i) else none
    let rs := scanLanes (redApply f.fn (vSub f) (vSat f) (RMode.ofCode (vRm f))) none xs
    let out := rs.map fun r => if ltInt f.fn then r.1 else canonNaN (ltFmt f.fn) r.1
    giveV (orStatus (reads t [f.a]) (orAll rs)) 1 f.d (packLanes w out) maskAll 12)

/-! ### Moving lanes (R230 to R233) -/

/-- VPERM (R230). -/
def execVperm (f : F3) (s : State) : Out :=
  .next (slotOp 1 f.g s fun t =>
    let w := ltWidth f.fn
    let n := laneCount w
    let a := t.vval f.a
    let b := t.vval f.b
    let c := t.vval (vCs f)
    giveLanes (reads t [f.a, f.b, vCs f]) f w 3 fun i =>
      let k := lane b w i
      (if k / n % 2 == 0 then lane a w (k % n) else lane c w (k % n), 0))
/-- VBCAST (R231). -/
def execVbcast (f : F3) (s : State) : Out :=
  .next (slotOp 1 f.g s fun t =>
    let w := ltWidth f.fn
    let x := lane (t.vval f.a) w (lane (t.vval f.b) 32 0 % laneCount w)
    giveLanes (reads t [f.a, f.b]) f w 2 fun _ => (x, 0))
/-- VEXTR (R232). -/
def execVextr (f : F3) (s : State) : Out :=
  .next (slotOp 1 f.g s fun t =>
    let w := ltWidth f.fn
    let x := lane (t.vval f.a) w (lane (t.vval f.b) 32 0 % laneCount w)
    giveV (reads t [f.a, f.b]) 1 f.d (BitVec.ofNat 2048 (if ltInt f.fn then islice 64 (sint w x) else x)) maskAll 3)
/-- The active lanes below lane i. -/
def activeBelow (m : Word) (w i : Nat) : Nat := ((List.range i).filter (activeLane m w)).length
/-- VIOTA (R233). In the floating form k is added as +0 where it is 0, so that −0 + 0 follows IEEE 754: +0, or −0 under RDN. DESIGN CHOICE (log
entry 136). -/
def execViota (f : F3) (s : State) : Out :=
  .next (slotOp 1 f.g s fun t0 =>
    let w := ltWidth f.fn
    let t := reads t0 [f.a]
    withDraws t (vRm f) fun u draw =>
      let x0 := lane (t.vval f.a) w 0
      let m := vMask t f
      let rm := RMode.ofCode (vRm f)
      giveLanes u f w 2 fun i =>
        let k := if vSub f == 1 then activeBelow m w i else i
        if ltInt f.fn then ((x0 + k) % 2 ^ w, 0) else floatLane f rm (draw i) (Fp.add (rm == .rdn) (fpLane f x0) (Fp.ofInt k)))

/-! ### VDOT4 (R234) and the function instructions (R235) -/

/-- The exact sum of the integer forms. -/
def dotInt (f : F3) (a b : Vec) (j : Nat) (c : Nat) : Nat × Nat :=
  let w := ltWidth f.fn
  let n := 32 / w
  let terms := (List.range n).map fun k =>
    intOf (vSub f == 1) w (lane a w (n * j + k)) * intOf (vSub f != 0) w (lane b w (n * j + k))
  fitInt (terms.foldl (· + ·) (sint 32 c)) 32 (vSub f == 1) (vSat f)
/-- The exact sum of a list of terms as one sum (R234): terms of opposite infinities set NV and give NaN, whatever stands beside them. -/
def fpSum (rdn : Bool) (x : Fp) (xs : List Fp) : Fp × Nat :=
  let ys := x :: xs
  if ys.contains (.inf false) && ys.contains (.inf true) then (.nan, fNV) else (xs.foldl (fun acc y => (Fp.add rdn acc y).1) x, 0)
/-- The floating forms: c and the products are summed exactly, with NV for ∞ × 0 and for opposite infinities, and rounded once. -/
def dotFloat (f : F3) (rm : RMode) (u : Nat) (a b : Vec) (j c : Nat) : Nat × Nat :=
  let w := ltWidth f.fn
  let n := 32 / w
  let ps := (List.range n).map fun k => Fp.mul (fpLane f (lane a w (n * j + k))) (fpLane f (lane b w (n * j + k)))
  let p := fpSum (rm == .rdn) (Fmt.fp32.decode c) (ps.map (·.1))
  let r := roundFp .fp32 rm u p.1
  (r.1, ps.foldl (fun acc q => acc ||| q.2) p.2 ||| r.2)
/-- VDOT4 (R234): lane j of 32 bits is active when bit j of MSK is 1; c is a signed INT32 in every form (log entry 25). -/
def execVdot4 (f : F3) (s : State) : Out :=
  .next (slotOp 1 f.g s fun t0 =>
    let t := reads t0 [f.a, f.b, vCs f]
    withDraws t (vRm f) fun u draw =>
      let a := t.vval f.a
      let b := t.vval f.b
      let c := t.vval (vCs f)
      giveLanes u f 32 4 fun j =>
        if ltInt f.fn then dotInt f a b j (lane c 32 j) else dotFloat f (RMode.ofCode (vRm f)) (draw j) a b j (lane c 32 j))

/-- A function instruction (R235). -/
def vFunction (op : FnOp) (f : F3) (s : State) : Out :=
  vLanes f 16 16 s fun rm u _ x _ _ => fnLane op (ltFmt f.fn) rm u x
/-- VRCP (R235). -/
def execVrcp (f : F3) (s : State) : Out := vFunction .rcp f s
/-- VRSQ (R235). -/
def execVrsq (f : F3) (s : State) : Out := vFunction .rsq f s
/-- VEXP2 (R235). -/
def execVexp2 (f : F3) (s : State) : Out := vFunction .exp2 f s
/-- VLOG2 (R235). -/
def execVlog2 (f : F3) (s : State) : Out := vFunction .log2 f s

end Sys2Proof.Machine
end

