-- ==== Sys2Proof/Machine/LoadStore.lean ====
section
/-! DEFINITION. The L slot: loads, stores, prefetch, cache maintenance and atomics at memory (R245 to R256). -/

namespace Sys2Proof.Machine

/-! ### Addresses (R245) -/

/-- base + index + offset, with the sticky offset of R146, modulo 2^64. -/
def effAddr (s : State) (base index : Word) (off : Int) : Nat := (((base.toNat : Int) + index.toNat + off + s.cur.off) % 2 ^ 64).toNat
/-- EA of an L operation with base A and index B. -/
def lAddr (s : State) (f : F3) : Nat := effAddr s (s.sval f.a) (s.sval f.b) (lOff f)
/-- EA of the forms whose B has another purpose. -/
def lBase (s : State) (f : F3) : Nat := effAddr s (s.sval f.a) 0 (lOff f)

/-- Note the LOCAL bytes that an access touches (R142, R152, R302). -/
def noteTouched (s : State) (ps : List Piece) (write : Bool) : State :=
  let ls := localPieces ps
  let t := if write then s else noteLocalReads s s.cur.core ls
  { t with cur := { t.cur with locals := t.cur.locals ++ ls.map fun x => (x.1, x.2, write) } }

/-- Some piece lies in the control window (R433). -/
def anyCtl (ps : List Piece) : Bool := ps.any fun p => p.loc.sp == .ctl

/-! ### Scalar loads and stores (R249) -/

/-- Size(FN) of LDS and STS. -/
def lsSize : Nat → Nat
  | 0 => 8 | 1 => 4 | 2 => 4 | 3 => 2 | 4 => 2 | _ => 1
/-- The register value of loaded bytes (R249). -/
def loadedValue (fn x : Nat) : Word :=
  if fn == 2 || fn == 4 || fn == 6 then BitVec.ofNat 64 x else BitVec.ofInt 64 (sint (8 * lsSize fn) x)

/-- Load pieces at issue with forwarding and pending checks (R150, R157, R247): bytes, latency, state. -/
def loadNow (s : State) (hint : Nat) (ps : List Piece) : List Byte × Nat × State :=
  let r := loadPieces s s.cur.core hint ps
  (r.1, r.2.1, noteChecks (noteTouched r.2.2 ps false) s.cur.core ps)

/-- LDS (R249). -/
def execLds (f : F3) (s : State) : Out :=
  .next (slotOp 2 f.g s fun t0 =>
    let t := reads t0 [f.a, f.b]
    withAccess t (lAddr t f) (lsSize f.fn) 0 .read false fun u ps =>
      if anyCtl ps then addEff u (.ctlLoad ((ps.head?.map (·.loc.addr)).getD 0) (lsSize f.fn) f.fn f.d)
      else
        let r := loadNow u (lHint f) ps
        giveS r.2.2 2 f.d (loadedValue f.fn (leNat r.1)) r.2.1)

/-- The stores of bytes to the pieces of an access, ascending, with the access's hint (R87, R248). -/
def storeEffs (s : State) (hint : Nat) : List Piece → List Byte → State
  | [], _ => s
  | p :: ps, bs => storeEffs (addEff s (.store p.loc (bs.take p.len) hint)) hint ps (bs.drop p.len)

/-- STS (R249). -/
def execSts (f : F3) (s : State) : Out :=
  .next (slotOp 2 f.g s fun t0 =>
    let t := reads t0 [f.a, f.b, f.d]
    let x := (t.sval f.d).toNat
    let n := lsSize f.fn
    withAccess t (lAddr t f) n 0 .write false fun u ps =>
      if anyCtl ps then addEff u (.ctlStore ((ps.head?.map (·.loc.addr)).getD 0) n (x % 2 ^ (8 * n)))
      else storeEffs (noteTouched u ps true) (lHint f) ps (natLE n x))

/-! ### Vector loads and stores (R250, R251) -/

/-- The checks of R246 on elements in ascending order, each lane with its address: the pieces by lane and the pages used. -/
def elemAccess (s : State) (c n align : Nat) (need : Need) : List (Nat × Nat) → Except Flt (List (Nat × List Piece) × List TlbEnt)
  | [] => .ok ([], [])
  | (i, va) :: rest =>
    if !spanCanonical va n then .error { code := cAccess, info := va }
    else
      match coreAccess s c va n align need false with
      | .error e => .error e
      | .ok r =>
        if r.1.any fun p => formBlocks s c p.loc p.len then .error { code := cForm, info := va }
        else
          match elemAccess s c n align need rest with
          | .error e => .error e
          | .ok t => .ok ((i, r.1) :: t.1, r.2 ++ t.2)

/-- Step 2 of R246 for a vector operation, met by its first element: the first element on the other side of the LOCAL window's edge. A
first element that fails step 1 fails first. -/
def mixedLocal (n : Nat) (es : List (Nat × Nat)) : Option Nat :=
  match es with
  | [] => none
  | e :: _ => if !spanCanonical e.2 n then none else (es.find? fun x => isLocal x.2 != isLocal e.2).map (·.2)
/-- The checks of R246 on the active elements of a vector form. -/
def vecAccess (s : State) (c n : Nat) (need : Need) (es : List (Nat × Nat)) : Except Flt (List (Nat × List Piece) × List TlbEnt) :=
  match mixedLocal n es with
  | some va => .error { code := cAccess, info := va }
  | none => elemAccess s c n n need es
/-- Check the active elements of a vector form and go on with their pieces. -/
def withElems (s : State) (f : F3) (w : Nat) (addr : Nat → Nat) (need : Need) (k : State → List (Nat × List Piece) → State) : State :=
  let m := s.curCore.live.pred (lMsk f)
  let es := ((List.range (laneCount w)).filter (activeLane m w)).map fun i => (i, addr i % 2 ^ 64)
  match vecAccess s s.cur.core (w / 8) need es with
  | .error e => accessFail s e
  | .ok r => k (keepPages s s.cur.core r.2) r.1

/-- Load elements one after another: the lanes' values, the slowest latency, the state after. A load with no active element has no slowest one;
it lands at the latency of LOCAL. DESIGN CHOICE (log entry 131). -/
def loadElems (s : State) (hint : Nat) : List (Nat × List Piece) → List (Nat × Nat) × Nat × State
  | [] => ([], latLocal, s)
  | e :: es =>
    let r := loadNow s hint e.2
    let t := loadElems r.2.2 hint es
    ((e.1, leNat r.1) :: t.1, Nat.max r.2.1 t.2.1, t.2.2)

/-- An access to the control window by elements has its effect at issue too (R433). -/
def touchCtl (s : State) (es : List (Nat × List Piece)) : State := if es.any fun e => anyCtl e.2 then addEff s .ctlTouch else s
/-- Store one element: to a buffer of the control window at issue (R433), elsewhere from the store buffer. -/
def storeElem (s : State) (f : F3) (ps : List Piece) (bs : List Byte) : State :=
  if anyCtl ps then addEff s (.ctlStore ((ps.head?.map (·.loc.addr)).getD 0) bs.length (leNat bs))
  else storeEffs (noteTouched s ps true) (lHint f) ps bs
/-- A vector load of lanes of width w (R250, R251). -/
def vecLoad (f : F3) (w : Nat) (codes : List Nat) (addr : State → Nat → Nat) (s : State) : Out :=
  .next (slotOp 2 f.g s fun t0 =>
    let t := reads t0 codes
    withElems t f w (addr t) .read fun u es =>
      let r := loadElems (touchCtl u es) (lHint f) es
      let m := u.curCore.live.pred (lMsk f)
      giveV r.2.2 2 f.d (ofLanes w (laneCount w) fun i => ((r.1.find? fun e => e.1 == i).map (·.2)).getD 0) (groupMask m) r.2.1)

/-- A vector store of lanes of width w (R250, R251). -/
def vecStore (f : F3) (w : Nat) (codes : List Nat) (addr : State → Nat → Nat) (s : State) : Out :=
  .next (slotOp 2 f.g s fun t0 =>
    let t := reads t0 (f.d :: codes)
    let v := t.vval f.d
    withElems t f w (addr t) .write fun u es =>
      es.foldl (fun x e => storeElem x f e.2 (natLE (w / 8) (lane v w e.1))) u)

/-- The element width of LDVS to STVX (R250). -/
def elemWidth : Nat → Nat
  | 0 => 32 | 1 => 16 | _ => 8
/-- Element addresses: consecutive groups, a signed stride, an index vector (R250). -/
def addrGroup (f : F3) (s : State) (j : Nat) : Nat := lAddr s f + 4 * j
def addrStride (f : F3) (s : State) (i : Nat) : Nat := (((lBase s f : Int) + i * (s.sval f.b).toInt) % 2 ^ 64).toNat
def addrIndex (f : F3) (s : State) (i : Nat) : Nat := lBase s f + lane (s.vval f.b) (elemWidth f.fn) i * (elemWidth f.fn / 8)

/-- LDV (R250). -/
def execLdv (f : F3) (s : State) : Out := vecLoad f 32 [f.a, f.b] (addrGroup f) s
/-- STV (R250). -/
def execStv (f : F3) (s : State) : Out := vecStore f 32 [f.a, f.b] (addrGroup f) s
/-- LDVS (R250). -/
def execLdvs (f : F3) (s : State) : Out := vecLoad f (elemWidth f.fn) [f.a, f.b] (addrStride f) s
/-- STVS (R250). -/
def execStvs (f : F3) (s : State) : Out := vecStore f (elemWidth f.fn) [f.a, f.b] (addrStride f) s
/-- LDVX (R250). -/
def execLdvx (f : F3) (s : State) : Out := vecLoad f (elemWidth f.fn) [f.a, f.b] (addrIndex f) s
/-- STVX (R250). -/
def execStvx (f : F3) (s : State) : Out := vecStore f (elemWidth f.fn) [f.a, f.b] (addrIndex f) s

/-! ### Prefetch and cache maintenance (R252, R253) -/

/-- The package physical line of an address that the TLBs or a walk translate to device memory. -/
def deviceLine (s : State) (c va : Nat) : Option Nat :=
  let p := s.corePart c
  let j := s.coreJob c
  if c == mgmtCore || isLocal va || isMillQual va then none
  else if (s.core c).live.priv_ == 1 then
    (if isSvc p va then some ((hbmRange p.desc p.svcRng).phys (p.svcBase + (va - svcWindow)) / 128) else none)
  else if isSvc p va then none
  else
    match lookup s (s.core c).tlb (coreDie c) j.pid j.aspace va with
    | .page e => if e.host || !p.holds e.addr e.size then none else some ((e.addr + (va % 2 ^ 57 - e.va)) / 128)
    | _ => none

/-- Prefetch n lines from a line address up (R252): a line that a load may not read is passed over. -/
def prefLines (s : State) (hint : Nat) : Nat → Nat → State
  | 0, _ => s
  | n + 1, va =>
    let t :=
      match coreAccess s s.cur.core va 128 0 .read false with
      | .ok r => (match r.1 with
        | [p] => if p.loc.sp == .hbm && s.cur.core != mgmtCore then prefLine s (coreMill s.cur.core) (p.loc.addr / 128) hint else s
        | _ => s)
      | .error _ => s
    prefLines t hint n (va + 128)
/-- PREF (R252). -/
def execPref (f : F3) (s : State) : Out :=
  .next (slotOp 2 f.g s fun t0 =>
    let t := reads t0 [f.a, f.b]
    let va := lAddr t f / 128 * 128
    if !spanCanonical va (128 * (f.fn + 1)) then raise t cAccess (lAddr t f) else prefLines t (lHint f) (f.fn + 1) va)

/-- The line of a CFLUSH or CINV, after its check (R253); none acts on no line. -/
def withLine (s : State) (f : F3) (k : State → Option Nat → State) : State :=
  if f.fn != 0 then k s none
  else
    let t := reads s [f.a, f.b]
    if !canonical (lAddr t f) then raise t cAccess (lAddr t f) else k t (deviceLine t t.cur.core (lAddr t f))
/-- CFLUSH (R253): a checkpoint bundle that waits for the strand's writes and then drops the lines. -/
def execCflush (f : F3) (s : State) : Out :=
  .next (slotOp 2 f.g s fun t => withLine t f fun u line =>
    if f.fn == 0 && line.isNone then u
    else
      let v := addCmd u (.cflush f.fn line)
      { v with cur := { v.cur with ckpt := true, sync := true } })
/-- CINV (R253). -/
def execCinv (f : F3) (s : State) : Out :=
  .next (slotOp 2 f.g s fun t => withLine t f fun u line =>
    if f.fn == 0 && line.isNone then u else addCmd u (.cinv f.fn line))

/-! ### Atomics (R254 to R256) -/

/-- The width in bits of an ATOM. -/
def atomWidth (f : F3) : Nat := if (lSub f).testBit 0 then 32 else 64
/-- ATOM (R254): performed when the instance has issued; on the control window it takes a register or buffer as any access does (R433). -/
def execAtom (f : F3) (s : State) : Out :=
  .next (slotOp 2 f.g s fun t0 =>
    let t := reads t0 [f.a, f.b, f.d]
    let w := atomWidth f
    withAccess t (lBase t f) (w / 8) (w / 8) .both true fun u ps =>
      match ps with
      | [p] =>
        if p.loc.sp == .ctl then addEff u (.ctlAtom p.loc.addr f (t.sval f.b) (t.sval f.d))
        else addEff (noteTouched u ps true) (.atom p.loc f (t.sval f.b) (t.sval f.d))
      | _ => u)
/-- The old value as ATOM delivers it (R254). -/
def atomResult (f : F3) (old : Nat) : Word :=
  if (lSub f).testBit 1 then BitVec.ofNat 64 old else BitVec.ofInt 64 (sint (atomWidth f) old)

/-- ACCV (R256). -/
def execAccv (f : F3) (s : State) : Out :=
  .next (slotOp 2 f.g s fun t0 =>
    let t := reads t0 [f.a, f.b, f.d]
    let ea := lAddr t f
    withAccess t ea 256 256 .both true fun u ps =>
      match ps with
      | [p] =>
        if p.loc.sp == .ctl then raise u cAccess ea
        else if formBlocks u u.cur.core p.loc 256 then raise u cForm ea
        else if (u.coreJob u.cur.core).det && !ltInt f.fn then raise u cDetViolation ea
        else addCmd (noteTouched u ps true) (.accv p.loc f.fn (lSub f) (groupMask (u.curCore.live.pred (lMsk f))) (t.vval f.d))
      | _ => u)

end Sys2Proof.Machine
end

