-- ==== Sys2Proof/Machine/Convert.lean ====
section
/-! DEFINITION. The X slot: conversion, quantisation, scales, random words, SEAL and OPEN at issue, packing (R236 to R244). -/

namespace Sys2Proof.Machine

/-! ### CVT (R237) -/

/-- One element of CVT from lane type src to dst. -/
def cvtElem (src dst : Nat) (rm : RMode) (u x : Nat) : Nat × Nat :=
  if ltInt src then
    if ltInt dst then
      (if ltWidth dst < ltWidth src then fitInt (sint (ltWidth src) x) (ltWidth dst) false true
       else (islice (ltWidth dst) (sint (ltWidth src) x), 0))
    else roundFp (ltFmt dst) rm u (Fp.ofInt (sint (ltWidth src) x))
  else if ltInt dst then fpToInt (ltWidth dst) rm u ((ltFmt src).decode x)
  else fpConvert (ltFmt src) (ltFmt dst) rm u x

/-- The lanes of d that CVT writes, and the source lane of each: element i goes from source lane to destination lane. -/
def cvtPlan (src dst part : Nat) : List (Nat × Nat) :=
  let ws := ltWidth src
  let wd := ltWidth dst
  if ws < wd then (List.range (laneCount wd)).map fun i => (part * laneCount wd + i, i)
  else (List.range (laneCount ws)).map fun i => (i, part * laneCount ws + i)

/-- CVT (R237); element i of the operation takes draw i (log entry 26). -/
def execCvt (f : F3) (s : State) : Out :=
  .next (slotOp 3 f.g s fun t0 =>
    let t := reads t0 [f.a]
    withDraws t (xRm f) fun u draw =>
      let dst := xTy f
      let wd := ltWidth dst
      let a := t.vval f.a
      let rs := (cvtPlan f.fn dst (xOffBits f)).zipIdx.map fun p =>
        (p.1.2, cvtElem f.fn dst (RMode.ofCode (xRm f)) (draw p.2) (lane a (ltWidth f.fn) p.1.1))
      let val := ofLanes wd (laneCount wd) fun i => ((rs.find? fun r => r.1 == i).map (·.2.1)).getD 0
      let mask := ofLanes wd (laneCount wd) fun i => if rs.any fun r => r.1 == i then 2 ^ wd - 1 else 0
      giveV (orStatus u (orAll (rs.map (·.2)))) 3 f.d val mask 4)

/-! ### QNT and DQNT (R238, R239) -/

/-- The bytes of a register. -/
def vecBytes (v : Vec) : List Byte := natLE 256 v.toNat
/-- A value of bytes placed at byte pos of a register, with the mask of those bytes. -/
def placeBytes (pos : Nat) (bs : List Byte) : Vec × Vec :=
  (BitVec.ofNat 2048 (leNat bs * 2 ^ (8 * pos)), BitVec.ofNat 2048 ((2 ^ (8 * bs.length) - 1) * 2 ^ (8 * pos)))

/-- QNT (R238). -/
def execQnt (f : F3) (s : State) : Out :=
  .next (slotOp 3 f.g s fun t0 =>
    let t := reads t0 [f.a]
    withDraws t (xRm f) fun u draw =>
      let w := ltWidth f.fn
      let m := efMx (xTy f)
      let xs := (List.range (laneCount w)).map fun i => ((ltFmt f.fn).decode (lane (t.vval f.a) w i), draw i)
      let blocks := (chunksOf 32 8 xs).map (mqntBlock m (RMode.ofCode (xRm f)))
      let codes := (blocks.map fun b => b.2.map (·.1)).flatten
      let st := blocks.foldl (fun acc b => acc ||| orAll b.2) 0
      let kpos := xOffBits f % 8
      let place := placeBytes (32 * (xOffBits f / 8 % 8)) (bytesOfFields m.width codes)
      let scales := placeBytes kpos (blocks.map fun b => BitVec.ofNat 8 b.1)
      giveK (giveV (orStatus u st) 3 f.d place.1 place.2 6) 3 (xKr f) (scales.1.setWidth 64) (scales.2.setWidth 64) 6 false)

/-- DQNT (R239). DEDUCED: MXINT8 code −128 at scale 254, whose value −2^128 FP32 and BF16 cannot hold, overflows by R59 (log entry 94). -/
def execDqnt (f : F3) (s : State) : Out :=
  .next (slotOp 3 f.g s fun t0 =>
    let t := reads t0 [f.a]
    withDraws t (xRm f) fun u draw =>
      let w := ltWidth f.fn
      let m := efMx (xTy f)
      let data := (vecBytes (t.vval f.a)).drop (32 * (xOffBits f / 8 % 8))
      let k := u.curCore.live.kreg (xKr f)
      let rs := (List.range (laneCount w)).map fun i =>
        let code := (leNat data >>> (m.width * i)) % 2 ^ m.width
        roundFp (ltFmt f.fn) (RMode.ofCode (xRm f)) (draw i) (mxValue m (kByte k (xOffBits f % 8 + i / 32)) (sint m.width code))
      giveV (orStatus u (orAll rs)) 3 f.d (packLanes w (rs.map (·.1))) maskAll 4)

/-! ### Scales (R241) -/

/-- The checks of LDK and STK (R241), and the piece they move. -/
def withScale (s : State) (f : F3) (need : Need) (k : State → List Piece → State) : State :=
  let t := reads s [f.a, f.b]
  let ea := effAddr t (t.sval f.a) (t.sval f.b) (xOff f)
  if !isLocal ea then raise t cAccess ea
  else if ea % 8 != 0 then raise t cAlign ea
  else withAccess t ea 8 8 need false k
/-- LDK (R241): no interlock (R144). -/
def execLdk (f : F3) (s : State) : Out :=
  .next (slotOp 3 f.g s fun t => withScale t f .read fun u ps =>
    let r := loadNow u 0 ps
    loadK r.2.2 f.d (BitVec.ofNat 64 (leNat r.1)))
/-- STK (R241). -/
def execStk (f : F3) (s : State) : Out :=
  .next (slotOp 3 f.g s fun t => withScale t f .write fun u ps =>
    storeEffs (noteTouched u ps true) 0 ps (natLE 8 (u.curCore.live.kreg f.d).toNat))
/-- MOVK (R241). -/
def execMovk (f : F3) (s : State) : Out :=
  .next (slotOp 3 f.g s fun t =>
    match f.fn with
    | 0 => giveK (reads t [f.a]) 3 f.d (t.sval f.a) allOnes 2 true
    | 1 => giveS t 3 f.d (t.curCore.live.kreg f.a) 2
    | _ => giveK t 3 f.d (t.curCore.live.kreg f.a) allOnes 2 true)

/-! ### Random words (R242) -/

/-- RNDW (R242). -/
def execRndw (f : F3) (s : State) : Out :=
  .next (slotOp 3 f.g s fun t => popRandom t fun u w => giveS u 3 f.d w 2)
/-- RNDC (R242). -/
def execRndc (f : F3) (s : State) : Out :=
  .next (slotOp 3 f.g s fun t => popRandom t fun u w => giveV u 3 f.d (ofLanes 32 64 (drawU w)) maskAll 2)

/-! ### SEAL and OPEN at issue (R243, R244) -/

/-- The checks of SEAL and OPEN at issue (R244): the fault and its FAULTINFO, or none. -/
def sealCheck (s : State) (c : Nat) (m : MOp) (outside : Bool) : Option (Nat × Nat) :=
  let t := m.dT
  let acc := t.accesses ++ [(t.tagAt, 16)]
  let mill := coreMill c
  if 128 ≤ m.key then some (cBound, m.key)
  else if !(s.corePart c).hasKey m.key then some (cAccess, m.key)
  else if outside || decide (2 ^ 23 < t.tagAt + 16) then some (cTileShape, 0)
  else
    match firstBad (fun x => rolesAdmit (s.mill mill).bankrole .core x.1 x.2) acc with
    | some a => some (cAccess, localVa a)
    | none => (firstBad (fun x => inBounds (s.core c).lbound x.1 x.2) acc).map fun a => (cBound, localVa a)

/-- SEAL (opcode 16) or OPEN (17) at issue: the operation joins the tiles when the instance has issued (R244, R302). The X step has no
effect on it (R146): a sticky re-issue works on the tile of its descriptor as it stands. -/
def sealIssue (opc : Nat) (f : F3) (s : State) : Out :=
  .next (slotOp 3 f.g s fun t0 =>
    let t := reads t0 [f.a, f.b]
    let d := t.curCore.live.treg f.d
    let key := (t.sval f.a).toNat
    let m : MOp := { slot := 3, opc := opc, fn := 0, td := ⟨f.d, d⟩, key := key, iv := t.sval f.b, pc := t.cur.pc, inst := t.cur.inst }
    match sealCheck t t.cur.core m (tileOf d 0).outside with
    | some e => raise t e.1 e.2
    | none => addEff t (.tile m))
/-- SEAL (R243). -/
def execSealTile (f : F3) (s : State) : Out := sealIssue 16 f s
/-- OPEN (R243). -/
def execOpenTile (f : F3) (s : State) : Out := sealIssue 17 f s

/-! ### PACK and UNPACK (R240) -/

/-- The code of an INT8 lane and its status (R240). -/
def packCode (m : Mx) (x : Int) : Nat × Nat :=
  let lo : Int := -(2 ^ (m.width - 1))
  let hi : Int := 2 ^ (m.width - 1) - 1
  if x < lo then (islice m.width (-(m.top : Int)), fSAT) else if hi < x then (m.top, fSAT) else (islice m.width x, 0)
/-- PACK (R240). -/
def execPack (f : F3) (s : State) : Out :=
  .next (slotOp 3 f.g s fun t =>
    let m := efMx (xTy f)
    let rs := (List.range 256).map fun i => packCode m (sint 8 (lane (t.vval f.a) 8 i))
    giveV (orStatus (reads t [f.a]) (orAll rs)) 3 f.d (packLanes m.width (rs.map (·.1))) maskAll 4)
/-- UNPACK (R240). -/
def execUnpack (f : F3) (s : State) : Out :=
  .next (slotOp 3 f.g s fun t =>
    let m := efMx (xTy f)
    giveV (reads t [f.a]) 3 f.d (ofLanes 8 256 fun i => islice 8 (sint m.width (lane (t.vval f.a) m.width i))) maskAll 4)

end Sys2Proof.Machine
end

