-- ==== Sys2Proof/Machine/Matrix.lean ====
section
/-! DEFINITION. The M slots at issue: operands, checks and random words of the matrix operations (R266 to R278). What an operation
computes when it runs is in Tiles.lean. -/

namespace Sys2Proof.Machine

/-- The M slot that issues: M1 when the cursor stands there, else M0. -/
def mSlot (s : State) : Nat := if s.cur.slot == 5 then 5 else 4

/-- The stepped tile of a descriptor register, when the opcode uses it (R267). -/
def mTile (s : State) (used : Bool) (reg : Nat) : Tile := if used then tileOf (s.curCore.live.treg reg) s.cur.off else tileOf 0 0
/-- The reference that stands in the operation after its checks. -/
def mRef (s : State) (used : Bool) (reg : Nat) : TileRef :=
  if used then ⟨reg, stepDesc (s.curCore.live.treg reg) s.cur.off⟩ else {}

/-- An M operation with its fields and operands as read at issue (R266, R290). -/
def mBuild (s : State) (opc : Nat) (f : FM) (sr : Option Nat) (rnd : Word) : MOp :=
  let u := mUses opc
  let a := s.curCore.live
  { slot := mSlot s, opc := opc, fn := f.fn, td := mRef s u.1 f.td, ta := mRef s u.2.1 f.ta, tb := mRef s u.2.2 f.tb, off := s.cur.off,
    ka := a.kreg f.ka, kb := a.kreg f.kb,
    rm := mRm f, tr := mTr f, se := mSe f, sr := sr, rnd := rnd, pc := s.cur.pc, inst := s.cur.inst }

/-- The opcode and fields of an M operation. -/
def mFields : Instr → Option (Nat × FM)
  | .mldb f => some (1, f)
  | .mma f => some (2, f)
  | .mtrn f => some (3, f)
  | .mscl f => some (4, f)
  | .madd f => some (5, f)
  | .mcvt f => some (6, f)
  | .mzero f => some (7, f)
  | .mcpy f => some (8, f)
  | .mvs f => some (9, f)
  | .mqnt f => some (10, f)
  | _ => none
/-- The LOCAL ranges that an M operation of a slot would write, and all that it would touch, at its stepped addresses (R268). -/
def mMate (s : State) (c slot : Nat) (off : Int) (i : Instr) : Option (Nat × List (Nat × Nat) × List (Nat × Nat)) :=
  match mFields i with
  | none => none
  | some (opc, f) =>
    let u := mUses opc
    let ref (used : Bool) (r : Nat) : TileRef := if used then ⟨r, stepDesc ((s.core c).live.treg r) off⟩ else {}
    let m : MOp := { slot := slot, opc := opc, fn := f.fn, td := ref u.1 f.td, ta := ref u.2.1 f.ta, tb := ref u.2.2 f.tb }
    some (slot, m.writes, m.reads ++ m.writes)
/-- R268 between the operations of one instance: M0 and M1 meet in a byte that one of them writes. -/
def matesClash (u : Cursor) : Bool :=
  match u.mates with
  | [a, b] => rangesMeet a.2.1 b.2.2 || rangesMeet b.2.1 a.2.2
  | _ => false
/-- R268 between an M operation and the L and X stores of its instance. -/
def storeClash (u : Cursor) (slot : Nat) : Bool :=
  u.mates.any fun a => a.1 == slot && rangesMeet ((u.locals.filter fun l => l.2.2).map fun l => (l.1, l.2.1)) a.2.2

/-- The rounding of an M operation pops a word under STO (R269). -/
def mPops (f : FM) : Bool := mRm f == 5

/-- An M operation at issue: the checks of R267, then what it needs more, then it joins the tile operations when the instance has
issued. -/
def mIssue (opc : Nat) (f : FM) (s : State) (sr : State → Option Nat) (more : State → MOp → State) : Out :=
  .next (slotOp (mSlot s) f.g s fun t =>
    let u := mUses opc
    let c := t.cur.core
    let det := mPops f && (t.coreJob c).det && !t.curCore.rngClaim
    let clash := matesClash t.cur || storeClash t.cur (mSlot t)
    match mCheck t c opc f.fn (mTr f) (mTile t u.1 f.td) (mTile t u.2.1 f.ta) (mTile t u.2.2 f.tb) clash det with
    | some e => raise t e.1 e.2
    | none =>
      if mPops f then popRandom t fun v w => more v (mBuild t opc f (sr t) w)
      else more t (mBuild t opc f (sr t) 0))

/-- An operation that needs nothing more. -/
def mPlain (opc : Nat) (f : FM) (s : State) : Out := mIssue opc f s (fun _ => none) fun t m => addEff t (.tile m)

/-- MLDB (R271, R272). -/
def execMldb (f : FM) (s : State) : Out := mPlain 1 f s
/-- MMA (R271, R273). -/
def execMma (f : FM) (s : State) : Out := mPlain 2 f s
/-- MTRN (R274). -/
def execMtrn (f : FM) (s : State) : Out := mPlain 3 f s
/-- MSCL (R274): SR gives the factor unless it is 63. -/
def execMscl (f : FM) (s : State) : Out :=
  mIssue 4 f s (fun t => if mSr f == 63 then none else some (t.sval (mSr f)).toNat) fun t m => addEff (reads t [mSr f]) (.tile m)
/-- MADD (R274). -/
def execMadd (f : FM) (s : State) : Out := mPlain 5 f s
/-- MCVT (R274). -/
def execMcvt (f : FM) (s : State) : Out := mPlain 6 f s
/-- MZERO (R274). -/
def execMzero (f : FM) (s : State) : Out := mPlain 7 f s
/-- MCPY (R274). -/
def execMcpy (f : FM) (s : State) : Out := mPlain 8 f s
/-- MQNT (R275). -/
def execMqnt (f : FM) (s : State) : Out := mPlain 10 f s

/-- The pages of B (R276): its pieces, or the failure. A host page raises ACCESS. -/
def mvsPieces (s : State) (va n : Nat) : Except Flt (List Piece × List TlbEnt) :=
  let flt : Except Flt (List Piece × List TlbEnt) := .error { code := cAccess, info := va }
  if isLocal va || isMillQual va then flt
  else
    match coreAccess s s.cur.core va n 0 .read true with
    | .error e => if e.code == cPageHost then flt else .error e
    | .ok r =>
      if (s.corePart s.cur.core).ranges.any fun g => g.stack && r.1.all fun p => p.loc.sp == .hbm && g.holds p.loc.addr p.len then .ok r
      else flt

/-- The completion handle of MVS: codes 0 and 63 name none (R266, R278). -/
def mvsHandle (s : State) (f : FM) : Option Nat :=
  if mHr f == 0 || mHr f == 63 then none else some (s.sval (mHr f)).toNat

/-- MVS (R276 to R278). -/
def execMvs (f : FM) (s : State) : Out :=
  mIssue 9 f s (fun _ => none) fun t0 m0 =>
    let t := reads t0 [mSr f, mHr f]
    let m := { m0 with tb := ⟨f.tb, t.curCore.live.treg f.tb⟩ }
    let va := (t.sval (mSr f)).toNat
    let n := mvsExtent m.bT
    if va % 2048 != 0 then raise t cAlign va
    else
      match mvsPieces t va n with
      | .error e => accessFail t e
      | .ok r =>
        let p := t.corePart t.cur.core
        if r.1.any fun q => t.anyForm q.loc q.len then raise t cForm va
        else
        match (match mvsHandle t f with | some h => (addCheck p p.hasMill h 1).map fun e => (e, h) | none => none) with
        | some e => raise t e.1 e.2
        | none =>
          addEff (keepPages t t.cur.core r.2)
            (.tile { m with baddr := va, bphys := r.1.map (·.loc.addr), handle := mvsHandle t f })

end Sys2Proof.Machine
end

