-- ==== Sys2Proof/Machine/Sync.lean ====
section
/-! DEFINITION. The Y slot: WAITF, WATCH and UNWATCH (R257 to R261). -/

namespace Sys2Proof.Machine

/-! ### WAITF (R257, R258) -/

/-- A satisfied WAITF is an acquire for every flag of its mask that a waiter set (R111, R112, R258): the clocks merge, and the lines of
R88 are dropped when a counter is homed at DIE scope or wider. -/
def acquireFlags (s : State) (c mask : Nat) : State :=
  let x := s.core c
  let homes := ((List.range 16).filter fun n => mask.testBit n && !x.fto.getLsbD n).map fun n => tget 0 x.fhome n
  let wide := homes.filter (· != 0)
  if wide.isEmpty then s else wide.foldl (fun t h => mergeClock t (coreDie c) (h - 1)) (acquireCache s c)

/-- WAITF (R257): its hold is made before the instance issues; here its mask is satisfied. -/
def execWaitf (f : FW) (s : State) : Out :=
  .next (slotOp 7 f.g s fun t => acquireFlags t t.cur.core f.mask)

/-! ### WATCH (R259, R260) -/

/-- A scalar source code of the extension word. -/
def extCode (f : FY) (hi lo : Nat) : Nat := extField f.ext hi lo 0

/-- Step 1 of R260: the handle of a waiter of this kind on a core. -/
def watchHandleOk (c kind h : Nat) : Bool :=
  handleOk h && hKind h != 4 && (hKind h != 0 || (kind == 0 && hPkgMill h == coreMill c))

/-- Steps 2 to 6 of R260: the fault and its FAULTINFO, or none; x and y are the values of the two target registers. -/
def watchCheck (s : State) (c kind h x y : Nat) : Option (Nat × Nat) :=
  let p := s.corePart c
  let inSpace := isLocal x || isMillQual x
  let h2 := x
  if !watchHandleOk c kind h then some (cCounterHandle, h)
  else if !handleIn p (fun _ => true) h then some (cAccess, h)
  else if kind == 1 && inSpace then some (cAccess, x)
  else if kind == 1 && x % 32 != 0 then some (cAlign, x)
  else if kind == 2 && decide (2047 < x) then some (cBound, x)
  else if kind == 3 && (!handleOk h2 || hKind h2 == 4 || isWritePtr h2 || decide (2 ^ 62 ≤ y)) then some (cCounterHandle, h2)
  else if kind == 3 && !handleIn p p.hasMill h2 then some (cAccess, h2)
  else if waiterFull s (s.coreJob c).pid h then some (cWaiterExhausted, h)
  else none

/-- The kind of a waiter (R126). -/
def watchKind (s : State) (f : FY) (x y : Nat) : WaiterKind :=
  match f.kind with
  | 0 => .flag (s.curCore.job.getD 0) s.curCore.strand f.flag
  | 1 => .event x (y % 2 ^ 32)
  | 2 => .hostint x
  | _ => .forward x y

/-- WATCH (R259, R260): the entry is reserved at issue, and the waiter arrives at its home at release. -/
def execWatch (f : FY) (s : State) : Out :=
  .next (slotOp 7 f.g s fun t0 =>
    let t := reads t0 [f.a, f.b]
    let c := t.cur.core
    let h := (t.sval f.a).toNat
    let x := if f.kind == 0 then 0 else (t.sval (extCode f 5 0)).toNat
    let y := if f.kind == 1 || f.kind == 3 then (t.sval (extCode f 11 6)).toNat else 0
    match watchCheck t c f.kind h x y with
    | some e => raise t e.1 e.2
    | none =>
      let j := t.coreJob c
      addCmd (t.setPart j.pid ((t.part j.pid).reserve h))
        (.watch { h := h, threshold := (t.sval f.b).toNat, kind := watchKind t f x y, deadline := if f.kind == 0 then f.ext.getD 0 else 0,
                  pid := j.pid, aspace := j.aspace, die := hHome h, by_ := t.issuer c }))

/-- UNWATCH (R261). -/
def execUnwatch (f : FY) (s : State) : Out :=
  .next (slotOp 7 f.g s fun t => addCmd t (.unwatch f.flag))

end Sys2Proof.Machine
end

