-- ==== Sys2Proof/Machine/Control.lean ====
section
/-! DEFINITION. Branches, calls, hardware loops and EXIT (R147, R196 to R201). On a follower of a LOCKSTEP group they have no effect
(R38). -/

namespace Sys2Proof.Machine

/-- Set where issue continues (R196, R197). -/
def setTarget (s : State) (a : Word) : State := { s with cur := { s.cur with target := some a } }
/-- Instructions that raise PRIV in SERVICE (R191). -/
def notService (s : State) (k : State → State) : State :=
  if s.curCore.live.priv_ == 1 then raise s cPriv 0 else k s
/-- Act on the lead only (R38). -/
def onLead (s : State) (k : State → State) : State := if s.cur.follower then s else k s

/-- Push a loop entry (R147, R198, R199): a count of 0, or a push inside a skipped body, skips. -/
def pushLoop (s : State) (count : Nat) : State :=
  let loops := s.curCore.live.loops
  if 6 ≤ loops.length then raise s cLoopOverflow 0
  else s.onCore s.cur.core fun c => c.onLive fun a => { a with loops := ⟨count, 0, s.cur.next, count == 0⟩ :: loops }

/-- BR (R196). -/
def execBr (f : FB) (s : State) : Out :=
  .next (slotOp 0 f.g s fun t => onLead t fun u => setTarget u (u.cur.pc + (immFB f <<< 2)))
/-- JMP (R197). -/
def execJmp (f : F3) (s : State) : Out :=
  .next (slotOp 0 f.g s fun t => onLead (reads t [f.a]) fun u =>
    if u.sval f.a &&& 3 != 0 then raise u cAlign (u.sval f.a).toNat else setTarget u (u.sval f.a))
/-- CALL (R196): s31 takes the address of the next bundle. -/
def execCall (f : FB) (s : State) : Out :=
  .next (slotOp 0 f.g s fun t => onLead t fun u => giveS (setTarget u (u.cur.pc + (immFB f <<< 2))) 0 31 u.cur.next 1)
/-- RET (R197). -/
def execRet (f : F3) (s : State) : Out :=
  .next (slotOp 0 f.g s fun t => onLead (reads t [f.a]) fun u =>
    if u.sval f.a &&& 3 != 0 then raise u cAlign (u.sval f.a).toNat else setTarget u (u.sval f.a))
/-- LOOP (R198). -/
def execLoop (f : F3) (s : State) : Out :=
  .next (slotOp 0 f.g s fun t => onLead (reads t [f.a]) fun u =>
    if 2 ^ 32 ≤ (u.sval f.a).toNat then raise u cBound (u.sval f.a).toNat else pushLoop u (u.sval f.a).toNat)
/-- LOOPI (R198). -/
def execLoopi (f : FB) (s : State) : Out :=
  .next (slotOp 0 f.g s fun t => onLead t fun u => pushLoop u (immFB f).toNat)
/-- LBRK (R200). -/
def execLbrk (f : F3) (s : State) : Out :=
  .next (slotOp 0 f.g s fun t => onLead t fun u =>
    match u.curCore.live.loops with
    | [] => raise u cLoopUnderflow 0
    | e :: es => u.onCore u.cur.core fun c => c.onLive fun a => { a with loops := { e with count := e.index + 1 } :: es })
/-- EXIT (R191, R201). -/
def execExit (f : F3) (s : State) : Out :=
  .next (slotOp 0 f.g s fun t => notService t fun u => onLead u fun v => { v with cur := { v.cur with exits := true } })

end Sys2Proof.Machine
end

