-- ==== Sys2Proof/Machine/System.lean ====
section
/-! DEFINITION. CSRs, service calls, fences, groups, launch, yield, dressing tables and tile descriptors: the system instructions of the
S slot (R202 to R216). -/

namespace Sys2Proof.Machine

/-! ### CSRs (R202 to R204) -/

/-- The privilege at which a core runs: the management controller and the scheduler cores run at FIRM (R331). -/
def privOf (s : State) (c : Nat) : Nat := if mgmtCore ≤ c then 2 else (s.core c).live.priv_

/-- A CSR that may not be read at a privilege (R204). -/
def csrHidden (priv n : Nat) : Bool := priv == 0 && n == 0x104
/-- A CSR with a writable field at a privilege (R204). -/
def csrWritable (priv n : Nat) : Bool :=
  n == 0x000 || n == 0x006 || (decide (0x018 ≤ n) && decide (n ≤ 0x01C)) || n == 0x020 || n == 0x021 || n == 0x031 ||
  (n == 0x101 && decide (1 ≤ priv)) ||
  (priv == 2 && ((decide (0x010 ≤ n) && decide (n ≤ 0x013)) || n == 0x030 || n == 0x104 || n == 0x200 || n == 0x201))

/-- The loop index that LIDX0 and LIDX1 show (R198). -/
def loopIndex (a : Arch) (k : Nat) : Word := BitVec.ofNat 64 ((a.loops[k]?).map (·.index) |>.getD 0)

/-- The value of a CSR on a core (R204). -/
def csrRead (s : State) (c n : Nat) : Word :=
  let x := s.core c
  let j := s.coreJob c
  let p := s.corePart c
  match n with
  | 0x000 => if c == mgmtCore then (x.live.status &&& ~~~(0xC000 : Word)) ||| 0x8000 else x.live.status
  | 0x001 => BitVec.ofNat 64 j.ctxid
  | 0x002 => BitVec.ofNat 64 x.strand
  | 0x003 => x.grpid
  | 0x004 => x.rank
  | 0x005 => BitVec.ofNat 64 s.cycle
  | 0x006 => x.fto.setWidth 64
  | 0x007 => if j.det then 1 else 0
  | 0x008 => x.retrycnt
  | 0x009 => x.reread
  | 0x00A => x.codebase
  | 0x00B => loopIndex x.live 0
  | 0x00C => loopIndex x.live 1
  | 0x010 => x.lbound.getD 0 0
  | 0x011 => x.lbound.getD 1 0
  | 0x012 => x.lbound.getD 2 0
  | 0x013 => x.lbound.getD 3 0
  | 0x020 => x.live.qmode
  | 0x021 => x.live.dressperm
  | 0x028 => BitVec.ofNat 64 x.live.rngNext
  | 0x029 => BitVec.ofNat 64 x.rngEnd
  | 0x030 => if c == mgmtCore then x.firm.millmode else if (s.mill (coreMill c)).millmode then 1 else 0
  | 0x031 => if c == mgmtCore then x.firm.bankrole else (s.mill (coreMill c)).bankrole
  | 0x100 => x.ecause
  | 0x101 => x.epc
  | 0x102 => x.ckptPc
  | 0x103 => x.faultinfo
  | 0x104 => x.svcvec
  | 0x200 => if c == mgmtCore then x.firm.lattol else p.lattol
  | 0x201 => if c == mgmtCore then x.firm.agePeriod else p.agePeriod
  | _ => tget 0 x.live.steps n

/-- A landing that writes the fields of a shadowed CSR at latency 1 (R202): form 0 replaces, 1 sets, 2 clears. -/
def giveCsr (s : State) (n form : Nat) (rw a : Word) : State :=
  let mask := if form == 0 then rw else a &&& rw
  let val := if form == 2 then 0 else a &&& rw
  addLanding s { slot := 0, file := .csr, num := n, val := val.setWidth 2048, mask := mask.setWidth 2048, latch := false, left := 1, older := false }

/-- The bank roles after a write of BANKROLE in one of the three forms: a field written as 0b11 keeps its role (R81, R202). -/
def rolesAfter (old a : Word) (form : Nat) : Word :=
  let new := csrWrite form allOnes old a
  BitVec.ofNat 64 ((List.range 32).foldl (fun acc b =>
    acc ||| ((if roleOf new b == 3 then roleOf old b else roleOf new b) <<< (2 * b))) 0)

/-! ### Armed slots in a mill's banks (R83, R286) -/

def armBase (d : List Byte) : Nat := fieldLE d 0 8
def armPitch (d : List Byte) : Nat := fieldLE d 8 4
def armRows (d : List Byte) : Nat := fieldLE d 12 2 + 1
def armCols (d : List Byte) : Nat := fieldLE d 14 2 + 1
def armElem (d : List Byte) : Nat := 2 ^ (fieldLE d 24 1 % 4)
def armBitmap (d : List Byte) : Nat := fieldLE d 32 8
def armRing (d : List Byte) : Nat := fieldLE d 40 8
/-- The chunks of the tensor (R305), the bytes of the bitmap and of the ring (R286). -/
def armChunks (d : List Byte) : Nat := ceilDiv (armRows d) (fieldLE d 16 2 + 1) * ceilDiv (armCols d) (fieldLE d 18 2 + 1)
def armBitmapLen (d : List Byte) : Nat := 8 * ceilDiv (armChunks d) 64
def armRingLen (d : List Byte) : Nat := 8 * 2 ^ fieldLE d 26 1
/-- The tensor's extent (R281). -/
def armExtent (d : List Byte) : Nat × Nat := (armBase d, (armRows d - 1) * armPitch d + armCols d * armElem d)

/-- The mill and bank offset that an engine address of a core names, if it names banks (R79, R279). -/
def bankOf (core va : Nat) : Option (Nat × Nat) :=
  if isLocal va then some (coreMill core, va - localBase)
  else if isMillQual va then some (48 * bits va 31 29 + bits va 28 23, va % 2 ^ 23)
  else none

/-- A range that a core's command names has bytes in a bank of a mill whose role would change. -/
def rangeIn (core mill : Nat) (old new : Word) (r : Nat × Nat) : Bool :=
  match bankOf core r.1 with
  | some (m, off) => m == mill && (List.range 32).any fun b => roleOf old b != roleOf new b && overlaps off r.2 (b * 262144) 262144
  | none => false
/-- A receive that is armed has a byte of its footprint, tensor, bitmap or ring (R281), in a bank whose role would change (R83). -/
def armedIn (s : State) (mill : Nat) (old new : Word) : Bool :=
  s.dies.any fun d => d.2.armed.any fun e =>
    match e.2 with
    | none => false
    | some a => [armExtent a.desc, (armBitmap a.desc, armBitmapLen a.desc), (armRing a.desc, armRingLen a.desc)].any (rangeIn a.core mill old new)

/-- The roles a BANKROLE write works on: those of a change under way, else the present ones (R83). -/
def rolesNow (m : Mill) : Word :=
  match m.change with
  | some ch => ch.roles
  | none => m.bankrole

/-- CSRW in one of its three forms (R202, R203): form 0 replaces, 1 sets, 2 clears. FTO, EPC and BANKROLE are not shadowed, and are
written when the instance has issued. Where both cores of a mill write BANKROLE in one instance, core 1's write applies to what core 0's
leaves, even where it changes nothing by itself; the instance is a checkpoint when the writes together change a role (R83). -/
def csrwOp (form : Nat) (f : FK) (s : State) : Out :=
  .next (slotOp 0 f.g s fun t0 =>
    let t := reads t0 [f.reg]
    let a := t.sval f.reg
    let c := t.cur.core
    if !csrWritable (privOf t c) f.csr then raise t cPriv 0
    else if f.csr == 0x000 then giveCsr t 0 form statusRw a
    else if f.csr == 0x020 then giveCsr t f.csr form 1 a
    else if f.csr == 0x021 then addEff (giveCsr t f.csr form 3 a) .flush
    else if decide (0x018 ≤ f.csr) && decide (f.csr ≤ 0x01C) then giveCsr t f.csr form 0xFFFFFFFF a
    else if f.csr == 0x031 && c != mgmtCore then
      let m := t.mill (coreMill c)
      let new := rolesAfter (rolesNow m) a form
      let both := (t.issueCores c).any fun d => d != c && coreMill d == coreMill c
      if armedIn t (coreMill c) m.bankrole new then raise t cAccess 0
      else if new == rolesNow m && !both then t
      else addEff t (.csr f.csr form a)
    else addEff t (.csr f.csr form a))

/-- CSRR (R202, R203). -/
def execCsrr (f : FK) (s : State) : Out :=
  .next (slotOp 0 f.g s fun t =>
    if csrHidden (privOf t t.cur.core) f.csr then raise t cPriv 0
    else giveS t 0 f.reg (csrRead t t.cur.core f.csr) 1)
/-- CSRW (R202). -/
def execCsrw (f : FK) (s : State) : Out := csrwOp 0 f s
/-- CSRW.SET (R202). -/
def execCsrwSet (f : FK) (s : State) : Out := csrwOp 1 f s
/-- CSRW.CLR (R202). -/
def execCsrwClr (f : FK) (s : State) : Out := csrwOp 2 f s

/-! ### Service calls, fences (R207 to R209) -/

/-- SVC (R191, R207): entered once the instance has issued and its region is released. -/
def execSvc (f : FB) (s : State) : Out :=
  .next (slotOp 0 f.g s fun t => notService t fun u =>
    if u.curCore.svcvec == 0 then raise u cPriv 0
    else { u with cur := { u.cur with enterSvc := some (immFB f) } })
/-- SRET (R191, R208). -/
def execSret (f : F3) (s : State) : Out :=
  .next (slotOp 0 f.g s fun t =>
    if privOf t t.cur.core == 0 then raise t cPriv 0
    else { t with cur := { t.cur with leaveSvc := true } })
/-- A FENCE of a scope makes a counter that a CADDF of 0 has read an acquire, when the scope is at least the counter's release scope
(R113): the clocks merge and the lines of R88 are dropped for a home at DIE scope or wider. -/
def acquireSeen (s : State) (c scope : Nat) : State :=
  let x := s.core c
  let now (r : CtrSeen) : Bool := r.left == 0 && decide (r.scope ≤ scope)
  let homes := ((x.seen.filter now).map (·.home)).filter (· != 0)
  let s1 := if x.seen.isEmpty then s else s.onCore c fun y => { y with seen := y.seen.filter fun r => !now r }
  if homes.isEmpty then s1 else homes.foldl (fun t h => mergeClock t (coreDie c) (h - 1)) (acquireCache s1 c)
/-- FENCE (R99, R100, R113, R209): scope MILL and wider ends the region; the waits of its first effect are made around the issue. -/
def execFence (f : F3) (s : State) : Out :=
  .next (slotOp 0 f.g s fun t0 =>
    let t := acquireSeen t0 t0.cur.core f.fn
    if f.fn == 0 then t else { t with cur := { t.cur with ckpt := true, sync := true } })

/-! ### Groups (R36 to R38, R210 to R212, R354) -/

/-- The checks of a JOIN against the groups of its context (R36, R38): ACCESS unless they pass. -/
def joinOk (s : State) (c : Nat) (key : Word) (m pol : Nat) (lock : Bool) : Bool :=
  let j := s.coreJob c
  (j.groupOf (s.core c).strand).isNone && (!lock || decide (m ≤ 16)) &&
  match j.groups.find? fun g => g.key == key with
  | none => true
  | some g =>
    g.size == m && g.policy == pol && g.lockstep == lock && !g.formed && decide (g.roster.length < m) &&
    (!lock || ((s.jobCores (s.core c |>.job |>.getD 0)).filter fun d => g.roster.contains (s.core d).strand).all
      fun d => coreDie d == coreDie c)

/-- The policy of a JOIN: FN 0 takes the record's group default (R354), others their own (R210). -/
def joinPolicy (s : State) (c fn : Nat) : Nat := if fn == 0 then recPolicy (s.coreJob c).record / 8 % 8 else fn

/-- JOIN (R191, R210). -/
def execJoin (f : F3) (s : State) : Out :=
  .next (slotOp 0 f.g s fun t0 => notService (reads t0 [f.a, f.b]) fun t =>
    let b := (t.sval f.b).toNat
    let m := b % 512
    let lock := b.testBit 16
    let pol := joinPolicy t t.cur.core f.fn
    if decide (m < 2) || decide (256 < m) || b != m + (if lock then 65536 else 0) then raise t cBound b
    else if !joinOk t t.cur.core (t.sval f.a) m pol lock then raise t cAccess 0
    else addEff t (.join (t.sval f.a) m pol lock))
/-- LEAVE (R191, R211). -/
def execLeave (f : F3) (s : State) : Out :=
  .next (slotOp 0 f.g s fun t => notService t fun u =>
    match u.coreGroup u.cur.core with
    | none => raise u cAccess 0
    | some _ => addEff u .leave)
/-- What GRP reads (R212). -/
def grpValue (g : Option Group) (fn : Nat) (a : Word) : Word :=
  match g with
  | none => if fn == 0 then 0 else allOnes
  | some g =>
    if fn == 0 then BitVec.ofNat 64 g.size
    else
      match g.roster[if fn == 1 then 0 else a.toNat]? with
      | some st => BitVec.ofNat 64 st
      | none => allOnes
/-- GRP (R191, R212). -/
def execGrp (f : F3) (s : State) : Out :=
  .next (slotOp 0 f.g s fun t => notService (reads t [f.a]) fun u =>
    giveS u 0 f.d (grpValue (u.coreGroup u.cur.core) f.fn (u.sval f.a)) 1)

/-! ### Launch, yield, dressing tables, tile descriptors (R213 to R216) -/

/-- LAUNCH (R191, R213): the ticket, and the waiter entry of a dependency (R134), are reserved at issue, and the record is held in a command
entry. -/
def execLaunch (f : F3) (s : State) : Out :=
  .next (slotOp 0 f.g s fun t0 => notService (reads t0 [f.a]) fun t =>
    let a := (t.sval f.a).toNat
    withAccess t a 128 128 .read false fun u ps =>
      let j := u.coreJob u.cur.core
      let p := u.part j.pid
      let rd := loadWhole u u.cur.core ps
      let rec_ := rd.1
      let u := rd.2
      if decide (Config.launchDepth ≤ j.depth) then raise u cLaunchDepth 0
      else if decide (p.pool ≤ p.tickets) then raise u cLaunchPool 0
      else
        match recordFaultAt u j.pid rec_ with
        | some f => raise u f.1 (f.2.getD a)
        | none =>
          let q := if recDepabs rec_ then p else p.reserve (recDeph rec_)
          addCmd (u.setPart j.pid { q with tickets := p.tickets + 1 }) (.launch rec_ ((ps.head?.map (·.loc)).getD ⟨.hbm, 0⟩)))
/-- YIELD (R191, R214): in a LOCKSTEP group it is evaluated on the lead alone. -/
def execYieldOp (f : F3) (s : State) : Out :=
  .next (slotOp 0 f.g s fun t => notService t fun u =>
    if u.cur.follower then u else { addEff u .yield with cur := { (addEff u .yield).cur with ckpt := true } })
/-- DRESS (R191, R215). -/
def execDress (f : F3) (s : State) : Out :=
  .next (slotOp 0 f.g s fun t0 => notService (reads t0 [f.a, f.b]) fun t =>
    let a := (t.sval f.a).toNat
    let n := (t.sval f.b).toNat
    if a % 32 != 0 then raise t cAlign a
    else if decide (64 < n) then raise t cBound n
    else if n == 0 then addCmd t (.dress [])
    else
      withAccess t a (32 * n) 32 .read false fun u ps =>
        let rd := loadWhole u u.cur.core ps
        let rules := chunksOf 32 n rd.1
        if rules.any ruleBad then raise rd.2 cDressTable a else addCmd rd.2 (.dress rules))
/-- TDEF (R90, R216). -/
def execTdef (f : F3) (s : State) : Out :=
  .next (slotOp 0 f.g s fun t0 =>
    let t := reads t0 [f.a]
    let a := t.sval f.a
    if tdefBad a then raise t cTileShape 0
    else
      let u := addLanding t { slot := 0, file := .t, num := f.d, val := a.setWidth 2048, mask := mask64, latch := false, left := 1, older := false }
      { u with cur := { u.cur with tdef := some f.d } })

end Sys2Proof.Machine
end

