-- ==== Sys2Proof/Machine/Engine.lean ====
section
/-! DEFINITION. The C slot at issue: engine commands with their descriptors, checks and reservations (R280 to R289), counter adds (R262),
multicast (R263), claims (R264) and queue status (R265). -/

namespace Sys2Proof.Machine

/-! ### Building an engine command (R279 to R282) -/

/-- An address of a core's command as a region names it: LOCAL of the core's mill by its mill-qualified address. -/
def regionVa (c va : Nat) : Nat :=
  if isLocal va then 0xFFFFFFFE * 2 ^ 32 + coreMill c / 48 * 2 ^ 29 + coreMill c % 48 * 2 ^ 23 + (va - localBase) else va
/-- A region of a footprint (R281). -/
def region (c : Nat) (r : Nat × Nat) : Nat × Nat := (regionVa c r.1, r.2)

/-- A held command of the issuing strand (R280). -/
def newEngine (s : State) (kind : CmdKind) : ECmd :=
  let x := s.curCore
  let j := s.coreJob s.cur.core
  { id := s.nextCmd + 1, kind := kind, job := x.job.getD 0, strand := x.strand, core := s.cur.core, pid := j.pid, aspace := j.aspace,
    user := x.live.priv_ == 0, lb := x.lbound }
/-- A region that a command of the controller may not name: the controller's engines reach MCRAM alone (R432, log entry 44). -/
def outsideMcram (r : Nat × Nat) : Bool := r.2 != 0 && !(isMcram r.1 && isMcram (r.1 + r.2 - 1))
/-- Reserve a command's entry and hold the command until its region is released (R280). A command of the management controller that names any
other bytes than its own raises ACCESS (R432). -/
def holdEngine (s : State) (e : ECmd) : State :=
  match if e.core == mgmtCore then (e.reads ++ e.writes).find? outsideMcram else none with
  | some r => raise s cAccess r.1
  | none => addCmd { s with nextCmd := e.id, engines := s.engines ++ [e] } (.engine e.id)

/-- Read a descriptor at issue as a load of its size (R280). -/
def withDesc (s : State) (va n align : Nat) (k : State → List Byte → State) : State :=
  withAccess s va n align .read false fun t ps =>
    let r := loadWhole t t.cur.core ps
    k (noteChecks (noteTouched r.2 ps false) t.cur.core ps) r.1

/-- Check a completion handle with its increment (R118, R120, R123): engines reach every mill of the partition. -/
def withHandle (s : State) (h inc : Nat) (k : State → State) : State :=
  let p := s.corePart s.cur.core
  match addCheck p p.hasMill h inc with
  | some e => raise s e h
  | none => k s
/-- The handle that D names, 63 for none. -/
def withD (s : State) (code inc : Nat) (k : State → Option Nat → State) : State :=
  if code == 63 then k s none
  else
    let t := reads s [code]
    withHandle t (t.sval code).toNat inc fun u => k u (some (t.sval code).toNat)

/-- An address field stepped by the sticky offset (R282). -/
def stepVa (s : State) (va : Nat) : Nat := (((va : Int) + s.cur.off) % 2 ^ 64).toNat

/-- The late check of R166, as soon as the descriptor has been read: an engine command that pops beside another popping operation of the
instance. A sticky re-issue of a popping operation counts. DESIGN CHOICE (log entry 109). -/
def withExcess (s : State) (sto : Bool) (k : State → State) : State :=
  if sto && decide (0 < s.cur.pops) then
    let t := raise { s with cur := { s.cur with slot := 9 } } cIllegalBundle 0
    { t with cur := { t.cur with illegal := true } }
  else k s
/-- The draw of an engine command that pops (R316). -/
def popCommand (s : State) (sto : Bool) (k : State → Word → State) : State :=
  if sto then popRandom { s with cur := { s.cur with pops := 1 } } k else k s 0

/-! ### CPY (R283, R284) -/

/-- An entry of a channel's queue is held from issue until the command starts running. -/
def heldOn (mill chan : Nat) (e : ECmd) : Bool :=
  e.kind == .cpy && coreMill e.core == mill && e.chan == chan && (e.stage == .held || e.stage == .released)
/-- The entries held on a channel. -/
def heldCount (s : State) (mill chan : Nat) : Nat := (s.engines.filter (heldOn mill chan)).length
/-- Count a stall of a channel, once for a bundle instance (R284). -/
def bumpStall (s : State) (c chan : Nat) : State :=
  if (s.core c).stalled then s
  else
    let m := s.mill (coreMill c)
    (s.setMill (coreMill c) { m with stall := tmod 0 m.stall chan fun n => (n + 1) % 2 ^ 32 }).onCore c fun x => { x with stalled := true }

/-- Reserve a queue entry: QUEUE_FULL under STRICT, a hold under LENIENT (R284). -/
def withQueue (s : State) (chan : Nat) (k : State → State) : State :=
  let c := s.cur.core
  let mill := coreMill c
  if heldCount s mill chan < 16 then k s
  else if !s.curCore.live.qmode.getLsbD 0 then raise (bumpStall s c chan) cQueueFull chan
  else
    let own := s.engines.any fun e => heldOn mill chan e && e.core == c && e.stage == .held
    { freeze s none with cur := { (freeze s none).cur with stallChan := some chan, fresh := own } }

/-- The extent from the lowest to the highest byte of strided rows (R281): first address and length. -/
def rowsExtent (base : Nat) (pitch : Int) (rows rowBytes : Nat) : Nat × Nat :=
  let last : Int := (base : Int) + pitch * ((rows : Int) - 1)
  let lo : Int := min (base : Int) last
  let hi : Int := max (base : Int) last + rowBytes
  ((lo % 2 ^ 64).toNat, (hi - lo).toNat)

/-- Hold a CPY with its fields. -/
def issueCpy (s : State) (f : F3) (src dst rowBytes rows : Nat) (sp dp : Int) (handle : Option Nat) (inc : Nat) : State :=
  withQueue s (cChan f) fun t =>
    let c := t.cur.core
    holdEngine t
      { newEngine t .cpy with
        chan := cChan f, slack := cSlack f, src := src, dst := dst, rowBytes := rowBytes, rows := rows, spitch := sp, dpitch := dp,
        handle := handle, inc := inc, reads := [region c (rowsExtent src sp rows rowBytes)],
        writes := [region c (rowsExtent dst dp rows rowBytes)] }
/-- CPY, register form (R283). -/
def execCpy (f : F3) (s : State) : Out :=
  .next (slotOp 6 f.g s fun t0 =>
    let t := reads t0 [f.a, f.b]
    withD t f.d (cImm f) fun u h =>
      issueCpy u f (stepVa u (t.sval f.a).toNat) (stepVa u (t.sval f.b).toNat) (cImm f) 1 0 0 h (cImm f))
/-- CPY.D, descriptor form (R283). -/
def execCpyD (f : F3) (s : State) : Out :=
  .next (slotOp 6 f.g s fun t0 =>
    let t := reads t0 [f.a]
    let a := (t.sval f.a).toNat
    withDesc t a 64 64 fun u d =>
      let rb := fieldLE d 16 4
      let rows := fieldLE d 20 4
      let add := (fieldLE d 48 1).testBit 0
      let go (v : State) : State :=
        issueCpy v f (stepVa v (fieldLE d 0 8)) (stepVa v (fieldLE d 8 8)) rb rows (sint 32 (fieldLE d 24 4)) (sint 32 (fieldLE d 28 4))
          (if add then some (fieldLE d 32 8) else none) (fieldLE d 40 8)
      if rb == 0 || decide (2 ^ 24 < rb) || rows == 0 || decide (65536 < rows) || decide (2 ≤ fieldLE d 48 1) || !allZero (d.drop 49) then
        raise u cBound a
      else if add then withHandle u (fieldLE d 32 8) (fieldLE d 40 8) go
      else go u)

/-! ### SEND (R285) -/

def sendSrc (d : List Byte) : Nat := fieldLE d 0 8
def sendPitch (d : List Byte) : Nat := fieldLE d 8 4
def sendRows (d : List Byte) : Nat := fieldLE d 12 2 + 1
def sendCols (d : List Byte) : Nat := fieldLE d 14 2 + 1
def sendEsize (d : List Byte) : Nat := fieldLE d 16 1
def sendElem (d : List Byte) : Nat := 2 ^ (sendEsize d % 4)
def sendComp (d : List Byte) : Nat := fieldLE d 17 1 % 4
def sendSto (d : List Byte) : Bool := sendComp d != 0 && (fieldLE d 17 1).testBit 2
def sendCount (d : List Byte) : Nat := fieldLE d 18 1
def sendAdd (d : List Byte) : Bool := (fieldLE d 19 1).testBit 0
def sendRow0 (d : List Byte) : Nat := fieldLE d 20 4
def sendCol0 (d : List Byte) : Nat := fieldLE d 24 4
def sendInst (d : List Byte) : Nat := fieldLE d 28 4
def sendResid (d : List Byte) : Nat := fieldLE d 32 8
def sendDest (d : List Byte) (i : Nat) : Nat := fieldLE d (64 + 8 * i) 8

/-- A SEND descriptor whose numeric fields and reserved bits pass (R285). -/
def sendOk (d : List Byte) : Bool :=
  decide (sendEsize d ≤ 2) && decide (fieldLE d 17 1 < 8) && sendComp d != 3 && decide (1 ≤ sendCount d) && decide (sendCount d ≤ 16) &&
  decide (fieldLE d 19 1 < 2) && fieldLE d 56 8 == 0 && (sendComp d == 0 || (sendEsize d == 2 && sendCols d % 32 == 0)) &&
  (List.range 16).all fun i =>
    let x := sendDest d i
    if i < sendCount d then bits x 31 23 == 0 && bits x 63 42 == 0 else x == 0

/-- SEND (R285, R316): a sticky re-issue steps SRC and RESID (R282). -/
def execSend (f : F3) (s : State) : Out :=
  .next (slotOp 6 f.g s fun t0 =>
    let t := reads t0 [f.a]
    let a := (t.sval f.a).toNat
    withDesc t a 192 64 fun u0 d0 => withExcess u0 (sendSto d0) fun u =>
      if !sendOk d0 then raise u cBound a
      else
        let d := setLE (setLE d0 0 8 (stepVa u (sendSrc d0))) 32 8 (stepVa u (sendResid d0))
        let c := u.cur.core
        let src := rowsExtent (sendSrc d) (sendPitch d) (sendRows d) (sendCols d * sendElem d)
        let res := if sendComp d == 0 then [] else [region c (sendResid d, 4 * sendRows d * sendCols d)]
        let go (v : State) : State :=
          popCommand v (sendSto d0) fun x w =>
            holdEngine x
              { newEngine x .send with
                slack := cSlack f, desc := d, src := sendSrc d, handle := if sendAdd d then some (fieldLE d 40 8) else none,
                inc := fieldLE d 48 8, rnd := w, number := sendInst d, reads := region c src :: res, writes := res }
        if sendAdd d then withHandle u (fieldLE d 40 8) (fieldLE d 48 8) go else go u)

/-! ### ARM and DISARM (R286, R287, R305) -/

def armCr (d : List Byte) : Nat := fieldLE d 16 2 + 1
def armCc (d : List Byte) : Nat := fieldLE d 18 2 + 1
def armTr (d : List Byte) : Nat := fieldLE d 20 2 + 1
def armTc (d : List Byte) : Nat := fieldLE d 22 2 + 1
def armReduce (d : List Byte) : Bool := (fieldLE d 25 1).testBit 0
def armRinglog (d : List Byte) : Nat := fieldLE d 26 1
def armRingctr (d : List Byte) : Nat := fieldLE d 48 8
def armDonectr (d : List Byte) : Nat := fieldLE d 56 8
/-- NCI, NCJ, NTI and NTJ of R305. -/
def armNci (d : List Byte) : Nat := ceilDiv (armRows d) (armCr d)
def armNcj (d : List Byte) : Nat := ceilDiv (armCols d) (armCc d)
def armNti (d : List Byte) : Nat := ceilDiv (armRows d) (armTr d)
def armNtj (d : List Byte) : Nat := ceilDiv (armCols d) (armTc d)
def armTiles (d : List Byte) : Nat := armNti d * armNtj d

/-- An ARM descriptor whose fields pass (R286, R305). -/
def armOk (d : List Byte) : Bool :=
  let es := fieldLE d 24 1
  decide (es ≤ 2) && decide (fieldLE d 25 1 < 2) && (!armReduce d || es == 2) && decide (armRinglog d ≤ 16) && fieldLE d 27 5 == 0 &&
  armPitch d % armElem d == 0 && armBitmap d % 8 == 0 && armRing d % 8 == 0 && decide (armChunks d ≤ 65536) && decide (armTiles d ≤ 65536)

/-- The outstanding ARM or DISARM commands of a slot of a die. -/
def slotCmds (s : State) (kind : CmdKind) (die slot : Nat) : List ECmd :=
  s.engines.filter fun e => e.kind == kind && coreDie e.core == die && e.slot == slot
/-- An armed slot of a die, if it is armed. -/
def State.armedSlot (s : State) (die slot : Nat) : Option Armed := tget none (s.die die).armed slot
/-- The slot is armed, or an ARM has reserved it (R286). -/
def slotTaken (s : State) (die slot : Nat) : Bool := (s.armedSlot die slot).isSome || !(slotCmds s .arm die slot).isEmpty
/-- This context has armed the slot and not disarmed it since, in program order (R287). -/
def slotOwned (s : State) (die slot job : Nat) : Bool :=
  (slotCmds s .disarm die slot).isEmpty &&
  ((slotCmds s .arm die slot).any (fun e => e.job == job) ||
   match s.armedSlot die slot with
   | some a => a.job == job && !a.closing
   | none => false)

/-- ARM (R286): a sticky re-issue steps BASE, BITMAP and RING (R282). -/
def execArm (f : F3) (s : State) : Out :=
  .next (slotOp 6 f.g s fun t0 =>
    let t := reads t0 [f.a, f.b]
    let a := (t.sval f.a).toNat
    let b := (t.sval f.b).toNat
    let c := t.cur.core
    withDesc t a 64 64 fun u d0 =>
      if bits b 31 10 != 0 then raise u cBound b
      else if !armOk d0 then raise u cBound a
      else
        let d := setLE (setLE (setLE d0 0 8 (stepVa u (armBase d0))) 32 8 (stepVa u (armBitmap d0))) 40 8 (stepVa u (armRing d0))
        withHandle u (armRingctr d) 1 fun v => withHandle v (armDonectr d) 1 fun w => withD w f.d (cImm f) fun x h =>
          if slotTaken x (coreDie c) (b % 1024) then raise x cAccess b
          else
            holdEngine x
              { newEngine x .arm with
                slack := cSlack f, desc := d, slot := b % 1024, number := b / 2 ^ 32, handle := h, inc := cImm f,
                writes := [region c (armExtent d), region c (armBitmap d, armBitmapLen d), region c (armRing d, 8 * 2 ^ armRinglog d)] })

/-- DISARM (R287). -/
def execDisarm (f : F3) (s : State) : Out :=
  .next (slotOp 6 f.g s fun t0 =>
    let t := reads t0 [f.b]
    let b := (t.sval f.b).toNat
    withD t f.d (cImm f) fun u h =>
      if !slotOwned u (coreDie u.cur.core) b (u.curCore.job.getD 0) then raise u cAccess b
      else holdEngine u { newEngine u .disarm with slot := b, handle := h, inc := cImm f })

/-! ### CLOAD and COLL (R288, R289, R317) -/

def graphNops (h : List Byte) : Nat := fieldLE h 6 2
def graphRanks (h : List Byte) : Nat := fieldLE h 8 2
def graphMe (h : List Byte) : Nat := fieldLE h 10 2
def graphCtrs (h : List Byte) : Nat := fieldLE h 12 2
/-- The length of a graph image (R288). -/
def graphLen (h : List Byte) : Nat := 64 + 32 * graphNops h + 8 * graphRanks h
/-- The header's limits (R317). -/
def graphHeadOk (h : List Byte) : Bool :=
  fieldLE h 0 4 == 0x4C4C4F43 && fieldLE h 4 2 == 1 && decide (1 ≤ graphNops h) && decide (graphNops h ≤ 4096) &&
  decide (2 ≤ graphRanks h) && decide (graphRanks h ≤ 256) && decide (graphMe h < graphRanks h) && decide (1 ≤ graphCtrs h) &&
  decide (graphCtrs h ≤ 256) && decide (fieldLE h 14 1 < 16) && fieldLE h 15 1 == 0 && fieldLE h 16 4 % 32 == 0 &&
  allZero ((h.take 64).drop 20)
/-- Operation o of an image (R318). -/
def graphOp (img : List Byte) (o : Nat) : List Byte := (img.drop (64 + 32 * o)).take 32
/-- A graph slot of a die. -/
def State.graphSlot (s : State) (die slot : Nat) : Option Graph := tget none (s.die die).graphs slot
/-- The slot is held by another live context, or another context's CLOAD has reserved it (R288). -/
def graphTaken (s : State) (die slot job : Nat) : Bool :=
  (match s.graphSlot die slot with | some g => g.job != job | none => false) ||
  s.engines.any fun e => e.kind == .cload && coreDie e.core == die && e.slot == slot && e.job != job

/-- CLOAD (R288): a sticky re-issue steps the image's address, for the header too, which is the image's first 64 bytes, and so the region that
it reads (R146, R282; log entry 97). -/
def execCload (f : F3) (s : State) : Out :=
  .next (slotOp 6 f.g s fun t0 =>
    let t := reads t0 [f.a, f.b]
    let a := stepVa t (t.sval f.a).toNat
    let b := (t.sval f.b).toNat
    let c := t.cur.core
    if decide (64 ≤ b) then raise t cBound b
    else
      withDesc t a 64 64 fun u d =>
        if !graphHeadOk d then raise u cBound a
        else
          withD u f.d (cImm f) fun v h =>
            if graphTaken v (coreDie c) b (v.curCore.job.getD 0) then raise v cAccess b
            else
              holdEngine v
                { newEngine v .cload with
                  slack := cSlack f, desc := d, src := a, slot := b, handle := h, inc := cImm f, reads := [region c (a, graphLen d)] })

/-- The graph holds a COMPRESS operation with STO (R316). -/
def graphSto (img : List Byte) : Bool :=
  (List.range (graphNops img)).any fun o => fieldLE (graphOp img o) 0 1 == 4 && (fieldLE (graphOp img o) 1 1).testBit 4
/-- The instance that a graph slot was last given (R289). -/
def lastInstance (s : State) (die slot job : Nat) (g : Graph) : Nat :=
  match (s.engines.filter fun e => e.kind == .coll && coreDie e.core == die && e.slot == slot && e.job == job).getLast? with
  | some e => e.number
  | none => g.last
/-- Region k of a base table, READ0 to WRITE3 (R289): base and length. -/
def collRegion (d : List Byte) (k : Nat) : Nat × Nat := (fieldLE d (128 + 16 * k) 8, fieldLE d (136 + 16 * k) 8)
/-- The base table with its addresses stepped (R282). -/
def collStep (s : State) (d : List Byte) : List Byte :=
  let bases := ((List.range 16).map fun k => natLE 8 (stepVa s (fieldLE d (8 * k) 8))).flatten
  bases ++ ((List.range 8).map fun k =>
    let r := collRegion d k
    natLE 8 (if r.2 == 0 then r.1 else stepVa s r.1) ++ natLE 8 r.2).flatten

/-- The graph that a context has loaded into a slot pops (R316). -/
def slotSto (s : State) (die slot job : Nat) : Bool :=
  match s.graphSlot die slot with
  | some g => g.job == job && graphSto g.image
  | none => false
/-- COLL (R289). -/
def execColl (f : F3) (s : State) : Out :=
  .next (slotOp 6 f.g s fun t0 =>
    let t := reads t0 [f.a, f.b]
    let a := (t.sval f.a).toNat
    let b := (t.sval f.b).toNat
    let c := t.cur.core
    let job := t.curCore.job.getD 0
    let slot := b % 64
    let inst := b / 2 ^ 32
    if bits b 31 6 != 0 then raise t cBound b
    else
      withDesc t a 256 64 fun u0 d0 => withExcess u0 (slotSto u0 (coreDie c) slot job) fun u =>
        let d := collStep u d0
        if (List.range 8).any (fun k => (collRegion d k).2 != 0 && decide (2 ^ 64 < (collRegion d k).1 + (collRegion d k).2)) then raise u cBound a
        else
          withD u f.d (cImm f) fun v h =>
            match v.graphSlot (coreDie c) slot with
            | none => raise v cAccess b
            | some g =>
              if g.job != job || inst == 0 || inst == lastInstance v (coreDie c) slot job g then raise v cAccess b
              else
                popCommand v (graphSto g.image) fun x w =>
                  holdEngine x
                    { newEngine x .coll with
                      slack := cSlack f, desc := d, slot := slot, number := inst, handle := h, inc := cImm f, rnd := w,
                      reads := (List.range 4).map fun k => region c (collRegion d k),
                      writes := (List.range 4).map fun k => region c (collRegion d (4 + k)) })

/-! ### Counter adds (R262) -/

/-- CADD (R262). -/
def execCadd (f : F3) (s : State) : Out :=
  .next (slotOp 6 f.g s fun t0 =>
    let t := reads t0 [f.a, f.b]
    let h := (t.sval f.a).toNat
    let amount := (t.sval f.b).toNat + cImm f
    match addCheck (t.corePart t.cur.core) (t.jobMill t.cur.core) h amount with
    | some e => raise t e h
    | none => addCmd t (.cadd h amount))
/-- CADDF (R262): performed when the instance has issued. -/
def execCaddf (f : F3) (s : State) : Out :=
  .next (slotOp 6 f.g s fun t0 =>
    let t := reads t0 [f.a, f.b]
    let h := (t.sval f.a).toNat
    let amount := (t.sval f.b).toNat + cImm f
    match addCheck (t.corePart t.cur.core) (t.jobMill t.cur.core) h amount with
    | some e => raise t e h
    | none => if isRemote h then raise t cCounterHandle h else addEff t (.caddf h amount f.d))
/-- The number of indices of a handle's kind (R118). -/
def indexRange (h : Nat) : Nat :=
  let k := if hKind h == 4 then hRkind h else hKind h
  match k with
  | 0 => 32 | 1 => 2 ^ 18 | 2 => 2 ^ 24 | _ => 2 ^ 20
/-- The handles of a CADDM (R262): the first failure, or all of them. Each is checked whole before the next; no rule orders the faults of
several. DESIGN CHOICE (log entry 132). -/
def caddmHandles (p : Partition) (mills : Nat → Bool) (h amount : Nat) : List Nat → Except (Nat × Nat) (List Nat)
  | [] => .ok []
  | j :: js =>
    if !handleOk h || decide (indexRange h ≤ h % indexRange h + j) then .error (cCounterHandle, h)
    else
      match addCheck p mills (h + j) amount with
      | some e => .error (e, h + j)
      | none => match caddmHandles p mills h amount js with
        | .error e => .error e
        | .ok hs => .ok ((h + j) :: hs)
/-- CADDM (R262). -/
def execCaddm (f : F3) (s : State) : Out :=
  .next (slotOp 6 f.g s fun t0 =>
    let t := reads t0 [f.a, f.b]
    let amount := (t.sval f.b).toNat
    match caddmHandles (t.corePart t.cur.core) (t.jobMill t.cur.core) (t.sval f.a).toNat amount
        ((List.range 16).filter fun j => (cImm f).testBit j) with
    | .error e => raise t e.1 e.2
    | .ok hs => addCmd t (.caddm hs amount))

/-! ### MCST, GEN, QSTAT (R263 to R265) -/

/-- The replica addresses of a table, up to the first zero (R263). -/
def replicaList (d : List Byte) : List Nat := ((List.range 8).map fun i => fieldLE d (8 * i) 8).takeWhile (· != 0)
/-- The check of each replica as a write (R263): the failure, or none. -/
def replicaFault (s : State) (c : Nat) : List Nat → List Nat → Option Flt
  | _, [] => none
  | seen, r :: rs =>
    if r % 128 != 0 then some { code := cAlign, info := r }
    else if isLocal r || seen.contains r then some { code := cAccess, info := r }
    else
      match coreAccess s c r 128 128 .write true with
      | .error e => some (if e.code == cPageHost then { code := cAccess, info := r } else e)
      | .ok _ => replicaFault s c (r :: seen) rs
/-- MCST (R263). A table that does not lie in the LOCAL window raises ACCESS before it is read: the rule reads it from LOCAL and names no fault.
DESIGN CHOICE (log entry 133). -/
def execMcst (f : F3) (s : State) : Out :=
  .next (slotOp 6 f.g s fun t0 =>
    let t := reads t0 [f.a, f.b]
    let a := stepVa t (t.sval f.a).toNat
    let b := stepVa t (t.sval f.b).toNat
    if !isLocal b then raise t cAccess b
    else
      withDesc t b 64 64 fun u d =>
        let rs := replicaList d
        if rs.isEmpty then raise u cBound b
        else
          withAccess u a 128 128 .read false fun v _ =>
            match replicaFault v v.cur.core [] rs with
            | some e => accessFail v e
            | none =>
              withD v f.d (cImm f) fun w h =>
                holdEngine w { newEngine w .mcst with src := a, replicas := rs, handle := h, inc := cImm f })

/-- GEN (R76, R77, R264): the claim is reserved at issue. The management controller belongs to no partition, so nothing holds a claim of its
generator (log entry 44). -/
def execGen (f : F3) (s : State) : Out :=
  .next (slotOp 6 f.g s fun t0 =>
    let t := reads t0 [f.a, f.b, f.d]
    let seed := t.sval f.d
    let base := (t.sval f.a).toNat
    let len := (t.sval f.b).toNat
    let j := t.coreJob t.cur.core
    let p := t.part j.pid
    let id := t.curCore.job.getD 0
    if len == 0 || decide (2 ^ 64 < base + len) then raise t cBound len
    else if t.cur.core == mgmtCore then addCmd t (.gen seed base len)
    else if claimConflict p (some id) seed base len then raise t cRngOverlap base
    else if decide (1024 ≤ p.claims.length) then raise t cQueueFull 0
    else addCmd (t.setPart j.pid { p with claims := p.claims ++ [⟨seed, base, len, id, some t.curCore.strand, false⟩] }) (.gen seed base len))

/-- QSTAT (R265). -/
def execQstat (f : F3) (s : State) : Out :=
  .next (slotOp 6 f.g s fun t =>
    let mill := coreMill t.cur.core
    giveS t 6 f.d (BitVec.ofNat 64 (if f.fn == 0 then tget 0 (t.mill mill).stall (cChan f) else Nat.min 16 (heldCount t mill (cChan f)))) 4)

end Sys2Proof.Machine
end

