-- ==== Sys2Proof/Machine/Place.lean ====
section
/-! DEFINITION. The scheduler's choices (R357 to R363, R214): free quads, the head of the ready queues, pinned contexts (R348), victims, and
asking for a pre-emption. -/

namespace Sys2Proof.Machine

/-- The dressing-table image of a task (R296): its rules, or none where it is malformed or cannot be read. -/
def loadDress (s : State) (pid asp ptr : Nat) : Option (List (List Byte)) :=
  if ptr == 0 then some []
  else if ptr % 32 != 0 then none
  else
    match readSpace s pid asp ptr 32 with
    | none => none
    | some h =>
      let n := fieldLE h 0 1
      if decide (64 < n) || !allZero (h.drop 1) then none
      else
        match readSpace s pid asp (ptr + 32) (32 * n) with
        | none => none
        | some bs => if (chunksOf 32 n bs).any ruleBad then none else some (chunksOf 32 n bs)

/-- The quads that a job's mills make up. -/
def Job.quadsHeld (j : Job) : List Nat := (j.mills.map (· / 4)).eraseDups
/-- The partition's quads that no context holds, ascending (R358). -/
def freeQuads (s : State) (pid : Nat) : List Nat :=
  let held := ((s.jobsOf pid).map Job.quadsHeld).flatten
  (List.range 96).filter fun q => (s.part pid).hasQuad q && !held.contains q
/-- Fabric time T_k of slice k of a gang, and its end (R361, R362). -/
def sliceStart (d : List Byte) (k : Nat) : Nat := fieldLE d 0 8 + k * fieldLE d 8 4 * 1000
def sliceEnd (d : List Byte) (k : Nat) : Nat := sliceStart d k + fieldLE d 12 4 * 1000
/-- A gang descriptor is enabled (R361). -/
def gangOn (d : List Byte) : Bool := (fieldLE d 16 1).testBit 0
/-- Fabric time lies in slice k of an enabled gang (R362). -/
def inSlice (s : State) (d : List Byte) (k : Nat) : Bool :=
  gangOn d && decide (sliceStart d k ≤ s.fabricTime) && decide (s.fabricTime < sliceEnd d k)
/-- A slice of the job's gang is open, and the job is not skipped in it (R362, R363). -/
def gangOpen (s : State) (j : Job) : Bool :=
  match tget none (s.part j.pid).slice (recGangix j.record) with
  | some k => inSlice s (tget [] (s.part j.pid).gangs (recGangix j.record)) k && j.skipped != some k
  | none => false
/-- The order of the ready queues (R357, R362): level, a gang's records in its slice first, key. -/
def readyBefore (a b : Job) : Bool :=
  let ga := recGang a.record
  let gb := recGang b.record
  decide (a.level < b.level) || (a.level == b.level && ((ga && !gb) || (ga == gb && keyLt a.key b.key)))
/-- Gang records wait outside their slice (R362). -/
def eligible (s : State) (j : Job) : Bool := j.phase == .ready && (!recGang j.record || gangOpen s j)
/-- The least element of a list under an order. -/
def leastBy {α : Type} (lt : α → α → Bool) : List α → Option α
  | [] => none
  | x :: xs => match leastBy lt xs with | none => some x | some y => if lt y x then some y else some x
/-- The head of a partition's ready queues (R358). -/
def readyHead (s : State) (pid : Nat) : Option Job := leastBy readyBefore ((s.jobsOf pid).filter (eligible s))

/-- An address names banks of one of these mills (R79, R279). -/
def namesMills (mills : List Nat) (core va : Nat) : Bool := match bankOf core va with | some (m, _) => mills.contains m | none => false
/-- R348: the context has an armed slot, a graph instance or a released engine command that names its mills' banks; an MVS in flight, like
any tile operation, only delays the save. -/
def pinned (s : State) (j : Job) : Bool :=
  let named (e : ECmd) : Bool := (e.reads ++ e.writes).any fun r => r.2 != 0 && namesMills j.mills e.core r.1
  s.engines.any (fun e => e.job == j.id && e.kind != .mvs && e.stage != .held && named e) ||
  s.dies.any fun d => d.2.armed.any fun a =>
    match a.2 with
    | some x => x.job == j.id && (namesMills j.mills x.core (armBase x.desc) || namesMills j.mills x.core (armBitmap x.desc) ||
        namesMills j.mills x.core (armRing x.desc))
    | none => false

/-- Quads that a switch-out under way will free: a PINNED context keeps its mills (R348). -/
def leavingQuads (s : State) (pid : Nat) : Nat :=
  (((s.jobsOf pid).filter fun j => j.leaving && j.phase == .running && !pinned s j).map fun j => j.quadsHeld.length).sum

/-- The quads a ready job needs: none of its own when it holds pinned mills. -/
def quadsNeeded (j : Job) : Nat := if j.mills.isEmpty then recNquads j.record else 0

/-- A running context that may be switched out (R358): its restore is done, and no switch-out is under way. -/
def canLeave (s : State) (j : Job) : Bool := j.phase == .running && !j.leaving && j.image.isNone && !pinned s j
/-- The victim order of R358: largest record LEVEL first, then highest key. -/
def victimBefore (a b : Job) : Bool :=
  decide (recLevel b.record < recLevel a.record) || (recLevel a.record == recLevel b.record && keyLt b.key a.key)
/-- A list in victim order. -/
def victimOrder (js : List Job) : List Job := js.mergeSort fun a b => !victimBefore b a
/-- The head outranks a context (R358, R362). -/
def outranks (h j : Job) : Bool := decide (h.level < recLevel j.record) || (recGang h.record && h.level == recLevel j.record)
/-- Take jobs until enough quads are together: those taken, and the quads. -/
def takeUntil (need : Nat) : Nat → List Job → List Job × Nat
  | have_, [] => ([], have_)
  | have_, j :: js => if need ≤ have_ then ([], have_) else let r := takeUntil need (have_ + j.quadsHeld.length) js; (j :: r.1, r.2)
/-- BLOCK_YIELD in cycles (R46). -/
def blockCycles : Nat := 4096
/-- Every strand of a running context has been held at a wait for BLOCK_YIELD cycles (R46); a LOCKSTEP group is held as one (R45). -/
def blockedNow (s : State) (j : Job) : Bool :=
  let cs := s.jobCores j.id
  j.phase == .running && !cs.isEmpty && cs.all fun c => (s.issueCores c).any (fun d => (s.core d).waits) && decide (blockCycles ≤ (s.core c).idle)

/-- The contexts to pre-empt for a head that does not fit (R358, R359): the outranked ones, then the blocked ones; none unless they
suffice. -/
def victims (s : State) (pid : Nat) (h : Job) : List Job :=
  let js := (s.jobsOf pid).filter (canLeave s)
  let order := victimOrder (js.filter (outranks h)) ++ victimOrder (js.filter fun j => !outranks h j && blockedNow s j)
  let r := takeUntil (quadsNeeded h) ((freeQuads s pid).length + leavingQuads s pid) order
  if quadsNeeded h ≤ r.2 then r.1 else []

/-- Ask a context's cores to stop (R159): its switch-out is under way. It rejoins its ready queue afterwards (R358), or, where it is
switched out because it is blocked (R359), when a wait of it ends (R46). A context whose restore is pending leaves once it is done. -/
def preemptJob (s : State) (id : Nat) (rejoins : Bool) : State :=
  let j := s.job id
  if j.phase != .running || j.leaving then s
  else (s.setJob id { j with leaving := true, wakeAfter := rejoins }).push ((s.jobCores id).map Instr.preemptionRequest)
/-- A victim of a head is pre-empted: outranked, or blocked (R358, R359). -/
def preemptVictim (h : Job) (s : State) (v : Job) : State := preemptJob s v.id (outranks h v)

/-- YIELD (R214): the head is pre-empted for when it comes before the context, needs its quads, and would not pre-empt it already. During a
pause of the scheduler it waits (R427). -/
def yieldAsk (s : State) (id : Nat) : State :=
  let j := s.job id
  if s.schedPaused then s.defer (.yield id)
  else
    match readyHead s j.pid with
    | none => s
    | some h =>
      let lower := decide (h.level < recLevel j.record) || (h.level == recLevel j.record && keyLt h.key j.key)
      let have_ := (freeQuads s j.pid).length + leavingQuads s j.pid
      if !lower || !canLeave s j || decide (quadsNeeded h ≤ have_) then s
      else if (victims s j.pid h).any fun v => v.id == id then s
      else preemptJob s id true

end Sys2Proof.Machine
end

