-- ==== Sys2Proof/Machine/Slots.lean ====
section
/-! DEFINITION. Running one slot operation of a bundle instance: the arms of the slot operations, one direct call each (R138). An event
is no slot operation. -/

namespace Sys2Proof.Machine

/-- The meaning of a slot operation, as an outcome. -/
def slotOut (i : Instr) (s : State) : Out :=
  match i with
  | .nop f => execNop f s
  | .add f => execAdd f s
  | .sub f => execSub f s
  | .mul f => execMul f s
  | .mulh f => execMulh f s
  | .div f => execDiv f s
  | .rem f => execRem f s
  | .and f => execAnd f s
  | .or f => execOr f s
  | .xor f => execXor f s
  | .shl f => execShl f s
  | .shr f => execShr f s
  | .sra f => execSra f s
  | .min f => execMin f s
  | .max f => execMax f s
  | .clz f => execClz f s
  | .popc f => execPopc f s
  | .sel f => execSel f s
  | .setp f => execSetp f s
  | .addi f => execAddi f s
  | .andi f => execAndi f s
  | .ori f => execOri f s
  | .xori f => execXori f s
  | .shli f => execShli f s
  | .shri f => execShri f s
  | .srai f => execSrai f s
  | .movi f => execMovi f s
  | .movh f => execMovh f s
  | .br f => execBr f s
  | .jmp f => execJmp f s
  | .call f => execCall f s
  | .ret f => execRet f s
  | .loop f => execLoop f s
  | .loopi f => execLoopi f s
  | .lbrk f => execLbrk f s
  | .exit f => execExit f s
  | .csrr f => execCsrr f s
  | .csrw f => execCsrw f s
  | .csrwSet f => execCsrwSet f s
  | .csrwClr f => execCsrwClr f s
  | .svc f => execSvc f s
  | .sret f => execSret f s
  | .fence f => execFence f s
  | .join f => execJoin f s
  | .leave f => execLeave f s
  | .grp f => execGrp f s
  | .launch f => execLaunch f s
  | .yieldOp f => execYieldOp f s
  | .dress f => execDress f s
  | .plog f => execPlog f s
  | .pmov f => execPmov f s
  | .tdef f => execTdef f s
  | .vadd f => execVadd f s
  | .vsub f => execVsub f s
  | .vmul f => execVmul f s
  | .vfma f => execVfma f s
  | .vmin f => execVmin f s
  | .vmax f => execVmax f s
  | .vabs f => execVabs f s
  | .vneg f => execVneg f s
  | .vand f => execVand f s
  | .vor f => execVor f s
  | .vxor f => execVxor f s
  | .vshl f => execVshl f s
  | .vshr f => execVshr f s
  | .vsra f => execVsra f s
  | .vcmp f => execVcmp f s
  | .vsel f => execVsel f s
  | .vred f => execVred f s
  | .vscan f => execVscan f s
  | .vperm f => execVperm f s
  | .vbcast f => execVbcast f s
  | .vextr f => execVextr f s
  | .vrcp f => execVrcp f s
  | .vrsq f => execVrsq f s
  | .vexp2 f => execVexp2 f s
  | .vlog2 f => execVlog2 f s
  | .viota f => execViota f s
  | .vdot4 f => execVdot4 f s
  | .lds f => execLds f s
  | .sts f => execSts f s
  | .ldv f => execLdv f s
  | .stv f => execStv f s
  | .ldvs f => execLdvs f s
  | .stvs f => execStvs f s
  | .ldvx f => execLdvx f s
  | .stvx f => execStvx f s
  | .pref f => execPref f s
  | .atom f => execAtom f s
  | .accv f => execAccv f s
  | .cflush f => execCflush f s
  | .cinv f => execCinv f s
  | .cvt f => execCvt f s
  | .qnt f => execQnt f s
  | .dqnt f => execDqnt f s
  | .ldk f => execLdk f s
  | .stk f => execStk f s
  | .movk f => execMovk f s
  | .rndw f => execRndw f s
  | .rndc f => execRndc f s
  | .sealTile f => execSealTile f s
  | .openTile f => execOpenTile f s
  | .pack f => execPack f s
  | .unpack f => execUnpack f s
  | .mldb f => execMldb f s
  | .mma f => execMma f s
  | .mtrn f => execMtrn f s
  | .mscl f => execMscl f s
  | .madd f => execMadd f s
  | .mcvt f => execMcvt f s
  | .mzero f => execMzero f s
  | .mcpy f => execMcpy f s
  | .mvs f => execMvs f s
  | .mqnt f => execMqnt f s
  | .cpy f => execCpy f s
  | .cpyD f => execCpyD f s
  | .send f => execSend f s
  | .arm f => execArm f s
  | .disarm f => execDisarm f s
  | .cadd f => execCadd f s
  | .caddf f => execCaddf f s
  | .caddm f => execCaddm f s
  | .mcst f => execMcst f s
  | .cload f => execCload f s
  | .coll f => execColl f s
  | .gen f => execGen f s
  | .qstat f => execQstat f s
  | .waitf f => execWaitf f s
  | .watch f => execWatch f s
  | .unwatch f => execUnwatch f s
  | _ => .next s

/-- The state after a slot operation (every one answers a next state). -/
def runSlot (i : Instr) (s : State) : State :=
  match slotOut i s with
  | .next t => t
  | _ => s

end Sys2Proof.Machine
end

