-- ==== Sys2Proof/Machine/Bundle.lean ====
section
/-! DEFINITION. The issue of a bundle instance on a compute core or the management controller (R138): fetch (R167, R343), decode (R179),
holds and freezes (R142, R143, R163, R257, R99), checkpoints (R148, R152), the slots (R153), and what follows them (R145 to R147,
R199, R201, R207, R208). The step CSRs, loops and sticky slots are here. -/

namespace Sys2Proof.Machine

/-! ### Fetch (R167, R333, R343, R432) -/

/-- Bytes of code at va on a core: a fault of the fetch, or the bytes with the state that keeps the pages used. -/
def fetchBytes (s : State) (c va n : Nat) : Except Flt (List Byte × State) :=
  let x := s.core c
  let p := s.corePart c
  let j := s.coreJob c
  let flt (code : Nat) : Except Flt (List Byte × State) := .error { code := code, info := va }
  if c == mgmtCore then (if isMcram va && isMcram (va + n - 1) then .ok (s.mcram.bytes va n, s) else flt cAccess)
  else if x.live.priv_ == 1 then
    (if isSvc p va && isSvc p (va + n - 1) then
      let at_ := (pageCuts 2 va n).map fun q => ((⟨.hbm, (hbmRange p.desc p.svcRng).phys (p.svcBase + (q.1 - svcWindow))⟩ : Loc), q.2)
      .ok ((at_.map fun q => s.bytesAt q.1 q.2).flatten, at_.foldl (fun t q => wakeHome t q.1) s)
    else flt cAccess)
  else if isSvc p va || isSvc p (va + n - 1) then flt cAccess
  else if decide (va < x.codebase.toNat) || decide (x.codebase.toNat + x.codelen < va + n) then flt cBound
  else if !spanCanonical va n then flt cAccess
  else
    match translateCuts s x.tlb (coreDie c) j.pid j.aspace .fetch (pageCuts 2 va n) with
    | .error e => .error e
    | .ok r => .ok ((r.1.map fun q => s.bytesAt q.loc q.len).flatten, r.1.foldl (fun t q => wakeHome t q.loc) (keepPages s c r.2))

/-- Check code block b of a signed segment as it is fetched (R167, R343). The core keeps the tags of the blocks that have passed: a block
whose bytes have changed since is checked again (R344). -/
def checkBlock (s : State) (c b : Nat) : Except Flt State :=
  let x := s.core c
  let j := s.coreJob c
  let va := x.codebase.toNat + 4096 * b
  let n := Nat.min 4096 (x.codelen - 4096 * b)
  if c == mgmtCore || x.live.priv_ == 1 || !segSigned x.seghead then .ok s
  else
    match translateCuts s x.tlb (coreDie c) j.pid j.aspace .fetch (pageCuts 3 va n) with
    | .error e => .error e
    | .ok r =>
      let block := (r.1.map fun q => s.bytesAt q.loc q.len).flatten
      let tag := gmac (keyOf s (segKeyslot x.seghead)) (natLE 4 b ++ zeros 8) x.seghead (block ++ zeros (4096 - n))
      if x.checked.contains (va, tag) then .ok s
      else if readSpace s j.pid j.aspace (recSegment j.record + 64 + 16 * b) 16 == some tag then
        .ok (s.onCore c fun y => { y with checked := (va, tag) :: y.checked })
      else .error { code := cSegmentAuth, info := va }

/-- Fetch the bundle at PC: its header and the LEN words after it (R164, R167). Of a bundle that reaches beyond the code and stands in a block
that fails its check, BOUND is reported: no rule orders the two. DESIGN CHOICE (log entry 127). -/
def fetchBundle (s : State) (c : Nat) : Except Flt (Nat × List Nat × State) :=
  let pc := (s.core c).live.pc.toNat
  let base := (s.core c).codebase.toNat
  match fetchBytes s c pc 4 with
  | .error e => .error e
  | .ok r =>
    let h := leNat r.1
    match fetchBytes r.2 c pc (4 * (bundleLen h + 1)) with
    | .error e => .error e
    | .ok q =>
      match checkBlock q.2 c ((pc - base) / 4096) with
      | .error e => .error e
      | .ok t =>
        match checkBlock t c ((pc - base + 4 * bundleLen h) / 4096) with
        | .error e => .error e
        | .ok u => .ok (h, wordsOf (q.1.drop 4), u)

/-! ### The operations of an instance (R145, R146, R169) -/

/-- An operation of an instance with its words and the offset it issues with (R146). -/
structure Planned where
  slot : Nat
  op : Instr
  word : Nat
  ext : Option Nat
  off : Int
  deriving DecidableEq, Repr

/-- The slots that STICK repeats (R146). -/
def stickySlot (slot : Nat) : Bool := slot == 2 || slot == 3 || slot == 4 || slot == 5 || slot == 6
/-- A slot's step CSR as a signed 32-bit value (R146, R204). -/
def stepOf (a : Arch) (slot : Nat) : Int := sint 32 (tget 0 a.steps (0x016 + slot)).toNat

/-- The operation of one slot of an instance: the present one, or the last one at a stepped offset (R146). again tells that an earlier
instance of the same bundle has issued: with STICK set its present slots re-issue (the example of R146). In SERVICE only the S and L
slots issue (R155). -/
def planSlot (a : Arch) (b : Bundle) (again : Bool) (slot : Nat) : Option Planned :=
  let sticky := b.stick && stickySlot slot && (a.priv_ != 1 || slot == 2)
  let old := tget {} a.sticky slot
  let off := old.off + stepOf a slot
  match (if sticky && again then none else b.ops.find? fun o => o.slot == slot) with
  | some o => some ⟨slot, o.op, o.word, o.ext, 0⟩
  | none => if sticky then some ⟨slot, (decodeRaw slot old.word old.ext).getD (.nop 0), old.word, old.ext, off⟩ else none
/-- The operations of an instance in slot order. -/
def planAll (a : Arch) (b : Bundle) (again : Bool) : List Planned := (List.range 8).filterMap (planSlot a b again)

/-- Record the last operations of an instance (R169). -/
def Arch.setSticky (a : Arch) (ps : List Planned) : Arch :=
  { a with sticky := (ps.filter fun p => stickySlot p.slot).foldl (fun t p => tput {} t p.slot ⟨p.word, p.ext, p.off⟩) a.sticky }

/-- An operation of an instance takes effect: its guard passes and it is not masked (R41, R168). -/
def operates (x : Core) (p : Planned) : Bool :=
  guardPasses x.live (bits p.word 31 28) && !x.masks.contains (x.instCount, p.slot)

/-- ATOM and CADDF: the bundle is a region of its own (R152). -/
def ownRegion : Instr → Bool
  | .atom _ | .caddf _ => true
  | _ => false
/-- A checkpoint precedes the bundle that carries MVS (R278). -/
def isMvs : Instr → Bool
  | .mvs _ => true
  | _ => false
/-- A checkpoint precedes these operations (R152). -/
def closesBefore : Instr → Bool
  | .waitf _ | .svc _ | .join _ | .leave _ => true
  | .fence f => f.fn != 0
  | _ => false
/-- JOIN and LEAVE are checkpoints (R36, R37). -/
def isGroupOp : Instr → Bool
  | .join _ | .leave _ => true
  | _ => false
def isFence : Instr → Bool
  | .fence _ => true
  | _ => false
def isExit : Instr → Bool
  | .exit _ => true
  | _ => false
/-- CADDF is performed at its issue (R152, R262). -/
def isCaddf : Instr → Bool
  | .caddf _ => true
  | _ => false
def isLoop : Instr → Bool
  | .loop _ | .loopi _ => true
  | _ => false
/-- The commands whose pop shows at issue only (R166, R316). -/
def latePop : Instr → Bool
  | .send _ | .coll _ => true
  | _ => false
/-- The wait mask of an operation (R257). -/
def waitMask : Instr → Nat
  | .waitf f => f.mask
  | _ => 0

/-- A core with the operations it issues in this instance. -/
structure Member where
  core : Nat
  ops : List Planned
  deriving DecidableEq, Repr

/-- Some operation of the instance that takes effect has a property. -/
def anyLive (s : State) (ms : List Member) (q : Instr → Bool) : Bool :=
  ms.any fun m => m.ops.any fun p => q p.op && operates (s.core m.core) p
/-- The instance carries an operation with a property. -/
def carries (ms : List Member) (q : Instr → Bool) : Bool := ms.any fun m => m.ops.any fun p => q p.op

/-- A checkpoint precedes the instance whatever its operands (R152, R278). -/
def checkpointsBefore (s : State) (ms : List Member) : Bool :=
  carries ms ownRegion || carries ms isMvs || anyLive s ms closesBefore

/-! ### Decode (R163, R179) -/

/-- Where a core decodes (R155, R163, R432). -/
def decodeCtx (s : State) (c : Nat) : DecodeCtx :=
  let x := s.core c
  if c == mgmtCore then { service := false, deadSlot := none, profile := true, masked := [] }
  else
    { service := x.live.priv_ == 1, deadSlot := if (s.mill (coreMill c)).millmode then none else some (5 - coreSide c), profile := false,
      masked := (x.masks.filter fun m => m.1 == x.instCount).map (·.2) }

/-- Decode the instance on each core: the bundle with each core's operations, or the first failure with its core. -/
def decodeMembers (s : State) (h : Nat) (ws : List Nat) : List Nat → Except (Nat × Nat × Nat) (List (Bundle × Member))
  | [] => .ok []
  | c :: cs =>
    match decodeBundle (decodeCtx s c) h ws with
    | .error e => .error (c, e.1, e.2)
    | .ok b =>
      match decodeMembers s h ws cs with
      | .error e => .error e
      | .ok r => .ok ((b, ⟨c, planAll (s.core c).live b ((s.core c).live.rep != 0)⟩) :: r)

/-! ### Running the slots (R38, R153, R166) -/

/-- The cursor of an instance on a core. An operation that STICK re-issues counts among the pops, so a SEND or COLL that pops beside it is one too
many; R166 speaks of the bundle's operations. DESIGN CHOICE (log entry 109). -/
def startCursor (s : State) (c len : Nat) (ops : List Planned) : Cursor :=
  let x := s.core c
  { core := c, inst := x.instCount, pc := x.live.pc, next := x.live.pc + BitVec.ofNat 64 (4 * (len + 1)), follower := s.isFollower c,
    pops := (ops.filter fun p => pops p.op).length,
    mates := (ops.filter fun p => operates x p).filterMap fun p => mMate s c p.slot p.off p.op }

/-- Issue one operation. -/
def issueOp (s : State) (p : Planned) : State :=
  if s.cur.aborted || s.cur.frozen then s
  else runSlot p.op { s with cur := { s.cur with slot := p.slot, off := p.off } }

/-- Issue the operations of one core in slot order (R153). A SEND or COLL whose pop is one too many is found first (R166). -/
def runMember (s : State) (len : Nat) (m : Member) : State :=
  let s1 := { s with cur := startCursor s m.core len m.ops }
  let late := m.ops.filter fun p => latePop p.op
  let t := late.foldl issueOp s1
  if !late.isEmpty && decide (0 < s1.cur.pops) && t.cur.illegal then t else m.ops.foldl issueOp s1

/-- Issue on each core in turn, ending with the first that faults or cannot issue: the state and the cursors so far. -/
def runMembers (len : Nat) : State → List Member → List Cursor → State × List Cursor
  | s, [], acc => (s, acc)
  | s, m :: ms, acc =>
    let t := runMember s len m
    if t.cur.aborted || t.cur.frozen then (t, acc ++ [t.cur]) else runMembers len t ms (acc ++ [t.cur])

/-! ### What an instance touches -/

/-- The tile operations of an instance. -/
def Cursor.tiles (u : Cursor) : List MOp := u.effs.filterMap fun e => match e with | .tile m => some m | _ => none
/-- The engine commands of an instance. -/
def Cursor.engineIds (u : Cursor) : List Nat := u.effs.filterMap fun e => match e with | .cmd (.engine id) => some id | _ => none
/-- The LOCAL bytes an instance writes (R152). -/
def Cursor.localWrites (u : Cursor) : List (Nat × Nat) :=
  ((u.locals.filter fun x => x.2.2).map fun x => (x.1, x.2.1)) ++ (u.tiles.map MOp.writes).flatten
/-- The control window is accessed (R433). -/
def Cursor.ctl (u : Cursor) : Bool := u.effs.any fun e => match e with | .ctlLoad _ _ _ _ | .ctlStore _ _ _ | .ctlAtom _ _ _ _ | .ctlTouch => true | _ => false
/-- The BANKROLE writes of an instance on one core, by form and value (R83). -/
def Cursor.roles (u : Cursor) : List (Nat × Word) :=
  u.effs.filterMap fun e => match e with | .csr n form a => if n == 0x031 && u.core != mgmtCore then some (form, a) else none | _ => none
/-- The roles of a mill after the BANKROLE writes of a whole instance, core by core (R83). -/
def rolesWritten (s : State) (us : List Cursor) (mill : Nat) : Word :=
  ((us.filter fun u => coreMill u.core == mill).map Cursor.roles).flatten.foldl (fun r w => rolesAfter r w.2 w.1) (rolesNow (s.mill mill))
/-- The writes of an instance change a bank role (R83). -/
def changesRoles (s : State) (us : List Cursor) : Bool :=
  us.any fun u => rolesWritten s us (coreMill u.core) != rolesNow (s.mill (coreMill u.core))

/-- The descriptor registers that an operation named at issue (R142). -/
def MOp.regs (m : MOp) : List Nat :=
  if m.isSeal then [m.td.reg]
  else
    let u := mUses m.opc
    (if u.1 then [m.td.reg] else []) ++ (if u.2.1 then [m.ta.reg] else []) ++ (if u.2.2 then [m.tb.reg] else [])

/-- R142 holds the instance: an L or X access, a TDEF, or an operation that does not pass through the window meets an operation in
flight, or such an operation would be the ninth, those of its instance before it counted. Those that pass through the window are held at
their dispatch (R291). -/
def tileBusy (x : Core) (u : Cursor) : Bool :=
  let all := u.locals.map fun l => (l.1, l.2.1)
  let fl := x.tiles
  let ops := u.tiles.filter MOp.direct
  (fl.any fun t => rangesMeet all (t.reads ++ t.writes) || (ops.any fun m => busyFor m t) ||
      (match u.tdef with | some r => t.regs.contains r | none => false)) ||
  (!ops.isEmpty && decide (8 < fl.length + (u.tiles.reverse.dropWhile fun m => !m.direct).length))

/-- The LOCAL bytes of a region of an engine command, as the core's mill sees them. -/
def regionLocal (c : Nat) (r : Nat × Nat) : List (Nat × Nat) :=
  match bankOf c r.1 with
  | some (m, off) => if m == coreMill c then [(off, r.2)] else []
  | none => []
/-- R301 and R302: the window is emptied before the instance issues. Operations that are decided and not dispatched are entries. -/
def windowMeets (s : State) (c : Nat) (u : Cursor) : Bool :=
  let w := (s.core c).staged ++ (s.core c).window
  let cmds := s.engines.filter fun e => u.engineIds.contains e.id
  let bytes := (u.locals.map fun l => (l.1, l.2.1)) ++ ((cmds.map fun e => (e.reads ++ e.writes).map (regionLocal c)).flatten).flatten ++
    ((u.tiles.filter MOp.isSeal).map MOp.writes).flatten
  (!w.isEmpty && u.effs.contains .flush) ||
  w.any fun t => rangesMeet bytes (t.reads ++ t.writes) || (match u.tdef with | some r => t.regs.contains r | none => false)

/-- A granule that the region has read is written (R152). -/
def writesRead (x : Core) (u : Cursor) : Bool :=
  !x.readBits.isEmpty && u.localWrites.any fun r => x.readBits.any fun g => overlaps r.1 r.2 (g * 1024) 1024
/-- A tile operation reads bytes that the release buffer holds (R152). -/
def readsBuffered (x : Core) (c : Nat) (u : Cursor) : Bool :=
  !x.buf.isEmpty && x.buf.any fun e =>
    match e with
    | .cmd _ => false
    | .write l bs _ =>
      u.tiles.any fun m =>
        (l.sp == .bank && m.reads.any fun r => overlaps (coreMill c * 2 ^ 23 + r.1) r.2 l.addr bs.length) ||
        (l.sp == .hbm && m.opc == 9 && m.bphys.any fun a => overlaps a 4096 l.addr bs.length)

/-- The 64-byte blocks of a list of writes (R150). -/
def blocksOf (ws : List (Loc × Nat)) : Nat :=
  ((ws.map fun w => (List.range ((w.1.addr + w.2 - 1) / 64 + 1 - w.1.addr / 64)).map fun i => (w.1.sp, w.1.addr / 64 + i)).flatten).eraseDups.length
/-- More than 1,024 write entries are needed for the writes of released regions and of the present one (R150). -/
def writesFull (old ws : List (Loc × Nat)) : Bool :=
  decide (1024 < (old ++ ws).foldl (fun n w => n + (w.2 + 126) / 64) 0) && decide (1024 < blocksOf old + blocksOf ws)
/-- A command takes a command entry (R150): every one but the invalidation of a CFLUSH. -/
def BufCmd.takesEntry : BufCmd → Bool
  | .cflush _ _ => false
  | _ => true
/-- The write and command entries of a buffer. -/
def bufWrites (es : List BufEnt) : List (Loc × Nat) := es.filterMap fun e => match e with | .write l bs _ => some (l, bs.length) | _ => none
def bufCmds (es : List BufEnt) : Nat := (es.filter fun e => match e with | .cmd k => k.takesEntry | _ => false).length
/-- The instance needs more entries than are free (R150): what is released and not drained still holds its own. -/
def bufferFull (x : Core) (u : Cursor) : Bool :=
  let new := u.effs.filterMap fun e => match e with | .store l bs _ => some (BufEnt.write l bs 0) | .cmd k => some (.cmd k) | _ => none
  writesFull (bufWrites x.drain) (bufWrites (x.buf ++ new)) || decide (64 < x.later.length + bufCmds (x.drain ++ x.buf ++ new))

/-- The region closes before the instance for what its operations turn out to do (R150, R152, R433). -/
def closesFor (s : State) (u : Cursor) : Bool :=
  let x := s.core u.core
  u.ctl || writesRead x u || readsBuffered x u.core u || bufferFull x u

/-! ### Effects after issue (R153, R248) -/

/-- A group whose size has been reached forms (R36, R210): the members take GRPID and RANK and go on, awake (R365). -/
def formGroup (s : State) (id : Nat) (g : Group) : State :=
  let j := s.job id
  let gid := BitVec.ofNat 64 (Config.identifier (s.draws + 1))
  let s1 := ({ s with draws := s.draws + 1 } : State).setJob id
    { j with groups := (j.groups.filter fun h => h.key != g.key) ++ [{ g with formed := true, gid := gid }] }
  (s1.jobCores id).foldl (fun t d =>
    match (t.core d).strand |> fun st => g.roster.findIdx? (· == st) with
    | some k =>
      wakeCore
        (t.onCore d fun y => { y with grpid := gid, rank := BitVec.ofNat 64 k, hold := if y.hold == some .join then none else y.hold, idle := 0 }) d
    | none => t) s1
/-- Groups that have reached their size without having formed, form. -/
def formFull (s : State) (id : Nat) : State :=
  (s.job id).groups.foldl (fun t g => if g.formed || decide (g.roster.length < g.size) then t else formGroup t id g) s
/-- Register a strand under a key and form the group when it is full (R36, R210): the members take GRPID and RANK and go on. -/
def joinGroup (s : State) (c : Nat) (key : Word) (size policy : Nat) (lock : Bool) : State :=
  let x := s.core c
  let id := x.job.getD 0
  let j := s.job id
  let g : Group := (j.groups.find? fun g => g.key == key).getD { key := key, size := size, policy := policy, lockstep := lock, formed := false, gid := 0, roster := [] }
  let g1 := { g with roster := (g.roster ++ [x.strand]).mergeSort }
  if g1.roster.length < g.size then
    (s.setJob id { j with groups := (j.groups.filter fun h => h.key != key) ++ [g1] }).onCore c fun y => { y with hold := some .join }
  else formGroup s id g1

/-- After JOIN and LEAVE the latches are undefined (R37). -/
def Arch.loseLatches (a : Arch) : Arch := { a with latch := (List.range 16).map fun k => (k, none) }

/-- ATOM at its home (R254, R255): the old value lands at 40 cycles; a cached line it hits is dropped (R86); where the old value is
poisoned nothing is written, and POISON waits for the next boundary. -/
def performAtom (s0 : State) (c : Nat) (l : Loc) (f : F3) (y z : Word) : State :=
  let s := drainAll s0 c
  let w := atomWidth f
  match s.firstPoison l (w / 8) with
  | some q =>
    s.onCore c fun x => { x with pending := x.pending ++
      [{ code := cPoison, info := lineInfo q, pc := s.cur.pc, slot := 2, inst := s.cur.inst }] }
  | none =>
    let old := leNat (s.bytesAt l (w / 8))
    let new := atomNew f.fn w ((lSub f).testBit 1) old (y.toNat % 2 ^ w) (z.toNat % 2 ^ w)
    let s0 := writeAt s (coreDie c) l (natLE (w / 8) new)
    let s1 := if l.sp == .hbm then mergeFrom s0 (coreDie c) (homeDie l.addr) else s0
    let s2 := if l.sp == .hbm && c != mgmtCore then dropLines s1 (coreMill c) fun x => x.line == l.addr / 128 else s1
    giveS s2 2 f.d (atomResult f old) 40

/-- What precedes CADDF in its own instance, the first n entries of the buffer, is released with it (R109). -/
def Core.releaseWrites (x : Core) (n : Nat) : Core :=
  let keep (e : BufEnt) : Bool := e.isLaunch || e.atRelease
  { x with drain := x.drain ++ (x.buf.take n).filter (fun e => !keep e), buf := (x.buf.take n).filter keep ++ x.buf.drop n,
           drainBy := ⟨x.job.getD 0, x.strand⟩ }
/-- CADDF at its home (R262): a release of what precedes it; the value before it lands at 40 cycles. With an amount of 0 it may become an
acquire, at the release scope of the handle that names the counter (R113, R121). -/
def performCaddf (s : State) (c : Nat) (o : Owed) : State :=
  let k := ownHandle o.h
  let s1 := drainAll (s.onCore c fun x => x.releaseWrites o.ents) c
  let old := s1.ctr k
  let s2 := mergeFrom (addFrom s1 (coreDie c) o.h o.amount (s1.issuer c) 6) (coreDie c) (hHome k)
  s2.onCore c fun x =>
    { x with
      inflight := x.inflight ++ [result64 6 (sDest o.d).1 (sDest o.d).2 old o.left true],
      seen := if o.amount != 0 then x.seen else x.seen ++ [⟨acquireHome c o.h, releaseScope c o.h, o.left⟩] }
/-- A CADDF of an instance: it waits while a tile operation of its own bundle has not written (R109). -/
def commitCaddf (s : State) (c h amount d : Nat) : State :=
  let x := s.core c
  let o : Owed := { h := h, amount := amount, d := d, ents := x.buf.length }
  if x.tiles.isEmpty && x.flushed then performCaddf s c o else s.setCore c { x with owed := x.owed ++ [o] }
/-- The CADDFs of a core whose bundle's tile operations have completed are performed (R109). -/
def settleOwed (s : State) (c : Nat) : State :=
  let x := s.core c
  if x.owed.isEmpty || !x.tiles.isEmpty then s
  else x.owed.foldl (fun t o => performCaddf t c o) (s.setCore c { x with owed := [] })

/-- The partner core of a mill. -/
def partnerCore (c : Nat) : Nat := if c % 2 = 0 then c + 1 else c - 1
/-- A BANKROLE write that changes a role (R83): both cores stop until the change is made, and the partner, with what issues with it,
releases its region at the boundary it has reached. A second write of the same instance that undoes the change leaves none. -/
def startRoles (s : State) (c form : Nat) (a : Word) : State :=
  let mill := coreMill c
  let m := s.mill mill
  let new := rolesAfter (rolesNow m) a form
  let p := partnerCore c
  if new == rolesNow m then s
  else if new == m.bankrole then s.setMill mill { m with change := none }
  else
    let s1 := s.setMill mill { m with change := some ⟨new, false⟩ }
    let s2 := if (s1.core p).job.isNone || (s.issueCores c).contains p then s1 else askClose s1 { cores := s1.issueCores p }
    if m.change.isSome then s2 else s2.push [.bankroleZeroingStart mill]

/-- A write of one of the management controller's own CSRs by its number (R202, R204). -/
def FirmRegs.write (r : FirmRegs) (n form : Nat) (a : Word) : FirmRegs :=
  if n == 0x030 then { r with millmode := csrWrite form 1 r.millmode a }
  else if n == 0x031 then { r with bankrole := csrWrite form allOnes r.bankrole a }
  else if n == 0x200 then { r with lattol := csrWrite form 0xFFFFFFFF r.lattol a }
  else { r with agePeriod := csrWrite form 0xFFFFFFFF r.agePeriod a }

/-- A CSR that is not shadowed is written (R202, R206): FTO, EPC, BANKROLE, and the FIRM registers of the management controller. -/
def writeCsr (s : State) (c n form : Nat) (a : Word) : State :=
  if n == 0x006 then s.onCore c fun x => { x with fto := ftoWrite x.fto a }
  else if n == 0x101 then s.onCore c fun x => { x with epc := csrWrite form allOnes x.epc a }
  else if n == 0x031 && c != mgmtCore then startRoles s c form a
  else if n == 0x104 then s.onCore c fun x => { x with svcvec := csrWrite form (~~~3) x.svcvec a }
  else if decide (0x010 ≤ n) && decide (n ≤ 0x013) then
    s.onCore c fun x => { x with lbound := setAt x.lbound (n - 0x010) (csrWrite form 0xFFFFFFFF (x.lbound.getD (n - 0x010) 0) a) }
  else s.onCore c fun x => { x with firm := x.firm.write n form a }

/-- An engine command's entry for MVS (R278, R115): its footprint is the extent of B. -/
def mvsCommand (s : State) (c : Nat) (m : MOp) : ECmd :=
  { newEngine s .mvs with stage := .released, core := c, handle := m.handle, inc := 1, reads := [(m.baddr, mvsExtent m.bT)] }

/-- The cores whose strands leave with a LEAVE (R37, R38): it dissolves a LOCKSTEP group. -/
def leavers (s : State) (c : Nat) : List Nat := if s.inLockstep c then s.issueCores c else [c]
/-- A strand leaves its group: GRPID and RANK are zero, its latches undefined (R37). -/
def leaveOne (s : State) (c : Nat) : State :=
  (leaveGroup s ((s.core c).job.getD 0) (s.core c).strand).onCore c fun x => { x.onLive Arch.loseLatches with grpid := 0, rank := 0 }

/-- One effect of an instance takes place on its core. -/
def commitEff (c : Nat) (s : State) (e : Eff) : State :=
  match e with
  | .store l bs h => s.onCore c fun x => { x with buf := x.buf ++ [.write l bs h] }
  | .cmd k => s.onCore c fun x => { x with buf := x.buf ++ [.cmd k] }
  | .tile m =>
    if m.opc == 9 && (s.core c).tileDrop == 0 then
      let s1 := drainAll s c
      let e := mvsCommand s1 c m
      enterTile { s1 with nextCmd := e.id, engines := s1.engines ++ [e] } c { m with cmd := e.id }
    else enterTile s c m
  | .atom l f y z => performAtom s c l f y z
  | .caddf h amount d => commitCaddf s c h amount d
  | .csr n form a => writeCsr s c n form a
  | .join key size policy lock => (joinGroup s c key size policy lock).onCore c fun x => x.onLive Arch.loseLatches
  | .leave => (leavers s c).foldl leaveOne s
  | .yield => s
  | .ctlStore off n val => ctlStore s off n val
  | .ctlLoad off n fn d =>
    let r := ctlLoad s off n
    giveS r.2 2 d (loadedValue fn r.1) latLocal
  | .ctlAtom off f y z =>
    let w := atomWidth f
    let r := ctlLoad s off (w / 8)
    let new := atomNew f.fn w ((lSub f).testBit 1) r.1 (y.toNat % 2 ^ w) (z.toNat % 2 ^ w)
    giveS (ctlStore r.2 off (w / 8) new) 2 f.d (atomResult f r.1) 40
  | .ctlTouch => s
  | .flush => flushWindow s c

/-- The effects of an instance on one core, its last operations (R169), and a step of the dressing stage: the entries of earlier
instances have waited one more (R292). -/
def commitMember (s : State) (u : Cursor) (m : Member) : State :=
  let s1 := u.effs.foldl (commitEff u.core) { wakeCore (s.onCore u.core Core.ageWindow) u.core with cur := u }
  stageRun u.core false 9 (s1.onCore u.core fun x =>
    { x.onLive (·.setSticky m.ops) with
      frozen := false, stalled := false, hold := if x.hold == some .join then x.hold else none, idle := 0,
      instCount := x.instCount + 1, phase := 0 })

/-- Commit every core of the instance. -/
def commitMembers : State → List Cursor → List Member → State
  | s, u :: us, m :: ms => commitMembers (commitMember s u m) us ms
  | s, _, _ => s

/-! ### Where issue goes on (R145, R147, R196) -/

/-- The LEND of a last instance: where the loop goes on, and the stack after (R147). -/
def loopEnd (next : Word) : List LoopEnt → Word × List LoopEnt
  | [] => (next, [])
  | e :: es => if e.index + 1 < e.count then (e.start, { e with index := e.index + 1 } :: es) else (next, es)

/-- The lead's PC, loop stack and instances left after an instance (R145, R147, R196). -/
def advance (a : Arch) (b : Bundle) (u : Cursor) : Arch :=
  let left := if a.rep == 0 then b.rep + 1 else a.rep
  if left != 1 then { a with rep := left - 1 }
  else
    let next := u.target.getD u.next
    let e := if b.lend && !u.exits then loopEnd next a.loops else (next, a.loops)
    { a with rep := 0, pc := e.1, loops := e.2 }

/-- Every core of an instance follows the lead's PC and count (R38), and n cycles pass. -/
def followAll (s : State) (lead : Nat) (cs : List Nat) (n : Nat) : State :=
  let a := (s.core lead).live
  cs.foldl (fun t c => t.onCore c fun x => (x.onLive fun y => { y with pc := a.pc, rep := a.rep }).cycles n) s

/-- Cores that wait: each held cycle counts as an issued cycle, for the window too (R99, R257, R292), and a member without a wait of its
own is held with its group (R45); BLOCK_YIELD of them let the scheduler act (R46). -/
def heldCycle (s : State) (cs : List Nat) (h : Nat → Option Hold) : State :=
  let t := cs.foldl (fun t c => stageRun c false 9 (t.onCore c fun x =>
    { x.cycle.ageWindow with hold := some ((h c).getD .group), idle := x.idle + 1, phase := 0, frozen := false })) s
  match cs.find? fun c => (t.core c).idle == blockCycles with
  | some c => t.push [.blockYield ((t.core c).job.getD 0)]
  | none => t

/-- A core stops where its strand is pre-empted (R159): results in flight are kept as they stand (R160), and it issues nothing more until
the context is restored or goes on. -/
def stopCore (s : State) (c : Nat) : State :=
  (drainAll s c).onCore c fun x =>
    { x with
      preempt := false, stopped := true, frozen := false, phase := 1 + s.cycle % 8,
      hold := (match x.hold with | some (.ats _) | some .fence => none | h => h) }
/-- The freeze line of cores is up. -/
def freezeAll (s : State) (cs : List Nat) : State := cs.foldl (fun t c => t.onCore c fun x => { x with frozen := true }) s
/-- The freeze line of cores is down. -/
def thawAll (s : State) (cs : List Nat) : State := cs.foldl (fun t c => t.onCore c fun x => { x with frozen := false }) s

/-- Where the region of an SVC or SRET is released, service code is entered or left (R155, R207, R208). -/
def turnPriv (s : State) (k : Closing) (cs : List Nat) : State :=
  match k.svc with
  | some v => cs.foldl (fun t c => enterService t c v.1 v.2) s
  | none => if k.sret then cs.foldl leaveService s else s

/-- The checkpoint of a region that has closed, on cores cs, and what its last instance asked for (R99, R159, R201, R207, R208, R214). -/
def regionClosed (s : State) (c : Nat) (k : Closing) (cs : List Nat) : State :=
  let s1 := cs.foldl (fun t d => t.onCore d fun x => { x with closing := none, frozen := false }) (checkpointAll (turnPriv s k cs) cs)
  let s2 := if k.sync then cs.foldl drainAll s1 else s1
  let s3 := if k.yield then yieldAsk s2 ((s2.core c).job.getD 0) else s2
  let s4 := if k.exits then cs.foldl (fun t d => endStrand t d .exited) s3 else s3
  if k.stop then cs.foldl stopCore s4 else s4

/-- The end of an instance whose region closes (R148): once the windows are empty and its CADDFs are performed (R109) the checkpoint is
taken. A fault of the flush is one of the region, at the privilege in which it issued. -/
def closeRegion (s : State) (c : Nat) : State :=
  match (s.core c).closing with
  | none => s
  | some k =>
    let cs := k.cores.filter fun d => (s.core d).closing.isSome
    let r := tryFlush (cs.foldl settleLoads s) cs
    let o := cs.foldl settleOwed r.1
    if !r.2 then r.1
    else if cs.any fun d => !(o.core d).owed.isEmpty then freezeAll o cs
    else
      let t := regionClosed o c k cs
      if cs.any fun d => (s.mill (coreMill d)).change.isSome then t.push (cs.map fun d => .bankroleZeroingStart (coreMill d)) else t

/-- The strands on cores that issue together are pre-empted here (R159): the boundary is a checkpoint. While R142 holds a dispatch of its
flush the cores are frozen, and the request waits (R330). -/
def preemptHere (s : State) (cs : List Nat) : State :=
  if cs.all fun c => (s.core c).instCount == 0 then cs.foldl stopCore s
  else closeRegion (askClose s { cores := cs, stop := true }) (cs.headD 0)

/-- What an instance's end asks for (R148, R201, R207, R208): in a LOCKSTEP group the lead's SVC or SRET decides for all
members, and a follower's own is passed over: R38 does not list the two. DESIGN CHOICE (log entry 135). -/
def finish (s : State) (b : Bundle) (lead : Nat) (cs : List Nat) (us : List Cursor) (after last : Bool) : State :=
  let u := (us.head?).getD {}
  let exits := us.any (·.exits)
  let ck := (last && b.ckpt) || after || exits || u.enterSvc.isSome || u.leaveSvc || us.any (fun v => v.ckpt || v.ctl)
  if ck then
    closeRegion (askClose s { cores := cs, sync := us.any (·.sync), yield := us.any fun v => v.effs.contains .yield, exits := exits,
                              svc := u.enterSvc.map fun imm => ((s.core lead).live.pc, imm.toNat), sret := u.leaveSvc }) lead
  else s

/-! ### Issue -/

/-- A core waits for the translation of a host page (R375). -/
def freezeAts (s : State) (c page : Nat) : State :=
  askAts (s.onCore c fun x => { x with hold := some (.ats page) }) (coreDie c) (s.coreJob c).pid (s.coreJob c).aspace page
/-- The instance cannot issue in this cycle (R143): what it had done is undone, and the core is frozen. -/
def holdFrozen (s : State) (cs : List Nat) (u : Cursor) : State :=
  let s1 := match u.stallChan with | some k => bumpStall s u.core k | none => s
  let s2 := freezeAll s1 cs
  match u.freezePage with
  | some p => freezeAts s2 u.core p
  | none => s2

/-- An instance in which nothing operates has issued on a core (R41, R199). -/
def Core.passInstance (x : Core) : Core :=
  { x.ageWindow with instCount := x.instCount + 1, hold := none, idle := 0, frozen := false, phase := 0 }

/-- A whole instance is masked (R41, R179): nothing operates, and issue goes on after the bundle. -/
def skipBundle (s : State) (cs : List Nat) (len : Nat) : State :=
  cs.foldl (fun t c => stageRun c false 9 (t.onCore c fun x =>
    (x.onLive fun a => { a with pc := a.pc + BitVec.ofNat 64 (4 * (len + 1)), rep := 0 }).cycle.passInstance)) s

/-- A bundle of a skipped loop body (R199): LOOP and LOOPI push, LEND pops, CKPT checkpoints. -/
def skipBody (s : State) (cs : List Nat) (lead : Nat) (b : Bundle) : State :=
  let x := s.core lead
  let next := x.live.pc + BitVec.ofNat 64 (4 * (b.len + 1))
  let pushes := b.ops.any fun o => isLoop o.op
  if pushes && !x.masks.contains (x.instCount, 0) && decide (6 ≤ x.live.loops.length) then
    takeFault s lead { code := cLoopOverflow, slot := 0, inst := x.instCount, epc := x.live.pc } false
  else
    let l1 := if pushes && !x.masks.contains (x.instCount, 0) then ⟨0, 0, next, true⟩ :: x.live.loops else x.live.loops
    let l2 := if b.lend then l1.drop 1 else l1
    let s1 := s.onCore lead fun y => y.onLive fun a => { a with loops := l2, pc := next, rep := 0 }
    let s2 := (followAll s1 lead cs 1)
    let s3 := cs.foldl (fun t c => stageRun c false 9 (t.onCore c Core.passInstance)) s2
    if b.ckpt then closeRegion (askClose s3 { cores := cs }) lead else s3

/-- DRESS_TABLE at a strand's first bundle (R296): IGNORE leaves an empty table, RETRY loads the table again. -/
def dressFault (s : State) (c : Nat) : State :=
  let x := s.core c
  let j := s.coreJob c
  let t := takeFault s c { code := cDressTable, info := recDressptr j.record, slot := 9, inst := x.instCount, epc := x.live.pc } false
  let y := t.core c
  if y.job != x.job || y.job.isNone then t
  else if x.masks.length < y.masks.length then t.onCore c fun z => { z with dressBad := false, rules := [], masks := x.masks }
  else
    match loadDress t j.pid j.aspace (recDressptr j.record) with
    | some rs => t.onCore c fun z => { z with dressBad := false, rules := rs }
    | none => t

/-- The cores that must wait for their flags (R38, R257). -/
def waitsFor (s : State) (ms : List Member) (c : Nat) : Option Hold :=
  match ms.find? fun m => m.core == c with
  | none => none
  | some m =>
    match m.ops.find? fun p => p.slot == 7 && operates (s.core c) p && !(s.core c).flagsReady (waitMask p.op) with
    | some p => some (.waitf (waitMask p.op))
    | none => none
/-- A FENCE waits for the strand's tile operations, in the window or in flight, and for the results of its accesses (R99). -/
def fenceWaits (s : State) (ms : List Member) (c : Nat) : Bool :=
  let x := s.core c
  anyLive s (ms.filter fun m => m.core == c) isFence &&
    (!x.tiles.isEmpty || !x.flushed || x.inflight.any fun l => l.slot == 2 || l.mem)
/-- CADDF waits for the strand's tile writes (R109). -/
def caddfWaits (s : State) (ms : List Member) : Bool :=
  ms.any fun m => !(s.core m.core).tiles.isEmpty && anyLive s [m] isCaddf

/-- In ALTERNATE an instance with an M-slot operation issues only in its core's window (R163). A NOP in an M slot drives no array, and is
not counted as one (log entry 95). -/
def outOfWindow (s : State) (ms : List Member) : Bool :=
  ms.any fun m =>
    m.core != mgmtCore && !windowOpen s m.core && m.ops.any fun p => (p.slot == 4 || p.slot == 5) && bits p.word 27 22 != 0
/-- A resumed core issues its first bundle in a cycle of the phase it was stopped in (R163). -/
def phaseWaits (s : State) (c : Nat) : Bool :=
  let x := s.core c
  (s.mill (coreMill c)).millmode && c != mgmtCore && x.phase != 0 && x.phase - 1 != s.cycle % 8

/-- The instance has issued: its effects, then time, control flow and checkpoints. -/
def commitAll (s : State) (b : Bundle) (ms : List Member) (us : List Cursor) (lead : Nat) : State :=
  let cs := ms.map (·.core)
  let u := (us.head?).getD {}
  let left := if (s.core lead).live.rep == 0 then b.rep + 1 else (s.core lead).live.rep
  let after := carries ms ownRegion || anyLive s ms isGroupOp || changesRoles s us
  let s1 := commitMembers s us ms
  let s2 := s1.onCore lead fun x => x.onLive (advance · b u)
  let s3 := followAll s2 lead cs (if left == 1 && u.target.isSome then 3 else 1)
  { finish s3 b lead cs us after (left == 1) with cur := {} }

/-- What a FENCE of MILL scope or wider orders is performed on every core that issues it before anything after it is (R99, R100). -/
def fenceDrain (s : State) (ms : List Member) : State :=
  if anyLive s ms fun i => isFence i && closesBefore i then (ms.map (·.core)).foldl drainAll s else s

/-- Issue the decoded instance, or close the region or empty the window and have it issue again (R148, R152, R301). The answer tells
whether to try again. Where a slot's fault and LEND's LOOP_UNDERFLOW meet in one instance, the slot's is reported (log entry 96). -/
def issueDecoded (s0 : State) (lead : Nat) (b : Bundle) (ms : List Member) : State × Bool :=
  let cs := ms.map (·.core)
  let x := s0.core lead
  let open_ := cs.any fun c => (s0.core c).instCount != 0
  let again (r : State × Bool) : State × Bool := ({ r.1 with cur := {} }, r.2)
  let left := if x.live.rep == 0 then b.rep + 1 else x.live.rep
  if open_ && checkpointsBefore s0 ms then again (tryClose s0 cs)
  else if cs.any fun c => (waitsFor s0 ms c).isSome then (heldCycle s0 cs (waitsFor s0 ms), false)
  else if cs.any (fenceWaits s0 ms) then (heldCycle s0 cs fun _ => some .fence, false)
  else if outOfWindow s0 ms || caddfWaits s0 ms then (holdFrozen s0 cs {}, false)
  else
    let s := fenceDrain s0 ms
    let r := runMembers b.len s ms []
    let u := (r.2.getLast?).getD {}
    if u.aborted then
      let t := match ms.find? fun m => m.core == u.core with
        | some m => runMember s b.len m
        | none => r.1
      ({ (if t.cur.aborted then t else r.1) with cur := {} }, false)
    else if left == 1 && b.lend && x.live.loops.isEmpty && !anyLive s ms isExit then
      (takeFault s lead { code := cLoopUnderflow, slot := 9, inst := x.instCount, epc := x.live.pc } false, false)
    else if u.frozen then (if u.fresh && open_ then again (tryClose s cs) else (holdFrozen s cs u, false))
    else if open_ && (changesRoles s r.2 || r.2.any (closesFor s)) then
      let t := tryClose s cs
      again (if t.2 then cs.foldl drainAll t.1 else t.1, t.2)
    else if r.2.any fun v => bufferFull (s.core v.core) v then
      (if cs.any fun c => !(s.core c).drain.isEmpty then again (cs.foldl drainAll s, true) else (holdFrozen s cs {}, false))
    else
      match r.2.find? fun v => windowMeets r.1 v.core v with
      | some v => again (tryFlush s [v.core])
      | none =>
        if r.2.any fun v => tileBusy (s.core v.core) v then (holdFrozen s cs {}, false)
        else
          match r.2.find? fun v => (poisonedLoad r.1 v.core).isSome with
          | some v =>
            (match poisonedLoad r.1 v.core with
             | some k => (eccFailure s v.core k.1 k.2, false)
             | none => (s, false))
          | none => (commitAll r.1 b ms r.2 lead, false)

/-- A fault of the fetch (R167, R375): a missing host translation freezes the core. -/
def fetchFail (s : State) (c : Nat) (e : Flt) : State :=
  let x := s.core c
  match e.atsPage with
  | some p => freezeAts (s.onCore c fun y => { y with frozen := true }) c p
  | none =>
    takeFault s c { code := e.code, info := e.info, slot := 9, inst := x.instCount, epc := x.live.pc, page := e.page,
                    flags := if e.malformed then 8 else 0 } true

/-- Fetch, decode and issue one instance; fuel bounds the times the region closes first. -/
def issueTry : Nat → Nat → State → State
  | 0, _, s => s
  | n + 1, c, s =>
    match fetchBundle s c with
    | .error e => fetchFail s c e
    | .ok (h, ws, s1) =>
      let cs := s1.issueCores c
      if cs.any (phaseWaits s1) then holdFrozen s1 cs {}
      else if cs.any fun d => (s1.core d).masks.contains ((s1.core d).instCount, 9) then skipBundle s1 cs (bundleLen h)
      else
        match decodeMembers s1 h ws cs with
        | .error e =>
          takeFault s1 e.1 { code := e.2.1, slot := e.2.2, inst := (s1.core e.1).instCount, epc := (s1.core e.1).live.pc } false
        | .ok [] => s1
        | .ok (bm :: rest) =>
          if ((s1.core c).live.loops.head?.map (·.skip)).getD false then skipBody s1 cs c bm.1
          else
            let r := issueDecoded s1 c bm.1 (bm.2 :: rest.map (·.2))
            if r.2 then issueTry n c r.1 else r.1

/-- A core has nothing to issue: no strand, stopped, halted by the debugger, or following a lead (R38). -/
def issueStops (s : State) (c : Nat) : Bool :=
  let x := s.core c
  x.stopped || (c != mgmtCore && (x.job.isNone || (s.coreJob c).halted || s.isFollower c))
/-- The roles of a mill are changing, and its cores are frozen (R83). -/
def rolesChange (s : State) (c : Nat) : Bool := c != mgmtCore && (s.mill (coreMill c)).change.isSome

/-- Offer the first fault that waits for the strand's bundle boundary (R158, R255, R291). -/
def offerPending (s : State) (c : Nat) : State :=
  match (s.core c).pending with
  | [] => s
  | p :: ps =>
    takeFault (s.onCore c fun x => { x with pending := ps }) c
      { code := p.code, info := p.info, slot := p.slot, inst := p.inst, flags := p.flags, epc := p.pc, rule := p.rule } false

/-- A strand held by something that an event ends (R45). -/
def outerHold : Option Hold → Bool
  | some .join | some (.pageDevice _) | some (.pageHost _) => true
  | _ => false
/-- A core frozen on a host translation (R375). -/
def atsHold : Option Hold → Bool
  | some (.ats _) => true
  | _ => false

/-- A pre-emption that was asked for takes place at this boundary, unless a freeze holds it off (R159). -/
def preemptAsked (s : State) (cs : List Nat) : State :=
  if !(cs.any fun d => (s.core d).preempt) || cs.any fun d => (s.core d).frozen || rolesChange s d then s else preemptHere s cs

/-- A core issues one bundle instance (R138), or what keeps it from issuing takes its course: a waiting fault, the end of the last
instance, a change of roles on any member's mill (R38, R83), a dispatch that is held (R291), a hold. -/
def coreIssue (c : Nat) (s : State) : State :=
  let cs := s.issueCores c
  if issueStops s c then s
  else
    match cs.find? fun d => !(s.core d).pending.isEmpty with
    | some d => if cs.any (begunHeld s) then holdFrozen (cs.foldl finishMatch s) cs {} else offerPending s d
    | none =>
      match cs.find? fun d => (s.core d).closing.isSome with
      | some d => preemptAsked (closeRegion s d) cs
      | none =>
        if cs.any (rolesChange s) then s
        else
          match cs.find? fun d => (s.core d).dressBad with
          | some d => dressFault s d
          | none =>
            if cs.any fun d => atsHold (s.core d).hold then s
            else if cs.any fun d => outerHold (s.core d).hold then heldCycle s cs fun d => (s.core d).hold
            else
              let s1 := cs.foldl (fun t d => stageRun d false 9 t) s
              if cs.any fun d => !(s1.core d).pending.isEmpty then s1
              else if cs.any (stageHeld s1) then holdFrozen s1 cs {}
              else
                let s2 := thawAll s1 cs
                let t := issueTry 6 c s2
                if !(cs.any fun d => (s.core d).preempt) || cs.any fun d => (t.core d).frozen then t else preemptHere s2 cs

end Sys2Proof.Machine
end

