-- ==== Sys2Proof/Machine/Pipeline.lean ====
section
/-! DEFINITION. Events of the core pipeline: the release buffer's drain, results and tile operations that complete, freezes, integrity
failures, pre-emption (R159), BANKROLE changes (R83) and the dressing stage's clock. -/

namespace Sys2Proof.Machine

/-- The end of an event: the faults that agents have left are offered (R447). -/
def done (s : State) : Out := .next (offerAll s)

/-- RELEASE_BUFFER_DRAIN (R102, R150): the oldest released entry of a core is performed. -/
def execReleaseBufferDrain (c : Nat) (s : State) : Out :=
  if (s.core c).drain.isEmpty then .next s
  else
    let id := (s.core c).drainBy.ctx
    let t := drainOne s c
    done (if (t.core c).drain.isEmpty then tryComplete t id else t.push [.releaseBufferDrain c])

/-- RESULT_LANDING (R139, R140): the results of a core that are due land; those of an issue cycle land with the cycle. -/
def execResultLanding (c : Nat) (s : State) : Out := .next (s.onCore c Core.landDue)

/-! ### Tile operations (R142, R158, R243, R269) -/

/-- The first element of a list with a property, and the rest. -/
def takeFirst {α : Type} (p : α → Bool) : List α → Option (α × List α)
  | [] => none
  | x :: xs =>
    if p x then some (x, xs)
    else match takeFirst p xs with | some r => some (r.1, x :: r.2) | none => none

/-- A fault of a tile operation: it waits for the strand's next bundle boundary, or is offered for a strand that has ended (R39, R158). -/
def tileFault (s : State) (c : Nat) (m : MOp) (code info : Nat) : State :=
  if (s.core c).job.isSome then addPending s c m code info
  else { s with offers := s.offers ++ [{ by_ := (s.core c).drainBy, code := code, info := info, flags := 0, slot := m.slot, rule := m.rule, epc := m.pc, inst := m.inst }] }

/-- The first poisoned line of an operation's sources: its place (R158, R381). -/
def tilePoison (s : State) (c : Nat) (m : MOp) : Option Loc :=
  if s.poison.isEmpty then none else m.reads.findSome? fun r => s.firstPoison (bankLoc (coreMill c) r.1) r.2

/-- The result of an operation: its tile, and its status bits in both copies (R269); SEAL and OPEN may raise FORM (R244). -/
def tileResult (s : State) (c : Nat) (m : MOp) : State :=
  match tilePoison s c m with
  | some l => tileFault s c m cPoison (lineInfo l)
  | none =>
    if m.isSeal then
      match runSeal s c m with
      | some t => tickClock t (coreDie c)
      | none => tileFault s c m cForm (localVa m.dT.tagAt)
    else
      let r0 := runTile s c m
      let r := (if (MOp.writes m).isEmpty then r0.1 else tickClock r0.1 (coreDie c), r0.2)
      if r.2 == 0 || (r.1.core c).job.isNone then r.1
      else r.1.onCore c fun x => x.onBoth fun a => a.orStatus (BitVec.ofNat 64 r.2)

/-- What a finished operation may let go on: the commands that follow its writes (R103, R109), a BANKROLE change of the mill (R83), the end
of the context (R30). -/
def tileDone (s0 : State) (c : Nat) : State :=
  let t := settleLater s0 c
  let s := if t.engines.any fun e => e.core == c && e.after != 0 && e.stage == .released then retryEngines t else t
  let s1 := match (s.mill (coreMill c)).change with
    | some ch => if ch.zeroing then s else s.push [.bankroleZeroingStart (coreMill c)]
    | none => s
  if (s1.core c).tiles.isEmpty then tryComplete s1 ((s1.core c).job.getD (s1.core c).drainBy.ctx) else s1

/-- TILE_OPERATION_COMPLETE (R142): the oldest operation of a core other than MVS completes. -/
def execTileOperationComplete (c : Nat) (s : State) : Out :=
  match takeFirst (fun m => m.opc != 9) (s.core c).tiles with
  | none => .next s
  | some r => done (tileDone (tileResult (s.onCore c fun x => { x with tiles := r.2 }) c r.1) c)

/-- ARRAY_READ_FAILURE (R158): the oldest operation that reads this LOCAL offset completes without writing, and POISON waits for the
strand's boundary. -/
def execArrayReadFailure (c addr : Nat) (s : State) : Out :=
  match takeFirst (fun m => m.opc != 9 && rangesMeet [(addr, 1)] m.reads) (s.core c).tiles with
  | none => .next s
  | some r =>
    let l := bankLoc (coreMill c) addr
    done (tileDone (tileFault ((s.onCore c fun x => { x with tiles := r.2 }).setPoison l) c r.1 cPoison (lineInfo l)) c)

/-! ### Late checks of loads (R157) -/

/-- A rollback of the cores that issue with a core waits for a match that has begun (R303). -/
def matchWaits (s : State) (c : Nat) : Bool := (s.issueCores c).any (begunHeld s)
/-- The matches of the cores that issue with a core go on as far as they can, and an event that would roll the cores back comes again. -/
def matchesFirst (s : State) (c : Nat) (again : Instr) : State := ((s.issueCores c).foldl finishMatch s).push [again]

/-- LOAD_ECC_FAILURE (R157): the check of a pending load fails at an address of its storage. -/
def execLoadEccFailure (c addr : Nat) (s : State) : Out :=
  match (s.core c).loads.find? fun k => decide (k.loc.addr ≤ addr) && decide (addr < k.loc.addr + k.len) with
  | none => .next s
  | some k => if matchWaits s c then .next (matchesFirst s c (.loadEccFailure c addr)) else done (eccFailure s c k ⟨k.loc.sp, addr⟩)

/-! ### Freezes and pre-emption (R143, R159) -/

/-- FREEZE_CLEAR (R143): the freeze of a core ends, and a pre-emption that waited for it takes place; a host translation's hold ends
with its completion (R375), a dispatch's when R142 lets it go (R291). -/
def execFreezeClear (c : Nat) (s : State) : Out :=
  let cs := s.issueCores c
  if !(s.core c).frozen || cs.any fun d => atsHold (s.core d).hold then .next s
  else
    let t := match cs.find? fun d => (s.core d).closing.isSome with
      | some d => closeRegion s d
      | none => cs.foldl (fun u d => stageRun d false 9 u) s
    if cs.any (stageHeld t) then done t
    else done (preemptAsked (cs.foldl (fun u d => u.onCore d fun x => { x with frozen := false }) t) cs)

/-- PREEMPTION_REQUEST (R159): issue stops at this boundary, once a freeze has cleared and a change of roles has ended. A LOCKSTEP group
stops together (R38). -/
def execPreemptionRequest (c : Nat) (s : State) : Out :=
  let cs := s.issueCores c
  if c == mgmtCore || (s.core c).job.isNone || (s.core c).stopped then .next s
  else
    let t := cs.foldl (fun u d => u.onCore d fun x => { x with preempt := true }) s
    done (preemptAsked t cs)

/-- A core stops at its last checkpoint (R159): nothing is recorded, and the mask set is empty (R41). -/
def stopRolledBack (s : State) (c : Nat) : State :=
  (drainAll s c).onCore c fun x =>
    { x with
      preempt := false, stopped := true, frozen := false, phase := 1 + s.cycle % 8, masks := [],
      hold := (match x.hold with | some (.ats _) => none | some .fence => none | h => h) }

/-- PREEMPTION_FREEZE_TIMEOUT (R159): the freeze has not cleared in 2,048 cycles, one of a flush for the pre-emption included (R330); the
region rolls back, and the checkpoint is the pre-emption point. -/
def execPreemptionFreezeTimeout (c : Nat) (s : State) : Out :=
  let cs := s.issueCores c
  if !(s.core c).preempt || !(cs.any fun d => (s.core d).frozen) || cs.any (rolesChange s) then .next s
  else if matchWaits s c then .next (matchesFirst s c (.preemptionFreezeTimeout c))
  else done (cs.foldl stopRolledBack (rollback s c))

/-! ### BANKROLE (R83) -/

/-- The banks of a mill whose role a change alters. -/
def changedBanks (m : Mill) : List Nat :=
  match m.change with
  | none => []
  | some ch => (List.range 32).filter fun b => roleOf m.bankrole b != roleOf ch.roles b
/-- Bytes of a mill in one of the banks. -/
def inBanks (bs : List Nat) (off n : Nat) : Bool := n != 0 && bs.any fun b => overlaps off n (b * 262144) 262144
/-- A command is running, or stalled while it runs. -/
def CmdStage.started : CmdStage → Bool
  | .held | .released => false
  | _ => true
/-- An engine command that is running has a destination byte in one of the banks. -/
def engineInBanks (s : State) (mill : Nat) (bs : List Nat) : Bool :=
  s.engines.any fun e => e.stage.started && e.writes.any fun w =>
    match bankOf e.core w.1 with
    | some (m, off) => m == mill && inBanks bs off w.2
    | none => false
/-- BANKROLE_ZEROING_START (R83, step 2): what the two cores released at their boundaries is performed, and nothing works on the changed
banks any more; zeroing begins. -/
def execBankroleZeroingStart (mill : Nat) (s : State) : Out :=
  match (s.mill mill).change with
  | none => .next s
  | some ch =>
    let bs := changedBanks (s.mill mill)
    let busy := (millCores mill).any fun c => (s.core c).tiles.any fun t => (t.reads ++ t.writes).any fun r => inBanks bs r.1 r.2
    let closing := (millCores mill).any fun c => (s.core c).closing.isSome
    if ch.zeroing || busy || closing || engineInBanks s mill bs then .next s
    else
      let t := (millCores mill).foldl drainAll s
      done ((t.setMill mill { t.mill mill with change := some { ch with zeroing := true } }).push [.bankroleZeroingEnd mill])

/-- The entries of a table at keys outside a to a + n − 1. -/
def tcut {α : Type} (t : Table α) (a n : Nat) : Table α := t.filter fun e => !(decide (a ≤ e.1) && decide (e.1 < a + n))
/-- The poison marks outside lines a to a + n − 1 of banks or, when bank is false, HBM. -/
def poisonCut (t : Table Nat) (bank : Bool) (a n : Nat) : Table Nat :=
  t.filter fun e => !(e.1 % 4 == (if bank then 1 else 0) && decide (a ≤ e.1 / 4) && decide (e.1 / 4 < a + n))
/-- Zero n bytes of the banks from a bank address: the lines become plaintext and clean (R83, R337, R340). -/
def zeroBanks (s : State) (a n : Nat) : State :=
  { s with banks := tcut s.banks a n, bankForm := tcut s.bankForm (a / 128) (n / 128),
           poison := poisonCut s.poison true (a / 128) (n / 128) }

/-- BANKROLE_ZEROING_END (R83, steps 3 to 5): the changed banks are zero, the new roles stand, and both cores resume. -/
def execBankroleZeroingEnd (mill : Nat) (s : State) : Out :=
  let m := s.mill mill
  match m.change with
  | none => .next s
  | some ch =>
    if !ch.zeroing then .next s
    else
      let bs := changedBanks m
      let s1 := bs.foldl (fun t b => zeroBanks t (mill * 2 ^ 23 + b * 262144) 262144) s
      let caches (w : Word) : List Nat := (List.range 32).filter fun b => roleOf w b == 1
      let s2 := s1.setMill mill
        { m with
          bankrole := ch.roles, change := none, cache := if caches m.bankrole == caches ch.roles then m.cache else [] }
      done ((millCores mill).foldl (fun t c => if (t.core c).stopped then t else preemptAsked t (t.issueCores c)) s2)

/-! ### The dressing stage (R290 to R292) -/

/-- M_OPERATION_DISPATCH (R291, R292): the stage takes one step. -/
def execMOperationDispatch (c : Nat) (s : State) : Out :=
  if (s.core c).flushed || !(s.core c).pending.isEmpty then .next s else done (stageRun c false 1 s)

/-- DRESS_WAIT_EXPIRY (R292): the oldest entry has waited DRESS_WAIT instances, and waits no longer. -/
def execDressWaitExpiry (c : Nat) (s : State) : Out :=
  let x := s.core c
  if x.window.isEmpty || !x.pending.isEmpty || !stageFull x then .next s else done (stageRun c false 9 s)

end Sys2Proof.Machine
end

