-- ==== Sys2Proof/Machine/CounterEvents.lean ====
section
/-! DEFINITION. Events at the counters' homes (06): updates, waiters that arrive, are removed or reach their deadline, HOSTINT messages,
and the host's counter window (R122, R441, R442). -/

namespace Sys2Proof.Machine

/-- COUNTER_UPDATE (R123, R127): an add by an agent. An amount or handle that no add may carry reaches no home. -/
def execCounterUpdate (h amount : Nat) (by_ : Issuer) (s : State) : Out :=
  if handleOk h && decide (amount < 2 ^ 62) then done (doAdd s h amount by_ 9) else .next s

/-- HOSTINT_POST (R133): the message leaves on its link. -/
def execHostintPost (link vec : Nat) (s : State) : Out := .next (s.emit (.msix link vec))

/-- WAITER_ARRIVAL (R128): a waiter reaches its counter's home. -/
def execWaiterArrival (w : Waiter) (s : State) : Out :=
  if handleOk w.h && hKind w.h != 4 && decide (w.threshold < 2 ^ 64) then done (armWaiter s w) else .next s

/-- WAITER_REMOVAL (R129). -/
def execWaiterRemoval (ctx strand flag : Nat) (s : State) : Out := .next (removeFlagWaiter s ctx strand flag)

/-- WATCH_DEADLINE_EXPIRY (R130): the deadline's cycles have passed since the waiter was armed; the flag and its FTO bit are set and the waiter
is removed. A waiter that has fired or carries no deadline has none. -/
def execWatchDeadlineExpiry (ctx strand flag : Nat) (s : State) : Out :=
  let j := s.job ctx
  if s.waiters.any (deadlinePassed s ctx strand flag) then
    .next (setFlag (removeFlagWaiter s ctx strand flag) ctx strand flag true 0)
  else if j.keptWaiters.any (deadlinePassed s ctx strand flag) then
    .next (setFlag (s.setJob ctx { j with keptWaiters := j.keptWaiters.filter fun w => !isFlagOf ctx strand flag w }) ctx strand flag true 0)
  else .next s

/-- HOST counter i lies in the range of a partition that is not FREE (R120, R441). -/
def hostCounterHeld (s : State) (i : Nat) : Bool :=
  s.parts.any fun e => e.2.st != .free && decide (e.2.hostBase ≤ i) && decide (i < e.2.hostBase + e.2.hostCnt)
/-- A host access that is turned away raises the link's refusal count (R441). -/
def refuseHost (s : State) (link : Nat) : State := { s with hostRefusals := tmod 0 s.hostRefusals link (· + 1) }
/-- HOST_COUNTER_STORE (R122, R441, R442): width in bytes. -/
def execHostCounterStore (link off width value : Nat) (s : State) : Out :=
  if width != 8 || off % 16 != 0 || decide (2 ^ 24 ≤ off) || !hostCounterHeld s (off / 16) then .next s
  else if decide (2 ^ 62 ≤ value) then .next (refuseHost s link)
  else done (applyAdd s (hostHandle (off / 16)) value)

end Sys2Proof.Machine
end

