-- ==== Sys2Proof/Machine/Image.lean ====
section
/-! DEFINITION. Saved context images (R345 to R347): their bytes, chunks and tags, and their check at restore. -/

namespace Sys2Proof.Machine

/-- A byte string cut or zero-padded to n bytes. -/
def padTo (n : Nat) (bs : List Byte) : List Byte := (bs ++ zeros n).take n
/-- The size of a chunk. -/
def chunkSize : Nat := 65536

/-! ### Strand records (R345) -/

/-- A snapshot entry (R160, R345). -/
def snapEntry (l : Landing) : List Byte :=
  let code := match l.file with
    | .o => 32 + l.num
    | .none => 63
    | _ => l.num % 256
  natLE 1 l.slot ++ natLE 1 code ++ natLE 1 l.left ++ natLE 1 (if l.latch then 1 else 0) ++ zeros 4 ++ natLE 256 l.val.toNat
/-- A loop entry (R198). -/
def loopBytes (e : LoopEnt) : List Byte := natLE 4 e.count ++ natLE 4 e.index ++ natLE 8 e.start.toNat
/-- A sticky operation. -/
def stickyBytes (k : Sticky) : List Byte := natLE 4 k.word ++ natLE 4 (k.ext.getD 0) ++ natLE 8 (islice 64 k.off)
/-- The 8-byte registers at 14944 (R345). -/
def savedCsrs (x : Core) : List Nat :=
  let a := x.live
  [a.pc.toNat, x.ckptPc.toNat, x.epc.toNat, x.ecause.toNat, x.faultinfo.toNat, a.status.toNat, x.fto.toNat, x.flags.toNat,
   x.retrycnt.toNat, x.reread.toNat, a.qmode.toNat, a.dressperm.toNat] ++
  ((List.range 5).map fun i => (tget 0 a.steps (0x018 + i)).toNat) ++
  [x.tileSkip, a.rep % 16 + (x.phase - 1) % 8 * 16 + a.priv_ * 256, a.loops.length]
/-- The membership fields of a strand record. -/
def memberBytes (j : Job) (x : Core) : List Byte :=
  match j.groupOf x.strand with
  | none => natLE 8 x.grpid.toNat ++ zeros 8 ++ natLE 2 x.rank.toNat ++ zeros 5
  | some g =>
    natLE 8 x.grpid.toNat ++ natLE 8 g.key.toNat ++ natLE 2 x.rank.toNat ++ natLE 2 g.size ++ natLE 1 g.policy ++
    natLE 1 (if g.lockstep then 1 else 0) ++ natLE 1 (if g.formed then 2 else 1)
/-- The strand record of a core with its LOCAL counters (R345). -/
def strandBytes (j : Job) (x : Core) (ctrs : List Word) : List Byte :=
  let a := x.live
  let words (n w : Nat) (f : Nat → Nat) : List Byte := ((List.range n).map fun i => natLE w (f i)).flatten
  padTo 131072
    (words 32 8 (fun i => (a.sreg i).toNat) ++ words 40 256 (fun i => (a.vreg i).toNat) ++ words 8 8 (fun i => if i == 0 then 2 ^ 64 - 1 else (a.pred i).toNat) ++
     words 8 8 (fun i => (a.kreg i).toNat) ++ words 16 8 (fun i => (a.treg i).toNat) ++ words 16 256 (fun i => ((tget (some 0) a.latch i).getD 0).toNat) ++
     padTo 96 (a.loops.map loopBytes).flatten ++ words 20 8 (fun i => (savedCsrs x).getD i 0) ++
     ([2, 3, 4, 5, 6].map fun k => stickyBytes (tget {} a.sticky k)).flatten ++
     words 32 8 (fun i => if a.rngNext + i < x.rngEnd then (genG x.rngKey (BitVec.ofNat 64 (a.rngNext + i))).toNat else 0) ++
     natLE 8 x.rngKey.toNat ++ natLE 8 a.rngNext ++ natLE 8 x.rngEnd ++ natLE 8 0 ++ words 24 8 (fun i => (ctrs.getD i 0).toNat) ++
     padTo 2048 x.rules.flatten ++ natLE 8 x.inflight.length ++ padTo 101376 (x.inflight.map snapEntry).flatten ++ memberBytes j x)

/-! ### Reading a strand record back (R345) -/

/-- A table of n values, unlisted where they are the default. -/
def tableOf {α : Type} [DecidableEq α] (d : α) (n : Nat) (f : Nat → α) : Table α := (List.range n).foldl (fun t i => tput d t i (f i)) []
/-- Byte, word and vector fields of a record. -/
def recWord (b : List Byte) (off : Nat) : Word := BitVec.ofNat 64 (fieldLE b off 8)
def recVec (b : List Byte) (off : Nat) : Vec := BitVec.ofNat 2048 (fieldLE b off 256)
/-- An 8-byte register at 14944. -/
def recCsr (b : List Byte) (i : Nat) : Word := recWord b (14944 + 8 * i)
/-- The resume word: REP instances left, the phase. -/
def recResume (b : List Byte) : Nat := (recCsr b 18).toNat
/-- The registers of a record. What a record has no place for is as kept: which latches are undefined (R37), and the flags, FTO and STATUS as
waiters and engines have set them since (R126, R447). -/
def Arch.fromRecord (a : Arch) (b : List Byte) : Arch :=
  { a with
    s := tableOf 0 32 fun i => if i == 0 then 0 else recWord b (8 * i),
    v := tableOf 0 32 fun i => recVec b (256 + 256 * i),
    o := tableOf 0 8 fun i => recVec b (8448 + 256 * i),
    p := tableOf 0 8 fun i => if i == 0 then 0 else recWord b (10496 + 8 * i),
    k := tableOf 0 8 fun i => recWord b (10560 + 8 * i),
    t := tableOf 0 16 fun i => recWord b (10624 + 8 * i),
    latch := tableOf (some 0) 16 fun i => (tget (some 0) a.latch i).map fun _ => recVec b (10752 + 256 * i),
    loops := (List.range (recCsr b 19).toNat).map fun i =>
      ⟨fieldLE b (14848 + 16 * i) 4, fieldLE b (14852 + 16 * i) 4, recWord b (14856 + 16 * i), ((a.loops[i]?).map (·.skip)).getD false⟩,
    pc := recCsr b 0, rep := recResume b % 16, qmode := recCsr b 10, dressperm := recCsr b 11,
    steps := (List.range 5).foldl (fun t i => tput 0 t (0x018 + i) (recCsr b (12 + i))) [],
    sticky := [2, 3, 4, 5, 6].zipIdx.foldl (fun t k =>
      let o := 15104 + 16 * k.2
      tput {} t k.1 ⟨fieldLE b o 4, (tget {} a.sticky k.1).ext.map fun _ => fieldLE b (o + 4) 4, sint 64 (fieldLE b (o + 8) 8)⟩) [],
    rngNext := fieldLE b 15448 8 }
/-- A snapshot entry of a record (R160, R345). -/
def Landing.fromRecord (l : Landing) (b : List Byte) (i : Nat) : Landing :=
  let o := 17720 + 264 * i
  { l with slot := fieldLE b o 1, left := fieldLE b (o + 2) 1, latch := fieldLE b (o + 3) 1 == 1, val := recVec b (o + 8) }
/-- The end index that 8 bytes name (R75): no range ends at 0, so 0 stands for 2^64. -/
def rangeEnd (n : Nat) : Nat := if n == 0 then 2 ^ 64 else n
/-- A strand as its record restores it. -/
def Core.fromRecord (x : Core) (b : List Byte) : Core :=
  let a := x.live.fromRecord b
  { x with
    live := a, shadow := a, ckptPc := recCsr b 1, epc := recCsr b 2, ecause := recCsr b 3, faultinfo := recCsr b 4, retrycnt := recCsr b 8,
    reread := recCsr b 9, tileSkip := (recCsr b 17).toNat, phase := 1 + recResume b / 16 % 8, rngKey := recWord b 15440,
    rngEnd := rangeEnd (fieldLE b 15456 8), rules := chunksOf 32 x.rules.length ((b.drop 15664).take 2048),
    inflight := x.inflight.zipIdx.map fun l => l.1.fromRecord b l.2, grpid := recWord b 119096, rank := BitVec.ofNat 64 (fieldLE b 119112 2) }

/-- The group that the membership bytes of a record name (R345), with its strand alone. -/
def groupFrom (strand : Nat) (b : List Byte) : Option Group :=
  let st := fieldLE b 119118 1
  if st == 0 then none
  else some { key := recWord b 119104, size := fieldLE b 119114 2, policy := fieldLE b 119116 1, lockstep := (fieldLE b 119117 1).testBit 0,
              formed := st == 2, gid := recWord b 119096, roster := [strand] }
/-- The groups of a context as its strand records make them (R345): registrations under one key are counted again, and the members of a
formed group keep their positions among those it formed with. -/
def rebuildGroups (old : List Group) (found : List Group) : List Group :=
  found.foldl (fun gs g =>
    if gs.any fun h => h.key == g.key then
      gs.map fun (h : Group) => if h.key == g.key then { h with roster := (h.roster ++ g.roster).mergeSort } else h
    else gs ++ [g]) [] |>.map fun (g : Group) =>
      match old.find? fun h => g.formed && h.formed && h.key == g.key with
      | some h => { g with roster := h.roster, gone := h.roster.filter fun n => !g.roster.contains n }
      | none => g

/-! ### Mill records (R345) -/

/-- A queued copy as a CPY descriptor (R283). -/
def queuedBytes (e : ECmd) : List Byte :=
  natLE 8 e.src ++ natLE 8 e.dst ++ natLE 4 e.rowBytes ++ natLE 4 e.rows ++ natLE 4 (islice 32 e.spitch) ++ natLE 4 (islice 32 e.dpitch) ++
  natLE 8 (e.handle.getD 0) ++ natLE 8 e.inc ++ natLE 1 (if e.handle.isSome then 1 else 0) ++ zeros 15
/-- The bytes of 8 form bits. -/
def formByte (s : State) (line : Nat) : Byte :=
  BitVec.ofNat 8 ((List.range 8).foldl (fun acc i => acc + if tget 0 s.bankForm (line + i) != 0 then 2 ^ i else 0) 0)
/-- The state area of a mill (R345); q are its queued copies. -/
def millState (s : State) (mill : Nat) (q : List ECmd) : List Byte :=
  let m := s.mill mill
  let set_ (i : Nat) : List Byte := let b := tget {} m.bsets i; padTo 36864 (b.codes ++ b.scales)
  padTo 262144
    (natLE 8 m.bankrole.toNat ++ zeros 8 ++ (List.range 8192).map (fun i => formByte s (mill * 65536 + 8 * i)) ++
     padTo 8176 ((List.range 2).map fun k => natLE 1 (tget 0 m.bptr k)).flatten ++ ((List.range 4).map set_).flatten ++
     ((List.range 8).map fun ch => padTo 1024 ((q.filter fun e => e.chan == ch).map queuedBytes).flatten).flatten ++
     ((List.range 8).map fun ch => natLE 8 (s.ctr (localHandle (2 * mill) (24 + ch))).toNat).flatten ++
     ((List.range 8).map fun ch => natLE 8 (tget 0 m.stall ch)).flatten)

/-! ### The image, its chunks and tags (R345, R346) -/

/-- The number of chunks of an image. -/
def imageChunks (strands mills : Nat) : Nat := 1 + 2 * strands + 132 * mills
/-- The header chunk. -/
def imageHeader (j : Job) (nonce mills tagAddr : Nat) (pinned : Bool) : List Byte :=
  let n := imageChunks j.strands.length mills
  padTo chunkSize
    (natLE 4 0x43585449 ++ natLE 2 1 ++ natLE 2 j.strands.length ++ natLE 4 j.ctxid ++ natLE 1 j.pid ++
     natLE 1 ((if j.det then 1 else 0) + (if pinned then 2 else 0) + (if recAlternate j.record then 4 else 0)) ++ natLE 2 j.depth ++
     natLE 8 nonce ++ natLE 8 ((n - 1) * chunkSize) ++ natLE 4 n ++ natLE 4 mills ++ natLE 8 tagAddr ++ natLE 8 (j.key.headD 0) ++
     natLE 8 j.wdogNs)
/-- The tags of chunks n, n + 1, … (R346). -/
def chunkTags (key : List Byte) (nonce : Nat) : Nat → List Byte → List (List Byte) → List (List Byte)
  | _, _, [] => []
  | n, before, c :: cs =>
    let t := gmac key (natLE 4 n ++ natLE 8 nonce) before c
    t :: chunkTags key nonce (n + 1) t cs

/-- The save range of a partition and its key (R335). -/
def saveRange (p : Partition) : HbmRange := hbmRange p.desc p.saveRng
def saveKey (s : State) (p : Partition) : List Byte := keyOf s (fieldLE p.desc 26 1)
/-- Write bytes at an offset of a range, page by page; the dies of the pages are awake (R366). -/
def putInRange (s : State) (r : HbmRange) (off : Nat) (bs : List Byte) : State :=
  (pageCuts (bs.length / 4096 + 2) off bs.length).foldl
    (fun t q => wakeHome (t.putBytes ⟨.hbm, r.phys q.1⟩ ((bs.drop (q.1 - off)).take q.2)) ⟨.hbm, r.phys q.1⟩) s
/-- The dies whose stacks hold n bytes of a range are awake (R366). -/
def wakeRange (s : State) (r : HbmRange) (off n : Nat) : State :=
  (pageCuts (n / 4096 + 2) off n).foldl (fun t q => wakeHome t ⟨.hbm, r.phys q.1⟩) s
/-- Read n bytes at an offset of a range. -/
def rangeBytes (s : State) (r : HbmRange) (off n : Nat) : List Byte :=
  ((pageCuts (n / 4096 + 2) off n).map fun q => s.bytesAt ⟨.hbm, r.phys q.1⟩ q.2).flatten
/-- The image and its tag array fit in the save range, apart (R345). -/
def imageFits (p : Partition) (base tagAddr chunks : Nat) : Bool :=
  let size := (saveRange p).pages * 4096
  decide (base + chunks * chunkSize ≤ size) && decide (tagAddr + 16 * chunks ≤ size) &&
  !overlaps base (chunks * chunkSize) tagAddr (16 * chunks) && base % chunkSize == 0

/-- The chunks of an image as memory holds them. -/
def imageInMemory (s : State) (p : Partition) (base chunks : Nat) : List (List Byte) :=
  (List.range chunks).map fun i => rangeBytes s (saveRange p) (base + i * chunkSize) chunkSize
/-- The check of R347: the NONCE of the header, then the tag of every chunk. -/
def imageGood (s : State) (p : Partition) (base tagAddr chunks nonce : Nat) : Bool :=
  let cs := imageInMemory s p base chunks
  fieldLE (cs.headD []) 16 8 == nonce &&
  chunkTags (saveKey s p) nonce 0 (zeros 16) cs == (List.range chunks).map fun i => rangeBytes s (saveRange p) (tagAddr + 16 * i) 16

end Sys2Proof.Machine
end

