-- ==== Sys2Proof/Machine/Sched.lean ====
section
/-! DEFINITION. The scheduler's events (19): accepting launch-queue entries (R350 to R352), dispatch and strand start (R26, R29, R357 to
R359), switch-out and restore (R345 to R348), completion (R30), ageing (R47), gang slices (R361 to R363), the watchdog (R364) and the
idle states (R365, R366). -/

namespace Sys2Proof.Machine

/-! ### Launch queues (R350 to R352) -/

/-- Accepted host records that have not been dispatched (R352). -/
def hostPending (s : State) (pid : Nat) : Nat :=
  ((s.jobsOf pid).filter fun j => !j.launched && !j.dispatched && j.phase != .ended).length

/-- Consume an entry: RESULT and FCODE, then TAKEN (R351, R352). -/
def consumeEntry (s : State) (pid queue result fcode : Nat) : State :=
  let p := s.part pid
  let q := tget {} p.queues queue
  let a := lqRing q.desc + 16 * (q.taken % 2 ^ lqLogn q.desc)
  writeAt (s.setPart pid { p with queues := tins p.queues queue { q with taken := q.taken + 1 } }) p.schedDie ⟨.hbm, a + 8⟩
    (natLE 2 result ++ natLE 1 fcode)
/-- Add 1 to TAKEN (R351, step 4). -/
def countTaken (s : State) (pid queue : Nat) : State :=
  let p := s.part pid
  tickClock (applyAdd s (hostHandle (lqTaken (tget {} p.queues queue).desc)) 1) p.schedDie

/-- The fault that refuses an entry (R351): its address, its reserved bytes, then its record. -/
def entryFault (s : State) (pid : Nat) (e : List Byte) : Option Nat :=
  let a := fieldLE e 0 8
  if a % 128 != 0 || !(s.part pid).holds a 128 then some cAlign
  else if !allZero (e.drop 11) then some cBound
  else recordFault s pid (s.bytesAt ⟨.hbm, a⟩ 128)

/-- The next due entry is accepted before anything else: entries of one update are accepted together (R351). -/
def acceptMore (s : State) (pid : Nat) : State := { s with agenda := acceptNext s pid ++ s.agenda }

/-- LAUNCH_QUEUE_ENTRY_ACCEPT (R351, R352): the oldest due entry of the partition. -/
def execLaunchQueueEntryAccept (pid queue : Nat) (s : State) : Out :=
  let p := s.part pid
  let q := tget {} p.queues queue
  if nextDue p != some queue then .next s
  else if s.schedPaused then .next (s.deferOnce (.launchQueueEntryAccept pid queue))
  else if p.st == .draining then done (acceptMore (countTaken (consumeEntry s pid queue 2 0) pid queue) pid)
  else if p.st != .active || decide (4096 - p.pool ≤ hostPending s pid) then .next s
  else
    let e := s.bytesAt ⟨.hbm, lqRing q.desc + 16 * (q.taken % 2 ^ lqLogn q.desc)⟩ 16
    match entryFault s pid e with
    | some code => done (acceptMore (countTaken (consumeEntry s pid queue 2 code) pid queue) pid)
    | none =>
      let loc : Loc := ⟨.hbm, fieldLE e 0 8⟩
      let rec_ := s.bytesAt loc 128
      let n := nextSubmission (consumeEntry (wakeHome s loc) pid queue 1 0) pid
      let s1 := writeAt n.2 p.schedDie ⟨.hbm, loc.addr + 100⟩ (zeros 3)
      done (acceptMore (submit (countTaken s1 pid queue) pid rec_ loc 0 none [n.1] false) pid)

/-! ### Strand start (R26, R76, R189, R296) -/

/-- The generator of strand i of n (R76): key, first index, end index, and whether it holds a claim; k is the hardware's draw. -/
def strandRng (r : List Byte) (i : Nat) (k : Word) : Word × Nat × Nat × Bool :=
  let n := recNstrand r
  let len := recRnglen r / n
  if recRnglen r == 0 then (k, 0, 2 ^ 64, false)
  else
    (BitVec.ofNat 64 (recRngseed r), recRngbase r + i * len,
     if i + 1 == n then recRngbase r + recRnglen r else recRngbase r + (i + 1) * len, true)

/-- A strand starts on a core (R26, R332). rules is the table of R296, none when its image is bad. -/
def startStrand (s0 : State) (j : Job) (i c : Nat) (rules : Option (List (List Byte))) : State :=
  let s := if recRnglen j.record == 0 then s0.draw.2 else s0
  let g := strandRng j.record i s0.draw.1
  let r := j.record
  let base := BitVec.ofNat 64 (recSegment r + segCodeoff j.seghead)
  let pc := base + BitVec.ofNat 64 (recEntry r)
  let a : Arch :=
    { s := tput 0 (tput 0 [] 1 (BitVec.ofNat 64 (recArgs r))) 2 (BitVec.ofNat 64 (recNstrand r)), pc := pc, rngNext := g.2.1 }
  let p := s.part j.pid
  { s.setCore c
      { live := a, shadow := a, ckptPc := pc, job := some j.id, strand := i, codebase := base, codelen := segCodelen j.seghead,
        seghead := j.seghead, lbound := (List.range 4).map fun k => BitVec.ofNat 64 (segLb j.seghead k),
        svcvec := BitVec.ofNat 64 p.svcVec, rngKey := g.1, rngEnd := g.2.2.1, rngClaim := g.2.2.2, rules := rules.getD [],
        dressBad := rules.isNone, dround := p.flag 4, tlb := (s.core c).tlb } with
    runQueue := s.runQueue.filter (· != c) ++ [c] }

/-- The cores of a set of mills in placement order (R29). -/
def millsCores (ms : List Nat) : List Nat := (ms.map fun m => [2 * m, 2 * m + 1]).flatten
/-- Zero the LOCAL counters of a mill's cores and its write pointers (R96, R119). -/
def zeroLocals (s : State) (m : Nat) : State :=
  ((millCores m).map fun c => (List.range 32).map fun i => localHandle c i).flatten.foldl (fun t h => t.setCtr h 0) s
/-- A mill is given to a context (R81, R119, R162): zeroed SCRATCH banks, zero counters, the array mode of the record. -/
def freshMill (j : Job) (s : State) (m : Nat) : State :=
  wakeDie ((zeroBanks (zeroLocals s m) (m * 2 ^ 23) (2 ^ 23)).setMill m { millmode := recAlternate j.record }) (millDie m)
/-- The mills of the n free quads with the lowest indices (R358). -/
def takeMills (s : State) (pid n : Nat) : List Nat := (((freeQuads s pid).take n).map fun q => [4 * q, 4 * q + 1, 4 * q + 2, 4 * q + 3]).flatten

/-- At a dispatch the scheduler writes LATTOL and AGE_PERIOD from the partition descriptor (R332). -/
def dispatchCsrs (p : Partition) : Partition :=
  { p with lattol := BitVec.ofNat 64 (fieldLE p.desc 72 4), agePeriod := BitVec.ofNat 64 (fieldLE p.desc 76 4) }
/-- A context is created and its strands start (R26, R29, R353, R355, R360); its first bundle is an acquire of what the launching die had
seen (R33). -/
def firstDispatch (s : State) (h : Job) : State :=
  let p := s.part h.pid
  let id := Config.identifier (s.draws + 1) % 2 ^ 32
  let mills := takeMills s h.pid (recNquads h.record)
  let n := recNstrand h.record
  let cores := (millsCores mills).take n
  let j : Job :=
    { h with phase := .running, dispatched := true, ctxid := id, mills := mills, strands := cores.map StrandAt.core, level := recLevel h.record,
             wdogAt := s.fabricTime }
  let s1 := ({ s with draws := s.draws + 1 } : State).setPart h.pid
    { dispatchCsrs p with tickets := if h.launched then p.tickets - 1 else p.tickets }
  let s2 := writeRec (writeRec (s1.setJob h.id j) j 100 (natLE 2 1)) j 104 (natLE 4 id)
  let s3 := mills.foldl (freshMill j) s2
  let s4 := if h.clock.isEmpty then s3 else mills.foldl (fun t m => mergeWith t (millDie m) h.clock) s3
  let rules := loadDress s4 h.pid (recAspace h.record) (recDressptr h.record)
  cores.zipIdx.foldl (fun t x => startStrand t j x.2 x.1 rules) s4

/-- Place a job that has run before: it takes mills unless it holds its own (R348), and its restore begins. -/
def placeAgain (s : State) (h : Job) : State :=
  let mills := if h.mills.isEmpty then takeMills s h.pid (recNquads h.record) else h.mills
  ((s.setPart h.pid (dispatchCsrs (s.part h.pid))).setJob h.id { h with phase := .running, mills := mills, level := recLevel h.record }).push
    [.contextRestore h.id]

/-- DISPATCH (R358, R359): the head of the partition's ready queues is placed, or victims are pre-empted for it. -/
def execDispatch (pid : Nat) (s : State) : Out :=
  if (s.part pid).st != .active then .next s
  else if s.schedPaused then .next (s.deferOnce (.dispatch pid))
  else
    match readyHead s pid with
    | none => .next s
    | some h =>
      if quadsNeeded h ≤ (freeQuads s pid).length then
        done (serveQueues ((if h.dispatched then placeAgain s h else firstDispatch s h).push [.dispatch pid]) pid)
      else done ((victims s pid h).foldl (preemptVictim h) s)

/-! ### Completion (R30) -/

/-- A context's armed slots and graph slots are removed from every die (R287, R288). -/
def dropSlots (s : State) (id : Nat) : State :=
  { s with dies := s.dies.map fun e =>
      (e.1, { e.2 with
        armed := e.2.armed.filter fun a => (match a.2 with | some x => x.job != id | none => true),
        graphs := e.2.graphs.filter fun g => (match g.2 with | some x => x.job != id | none => true) }) }

/-- The quads of a context return (R30, step 3). -/
def returnQuads (s : State) (id : Nat) : State :=
  let j := s.job id
  s.setJob id { j with mills := [], kept := [], keptMills := [], keptCtrs := [], keptWaiters := [], groups := [] }

/-- CONTEXT_COMPLETE (R30, R77, R135, R287, R355): status, completion add, then the quads; during a pause of the scheduler it waits
(R427). -/
def execContextComplete (id : Nat) (s : State) : Out :=
  if !jobDone s id then .next s
  else if s.schedPaused then .next (s.deferOnce (.contextComplete id))
  else
    let j := s.job id
    let s1 := writeStatus (dropSlots (endClaims s j.pid id) id) j j.outcome (if j.outcome == 2 then 0 else j.fcode)
    let s2 := { s1 with waiters := s1.waiters.filter (notOfJob id) }
    let s3 := addFrom s2 (s.part j.pid).schedDie (recDoneh j.record) (recDoneinc j.record) ⟨id, 0⟩ 9
    let s4 := s3.setJob id { (s3.job id) with phase := .ended }
    done ((returnQuads s4 id).push [if (s.part j.pid).st == .draining then .drainingComplete j.pid else .dispatch j.pid])

/-! ### Switch-out and restore (R345 to R348) -/

/-- A copy of a context that a switch-out waits for (R348): it is running, and not stalled at a page of a host that is lost (R383). -/
def copyRuns (s : State) (j : Job) (e : ECmd) : Bool :=
  e.kind == .cpy && e.job == j.id && e.stage.started &&
  !(s.hostLost.contains j.pid && (match e.stage with | .stalledAts _ | .stalledHost _ _ => true | _ => false))
/-- Every strand of a job has stopped, and nothing of it works in its mills: tile operations, released entries and, unless it keeps its
mills, running copies (R348). -/
def switchable (s : State) (j : Job) : Bool :=
  j.leaving && j.phase == .running && j.image.isNone && (s.jobCores j.id).all (fun c => (s.core c).stopped) &&
  (j.mills.all fun m => (millCores m).all fun c =>
    (s.core c).tiles.isEmpty && (s.core c).drain.isEmpty && (s.core c).later.isEmpty && (s.mill m).change.isNone) &&
  (pinned s j || !s.engines.any (copyRuns s j))
/-- A stopped core as it is kept with its context: outside the masks of its region. -/
def Core.keep (x : Core) : Core :=
  { x with masks := [], drain := [], later := [], tiles := [], staged := [], closing := none, tlb := [], stopped := false, power := 0,
           idleAt := none }
/-- The LOCAL counters of a core. -/
def localCtrs (s : State) (c : Nat) : List Word := (List.range 24).map fun i => s.ctr (localHandle c i)
/-- The bytes of a bank set of a mill. -/
def millBytes (s : State) (m : Nat) : List Byte := s.bytesAt ⟨.bank, m * 2 ^ 23⟩ (2 ^ 23)
/-- The strand record of strand i of a job; one that has ended has the LOCAL counters of its core (R119). -/
def strandRecord (s : State) (j : Job) (i : Nat) : List Byte :=
  match j.strands[i]? with
  | some (.core c) => strandBytes j (s.core c) (localCtrs s c)
  | _ => strandBytes j { strand := i } (localCtrs s ((millsCores j.mills).getD i 0))
/-- The copies of a job that wait in the channels of its mills (R348), or stand at a page of a host that is lost (R383). -/
def queuedCopies (s : State) (id : Nat) : List ECmd :=
  s.engines.filter fun e => e.kind == .cpy && e.job == id && e.stage != .held && e.stage != .running
/-- A waiter on a LOCAL counter of one of these cores. -/
def waitsOnCores (cs : List Nat) (w : Waiter) : Bool := hKind w.h == 0 && cs.contains (hCore w.h)

/-- Write a context's image and its tags (R345, R346). -/
def writeImage (s : State) (j : Job) (base tagAddr nonce : Nat) (hold : Bool) : State :=
  let p := s.part j.pid
  let mills := if hold then [] else j.mills
  let q := queuedCopies s j.id
  let bytes := imageHeader j nonce mills.length tagAddr hold ++ ((List.range j.strands.length).map (strandRecord s j)).flatten ++
    (mills.map fun m => millBytes s m ++ millState s m (q.filter fun e => coreMill e.core == m)).flatten
  let tags := chunkTags (saveKey s p) nonce 0 (zeros 16) (chunksOf chunkSize (imageChunks j.strands.length mills.length) bytes)
  putInRange (putInRange s (saveRange p) base bytes) (saveRange p) tagAddr tags.flatten
/-- What a switched-out job waits for: host loss (R383), readiness (R46, R357), or the end of a wait of some strand. -/
def outPhase (s : State) (j : Job) : JobPhase :=
  if s.hostLost.contains j.pid && spaceHostmaps (tget [] (s.part j.pid).spaces j.aspace) then .suspended
  else if j.wakeAfter || (j.kept.any fun e => !j.strandWaits e.1) then .ready
  else .out
/-- A core that its strand has left. -/
def emptyCore (s : State) (c : Nat) : State :=
  { s.setCore c { tlb := (s.core c).tlb } with runQueue := s.runQueue.filter (· != c) }

/-- CONTEXT_SWITCH_OUT (R345, R346, R348, R357): base and tagAddr are the firmware's choice in the save range. A pinned context keeps
its mills and its engine commands. -/
def execContextSwitchOut (id base tagAddr : Nat) (s : State) : Out :=
  let s0 := noteWatch s id
  let j := s0.job id
  let p := s.part j.pid
  let hold := pinned s j
  let nonce := p.nonce + 1
  if !switchable s j || s.schedPaused || !imageFits p base tagAddr (imageChunks j.strands.length (if hold then 0 else j.mills.length)) then .next s
  else
    let s1 := writeImage (s0.setPart j.pid { p with nonce := nonce }) j base tagAddr nonce hold
    let cs := s1.jobCores id
    let all := millsCores j.mills
    let kept := cs.foldl (fun t c => tins t (s1.core c).strand (s1.core c).keep) []
    let q := queuedCopies s1 id
    let s2 := if hold then s1
      else { s1 with engines := s1.engines.filter fun e => !q.contains e, waiters := s1.waiters.filter fun w => !waitsOnCores all w }
    let j1 : Job :=
      { j with
        strands := j.strands.map fun x => (match x with | .core _ => .saved | y => y), image := some (base, tagAddr, nonce), kept := kept,
        keptMills := if hold then [] else j.mills.map s1.mill, savedCmds := if hold then [] else q, mills := if hold then j.mills else [],
        keptFrom := j.mills, keptCtrs := if hold then [] else all.map (localCtrs s1),
        keptWaiters := if hold then [] else s1.waiters.filter (waitsOnCores all),
        lastCore := cs.foldl (fun t c => tput 0 t (s1.core c).strand c) j.lastCore, leaving := false, level := recLevel j.record,
        readyAt := s.fabricTime }
    let j2 : Job := { j1 with phase := outPhase s2 j1, wakeAfter := false }
    let s3 := cs.foldl emptyCore (s2.setJob id j2)
    done ((if j2.phase == .suspended then noteSuspended s3 j.pid else s3).push [.dispatch j.pid])

/-- A fault offered from the context level without a strand's rollback (R44, R347, R364): IGNORE and RETRY kill there. -/
def offerContext (s : State) (id code info : Nat) : State :=
  let c? := (s.jobCores id).head?
  let x := match c? with | some c => s.core c | none => {}
  let r := resolve { kill := true, retries := x.retrycnt.toNat } (upperLevels s id)
  let f : FaultAt := { code := code, info := info, slot := 9, epc := x.live.pc, inst := x.instCount }
  let w := writeRecord s id fun lost =>
    faultRecord s f id x.strand (c?.getD 0) x.retrycnt.toNat (x.live.priv_ % 2) r.1 r.2 x.ckptPc lost
  if !w.2 then doubleFault w.1 id code
  else if decide (r.2 < 3) then w.1
  else killAt w.1 id x.strand r.1 r.2 code

/-- A mill's roles, B sets, P and stall counts from its state area (R345); a B set's source is as kept. -/
def Mill.fromRecord (m : Mill) (st : List Byte) : Mill :=
  let set_ (i : Nat) : BSet :=
    let b := tget {} m.bsets i
    let at_ := (st.drop (16384 + i * 36864)).take 36864
    { b with codes := at_.take b.codes.length, scales := (at_.drop b.codes.length).take b.scales.length }
  { m with
    bankrole := recWord st 0, bptr := tableOf 0 2 fun k => fieldLE st (8208 + k) 1, bsets := tableOf {} 4 set_,
    stall := tableOf 0 8 fun ch => fieldLE st (172096 + 8 * ch) 8 }
/-- Restore one mill from its place in the image (R345): banks, form bits, write pointers and its state. -/
def restoreMill (p : Partition) (base first : Nat) (j : Job) (s : State) (m k : Nat) : State :=
  let off := base + (first + 132 * k) * chunkSize
  let r := saveRange p
  let s1 := (zeroBanks s (m * 2 ^ 23) (2 ^ 23)).putBytes ⟨.bank, m * 2 ^ 23⟩ (rangeBytes s r off (2 ^ 23))
  let st := rangeBytes s r (off + 2 ^ 23) 262144
  let s2 := (List.range 65536).foldl (fun t i => t.setForm ⟨.bank, m * 2 ^ 23 + 128 * i⟩ ((fieldLE st (16 + i / 8) 1).testBit (i % 8))) s1
  let s3 := (List.range 8).foldl (fun t ch => t.setCtr (localHandle (2 * m) (24 + ch)) (BitVec.ofNat 64 (fieldLE st (172032 + 8 * ch) 8))) s2
  wakeDie
    (s3.setMill m
      { (j.keptMills.getD k {}).fromRecord st with
        millmode := recAlternate j.record, cache := [], halted := [], change := none, idle := 0, idleAt := none })
    (millDie m)

/-- The core that takes the place of one that a context left (R25). -/
def newCore (j : Job) (c : Nat) : Nat :=
  match (millsCores j.keptFrom).findIdx? (· == c) with
  | some i => (millsCores j.mills).getD i c
  | none => c
/-- Waiters on LOCAL counters follow the counters to the context's new cores (R46, R119, R135). -/
def moveWaiters (s : State) (j : Job) : State :=
  { s with waiters := s.waiters ++ j.keptWaiters.map fun (w : Waiter) => { w with h := localHandle (newCore j (hCore w.h)) (bits w.h 4 0) } }

/-- A core's LOCAL counters from its strand record (R345). -/
def restoreCounters (s : State) (c : Nat) (rec_ : List Byte) : State :=
  (List.range 24).foldl (fun t i => t.setCtr (localHandle c i) (BitVec.ofNat 64 (fieldLE rec_ (15472 + 8 * i) 8))) s
/-- A kept strand takes its core, whose TLB stays, and runs. -/
def seatStrand (s : State) (c : Nat) (x : Core) : State :=
  let t := s.setCore c { x with tlb := (s.core c).tlb, hold := if x.hold == some .join then x.hold else none, checked := [] }
  wakeMill { t with runQueue := t.runQueue.filter (· != c) ++ [c] } (coreMill c)
/-- Put a kept strand on a core (R161, R345): it issues from its boundary on. A page fault that was refused is offered (R46). -/
def restoreStrand (recs : Nat → List Byte) (j : Job) (s : State) (strand c : Nat) : State :=
  let x := (tget {} j.kept strand).fromRecord (recs strand)
  let s2 := seatStrand s c x
  match x.hold, x.pageFault with
  | none, some f => offerPage s2 c f
  | _, _ => s2.onCore c fun y => { y with pageFault := none }

/-- The LOCAL counters of a context that took new mills (R119, R345): those of its strands' cores from their records, the others as kept. -/
def restoreLocals (recs : Nat → List Byte) (j : Job) (s : State) : State :=
  (millsCores j.mills).zipIdx.foldl (fun t x =>
    if x.2 < j.strands.length then restoreCounters t x.1 (recs x.2)
    else (j.keptCtrs.getD x.2 []).zipIdx.foldl (fun u v => u.setCtr (localHandle x.1 v.2) v.1) t) s
/-- The places of a job's strands on its mills (R29): those that have ended keep theirs empty. -/
def placesOf (j : Job) : List (Nat × Nat) :=
  (j.strands.zipIdx.zip (millsCores j.mills)).filterMap fun x => match x.1.1 with | .saved => some (x.1.2, x.2) | _ => none

/-- A restore that is refused (R347): every core and bank it would have written is zero, no strand issues, and SEGMENT_AUTH is offered. -/
def abortRestore (s : State) (j : Job) : State :=
  let s1 := if j.keptMills.isEmpty then s else j.mills.foldl (freshMill j) s
  let s2 := offerContext (s1.setJob j.id { j with keptMills := [], savedCmds := [], keptWaiters := [] }) j.id cSegmentAuth 0
  if (s2.job j.id).phase == .ended then s2 else killJob s2 j.id 3 cSegmentAuth

/-- CONTEXT_RESTORE (R345, R347, R348, R161): the image is checked, the mills and strands are put back, and queued copies are queued again. A
pinned context's banks and counters have stood where they were. DESIGN CHOICE: a queued copy goes to the core that takes its core's place,
and its completion handle, a LOCAL one too, stays as it is (log entry 100). -/
def execContextRestore (id : Nat) (s : State) : Out :=
  let j := s.job id
  let p := s.part j.pid
  match j.image with
  | none => .next s
  | some (base, tagAddr, nonce) =>
    if j.phase != .running then .next s
    else
      let hold := j.keptMills.isEmpty
      let recs (i : Nat) : List Byte := rangeBytes s (saveRange p) (base + (1 + 2 * i) * chunkSize) 131072
      let n := imageChunks j.strands.length (if hold then 0 else j.mills.length)
      if !imageGood s p base tagAddr n nonce then done (abortRestore s { j with image := none })
      else
        let first := 1 + 2 * j.strands.length
        let s0 := wakeRange s (saveRange p) base (n * chunkSize)
        let s1 := if hold then s0 else
          moveWaiters (restoreLocals recs j (j.mills.zipIdx.foldl (fun t x => restoreMill p base first j (zeroLocals t x.1) x.1 x.2) s0)) j
        let places := placesOf j
        let strands := j.strands.zipIdx.map fun x => ((places.find? fun q => q.1 == x.2).map fun q => StrandAt.core q.2).getD x.1
        let cmds := j.savedCmds.map fun (e : ECmd) => { e with core := newCore j e.core }
        let s2 := ({ s1 with engines := s1.engines ++ cmds } : State).setJob id
          { j with
            strands := strands, image := none, kept := [], keptMills := [], keptCtrs := [], keptWaiters := [], savedCmds := [],
            groups := rebuildGroups j.groups (places.filterMap fun q => groupFrom q.1 (recs q.1)),
            wdogNs := fieldLE (rangeBytes s (saveRange p) base 64) 56 8, wdogAt := s.fabricTime }
        let s3 := formFull (places.foldl (fun t q => restoreStrand recs j t q.1 q.2) s2) id
        let s4 := if j.leaving then s3.push ((s3.jobCores id).map Instr.preemptionRequest) else s3
        done ((tryComplete s4 id).push (cmds.map engineEvent))

/-! ### Blocked contexts and ageing (R46, R47) -/

/-- BLOCK_YIELD (R46, R359): the scheduler looks again at the head that waits. -/
def execBlockYield (id : Nat) (s : State) : Out :=
  let j := s.job id
  if blockedNow s j then .next (s.push [.dispatch j.pid]) else .next s

/-- AGE_PERIOD_EXPIRY (R47, R357): a ready record that has not been dispatched for AGE_PERIOD, in µs, rises one level, up to the ceiling; the
next raise is due a further AGE_PERIOD later. During a pause of the scheduler each raise waits (R427). -/
def execAgePeriodExpiry (pid task : Nat) (s : State) : Out :=
  let j := s.job task
  let waits := s.mgmt.act.deferred.count (.event (.agePeriodExpiry pid task))
  let period := (s.part pid).agePeriod.toNat * 1000
  if j.pid != pid || j.phase != .ready || decide (j.level ≤ (s.part pid).ceiling + waits) ||
      decide (s.fabricTime < j.readyAt + (waits + 1) * period) then .next s
  else if s.schedPaused then .next (s.defer (.event (.agePeriodExpiry pid task)))
  else .next ((s.setJob task { j with level := j.level - 1, readyAt := j.readyAt + period }).push [.dispatch pid])

/-! ### The watchdog (R364) -/

/-- WATCHDOG (R44, R364): the count has reached WDOG × 1,000 ns; it is offered once. -/
def execWatchdog (id : Nat) (s : State) : Out :=
  let t := noteWatch s id
  let j := t.job id
  if !watchCounts s id || j.wdogHit || decide (j.wdogNs < recWdog j.record * 1000) then .next s
  else done (offerContext (t.setJob id { j with wdogHit := true }) id cWatchdog 0)

/-! ### Gang slices (R361 to R363) -/

/-- The open slice of a gang ends (R362): each running context of the gang is pre-empted and waits for the next slice; the records behind the
gang's may be dispatched. -/
def endSlice (s : State) (pid gang : Nat) : State :=
  let p := s.part pid
  let js := (s.jobsOf pid).filter fun j => j.phase == .running && recGang j.record && recGangix j.record == gang
  (js.foldl (fun t j => preemptJob t j.id true) (s.setPart pid { p with slice := tins p.slice gang none })).push [.dispatch pid]
/-- GANG_SLICE_START (R362): slice k of a gang begins at T_k; a slice that is open still, since it lasts a whole period, ends then. During a
pause of the scheduler it waits (R427). -/
def execGangSliceStart (pid gang k : Nat) (s : State) : Out :=
  let old := tget none (s.part pid).slice gang
  if (s.part pid).st != .active || !inSlice s (tget [] (s.part pid).gangs gang) k || old == some k then .next s
  else if s.schedPaused then .next (s.deferOnce (.gangSliceStart pid gang k))
  else
    let t := if old.isSome then endSlice s pid gang else s
    done ((t.setPart pid { t.part pid with slice := tins (t.part pid).slice gang (some k) }).push [.dispatch pid])
/-- GANG_SLICE_END (R362): the open slice ends; during a pause of the scheduler that waits (R427). -/
def execGangSliceEnd (pid gang : Nat) (s : State) : Out :=
  let p := s.part pid
  match tget none p.slice gang with
  | none => .next s
  | some k =>
    if inSlice s (tget [] p.gangs gang) k then .next s
    else if s.schedPaused then .next (s.deferOnce (.gangSliceEnd pid gang))
    else done (endSlice s pid gang)
/-- GANG_MISS (R363): a member that could not be placed by SLICE_GRACE after T_k is skipped for slice k. -/
def execGangMiss (pid gang task k : Nat) (s : State) : Out :=
  let j := s.job task
  if j.pid != pid || j.phase != .ready || !recGang j.record || recGangix j.record != gang || !gangOpen s j ||
      tget none (s.part pid).slice gang != some k ||
      decide (s.fabricTime < sliceStart (tget [] (s.part pid).gangs gang) k + Config.sliceGrace) then .next s
  else if s.schedPaused then .next (s.deferOnce (.gangMiss pid gang task k))
  else
    let s1 := recordSet (recordAdd s pid (40 + 4 * gang) 4 1) pid (104 + 8 * gang) 8 k
    .next ((s1.setJob task { j with skipped := some k }).push [.dispatch pid])

/-! ### Idle states (R365, R366) -/

/-- The unit that an idle event names: cores 0 to 767, mills from 768, dies from 1,152 (R365). -/
def millUnit : Nat := 768
def dieUnit : Nat := 1152
/-- The partition that holds a mill, if one does. -/
def millHolder (s : State) (m : Nat) : Option Partition := (s.parts.find? fun e => e.2.st != .free && e.2.hasMill m).map (·.2)
/-- A mill's latency tolerance in ns admits an exit time (R365). -/
def tolerates (s : State) (m ns : Nat) : Bool := match millHolder s m with | some p => decide (ns ≤ p.lattol.toNat) | none => true
/-- A core may be in ISSUE_IDLE: it has no strand, or its strand is held at a wait, its own or its LOCKSTEP group's (R45). -/
def coreIdle (s : State) (c : Nat) : Bool := (s.core c).job.isNone || (s.issueCores c).any fun d => (s.core d).waits
/-- A mill may be in MILL_SLEEP. -/
def millIdle (s : State) (m : Nat) : Bool :=
  (millCores m).all (fun c => (s.core c).power != 0 && coreIdle s c && (s.core c).tiles.isEmpty) &&
  !(s.engines.any fun e => e.kind == .cpy && coreMill e.core == m) &&
  !(s.dies.any fun d => d.2.armed.any fun a =>
    match a.2 with
    | some x => namesMills [m] x.core (armBase x.desc)
    | none => false)
/-- The mills of a die. -/
def dieMills (d : Nat) : List Nat := (List.range 48).map (48 * d + ·)
/-- A die may be in DIE_DOZE. -/
def dieIdle (s : State) (d : Nat) : Bool :=
  (dieMills d).all (fun m => (s.mill m).idle != 0) && !(s.engines.any fun e => coreDie e.core == d)

/-- What an idle unit does when its conditions hold (R365): it notes since when; once they have held for the exit time it enters its
state. The answer is whether it enters, and the time noted. -/
def idleStep (now exit_ : Nat) (holds : Bool) (since : Option Nat) : Bool × Option Nat :=
  if !holds then (false, none)
  else
    match since with
    | none => (false, some now)
    | some t => (decide (t + exit_ ≤ now), some t)

/-- IDLE_STATE_ENTRY (R365): 1 ISSUE_IDLE of a core, 2 MILL_SLEEP of a mill, 3 DIE_DOZE of a die, when its conditions have held for its exit
time and the latency tolerance admits it. What breaks a condition clears the time noted (R366). -/
def execIdleStateEntry (unit_ level : Nat) (s : State) : Out :=
  if level == 1 && decide (unit_ < millUnit) then
    let x := s.core unit_
    let r := idleStep s.fabricTime 50 (coreIdle s unit_ && tolerates s (coreMill unit_) 50) x.idleAt
    .next (s.setCore unit_ { x with power := if r.1 then 1 else x.power, idleAt := r.2 })
  else if level == 2 && decide (millUnit ≤ unit_) && decide (unit_ < dieUnit) then
    let m := unit_ - millUnit
    let x := s.mill m
    let r := idleStep s.fabricTime 5000 (millIdle s m && tolerates s m 5000) x.idleAt
    .next (s.setMill m { x with idle := if r.1 then 2 else x.idle, idleAt := r.2 })
  else if level == 3 && decide (dieUnit ≤ unit_) && decide (unit_ < dieUnit + 8) then
    let d := unit_ - dieUnit
    let x := s.die d
    let r := idleStep s.fabricTime 200000 (dieIdle s d && (dieMills d).all fun m => tolerates s m 200000) x.idleAt
    .next (s.setDie d { x with idle := if r.1 then 3 else x.idle, idleAt := r.2 })
  else .next s

/-- IDLE_WAKE (R366): the unit returns to issue. -/
def execIdleWake (unit_ : Nat) (s : State) : Out :=
  if unit_ < millUnit then .next (wakeCore s unit_)
  else if unit_ < dieUnit then .next (wakeMill s (unit_ - millUnit))
  else .next (wakeDie s (unit_ - dieUnit))

end Sys2Proof.Machine
end

