-- ==== Sys2Proof/Machine/EngineRun.lean ====
section
/-! DEFINITION. Engine commands after release (R115, R279 to R289): when a command may start, its start checks, and the runs of CPY, MCST,
ARM, DISARM and MVS to their completion adds. -/

namespace Sys2Proof.Machine

/-! ### Order among commands (R115) -/

/-- Two lists of regions share a byte. -/
def regionsMeet (xs ys : List (Nat × Nat)) : Bool := xs.any fun a => ys.any fun b => a.2 != 0 && b.2 != 0 && overlaps a.1 a.2 b.1 b.2
/-- The edges of R115 from an earlier command to a later one. -/
def conflicts (e l : ECmd) : Bool := regionsMeet e.writes (l.reads ++ l.writes) || regionsMeet e.reads l.writes
/-- The commands of a command's die that were released before it and have not completed. -/
def earlierCmds (s : State) (e : ECmd) : List ECmd :=
  (s.engines.filter fun x => x.stage != .held && coreDie x.core == coreDie e.core).takeWhile fun x => x.id != e.id
/-- No earlier command of the context stands in the way, the die's table of 256 has room (R115), and the tile writes before the command have
been made (R103). -/
def mayStart (s : State) (e : ECmd) : Bool :=
  e.stage == .released && ((s.core e.core).tiles.all fun t => decide (e.after < t.seq)) && decide ((earlierCmds s e).length < 256) &&
    (earlierCmds s e).all fun x => x.job != e.job || !conflicts x e
/-- Put a command in a stage. -/
def setStage (s : State) (e : ECmd) (st : CmdStage) : State := updCmd s { e with stage := st }

/-- The command's context was killed while it was switched out and holds its mills no more (R43). -/
def leftMills (s : State) (e : ECmd) : Bool := (s.job e.job).image.isSome && !(s.job e.job).mills.contains (coreMill e.core)
/-- A handle names a LOCAL counter of a core that the context has left: its value stands in the image, and the core's counters are
another's. -/
def leftCounter (j : Job) (h : Nat) : Bool :=
  hKind h == 0 && j.image.isSome && j.keptFrom.contains (hPkgMill h) && !j.mills.contains (hPkgMill h)
/-- A command completes (R110, R280): it leaves its engine, its increment is added to its handle, and what waited looks again. The add to
a LOCAL counter that the context has left is dropped; no rule says where it goes. DESIGN CHOICE (log entry 126). -/
def completeCmd (s : State) (e : ECmd) : State :=
  let s1 := dropCmd s e.id
  let s2 := match e.handle with
    | some h =>
      if leftCounter (s.job e.job) h then s1 else addFrom s1 (coreDie e.core) h e.inc ⟨e.job, e.strand⟩ 8
    | none => s1
  (retryEngines s2).push [.contextComplete e.job]

/-! ### Accesses of a command (R279 to R281) -/

/-- The mill and the offset in its banks that a LOCAL or mill-qualified address names. -/
def namedBank (e : ECmd) (va : Nat) : Option (Nat × Nat) :=
  if isLocal va then some (coreMill e.core, va - localBase)
  else if isMillQual va then some (48 * bits va 31 29 + bits va 28 23, va % 2 ^ 23)
  else none
/-- Where a killed context's image keeps a mill that it left (R345): the place of the mill in the image and the offset. -/
def imageBank (s : State) (e : ECmd) (va : Nat) : Option (Nat × Nat) :=
  if !leftMills s e then none
  else
    match namedBank e va with
    | none => none
    | some x => ((s.job e.job).keptFrom.findIdx? (· == x.1)).map fun k => (k, x.2)
/-- The pieces of a range of the banks that the image keeps, under the roles and bounds that were theirs. DEDUCED (log entry 113). -/
def imageReach (s : State) (e : ECmd) (k off n va : Nat) : Except Flt (List Piece × List TlbEnt) :=
  let j := s.job e.job
  let at_ := (match j.image with | some i => i.1 | none => 0) + (1 + 2 * j.strands.length + 132 * k) * chunkSize
  if decide (2 ^ 23 < off + n) || !rolesAdmit (j.keptMills.getD k {}).bankrole .delivery off n then .error { code := cAccess, info := va }
  else if e.user && !inBounds e.lb off n then .error { code := cBound, info := va }
  else .ok ((pageCuts (n / 4096 + 2) (at_ + off) n).map fun q => ⟨⟨.hbm, (saveRange (s.part e.pid)).phys q.1⟩, q.2⟩, [])
/-- The pieces of a range of a command, and the pages used. -/
def cmdReach (s : State) (e : ECmd) (va n : Nat) (need : Need) : Except Flt (List Piece × List TlbEnt) :=
  match imageBank s e va with
  | some x => imageReach s e x.1 x.2 n va
  | none => engineReach s e.core (coreDie e.core) e.pid e.aspace va n e.user e.lb need
/-- The pieces of a range of a command. -/
def cmdAccess (s : State) (e : ECmd) (va n : Nat) (need : Need) : Except Flt (List Piece) := (cmdReach s e va n need).map Prod.fst
/-- The bytes of a range with their forms. -/
def cmdRead (s : State) (e : ECmd) (va n : Nat) : Except Flt (List Byte × List Bool) :=
  match cmdAccess s e va n .read with
  | .error f => .error f
  | .ok ps => readPieces s ps
/-- The bytes of several ranges, one after another. -/
def cmdReadAll (s : State) (e : ECmd) : List (Nat × Nat) → Except Flt (List Byte × List Bool)
  | [] => .ok ([], [])
  | r :: rs =>
    match cmdRead s e r.1 r.2 with
    | .error f => .error f
    | .ok x => match cmdReadAll s e rs with | .error f => .error f | .ok y => .ok (x.1 ++ y.1, x.2 ++ y.2)
/-- The state after bytes with their source forms land in a range; EXPORT_PLAINTEXT when they may not leave for the host (R342). -/
def cmdLand (s : State) (e : ECmd) (va : Nat) (bs : List Byte) (cs : List Bool) : Except Flt State :=
  match cmdReach s e va bs.length .write with
  | .error f => .error f
  | .ok r =>
    match exportStop (s.part e.pid) va r.1 bs cs with
    | some f => .error f
    | none => .ok (landPieces (noteWrite s (coreDie e.core) r) r.1 bs cs)
/-- The state after a command has written to a range what is no data of the program: a bitmap, a record (R342). -/
def cmdPut (s : State) (e : ECmd) (va : Nat) (bs : List Byte) : Except Flt State :=
  match cmdReach s e va bs.length .write with
  | .error f => .error f
  | .ok r => .ok (tickClock (landPieces (noteWrite s (coreDie e.core) r) r.1 bs (plain bs.length)) (coreDie e.core))
/-- The state after bytes are written to a range by the command's die (R108). -/
def cmdWrite (s : State) (e : ECmd) (va : Nat) (bs : List Byte) (cs : List Bool) : Except Flt State :=
  match cmdLand s e va bs cs with
  | .error f => .error f
  | .ok t => .ok (tickClock t (coreDie e.core))
/-- What a command's die has read of a range is noted (R108, R366, R372). -/
def cmdMerge (s : State) (e : ECmd) (va n : Nat) : State :=
  match cmdReach s e va n .read with
  | .ok r => noteRead s (coreDie e.core) r
  | .error _ => s
/-- What a command's die has read of several ranges is noted. -/
def cmdMergeAll (s : State) (e : ECmd) (rs : List (Nat × Nat)) : State := rs.foldl (fun t r => cmdMerge t e r.1 r.2) s
/-- The check of a range at start (R279, R280): LOCAL and mill-qualified ranges whole, the first page of a translated one. -/
def startRange (s : State) (e : ECmd) (r : Nat × Nat) (need : Need) : Option Flt :=
  let whole (n : Nat) : Option Flt := match cmdAccess s e r.1 n need with | .error f => some f | .ok _ => none
  if r.2 == 0 then none
  else if !spanCanonical r.1 r.2 then some { code := cAccess, info := r.1 }
  else if isLocal r.1 || isMillQual r.1 then whole r.2
  else if overlaps r.1 r.2 (0xFFFFFFFE * 2 ^ 32) (2 ^ 32) || isLocal (r.1 + r.2 - 1) then some { code := cAccess, info := r.1 }
  else whole (Nat.min r.2 (4096 - r.1 % 4096))
/-- The first failure of the ranges of a command at start. -/
def startRanges (s : State) (e : ECmd) : List ((Nat × Nat) × Need) → Option Flt
  | [] => none
  | r :: rs => match startRange s e r.1 r.2 with | some f => some f | none => startRanges s e rs
/-- The start check of a command's footprint. -/
def startCheck (s : State) (e : ECmd) : Option Flt :=
  startRanges s e (e.reads.map (fun r => (r, Need.read)) ++ e.writes.map fun r => (r, Need.write))
/-- Nothing but an address that applies, or the completion handle, is a fault's FAULTINFO (R379). -/
def handleInfo (e : ECmd) : Nat := e.handle.getD 0

/-! ### CPY (R95 to R97, R283, R284) -/

/-- A CPY of a mill's channel. -/
def onChannel (mill chan : Nat) (e : ECmd) : Bool := e.kind == .cpy && coreMill e.core == mill && e.chan == chan
/-- The command that a channel takes next: least slack, then release order, among those that may start (R95, R284). -/
def nextCopy (s : State) (mill chan : Nat) : Option ECmd :=
  if s.engines.any fun e => onChannel mill chan e && e.stage.started then none
  else leastBy (fun a b => decide (a.slack < b.slack)) (s.engines.filter fun e => onChannel mill chan e && mayStart s e)

/-- Start a CPY (R280, R281): its extents may not overlap. A CPY that stalls at a page before its checks have passed makes them again. -/
def startCpy (s : State) (e : ECmd) : State :=
  match (if regionsMeet e.reads e.writes then some { code := cAccess, info := e.dst } else startCheck s e) with
  | some f => engineFlt s e f
  | none => (setStage (wakeMill s (coreMill e.core)) { e with begun := true } .running).push [.sluiceBeatDelivery e.id]

/-- The bytes of a CPY. -/
def cpyTotal (e : ECmd) : Nat := e.rows * e.rowBytes
/-- The rows follow each other without a gap on both sides. -/
def cpyPacked (e : ECmd) : Bool := decide (e.spitch = e.rowBytes) && decide (e.dpitch = e.rowBytes)
/-- The source, destination and length of a CPY's next beat: at most 128 bytes, up to the end of the row and of the destination line. -/
def cpyBeat (e : ECmd) : Nat × Nat × Nat :=
  let i := e.done / e.rowBytes
  let off := e.done % e.rowBytes
  let at_ (base : Nat) (pitch : Int) : Nat := (((base : Int) + pitch * i + off) % 2 ^ 64).toNat
  let dst := at_ e.dst e.dpitch
  (regionVa e.core (at_ e.src e.spitch), regionVa e.core dst,
   Nat.min (if cpyPacked e then cpyTotal e - e.done else e.rowBytes - off) (128 - dst % 128))

/-- The write pointer of a CPY's channel advances (R95); of a context that no longer holds the mill it stays as it is. -/
def writePointer (s : State) (e : ECmd) (n : Nat) : State :=
  if (s.job e.job).mills.contains (coreMill e.core) then applyAdd s (localHandle (coreMill e.core * 2) (24 + e.chan)) n else s
/-- Deliver one beat (R95, R96): the write pointer advances with the bytes it covers. -/
def cpyDeliver (s : State) (e : ECmd) : State :=
  let b := cpyBeat e
  match cmdRead s e b.1 b.2.2 with
  | .error f => engineFlt s e f
  | .ok x =>
    match cmdWrite s e b.2.1 x.1 x.2 with
    | .error f => engineFlt s e (if f.code == cExportPlaintext then { f with info := b.1 } else f)
    | .ok t =>
      let e1 := { e with done := e.done + b.2.2 }
      let s1 := writePointer (cmdMerge (updCmd t e1) e b.1 b.2.2) e b.2.2
      s1.push [if e1.done < cpyTotal e then .sluiceBeatDelivery e.id else .engineCommandComplete e.id]

/-- SLUICE_BEAT_DELIVERY (R95 to R97). -/
def execSluiceBeatDelivery (id : Nat) (s : State) : Out :=
  match s.cmd id with
  | none => .next s
  | some e => if e.kind == .cpy && e.stage == .running && decide (e.done < cpyTotal e) then done (cpyDeliver s e) else .next s

/-! ### Completion (R280) -/

/-- A packet of a command, of graph operation op where one is named, is queued or waits for its acknowledgement. -/
def packetsLeft (s : State) (cmd : Nat) (op : Option Nat) : Bool :=
  s.parts.any fun p => p.2.conns.any fun c => (c.2.queue ++ c.2.sent).any fun k => k.cmd == cmd && (op.isNone || k.op == op)

/-- ENGINE_COMMAND_COMPLETE (R280, R284, R285): a CPY that has delivered every byte, a SEND whose packets are all acknowledged. -/
def execEngineCommandComplete (id : Nat) (s : State) : Out :=
  match s.cmd id with
  | none => .next s
  | some e =>
    let whole := if e.kind == .cpy then decide (cpyTotal e ≤ e.done) else e.kind == .send && e.done == 1 && !packetsLeft s id none
    if e.stage == .running && whole then done (completeCmd s e) else .next s

/-! ### MCST (R117, R263) -/

/-- Write a line to the replicas of an MCST: one write with one stamp (R117), checked line by line (R342). -/
def mcstWrite (s : State) (e : ECmd) (x : List Byte × List Bool) : List Nat → Except Flt State
  | [] => .ok s
  | r :: rs => match cmdLand s e r x.1 x.2 with | .error f => .error f | .ok t => mcstWrite t e x rs
/-- MCST_COMPLETE (R117, R263): every replica receives the line, then the completion add is made. -/
def execMcstComplete (id : Nat) (s : State) : Out :=
  match s.cmd id with
  | none => .next s
  | some e =>
    if e.kind != .mcst || !mayStart s e then .next s
    else
      match cmdRead s e (regionVa e.core e.src) 128 with
      | .error f => done (engineFlt s e f)
      | .ok x =>
        match mcstWrite s e x e.replicas with
        | .error f => done (engineFlt s e f)
        | .ok t => done (completeCmd (tickClock (cmdMerge t e (regionVa e.core e.src) 128) (coreDie e.core)) e)

/-! ### ARM and DISARM (R286, R287) -/

/-- Arm the slot of a command (R286): the bitmap is cleared, then packets are accepted. -/
def armSlot (s : State) (e : ECmd) : Except Flt State :=
  let n := armBitmapLen e.desc
  match cmdPut s e (regionVa e.core (armBitmap e.desc)) (zeros n) with
  | .error f => .error f
  | .ok t =>
    let d := t.die (coreDie e.core)
    .ok (t.setDie (coreDie e.core)
      { d with armed := tins d.armed e.slot (some
          { inst := e.number, desc := e.desc, job := e.job, strand := e.strand, pid := e.pid, aspace := e.aspace, det := (t.job e.job).det,
            core := e.core, closing := false, effective := true, placed := [], landed := [], published := [], count := 0, user := e.user,
            lb := e.lb }) })
/-- ARM_EFFECT (R286). -/
def execArmEffect (id : Nat) (s : State) : Out :=
  match s.cmd id with
  | none => .next s
  | some e =>
    if e.kind != .arm || !mayStart s e then .next s
    else
      match startCheck s e with
      | some f => done (engineFlt s e f)
      | none => match armSlot (wakeMill s (coreMill e.core)) e with | .error f => done (engineFlt s e f) | .ok t => done (completeCmd t e)

/-- Free an armed slot of a die. -/
def freeSlot (s : State) (die slot : Nat) : State :=
  let d := s.die die
  s.setDie die { d with armed := tdel d.armed slot }
/-- DISARM_EFFECT (R287): after the last ARM of the slot issued before it; when that ARM has stopped there is nothing to end, and no add is
made. -/
def execDisarmEffect (id : Nat) (s : State) : Out :=
  match s.cmd id with
  | none => .next s
  | some e =>
    let die := coreDie e.core
    if e.kind != .disarm || !mayStart s e || (slotCmds s .arm die e.slot).any fun a => decide (a.id < e.id) then .next s
    else
      match s.armedSlot die e.slot with
      | some a => done (if a.job == e.job then completeCmd (freeSlot s die e.slot) e else completeCmd s { e with handle := none })
      | none => done (completeCmd s { e with handle := none })

/-! ### MVS (R276 to R278) -/

/-- A line of B is poisoned: its place. -/
def mvsPoison (s : State) (m : MOp) : Option Loc :=
  if s.poison.isEmpty then none
  else (bPieces m.baddr (mvsExtent m.bT) m.bphys).findSome? fun p => s.firstPoison p.loc p.len
/-- The end of an MVS: its completion add follows the result (R278). -/
def mvsFinish (s : State) (c : Nat) (m : MOp) : State :=
  match mvsPoison s m with
  | some l => tileFault (retryEngines (dropCmd s m.cmd)) c m cPoison (lineInfo l)
  | none =>
    match tilePoison s c m with
    | some l => tileFault (retryEngines (dropCmd s m.cmd)) c m cPoison (lineInfo l)
    | none =>
      let t := tileResult s c m
      match t.cmd m.cmd with
      | some e => completeCmd t e
      | none => t
/-- MVS_COMPLETE (R142, R278): the oldest MVS of a core completes, once no earlier engine command stands in its way (R115). -/
def execMvsComplete (c : Nat) (s : State) : Out :=
  match takeFirst (fun m => m.opc == 9) (s.core c).tiles with
  | none => .next s
  | some r =>
    let ready := match s.cmd r.1.cmd with
      | some e => mayStart s e
      | none => true
    if !ready then .next s else done (tileDone (mvsFinish (s.onCore c fun x => { x with tiles := r.2 }) c r.1) c)

end Sys2Proof.Machine
end

