-- ==== Sys2Proof/Machine/Send.lean ====
section
/-! DEFINITION. SEND after release (R285, R314 to R316): compression on egress, the cut into packets (R386 to R388), and the start of
CPY and SEND commands. -/

namespace Sys2Proof.Machine

/-! ### Compression (R315) -/

/-- FP32 elements of bytes. -/
def fp32s (bs : List Byte) : List Nat := fieldsOf 32 (bs.length / 4) bs
/-- A compressed block: its codes, its scale and its status bits, and the residuals it leaves. -/
structure CBlock where
  codes : List Byte
  scale : Nat
  resid : List Nat
  status : Nat
  deriving DecidableEq, Repr

/-- Compress one block of 32 (R315): elements with their residuals and draws. -/
def compressBlock (m : Mx) (sto : Bool) (xs : List (Nat × Nat × Nat)) : CBlock :=
  let sums := xs.map fun x =>
    let a := Fp.add false (f32 x.1) (f32 x.2.1)
    let r := roundFp .fp32 .rne 0 a.1
    (r.1, a.2 ||| r.2)
  let ys := sums.map fun y => f32 y.1
  let c := scaleRoundUp m ys
  let qs := (List.zip ys (xs.map (·.2.2))).map fun y => mxEncode m c (if sto then .sto else .rne) y.2 y.1
  { codes := mxPack m (qs.map (·.1)), scale := c,
    resid := (List.zip sums qs).map fun y =>
      if c == 0xFF then y.1.1 else (roundFp .fp32 .rne 0 (Fp.add false (f32 y.1.1) (mxValue m c y.2.1).neg).1).1,
    status := orAll sums ||| qs.foldl (fun acc q => acc ||| q.2) 0 }

/-- Compress n elements of a region with their residuals; draw gives element e its number (R315, R316). -/
def compressAll (m : Mx) (sto : Bool) (draw : Nat → Nat) (xs rs : List Nat) : List CBlock :=
  (chunksOf 32 (xs.length / 32) ((List.zip xs rs).zipIdx.map fun x => (x.1.1, x.1.2, draw x.2))).map (compressBlock m sto)
/-- The residuals of blocks as bytes. -/
def residBytes (bs : List CBlock) : List Byte := (bs.map fun b => (b.resid.map (natLE 4)).flatten).flatten
/-- The codes and then the scales of blocks (R386). -/
def packedBytes (bs : List CBlock) : List Byte := (bs.map (·.codes)).flatten ++ bs.map fun b => BitVec.ofNat 8 b.scale

/-! ### Packets of a SEND (R386 to R388) -/

/-- The block format of a COMP field. -/
def compMx (comp : Nat) : Mx := if comp == 2 then .mx4 else .mx8
/-- The payload bytes of n columns of a row. -/
def colBytes (d : List Byte) (n : Nat) : Nat := if sendComp d == 0 then n * sendElem d else n * (compMx (sendComp d)).width / 8 + n / 32
/-- A packet's part of the region: first row, rows, first column, columns. -/
structure Part where
  row : Nat
  rows : Nat
  col : Nat
  cols : Nat
  deriving DecidableEq, Repr

/-- The parts of a region for one payload size (R387): as many whole rows as fit, or pieces of whole 32-element blocks. one asks for single
rows. -/
def sendParts (d : List Byte) (payload : Nat) (one : Bool) : List Part :=
  let w := colBytes d (sendCols d)
  if w ≤ payload then
    let k := if one then 1 else payload / w
    (List.range (ceilDiv (sendRows d) k)).map fun i => ⟨i * k, Nat.min k (sendRows d - i * k), 0, sendCols d⟩
  else
    let k := 32 * (payload / colBytes d 32)
    ((List.range (sendRows d)).map fun i =>
      (List.range (ceilDiv (sendCols d) k)).map fun j => ⟨i, 1, j * k, Nat.min k (sendCols d - j * k)⟩).flatten

/-- The placement header of a TENSOR packet (R386). -/
def tensorHeader (d : List Byte) (dest : Nat) (p : Part) : List Byte :=
  let comp := sendComp d
  natLE 1 0x11 ++ natLE 1 ((if comp == 0 then 0 else 2) + (if comp == 2 then 4 else 0)) ++ natLE 1 (bits dest 22 20 + 8 * sendEsize d) ++
  natLE 1 0 ++ natLE 4 (sendInst d) ++ natLE 4 (bits dest 41 32) ++ natLE 4 (sendRow0 d + p.row) ++ natLE 4 (sendCol0 d + p.col) ++
  natLE 2 (p.rows - 1) ++ natLE 2 (p.cols - 1) ++ natLE 8 0
/-- The source ranges of a part. -/
def partSrc (core : Nat) (d : List Byte) (p : Part) : List (Nat × Nat) :=
  (List.range p.rows).map fun i => region core (sendSrc d + (p.row + i) * sendPitch d + p.col * sendElem d, p.cols * sendElem d)
/-- The blocks of a part, where cb are the blocks of the whole region, row by row. -/
def partBlocks (d : List Byte) (cb : List CBlock) (p : Part) : List CBlock :=
  ((List.range p.rows).map fun i => (cb.drop ((p.row + i) * (sendCols d / 32) + p.col / 32)).take (p.cols / 32)).flatten
/-- The packets of a SEND to one destination (R387, R388). -/
def sendPackets (e : ECmd) (x : Conn) (dest : Nat) (cb : List CBlock) : List Sent :=
  let d := e.desc
  let base : Sent := { cmd := e.id, by_ := ⟨e.job, e.strand⟩, info := handleInfo e, header := [] }
  if connE8 x.entry then
    (sendParts d (connPayload x.entry) false).map fun p =>
      { base with
        header := tensorHeader d dest p, len := p.rows * colBytes d p.cols, src := partSrc e.core d p,
        kept := if sendComp d == 0 then none else some (packedBytes (partBlocks d cb p)) }
  else
    (sendParts d (connPayload x.entry) true).map fun p =>
      { base with
        header := natLE 8 ((connWbase x.entry + (sendRow0 d + p.row) * connWpitch x.entry + (sendCol0 d + p.col) * sendElem d) % 2 ^ 64),
        len := p.cols * sendElem d, src := partSrc e.core d p }

/-- The destinations of a SEND with their connections. -/
def sendDests (e : ECmd) : List (Nat × Nat) :=
  (List.range (sendCount e.desc)).map fun i => (sendDest e.desc i, connId e.pid (sendDest e.desc i % 2 ^ 20))
/-- The fault of a SEND's connections at start (R388, R399). -/
def sendConnFault (s : State) (e : ECmd) : Option Flt :=
  if (sendDests e).all fun d => connState (s.conn d.2).entry == 2 && (connE8 (s.conn d.2).entry || sendComp e.desc == 0) then none
  else some { code := cAccess, info := handleInfo e }
/-- The residual area lies on HBM pages (R285): a page elsewhere is ACCESS. -/
def residFault (s : State) (e : ECmd) : Option Flt :=
  if sendComp e.desc == 0 then none
  else
    let r := sendResid e.desc
    let n := 4 * sendRows e.desc * sendCols e.desc
    if isLocal r || isMillQual r then some { code := cAccess, info := r }
    else
      match cmdAccess s e r n .write with
      | .error f => some (if f.code == cPageHost then { code := cAccess, info := r } else f)
      | .ok ps => if ps.all fun p => p.loc.sp == .hbm then none else some { code := cAccess, info := r }

/-- The rows of the region that a compressing SEND reads. -/
def srcRows (e : ECmd) : List (Nat × Nat) :=
  (List.range (sendRows e.desc)).map fun i => region e.core (sendSrc e.desc + i * sendPitch e.desc, sendCols e.desc * 4)
/-- Read and compress the region of a SEND (R315): its blocks, and the state with the residual area written; a ciphertext line is FORM
(R341). -/
def sendCompress (s : State) (e : ECmd) : Except Flt (List CBlock × State) :=
  let d := e.desc
  match cmdReadAll s e (srcRows e) with
  | .error f => .error f
  | .ok x =>
    match cmdRead s e (sendResid d) (4 * sendRows d * sendCols d) with
    | .error f => .error f
    | .ok r =>
      if (x.2 ++ r.2).any id then .error { code := cForm, info := if x.2.any id then sendSrc d else sendResid d }
      else
        let cb := compressAll (compMx (sendComp d)) (sendSto d) (drawU e.rnd) (fp32s x.1) (fp32s r.1)
        match cmdWrite s e (sendResid d) (residBytes cb) (plain (4 * sendRows d * sendCols d)) with
        | .error f => .error f
        | .ok t => .ok (cb, cmdMergeAll (cmdMerge t e (sendResid d) (4 * sendRows d * sendCols d)) e (srcRows e))

/-- Queue the packets of a SEND and send what the connections allow. -/
def sendQueue (s : State) (e : ECmd) (cb : List CBlock) : State :=
  let s1 := (sendDests e).foldl (fun t d => (sendPackets e (t.conn d.2) d.1 cb).foldl (fun u k => enqueue u d.2 k) t)
    (updCmd s { e with stage := .running, done := 1 })
  (((sendDests e).map (·.2)).eraseDups.foldl pumpConn s1).push [.engineCommandComplete e.id]
/-- Start a SEND (R280, R285, R314). -/
def startSend (s : State) (e : ECmd) : State :=
  match sendConnFault s e, residFault s e, startCheck s e with
  | some f, _, _ => engineFlt s e f
  | none, some f, _ => engineFlt s e f
  | none, none, some f => engineFlt s e f
  | none, none, none =>
    if sendComp e.desc == 0 then sendQueue s e []
    else match sendCompress s e with | .error f => engineFlt s e f | .ok r => sendQueue r.2 e r.1

/-- ENGINE_COMMAND_START (R115, R280, R284): a CPY when its channel takes it, a SEND when no earlier command stands in its way. -/
def execEngineCommandStart (id : Nat) (s : State) : Out :=
  match s.cmd id with
  | none => .next s
  | some e =>
    if e.kind == .cpy && (nextCopy s (coreMill e.core) e.chan).map (·.id) == some id then done (startCpy s e)
    else if e.kind == .send && mayStart s e then done (startSend s e)
    else .next s

end Sys2Proof.Machine
end

