-- ==== Sys2Proof/Machine/Collective.lean ====
section
/-! DEFINITION. Collective graphs (R288, R289, R317 to R327): loading an image, starting an instance, its chunk operations, the data that
arrives for them, and completion records. -/

namespace Sys2Proof.Machine

/-! ### Images (R317, R318) -/

def opOpc (o : List Byte) : Nat := fieldLE o 0 1
def opFlag (o : List Byte) (n : Nat) : Bool := (fieldLE o 1 1).testBit n
def opRecord (o : List Byte) : Bool := opFlag o 0
def opRecv (o : List Byte) : Bool := opFlag o 1
def opMx (o : List Byte) : Bool := opFlag o 2
def opMxFmt (o : List Byte) : Mx := if opFlag o 3 then .mx4 else .mx8
def opSb (o : List Byte) : Nat := fieldLE o 2 1 % 16
def opDb (o : List Byte) : Nat := fieldLE o 2 1 / 16
def opAb (o : List Byte) : Nat := fieldLE o 3 1 % 16
def opPdie (o : List Byte) : Nat := fieldLE o 3 1 / 16
def opDep (o : List Byte) : Nat := fieldLE o 4 2
def opDone (o : List Byte) : Nat := fieldLE o 6 2
def opThr (o : List Byte) : Nat := fieldLE o 8 2
def opPeer (o : List Byte) : Nat := fieldLE o 10 2
def opLen (o : List Byte) : Nat := fieldLE o 24 4
def opPeerOp (o : List Byte) : Nat := fieldLE o 28 2
def opSig (o : List Byte) : Nat := fieldLE o 30 2
/-- The operation exchanges data with a peer. -/
def opHasPeer (o : List Byte) : Bool := opOpc o == 1 || opRecv o
/-- MXBytes (R318). -/
def mxBytes (m : Mx) (len : Nat) : Nat := len / 4 * m.width / 8 + len / 128
/-- The lengths of the input and result regions. -/
def opInLen (o : List Byte) : Nat := if opMx o then mxBytes (opMxFmt o) (opLen o) else opLen o
def opOutLen (o : List Byte) : Nat :=
  match opOpc o with
  | 1 => 0
  | 4 => mxBytes (opMxFmt o) (opLen o)
  | _ => opLen o

/-- A broken operation of an image with n ranks and k counters (R318); i is its index. -/
def opBad (n k me i : Nat) (o : List Byte) : Bool :=
  let c := opOpc o
  let zeroUnless (used : Bool) (x : Nat) : Bool := used || x == 0
  !(decide (1 ≤ c) && decide (c ≤ 5) && decide (fieldLE o 1 1 < 32) && (c != 2 || opRecv o) && (!(c == 1 || c == 4) || !opRecv o) &&
    (c != 5 || opMx o) && (!(c == 4 || c == 3) || !opMx o) && (opMx o || c == 4 || !opFlag o 3) && (c == 4 || !opFlag o 4) &&
    zeroUnless (c != 1) (opDb o) && zeroUnless (c == 4) (opAb o) && decide (fieldLE o 3 1 < 128) &&
    zeroUnless (opHasPeer o && opPeer o == me) (opPdie o) && decide (opDep o < k) && (opDone o == 0xFFFF || decide (opDone o < k)) &&
    (if opHasPeer o then decide (opPeer o < n) else opPeer o == 0) && zeroUnless (c != 1) (fieldLE o 16 4) && zeroUnless (c == 4) (fieldLE o 20 4) &&
    opLen o % 128 == 0 && decide (128 ≤ opLen o) && decide (opLen o ≤ 2 ^ 24) && zeroUnless (c == 1) (opPeerOp o) &&
    (opSig o == 0xFFFF || (!opRecv o && decide (opSig o < i))))
/-- Rank entry r of an image (R317). -/
def rankEntry (img : List Byte) (r : Nat) : Nat := fieldLE img (64 + 32 * graphNops img + 8 * r) 8
/-- A broken image (R288, R317, R318). -/
def graphBad (img : List Byte) : Bool :=
  !graphHeadOk img ||
  ((List.range (graphNops img)).any fun i => opBad (graphRanks img) (graphCtrs img) (graphMe img) i (graphOp img i)) ||
  (List.range (graphRanks img)).any fun r => r != graphMe img && decide (2 ^ 23 ≤ rankEntry img r)

/-- CLOAD_START (R288): the rest of the image is read and checked, once every instance of the old graph has completed. -/
def execCloadStart (id : Nat) (s : State) : Out :=
  match s.cmd id with
  | none => .next s
  | some e =>
    let die := coreDie e.core
    let busy := (earlierCmds s e).any fun x => (x.kind == .coll || x.kind == .cload) && x.slot == e.slot && x.job == e.job
    let old := s.graphSlot die e.slot
    let held := match old with | some g => g.job != e.job | none => false
    let live := match old with | some g => g.inst.isSome | none => false
    if e.kind != .cload || busy || live || !mayStart s e then .next s
    else if held then done (stopEngine s e cAccess (handleInfo e) 0)
    else
      match startCheck s e with
      | some f => done (engineFlt s e f)
      | none =>
        match cmdRead s e (regionVa e.core (e.src + 64)) (graphLen e.desc - 64) with
        | .error f => done (engineFlt s e f)
        | .ok x =>
          let img := e.desc ++ x.1
          if graphBad img then done (stopEngine s e cBound e.src 0)
          else
            let d := s.die die
            done (completeCmd (s.setDie die { d with graphs := tins d.graphs e.slot (some { job := e.job, image := img }) }) e)

/-! ### Places of an instance (R289, R318, R326) -/

/-- An address of a base table (R289): base k and an offset. -/
def graphAddr (e : ECmd) (k off : Nat) : Nat := regionVa e.core ((fieldLE e.desc (8 * k) 8 + off) % 2 ^ 64)
def opIn (e : ECmd) (o : List Byte) : Nat := graphAddr e (opSb o) (fieldLE o 12 4)
def opOut (e : ECmd) (o : List Byte) : Nat := graphAddr e (opDb o) (fieldLE o 16 4)
def opResid (e : ECmd) (o : List Byte) : Nat := graphAddr e (opAb o) (fieldLE o 20 4)
/-- The address of the record of operation i (R326). -/
def recordAddr (e : ECmd) (img : List Byte) (i : Nat) : Nat :=
  graphAddr e (fieldLE img 14 1) (fieldLE img 16 4 + 32 * ((List.range i).filter fun k => opRecord (graphOp img k)).length)

/-- n bytes from a lie inside the union of regions; fuel bounds the regions used. -/
def covered (rs : List (Nat × Nat)) : Nat → Nat → Nat → Bool
  | 0, _, n => n == 0
  | fuel + 1, a, n =>
    if n == 0 then true
    else
      match rs.find? fun r => decide (r.1 ≤ a) && decide (a < r.1 + r.2) with
      | some r => if a + n ≤ r.1 + r.2 then true else covered rs fuel (r.1 + r.2) (a + n - (r.1 + r.2))
      | none => false
/-- The ranges of operation i that lie in the write regions, and those that may lie in any region of the footprint (R281). -/
def opWrites (e : ECmd) (img : List Byte) (i : Nat) : List (Nat × Nat) :=
  let o := graphOp img i
  (if opRecv o then [(opIn e o, opInLen o)] else []) ++ (if opOpc o == 1 then [] else [(opOut e o, opOutLen o)]) ++
  (if opOpc o == 4 then [(opResid e o, opLen o)] else []) ++ (if opRecord o then [(recordAddr e img i, 32)] else [])
/-- The first range of a graph that leaves the footprint (R281, R326). -/
def graphOutside (e : ECmd) (img : List Byte) : Option Nat :=
  let inW (r : Nat × Nat) : Bool := covered e.writes 4 r.1 r.2
  let inAll (r : Nat × Nat) : Bool := covered (e.reads ++ e.writes) 8 r.1 r.2
  ((List.range (graphNops img)).map fun i =>
    ((opWrites e img i).filter fun r => !inW r) ++
    (if inAll (opIn e (graphOp img i), opInLen (graphOp img i)) then [] else [(opIn e (graphOp img i), 0)])).flatten.head?.map (·.1)

/-! ### Running an instance (R319 to R322) -/

/-- The state of operation i of a running instance. -/
def Graph.op (g : Graph) (i : Nat) : OpState := tget {} g.ops i
def Graph.setOp (g : Graph) (i : Nat) (x : OpState) : Graph := { g with ops := tput {} g.ops i x }
def setGraph (s : State) (die slot : Nat) (g : Graph) : State :=
  let d := s.die die
  s.setDie die { d with graphs := tins d.graphs slot (some g) }
/-- The conditions of an operation are met (R319). -/
def opReady (g : Graph) (i : Nat) : Bool :=
  let o := graphOp g.image i
  (g.op i).stage == .waiting && reached (BitVec.ofNat 64 (tget 0 g.ctrs (opDep o))) (BitVec.ofNat 64 (opThr o)) &&
  (!opRecv o || decide (opInLen o ≤ (g.op i).arrived))
/-- Start every operation whose conditions are met. -/
def pushReady (s : State) (die slot : Nat) (g : Graph) : State :=
  s.push (((List.range (graphNops g.image)).filter (opReady g)).map fun i => .chunkOperationStart die slot i)
/-- A SEND operation of a graph goes to a PLAIN connection (R388). -/
def graphPlain (s : State) (e : ECmd) (img : List Byte) : Bool :=
  (List.range (graphNops img)).any fun i =>
    let o := graphOp img i
    let x := s.conn (connId e.pid (rankEntry img (opPeer o) % 2 ^ 20))
    opOpc o == 1 && opPeer o != graphMe img && connState x.entry == 2 && !connE8 x.entry

/-- COLL_INSTANCE_START (R281, R289, R319): after the slot's earlier instances, its ranges are checked and its counters zeroed. -/
def execCollInstanceStart (id : Nat) (s : State) : Out :=
  match s.cmd id with
  | none => .next s
  | some e =>
    let die := coreDie e.core
    let busy := (earlierCmds s e).any fun x => (x.kind == .coll || x.kind == .cload) && x.slot == e.slot && x.job == e.job
    if e.kind != .coll || busy || !mayStart s e then .next s
    else
      match s.graphSlot die e.slot with
      | none => done (stopEngine s e cAccess (handleInfo e) 0)
      | some g =>
        if g.job != e.job then done (stopEngine s e cAccess (handleInfo e) 0)
        else if g.inst.isSome then .next s
        else
          match graphOutside e g.image with
          | some a => done (stopEngine s e cAccess a 0)
          | none =>
            if graphPlain s e g.image then done (stopEngine s e cAccess (handleInfo e) 0)
            else
              match startCheck s e with
              | some f => done (engineFlt s e f)
              | none =>
                let g1 := { g with inst := some e.number, ctrs := [], ops := [], bases := e.desc, cmd := e.id }
                done (retryGraphs (pushReady (setGraph (setStage s e .running) die e.slot g1) die e.slot g1))

/-! ### Contributors and records (R326, R327) -/

/-- Append a rank to a folded list (R327, R387). -/
def foldRank (f : Nat × Nat) (rank : Nat) : Nat × Nat := (f.1 ^^^ (rank % 16 * 2 ^ (4 * (f.2 % 12))), f.2 + 1)
/-- The contributor list of operation i (R327): as fixed when it began; else from what has arrived for it, or from that of operation SIGOP,
whether that one has begun or not. SIGOP is below i, so fuel i + 1 is enough. -/
def contribOf (g : Graph) : Nat → Nat → Nat × Nat
  | 0, _ => (0, 0)
  | fuel + 1, i =>
    let o := graphOp g.image i
    let x := g.op i
    let me := graphMe g.image
    if x.stage != .waiting then (x.folded, x.flen)
    else if opRecv o then (if opOpc o == 2 && opPeer o != me then foldRank (x.folded, x.flen) me else (x.folded, x.flen))
    else if opSig o == 0xFFFF then foldRank (0, 0) me
    else contribOf g fuel (opSig o)
def opContrib (g : Graph) (i : Nat) : Nat × Nat := contribOf g (i + 1) i
/-- Status weights as the flags of a record (R326). -/
def recordFlags (o : List Byte) (st flen : Nat) : Nat :=
  (if opMx o || opOpc o == 4 then 1 else 0) + (if st.testBit 4 then 2 else 0) + (if st.testBit 0 then 4 else 0) + (if st.testBit 1 then 8 else 0) +
  (if st.testBit 2 then 16 else 0) + (if st.testBit 3 then 32 else 0) + (if decide (12 < flen) then 64 else 0)
/-- The completion record of operation i (R326). -/
def completionRecord (s : State) (die : Nat) (g : Graph) (i : Nat) : List Byte :=
  let o := graphOp g.image i
  let x := g.op i
  let inst := g.inst.getD 0
  natLE 2 0 ++ natLE 1 (opOpc o) ++ natLE 1 (recordFlags o x.status x.flen) ++ natLE 4 inst ++ natLE 6 x.folded ++ natLE 2 inst ++
  natLE 8 (s.dieTime die) ++ natLE 8 (if opOpc o == 1 then opInLen o else opOutLen o)

/-! ### Data that arrives for an operation (R307, R320, R321, R448) -/

/-- What becomes of graph data: refused as not armed, acknowledged and discarded, its sender stopped with ACCESS, held for a page, or
placed. -/
inductive Arrival where
  | notArmed (s : State)
  | discard
  | stopSender
  | placed (s : State)

/-- The bytes of a block of 32 elements of an operation's input, codes and scale (R386). -/
def blockBytes (o : List Byte) : Nat := if opMx o then 4 * (opMxFmt o).width + 1 else 128
/-- The pieces of an operation's input for a payload size (R386, R387): the position, which of MX data counts codes, and the payload
length: all of it, or as many whole blocks of 32 elements as fit. -/
def graphCuts (o : List Byte) (payload : Nat) : List (Nat × Nat) :=
  let total := opLen o / 128
  let k := if total * blockBytes o ≤ payload then total else payload / blockBytes o
  (List.range (ceilDiv total k)).map fun i =>
    (i * k * (if opMx o then 4 * (opMxFmt o).width else 128), Nat.min k (total - i * k) * blockBytes o)
/-- Where a piece of an operation's input lies: MX data keep the codes of the region before its scales (R318, R386). -/
def graphSpans (o : List Byte) (pos len : Nat) : List (Nat × Nat) :=
  if !opMx o then [(pos, len)]
  else
    let w := 4 * (opMxFmt o).width
    let n := len / (w + 1)
    [(pos, n * w), (opLen o / 128 * w + pos / w, n)]
/-- Write pieces of an operation's input. -/
def writeSpans (s : State) (e : ECmd) (o : List Byte) : List (Nat × Nat) → List Byte → List Bool → Except Flt State
  | [], _, _ => .ok s
  | r :: rs, bs, cs =>
    match cmdWrite s e (opIn e o + r.1) (bs.take r.2) (cs.take r.2) with
    | .error f => .error f
    | .ok t =>
      match writeSpans t e o rs (bs.drop r.2) (cs.drop r.2), cmdAccess s e (opIn e o + r.1) r.2 .write with
      | .error f, .ok ps => .error (f.after (standing t ps))
      | x, _ => x

/-- Graph data for operation op at a slot of a die (R320, R321): at pos of the input region, codes before scales; clean tells that its bytes
count, own that they come from the operation's peer in a piece of its length. -/
def graphArrive (s : State) (die slot inst op pos : Nat) (mx mx4 : Bool) (aux : Nat) (bs : List Byte) (cs : List Bool) (clean : Bool)
    (own : Graph → List Byte → Bool) : Arrival :=
  match s.graphSlot die slot with
  | none => .notArmed s
  | some g =>
    if g.inst != some inst then (if inst ≤ g.last then .discard else .notArmed s)
    else
      let o := graphOp g.image op
      if decide (graphNops g.image ≤ op) || !opRecv o || mx != opMx o || (mx && mx4 != opFlag o 3) || !own g o then .stopSender
      else
        match s.cmd g.cmd with
        | none => .notArmed s
        | some e =>
          if !e.stage.started then .notArmed s
          else
            match writeSpans s e o (graphSpans o pos bs.length) bs cs with
            | .error f => .notArmed (engineFlt s e f)
            | .ok s1 =>
              if !clean then .placed s1
              else
                let x := g.op op
                let g1 := g.setOp op { x with arrived := x.arrived + bs.length, folded := bits aux 47 0, flen := bits aux 56 48 }
                let s2 := setGraph s1 die slot g1
                .placed (if opReady g1 op then s2.push [.chunkOperationStart die slot op] else s2)

/-! ### Operations (R322) -/

/-- The packets of a SEND operation (R386, R387). -/
def graphPackets (e : ECmd) (x : Conn) (g : Graph) (i : Nat) : List Sent :=
  let o := graphOp g.image i
  let f := opContrib g i
  let rank := rankEntry g.image (opPeer o)
  (graphCuts o (connPayload x.entry)).map fun k =>
    { cmd := e.id, op := some i, by_ := ⟨e.job, e.strand⟩, info := handleInfo e,
      header := natLE 1 0x21 ++ natLE 1 ((if opMx o then 2 else 0) + (if opFlag o 3 then 4 else 0)) ++ natLE 1 (bits rank 22 20 + 8 * 2) ++
        natLE 1 0 ++ natLE 4 (g.inst.getD 0) ++ natLE 4 (e.slot + opPeerOp o * 2 ^ 16) ++ natLE 4 k.1 ++ natLE 8 0 ++
        natLE 6 f.1 ++ natLE 2 f.2,
      src := (graphSpans o k.1 k.2).map fun r => (opIn e o + r.1, r.2), len := k.2 }

/-- A failed access of an operation: a ciphertext line where a number is needed is FORM (R341). -/
def plainOnly (a : Nat) (x : List Byte × List Bool) : Except Flt (List Nat) :=
  if x.2.any id then .error { code := cForm, info := a } else .ok (fp32s x.1)
/-- Read FP32 numbers of an operation. -/
def readNumbers (s : State) (e : ECmd) (a n : Nat) : Except Flt (List Nat) :=
  match cmdRead s e a n with | .error f => .error f | .ok x => plainOnly a x
/-- The input of an operation as FP32 codes, dequantised when it is MX (R65, R318). -/
def readInput (s : State) (e : ECmd) (o : List Byte) : Except Flt (List Nat) :=
  if !opMx o then readNumbers s e (opIn e o) (opLen o)
  else
    match cmdRead s e (opIn e o) (opInLen o) with
    | .error f => .error f
    | .ok x =>
      if x.2.any id then .error { code := cForm, info := opIn e o }
      else
        let m := opMxFmt o
        let n := opLen o / 4
        let scales := x.1.drop (n * m.width / 8)
        .ok ((List.range n).map fun i => (roundFp .fp32 .rne 0 (mxValue m (scales.getD (i / 32) 0).toNat (mxUnpack m x.1 i))).1)

/-- The result of an operation other than SEND (R322): the state with it written, and the status bits. -/
def opEffect (s : State) (e : ECmd) (i : Nat) (o : List Byte) : Except Flt (State × Nat) :=
  let write (t : State) (a : Nat) (bs : List Byte) (cs : List Bool) (st : Nat) : Except Flt (State × Nat) :=
    match cmdWrite t e a bs cs with | .error f => .error f | .ok u => .ok (u, st)
  let numbers (xs : List Nat) : List Byte := (xs.map (natLE 4)).flatten
  match opOpc o with
  | 3 => match cmdRead s e (opIn e o) (opLen o) with | .error f => .error f | .ok x => write s (opOut e o) x.1 x.2 0
  | 5 => match readInput s e o with | .error f => .error f | .ok xs => write s (opOut e o) (numbers xs) (plain (opLen o)) 0
  | 2 =>
    match readInput s e o with
    | .error f => .error f
    | .ok xs =>
      match readNumbers s e (opOut e o) (opLen o) with
      | .error f => .error f
      | .ok ys =>
        let rs := (List.zip ys xs).map fun p =>
          let a := Fp.add false (f32 p.1) (f32 p.2)
          let r := roundFp .fp32 .rne 0 a.1
          (r.1, a.2 ||| r.2)
        write s (opOut e o) (numbers (rs.map (·.1))) (plain (opLen o)) (orAll rs)
  | _ =>
    match readInput s e o with
    | .error f => .error f
    | .ok xs =>
      match readNumbers s e (opResid e o) (opLen o) with
      | .error f => .error f
      | .ok rs =>
        let cb := compressAll (opMxFmt o) (opFlag o 4) (fun k => drawU e.rnd (i * 2 ^ 32 + k)) xs rs
        match cmdWrite s e (opResid e o) (residBytes cb) (plain (opLen o)) with
        | .error f => .error f
        | .ok t => write t (opOut e o) (packedBytes cb) (plain (opOutLen o)) (cb.foldl (fun acc b => acc ||| b.status) 0)

/-- An operation begins: its list is fixed and it runs. -/
def opRuns (s : State) (die slot : Nat) (g : Graph) (i st : Nat) : State :=
  let f := opContrib g i
  setGraph s die slot (g.setOp i { g.op i with stage := .running, folded := f.1, flen := f.2, status := st })

/-- A SEND operation goes to another die of the package (R320): its bytes are delivered at once, or it waits for the peer's instance. -/
def sendInternal (s : State) (e : ECmd) (die : Nat) (g : Graph) (i : Nat) : State :=
  let o := graphOp g.image i
  match cmdReadAll s e ((graphSpans o 0 (opInLen o)).map fun r => (opIn e o + r.1, r.2)) with
  | .error f => engineFlt s e f
  | .ok x =>
    let f := opContrib g i
    let mine := match s.graphSlot (opPdie o) e.slot with | some h => (s.job h.job).pid == e.pid | none => true
    let own (h : Graph) (q : List Byte) : Bool := opPeer q == graphMe h.image && opPdie q == die && opInLen q == opInLen o
    let run (t : State) : State :=
      match t.graphSlot die e.slot with
      | some h => (opRuns t die e.slot h i 0).push [.chunkOperationComplete die e.slot i]
      | none => t
    if !mine then s
    else
    match graphArrive (cmdMerge s e (opIn e o) (opInLen o)) (opPdie o) e.slot (g.inst.getD 0) (opPeerOp o) 0 (opMx o) (opFlag o 3)
        (f.1 + f.2 * 2 ^ 48) x.1 x.2 true own with
    | .notArmed t => t
    | .discard => run s
    | .stopSender => stopEngine s e cAccess (handleInfo e) 0
    | .placed t => run t

/-- CHUNK_OPERATION_START (R319, R320, R322). -/
def execChunkOperationStart (die slot op : Nat) (s : State) : Out :=
  match s.graphSlot die slot with
  | none => .next s
  | some g =>
    match s.cmd g.cmd with
    | none => .next s
    | some e =>
      let o := graphOp g.image op
      if g.inst.isNone || e.stage != .running || decide (graphNops g.image ≤ op) || !opReady g op then .next s
      else if opOpc o == 1 && opPeer o == graphMe g.image then done (sendInternal s e die g op)
      else if opOpc o == 1 then
        let c := connId e.pid (rankEntry g.image (opPeer o) % 2 ^ 20)
        if connState (s.conn c).entry != 2 || !connE8 (s.conn c).entry then done (stopEngine s e cAccess (handleInfo e) 0)
        else done ((pumpConn ((graphPackets e (s.conn c) g op).foldl (fun t k => enqueue t c k) (opRuns s die slot g op 0)) c).push
          [.chunkOperationComplete die slot op])
      else
        match opEffect s e op o with
        | .error f => done (engineFlt s e f)
        | .ok r => done ((opRuns (cmdMerge r.1 e (opIn e o) (opInLen o)) die slot g op r.2).push [.chunkOperationComplete die slot op])

/-- An operation is done (R319, R326): its record is written, its counter takes 1, and the instance may complete. -/
def opFinish (s : State) (e : ECmd) (die slot : Nat) (g : Graph) (op : Nat) : Except Flt State :=
  let o := graphOp g.image op
  let w : Except Flt State :=
    if opRecord o then cmdPut s e (recordAddr e g.image op) (completionRecord s die g op) else .ok s
  match w with
  | .error f => .error f
  | .ok t =>
    let g1 := g.setOp op { g.op op with stage := .done }
    let g2 := if opDone o == 0xFFFF then g1 else { g1 with ctrs := tmod 0 g1.ctrs (opDone o) (· + 1) }
    if (List.range (graphNops g.image)).all fun i => (g2.op i).stage == .done then
      .ok (retryGraphs (completeCmd (setGraph t die slot { g2 with inst := none, last := e.number, ops := [], ctrs := [] }) e))
    else .ok (pushReady (setGraph t die slot g2) die slot g2)

/-- CHUNK_OPERATION_COMPLETE (R319, R320, R326): a SEND waits until the peer has acknowledged every byte. -/
def execChunkOperationComplete (die slot op : Nat) (s : State) : Out :=
  match s.graphSlot die slot with
  | none => .next s
  | some g =>
    match s.cmd g.cmd with
    | none => .next s
    | some e =>
      if g.inst.isNone || e.stage != .running || (g.op op).stage != .running || packetsLeft s g.cmd (some op) then .next s
      else match opFinish s e die slot g op with | .error f => done (engineFlt s e f) | .ok t => done t

/-! ### Going on after a page (R280, R376) -/

/-- A stalled command goes on where it stands (R280). -/
def resumeCmd (s : State) (e : ECmd) : State :=
  let run := setStage s e .running
  match e.kind with
  | .cpy => if e.begun then run.push [.sluiceBeatDelivery e.id] else startCpy s e
  | .send =>
    if e.done == 1 then sendOnward run e.id
    else (setStage s e .released).push [engineEvent e]
  | .coll =>
    match s.graphSlot (coreDie e.core) e.slot with
    | some g =>
      if g.cmd == e.id && g.inst == some e.number then
        (retryGraphs (pushReady (sendOnward run e.id) (coreDie e.core) e.slot g)).push
          (((List.range (graphNops g.image)).filter fun i => (g.op i).stage == .running).map fun i =>
            .chunkOperationComplete (coreDie e.core) e.slot i)
      else (setStage s e .released).push [engineEvent e]
    | none => (setStage s e .released).push [engineEvent e]
  | _ => (setStage s e .released).push [engineEvent e]

end Sys2Proof.Machine
end

