-- ==== Sys2Proof/Machine/Events.lean ====
section
/-! DEFINITION. Events to the leat cores (R400), and connections that close (R398, R399). -/

namespace Sys2Proof.Machine

/-! ### The event queue (R400) -/

/-- The leat core that drives a port, and the port's place in its pair (R19). -/
def portLeat (port : Nat) : Nat := port / 6 * 3 + port % 6 / 2
def portSide (port : Nat) : Nat := port % 2
/-- The places of an event queue. -/
def queueSize : Nat := 1024
/-- LINK_DOWN and HOST_LOST are never coalesced. -/
def neverCoalesced (code : Nat) : Bool := code == 0x0C || code == 0x0D
/-- No connection applies. -/
def noConn : Nat := 0xFFFFFFFF

/-- Deliver an event to a leat core's queue, or hold it while the queue is full. -/
def Leat.give (x : Leat) (r : EventRec) : Leat :=
  if x.queue.length < queueSize then { x with queue := x.queue ++ [r] }
  else if neverCoalesced r.code then { x with waiting := x.waiting ++ [r] }
  else if x.pending.any fun q => q.conn == r.conn && q.code == r.code then
    { x with pending := x.pending.map fun q => if q.conn == r.conn && q.code == r.code then r else q }
  else { x with pending := x.pending ++ [r] }
/-- A place has freed: a waiting LINK_DOWN or HOST_LOST takes it, else the pending pair of least connection, then code; EVQ.N
counts the record from the cycle after (R411). -/
def Leat.refill (x : Leat) : Leat :=
  match x.waiting with
  | w :: ws => { x with waiting := ws, queue := x.queue ++ [w], fresh := 1 }
  | [] =>
    match leastBy (fun (a b : EventRec) => decide (a.conn < b.conn) || (a.conn == b.conn && decide (a.code < b.code))) x.pending with
    | some r => { x with pending := x.pending.erase r, queue := x.queue ++ [{ r with coalesced := true }], fresh := 1 }
    | none => x

/-- The race engine of a port reports an event (R400). -/
def leatEvent (s : State) (port code conn : Nat) (sub : Bool) (data : List Byte) : State :=
  let n := portLeat port
  s.setLeat n ((s.leat n).give
    { code := code, port := portSide port, sub := sub, conn := conn, time := s.dieTime (port / 6), data := padTo 16 data, coalesced := false })
/-- While a LINK_DOWN or HOST_LOST waits for a place, the port accepts no packets. -/
def portBlocked (s : State) (port : Nat) : Bool := (s.leat (portLeat port)).waiting.any fun r => r.port == portSide port
/-- The 32 bytes of an event record (R400). -/
def recordOf (r : EventRec) : List Byte :=
  natLE 1 r.code ++ natLE 1 ((if r.coalesced then 1 else 0) + r.port * 2 + (if r.sub then 4 else 0)) ++ zeros 2 ++
  natLE 4 (if r.conn == noConn then noConn else connIndex r.conn) ++
  natLE 8 r.time ++ padTo 16 r.data

/-! ### Connections that close (R398, R399) -/

/-- The commands that still use a connection. -/
def connCmds (s : State) (c : Nat) : List Nat := (((s.conn c).queue ++ (s.conn c).sent).map (·.cmd)).eraseDups.filter (· != 0)
/-- An add that a connection will not carry: ACCESS for who made it (R121). -/
def refuseAdds (s : State) (ks : List Sent) : State :=
  { s with offers := s.offers ++ (ks.filter fun k => k.cmd == 0).map fun k => { by_ := k.by_, code := cAccess, info := k.info, flags := 0, slot := k.slot, add := true } }
/-- Stop a command, if it still stands. -/
def stopById (s : State) (id : Nat) : State := match s.cmd id with | some e => stopEngine s e cAccess (handleInfo e) 0 | none => s
/-- An entry leaves OPEN (R398, R399): the commands using it stop, its queued adds are refused, and CONN_CLOSE is reported with a
reason. -/
def closeConn (s : State) (c reason : Nat) : State :=
  let x := s.conn c
  let st := connState x.entry
  if st != 2 then s
  else
    let ids := connCmds s c
    let s1 := refuseAdds (s.setConn c { x with entry := setLE x.entry 0 1 3, queue := [] }) x.queue
    let s2 := ids.foldl stopById s1
    (leatEvent s2 x.port 0x09 c false (natLE 1 reason)).push (if (s2.conn c).sent.isEmpty then [.connectionClosed c] else [])
/-- A CLOSING entry is CLOSED (R398): what was not acknowledged is abandoned. -/
def finishClose (s : State) (c : Nat) : State :=
  let x := s.conn c
  if connState x.entry != 3 then s
  else refuseAdds (s.setConn c { entry := setLE x.entry 0 1 0, port := x.port }) x.sent

end Sys2Proof.Machine
end

