-- ==== Sys2Proof/Machine/Paging.lean ====
section
/-! DEFINITION. Translation events (R372 to R377) and host loss (R383): walks that complete, the scheduler firmware's and the host's answers
to page faults, ATS, and the contexts that a lost host suspends. -/

namespace Sys2Proof.Machine

/-! ### Who waits for a page -/

/-- The answers to page faults name who waits in one number: a core, a saved strand from 2^20, an engine command from 2^40, an armed slot
from 2^50 (log entry 28). -/
inductive PageWaiter where
  | core (c : Nat)
  | saved (job strand : Nat)
  | cmd (id : Nat)
  | slot (die slot : Nat)
  deriving DecidableEq, Repr

def pageWaiter (n : Nat) : PageWaiter :=
  if n < 2 ^ 20 then .core n
  else if n < 2 ^ 40 then .saved (n / 2 ^ 20) (n % 2 ^ 20)
  else if n < 2 ^ 50 then .cmd (n - 2 ^ 40)
  else .slot ((n - 2 ^ 50) / 1024) (n % 1024)

/-- Change a core that a strand was saved from. -/
def keepStrand (s : State) (id strand : Nat) (f : Core → Core) : State :=
  let j := s.job id
  s.setJob id { j with kept := tins j.kept strand (f (tget {} j.kept strand)) }
/-- A saved strand's page fault has its answer: mapped, or a fault to offer when it resumes (R46, R374). -/
def answerSaved (s : State) (id strand : Nat) (good : Bool) (flags : Nat) : State :=
  let t := keepStrand s id strand fun x =>
    { x with hold := none,
             pageFault := if good then none else x.pageFault.map fun (p : PendingFault) => { p with flags := p.flags ||| flags } }
  if good && (t.job id).strandWaits strand then t else wakeJob t id
/-- A resident strand's page fault has its answer (R374, R376). -/
def answerCore (s : State) (c : Nat) (good : Bool) (flags : Nat) : State :=
  if good then releasePage s c
  else match (s.core c).pageFault with | some p => offerPage s c { p with flags := p.flags ||| flags } | none => s
/-- A stalled command's page fault has its answer (R280). -/
def answerCmd (s : State) (e : ECmd) (good : Bool) (code info flags : Nat) : State :=
  if good then resumeCmd s e else stopEngine s e code info flags
/-- An armed slot's page fault has its answer (R448): refused, it is offered and the slot is disarmed without an add. -/
def answerSlot (s : State) (die slot : Nat) (a : Armed) (good : Bool) (code info flags : Nat) : State :=
  let d := s.die die
  if good then s.setDie die { d with armed := tins d.armed slot (some { a with waitDev := none, waitHost := none }) }
  else freeSlot { s with offers := s.offers ++ [{ by_ := ⟨a.job, a.strand⟩, code := code, info := info, flags := flags, slot := 8 }] } die slot

/-- The MALFORMED flag of a stalled command's page (R371). -/
def malformedFlag (s : State) (pid asp va : Nat) : Nat := if walk s pid asp va == .malformed then 8 else 0

/-! ### Walks and the scheduler firmware (R372, R374) -/

/-- TRANSLATION_WALK_COMPLETE (R372): a walk that finds a page installs it in the die's TLB; a failed walk is not cached. -/
def execTranslationWalkComplete (die pid space va : Nat) (s : State) : Out :=
  match walk s pid space va with
  | .page e => let d := s.die die; .next (s.setDie die { d with l2 := tlbAdd d.l2 8192 e })
  | _ => .next s

/-- Remove entries from every TLB of the package. -/
def dropEverywhere (s : State) (p : TlbEnt → Bool) : State :=
  { s with
    cores := s.cores.map fun c => (c.1, { c.2 with tlb := c.2.tlb.filter fun e => !p e }),
    dies := s.dies.map fun d => (d.1, { d.2 with l2 := d.2.l2.filter fun e => !p e }) }
/-- The entries of a space that an invalidation by virtual address covers, n 0 for the whole space (R373). The host translations that
its pages led to are among them: all of the space. -/
def TlbEnt.meets (e : TlbEnt) (pid asp va n : Nat) : Bool :=
  e.pid == pid && e.aspace == asp && (e.ats || n == 0 || overlaps e.va e.size (va % 2 ^ 57) n)
/-- Remove the translations of a range of a space (R373). -/
def invalidateSpace (s : State) (pid asp va n : Nat) : State := dropEverywhere s fun e => e.meets pid asp va n

/-- A place in memory that a translation gave. -/
def translated (host : Bool) (l : Loc) : Bool := l.sp == .host || (!host && l.sp == .hbm)
/-- An entry of the release buffer that accesses memory through a translation, of host pages only where host is set. -/
def BufEnt.accesses (host : Bool) : BufEnt → Bool
  | .write l _ _ | .cmd (.accv l _ _ _ _) => translated host l
  | _ => false
/-- The cores of a space that hold accesses in their release buffer (R150), or in what they have released. -/
def Core.staleNow (x : Core) (host : Bool) : Nat :=
  if x.buf.any (·.accesses host) then 1
  else if x.stale != 0 || x.drain.any (·.accesses host) || x.later.any fun l => (BufEnt.cmd l.2.2).accesses host then 2 else 0
/-- A core acts, or acted when it released what it drains, for a space. -/
def usesSpace (s : State) (c : Nat) (pid asp : Nat) : Bool :=
  let of_ (id : Nat) : Bool := (s.job id).pid == pid && (s.job id).aspace == asp
  of_ ((s.core c).job.getD 0) || of_ (s.core c).drainBy.ctx
/-- What an invalidation waits for (R373, R377): the accesses in progress that began with entries of the space, of host pages only where
host is set. -/
def invalOf (s : State) (ask : Instr) (doe : Bool) (pid asp : Nat) (host : Bool) : Inval :=
  { ask := ask, doe := doe,
    cores := (s.cores.filter fun c => usesSpace s c.1 pid asp && c.2.staleNow host != 0).map (·.1),
    cmds := if host then [] else (s.engines.filter fun e => e.kind == .mvs && e.pid == pid && e.aspace == asp).map (·.id) }
/-- An invalidation has removed its entries (s) and waits for what began with them. -/
def waitInval (s : State) (k : Inval) (host : Bool) : State :=
  (k.cores.foldl (fun t c => t.onCore c fun x => { x with stale := if x.stale == 1 then 1 else x.staleNow host }) s).onMgmt fun m =>
    { m with invals := m.invals ++ [k] }
/-- The first invalidation of a request whose accesses have been performed is complete. -/
def dropInval (s : State) (ask : Instr) : State := s.onMgmt fun m => { m with invals := m.invals.eraseP fun k => k.ask == ask && k.settled s }

/-- The firmware maps a page (R374): the table entry it writes, and the invalidation. -/
def mapPage (s : State) (pid asp va entryAddr entry : Nat) : State :=
  let s1 := if (s.part pid).holds entryAddr 8 then writeAt s (homeDie entryAddr) ⟨.hbm, entryAddr⟩ (natLE 8 entry) else s
  invalidateSpace s1 pid asp va 4096
/-- A TLB holds a translation of the page at va. -/
def pageCached (s : State) (pid asp va : Nat) : Bool :=
  let at_ (l : List TlbEnt) : Bool := l.any fun e => !e.ats && e.meets pid asp va 4096
  (s.cores.any fun c => at_ c.2.tlb) || s.dies.any fun d => at_ d.2.l2
/-- The firmware's mapping of a page, then its answer k (R373, R374): the answer waits for the accesses that began with a translation of the
page which the invalidation has removed. -/
def mapThen (s : State) (ask : Instr) (pid asp va entryAddr entry : Nat) (k : State → State) : State :=
  if s.invalReady ask then k (dropInval s ask)
  else if s.mgmt.invals.any (·.ask == ask) then s
  else
    let w := invalOf s ask false pid asp false
    let t := mapPage s pid asp va entryAddr entry
    if pageCached s pid asp va && !(w.cores.isEmpty && w.cmds.isEmpty) then waitInval t w false else k t

/-- PAGE_DEVICE (R44, R374): the scheduler firmware's answer; during a live activation it waits. -/
def execPageDevice (core : Nat) (mapped : Bool) (entryAddr entry : Nat) (s : State) : Out :=
  let ask : Instr := .pageDevice core mapped entryAddr entry
  if s.schedPaused then .next (s.deferOnce ask)
  else
    match pageWaiter core with
    | .core c =>
      (match (s.core c).hold with
       | some (.pageDevice va) =>
         let j := s.coreJob c
         done (if mapped then mapThen s ask j.pid j.aspace va entryAddr entry fun t => answerCore t c true 0 else answerCore s c false 0)
       | _ => .next s)
    | .saved id strand =>
      let j := s.job id
      (match j.strands[strand]?, (tget {} j.kept strand).hold with
       | some .saved, some (.pageDevice va) =>
         done (if mapped then mapThen s ask j.pid j.aspace va entryAddr entry fun t => answerSaved t id strand true 0
               else answerSaved s id strand false 0)
       | _, _ => .next s)
    | .cmd id =>
      (match s.cmd id with
       | some e =>
         (match e.stage with
          | .stalledDevice va =>
            if mapped then done (mapThen s ask e.pid e.aspace va entryAddr entry fun t => answerCmd t e true 0 0 0)
            else done (answerCmd s e false cPageDevice va (malformedFlag s e.pid e.aspace va))
          | _ => .next s)
       | none => .next s)
    | .slot die slot =>
      match s.armedSlot die slot with
      | some a =>
        (match a.waitDev with
         | some va =>
           if mapped then done (mapThen s ask a.pid a.aspace va entryAddr entry fun t => answerSlot t die slot a true 0 0 0)
           else done (answerSlot s die slot a false cPageDevice va (malformedFlag s a.pid a.aspace va))
         | none => .next s)
      | none => .next s

/-! ### Page responses (R376) -/

/-- The resident strands of a die that wait for a host page. -/
def coresOnPage (s : State) (die pid asp page : Nat) : List Nat :=
  (s.cores.filter fun c => coreDie c.1 == die && c.2.hold == some (.pageHost page) && (s.coreJob c.1).pid == pid && (s.coreJob c.1).aspace == asp).map (·.1)
/-- The saved strands whose request for a host page stands on a die: the one that they were on last. -/
def savedOnPage (s : State) (die pid asp page : Nat) : List (Nat × Nat) :=
  ((s.jobs.filter fun j => j.2.pid == pid && j.2.aspace == asp).map fun j =>
    (j.2.kept.filter fun k => k.2.hold == some (.pageHost page) && coreDie (tget 0 j.2.lastCore k.1) == die).map fun k => (j.1, k.1)).flatten
/-- The commands of a die that wait for a host page, with the address each met. -/
def cmdsOnPage (s : State) (die pid asp page : Nat) : List (ECmd × Nat) :=
  s.engines.filterMap fun e =>
    match e.stage with
    | .stalledHost q va => if q == page && e.stallDie == die && e.pid == pid && e.aspace == asp then some (e, va) else none
    | _ => none
/-- The armed slots of a die that wait for a host page. -/
def slotsOnPage (s : State) (die pid asp page : Nat) : List (Nat × Armed × Nat) :=
  (s.die die).armed.filterMap fun x =>
    match x.2 with
    | some a => (match a.waitHost with
      | some q => if q.1 == page && a.pid == pid && a.aspace == asp then some (x.1, a, q.2) else none
      | none => none)
    | none => none

/-- Everyone who waits for a page of a die has the host's answer (R376). -/
def answerPage (s : State) (die : Nat) (q : PageReq) (good : Bool) : State :=
  let s1 := (coresOnPage s die q.pid q.aspace q.page).foldl (fun t c => answerCore t c good 16) s
  let s2 := (savedOnPage s die q.pid q.aspace q.page).foldl (fun t x => answerSaved t x.1 x.2 good 16) s1
  let s3 := (cmdsOnPage s die q.pid q.aspace q.page).foldl (fun t x => answerCmd t x.1 good cPageHost x.2 16) s2
  (slotsOnPage s die q.pid q.aspace q.page).foldl (fun t x => answerSlot t die x.1 x.2.1 good cPageHost x.2.2 16) s3

/-- The Page Request of a strand that waits for one. -/
def askFor (t : State) (die pid asp : Nat) : Option Hold → State
  | some (.pageHost page) => requestPage t die pid asp page
  | _ => t
/-- Those that wait for a place send their Page Requests while the allocation has room (R376); a switched-out strand has kept its place. -/
def sendWaiting (s : State) (die : Nat) : State :=
  let s0 := s.cores.foldl (fun t c => if coreDie c.1 == die then askFor t die (s.coreJob c.1).pid (s.coreJob c.1).aspace c.2.hold else t) s
  let s1 := s.jobs.foldl (fun t j =>
    j.2.kept.foldl (fun u k =>
      if j.2.strands[k.1]? == some .saved && coreDie (tget 0 j.2.lastCore k.1) == die then askFor u die j.2.pid j.2.aspace k.2.hold else u) t) s0
  let s2 := s.engines.foldl (fun t e =>
    match e.stage with
    | .stalledHost page _ =>
      if e.stallDie == die then requestPage t die e.pid e.aspace page else t
    | _ => t) s1
  (s.die die).armed.foldl (fun t x =>
    match x.2 with
    | some a => (match a.waitHost with | some q => requestPage t die a.pid a.aspace q.1 | none => t)
    | none => t) s2

/-- PAGE_REQUEST_RESPONSE (R376): code 0 is Success, 1 Invalid Request, any other Response Failure, of the die's request at a place. -/
def execPageRequestResponse (die index code : Nat) (s : State) : Out :=
  let d := s.die die
  match d.pageReqs[index]? with
  | none => .next s
  | some q =>
    if code ≤ 1 then
      done (sendWaiting (answerPage (s.setDie die { d with pageReqs := d.pageReqs.eraseIdx index }) die q (code == 0)) die)
    else done (d.pageReqs.foldl (fun t r => answerPage t die r false) (s.setDie die { d with pageReqs := [], priOff := true }))

/-- PRI_REENABLE (R376): the die may send Page Requests again. -/
def execPriReenable (die : Nat) (s : State) : Out :=
  .next (sendWaiting (s.setDie die { s.die die with priOff := false }) die)

/-! ### ATS (R375, R377) -/

/-- ATS_TRANSLATION_COMPLETION (R375): the translation of a host page is cached, and what waited for it goes on. -/
def execAtsTranslationCompletion (die pid space page addr : Nat) (r w : Bool) (s : State) : Out :=
  let d := s.die die
  let e : TlbEnt := { pid := pid, aspace := space, va := page % 2 ^ 57 / 4096 * 4096, size := 4096, r := r, w := w, x := r, host := true, addr := addr, ats := true }
  let s1 := s.setDie die { d with l2 := tlbAdd (d.l2.filter fun x => !x.hosts pid space page) 8192 e }
  let cs := (s.cores.filter fun c => coreDie c.1 == die && c.2.hold == some (.ats page) && (s.coreJob c.1).pid == pid && (s.coreJob c.1).aspace == space).map (·.1)
  let s2 := cs.foldl (fun t c => (wakeCore (t.onCore c fun x => { x with hold := none }) c).push [.freezeClear c]) s1
  done (resumeFirings
    ((s.engines.filter fun x => x.stage == .stalledAts page && x.stallDie == die && x.pid == pid && x.aspace == space).foldl resumeCmd s2)
    fun w => w.die == die && w.pid == pid && w.aspace == space)

/-- Remove the host translations of a range of host pages (R377). -/
def invalidateHost (s : State) (pid asp page n : Nat) : State :=
  dropEverywhere s fun e => e.ats && e.pid == pid && e.aspace == asp && overlaps e.va e.size (page % 2 ^ 57) n
/-- ATS_INVALIDATE_REQUEST (R377): the translations are removed; the completion is sent once what had begun with them has been
performed. A further request while one waits removes what has been installed since, and gets a completion of its own. -/
def execAtsInvalidateRequest (pid space page pages : Nat) (s : State) : Out :=
  let ask : Instr := .atsInvalidateRequest pid space page pages
  if s.invalReady ask then done ((dropInval s ask).emit (.atsInvalidateDone page))
  else
    let t := invalidateHost s pid space page (Nat.max 1 pages * 4096)
    let k := invalOf s ask false pid space true
    done (if k.cores.isEmpty then t.emit (.atsInvalidateDone page) else waitInval t k true)

/-! ### Host loss (R383) -/

/-- A job is a live context of a space with HOSTMAPS. -/
def hostBound (s : State) (j : Job) : Bool := j.dispatched && j.phase != .ended && spaceHostmaps (tget [] (s.part j.pid).spaces j.aspace)
/-- The outstanding page requests of a space are dropped. -/
def dropRequests (s : State) (pid asp : Nat) : State :=
  { s with dies := s.dies.map fun d => (d.1, { d.2 with pageReqs := d.2.pageReqs.filter fun q => !(q.pid == pid && q.aspace == asp) }) }
/-- A context is suspended: pre-empted first when it runs; its HOST translations and page requests go, and one record is written. -/
def suspendJob (s : State) (id : Nat) : State :=
  let j := s.job id
  let w := writeRecord s id fun lost => faultRecord s { code := cHostlost } id 0 0 0 0 4 0 0 lost
  let s0 := if w.2 then w.1 else doubleFault w.1 id cHostlost
  let s1 := dropRequests (dropEverywhere s0 fun e => (e.ats || e.host) && e.pid == j.pid && e.aspace == j.aspace) j.pid j.aspace
  match (s1.job id).phase with
  | .running => preemptJob s1 id true
  | .out | .ready => s1.setJob id { (s1.job id) with phase := .suspended }
  | _ => s1
/-- A partition's host is lost. -/
def loseHost (s : State) (pid : Nat) : State :=
  if s.hostLost.contains pid then s
  else
    let s1 : State := { s with hostLost := pid :: s.hostLost, lostAt := tput none s.lostAt pid (some s.fabricTime) }
    (List.range 8).foldl sendWaiting (noteSuspended (((s.jobsOf pid).filter (hostBound s)).foldl (fun t j => suspendJob t j.id) s1) pid)
/-- One of the two CXL links is lost (R17, R440). DEDUCED: either of them serves every partition, whichever of them its HOSTINT messages take
(log entry 104). -/
def loseLink (s : State) (link : Nat) : State :=
  if link < 2 then ((s.parts.filter fun p => p.2.st != .free).map (·.1)).foldl loseHost s else s
/-- HOST_LOSS (R383): link down or hot reset of a link. -/
def execHostLoss (link : Nat) (s : State) : Out := done (loseLink s link)

/-- The ports that a partition holds (R335). -/
def partPorts (p : Partition) : List Nat := (List.range 48).filter p.hasPort
/-- The leat cores of some ports, each by one of its ports. -/
def leatPorts (ps : List Nat) : List Nat := ps.filter fun p => !(ps.any fun q => decide (q < p) && portLeat q == portLeat p)
/-- HOSTLOST_GRACE (R383). -/
def hostlostGraceNs : Nat := 2000000000
/-- HOSTLOST_GRACE has passed since a partition's host was lost, and its end has not been taken yet (R383). -/
def graceOver (s : State) (pid : Nat) : Bool :=
  match tget none s.lostAt pid with
  | some t => decide (t + hostlostGraceNs ≤ s.fabricTime)
  | none => false
/-- HOSTLOST_GRACE_EXPIRY (R383): the partition's connections close, and HOST_LOST goes to the leat cores for each suspended context. -/
def execHostlostGraceExpiry (pid : Nat) (s : State) : Out :=
  let js := (s.jobsOf pid).filter (·.suspendedNow)
  if !s.hostLost.contains pid || js.isEmpty || !graceOver s pid then .next s
  else
    let p := s.part pid
    let s1 := p.conns.foldl (fun t c => closeConn t (connId pid c.1) 3) { s with lostAt := tdel s.lostAt pid }
    done (js.foldl (fun t j => (leatPorts (partPorts p)).foldl (fun u q => leatEvent u q 0x0D noConn false (natLE 4 j.ctxid ++ natLE 1 pid)) t) s1)

end Sys2Proof.Machine
end

