-- ==== Sys2Proof/Machine/Fabric.lean ====
section
/-! DEFINITION. The transport's events (R384 to R401): packets that arrive and are placed (R307 to R313, R320, R448), acknowledgements and
negative answers, timers, frames, keys, fabric time, and connections. -/

namespace Sys2Proof.Machine

/-! ### The placement header (R386) -/

def hdType (h : List Byte) : Nat := fieldLE h 0 1 / 16
def hdPoison (h : List Byte) : Bool := (fieldLE h 1 1).testBit 0
def hdMx (h : List Byte) : Bool := (fieldLE h 1 1).testBit 1
def hdMx4 (h : List Byte) : Bool := (fieldLE h 1 1).testBit 2
def hdDie (h : List Byte) : Nat := fieldLE h 2 1 % 8
def hdEs (h : List Byte) : Nat := fieldLE h 2 1 / 8 % 8
def hdInst (h : List Byte) : Nat := fieldLE h 4 4
def hdTarget (h : List Byte) : Nat := fieldLE h 8 4
def hdPos (h : List Byte) : Nat := fieldLE h 12 4
def hdCol (h : List Byte) : Nat := fieldLE h 16 4
def hdRows (h : List Byte) : Nat := fieldLE h 20 2 + 1
def hdCols (h : List Byte) : Nat := fieldLE h 22 2 + 1
def hdAux (h : List Byte) : Nat := fieldLE h 24 8
/-- A header that a race engine accepts: VER 1, a listed TYPE, reserved bits zero. -/
def headerOk (h : List Byte) : Bool :=
  let t := hdType h
  let x := hdTarget h
  h.length == 32 && fieldLE h 0 1 % 16 == 1 && decide (fieldLE h 1 1 < 8) && decide (fieldLE h 2 1 < 64) && fieldLE h 3 1 == 0 &&
  (match t with
   | 1 => decide (x < 1024) && hdAux h == 0
   | 2 => bits x 15 6 == 0 && bits x 31 28 == 0 && fieldLE h 16 8 == 0 && bits (hdAux h) 63 57 == 0
   | 3 => decide (x < 8) && decide (hdPos h < 2 ^ 24) && fieldLE h 16 8 == 0 && hdInst h == 0
   | _ => false)

/-! ### Sequence numbers (R389) -/

/-- A PSN at or behind another, modulo 2^32. -/
def psnLe (a b : Nat) : Bool := decide ((b + 2 ^ 32 - a % 2 ^ 32) % 2 ^ 32 < 2 ^ 31)
/-- A PSN has been accepted. -/
def rxHas (x : Conn) (psn : Nat) : Bool := psnLe psn x.rxCum || x.rxSel.contains psn
/-- Move the cumulative PSN over those accepted; fuel bounds them. -/
def rxAdvance : Nat → Conn → Conn
  | 0, x => x
  | n + 1, x =>
    let k := (x.rxCum + 1) % 2 ^ 32
    if x.rxSel.contains k then rxAdvance n { x with rxCum := k, rxSel := x.rxSel.filter (· != k) } else x
/-- Accept a PSN. -/
def rxAccept (x : Conn) (psn : Nat) : Conn := rxAdvance (x.rxSel.length + 1) { x with rxSel := x.rxSel ++ [psn] }
/-- The selective bitmap of an acknowledgement. -/
def rxBitmap (x : Conn) : Nat :=
  (List.range 64).foldl (fun acc k => acc + if x.rxSel.contains ((x.rxCum + 1 + k) % 2 ^ 32) then 2 ^ k else 0) 0
/-- Acknowledge what a connection has accepted, with further credit, on a path (R389) and with the marked bytes that it echoes (R391). -/
def sendAck (s : State) (c credit path marked : Nat) : State := sendCtl s c (.ack c (s.conn c).rxCum (rxBitmap (s.conn c)) credit path marked)
/-- A packet is discarded and counted in the port's error count (R386, R396). -/
def discardPacket (s : State) (port : Nat) : State := let p := s.port port; s.setPort port { p with errors := p.errors + 1 }

/-! ### Placing tensor data (R305 to R312) -/

/-- The bytes that a packet gives a slot, row by row, with their forms; MX data become FP32 (R315, R65). -/
def tensorRows (h : List Byte) (es : Nat) (bs : List Byte) (cs : List Bool) : List (List Byte × List Bool) :=
  let n := hdCols h
  if hdMx h then
    let m := if hdMx4 h then Mx.mx4 else Mx.mx8
    let scales := bs.drop (hdRows h * n * m.width / 8)
    (List.range (hdRows h)).map fun i =>
      (((List.range n).map fun j =>
        let e := i * n + j
        natLE 4 (roundFp .fp32 .rne 0 (mxValue m (scales.getD (e / 32) 0).toNat (mxUnpack m bs e))).1).flatten, plain (4 * n))
  else (List.range (hdRows h)).map fun i => ((bs.drop (i * n * es)).take (n * es), (cs.drop (i * n * es)).take (n * es))
/-- The payload length that a header calls for. -/
def tensorLen (h : List Byte) (es : Nat) : Nat :=
  let n := hdRows h * hdCols h
  if hdMx h then n * (if hdMx4 h then Mx.mx4 else Mx.mx8).width / 8 + n / 32 else n * es

/-- The accesses of a race engine for a slot (R448). -/
def slotReach (s : State) (die : Nat) (a : Armed) (va n : Nat) : Except Flt (List Piece × List TlbEnt) :=
  engineReach s a.core die a.pid a.aspace va n a.user a.lb .write
/-- An address of a slot's descriptor: LOCAL of the arming core's mill. -/
def slotVa (a : Armed) (va : Nat) : Nat := regionVa a.core va
/-- Bytes of a slot land in pieces: one write of the die (R108). -/
def slotLand (s : State) (die : Nat) (r : List Piece × List TlbEnt) (bs : List Byte) (cs : List Bool) : State :=
  tickClock (landPieces (noteWrite s die r) r.1 bs cs) die
/-- Write bytes of a bitmap or a ring for a slot, which are no data of a program (R342). -/
def slotPut (s : State) (die : Nat) (a : Armed) (va : Nat) (bs : List Byte) : Except Flt State :=
  match slotReach s die a (slotVa a va) bs.length with
  | .error f => .error f
  | .ok r => .ok (slotLand s die r bs (plain bs.length))
/-- Write data for a slot; EXPORT_PLAINTEXT when they may not leave for the host (R342). -/
def slotWrite (s : State) (die : Nat) (a : Armed) (va : Nat) (bs : List Byte) (cs : List Bool) : Except Flt State :=
  match slotReach s die a (slotVa a va) bs.length with
  | .error f => .error f
  | .ok r => match exportStop (s.part a.pid) va r.1 bs cs with | some f => .error f | none => .ok (slotLand s die r bs cs)
/-- Add FP32 elements to those that stand at an address (R309); a line that carries ciphertext, arriving or standing, is FORM (R341). -/
def slotAdd (s : State) (die : Nat) (a : Armed) (va : Nat) (bs : List Byte) (cs : List Bool) : Except Flt State :=
  match slotReach s die a (slotVa a va) bs.length with
  | .error f => .error f
  | .ok r =>
    if cs.any id || r.1.any (fun p => s.anyForm p.loc p.len) then .error { code := cForm, info := va }
    else
      let old := fp32s (r.1.map fun p => s.bytesAt p.loc p.len).flatten
      let sums := (List.zip old (fp32s bs)).map fun x => (roundFp .fp32 .rne 0 (Fp.add false (f32 x.1) (f32 x.2)).1).1
      let out := (sums.map (natLE 4)).flatten
      match exportStop (s.part a.pid) va r.1 out cs with | some f => .error f | none => .ok (slotLand s die r out cs)

/-- The bytes of a rectangle that lie in chunk c (R308): rows r0 for nr, columns c0 for nc. -/
def spanMeet (a n b m : Nat) : Nat := Nat.min (a + n) (b + m) - Nat.max a b
def chunkShare (d : List Byte) (c r0 nr c0 nc : Nat) : Nat :=
  spanMeet (c / armNcj d * armCr d) (armCr d) r0 nr * spanMeet (c % armNcj d * armCc d) (armCc d) c0 nc * armElem d
/-- The size of chunk c in bytes. -/
def chunkBytes (d : List Byte) (c : Nat) : Nat := chunkShare d c 0 (armRows d) 0 (armCols d)
/-- The covering chunks of tile t (R305). -/
def tileChunks (d : List Byte) (t : Nat) : List Nat :=
  let lo0 := t / armNtj d * armTr d
  let hi0 := Nat.min (lo0 + armTr d) (armRows d) - 1
  let lo1 := t % armNtj d * armTc d
  let hi1 := Nat.min (lo1 + armTc d) (armCols d) - 1
  ((List.range (hi0 / armCr d + 1 - lo0 / armCr d)).map fun i =>
    (List.range (hi1 / armCc d + 1 - lo1 / armCc d)).map fun j => (lo0 / armCr d + i) * armNcj d + lo1 / armCc d + j).flatten
/-- Every covering chunk of a tile has landed. -/
def tileWhole (a : Armed) (t : Nat) : Bool := (tileChunks a.desc t).all a.landed.contains

/-- Replace an armed slot. -/
def setArmed (s : State) (die slot : Nat) (a : Armed) : State :=
  let d := s.die die
  s.setDie die { d with armed := tins d.armed slot (some a) }
/-- Publish a tile (R311): its ring entry, then the add to RINGCTR. -/
def publishTile (s : State) (die slot : Nat) (a : Armed) (t : Nat) : Except Flt (State × Armed) :=
  let e := a.inst * 2 ^ 32 + t % armNtj a.desc * 2 ^ 16 + t / armNtj a.desc
  match slotPut s die a (armRing a.desc + 8 * (a.count % 2 ^ armRinglog a.desc)) (natLE 8 e) with
  | .error f => .error f
  | .ok s1 =>
    let a1 := { a with count := a.count + 1, published := t :: a.published }
    .ok (addFrom (setArmed s1 die slot a1) die (armRingctr a.desc) 1 ⟨a.job, a.strand⟩ 8, a1)
/-- Publish tiles in order. -/
def publishAll (s : State) (die slot : Nat) (a : Armed) : List Nat → Except Flt (State × Armed)
  | [] => .ok (s, a)
  | t :: ts => match publishTile s die slot a t with | .error f => .error f | .ok r => publishAll r.1 die slot r.2 ts
/-- The tiles that a landing of chunk c publishes (R310): those it completes, ascending; under DET the next ones in index order. -/
def tilesDue (a : Armed) (c : Nat) : List Nat :=
  let ts := List.range (armTiles a.desc)
  if a.det then (ts.drop a.count).takeWhile (tileWhole a)
  else ts.filter fun t => (tileChunks a.desc t).contains c && tileWhole a t && !a.published.contains t
/-- Chunk c lands (R306, R308, R310 to R312): bitmap bit, publications, and DONECTR with the last chunk. -/
def landChunk (s : State) (die slot : Nat) (a : Armed) (c : Nat) : Except Flt (State × Armed) :=
  let a1 := { a with landed := c :: a.landed }
  let word := (a1.landed.filter fun k => k / 64 == c / 64).foldl (fun acc k => acc + 2 ^ (k % 64)) 0
  match slotPut s die a1 (armBitmap a.desc + 8 * (c / 64)) (natLE 8 word) with
  | .error f => .error f
  | .ok s1 =>
    match publishAll (setArmed s1 die slot a1) die slot a1 (tilesDue a1 c) with
    | .error f => .error f
    | .ok r =>
      if r.2.landed.length == armChunks a.desc then .ok (addFrom r.1 die (armDonectr a.desc) 1 ⟨a.job, a.strand⟩ 8, r.2) else .ok r
/-- Land chunks in ascending order. -/
def landChunks (s : State) (die slot : Nat) (a : Armed) : List Nat → Except Flt (State × Armed)
  | [] => .ok (s, a)
  | c :: cs => match landChunk s die slot a c with | .error f => .error f | .ok r => landChunks r.1 die slot r.2 cs
/-- Write the rows of a packet from row i of the tensor on; at a line that may not leave, the rows before it stay (R342). -/
def placeRows (s : State) (die : Nat) (a : Armed) (col : Nat) : Nat → List (List Byte × List Bool) → Except Flt State
  | _, [] => .ok s
  | i, r :: rs =>
    let va := armBase a.desc + i * armPitch a.desc + col * armElem a.desc
    match (if armReduce a.desc then slotAdd s die a va r.1 r.2 else slotWrite s die a va r.1 r.2) with
    | .error f => .error f
    | .ok t =>
      match placeRows t die a col (i + 1) rs, slotReach s die a (slotVa a va) r.1.length with
      | .error f, .ok q => .error (f.after (standing t q.1))
      | x, _ => x
/-- Place a clean packet: its bytes, its counts, and what lands (R308, R309). -/
def placeTensor (s : State) (die slot : Nat) (a : Armed) (h bs : List Byte) (cs : List Bool) : Except Flt State :=
  let d := a.desc
  match placeRows s die a (hdCol h) (hdPos h) (tensorRows h (armElem d) bs cs) with
  | .error f => .error f
  | .ok s1 =>
    let hit := (List.range (armChunks d)).filter fun c => 0 < chunkShare d c (hdPos h) (hdRows h) (hdCol h) (hdCols h)
    let placed := hit.foldl (fun t c => tmod 0 t c (· + chunkShare d c (hdPos h) (hdRows h) (hdCol h) (hdCols h))) a.placed
    let a1 := { a with placed := placed }
    match landChunks (setArmed s1 die slot a1) die slot a1 (hit.filter fun c => !a.landed.contains c && decide (chunkBytes d c ≤ tget 0 placed c)) with
    | .error f => .error f
    | .ok r => .ok r.1

/-- n bytes that the spec calls unpredictable (R6, R307): drawn from the cycle count, which every context can read. -/
def unpredictableBytes (s : State) (n : Nat) : List Byte := (List.range n).map (Config.unpredictable s.cycle)

/-! ### Fates of a packet (R307, R320, R321, R448) -/

/-- A refusal as INSTANCE_NOT_ARMED: the PSN stays unaccepted. -/
def refusePacket (s : State) (p : Packet) : State := sendCtl s p.conn (.refusal p.conn p.psn (hdInst p.header))
/-- Answer a packet that is accepted or a duplicate: on its path, echoing its mark (R389, R391). -/
def answerPacket (s : State) (p : Packet) : State :=
  sendAck (s.setConn p.conn { s.conn p.conn with rxPath := p.path }) p.conn 0 p.path (if p.ecn then p.payload.length else 0)
/-- Accept the PSN and acknowledge. -/
def acceptPacket (s : State) (p : Packet) : State := answerPacket (s.setConn p.conn (rxAccept (s.conn p.conn) p.psn)) p
/-- The sender's command stops with ACCESS: the negative answer says so, ahead of the acknowledgement, and the PSN is accepted
(log entry 29). -/
def stopSender (s : State) (p : Packet) : State := acceptPacket (sendCtl s p.conn (.nack p.conn p.psn 3)) p
/-- The data of CHUNK_POISONED (R400). -/
def poisonData (psn slot chunk : Nat) : List Byte := natLE 4 psn ++ zeros 4 ++ natLE 2 slot ++ natLE 4 chunk
/-- The packet was poisoned: CHUNK_POISONED here and, by the refusal, at the sender; the PSN stays unaccepted. -/
def poisonPacket (s : State) (p : Packet) (slot chunk : Nat) : State :=
  sendCtl (leatEvent s p.port 0x06 p.conn false (poisonData p.psn slot chunk)) p.conn (.poisoned p.conn p.psn slot chunk)

/-- An arriving write of a slot fails a check (R448): a missing translation waits for its answer, anything else is offered and ends the
arming; at a line that may not leave (R342), the lines before it stay. -/
def slotFault (s : State) (die slot : Nat) (a : Armed) (f : Flt) : State :=
  match f.atsPage with
  | some page => askAts s die a.pid a.aspace page
  | none =>
    if f.code == cPageDevice then setArmed s die slot { a with waitDev := some f.info }
    else if f.code == cPageHost then
      requestPage (dropAts (setArmed s die slot { a with waitHost := some (f.page, f.info) }) die a.pid a.aspace f.page) die a.pid a.aspace f.page
    else
      let t := landBefore s die f.before
      freeSlot { t with offers := t.offers ++ [{ by_ := ⟨a.job, a.strand⟩, code := f.code, info := f.info, flags := 0, slot := 8 }] } die slot

/-- A TENSOR packet (R307). -/
def receiveTensor (s : State) (p : Packet) : State :=
  let h := p.header
  let die := hdDie h
  let slot := hdTarget h % 1024
  match s.armedSlot die slot with
  | none => refusePacket s p
  | some a =>
    let d := a.desc
    if a.inst != hdInst h || a.pid != connPid p.conn then refusePacket s p
    else if decide (armRows d < hdPos h + hdRows h) || decide (armCols d < hdCol h + hdCols h) || hdEs h != fieldLE d 24 1 ||
        (hdMx h && (armElem d != 4 || hdCols h % 32 != 0)) || p.payload.length != tensorLen h (armElem d) then stopSender s p
    else
      let chunk := hdPos h / armCr d * armNcj d + hdCol h / armCc d
      if hdPoison h || p.badIcv then
        if armReduce d then poisonPacket s p slot chunk
        else
          let n := hdRows h * hdCols h * armElem d
          match placeRows s die a (hdCol h) (hdPos h)
              (chunksOf (n / hdRows h) (hdRows h) (unpredictableBytes s n) |>.map fun r => (r, plain r.length)) with
          | .error f => refusePacket (slotFault s die slot a f) p
          | .ok t => poisonPacket t p slot chunk
      else
        match placeTensor s die slot a h p.payload p.cipher with
        | .error f => refusePacket (slotFault s die slot a f) p
        | .ok t => acceptPacket t p

/-- Graph data comes from the PEER of its operation over that rank's connection (R319). -/
def fromPeer (g : Graph) (o : List Byte) (c : Nat) : Bool := opPeer o != graphMe g.image && rankEntry g.image (opPeer o) % 2 ^ 20 == connIndex c
/-- A packet's place and length are those of a piece of LEN under one of the two payload sizes (R320, R387, R398). -/
def isCut (o : List Byte) (pos len : Nat) : Bool := [4096, 8192].any fun n => (graphCuts o n).any fun k => k.1 == pos && k.2 == len
/-- A GRAPH packet (R320, R321): of the length that its operation takes, in whole (log entry 139), and of 4-byte elements (R307). -/
def receiveGraph (s : State) (p : Packet) : State :=
  let h := p.header
  let die := hdDie h
  let slot := hdTarget h % 64
  let own := match s.graphSlot die slot with | some g => (s.job g.job).pid == connPid p.conn | none => false
  let bad := hdPoison h || p.badIcv
  let bs := if bad then unpredictableBytes s p.payload.length else p.payload
  if !own then refusePacket s p
  else
    match graphArrive s die slot (hdInst h) (bits (hdTarget h) 27 16) (hdPos h) (hdMx h) (hdMx4 h) (hdAux h) bs (if bad then plain bs.length else p.cipher)
        (!bad) (fun g o => fromPeer g o p.conn && isCut o (hdPos h) bs.length && p.total == opInLen o && hdEs h == 2) with
    | .notArmed t => refusePacket t p
    | .discard => acceptPacket s p
    | .stopSender => stopSender s p
    | .placed t => if bad then poisonPacket t p slot 0 else acceptPacket t p

/-- A COUNTER packet (R121, R386): an add to a counter of the connection's partition, applied once. -/
def receiveCounter (s : State) (p : Packet) : State :=
  let h := p.header
  let q := s.part (connPid p.conn)
  let k := mkHandle (hdTarget h) (hdDie h) (hdPos h)
  if !(hdTarget h == 1 || hdTarget h == 2) || !handleOk k || !handleIn q q.hasMill k || decide (2 ^ 62 ≤ hdAux h) then stopSender s p
  else acceptPacket (applyAdd s k (hdAux h)) p

/-- The largest frame of a long-haul port (R394). -/
def longFrame : Nat := 9216
/-- A port accepts a frame under the active association and the one installed before it (R395); any other fails its check and is
replayed by the link partner (R393). -/
def macAccepts (m : Mac) (an : Nat) : Bool := !m.on || an == m.rx || some an == m.old
/-- The first frame under the newer association ends the older (R395). -/
def noteMac (s : State) (port an : Nat) : State :=
  let p := s.port port
  if p.mac.on && an == p.mac.rx && p.mac.old.isSome then s.setPort port { p with mac := { p.mac with old := none } } else s
/-- A frame arrives on a port under an association (R395, R400, R401): a link that is down, a waiting LINK_DOWN or HOST_LOST, or another
association stops it. -/
def takeFrame (s : State) (port an : Nat) (k : State → State) : State :=
  if (s.port port).down || portBlocked s port || !macAccepts (s.port port).mac an then s else k (noteMac s port an)
/-- A control frame arrives on a connection's port; its association is a free value (log entry 138). -/
def takeControl (s : State) (port : Nat) (k : State → State) : State := takeFrame s port (Config.frameAn s.ticks % 4) k
/-- What every packet passes before its type matters (R384, R386, R389, R394 to R396, R400, R401). A duplicate is acknowledged while the entry
is CLOSING too (R389, R420). -/
def receivePacket (s0 : State) (p : Packet) (k : State → State) : State :=
  takeFrame s0 p.port p.an fun s =>
    let q := s.port p.port
    let st := connState (s.conn p.conn).entry
    if p.mode != 0 || p.badAuth || !headerOk p.header || (q.longHaul && decide (longFrame < packetBytes q p.header p.payload.length)) then
      discardPacket s p.port
    else if st != 2 && st != 3 then s
    else if rxHas (s.conn p.conn) p.psn then answerPacket s p
    else if st != 2 then s
    else if p.trimmed then sendCtl s p.conn (.trimAck p.conn p.psn)
    else k s

/-- DATA_PACKET_RECEIVE (R307, R320). -/
def execDataPacketReceive (p : Packet) (s : State) : Out :=
  done (receivePacket s p fun t =>
    match hdType p.header with
    | 1 => receiveTensor t p
    | 2 => receiveGraph t p
    | _ => discardPacket t p.port)
/-- COUNTER_PACKET_RECEIVE (R121, R399). -/
def execCounterPacketReceive (p : Packet) (s : State) : Out :=
  done (receivePacket s p fun t => if hdType p.header == 3 then receiveCounter t p else discardPacket t p.port)

/-! ### Answers to the sender (R389 to R392, R401) -/

/-- A PSN that a sender knows to be acknowledged. -/
def txAcked (x : Conn) (psn : Nat) : Bool := psnLe psn x.ackCum || x.ackSel.contains psn
/-- What may complete once packets are acknowledged. -/
def afterAck (s : State) (c : Nat) (ks : List Sent) : State :=
  let one (t : State) (k : Sent) : State :=
    match t.cmd k.cmd with
    | some e =>
      (match k.op with
       | some o => t.push [.chunkOperationComplete (coreDie e.core) e.slot o]
       | none => t.push [.engineCommandComplete e.id])
    | none => t
  let s1 := ks.foldl one s
  let s2 := if connState (s1.conn c).entry == 3 && (s1.conn c).sent.isEmpty then s1.push [.connectionClosed c] else s1
  sendOut s2 c
/-- Apply an acknowledgement (R389): its cumulative PSN when it lies ahead within what was sent, and its selective bits. -/
def applyAck (s : State) (c cum bitmap credit : Nat) : State :=
  let x := s.conn c
  let ahead := (cum + 2 ^ 32 - x.ackCum) % 2 ^ 32
  let span := (x.nextPsn + 2 ^ 32 - 1 - x.ackCum) % 2 ^ 32
  let adv := ahead != 0 && decide (ahead ≤ span)
  let cum1 := if adv then cum else x.ackCum
  let sel := x.ackSel ++ ((List.range 64).filter fun k => bitmap.testBit k).map fun k => (cum + 1 + k) % 2 ^ 32
  let x1 := { x with ackCum := cum1, ackSel := sel.eraseDups.filter fun p => !psnLe p cum1,
                     credit := x.credit + credit }
  let left := x.sent.filter fun k => !txAcked x1 k.psn
  let timer := if left.isEmpty then false else if adv then true else x.timerOn
  afterAck (s.setConn c { x1 with sent := left, timerOn := timer, timerAt := if adv then s.fabricTime else x.timerAt }) c (x.sent.filter fun k => txAcked x1 k.psn)

/-- ACK_RECEIVE (R389 to R391, R421): an acknowledgement is applied; one with a nonzero bitmap is reported as SACK_RX, one with a zero bitmap
is not (log entry 123), and echoed marks as ECN_MARK (marked is the bytes since the last). -/
def execAckReceive (c cum bitmap credit marked : Nat) (s0 : State) : Out :=
  done (takeControl s0 (s0.conn c).port fun s =>
    let x := s.conn c
    if !(connState x.entry == 2 || connState x.entry == 3) then s
    else
      let s1 := applyAck s c (cum % 2 ^ 32) (bitmap % 2 ^ 64) credit
      let s2 := if bitmap % 2 ^ 64 == 0 then s1 else leatEvent s1 x.port 0x01 c false (natLE 4 cum ++ natLE 8 bitmap)
      if marked == 0 then s2 else leatEvent s2 x.port 0x04 c false (natLE 4 cum ++ natLE 4 marked))

/-- Report an event about an unacknowledged packet. -/
def reportSent (s : State) (c psn code : Nat) (data : List Byte) : State :=
  if (sentPacket s c psn).isSome then leatEvent s (s.conn c).port code c false (natLE 4 psn ++ data) else s
/-- INSTANCE_NOT_ARMED (R392, R400): the refusal reaches the sender, and the PSN keeps its place. -/
def execInstanceNotArmed (c psn inst slot : Nat) (s : State) : Out :=
  .next (takeControl s (s.conn c).port fun t => reportSent t c psn 0x07 (natLE 4 inst ++ natLE 2 slot))
/-- TRIM_RX (R391, R400). -/
def execTrimRx (c psn : Nat) (s : State) : Out := .next (takeControl s (s.conn c).port fun t => reportSent t c psn 0x05 [])
/-- NACK_RX (R400): reasons 1 and 2 are reported to the leat core; 3 stops the sender's command, or refuses an add, with ACCESS
(R121, R307, R320); from 256 on it is a CHUNK_POISONED refusal, of the slot and chunk in the rest of the number (R390, R401; log entry 29). -/
def execNackRx (c psn reason : Nat) (s0 : State) : Out :=
  done (takeControl s0 (s0.conn c).port fun s =>
    if 256 ≤ reason then reportSent s c psn 0x06 ((poisonData psn ((reason - 256) % 1024) ((reason - 256) / 1024)).drop 4)
    else if reason != 3 then reportSent s c psn 0x02 (natLE 1 reason)
    else
      match sentPacket s c psn with
      | none => s
      | some k =>
        let x := s.conn c
        let s1 := s.setConn c { x with sent := x.sent.filter fun q => q.psn != psn, ackSel := if psnLe psn x.ackCum then x.ackSel else psn :: x.ackSel }
        afterAck (if k.cmd == 0 then refuseAdds s1 [k] else stopById s1 k.cmd) c [])
/-- RTO_EXPIRED (R390, R415): the timeout has passed since the timer's last restart: the oldest unacknowledged PSN, and its
resends; the timer stops. -/
def execRtoExpired (c : Nat) (s : State) : Out :=
  let x := s.conn c
  match x.sent with
  | [] => .next s
  | k :: _ =>
    if !x.timerOn || decide (s.fabricTime < x.timerAt + x.timeout) then .next s
    else .next (leatEvent (s.setConn c { x with timerOn := false }) x.port 0x03 c false (natLE 4 k.psn ++ natLE 4 (k.tx - 1)))

/-! ### Ports (R393, R395 to R397, R401) -/

/-- LLR_REPLAY (R393): frames that the retry buffer holds are sent again, and the replay is reported. -/
def execLlrReplay (port frames first : Nat) (s : State) : Out :=
  let fs := (s.port port).retry.filter fun f => decide (first ≤ f.1) && decide (f.1 < first + frames)
  if fs.isEmpty || fs.length != frames then .next s
  else .next (leatEvent (fs.foldl (fun t f => t.emit f.2) s) port 0x0A noConn false (natLE 4 frames ++ natLE 4 first))
/-- KEY_EXPIRY (R395, R396): the active association of a port has reached the rekey mark, or a sublayer key has expired. -/
def execKeyExpiry (port conn key pn : Nat) (sublayer : Bool) (s : State) : Out :=
  if !sublayer && !((s.port port).mac.on && (s.port port).mac.tx == key && decide ((s.port port).mac.rekeyMark ≤ (s.port port).macPn)) then .next s
  else .next (leatEvent s port 0x0B (if sublayer then conn else noConn) sublayer (natLE 1 key ++ zeros 7 ++ natLE 8 pn))
/-- PTP_TIME_CORRECTION (R397): at the package's PTP client port. A forward correction of more than 1 µs steps; every other one is slewed,
and time never runs back. -/
def execPtpTimeCorrection (backward : Bool) (ns : Nat) (s : State) : Out :=
  match s.mgmt.ptpPort with
  | none => .next s
  | some port => .next (if !(s.port port).down && !backward && decide (1000 < ns) then { s with timeShift := s.timeShift + ns } else s)

/-- The connections that use a port. -/
def portConns (s : State) (port : Nat) : List Nat :=
  ((s.parts.map fun p => (p.2.conns.filter fun c => c.2.port == port && connState c.2.entry == 2).map fun c => connId p.1 c.1)).flatten
/-- A port sends what it can: control frames held back, then for each of its connections held resends and the queue. -/
def sendPort (s : State) (port : Nat) : State := (portConns s port).foldl sendOut (sendStopped s port)
/-- LINK_PARTNER_ACKNOWLEDGEMENT (R393, R394): frames up to this one leave the retry buffer, and the room lets the port send. -/
def execLinkPartnerAcknowledgement (port frame : Nat) (s : State) : Out :=
  let p := s.port port
  let s1 := s.setPort port { p with retry := p.retry.filter fun f => decide (frame < f.1) }
  done (if p.buffer == 0 then s1 else sendPort s1 port)
/-- LINK_DOWN (R21, R400, R401): the lanes of the mask are down; every connection keeps its state. -/
def execLinkDown (port mask : Nat) (s : State) : Out :=
  let p := s.port port
  .next (leatEvent (s.setPort port { p with lanesDown := p.lanesDown ||| mask % 16 }) port 0x0C noConn false (natLE 1 mask))
/-- LINK_UP: the port's lanes are up, and it sends again what its connections hold. -/
def execLinkUp (port : Nat) (s : State) : Out := done (sendPort (s.setPort port { s.port port with lanesDown := 0 }) port)

/-! ### Connections (R398) -/

/-- CONN_REQ (R398, R400): a peer asks; the request waits for the leat core's answer. -/
def execConnReq (port node : Nat) (addr : List Byte) (s : State) : Out :=
  .next (takeControl s port fun t =>
    let p := t.port port
    leatEvent (t.setPort port { p with requests := p.requests ++ [(node, padTo 16 addr)] }) port 0x08 noConn false (natLE 4 node ++ padTo 8 addr))
/-- The lowest usable port of an entry (R398). -/
def usablePort (s : State) (e : List Byte) : Option Nat :=
  ((List.range 6).filter fun k => (connPorts e).testBit k && !(s.port (6 * connDie e + k)).down).head?.map fun k => 6 * connDie e + k
/-- CONNECTION_HANDSHAKE_COMPLETE (R398): OPENING becomes OPEN. -/
def execConnectionHandshakeComplete (c : Nat) (s : State) : Out :=
  .next (takeControl s (s.conn c).port fun t =>
    let x := t.conn c
    if connState x.entry != 1 then t else t.setConn c { x with entry := setLE x.entry 0 1 2 })
/-- CONN_CLOSE from the peer (R398, R400). -/
def execConnClose (c : Nat) (s : State) : Out := done (takeControl s (s.conn c).port fun t => closeConn t c 1)
/-- CONNECTION_CLOSED (R398): every sent packet is acknowledged or abandoned. -/
def execConnectionClosed (c : Nat) (s : State) : Out := done (finishClose s c)

end Sys2Proof.Machine
end

