-- ==== Sys2Proof/Machine/Leat.lean ====
section
/-! DEFINITION. The leat core's moves (R402 to R417): sources, registers and operand ports, and one meaning for each trigger port. The
issuing leat core stands in the cursor as 1000 + its index; results land after their unit's latency (R405). -/

namespace Sys2Proof.Machine

/-! ### Sources and destinations (R403, R404) -/

/-- The issuing leat core. -/
def State.leatIx (s : State) : Nat := s.cur.core - 1000
def State.leatNow (s : State) : Leat := s.leat s.leatIx
def State.onLeat (s : State) (f : Leat → Leat) : State := s.setLeat s.leatIx (f s.leatNow)
/-- Sign-extend an n-bit number to a word. -/
def sextWord (n x : Nat) : Word := BitVec.ofInt 64 (sint n x)
/-- The value of a source (R403). EVQ.N and TMR.X are those of the start of the cycle. -/
def leatSource (s : State) (m : LM) : Word :=
  let x := s.leatNow
  let c := m.src
  if c < 0x40 then tget 0 x.b c
  else if c < 0x44 then (if x.q.getLsbD (c - 0x40) then 1 else 0)
  else if c == 0x103 then BitVec.ofNat 64 ((s.cur.leatSeen.map (·.1)).getD x.queue.length)
  else if c == 0x107 then BitVec.ofNat 64 ((s.cur.leatSeen.map (·.2)).getD x.tmrx).toNat
  else if c < 0x107 then tget 0 x.result c
  else if c == 0x108 then BitVec.ofNat 64 (s.dieTime (s.leatIx / 3))
  else if c == 0x109 then BitVec.ofNat 64 s.leatCycle
  else if c == 0x10A then BitVec.ofNat 64 (s.leatIx / 3 + s.leatIx % 3 * 8)
  else if c == 0x7FF then sextWord 32 m.imm
  else sextWord 11 (c % 2 ^ 11)
/-- The guard of a move (R402). -/
def leatGuard (s : State) (m : LM) : Bool := !m.gen || (s.leatNow.q.getLsbD m.gq != m.ginv)

/-- A result lands after a number of cycles (R405). -/
def leatGive (s : State) (r : LeatResult) (left : Nat) : State := s.onLeat fun x => { x with flight := x.flight ++ [⟨r, left⟩] }
/-- An operand port. -/
def leatPort (s : State) (c : Nat) : Word := tget 0 s.leatNow.operand c
/-- A trigger faults: its word takes no effect, and the core stops (R418). -/
def leatRaise (s : State) (code : Nat) : State := { s with cur := { s.cur with aborted := true, leatFault := code } }
/-- The issue of a move: nothing once the word has faulted, or when the guard fails. -/
def leatOp (m : LM) (s : State) (k : State → Word → State) : State :=
  if s.cur.aborted || !leatGuard s m then s else k s (leatSource s m)

/-- MOVE to a register, q or operand port (R404, R405): an operand port takes the value at once, a register in the next cycle. -/
def execMove (m : LM) (dst : Nat) (s : State) : Out :=
  .next (leatOp m s fun t v =>
    if dst < 0x44 then leatGive t (.reg dst v) 1
    else t.onLeat fun x => { x with operand := tput 0 x.operand dst v })

/-! ### ALU (R408) -/

/-- An ALU operation on A = ALU.A and T. -/
def aluOp (m : LM) (s : State) (f : Word → Word → Word) : Out :=
  .next (leatOp m s fun t v => leatGive t (.port 0x100 (f (leatPort t 0x100) v)) 1)
def boolWord (b : Bool) : Word := if b then 1 else 0

/-- ALU.ADD. -/
def execAluAdd (m : LM) (s : State) : Out := aluOp m s fun a t => a + t
/-- ALU.SUB. -/
def execAluSub (m : LM) (s : State) : Out := aluOp m s fun a t => a - t
/-- ALU.AND. -/
def execAluAnd (m : LM) (s : State) : Out := aluOp m s fun a t => a &&& t
/-- ALU.OR. -/
def execAluOr (m : LM) (s : State) : Out := aluOp m s fun a t => a ||| t
/-- ALU.XOR. -/
def execAluXor (m : LM) (s : State) : Out := aluOp m s fun a t => a ^^^ t
/-- ALU.SHL: 0 from 64 on. -/
def execAluShl (m : LM) (s : State) : Out := aluOp m s fun a t => a <<< t.toNat
/-- ALU.SHR: 0 from 64 on. -/
def execAluShr (m : LM) (s : State) : Out := aluOp m s fun a t => a >>> t.toNat
/-- ALU.SRA: copies of A[63] from 64 on. -/
def execAluSra (m : LM) (s : State) : Out := aluOp m s fun a t => a.sshiftRight t.toNat
/-- ALU.EQ. -/
def execAluEq (m : LM) (s : State) : Out := aluOp m s fun a t => boolWord (a == t)
/-- ALU.LT. -/
def execAluLt (m : LM) (s : State) : Out := aluOp m s fun a t => boolWord (a.slt t)
/-- ALU.LTU. -/
def execAluLtu (m : LM) (s : State) : Out := aluOp m s fun a t => boolWord (a.ult t)
/-- ALU.SEL: by bit 0 of ALU.C. -/
def execAluSel (m : LM) (s : State) : Out :=
  .next (leatOp m s fun t v => leatGive t (.port 0x100 (if (leatPort t 0x101).getLsbD 0 then leatPort t 0x100 else v)) 1)

/-! ### LSU (R409) -/

/-- The connection window of a pair: the port's place, the connection index and the byte within the entry. -/
def windowBase : Nat := 0x10000000
def inWindow (a : Nat) : Bool := decide (windowBase ≤ a) && decide (a < windowBase + 2 * 0x4000000)
def inDmem (a n : Nat) : Bool := decide (a + n ≤ 0x40000)
/-- A port of the issuing leat core by its place in the pair. -/
def pairPort (s : State) (side : Nat) : Nat := s.leatIx / 3 * 6 + s.leatIx % 3 * 2 + side
/-- The partition that owns a port (R335). -/
def portOwner (s : State) (port : Nat) : Option Nat := (s.parts.find? fun p => p.2.st != .free && p.2.hasPort port).map (·.1)
/-- The connection that an address of the window names, and the byte. -/
def windowConn (s : State) (a : Nat) : Option (Nat × Nat) :=
  (portOwner s (pairPort s ((a - windowBase) / 0x4000000))).map fun p => (connId p ((a - windowBase) % 0x4000000 / 64), a % 64)
/-- The bytes of a connection's entry. -/
def entryBytes (s : State) (c : Nat) : List Byte := padTo 64 (s.conn c).entry

/-- A load of n bytes (R409). -/
def lsuLoad (n : Nat) (m : LM) (s : State) : Out :=
  .next (leatOp m s fun t v =>
    let a := v.toNat
    if a % n != 0 then leatRaise t cAlign
    else if inDmem a n then leatGive t (.port 0x101 (BitVec.ofNat 64 (leNat (t.leatNow.dmem.bytes a n)))) 2
    else if inWindow a then
      match windowConn t a with
      | some w => leatGive t (.port 0x101 (BitVec.ofNat 64 (fieldLE (entryBytes t w.1) w.2 n))) 2
      | none => leatRaise t cAccess
    else leatRaise t cAccess)
/-- A store of n bytes of LSU.D (R409). -/
def lsuStore (n : Nat) (m : LM) (s : State) : Out :=
  .next (leatOp m s fun t v =>
    let a := v.toNat
    let d := (leatPort t 0x120).toNat
    if a % n != 0 then leatRaise t cAlign
    else if inDmem a n then t.onLeat fun x => { x with dmem := x.dmem.store a (natLE n d) }
    else if inWindow a then
      match windowConn t a with
      | some w =>
        if w.2 == 0 || connState (entryBytes t w.1) != 0 then leatRaise t cAccess
        else let x := t.conn w.1; t.setConn w.1 { x with entry := setLE (entryBytes t w.1) w.2 n d }
      | none => leatRaise t cAccess
    else leatRaise t cAccess)
/-- LSU.LD32. -/
def execLsuLd32 (m : LM) (s : State) : Out := lsuLoad 4 m s
/-- LSU.LD64. -/
def execLsuLd64 (m : LM) (s : State) : Out := lsuLoad 8 m s
/-- LSU.ST32. -/
def execLsuSt32 (m : LM) (s : State) : Out := lsuStore 4 m s
/-- LSU.ST64. -/
def execLsuSt64 (m : LM) (s : State) : Out := lsuStore 8 m s

/-! ### EVQ (R411) -/

/-- The queue as POP and PEEK see it (R411): empty when it stood empty at the start of the cycle. -/
def leatQueue (s : State) : List EventRec :=
  match s.cur.leatSeen with
  | some (0, _) => []
  | _ => s.leatNow.queue
/-- EVQ.POP: the head record's bytes and EVQ.R land two cycles later. With a record in hand, the fabric firmware has an occasion to set the core's
ports up anew (log entry 107). -/
def execEvqPop (m : LM) (s : State) : Out :=
  .next (leatOp m s fun t v =>
    let a := v.toNat
    if a % 32 != 0 then leatRaise t cAlign
    else if !inDmem a 32 then leatRaise t cAccess
    else
      match leatQueue t with
      | [] => leatGive t (.port 0x102 0) 2
      | r :: rs =>
        let u := leatGive (leatGive (t.onLeat fun x => ({ x with queue := rs } : Leat).refill) (.pop a (recordOf r)) 2) (.port 0x102 1) 2
        firmwareTurn (firmwareTurn u (pairPort u 0)) (pairPort u 1))
/-- EVQ.PEEK: one 64-bit word of the head record. -/
def execEvqPeek (m : LM) (s : State) : Out :=
  .next (leatOp m s fun t v =>
    let w := match leatQueue t with
      | [] => 0
      | r :: _ => fieldLE (recordOf r) (8 * (v.toNat % 4)) 8
    leatGive t (.port 0x102 (BitVec.ofNat 64 w)) 2)

/-! ### Connections as the units name them (R410, R412) -/

/-- The port that a connection word names, and the connection of the partition that owns it. -/
def wordPort (s : State) (w : Word) : Nat := pairPort s (bits w.toNat 9 9)
def wordConn (s : State) (w : Word) : Option Nat :=
  if bits w.toNat 63 52 != 0 then none else (portOwner s (wordPort s w)).map fun p => connId p (bits w.toNat 63 32)
/-- A connection is OPEN and carried by one of the core's ports (R412). -/
def wordOpen (s : State) (w : Word) : Option Nat :=
  match wordConn s w with
  | some c => if connState (s.conn c).entry == 2 && portLeat (s.conn c).port == s.leatIx then some c else none
  | none => none
/-- The checks of an entry that is opened (R398). -/
def entryOk (s : State) (p : Partition) (e : List Byte) : Bool :=
  decide (fieldLE e 1 1 < 2) && decide (connPorts e < 64) && decide (1 ≤ connNpath e) && decide (connNpath e ≤ 16) && fieldLE e 7 1 == 0 &&
  decide (connTss e < 128) && p.hasKey (connTss e) && decide (fieldLE e 37 1 < 8) && fieldLE e 38 2 == 0 && allZero ((padTo 64 e).drop 52) &&
  allZero ((padTo 64 e).take 24 |>.drop 14) && ((List.range 6).all fun k => !(connPorts e).testBit k || p.hasPort (6 * connDie e + k)) &&
  (List.range 6).all fun k => !(connPorts e).testBit k || connPayload e == if (s.port (6 * connDie e + k)).longHaul then 8192 else 4096
/-- An entry begins to open on a port: its transport state is fresh (R389). -/
def openEntry (s : State) (c port : Nat) : State :=
  s.setConn c { entry := setLE (padTo 64 (s.conn c).entry) 0 1 1, port := port }

/-- The partition of a connection has fewer than 65,536 entries that are not CLOSED (R398). -/
def tableRoom (s : State) (c : Nat) : Bool :=
  decide (((s.part (connPid c)).conns.filter fun e => connState e.2.entry != 0).length < 65536)

/-! ### TXU (R412, R413) -/

/-- TXU.R lands two cycles later. -/
def txuGive (s : State) (status : Nat) : State := leatGive s (.port 0x104 (BitVec.ofNat 64 status)) 2

/-- TXU.P moves a connection: the port, when the entry may use it and it is up. -/
def movePort (s : State) (c : Nat) (p : Word) : Option Nat :=
  let e := (s.conn c).entry
  let k := bits p.toNat 7 5
  let port := 6 * connDie e + k
  if !p.getLsbD 8 then some (s.conn c).port
  else if decide (k < 6) && (connPorts e).testBit k && !(s.port port).down then some port else none

/-- A PSN has been sent on a connection: it is one of those numbered, at most 2^31 back. -/
def psnSent (x : Conn) (psn : Nat) : Bool := decide ((x.nextPsn + 2 ^ 32 - 1 - psn % 2 ^ 32) % 2 ^ 32 < Nat.min x.numbered (2 ^ 31))
/-- TXU.RETX: a RETX that is accepted restarts the connection's timer (R415), whether a limit holds it or not. -/
def execTxuRetx (m : LM) (s : State) : Out :=
  .next (leatOp m s fun t v =>
    let p := leatPort t 0x151
    let psn := v.toNat % 2 ^ 32
    match wordOpen t (leatPort t 0x150) with
    | none => txuGive t 2
    | some c =>
      let x := t.conn c
      match movePort t c p with
      | none => txuGive t 5
      | some port =>
        if !psnSent x psn then txuGive t 3
        else
          match sentPacket t c psn with
          | none => txuGive t 1
          | some k =>
            txuGive (offerAll (resend (t.setConn c { x with port := port, timerOn := true, timerAt := t.fabricTime }) c k
              (if p.getLsbD 4 then bits p.toNat 3 0 else connPath x.entry psn))) 0)
/-- TXU.ACKNOW. -/
def execTxuAcknow (m : LM) (s : State) : Out :=
  .next (leatOp m s fun t v =>
    match wordOpen t (leatPort t 0x150) with
    | none => txuGive t 2
    | some c =>
      let x := t.conn c
      let n := v.toNat % 2 ^ 16
      txuGive (sendAck (t.setConn c { x with granted := x.granted + n }) c n x.rxPath 0) 0)

/-- A transmit descriptor whose fields pass (R412). -/
def txdescOk (d : List Byte) : Bool :=
  let k := fieldLE d 0 1
  decide (1 ≤ k) && decide (k ≤ 5) && (if k == 5 then decide (fieldLE d 1 1 < 16) else fieldLE d 1 1 == 0) && allZero (d.drop 2)
/-- CONNECT, ACCEPT and REJECT: the entry is CLOSED and passes R398, and one of the core's ports carries it. -/
def txdescOpen (s : State) (k : Nat) (w : Word) : State × Nat :=
  match wordConn s w with
  | none => (s, 2)
  | some c =>
    let e := entryBytes s c
    let port := wordPort s w
    let q := s.port port
    let ready := connState e == 0 && entryOk s (s.part (connPid c)) e &&
      (match usablePort s e with | some u => portLeat u == s.leatIx | none => false)
    if k == 1 then
      (if ready && tableRoom s c then (let t := openEntry s c ((usablePort s e).getD 0); (sendCtl t c (.handshake c 1), 0)) else (s, 2))
    else if connState e != 0 || (k == 2 && !(ready && tableRoom s c)) then (s, 2)
    else
      let mine (r : Nat × List Byte) : Bool := r.1 == connNode e && r.2 == padTo 16 ((e.drop 8).take 16)
      match q.requests.find? mine with
      | none => (s, 4)
      | some r =>
        let s1 := s.setPort port { q with requests := q.requests.erase r }
        if k == 2 then (let t := openEntry s1 c ((usablePort s e).getD 0); (sendCtl t c (.handshake c 2), 0))
        else (sendOn s1 port (.handshake c 3), 0)
/-- PROBE (R412): a header-only packet on a path of the port's table. -/
def sendProbe (s : State) (c path : Nat) : State :=
  sendCtl s c (.probe c (portPath s (s.conn c).port path))
/-- TXU.TXDESC. -/
def execTxuTxdesc (m : LM) (s : State) : Out :=
  .next (leatOp m s fun t v =>
    let a := v.toNat
    let w := leatPort t 0x150
    if a % 32 != 0 then leatRaise t cAlign
    else if !inDmem a 32 then leatRaise t cAccess
    else
      let d := t.leatNow.dmem.bytes a 32
      let k := fieldLE d 0 1
      if !txdescOk d then txuGive t 4
      else if k ≤ 3 then let r := txdescOpen t k w; txuGive r.1 r.2
      else
        match wordOpen t w with
        | none => txuGive t 2
        | some c => txuGive (if k == 4 then offerAll (closeConn t c 4) else sendProbe t c (fieldLE d 1 1)) 0)

/-! ### BMU (R416) -/

/-- The least bit at or above n that is 0, or 64; fuel counts the bits left. -/
def firstClear (a : Word) : Nat → Nat → Nat
  | 0, _ => 64
  | k + 1, n => if 64 ≤ n then 64 else if a.getLsbD n then firstClear a k (n + 1) else n
/-- A BMU operation on A = BMU.A and T. -/
def bmuOp (m : LM) (s : State) (f : Word → Word → Word) : Out :=
  .next (leatOp m s fun t v => leatGive t (.port 0x105 (f (leatPort t 0x170) v)) 1)
/-- BMU.BSET. -/
def execBmuBset (m : LM) (s : State) : Out := bmuOp m s fun a n => if n.toNat < 64 then a ||| BitVec.ofNat 64 (2 ^ n.toNat) else a
/-- BMU.BTEST. -/
def execBmuBtest (m : LM) (s : State) : Out := bmuOp m s fun a n => boolWord (a.getLsbD n.toNat)
/-- BMU.BFFC. -/
def execBmuBffc (m : LM) (s : State) : Out := bmuOp m s fun a n => BitVec.ofNat 64 (firstClear a 64 n.toNat)
/-- BMU.BCNT. -/
def execBmuBcnt (m : LM) (s : State) : Out :=
  bmuOp m s fun a t => BitVec.ofNat 64 ((List.range 64).filter fun i => (a &&& t).getLsbD i).length

/-! ### CCU (R414) -/

/-- The rate in Mb/s of the port that carries a connection (R21, R384): 800, 400 or 200 Gb/s. -/
def portRate (s : State) (port : Nat) : Nat := 800000 / 2 ^ (s.port port).split
/-- A limit of a connection is set: CCU.R is 0, or 2 under the conditions of R412; what it lets go is sent. -/
def ccuOp (m : LM) (s : State) (f : State → Nat → Conn → Conn) : Out :=
  .next (leatOp m s fun t v =>
    match wordOpen t (leatPort t 0x190) with
    | none => leatGive t (.port 0x106 2) 2
    | some c => leatGive (offerAll (sendOut (t.setConn c (f t (v.toNat % 2 ^ 32) (t.conn c))) c)) (.port 0x106 0) 2)
/-- CCU.WINUPD. -/
def execCcuWinupd (m : LM) (s : State) : Out := ccuOp m s fun _ n x => { x with window := some n }
/-- CCU.RATESET. -/
def execCcuRateset (m : LM) (s : State) : Out := ccuOp m s fun t n x => { x with rate := some (Nat.min n (portRate t x.port)) }

/-! ### TMR and CTR (R415, R417) -/

/-- Clear a bit of TMR.X. -/
def Leat.clearX (x : Leat) (n : Nat) : BitVec 16 := x.tmrx &&& ~~~(BitVec.ofNat 16 (2 ^ n))
/-- TMR.TARM: a connection's timer or a program timer. -/
def execTmrTarm (m : LM) (s : State) : Out :=
  .next (leatOp m s fun t v =>
    let w := leatPort t 0x1B0
    if w.getLsbD 63 then
      t.onLeat fun x => { x with timers := tins x.timers (w.toNat % 16) (some (t.fabricTime + v.toNat)), tmrx := x.clearX (w.toNat % 16) }
    else
      match wordConn t w with
      | some c => let x := t.conn c; t.setConn c { x with timeout := v.toNat % 2 ^ 32, timerOn := !x.sent.isEmpty, timerAt := t.fabricTime }
      | none => t)
/-- TMR.TCANCEL. -/
def execTmrTcancel (m : LM) (s : State) : Out :=
  .next (leatOp m s fun t _ =>
    let w := leatPort t 0x1B0
    if w.getLsbD 63 then
      t.onLeat fun x => { x with timers := tdel x.timers (w.toNat % 16), tmrx := x.clearX (w.toNat % 16) }
    else
      match wordConn t w with
      | some c => let x := t.conn c; t.setConn c { x with timerOn := false }
      | none => t)
/-- CTR.CADD (R417): on a counter of a partition that owns one of the core's ports. -/
def execCtrCadd (m : LM) (s : State) : Out :=
  .next (leatOp m s fun t v =>
    let h := (leatPort t 0x1D0).toNat
    let k := hKind h
    let owners := [portOwner t (pairPort t 0), portOwner t (pairPort t 1)].filterMap id
    if !(k == 1 || k == 2 || k == 3) || !handleOk h || decide (2 ^ 62 ≤ v.toNat) then leatRaise t cCounterHandle
    else if owners.any fun p => handleIn (t.part p) (t.part p).hasMill h then applyAdd t h v.toNat
    else leatRaise t cAccess)

/-! ### PC (R407) -/

/-- A PC trigger: in the delay slot of another it raises ILLEGAL_BUNDLE. -/
def pcOp (m : LM) (s : State) (k : State → Word → State) : Out :=
  .next (leatOp m s fun t v => if t.leatNow.target.isSome then leatRaise t cIllegalBundle else k t v)
/-- Go to a target after the delay slot. -/
def pcGo (s : State) (a : Nat) : State := { s with cur := { s.cur with leatTarget := some a } }
/-- The fault of a target. -/
def pcFault (a : Nat) : Option Nat := firstFail [(a % 16 == 0, cAlign), (decide (a < 65536), cBound)]
/-- PC.JUMP. -/
def execPcJump (m : LM) (s : State) : Out :=
  pcOp m s fun t v => match pcFault v.toNat with | some f => leatRaise t f | none => pcGo t v.toNat
/-- PC.CALL: the address of the word after the delay slot is pushed. -/
def execPcCall (m : LM) (s : State) : Out :=
  pcOp m s fun t v =>
    match pcFault v.toNat with
    | some f => leatRaise t f
    | none =>
      if 8 ≤ t.leatNow.stack.length then leatRaise t cBound
      else pcGo (t.onLeat fun x => { x with stack := (x.pc + 32) % 65536 :: x.stack }) v.toNat
/-- PC.RET. -/
def execPcRet (m : LM) (s : State) : Out :=
  pcOp m s fun t _ =>
    match t.leatNow.stack with
    | [] => leatRaise t cBound
    | a :: as => pcGo (t.onLeat fun x => { x with stack := as }) a
/-- PC.HALT: the core stops after its word. -/
def execPcHalt (m : LM) (s : State) : Out := pcOp m s fun t _ => { t with cur := { t.cur with leatHalt := true } }

/-! ### Events of a leat core (R415, R418) -/

/-- PROGRAM_TIMER_EXPIRY (R415): an armed program timer whose time has come sets its bit of TMR.X. -/
def execProgramTimerExpiry (leat n : Nat) (s : State) : Out :=
  let x := s.leat leat
  if !((tget none x.timers (n % 16)).any fun e => decide (e ≤ s.fabricTime)) then .next s
  else .next (s.setLeat leat { x with timers := tdel x.timers (n % 16), tmrx := x.tmrx ||| BitVec.ofNat 16 (2 ^ (n % 16)) })
/-- LCTL_RUN (R418): a write of a leat core's LCTL; during an activation's pause the cores stay halted (R427). -/
def execLctlRun (leat value : Nat) (s : State) : Out :=
  if decide (24 ≤ leat) || s.fabricPaused then .next s else .next (lctlWrite s leat value)

end Sys2Proof.Machine
end

