-- ==== Sys2Proof/Machine/Requests.lean ====
section
/-! DEFINITION. Management requests (R443): partition descriptors and states (R335 to R339), launch-queue, address-space and gang
descriptors (R350, R368, R369, R361), invalidations (R373), connections (R398), key slots (R339), host loss (R383), the partition record
and the measurement-event list (R382, R429). -/

namespace Sys2Proof.Machine

/-! ### Requests and responses (R443, R427) -/

/-- Statuses of R443. -/
def stOk : Nat := 0
def stRefused : Nat := 1
def stBusy : Nat := 2
def stUnknown : Nat := 3
/-- The response to a request (R443): its header, the status, and data. -/
def replyWith (s : State) (op tag status : Nat) (data : List Byte) : State :=
  s.emit (.mgmtReply (natLE 2 op ++ natLE 2 tag ++ natLE 4 (4 + data.length) ++ natLE 4 status ++ data))
def reply (s : State) (op tag status : Nat) : State := replyWith s op tag status []
/-- Requests are served one at a time (R337): they wait while the management firmware is being replaced (R427), and behind an invalidation
that is not complete (R373). -/
def State.mgmtWaits (s : State) : Bool := s.mgmtPaused || s.mgmt.invals.any (·.doe)
/-- A request waits its turn. -/
def waitReq (s : State) (r : Request) : State := s.onMgmt fun m => { m with doeQueue := m.doeQueue ++ [r] }
/-- Serve a request: refused without a change unless a new state is given. -/
def serve (r : Request) (s : State) (t : Option State) : Out :=
  if s.mgmtWaits then .next (waitReq s r)
  else
    match t with
    | some t => done (reply t r.op r.tag stOk)
    | none => .next (reply s r.op r.tag stRefused)
/-- A partition whose descriptors the host may write. -/
def Partition.open_ (p : Partition) : Bool := p.st == .configured || p.st == .active

/-- READ_BOOT_STATUS (R444). -/
def bootStatus (s : State) : Nat := s.mgmt.boots % 2 ^ 24 * 256 + s.mgmt.bootBits % 8
def execReadBootStatus (tag : Nat) (s : State) : Out :=
  if s.mgmtWaits then .next (waitReq s ⟨0x01, tag, [], []⟩)
  else .next (replyWith s 0x01 tag stOk (natLE 4 (bootStatus s)))

/-! ### Partition descriptors (R335, R336, R338) -/

/-- Bytes a to b of a descriptor are 0. -/
def zeroBytes (d : List Byte) (a b : Nat) : Bool := allZero ((d.take (b + 1)).drop a)
/-- HBM range entry i keeps the limits of R335. -/
def hbmEntryOk (p : Partition) (i : Nat) : Bool :=
  let d := p.desc
  let r := hbmRange d i
  let t := fieldLE d (396 + 16 * i) 1
  let k := r.dies.length
  decide (t < 32) && fieldLE d (399 + 16 * i) 1 == 0 &&
  (r.pages == 0 ||
    (if r.stack then r.base % 65536 == 0 && k == 0 else t == 0 && k != 0 && r.base % 8192 == 0 && r.pages % k == 0) &&
    (r.extents.all fun e => decide (e.2.1 + e.2.2 ≤ 2 ^ 36)) && decide (r.key < 128) && p.hasKey r.key)
/-- The limits and reserved bits of R335, and the cases of R336 that concern the descriptor alone. -/
def descLimits (d : List Byte) : Bool :=
  let p : Partition := { desc := d }
  let svc := hbmRange d p.svcRng
  d.length == 512 && fieldLE d 0 2 == 1 && decide (fieldLE d 2 1 < 32) && decide (p.ceiling ≤ 127) && decide (1 ≤ fieldLE d 4 1) &&
  decide (fieldLE d 4 1 ≤ 4) && !p.flag 7 && decide (1 ≤ p.pool) && decide (p.pool ≤ 4096) && zeroBytes d 27 31 && zeroBytes d 70 71 &&
  zeroBytes d 88 95 &&
  (p.svcVec == 0 || (p.svcVec % 4 == 0 && isSvc p p.svcVec)) && p.svcBase % 4096 == 0 && p.svcLen % 4096 == 0 && decide (p.svcLen ≤ 2 ^ 28) &&
  decide (p.svcRng < 8) && decide (p.saveRng < 8) && (p.svcLen == 0 || decide (p.svcBase + p.svcLen ≤ svc.pages * 4096)) &&
  decide (1 ≤ fieldLE d 76 4) && decide (fieldLE d 76 4 ≤ 1000000) && decide (p.hostBase + p.hostCnt ≤ 2 ^ 20) &&
  ((List.range 4).all fun i => fieldLE d (102 + 8 * i) 2 == 0) &&
  ((List.range 8).all fun i =>
    decide (p.quota i 0 + p.quota i 4 ≤ 2 ^ 18) && decide (p.quota i 8 + p.quota i 12 ≤ 2 ^ 24) && zeroBytes d (148 + 32 * i) (159 + 32 * i)) &&
  ((List.range 8).all (hbmEntryOk p)) && decide (fieldLE d 26 1 < 128) && p.hasKey (fieldLE d 26 1)

/-- Two index ranges share an index. -/
def spansMeet (a n b m : Nat) : Bool := n != 0 && m != 0 && overlaps a n b m
/-- Two partitions hold a common quad, port, key slot, HBM byte or counter index (R336). -/
def partsMeet (p q : Partition) : Bool :=
  ((List.range 96).any fun i => p.hasQuad i && q.hasQuad i) || ((List.range 48).any fun i => p.hasPort i && q.hasPort i) ||
  ((List.range 128).any fun i => p.hasKey i && q.hasKey i) ||
  (((p.ranges.map HbmRange.extents).flatten).any fun a => ((q.ranges.map HbmRange.extents).flatten).any fun b =>
    a.1 == b.1 && spansMeet a.2.1 a.2.2 b.2.1 b.2.2) ||
  spansMeet p.hostBase p.hostCnt q.hostBase q.hostCnt ||
  (List.range 8).any fun d =>
    spansMeet (p.quota d 0) (p.quota d 4) (q.quota d 0) (q.quota d 4) || spansMeet (p.quota d 8) (p.quota d 12) (q.quota d 8) (q.quota d 12)
/-- The partitions other than pid that are not FREE. -/
def othersOf (s : State) (pid : Nat) : List Partition := (s.parts.filter fun e => e.1 != pid && e.2.st != .free).map (·.2)
/-- The waiter quotas of all partitions together fit on every die (R336). -/
def quotasFit (s : State) (pid : Nat) (d : List Byte) : Bool :=
  let p : Partition := { desc := d }
  (List.range 8).all fun i => decide (p.quota i 16 + ((othersOf s pid).map fun q => q.quota i 16).sum ≤ Config.waiterEntries)
/-- A descriptor for a FREE partition is accepted (R336). -/
def descOk (s : State) (d : List Byte) : Bool :=
  let pid := fieldLE d 2 1
  descLimits d && (s.part pid).st == .free && quotasFit s pid d && !(othersOf s pid).any (partsMeet { desc := d })

/-- The counters of a partition's WEIR, SPILL and HOST ranges are zero and hold no waiter (R120). -/
def zeroCounters (s : State) (p : Partition) : State :=
  let mine (h : Nat) : Bool := hKind h != 0 && hKind h != 4 && handleIn p (fun _ => false) h
  { s with ctrs := s.ctrs.filter fun e => !mine e.1, waiters := s.waiters.filter fun w => !mine w.h }
/-- The banks of a partition's quads are zeroed (R337). -/
def zeroQuads (s : State) (p : Partition) : State :=
  ((List.range 96).filter p.hasQuad).foldl (fun t q => zeroBanks t (q * 2 ^ 25) (2 ^ 25)) s
/-- FREE becomes CONFIGURED (R337, R382, R424). -/
def configure (s : State) (d : List Byte) : State :=
  let p : Partition :=
    { st := .configured, desc := d, record := zeros 512, pmeas := zeros 48 }
  (zeroQuads (zeroCounters s p) p).setPart (fieldLE d 2 1) p

/-! ### Inline encryption of HBM (R339) -/

/-- The key of a slot; one that is not loaded is zero. -/
def keySlot (s : State) (n : Nat) : List Byte := let k := tget [] s.keys n; if k.isEmpty then zeros 64 else k
/-- The key under which the bytes of an address were encrypted last. -/
def keyAt (s : State) (a : Nat) : Option (List Byte) := (s.hbmKeys.find? fun e => decide (e.1 ≤ a) && decide (a < e.1 + e.2.1)).map (·.2.2)
/-- A line is read under another key than it was written with: what the old key encrypted, decrypted with the new one. -/
def rekeyLine (s : State) (new : List Byte) (line : Nat) : State :=
  match keyAt s (128 * line) with
  | none => s
  | some old =>
    if old == new then s
    else { s with hbm := s.hbm.store (128 * line) (xtsUnit false new line (xtsUnit true old line (s.hbm.bytes (128 * line) 128))) }
/-- The lines of n bytes from an address that have been written. -/
def writtenLines (s : State) (a n : Nat) : List Nat :=
  let inside (x : Nat) : Bool := decide (a ≤ x) && decide (x < a + n)
  let listed : List Nat := (s.hbm.filter fun c => inside c.1).map fun c => c.1 / 128
  let written : List Nat := (s.hbmWritten.map (·.1)).filter fun l => inside (128 * l)
  (listed ++ written).eraseDups
/-- A range of HBM passes under the key that its slot holds now (R339): each line that has been written reads as what its old key encrypted,
decrypted with the new one. A line that nothing has written reads as before: its contents are the model's choice (log entries 2, 108). -/
def rekeyRange (s : State) (r : HbmRange) : State :=
  r.extents.foldl (fun t e =>
    let a := e.1 * 2 ^ 36 + e.2.1
    let u := (writtenLines t a e.2.2).foldl (fun v l => rekeyLine v (keySlot s r.key) l) t
    { u with hbmKeys := (a, e.2.2, keySlot s r.key) :: u.hbmKeys.filter fun k => !(decide (a ≤ k.1) && decide (k.1 + k.2.1 ≤ a + e.2.2)) }) s
/-- The ranges of a partition, of one key slot where it is named, pass under their keys. -/
def rekeyPart (s : State) (p : Partition) (slot : Option Nat) : State :=
  (p.ranges.filter fun r => slot.isNone || slot == some r.key).foldl rekeyRange s
/-- The firmware loads slots of a partition from its own generator, where it does (R339). The spec does not say when: in the model as the
partition is configured. DESIGN CHOICE (log entry 108). -/
def generateKeys (s : State) (p : Partition) : State :=
  ((List.range 128).filter p.hasKey).foldl (fun t n =>
    match Config.generatedKey t.draws n with
    | some k => { t with draws := t.draws + 1, keys := tins t.keys n (padTo 64 k) }
    | none => t) s
/-- A key slot has been loaded: the ranges that name it pass under the new key. -/
def rekeySlot (s : State) (slot : Nat) : State := (s.parts.filter fun p => p.2.st != .free).foldl (fun t p => rekeyPart t p.2 (some slot)) s

/-- The fields that R338 lets change, set to 0. -/
def fixedDesc (d : List Byte) : List Byte :=
  setLE (setLE (setLE (setLE (setLE d 3 1 0) 5 1 (fieldLE d 5 1 &&& 0xED)) 6 2 0) 72 4 0) 76 4 0
/-- A new descriptor for an ACTIVE partition is accepted (R338). -/
def descChangeOk (p : Partition) (d : List Byte) : Bool :=
  descLimits d && fixedDesc d == fixedDesc p.desc && decide (p.tickets ≤ fieldLE d 6 2)
/-- Change an ACTIVE partition's descriptor. LATTOL and AGE_PERIOD follow it at the next dispatch (R332). -/
def changeDesc (s : State) (d : List Byte) : State := s.setPart (fieldLE d 2 1) { s.part (fieldLE d 2 1) with desc := d }

/-- WRITE_PARTITION_DESCRIPTOR (R335 to R338). -/
def execWritePartitionDescriptor (tag : Nat) (body : List Byte) (s : State) : Out :=
  let p := s.part (fieldLE body 2 1)
  serve ⟨0x02, tag, [], body⟩ s
    (if descOk s body then some (rekeyPart (generateKeys (configure s body) { desc := body }) { desc := body } none)
     else if p.st == .active && descChangeOk p body then some (serveQueues (changeDesc s body) (fieldLE body 2 1))
     else none)

/-! ### Partition states (R337) -/

/-- The service image of a partition: the header at the start of its service range, then the body. -/
def serviceImage (s : State) (p : Partition) : List Byte :=
  let r := hbmRange p.desc p.svcRng
  let h := rangeBytes s r p.svcBase (Nat.min 512 p.svcLen)
  rangeBytes s r p.svcBase (Nat.min p.svcLen (512 + imgCodelen h + imgDatalen h))
/-- The service image, if any, passes (R337, R423). -/
def servicePasses (s : State) (p : Partition) : Bool :=
  p.svcLen == 0 || (imgKind (serviceImage s p) == 4 && imgSigned (serviceImage s p) p.svcHash)
/-- Every key slot of a partition is loaded. -/
def keysLoaded (s : State) (p : Partition) : Bool := (List.range 128).all fun n => !p.hasKey n || !(tget [] s.keys n).isEmpty

/-- ACTIVATE_PARTITION (R337, R424, R425): PMEAS is extended with the service image's digest. -/
def execActivatePartition (tag pid : Nat) (s : State) : Out :=
  let p := s.part pid
  serve ⟨0x03, tag, [pid], []⟩ s
    (if p.st == .configured && keysLoaded s p && servicePasses s p && s.mgmt.bootBits % 8 == 7 then
      some (serveQueues (s.setPart pid
        { p with st := .active, pmeas := if p.svcLen == 0 then p.pmeas else extend p.pmeas (imgDigest (serviceImage s p)) }) pid)
     else none)

/-- A partition's waiters, armed slots, graph slots and the commands of their instances are removed (R337). -/
def removeHeld (s : State) (pid : Nat) : State :=
  let mine (j : Nat) : Bool := (s.job j).pid == pid
  { s with
    waiters := s.waiters.filter fun w => w.pid != pid,
    firings := s.firings.filter fun f => f.1.pid != pid,
    engines := s.engines.filter fun e => !(mine e.job && (e.kind == .coll || e.kind == .cload || e.kind == .arm || e.kind == .disarm)),
    dies := s.dies.map fun d =>
      (d.1, { d.2 with
        armed := d.2.armed.filter fun a => (match a.2 with | some x => x.pid != pid | none => true),
        graphs := d.2.graphs.filter fun g => (match g.2 with | some x => !mine x.job | none => true) }) }
/-- A record that was never dispatched is discarded: status DISCARDED, no add, and its ticket returns (R337, R360). -/
def discardJob (s : State) (id : Nat) : State :=
  let j := s.job id
  let s1 := (writeStatus s j 5 0).setJob id { j with phase := .ended }
  let s2 := endClaims s1 j.pid id
  let p := s2.part j.pid
  if j.launched then s2.setPart j.pid { p with tickets := p.tickets - 1 } else s2
/-- A partition with no live job and no command left is drained. -/
def drained (s : State) (pid : Nat) : Bool :=
  (s.jobsOf pid).all (fun j => j.phase == .ended) && s.engines.all fun e => e.pid != pid
/-- What a partition that becomes FREE held is gone (R337, R339). -/
def clearPart (s : State) (pid : Nat) : State :=
  let p := s.part pid
  let s1 := zeroQuads (zeroCounters (removeHeld s pid) p) p
  { s1 with
    parts := tdel s1.parts pid, keys := s1.keys.filter fun k => !p.hasKey k.1, hostLost := s1.hostLost.filter (· != pid),
    lostAt := tdel s1.lostAt pid,
    cores := s1.cores.map fun c => (c.1, { c.2 with tlb := c.2.tlb.filter fun e => e.pid != pid }),
    dies := s1.dies.map fun d =>
      (d.1, { d.2 with l2 := d.2.l2.filter fun e => e.pid != pid,
                       pageReqs := d.2.pageReqs.filter fun q => q.pid != pid }) }
/-- A partition becomes FREE and holds nothing (R337, R339): Page Requests that waited take the places of its own (R376). -/
def freePart (s : State) (pid : Nat) : State := (List.range 8).foldl sendWaiting (clearPart s pid)
/-- An ACTIVE partition begins to drain (R337, R383): undispatched records are discarded, contexts are killed. -/
def drain (s : State) (pid : Nat) : State :=
  let p := s.part pid
  let s1 := removeHeld (s.setPart pid { p with st := .draining }) pid
  let js := s.jobsOf pid
  let s2 := (js.filter fun j => !j.dispatched && j.phase != .ended).foldl (fun t j => discardJob t j.id) s1
  let s3 := (js.filter fun j => j.dispatched && j.phase != .ended).foldl
    (fun t j => killJob t j.id 3 (if j.phase == .suspended then cHostlost else 0)) s2
  let s4 := p.conns.foldl (fun t c => closeConn t (connId pid c.1) 2) s3
  (serveQueues s4 pid).push [.drainingComplete pid]

/-- DESTROY_PARTITION (R337). -/
def execDestroyPartition (tag pid : Nat) (s : State) : Out :=
  serve ⟨0x04, tag, [pid], []⟩ s
    (match (s.part pid).st with
     | .configured => some (freePart s pid)
     | .active => some (drain s pid)
     | _ => none)
/-- DRAINING_COMPLETE (R337). -/
def execDrainingComplete (pid : Nat) (s : State) : Out :=
  if (s.part pid).st == .draining && drained s pid then .next (freePart s pid) else .next s

/-! ### Launch queues, address spaces, gangs (R350, R368, R369, R361) -/

/-- A HOST counter index in a partition's range. -/
def Partition.hasHost (p : Partition) (i : Nat) : Bool := decide (p.hostBase ≤ i) && decide (i < p.hostBase + p.hostCnt)
/-- A launch-queue descriptor keeps its limits (R350). -/
def lqOk (p : Partition) (d : List Byte) : Bool :=
  d.length == 32 && lqRing d % 4096 == 0 && decide (4 ≤ lqLogn d) && decide (lqLogn d ≤ 12) && p.holdsOne (lqRing d) (16 * 2 ^ lqLogn d) &&
  decide (fieldLE d 9 1 < 2) && zeroBytes d 10 11 && p.hasHost (lqBell d) && p.hasHost (lqTaken d) && lqBell d != lqTaken d && zeroBytes d 20 31
/-- WRITE_LAUNCH_QUEUE_DESCRIPTOR (R350): at ENABLE from 0 to 1 BELL's value is recorded, and entry 0 is the next. -/
def execWriteLaunchQueueDescriptor (tag pid queue : Nat) (body : List Byte) (s : State) : Out :=
  let p := s.part pid
  let q := tget {} p.queues queue
  let on := lqEnabled body && !lqEnabled q.desc
  let q1 : LaunchQueue :=
    if on then { desc := body, base := (s.ctr (hostHandle (lqBell body))).toNat, taken := 0 } else { q with desc := body }
  serve ⟨0x05, tag, [pid, queue], body⟩ s
    (if p.open_ && decide (queue < 8) && lqOk p body then
      some (s.setPart pid
        { p with queues := tins p.queues queue q1,
                 due := if lqEnabled body && lqEnabled q.desc then p.due else p.due.map fun u => u.filter fun e => e.1 != queue })
     else none)

/-- A WEIR handle in a partition's range (R368). -/
def weirIn (p : Partition) (h : Nat) : Bool := hKind h == 1 && handleOk h && handleIn p (fun _ => false) h
/-- An address-space descriptor keeps its limits (R368, R369). -/
def spaceOk (p : Partition) (n : Nat) (d : List Byte) : Bool :=
  d.length == 64 && spaceRoot d % 4096 == 0 && p.holds (spaceRoot d) 4096 && decide (spacePasid d < 2 ^ 20) && decide (fieldLE d 12 1 < 4) &&
  decide (4 ≤ spaceFrlog d) && decide (spaceFrlog d ≤ 12) && zeroBytes d 14 15 && spaceFrbase d % 4096 == 0 &&
  p.holds (spaceFrbase d) (64 * 2 ^ spaceFrlog d) && weirIn p (spaceFrctr d) && weirIn p (spaceFrack d) && spaceFrctr d != spaceFrack d &&
  zeroBytes d 40 63 &&
  !(spaceEnabled d && p.spaces.any fun e => e.1 != n && spaceEnabled e.2 && spacePasid e.2 == spacePasid d)
/-- A context of a space is live (R369). -/
def spaceLive (s : State) (pid n : Nat) : Bool := (s.jobsOf pid).any fun j => j.phase != .ended && j.dispatched && j.aspace == n
/-- WRITE_ADDRESS_SPACE_DESCRIPTOR (R368, R369). -/
def execWriteAddressSpaceDescriptor (tag pid space : Nat) (body : List Byte) (s : State) : Out :=
  let p := s.part pid
  let old := tget [] p.spaces space
  serve ⟨0x06, tag, [pid, space], body⟩ s
    (if p.open_ && decide (space < 64) && spaceOk p space body && !(spaceEnabled old && old != body && spaceLive s pid space) then
      some (s.setPart pid { p with spaces := tins p.spaces space body })
     else none)

/-- A gang descriptor keeps its limits (R361). -/
def gangOk (d : List Byte) : Bool :=
  d.length == 32 && decide (1 ≤ fieldLE d 8 4) && decide (fieldLE d 8 4 ≤ 10000000) && decide (1 ≤ fieldLE d 12 4) &&
  decide (fieldLE d 12 4 ≤ fieldLE d 8 4) && decide (fieldLE d 16 1 < 2) && zeroBytes d 17 31
/-- WRITE_GANG_DESCRIPTOR (R361): the slices begin anew, and no member has been skipped in one of them (R363). -/
def execWriteGangDescriptor (tag pid gang : Nat) (body : List Byte) (s : State) : Out :=
  let p := s.part pid
  serve ⟨0x07, tag, [pid, gang], body⟩ s
    (if p.open_ && decide (gang < 16) && gangOk body &&
        !((s.jobsOf pid).any fun j => j.phase == .running && recGang j.record && recGangix j.record == gang) then
      some
        (((s.jobsOf pid).filter fun j => recGang j.record && recGangix j.record == gang).foldl
          (fun t j => t.setJob j.id { j with skipped := none })
          (s.setPart pid { p with gangs := tins p.gangs gang body, slice := tins p.slice gang none }))
     else none)

/-! ### Translations, connections, key slots (R373, R398, R339) -/

/-- A request to invalidate translations (R373): the entries leave every TLB of the package; the answer waits for what began with them. -/
def askInvalidate (tag pid space base len : Nat) (s : State) : Out :=
  let k := invalOf s (.invalidateTranslations tag pid space base len) true pid space false
  let ok := (s.part pid).st != .free && decide (space < 64)
  if s.mgmtWaits || !ok || (k.cores.isEmpty && k.cmds.isEmpty) then
    serve ⟨0x08, tag, [pid, space, base, len], []⟩ s (if ok then some (invalidateSpace s pid space base len) else none)
  else done (waitInval (invalidateSpace s pid space base len) k false)

/-- OPEN_CONNECTION (R398): CLOSED becomes OPENING on the lowest usable port. -/
def execOpenConnection (tag pid index : Nat) (body : List Byte) (s : State) : Out :=
  let p := s.part pid
  let c := connId pid index
  serve ⟨0x09, tag, [pid, index], body⟩ s
    (if p.open_ && decide (index < 2 ^ 20) && body.length == 64 && connState (s.conn c).entry == 0 && entryOk s p body &&
        tableRoom s c then
      (usablePort s body).map fun u => sendCtl (s.setConn c { entry := setLE body 0 1 1, port := u }) c (.handshake c 1)
     else none)
/-- SERVICE_KEY_HASH_INSTALL (R423): the owner of a partition that is not FREE sets its service key hash. -/
def installKeyHash (s : State) (pid : Nat) (hash : List Byte) : State :=
  let p := s.part pid
  if p.open_ && hash.length == 48 then s.setPart pid { p with svcHash := hash } else s

/-- CLOSE_CONNECTION (R398). -/
def execCloseConnection (tag pid index : Nat) (s : State) : Out :=
  let c := connId pid index
  serve ⟨0x0A, tag, [pid, index], []⟩ s
    (if (s.part pid).st != .free && decide (index < 2 ^ 20) && connState (s.conn c).entry == 2 then some (closeConn s c 2) else none)

/-- LOAD_KEY_SLOT (R339): only within an SPDM secured session. -/
def execLoadKeySlot (tag slot : Nat) (body : List Byte) (s : State) : Out :=
  serve ⟨0x0B, tag, [slot], body⟩ s
    (if s.mgmt.spdm.session == 2 && decide (slot < 128) && body.length == 64 then
      some (rekeySlot { s with keys := tins s.keys slot body } slot) else none)

/-! ### Host loss (R383) and the records (R382, R429) -/

/-- DETACH (R383): the host counts as lost. -/
def execDetach (tag pid : Nat) (s : State) : Out :=
  serve ⟨0x0C, tag, [pid], []⟩ s (if (s.part pid).st != .free then some (loseHost s pid) else none)
/-- A suspended strand forgets the host page it waited for: it translates again. -/
def Core.retranslate (x : Core) : Core :=
  match x.hold with
  | some (.pageHost _) | some (.ats _) => { x with hold := none, pageFault := none }
  | _ => x
/-- What waits for a host page of a partition looks again after a reattach. -/
def rehost (s : State) (pid : Nat) : State :=
  let waits (e : ECmd) : Bool :=
    e.pid == pid && (match e.stage with | .stalledAts _ | .stalledHost _ _ => true | _ => false)
  let s1 : State :=
    { s with
      dies := s.dies.map fun d =>
        (d.1, { d.2 with armed := d.2.armed.map fun a =>
          (a.1, a.2.map fun (x : Armed) => if x.pid == pid then { x with waitHost := none } else x) }) }
  resumeFirings ((s1.engines.filter waits).foldl resumeCmd s1) fun w => w.pid == pid
/-- A suspended context is ready again at its level with its key (R383); its ageing starts with it (R47). -/
def unsuspend (s : State) (id : Nat) : State :=
  let j := s.job id
  s.setJob id { j with phase := .ready, level := recLevel j.record, readyAt := s.fabricTime, kept := j.kept.map fun k => (k.1, k.2.retranslate) }
/-- REATTACH (R383). -/
def execReattach (tag pid : Nat) (s : State) : Out :=
  let js := (s.jobsOf pid).filter (·.suspendedNow)
  serve ⟨0x0D, tag, [pid], []⟩ s
    (if (s.part pid).st == .free then none
     else
      let s1 := js.foldl (fun t j => unsuspend t j.id) { s with hostLost := s.hostLost.filter (· != pid), lostAt := tdel s.lostAt pid }
      some ((noteSuspended (rehost s1 pid) pid).push [.dispatch pid]))
/-- KILL_SUSPENDED (R383). -/
def execKillSuspended (tag pid : Nat) (s : State) : Out :=
  let js := (s.jobsOf pid).filter (·.suspendedNow)
  serve ⟨0x0E, tag, [pid], []⟩ s
    (if (s.part pid).st == .free then none
     else some (js.foldl (fun t j => killJob t j.id 3 cHostlost) s))

/-- The single-bit errors that the hardware has corrected since are counted (R381, R382). -/
def noteCorrected (s : State) (pid : Nat) : State := recordAdd { s with draws := s.draws + 1 } pid 0 8 (Config.corrected s.draws)
/-- READ_PARTITION_RECORD (R382, R429): which 0 is the record, 1 the measurement-event list, oldest first, and its lost count. -/
def execReadPartitionRecord (tag pid which : Nat) (s : State) : Out :=
  let p := s.part pid
  if s.mgmtWaits then .next (waitReq s ⟨0x0F, tag, [pid, which], []⟩)
  else if p.st == .free || decide (1 < which) then .next (reply s 0x0F tag stRefused)
  else if which == 1 then .next (replyWith s 0x0F tag stOk (p.events.flatten ++ natLE 4 p.eventsLost))
  else
    let t := noteCorrected s pid
    .next (replyWith t 0x0F tag stOk (padTo 512 (t.part pid).record))

end Sys2Proof.Machine
end

