-- ==== Sys2Proof/Machine/Activation.lean ====
section
/-! DEFINITION. Boot and package reset (R425, R444, R446), live activation (R426 to R429), and raising an SVN floor (R423). -/

namespace Sys2Proof.Machine

/-! ### Boot (R424, R425, R444) -/

/-- The digest that MEAS4 is extended with: of the fuse configuration and the SVN floors. -/
def fuseDigest (s : State) : List Byte := sha384 (Config.fuseConfig ++ ((List.range 3).map fun i => natLE 4 (tget 0 s.mgmt.svnFloor (i + 1))).flatten)
/-- The image that a kind boots: of the committed slot, else of the other (R425). -/
def bootImage (s : State) (kind : Nat) : Option (List Byte) :=
  let c := tget 0 s.mgmt.committed kind
  ([c, 1 - c].map fun i => tget [] s.mgmt.flash (2 * kind + i)).find? (imgAccepted s kind)
/-- Boot one kind: its image is measured before its first instruction, and started. -/
def bootKind (s : State) (kind : Nat) : State :=
  match bootImage s kind with
  | none => s
  | some img =>
    let s1 := (measExtend s kind (imgDigest img)).onMgmt fun m => { m with running := tins m.running kind img }
    startImage s1 kind img none
/-- Boot in order: the ROM's measurement, the fuses', then the three kinds. -/
def boot (s : State) : State :=
  let s1 := measExtend (measExtend s 0 Config.romDigest) 4 (fuseDigest s)
  ([1, 2, 3].foldl bootKind s1).onMgmt fun m => { m with boots := m.boots + 1 }

/-- What a package reset keeps: the flash and its committed slots, the fuses, the count of boots, host memory, and what the model counts
(log entries 3, 4). -/
def cleared (s : State) : State :=
  { ticks := s.ticks, draws := s.draws, timeShift := s.timeShift, hostMem := s.hostMem, outputs := s.outputs,
    mgmt := { flash := s.mgmt.flash, committed := s.mgmt.committed, svnFloor := s.mgmt.svnFloor, commitKinds := s.mgmt.commitKinds,
              boots := s.mgmt.boots } }
/-- PACKAGE_RESET (R444): everything is cleared, and boot runs. -/
def execPackageReset (s : State) : Out := .next (boot (cleared s))
/-- THERMAL_TRIP (R446): at 115 °C the module makes a package reset. -/
def execThermalTrip (s : State) : Out := .next (boot (cleared s))
/-- SIDE_PORT_RESET_REQUEST (R446). -/
def execSidePortResetRequest (s : State) : Out := .next (boot (cleared s))

/-! ### Live activation (R426 to R428) -/

/-- Change the live activation. -/
def State.onAct (s : State) (f : Activation → Activation) : State := s.onMgmt fun m => { m with act := f m.act }

/-- A slice boundary of a gang lies at most ns ahead of a time: Tk or Tk + LENGTH (R362, R426). -/
def boundaryAhead (d : List Byte) (t ns : Nat) : Bool :=
  let t0 := fieldLE d 0 8
  let period := fieldLE d 8 4 * 1000
  let len := fieldLE d 12 4 * 1000
  if t < t0 then decide (t0 - t ≤ ns)
  else
    let pos := (t - t0) % period
    decide (period - pos ≤ ns) || (if pos ≤ len then decide (len - pos ≤ ns) else decide (period - pos + len ≤ ns))
/-- No enabled gang slice boundary lies within 2 ms ahead. -/
def stageClear (s : State) : Bool :=
  !(s.parts.any fun p => p.2.gangs.any fun g => (fieldLE g.2 16 1).testBit 0 && boundaryAhead g.2 s.fabricTime 2000000)
/-- STAGE's checks on a new image (R423, R426): the running image's HVER is in its COMPAT list. -/
def stageOk (s : State) (kind : Nat) (img : List Byte) : Bool :=
  let old := tget [] s.mgmt.running kind
  imgAccepted s kind img && (old.isEmpty || (imgHver old != 0 && (List.range 8).any fun i => imgCompat img i == imgHver old))
/-- MEASURE: the pending copy of the kind's register is extended; the live one is unchanged. -/
def measureAct (s : State) : State :=
  s.onAct fun a => { a with state := 2, pendingMeas := extend (measOf s a.kind) (imgDigest a.image) }

/-- REQUEST_ACTIVATION (R426): one at a time; a refusal changes nothing but ACTSTAT. -/
def execRequestActivation (tag kind : Nat) (image : List Byte) (s : State) : Out :=
  if s.mgmtWaits then .next (waitReq s ⟨0x10, tag, [kind], image⟩)
  else if s.mgmt.act.state != 0 then .next (reply s 0x10 tag stBusy)
  else if kind == 0 || decide (3 < kind) then .next (reply s 0x10 tag stRefused)
  else if !stageOk s kind image then .next (reply (s.onAct fun a => { a with kind := kind, result := 3 }) 0x10 tag stRefused)
  else
    let s1 := s.onAct fun a => { a with state := 1, kind := kind, image := image, block := none, pendingMeas := [], since := s.fabricTime }
    .next (reply (if stageClear s then measureAct s1 else s1) 0x10 tag stOk)
/-- STAGE waits at most this time (R426). -/
def stageNs : Nat := 1000000000
/-- FREEZE may last at most this time until the new image's first instruction (R426). -/
def freezeNs : Nat := 2000000
/-- ACTIVATION_STAGE_TIMEOUT (R426): STAGE has waited for 1 s. -/
def execActivationStageTimeout (s : State) : Out :=
  if s.mgmt.act.state == 1 && decide (stageNs ≤ s.actTime) then .next (s.onAct fun a => { a with state := 0, result := 3, image := [] })
  else .next s

/-- RAISE_SVN_FLOOR (R423): after a COMMIT of the kind, and up to the running image's SVN. -/
def execRaiseSvnFloor (tag kind floor : Nat) (s : State) : Out :=
  serve ⟨0x11, tag, [kind, floor], []⟩ s
    (if s.mgmt.commitKinds.contains kind && decide (floor ≤ imgSvn (tget [] s.mgmt.running kind)) && decide (tget 0 s.mgmt.svnFloor kind ≤ floor) then
      some (s.onMgmt fun m => { m with svnFloor := tput 0 m.svnFloor kind floor })
     else none)

/-- The hand-over block (R428). -/
def handoverBlock (hver kind fwver : Nat) (payload : List Byte) : List Byte :=
  natLE 4 0x4B424448 ++ natLE 2 hver ++ natLE 1 kind ++ natLE 1 0 ++ natLE 4 payload.length ++ natLE 4 fwver ++ sha384 payload ++ zeros 64 ++
  payload
/-- The old image stops its decisions (R427): the controller or the leat cores halt, and the mailbox answers Busy for the management
firmware (R437). -/
def freezeOld (s : State) (kind : Nat) : State :=
  if kind == 1 then errorWaiting (({ s with runQueue := s.runQueue.filter (· != mgmtCore) } : State).onMgmt fun m => { m with busyUntilPoll := true }) 0x03
  else if kind == 3 then haltLeats s
  else s
/-- Bytes a to a + n − 1 of HBM lie outside every partition that is not FREE (R428, "firmware-private"). -/
def firmwareOwn (s : State) (a n : Nat) : Bool :=
  decide (a + n ≤ 2 ^ 40) &&
  s.parts.all fun e => e.2.st == .free || !((e.2.ranges.map HbmRange.extents).flatten.any fun x => overlaps a n (x.1 * 2 ^ 36 + x.2.1) x.2.2)
/-- Where the old image of a kind writes its hand-over block: somewhere in HBM with room for the largest block (log entry 107). -/
def handoverAt (kind : Nat) : Nat := Config.handoverArea kind % (2 ^ 40 - 2 ^ 23)
/-- FREEZE (R426, R428): the old image writes its hand-over block in an area of the firmware's own. It fails where the block does not fit; where
no old image runs there is none to write. -/
def writeBlock (s : State) (payload : List Byte) : Option State :=
  let a := s.mgmt.act
  let img := tget [] s.mgmt.running a.kind
  let at_ := handoverAt a.kind
  if img.isEmpty then some s
  else if decide (2 ^ 22 < payload.length) || !firmwareOwn s at_ (128 + payload.length) then none
  else some ((writeAt s 0 ⟨.hbm, at_⟩ (handoverBlock (imgHver img) a.kind (imgVer img) payload)).onAct fun b => { b with block := some at_ })
/-- HANDOVER's check of the block (R426, R428): its digest, and an HVER that the new image accepts; no block where no old image ran. -/
def blockOk (s : State) : Bool :=
  let a := s.mgmt.act
  match a.block with
  | none => (tget [] s.mgmt.running a.kind).isEmpty
  | some at_ =>
    let b := s.bytesAt ⟨.hbm, at_⟩ 128
    let n := fieldLE b 8 4
    fieldLE b 0 4 == 0x4B424448 && fieldLE b 6 1 == a.kind && decide (n ≤ 2 ^ 22) &&
      (b.take 64).drop 16 == sha384 (s.bytesAt ⟨.hbm, at_ + 128⟩ n) && fieldLE b 4 2 != 0 &&
      (List.range 8).any fun i => imgCompat a.image i == fieldLE b 4 2
/-- What stands for the numbers of a body of the wrong length (R443): no request has five. -/
def misfit : List Nat := [0, 0, 0, 0, 0]
/-- The number that stands for the owner's key hash in the queue of requests: no OPCODE is as large (R423, R443). -/
def opKeyHash : Nat := 2 ^ 16
/-- Serve a request, unless it must wait: the order is that of arrival (R337, R427, R443). -/
def Request.run (r : Request) (s : State) : Out :=
  let a (i : Nat) : Nat := r.args.getD i 0
  if s.mgmtWaits then .next (waitReq s r)
  else if r.args == misfit then .next (reply s r.op r.tag stRefused)
  else if r.op == opKeyHash then .next (installKeyHash s (a 0) r.body)
  else
  match r.op with
  | 0x01 => execReadBootStatus r.tag s
  | 0x02 => execWritePartitionDescriptor r.tag r.body s
  | 0x03 => execActivatePartition r.tag (a 0) s
  | 0x04 => execDestroyPartition r.tag (a 0) s
  | 0x05 => execWriteLaunchQueueDescriptor r.tag (a 0) (a 1) r.body s
  | 0x06 => execWriteAddressSpaceDescriptor r.tag (a 0) (a 1) r.body s
  | 0x07 => execWriteGangDescriptor r.tag (a 0) (a 1) r.body s
  | 0x08 => askInvalidate r.tag (a 0) (a 1) (a 2) (a 3) s
  | 0x09 => execOpenConnection r.tag (a 0) (a 1) r.body s
  | 0x0A => execCloseConnection r.tag (a 0) (a 1) s
  | 0x0B => execLoadKeySlot r.tag (a 0) r.body s
  | 0x0C => execDetach r.tag (a 0) s
  | 0x0D => execReattach r.tag (a 0) s
  | 0x0E => execKillSuspended r.tag (a 0) s
  | 0x0F => execReadPartitionRecord r.tag (a 0) (a 1) s
  | 0x10 => execRequestActivation r.tag (a 0) r.body s
  | 0x11 => execRaiseSvnFloor r.tag (a 0) (a 1) s
  | _ => .next (reply s r.op r.tag stUnknown)
/-- The next state of an outcome. -/
def nextOf (s : State) : Out → State
  | .next t => t
  | _ => s
/-- Requests that waited are served in arrival order (R427). -/
def serveWaiting (s : State) : State :=
  s.mgmt.doeQueue.foldl (fun t r => nextOf t (r.run t)) (s.onMgmt fun m => { m with doeQueue := [] })
/-- INVALIDATE_TRANSLATIONS (R373): a request; or its completion once every access that began with an entry it covers has been performed,
and with it the requests that have arrived since (R337). len 0 names the whole space. -/
def execInvalidateTranslations (tag pid space base len : Nat) (s : State) : Out :=
  let ask : Instr := .invalidateTranslations tag pid space base len
  if s.invalReady ask then done (serveWaiting (reply (dropInval s ask) 0x08 tag stOk)) else askInvalidate tag pid space base len s
/-- A decision that waited is made (R427). -/
def Work.run (w : Work) (s : State) : State :=
  match w with
  | .yield id => yieldAsk s id
  | .event (.contextComplete id) => nextOf s (execContextComplete id s)
  | .event (.dispatch pid) => nextOf s (execDispatch pid s)
  | .event (.launchQueueEntryAccept pid queue) => nextOf s (execLaunchQueueEntryAccept pid queue s)
  | .event (.agePeriodExpiry pid task) => nextOf s (execAgePeriodExpiry pid task s)
  | .event (.gangSliceStart pid gang k) => nextOf s (execGangSliceStart pid gang k s)
  | .event (.gangSliceEnd pid gang) => nextOf s (execGangSliceEnd pid gang s)
  | .event (.gangMiss pid gang task k) => nextOf s (execGangMiss pid gang task k s)
  | .event (.pageDevice core mapped entryAddr entry) => nextOf s (execPageDevice core mapped entryAddr entry s)
  | .event _ => s
/-- What waited while the firmware's decisions were paused is done, in order of arrival (R427); then the scheduler looks at its queues. -/
def resumeWork (s : State) : State :=
  let t := s.mgmt.act.deferred.foldl (fun t w => w.run t) (s.onAct fun a => { a with deferred := [] })
  serveWaiting
    (t.push ((t.parts.map fun e => acceptNext t e.1).flatten ++
      (t.parts.filter fun e => e.2.st == .active).map fun e => Instr.dispatch e.1))

/-- ACTIVATION_FREEZE (R426 to R428): STAGE or MEASURE has ended; the old image, whose HVER is given, stops and writes its hand-over block with
a payload of its own. -/
def execActivationFreeze (hver : Nat) (payload : List Byte) (s : State) : Out :=
  let a := s.mgmt.act
  if hver != imgHver (tget [] s.mgmt.running a.kind) ||
      (a.state != 2 && !(a.state == 1 && stageClear s && decide (s.actTime ≤ stageNs))) then .next s
  else
    let s1 := (freezeOld (if a.state == 1 then measureAct s else s) a.kind).onAct fun b => { b with state := 3, since := s.fabricTime }
    .next ((writeBlock s1 payload).getD (enterFallback s1))

/-- HANDOVER (R426, R428): the block is checked and the new image starts with its address, within 2 ms of FREEZE. -/
def handOver (s : State) : State :=
  let a := s.mgmt.act
  if !blockOk s || decide (freezeNs < s.actTime) then enterFallback s
  else
    ((startImage (stopImage s a.kind) a.kind a.image a.block).onAct fun b =>
      { b with state := 5, hbcnt := 0, since := s.fabricTime }).push [.activationHandover]
/-- ACTIVATION_HANDOVER (R426 to R428): the activation moves on, from FREEZE to HANDOVER, RESUME and HEARTBEAT, and through COMMIT or FALLBACK to
its end. ACTSTAT shows each state. -/
def execActivationHandover (s : State) : Out :=
  match s.mgmt.act.state with
  | 3 => .next ((s.onAct fun b => { b with state := 4 }).push [.activationHandover])
  | 4 => .next (handOver s)
  | 5 => done (resumeWork (s.onAct fun b => { b with state := 6 }))
  | 7 => done (commitAct s)
  | 8 => done (resumeWork (fallbackAct s))
  | _ => .next s
/-- ACTIVATION_FREEZE_TIMEOUT (R426): more than 2 ms since FREEZE. -/
def execActivationFreezeTimeout (s : State) : Out :=
  .next (if (s.mgmt.act.state == 3 || s.mgmt.act.state == 4) && decide (freezeNs < s.actTime) then enterFallback s else s)
/-- HEARTBEAT (R426): a FIRM write of ACTSTAT.HBCNT. -/
def execHeartbeat (value : Nat) (s : State) : Out := .next (heartbeatWrite s (value % 4))
/-- HEARTBEAT_TIMEOUT (R426): no three heartbeats within 50 ms of RESUME. -/
def execHeartbeatTimeout (s : State) : Out :=
  .next (if s.mgmt.act.state == 6 && decide (heartbeatNs ≤ s.actTime) then enterFallback s else s)

end Sys2Proof.Machine
end

