-- ==== Sys2Proof/Machine/Spdm.lean ====
section
/-! DEFINITION. The management controller's events (25): objects that reach the mailbox (R434, R437, R443), the registers of its control
window as events (R433 to R436), and the answers of the shipped responder (R430, R431, R438, R439). -/

namespace Sys2Proof.Machine

/-! ### The mailbox and the hash unit (R432 to R436) -/

/-- TXGO (R434): a write of DOECTL with TXGO and TXLEN. -/
def execTxgo (len : Nat) (s : State) : Out := .next (doeCtl s (len * 2 ^ 32 + 2))
/-- RXDONE (R434). -/
def execRxdone (s : State) : Out := .next (doeCtl s 1)
/-- A write of HCMD whose OP is the one named (R435). -/
def hashEvent (op cmd : Nat) (s : State) : Out := if hOp cmd == op then .next (hashCommand s cmd) else .next s
/-- HASH_RESET (R435). -/
def execHashReset (cmd : Nat) (s : State) : Out := hashEvent 1 cmd s
/-- HASH_ABSORB (R435). -/
def execHashAbsorb (cmd : Nat) (s : State) : Out := hashEvent 2 cmd s
/-- HASH_DIGEST (R435). -/
def execHashDigest (cmd : Nat) (s : State) : Out := hashEvent 3 cmd s
/-- HASH_SIGN (R435, R436). -/
def execHashSign (cmd : Nat) (s : State) : Out := hashEvent 4 cmd s
/-- HASH_CLONE (R435). -/
def execHashClone (cmd : Nat) (s : State) : Out := hashEvent 5 cmd s
/-- RAND_READ (R433): 64 bits are drawn. -/
def execRandRead (s : State) : Out := .next (randDraw s).2

/-- MANAGEMENT_CONTROLLER_FAULT (R432): the controller's code takes a fault, and the controller stops. -/
def execManagementControllerFault (code : Nat) (s : State) : Out :=
  if (s.core mgmtCore).stopped then .next s
  else
    let s1 := takeFault s mgmtCore { code := code, epc := (s.core mgmtCore).live.pc } false
    .next { s1 with runQueue := s1.runQueue.filter (· != mgmtCore) }

/-! ### Objects (R434, R437, R443) -/

/-- An SPDM message reaches the mailbox: it is answered at once by a stopped controller (R432) or during the activation of the management
firmware (R437), else it waits in RXBUF, or behind the one there. -/
def receiveSpdm (s : State) (msg : List Byte) : State :=
  let m := s.mgmt
  if (s.core mgmtCore).stopped then s.emit (.doe (spdmError 0x05))
  else if m.busyUntilPoll then s.emit (.doe (spdmError 0x03))
  else if !m.rxready then s.onMgmt fun m => { m with rxbuf := msg, rxready := true }
  else if m.rxsecond.isNone then s.onMgmt fun m => { m with rxsecond := some msg }
  else s

/-- The request that a body makes (R443): its numbers are 4 bytes each, addresses and lengths 8 (log entry 30). None where the body has the
wrong length. -/
def parseRequest (s : State) (op tag : Nat) (b : List Byte) : Option Request :=
  let n (i : Nat) : Nat := fieldLE b (4 * i) 4
  let mk (args : List Nat) (len : Nat) (rest : List Byte) : Option Request :=
    if b.length == len then some ⟨op, tag, args, rest⟩ else none
  match op with
  | 0x01 => mk [] 0 []
  | 0x02 => mk [] 512 b
  | 0x05 | 0x07 => mk [n 0, n 1] 40 (b.drop 8)
  | 0x06 | 0x09 => mk [n 0, n 1] 72 (b.drop 8)
  | 0x08 => mk [n 0, n 1, fieldLE b 8 8, fieldLE b 16 8] 24 []
  | 0x0B => mk [n 0] 68 (b.drop 4)
  | 0x0A => mk [n 0, n 1] 72 []
  | 0x0F | 0x11 => mk [n 0, n 1] 8 []
  | 0x10 => mk [n 0] 20 (s.bytesAt ⟨.hbm, fieldLE b 4 8⟩ (Nat.min (fieldLE b 12 8) (2 ^ 32)))
  | _ => mk [n 0] 4 []
/-- A management object (R443). -/
def receiveMgmt (s : State) (b : List Byte) : Out :=
  let op := fieldLE b 0 2
  let tag := fieldLE b 2 2
  let len := fieldLE b 4 4
  let bad : Request := ⟨op, tag, misfit, []⟩
  let r : Request :=
    if op == 0 || decide (0x11 < op) then ⟨op, tag, [], []⟩
    else if decide (b.length < 8 + len) then bad
    else (parseRequest s op tag ((b.drop 8).take len)).getD bad
  r.run s
/-- DOE_OBJECT_RECEIVE (R434, R437, R443): SPDM and management objects; any other is no object of the mailbox. -/
def execDoeObjectReceive (object : List Byte) (s : State) : Out :=
  if decide (4096 < object.length) then .next (s.onMgmt fun m => { m with rxlost := m.rxlost + 1 })
  else
    let vendor := fieldLE object 0 2
    let type_ := fieldLE object 2 1
    if vendor == 0x0001 && type_ == 0x01 then .next (receiveSpdm s (object.drop 8))
    else if vendor == 0x1E5C && type_ == 0x40 then receiveMgmt s (object.drop 8)
    else .next s

/-! ### The shipped responder (R438, R439) -/

/-- What a handler of a request comes to: an ERROR code, or the response before SIG, the hash contexts that absorb it with the request, the
state after, the SIGN form (context and CS, 0 none), and the machine with the words it drew. -/
structure Answer where
  st : State
  body : List Byte
  ctxs : List Nat
  after : Nat
  sign : Nat
  cs : Nat

/-- The codes of the requests that R430 lists (log entry 31). -/
def listedCodes : List Nat := [0x84, 0xE1, 0xE3, 0x81, 0x82, 0x83, 0xE0, 0xE4, 0xE5, 0xE8, 0xE9, 0xEC]
/-- Put a response into TXBUF, send it, and free RXBUF. -/
def sendAnswer (s : State) (body : List Byte) : State := doeCtl (s.putBytes ⟨.ctl, 0x2000⟩ body) (body.length * 2 ^ 32 + 3)
/-- The response in version 1.3 (R430): its header says so, and the spec lays the rest down for 1.2 alone, so those bytes are free (log
entry 31). -/
def Answer.in13 (a : Answer) : Answer :=
  { a with st := { a.st with draws := a.st.draws + 1 }, body := (natLE 1 0x13 ++ (a.body.take 4).drop 1 ++ Config.sessionBody a.st.draws).take 4000 }
/-- Absorb a request and its response, sign with the prefix of its version, and send (R436, R438). -/
def finishAnswer (msg : List Byte) (v13 : Bool) (a : Answer) : State :=
  let s1 := setHash (a.st.onMgmt fun m => { m with spdm := { m.spdm with state := a.after } }) a.ctxs (· ++ msg ++ a.body)
  if a.cs == 0 then sendAnswer s1 a.body
  else
    let sig := spdmSign v13 a.cs (hashCtx s1 a.sign)
    sendAnswer (setHash s1 [a.sign] fun _ => hashCtx s1 0) (a.body ++ sig)
/-- The message in RXBUF is answered: an ERROR changes no context and no state (R438). The responder of 25 serves version 1.2; whether the one
that runs serves 1.3 too (R430) is a free value (log entry 31). A message with a code that no request has is
answered as unsupported. -/
def respond (code : Nat) (msg : List Byte) (handler : State → Except Nat Answer) (s : State) : Out :=
  let c := fieldLE msg 1 1
  let v13 := Config.serves13 && fieldLE msg 0 1 == 0x13
  if !s.mgmt.rxready || s.mgmt.rxbuf != msg || (s.core mgmtCore).stopped || s.mgmt.busyUntilPoll then .next s
  else if c != code && listedCodes.contains c then .next s
  else if c != 0x84 && fieldLE msg 0 1 != 0x12 && !v13 then .next (sendAnswer s (spdmError 0x41))
  else if c != code then .next (sendAnswer s (spdmError 0x07))
  else
    match handler s with
    | .error e => .next (sendAnswer s (spdmError e))
    | .ok a => .next (finishAnswer msg v13 (if v13 && c != 0x84 then a.in13 else a))

/-- A handler that runs only in one state of R438. -/
def inState (n : Nat) (h : State → Except Nat Answer) (s : State) : Except Nat Answer :=
  if s.mgmt.spdm.state == n then h s else .error 0x04
/-- Bytes from a list of numbers. -/
def bytesOf (ns : List Nat) : List Byte := ns.map (BitVec.ofNat 8)

/-- GET_VERSION (R438): contexts 0 to 2 are reset; a session ends (log entry 31). -/
def answerVersion (s : State) : Except Nat Answer :=
  .ok { st := (setHash s [0, 1, 2] fun _ => []).onMgmt fun m => { m with spdm := { m.spdm with session := 0 } },
        body := bytesOf [0x10, 0x04, 0, 0, 0, 2, 0, 0x12, 0, 0x13], ctxs := [0, 1, 2], after := 1, sign := 0, cs := 0 }
def execGetVersion (msg : List Byte) (s : State) : Out := respond 0x84 msg answerVersion s

/-- GET_CAPABILITIES (R438). -/
def answerCapabilities (s : State) : Except Nat Answer :=
  .ok { st := s, body := bytesOf [0x12, 0x61, 0, 0, 0, 20, 0, 0, 0xD6, 0x62, 0, 0, 0, 0x10, 0, 0, 0, 0x10, 0, 0], ctxs := [0, 1, 2], after := 2,
        sign := 0, cs := 0 }
def execGetCapabilities (msg : List Byte) (s : State) : Out := respond 0xE1 msg (inState 1 answerCapabilities) s

/-- NEGOTIATE_ALGORITHMS (R438): P-384 and SHA-384 must be offered. -/
def answerAlgorithms (msg : List Byte) (s : State) : Except Nat Answer :=
  if (fieldLE msg 8 4).testBit 7 && (fieldLE msg 12 4).testBit 1 then
    .ok { st := s, body := bytesOf [0x12, 0x63, 0, 0, 36, 0, 1, 2, 4, 0, 0, 0, 0x80, 0, 0, 0, 2] ++ zeros 19, ctxs := [0, 1, 2], after := 3,
          sign := 0, cs := 0 }
  else .error 0x01
def execNegotiateAlgorithms (msg : List Byte) (s : State) : Out := respond 0xE3 msg (inState 2 (answerAlgorithms msg)) s

/-- A response that R430 names without a layout: its header, then any bytes (log entries 9 and 31). -/
def freeAnswer (code : Nat) (ctxs : List Nat) (f : Spdm → Spdm) (s : State) : Except Nat Answer :=
  .ok { st := { s with draws := s.draws + 1 }.onMgmt fun m => { m with spdm := f m.spdm },
        body := (natLE 1 0x12 ++ natLE 1 (code - 0x80) ++ zeros 2 ++ Config.sessionBody s.draws).take 4096, ctxs := ctxs, after := 3, sign := 0,
        cs := 0 }
/-- A request of a session in one of its stages (R430): 0 none, 1 handshake, 2 established. -/
def inSession (n : Nat) (h : State → Except Nat Answer) (s : State) : Except Nat Answer :=
  if s.mgmt.spdm.session == n then h s else .error 0x04
/-- GET_DIGESTS (R430). -/
def execGetDigests (msg : List Byte) (s : State) : Out := respond 0x81 msg (inState 3 (freeAnswer 0x81 [1] id)) s
/-- KEY_EXCHANGE (R430): a session's handshake begins. -/
def execKeyExchange (msg : List Byte) (s : State) : Out :=
  respond 0xE4 msg (inState 3 (inSession 0 (freeAnswer 0xE4 [] fun p => { p with session := 1 }))) s
/-- FINISH (R430): the session is established. -/
def execFinish (msg : List Byte) (s : State) : Out :=
  respond 0xE5 msg (inState 3 (inSession 1 (freeAnswer 0xE5 [] fun p => { p with session := 2 }))) s
/-- HEARTBEAT of a session (R430). -/
def execSpdmHeartbeat (msg : List Byte) (s : State) : Out := respond 0xE8 msg (inState 3 (inSession 2 (freeAnswer 0xE8 [] id))) s
/-- KEY_UPDATE (R430). -/
def execKeyUpdate (msg : List Byte) (s : State) : Out :=
  respond 0xE9 msg (inState 3 (inSession 2 (freeAnswer 0xE9 [] fun p => { p with keysUpdated := p.keysUpdated + 1 }))) s
/-- END_SESSION (R430). -/
def execEndSession (msg : List Byte) (s : State) : Out :=
  respond 0xEC msg (inState 3 (inSession 2 (freeAnswer 0xEC [] fun p => { p with session := 0, ended := p.ended + 1 }))) s

/-- GET_CERTIFICATE (R438): a portion of the chain of slot 0. -/
def answerCertificate (msg : List Byte) (s : State) : Except Nat Answer :=
  let off := fieldLE msg 4 2
  let portion := Nat.min (fieldLE msg 6 2) (certLen - off)
  if fieldLE msg 2 1 % 16 != 0 || decide (certLen < off) then .error 0x01
  else
    .ok { st := s, body := bytesOf [0x12, 0x02, 0, 0] ++ natLE 2 portion ++ natLE 2 (certLen - off - portion) ++ (chainBytes.drop off).take portion,
          ctxs := [1], after := 3, sign := 0, cs := 0 }
def execGetCertificate (msg : List Byte) (s : State) : Out := respond 0x82 msg (inState 3 (answerCertificate msg)) s

/-- A Busy check (R438, R431). -/
def activationBusy (s : State) : Bool := decide (3 ≤ s.mgmt.act.state)
/-- A nonce: four words of RAND (25). -/
def nonceOf (s : State) : List Byte × State :=
  (List.range 4).foldl (fun r _ => let d := randDraw r.2; (r.1 ++ natLE 8 d.1.toNat, d.2)) ([], s)
/-- MEAS0 to MEAS4 in order. -/
def summaryBytes (s : State) : List Byte := ((List.range 5).map (measOf s)).flatten
/-- CHALLENGE (R438, R439): a summary hash reuses context 3. -/
def answerChallenge (msg : List Byte) (s : State) : Except Nat Answer :=
  let kind := fieldLE msg 3 1
  if fieldLE msg 2 1 % 16 != 0 || (kind != 0 && kind != 0xFF) then .error 0x01
  else if kind == 0xFF && activationBusy s then .error 0x03
  else
    let s1 := if kind == 0xFF then setHash s [3] fun _ => summaryBytes s else s
    let n := nonceOf s1
    .ok { st := n.2,
          body := bytesOf [0x12, 0x03, 0, 1] ++ sha384 chainBytes ++ n.1 ++ (if kind == 0xFF then sha384 (summaryBytes s) else []) ++ zeros 2,
          ctxs := [1], after := 3, sign := 1, cs := 1 }
def execChallenge (msg : List Byte) (s : State) : Out := respond 0x83 msg (inState 3 (answerChallenge msg)) s

/-- A measurement block (R439). -/
def measBlock (index type_ : Nat) (value : List Byte) : List Byte :=
  bytesOf [index, 0x01, 0x33, 0, type_, 0x30, 0] ++ value
/-- The block of index 1 to 5. -/
def measBlockOf (s : State) (i : Nat) : List Byte := measBlock i (if i == 1 then 0 else if i == 5 then 2 else 1) (measOf s (i - 1))
/-- Every block of index 0xFF: indices 1 to 5, and 0x20 + p of each partition that is not FREE. -/
def allBlocks (s : State) : List (List Byte) :=
  ([1, 2, 3, 4, 5].map (measBlockOf s)) ++
  ((s.parts.filter fun p => p.2.st != .free).map fun p => measBlock (0x20 + p.1) 1 (padTo 48 p.2.pmeas))
/-- GET_MEASUREMENTS (R431, R438, R439). -/
def answerMeasurements (msg : List Byte) (s : State) : Except Nat Answer :=
  let which := fieldLE msg 3 1
  if activationBusy s then .error 0x03
  else if decide (5 < which) && which != 0xFF then .error 0x01
  else
    let blocks := if which == 0 then [] else if which == 0xFF then allBlocks s else [measBlockOf s which]
    let n := nonceOf s
    .ok { st := n.2,
          body := bytesOf [0x12, 0x60, if which == 0 then 5 else 0, 0] ++ natLE 1 blocks.length ++ natLE 3 (55 * blocks.length) ++ blocks.flatten ++
            n.1 ++ zeros 2,
          ctxs := [2], after := 3, sign := 2, cs := if (fieldLE msg 2 1).testBit 0 then 2 else 0 }
def execGetMeasurements (msg : List Byte) (s : State) : Out := respond 0xE0 msg (inState 3 (answerMeasurements msg)) s

end Sys2Proof.Machine
end

