-- ==== Sys2Proof/Machine/HostLink.lean ====
section
/-! DEFINITION. The host links (R440 to R442), resets of a link (R444), the module (R446), the debugger (R364), and the owner's service key
(R423). -/

namespace Sys2Proof.Machine

/-- The host may reach a byte of device memory (R441): of a range of a CONFIGURED or ACTIVE partition with TRUSTHOST. -/
def hostReaches (s : State) (a : Nat) : Bool := s.parts.any fun e => e.2.open_ && e.2.flag 3 && e.2.holds a 1
/-- Device memory is the first 1 TiB that a link decodes; the counter window follows it (log entry 32). -/
def deviceWindow : Nat := 2 ^ 40
/-- Count a refused access of a link, when some byte was refused (R441). -/
def countRefusal (s : State) (link : Nat) (bad : Bool) : State := if bad then refuseHost s link else s

/-- The dies whose stacks hold the bytes at the addresses are awake (R366). -/
def wakeDies (s : State) (as : List Nat) : State := (as.map homeDie).eraseDups.foldl wakeDie s
/-- HOST_MEMORY_WRITE (R441): bytes that the host may not reach are discarded; a line written whole becomes plaintext. In the counter window an
aligned 8-byte store adds to a HOST counter, and any other is ignored (R122). -/
def execHostMemoryWrite (link addr : Nat) (data : List Byte) (s : State) : Out :=
  if deviceWindow ≤ addr then execHostCounterStore link (addr - deviceWindow) data.length (leNat data) s
  else
    let w := data.zipIdx.map fun x => (addr + x.2, x.1)
    let ok := w.filter fun x => decide (x.1 < deviceWindow) && hostReaches s x.1
    let s1 := ok.foldl (fun t x => t.putByte ⟨.hbm, x.1⟩ x.2) s
    let lines := (ok.map fun x => x.1 / 128).eraseDups.filter fun n => (ok.filter fun x => x.1 / 128 == n).length == 128
    let s2 := lines.foldl (fun t n => t.setForm ⟨.hbm, 128 * n⟩ false) s1
    .next (countRefusal (wakeDies s2 (ok.map (·.1))) link (w.any fun x => decide (x.1 < deviceWindow) && !hostReaches s x.1))

/-- HOST_MEMORY_READ (R441, R122): bytes that the host may not reach read as all ones; an aligned 8-byte load of the counter window reads a
HOST counter, any other load there reads zero. -/
def execHostMemoryRead (link addr len : Nat) (s : State) : Out :=
  if deviceWindow ≤ addr then
    let off := addr - deviceWindow
    let v := if len == 8 && off % 16 == 0 && decide (off < 2 ^ 24) && hostCounterHeld s (off / 16) then (s.ctr (hostHandle (off / 16))).toNat else 0
    .next (s.emit (.hostRead (natLE len v)))
  else
    let as := (List.range len).map (addr + ·)
    let ok (a : Nat) : Bool := decide (a < deviceWindow) && hostReaches s a
    let s1 := wakeDies (s.emit (.hostRead (as.map fun a => if ok a then s.byteAt ⟨.hbm, a⟩ else 0xFF))) (as.filter ok)
    .next (countRefusal s1 link (as.any fun a => !ok a))

/-- SNOOP (R440): every snoop is answered as a miss. -/
def execSnoop (link addr : Nat) (s : State) : Out := .next (s.emit (.snoopMiss link addr))

/-- LINK_HOT_RESET (R444): host loss; nothing else is reset. -/
def execLinkHotReset (link : Nat) (s : State) : Out := done (loseLink s link)
/-- FUNCTION_LEVEL_RESET (R444): a detach for every partition that uses the link. -/
def execFunctionLevelReset (link : Nat) (s : State) : Out := done (loseLink s link)

/-- THERMAL_THROTTLE (R366, R446): timing only. -/
def execThermalThrottle (die : Nat) (s : State) : Out := .next (s.setDie die { s.die die with throttled := true })
/-- DESIGN_POWER_THROTTLE (R366): timing only. -/
def execDesignPowerThrottle (on : Bool) (s : State) : Out := .next { s with throttle := on }

/-- DEBUGGER_HALT (R364): a halted context's watchdog does not count; its strands do not issue. -/
def execDebuggerHalt (ctx : Nat) (halt : Bool) (s : State) : Out :=
  let j := s.job ctx
  if j.phase == .ended then .next s else .next ((noteWatch s ctx).setJob ctx { (noteWatch s ctx).job ctx with halted := halt })

/-- SERVICE_KEY_HASH_INSTALL (R423): a DOE request of the partition's owner; it waits as the others do (R427). -/
def execServiceKeyHashInstall (pid : Nat) (hash : List Byte) (s : State) : Out := (⟨opKeyHash, 0, [pid], hash⟩ : Request).run s

/-- What the board management controller reads at the side port (R446): the boot status, ACTSTAT, and the temperatures and the input power,
which are free values (log entry 134). No read of it changes the package. -/
structure SidePort where
  bootStatus : Nat
  actStat : Nat
  temperatures : List Nat
  inputPower : Nat
  deriving DecidableEq, Repr
/-- The side port's reads (R446). -/
def State.sidePort (s : State) : SidePort :=
  { bootStatus := Sys2Proof.Machine.bootStatus s, actStat := Sys2Proof.Machine.actStat s,
    temperatures := (List.range 8).map (Config.temperature s.ticks), inputPower := Config.inputPower s.ticks }

end Sys2Proof.Machine
end

