-- ==== Sys2Proof/Machine/Issue.lean ====
section
/-! DEFINITION. Issue of an agent: a bundle instance of a core (R138, R153), or a word of a leat core (R405, R407). -/

namespace Sys2Proof.Machine

/-- A move by its meaning; anything else is no move. -/
def runMove (i : Instr) (s : State) : Out :=
  match i with
  | .move m d => execMove m d s
  | .aluAdd m => execAluAdd m s
  | .aluSub m => execAluSub m s
  | .aluAnd m => execAluAnd m s
  | .aluOr m => execAluOr m s
  | .aluXor m => execAluXor m s
  | .aluShl m => execAluShl m s
  | .aluShr m => execAluShr m s
  | .aluSra m => execAluSra m s
  | .aluEq m => execAluEq m s
  | .aluLt m => execAluLt m s
  | .aluLtu m => execAluLtu m s
  | .aluSel m => execAluSel m s
  | .lsuLd32 m => execLsuLd32 m s
  | .lsuLd64 m => execLsuLd64 m s
  | .lsuSt32 m => execLsuSt32 m s
  | .lsuSt64 m => execLsuSt64 m s
  | .evqPop m => execEvqPop m s
  | .evqPeek m => execEvqPeek m s
  | .txuTxdesc m => execTxuTxdesc m s
  | .txuRetx m => execTxuRetx m s
  | .txuAcknow m => execTxuAcknow m s
  | .bmuBset m => execBmuBset m s
  | .bmuBtest m => execBmuBtest m s
  | .bmuBffc m => execBmuBffc m s
  | .bmuBcnt m => execBmuBcnt m s
  | .ccuWinupd m => execCcuWinupd m s
  | .ccuRateset m => execCcuRateset m s
  | .tmrTarm m => execTmrTarm m s
  | .tmrTcancel m => execTmrTcancel m s
  | .ctrCadd m => execCtrCadd m s
  | .pcJump m => execPcJump m s
  | .pcCall m => execPcCall m s
  | .pcRet m => execPcRet m s
  | .pcHalt m => execPcHalt m s
  | _ => .next s

/-- The state after a move. -/
def moveState (s : State) (m : LeatMove) : State :=
  match runMove m.op s with
  | .next t => t
  | _ => s

/-- The moves in the order of R405: registers and operand ports by slot, then triggers by slot. -/
def moveOrder (ms : List LeatMove) : List LeatMove := (ms.filter fun m => leatPlainDst m.dst) ++ ms.filter fun m => !leatPlainDst m.dst

/-- A leat core stops with a fault (R418): its word has had no effect. -/
def leatFaults (s : State) (n code : Nat) : State :=
  let x := s.leat n
  { s.setLeat n { x.settle with run := false, halted := true, fcode := code, fpc := x.pc / 16 } with
    runQueue := s.runQueue.filter (· != 1000 + n) }

/-- The PC after a word (R407): the target when the word was a delay slot, else the next word; a new target follows the delay slot. -/
def leatAdvance (x : Leat) (u : Cursor) : Leat :=
  { x with pc := x.target.getD ((x.pc + 16) % 65536), target := u.leatTarget }
/-- HALT (R407): results in flight land, and the core stops. -/
def leatHalts (s : State) (n : Nat) : State :=
  { s.setLeat n { (s.leat n).settle with run := false, halted := true, fcode := 0, target := none } with
    runQueue := s.runQueue.filter (· != 1000 + n) }

/-- The commands that the TXU of a leat core holds (R413): the resends that its connections' limits, ports or pages have stopped (log entry 117). -/
def txuHeld (s : State) (n : Nat) : Nat :=
  (s.parts.map fun p => (p.2.conns.map fun c => if portLeat c.2.port == n then c.2.held.length else 0).sum).sum
/-- The commands that the TXU of a leat core can hold (R413). -/
def txuSize : Nat := 64
/-- A move triggers the TXU. -/
def triggersTxu (s : State) (i : Instr) : Bool :=
  match i with
  | .txuTxdesc m | .txuRetx m | .txuAcknow m => leatGuard s m
  | _ => false
/-- A leat core issues one word (R405): what is due lands, the word is decoded, its moves take effect together, or it faults. A word that triggers
a full TXU stalls until a place frees (R413). -/
def leatIssue (n : Nat) (s0 : State) : State :=
  let x := { (s0.leat n).tick with fresh := 0 }
  let s := s0.setLeat n x
  if !x.run || x.halted then s0
  else
    match decodeLeat (x.imem.bytes x.pc 16) with
    | .error e => leatFaults s n e
    | .ok ms =>
      let at_ : State := { s with cur := { core := 1000 + n } }
      if decide (txuSize ≤ txuHeld s n) && ms.any (fun m => triggersTxu at_ m.op) then s
      else
      let t := (moveOrder ms).foldl moveState { s with cur := { core := 1000 + n, leatSeen := some (x.queue.length - (s0.leat n).fresh, x.tmrx) } }
      let u := t.cur
      let t1 : State := { t with cur := {} }
      if u.aborted then leatFaults s n u.leatFault
      else if u.leatHalt then leatHalts t1 n
      else t1.setLeat n (leatAdvance (t1.leat n) u)

/-- BUNDLE_INSTANCE_ISSUE (R138, R153, R405): an agent issues: a core one bundle instance, a leat core one word. -/
def execBundleInstanceIssue (agent : Nat) (s : State) : Out :=
  done (if 1000 ≤ agent then leatIssue (agent - 1000) s else coreIssue agent s)

end Sys2Proof.Machine
end

