-- ==== Sys2Proof/Machine/Dispatch.lean ====
section
/-! DEFINITION. One arm per constructor of Instr. -/

namespace Sys2Proof.Machine

def exec (i : Instr) (s : State) : Host.Outcome State Fault Refusal :=
  match i with
  | .nop g => Sys2Proof.Machine.execNop g s
  | .add f => Sys2Proof.Machine.execAdd f s
  | .sub f => Sys2Proof.Machine.execSub f s
  | .mul f => Sys2Proof.Machine.execMul f s
  | .mulh f => Sys2Proof.Machine.execMulh f s
  | .div f => Sys2Proof.Machine.execDiv f s
  | .rem f => Sys2Proof.Machine.execRem f s
  | .and f => Sys2Proof.Machine.execAnd f s
  | .or f => Sys2Proof.Machine.execOr f s
  | .xor f => Sys2Proof.Machine.execXor f s
  | .shl f => Sys2Proof.Machine.execShl f s
  | .shr f => Sys2Proof.Machine.execShr f s
  | .sra f => Sys2Proof.Machine.execSra f s
  | .min f => Sys2Proof.Machine.execMin f s
  | .max f => Sys2Proof.Machine.execMax f s
  | .clz f => Sys2Proof.Machine.execClz f s
  | .popc f => Sys2Proof.Machine.execPopc f s
  | .sel f => Sys2Proof.Machine.execSel f s
  | .setp f => Sys2Proof.Machine.execSetp f s
  | .addi f => Sys2Proof.Machine.execAddi f s
  | .andi f => Sys2Proof.Machine.execAndi f s
  | .ori f => Sys2Proof.Machine.execOri f s
  | .xori f => Sys2Proof.Machine.execXori f s
  | .shli f => Sys2Proof.Machine.execShli f s
  | .shri f => Sys2Proof.Machine.execShri f s
  | .srai f => Sys2Proof.Machine.execSrai f s
  | .movi f => Sys2Proof.Machine.execMovi f s
  | .movh f => Sys2Proof.Machine.execMovh f s
  | .br f => Sys2Proof.Machine.execBr f s
  | .jmp f => Sys2Proof.Machine.execJmp f s
  | .call f => Sys2Proof.Machine.execCall f s
  | .ret f => Sys2Proof.Machine.execRet f s
  | .loop f => Sys2Proof.Machine.execLoop f s
  | .loopi f => Sys2Proof.Machine.execLoopi f s
  | .lbrk f => Sys2Proof.Machine.execLbrk f s
  | .exit f => Sys2Proof.Machine.execExit f s
  | .csrr f => Sys2Proof.Machine.execCsrr f s
  | .csrw f => Sys2Proof.Machine.execCsrw f s
  | .csrwSet f => Sys2Proof.Machine.execCsrwSet f s
  | .csrwClr f => Sys2Proof.Machine.execCsrwClr f s
  | .svc f => Sys2Proof.Machine.execSvc f s
  | .sret f => Sys2Proof.Machine.execSret f s
  | .fence f => Sys2Proof.Machine.execFence f s
  | .join f => Sys2Proof.Machine.execJoin f s
  | .leave f => Sys2Proof.Machine.execLeave f s
  | .grp f => Sys2Proof.Machine.execGrp f s
  | .launch f => Sys2Proof.Machine.execLaunch f s
  | .yieldOp f => Sys2Proof.Machine.execYieldOp f s
  | .dress f => Sys2Proof.Machine.execDress f s
  | .plog f => Sys2Proof.Machine.execPlog f s
  | .pmov f => Sys2Proof.Machine.execPmov f s
  | .tdef f => Sys2Proof.Machine.execTdef f s
  | .vadd f => Sys2Proof.Machine.execVadd f s
  | .vsub f => Sys2Proof.Machine.execVsub f s
  | .vmul f => Sys2Proof.Machine.execVmul f s
  | .vfma f => Sys2Proof.Machine.execVfma f s
  | .vmin f => Sys2Proof.Machine.execVmin f s
  | .vmax f => Sys2Proof.Machine.execVmax f s
  | .vabs f => Sys2Proof.Machine.execVabs f s
  | .vneg f => Sys2Proof.Machine.execVneg f s
  | .vand f => Sys2Proof.Machine.execVand f s
  | .vor f => Sys2Proof.Machine.execVor f s
  | .vxor f => Sys2Proof.Machine.execVxor f s
  | .vshl f => Sys2Proof.Machine.execVshl f s
  | .vshr f => Sys2Proof.Machine.execVshr f s
  | .vsra f => Sys2Proof.Machine.execVsra f s
  | .vcmp f => Sys2Proof.Machine.execVcmp f s
  | .vsel f => Sys2Proof.Machine.execVsel f s
  | .vred f => Sys2Proof.Machine.execVred f s
  | .vscan f => Sys2Proof.Machine.execVscan f s
  | .vperm f => Sys2Proof.Machine.execVperm f s
  | .vbcast f => Sys2Proof.Machine.execVbcast f s
  | .vextr f => Sys2Proof.Machine.execVextr f s
  | .vrcp f => Sys2Proof.Machine.execVrcp f s
  | .vrsq f => Sys2Proof.Machine.execVrsq f s
  | .vexp2 f => Sys2Proof.Machine.execVexp2 f s
  | .vlog2 f => Sys2Proof.Machine.execVlog2 f s
  | .viota f => Sys2Proof.Machine.execViota f s
  | .vdot4 f => Sys2Proof.Machine.execVdot4 f s
  | .lds f => Sys2Proof.Machine.execLds f s
  | .sts f => Sys2Proof.Machine.execSts f s
  | .ldv f => Sys2Proof.Machine.execLdv f s
  | .stv f => Sys2Proof.Machine.execStv f s
  | .ldvs f => Sys2Proof.Machine.execLdvs f s
  | .stvs f => Sys2Proof.Machine.execStvs f s
  | .ldvx f => Sys2Proof.Machine.execLdvx f s
  | .stvx f => Sys2Proof.Machine.execStvx f s
  | .pref f => Sys2Proof.Machine.execPref f s
  | .atom f => Sys2Proof.Machine.execAtom f s
  | .accv f => Sys2Proof.Machine.execAccv f s
  | .cflush f => Sys2Proof.Machine.execCflush f s
  | .cinv f => Sys2Proof.Machine.execCinv f s
  | .cvt f => Sys2Proof.Machine.execCvt f s
  | .qnt f => Sys2Proof.Machine.execQnt f s
  | .dqnt f => Sys2Proof.Machine.execDqnt f s
  | .ldk f => Sys2Proof.Machine.execLdk f s
  | .stk f => Sys2Proof.Machine.execStk f s
  | .movk f => Sys2Proof.Machine.execMovk f s
  | .rndw f => Sys2Proof.Machine.execRndw f s
  | .rndc f => Sys2Proof.Machine.execRndc f s
  | .sealTile f => Sys2Proof.Machine.execSealTile f s
  | .openTile f => Sys2Proof.Machine.execOpenTile f s
  | .pack f => Sys2Proof.Machine.execPack f s
  | .unpack f => Sys2Proof.Machine.execUnpack f s
  | .mldb f => Sys2Proof.Machine.execMldb f s
  | .mma f => Sys2Proof.Machine.execMma f s
  | .mtrn f => Sys2Proof.Machine.execMtrn f s
  | .mscl f => Sys2Proof.Machine.execMscl f s
  | .madd f => Sys2Proof.Machine.execMadd f s
  | .mcvt f => Sys2Proof.Machine.execMcvt f s
  | .mzero f => Sys2Proof.Machine.execMzero f s
  | .mcpy f => Sys2Proof.Machine.execMcpy f s
  | .mvs f => Sys2Proof.Machine.execMvs f s
  | .mqnt f => Sys2Proof.Machine.execMqnt f s
  | .cpy f => Sys2Proof.Machine.execCpy f s
  | .cpyD f => Sys2Proof.Machine.execCpyD f s
  | .send f => Sys2Proof.Machine.execSend f s
  | .arm f => Sys2Proof.Machine.execArm f s
  | .disarm f => Sys2Proof.Machine.execDisarm f s
  | .cadd f => Sys2Proof.Machine.execCadd f s
  | .caddf f => Sys2Proof.Machine.execCaddf f s
  | .caddm f => Sys2Proof.Machine.execCaddm f s
  | .mcst f => Sys2Proof.Machine.execMcst f s
  | .cload f => Sys2Proof.Machine.execCload f s
  | .coll f => Sys2Proof.Machine.execColl f s
  | .gen f => Sys2Proof.Machine.execGen f s
  | .qstat f => Sys2Proof.Machine.execQstat f s
  | .waitf f => Sys2Proof.Machine.execWaitf f s
  | .watch f => Sys2Proof.Machine.execWatch f s
  | .unwatch f => Sys2Proof.Machine.execUnwatch f s
  | .bundleInstanceIssue agent => Sys2Proof.Machine.execBundleInstanceIssue agent s
  | .releaseBufferDrain core => Sys2Proof.Machine.execReleaseBufferDrain core s
  | .resultLanding core => Sys2Proof.Machine.execResultLanding core s
  | .tileOperationComplete core => Sys2Proof.Machine.execTileOperationComplete core s
  | .freezeClear core => Sys2Proof.Machine.execFreezeClear core s
  | .loadEccFailure core addr => Sys2Proof.Machine.execLoadEccFailure core addr s
  | .arrayReadFailure core addr => Sys2Proof.Machine.execArrayReadFailure core addr s
  | .preemptionRequest core => Sys2Proof.Machine.execPreemptionRequest core s
  | .preemptionFreezeTimeout core => Sys2Proof.Machine.execPreemptionFreezeTimeout core s
  | .bankroleZeroingStart mill => Sys2Proof.Machine.execBankroleZeroingStart mill s
  | .bankroleZeroingEnd mill => Sys2Proof.Machine.execBankroleZeroingEnd mill s
  | .mOperationDispatch core => Sys2Proof.Machine.execMOperationDispatch core s
  | .dressWaitExpiry core => Sys2Proof.Machine.execDressWaitExpiry core s
  | .counterUpdate h amount by_ => Sys2Proof.Machine.execCounterUpdate h amount by_ s
  | .hostintPost link vec => Sys2Proof.Machine.execHostintPost link vec s
  | .waiterArrival w => Sys2Proof.Machine.execWaiterArrival w s
  | .waiterRemoval ctx strand flag => Sys2Proof.Machine.execWaiterRemoval ctx strand flag s
  | .watchDeadlineExpiry ctx strand flag => Sys2Proof.Machine.execWatchDeadlineExpiry ctx strand flag s
  | .hostCounterStore link off width value => Sys2Proof.Machine.execHostCounterStore link off width value s
  | .launchQueueEntryAccept pid queue => Sys2Proof.Machine.execLaunchQueueEntryAccept pid queue s
  | .dispatch pid => Sys2Proof.Machine.execDispatch pid s
  | .contextSwitchOut ctx base tagAddr => Sys2Proof.Machine.execContextSwitchOut ctx base tagAddr s
  | .contextRestore ctx => Sys2Proof.Machine.execContextRestore ctx s
  | .contextComplete ctx => Sys2Proof.Machine.execContextComplete ctx s
  | .blockYield ctx => Sys2Proof.Machine.execBlockYield ctx s
  | .agePeriodExpiry pid task => Sys2Proof.Machine.execAgePeriodExpiry pid task s
  | .watchdog ctx => Sys2Proof.Machine.execWatchdog ctx s
  | .gangSliceStart pid gang k => Sys2Proof.Machine.execGangSliceStart pid gang k s
  | .gangSliceEnd pid gang => Sys2Proof.Machine.execGangSliceEnd pid gang s
  | .gangMiss pid gang task k => Sys2Proof.Machine.execGangMiss pid gang task k s
  | .idleStateEntry u level => Sys2Proof.Machine.execIdleStateEntry u level s
  | .idleWake u => Sys2Proof.Machine.execIdleWake u s
  | .translationWalkComplete die pid space va => Sys2Proof.Machine.execTranslationWalkComplete die pid space va s
  | .pageDevice core mapped entryAddr entry => Sys2Proof.Machine.execPageDevice core mapped entryAddr entry s
  | .pageRequestResponse die index code => Sys2Proof.Machine.execPageRequestResponse die index code s
  | .atsTranslationCompletion die pid space page addr r w => Sys2Proof.Machine.execAtsTranslationCompletion die pid space page addr r w s
  | .atsInvalidateRequest pid space page pages => Sys2Proof.Machine.execAtsInvalidateRequest pid space page pages s
  | .hostLoss link => Sys2Proof.Machine.execHostLoss link s
  | .hostlostGraceExpiry pid => Sys2Proof.Machine.execHostlostGraceExpiry pid s
  | .engineCommandStart id => Sys2Proof.Machine.execEngineCommandStart id s
  | .sluiceBeatDelivery id => Sys2Proof.Machine.execSluiceBeatDelivery id s
  | .engineCommandComplete id => Sys2Proof.Machine.execEngineCommandComplete id s
  | .mcstComplete id => Sys2Proof.Machine.execMcstComplete id s
  | .armEffect id => Sys2Proof.Machine.execArmEffect id s
  | .disarmEffect id => Sys2Proof.Machine.execDisarmEffect id s
  | .cloadStart id => Sys2Proof.Machine.execCloadStart id s
  | .collInstanceStart id => Sys2Proof.Machine.execCollInstanceStart id s
  | .chunkOperationStart die slot op => Sys2Proof.Machine.execChunkOperationStart die slot op s
  | .chunkOperationComplete die slot op => Sys2Proof.Machine.execChunkOperationComplete die slot op s
  | .mvsComplete core => Sys2Proof.Machine.execMvsComplete core s
  | .dataPacketReceive p => Sys2Proof.Machine.execDataPacketReceive p s
  | .counterPacketReceive p => Sys2Proof.Machine.execCounterPacketReceive p s
  | .ackReceive conn cumulative bitmap credit marked => Sys2Proof.Machine.execAckReceive conn cumulative bitmap credit marked s
  | .instanceNotArmed conn psn inst slot => Sys2Proof.Machine.execInstanceNotArmed conn psn inst slot s
  | .trimRx conn psn => Sys2Proof.Machine.execTrimRx conn psn s
  | .rtoExpired conn => Sys2Proof.Machine.execRtoExpired conn s
  | .llrReplay port frames first => Sys2Proof.Machine.execLlrReplay port frames first s
  | .keyExpiry port conn key pn sublayer => Sys2Proof.Machine.execKeyExpiry port conn key pn sublayer s
  | .ptpTimeCorrection backward ns => Sys2Proof.Machine.execPtpTimeCorrection backward ns s
  | .connReq port node addr => Sys2Proof.Machine.execConnReq port node addr s
  | .connectionHandshakeComplete conn => Sys2Proof.Machine.execConnectionHandshakeComplete conn s
  | .connClose conn => Sys2Proof.Machine.execConnClose conn s
  | .connectionClosed conn => Sys2Proof.Machine.execConnectionClosed conn s
  | .linkDown port mask => Sys2Proof.Machine.execLinkDown port mask s
  | .move m dst => Sys2Proof.Machine.execMove m dst s
  | .aluAdd m => Sys2Proof.Machine.execAluAdd m s
  | .aluSub m => Sys2Proof.Machine.execAluSub m s
  | .aluAnd m => Sys2Proof.Machine.execAluAnd m s
  | .aluOr m => Sys2Proof.Machine.execAluOr m s
  | .aluXor m => Sys2Proof.Machine.execAluXor m s
  | .aluShl m => Sys2Proof.Machine.execAluShl m s
  | .aluShr m => Sys2Proof.Machine.execAluShr m s
  | .aluSra m => Sys2Proof.Machine.execAluSra m s
  | .aluEq m => Sys2Proof.Machine.execAluEq m s
  | .aluLt m => Sys2Proof.Machine.execAluLt m s
  | .aluLtu m => Sys2Proof.Machine.execAluLtu m s
  | .aluSel m => Sys2Proof.Machine.execAluSel m s
  | .lsuLd32 m => Sys2Proof.Machine.execLsuLd32 m s
  | .lsuLd64 m => Sys2Proof.Machine.execLsuLd64 m s
  | .lsuSt32 m => Sys2Proof.Machine.execLsuSt32 m s
  | .lsuSt64 m => Sys2Proof.Machine.execLsuSt64 m s
  | .evqPop m => Sys2Proof.Machine.execEvqPop m s
  | .evqPeek m => Sys2Proof.Machine.execEvqPeek m s
  | .txuTxdesc m => Sys2Proof.Machine.execTxuTxdesc m s
  | .txuRetx m => Sys2Proof.Machine.execTxuRetx m s
  | .txuAcknow m => Sys2Proof.Machine.execTxuAcknow m s
  | .bmuBset m => Sys2Proof.Machine.execBmuBset m s
  | .bmuBtest m => Sys2Proof.Machine.execBmuBtest m s
  | .bmuBffc m => Sys2Proof.Machine.execBmuBffc m s
  | .bmuBcnt m => Sys2Proof.Machine.execBmuBcnt m s
  | .ccuWinupd m => Sys2Proof.Machine.execCcuWinupd m s
  | .ccuRateset m => Sys2Proof.Machine.execCcuRateset m s
  | .tmrTarm m => Sys2Proof.Machine.execTmrTarm m s
  | .tmrTcancel m => Sys2Proof.Machine.execTmrTcancel m s
  | .ctrCadd m => Sys2Proof.Machine.execCtrCadd m s
  | .pcJump m => Sys2Proof.Machine.execPcJump m s
  | .pcCall m => Sys2Proof.Machine.execPcCall m s
  | .pcRet m => Sys2Proof.Machine.execPcRet m s
  | .pcHalt m => Sys2Proof.Machine.execPcHalt m s
  | .programTimerExpiry leat n => Sys2Proof.Machine.execProgramTimerExpiry leat n s
  | .lctlRun leat value => Sys2Proof.Machine.execLctlRun leat value s
  | .readBootStatus tag => Sys2Proof.Machine.execReadBootStatus tag s
  | .writePartitionDescriptor tag body => Sys2Proof.Machine.execWritePartitionDescriptor tag body s
  | .activatePartition tag pid => Sys2Proof.Machine.execActivatePartition tag pid s
  | .destroyPartition tag pid => Sys2Proof.Machine.execDestroyPartition tag pid s
  | .drainingComplete pid => Sys2Proof.Machine.execDrainingComplete pid s
  | .writeLaunchQueueDescriptor tag pid queue body => Sys2Proof.Machine.execWriteLaunchQueueDescriptor tag pid queue body s
  | .writeAddressSpaceDescriptor tag pid space body => Sys2Proof.Machine.execWriteAddressSpaceDescriptor tag pid space body s
  | .writeGangDescriptor tag pid gang body => Sys2Proof.Machine.execWriteGangDescriptor tag pid gang body s
  | .invalidateTranslations tag pid space base len => Sys2Proof.Machine.execInvalidateTranslations tag pid space base len s
  | .openConnection tag pid index body => Sys2Proof.Machine.execOpenConnection tag pid index body s
  | .closeConnection tag pid index => Sys2Proof.Machine.execCloseConnection tag pid index s
  | .loadKeySlot tag slot body => Sys2Proof.Machine.execLoadKeySlot tag slot body s
  | .detach tag pid => Sys2Proof.Machine.execDetach tag pid s
  | .reattach tag pid => Sys2Proof.Machine.execReattach tag pid s
  | .killSuspended tag pid => Sys2Proof.Machine.execKillSuspended tag pid s
  | .readPartitionRecord tag pid which => Sys2Proof.Machine.execReadPartitionRecord tag pid which s
  | .requestActivation tag kind image => Sys2Proof.Machine.execRequestActivation tag kind image s
  | .raiseSvnFloor tag kind floor => Sys2Proof.Machine.execRaiseSvnFloor tag kind floor s
  | .activationFreeze hver payload => Sys2Proof.Machine.execActivationFreeze hver payload s
  | .activationHandover => Sys2Proof.Machine.execActivationHandover s
  | .activationFreezeTimeout => Sys2Proof.Machine.execActivationFreezeTimeout s
  | .heartbeat value => Sys2Proof.Machine.execHeartbeat value s
  | .heartbeatTimeout => Sys2Proof.Machine.execHeartbeatTimeout s
  | .getVersion msg => Sys2Proof.Machine.execGetVersion msg s
  | .getCapabilities msg => Sys2Proof.Machine.execGetCapabilities msg s
  | .negotiateAlgorithms msg => Sys2Proof.Machine.execNegotiateAlgorithms msg s
  | .getDigests msg => Sys2Proof.Machine.execGetDigests msg s
  | .getCertificate msg => Sys2Proof.Machine.execGetCertificate msg s
  | .challenge msg => Sys2Proof.Machine.execChallenge msg s
  | .getMeasurements msg => Sys2Proof.Machine.execGetMeasurements msg s
  | .keyExchange msg => Sys2Proof.Machine.execKeyExchange msg s
  | .finish msg => Sys2Proof.Machine.execFinish msg s
  | .spdmHeartbeat msg => Sys2Proof.Machine.execSpdmHeartbeat msg s
  | .keyUpdate msg => Sys2Proof.Machine.execKeyUpdate msg s
  | .endSession msg => Sys2Proof.Machine.execEndSession msg s
  | .doeObjectReceive object => Sys2Proof.Machine.execDoeObjectReceive object s
  | .txgo len => Sys2Proof.Machine.execTxgo len s
  | .rxdone => Sys2Proof.Machine.execRxdone s
  | .hashReset cmd => Sys2Proof.Machine.execHashReset cmd s
  | .hashAbsorb cmd => Sys2Proof.Machine.execHashAbsorb cmd s
  | .hashDigest cmd => Sys2Proof.Machine.execHashDigest cmd s
  | .hashSign cmd => Sys2Proof.Machine.execHashSign cmd s
  | .hashClone cmd => Sys2Proof.Machine.execHashClone cmd s
  | .randRead => Sys2Proof.Machine.execRandRead s
  | .managementControllerFault code => Sys2Proof.Machine.execManagementControllerFault code s
  | .hostMemoryWrite link addr data => Sys2Proof.Machine.execHostMemoryWrite link addr data s
  | .hostMemoryRead link addr len => Sys2Proof.Machine.execHostMemoryRead link addr len s
  | .packageReset => Sys2Proof.Machine.execPackageReset s
  | .linkHotReset link => Sys2Proof.Machine.execLinkHotReset link s
  | .functionLevelReset link => Sys2Proof.Machine.execFunctionLevelReset link s
  | .thermalThrottle die => Sys2Proof.Machine.execThermalThrottle die s
  | .thermalTrip => Sys2Proof.Machine.execThermalTrip s
  | .sidePortResetRequest => Sys2Proof.Machine.execSidePortResetRequest s
  | .activationStageTimeout => Sys2Proof.Machine.execActivationStageTimeout s
  | .nackRx conn psn reason => Sys2Proof.Machine.execNackRx conn psn reason s
  | .priReenable die => Sys2Proof.Machine.execPriReenable die s
  | .linkUp port => Sys2Proof.Machine.execLinkUp port s
  | .linkPartnerAcknowledgement port frame => Sys2Proof.Machine.execLinkPartnerAcknowledgement port frame s
  | .debuggerHalt ctx halt => Sys2Proof.Machine.execDebuggerHalt ctx halt s
  | .serviceKeyHashInstall pid hash => Sys2Proof.Machine.execServiceKeyHashInstall pid hash s
  | .designPowerThrottle on => Sys2Proof.Machine.execDesignPowerThrottle on s
  | .snoop link addr => Sys2Proof.Machine.execSnoop link addr s

end Sys2Proof.Machine
end

