-- ==== Sys2Proof/Machine/Step.lean ====
section
/-! DEFINITION. One step of the machine: the oldest event that the machine has set itself, else a bundle instance or word of the next
running agent (R138, R402). Beside it, the state in which a lone word is what an agent fetches next. -/

namespace Sys2Proof.Machine

/-- One step: time passes (R397), then the first event of the agenda, or the next agent of the run queue issues. -/
def step (s : State) : Host.Outcome State Fault Refusal :=
  let t := { s with
    ticks := s.ticks + 1, cycle := s.cycle + Config.elapsedCycles s.ticks, leatCycle := s.leatCycle + Config.leatCycles s.ticks }
  match s.agenda with
  | i :: rest => exec i { t with agenda := rest }
  | [] =>
    match s.runQueue with
    | [] => .next t
    | a :: as => exec (.bundleInstanceIssue a) { t with runQueue := as ++ [a] }

/-- The slot in which a lone word is placed: the one whose reading decodeTableWord answers. -/
def slotOfWord (w : Nat) (ext : Option Nat) : List Nat → Option Nat
  | [] => none
  | s :: ss =>
    match decodeSlot s w ext with
    | .ok _ => some s
    | .error _ => slotOfWord w ext ss

/-- A one-slot bundle: its header (R164), the slot word, and an extension word of 0 when the EXT bit is set. -/
def loneBundle (slot w : Nat) : List Byte :=
  if w.testBit 21 then natLE 4 (2 ^ (31 - slot) + 2 * 2 ^ 12) ++ natLE 4 w ++ zeros 4
  else natLE 4 (2 ^ (31 - slot) + 2 ^ 12) ++ natLE 4 w

/-- The code page of the placed context: user address 0x1000, the first page of stack 0. -/
def placedPage : TlbEnt :=
  { pid := 0, aspace := 0, va := 0x1000, size := 0x1000, r := true, w := true, x := true, host := false, addr := 0 }
/-- A partition that holds quad 0 and 64 pages of stack 0, runs unsigned code, and has space 0 with a fault ring (R335, R368). -/
def placedPart : Partition :=
  { st := .active,
    desc := setLE (setLE (setLE (setLE (zeros 512) 5 1 0x20) 8 1 1) 392 4 64) 396 1 1,
    spaces := [(0, setLE (setLE (setLE (setLE (setLE (zeros 64) 0 8 0x2000) 12 1 1) 13 1 4) 16 8 0x3000) 24 8 (mkHandle 1 0 0))] }
/-- A context of one strand on core 0 (R353). -/
def placedJob : Job :=
  { id := 1, pid := 0, record := setLE (setLE (zeros 128) 12 2 1) 14 1 1, recLoc := ⟨.hbm, 0x4000⟩, depth := 0, parent := none, key := [1],
    level := 0, phase := .running, launched := false, dispatched := true, ctxid := 1, mills := [0, 1, 2, 3], strands := [.core 0] }
/-- Core 0 with that strand at the start of its code. -/
def placedCore : Core :=
  { live := { pc := 0x1000 }, shadow := { pc := 0x1000 }, ckptPc := 0x1000, job := some 1, codebase := 0x1000, codelen := 0x1000,
    seghead := zeros 64, checked := [], tlb := [placedPage] }

/-- s with a lone word where the next step fetches: a Garsum word as a one-slot bundle of a context on core 0, an Adesal move in slot 0
of leat core 0's next word (log entry 11). -/
def State.withFetchWord (s : State) (_nbits w : Nat) : State :=
  let word := w % 2 ^ 32
  let ext := if word.testBit 21 then some 0 else none
  match slotOfWord word ext [0, 1, 2, 3, 4, 6, 7] with
  | some slot =>
    ({ s with agenda := [], runQueue := [0], parts := tins s.parts 0 placedPart, jobs := tins s.jobs 1 placedJob, nextJob := 1,
              hbm := s.hbm.store 0 (loneBundle slot word) } : State).setCore 0 placedCore
  | none =>
    match decodeMove word 0 with
    | .ok _ =>
      { s with agenda := [], runQueue := [1000] }.setLeat 0
        { run := true, halted := false, imem := Memory.store [] 0 (natLE 4 word) }
    | .error _ =>
      ({ s with agenda := [], runQueue := [0], parts := tins s.parts 0 placedPart, jobs := tins s.jobs 1 placedJob, nextJob := 1,
                hbm := s.hbm.store 0 (loneBundle 0 word) } : State).setCore 0 placedCore

end Sys2Proof.Machine
end

