-- ==== Sys2Proof/Safety.lean ====
section
/-! DEFINITION. What a well-formed state is, and the terms in which claims are stated: when a slot operation takes effect, and the state
after an operation whose whole effect is results in flight and status bits. -/

namespace Sys2Proof.Machine

/-- Every memory is in canonical form: addresses strictly rising and no listed byte 0. -/
def State.memWf (s : State) : Bool := s.hbm.wf && s.banks.wf && s.hostMem.wf && s.mcram.wf

/-- A step that answers a next state is safe; the model's other outcomes mark a misuse. -/
def Safe (s : State) : Prop := ∃ t, step s = .next t

/-- An operation of a slot with guard g takes effect (R12, R41, R153, R168): the instance has neither faulted nor been held, the guard
passes, and the operation is not masked. -/
def Issues (slot g : Nat) (s : State) : Prop :=
  s.cur.aborted = false ∧ s.cur.frozen = false ∧ guardPasses s.curCore.live g = true ∧ s.curCore.masks.contains (s.cur.inst, slot) = false

/-- The state in which a slot's operation stands. -/
def State.atSlot (s : State) (slot : Nat) : State := { s with cur := { s.cur with slot := slot } }
/-- A scalar operand of a slot of the issuing core (R173). -/
def State.srcS (s : State) (slot code : Nat) : Word := readS s.curCore.live slot code
/-- A vector operand of a slot of the issuing core (R173). -/
def State.srcV (s : State) (slot code : Nat) : Vec := readV s.curCore.live slot code
/-- LATCHRD when a source is an undefined latch (R37). -/
def latchStatus (s : State) (slot : Nat) (codes : List Nat) : Word := if codes.any (readsUndef s.curCore.live slot) then 0x80 else 0

/-- s after an operation of a slot whose whole effect is on the issuing core: the sources codes are read, the status bits st are set, and
the results ls are in flight behind those that were. -/
def State.delivers (s : State) (slot : Nat) (codes : List Nat) (st : Nat) (ls : List Landing) : State :=
  (s.atSlot slot).onCore s.cur.core fun x =>
    { x with
      live := { x.live with status := x.live.status ||| latchStatus s slot codes ||| BitVec.ofNat 64 st },
      inflight := x.inflight ++ ls }

/-- A 64-bit result for destination code d (R173): s0 to s31, or none. -/
def landS (slot d : Nat) (v : Word) (lat : Nat) : Landing :=
  { slot := slot, file := if d < 32 then .s else .none, num := if d < 32 then d else 0, val := v.setWidth 2048,
    mask := BitVec.ofNat 2048 (2 ^ 64 - 1), latch := true, left := lat, older := false }
/-- A predicate for register d: its bits of mask. -/
def landP (slot d : Nat) (v mask : Word) (lat : Nat) : Landing :=
  { slot := slot, file := .p, num := d, val := v.setWidth 2048, mask := mask.setWidth 2048, latch := true, left := lat, older := false }
/-- A scale register d: its bits of mask. -/
def landK (slot d : Nat) (v mask : Word) (lat : Nat) (latch : Bool) : Landing :=
  { slot := slot, file := .k, num := d, val := v.setWidth 2048, mask := mask.setWidth 2048, latch := latch, left := lat, older := false }
/-- A vector for destination code d (R173): v0 to v31, o0 to o7, or none; its bits of mask. -/
def landV (slot d : Nat) (v mask : Vec) (lat : Nat) : Landing :=
  { slot := slot, file := if d < 32 then .v else if d < 40 then .o else .none, num := if d < 32 then d else if d < 40 then d - 32 else 0,
    val := v, mask := mask, latch := true, left := lat, older := false }

/-- s with the address at which issue continues. -/
def State.goes (s : State) (a : Word) : State := { s with cur := { s.cur with target := some a } }
/-- s with a change of the issuing core's live registers and loops. -/
def State.onArch (s : State) (f : Arch → Arch) : State := s.onCore s.cur.core fun x => { x with live := f x.live }
/-- s with an effect that takes place when the instance has issued (R153). -/
def State.withEff (s : State) (e : Eff) : State := { s with cur := { s.cur with effs := s.cur.effs ++ [e] } }
/-- The issuing core runs strand code, or code of the management controller (R205). -/
def State.inUser (s : State) : Prop := s.curCore.live.priv_ ≠ 1
/-- The signed immediate of layout FB or FI: its field, or the extension word (R172). -/
def ImmOf (ext : Option Nat) (w field : Nat) (imm : Int) : Prop :=
  (ext = none ∧ field < 2 ^ w ∧ imm = (BitVec.ofNat w field).toInt) ∨ ∃ e, ext = some e ∧ e < 2 ^ 32 ∧ imm = (BitVec.ofNat 32 e).toInt

/-- The fields mask of CSR n, latency 1 (R202). -/
def landCsr (n : Nat) (v mask : Word) : Landing :=
  { slot := 0, file := .csr, num := n, val := v.setWidth 2048, mask := mask.setWidth 2048, latch := false, left := 1, older := false }

/-- The nearest number of a range. -/
def clampTo (lo hi x : Int) : Int := if x < lo then lo else if hi < x then hi else x
/-- The SAT bit of a clamp (R205). -/
def satBit (lo hi x : Int) : Nat := if x < lo ∨ hi < x then 16 else 0

/-- The check of a memory access of the issuing core passes: its pieces ps in memory and the pages es it uses. -/
def Reaches (s : State) (va n align : Nat) (need : Need) (noHost : Bool) (ps : List Piece) (es : List TlbEnt) : Prop :=
  coreAccess s s.cur.core va n align need noHost = .ok (ps, es)

/-- The draws u of an operation's rounding (R73, R221), and the state t after they are made: none but under STO, which pops the next word of
the strand's range. -/
def Draws (s : State) (rm : Nat) (t : State) (u : Nat → Nat) : Prop :=
  (rm ≠ 5 ∧ t = s ∧ u = fun _ => 0) ∨
  (rm = 5 ∧ ((s.coreJob s.cur.core).det = false ∨ s.curCore.rngClaim = true) ∧ s.curCore.live.rngNext < s.curCore.rngEnd ∧
    t = s.onArch (fun a => { a with rngNext := a.rngNext + 1 }) ∧
    u = drawU (genG s.curCore.rngKey (BitVec.ofNat 64 s.curCore.live.rngNext)))

/-- The outcome o of a slot operation delivers a vector whose active lanes of width w are those of g, with the status bits of those lanes
(R218, R221); act tells the active lanes, and inactive ones keep their bits by the landing's mask. -/
def DeliversLanes (t : State) (slot : Nat) (codes : List Nat) (d w lat : Nat) (act : Nat → Bool) (mask : Vec) (g : Nat → Nat × Nat)
    (o : Host.Outcome State Fault Refusal) : Prop :=
  ∃ v : Vec,
    o = .next (t.delivers slot codes ((List.range (2048 / w)).foldl (fun acc i => acc ||| if act i then (g i).2 else 0) 0) [landV slot d v mask lat]) ∧
    ∀ i, i < 2048 / w → act i = true → lane v w i = (g i).1 % 2 ^ w

/-- The elements of a vector access that a mask predicate makes active, with their addresses (11 R250). -/
def activeElems (m : Word) (w : Nat) (addr : Nat → Nat) : List (Nat × Nat) :=
  ((List.range (2048 / w)).filter fun i => m.getLsbD (i * w / 32)).map fun i => (i, addr i % 2 ^ 64)

/-- s with a command held until its region is released (12 R280): it joins the engine commands, and its entry joins the effects. -/
def State.holds (s : State) (e : ECmd) : State :=
  { s with nextCmd := e.id, engines := s.engines ++ [e], cur := { s.cur with effs := s.cur.effs ++ [.cmd (.engine e.id)] } }

/-- A command's regions are bytes its engine may reach: the controller's reach MCRAM alone (25 R432). -/
def Holdable (e : ECmd) : Prop := e.core = 768 → ∀ r ∈ e.reads ++ e.writes, outsideMcram r = false

/-- A control frame that arrives on a port is taken (21 R395, R400, R401), and the state t in which it is: its association is a free value (log
entry 138). -/
def TakesControl (s : State) (port : Nat) (t : State) : Prop :=
  (s.port port).down = false ∧ portBlocked s port = false ∧ macAccepts (s.port port).mac (Config.frameAn s.ticks % 4) = true ∧
    t = noteMac s port (Config.frameAn s.ticks % 4)

/-- The completion handle that D names with its increment passes (06 R118 to R123): 63 names none. -/
def handleAt (s : State) (code inc : Nat) (h : Option Nat) : Prop :=
  (code = 63 ∧ h = none) ∨
  (code ≠ 63 ∧ h = some (s.srcS 6 code).toNat ∧
    addCheck (s.corePart s.cur.core) (s.corePart s.cur.core).hasMill (s.srcS 6 code).toNat inc = none)

/-- The state after D is read: no read for 63. -/
def seenAt (s : State) (codes : List Nat) (d : Nat) : State :=
  if d = 63 then reads (s.atSlot 6) codes else reads (reads (s.atSlot 6) codes) [d]

/-- The draw w of a command (R316), and the state t after it: a stochastic command pops the next word of the range, once in an instance. -/
def DrawsCommand (s : State) (sto : Bool) (t : State) (w : Word) : Prop :=
  (sto = false ∧ t = s ∧ w = 0) ∨
  (sto = true ∧ s.cur.pops = 0 ∧ ((s.coreJob s.cur.core).det = false ∨ s.curCore.rngClaim = true) ∧
    s.curCore.live.rngNext < s.curCore.rngEnd ∧
    t = ({ s with cur := { s.cur with pops := 1 } } : State).onArch (fun a => { a with rngNext := a.rngNext + 1 }) ∧
    w = genG s.curCore.rngKey (BitVec.ofNat 64 s.curCore.live.rngNext))

end Sys2Proof.Machine
end

