-- ==== Sys2Proof/Certificates/Slice0/Obligations.lean ====
section
/-! DEFINITION. The statements for the provers. -/

open Sys2Proof Sys2Proof.Machine

/-! ### The S slot -/

/-- ADD and SUB (09 R192), every FN: wrapping, signed saturating, unsigned saturating; SAT is bit 4 of STATUS. -/
def Obligations.IntegerSumsComplete : Prop :=
  ∀ (f : F3) (s : State), Issues 0 f.g s →
    let a := s.srcS 0 f.a
    let b := s.srcS 0 f.b
    let out (st : Nat) (v : Int) := s.delivers 0 [f.a, f.b] st [landS 0 f.d (BitVec.ofInt 64 v) 1]
    let signed (x : Int) := out (satBit (-(2 ^ 63)) (2 ^ 63 - 1) x) (clampTo (-(2 ^ 63)) (2 ^ 63 - 1) x)
    let unsigned (x : Int) := out (satBit 0 (2 ^ 64 - 1) x) (clampTo 0 (2 ^ 64 - 1) x)
    (f.fn = 0 → exec (.add f) s = .next (out 0 (a.toInt + b.toInt)) ∧ exec (.sub f) s = .next (out 0 (a.toInt - b.toInt))) ∧
    (f.fn = 1 → exec (.add f) s = .next (signed (a.toInt + b.toInt)) ∧ exec (.sub f) s = .next (signed (a.toInt - b.toInt))) ∧
    (f.fn = 2 → exec (.add f) s = .next (unsigned (a.toNat + b.toNat)) ∧ exec (.sub f) s = .next (unsigned (a.toNat - b.toNat)))

/-- MUL, MULH, the bitwise operations, shifts, MIN and MAX (09 R192), every FN. -/
def Obligations.IntegerOperationsComplete : Prop :=
  ∀ (f : F3) (s : State), Issues 0 f.g s →
    let a := s.srcS 0 f.a
    let b := s.srcS 0 f.b
    let out (v : Word) (lat : Nat) := s.delivers 0 [f.a, f.b] 0 [landS 0 f.d v lat]
    exec (.mul f) s = .next (out (BitVec.ofInt 64 (a.toInt * b.toInt)) 3) ∧
    (f.fn = 0 → exec (.mulh f) s = .next (out (BitVec.ofInt 64 (a.toInt * b.toInt / 2 ^ 64)) 3)) ∧
    (f.fn = 1 → exec (.mulh f) s = .next (out (BitVec.ofNat 64 (a.toNat * b.toNat / 2 ^ 64)) 3)) ∧
    (f.fn = 2 → exec (.mulh f) s = .next (out (BitVec.ofInt 64 (a.toInt * b.toNat / 2 ^ 64)) 3)) ∧
    exec (.and f) s = .next (out (a &&& b) 1) ∧ exec (.or f) s = .next (out (a ||| b) 1) ∧ exec (.xor f) s = .next (out (a ^^^ b) 1) ∧
    exec (.shl f) s = .next (out (BitVec.ofNat 64 (a.toNat * 2 ^ b.toNat)) 1) ∧
    exec (.shr f) s = .next (out (BitVec.ofNat 64 (a.toNat / 2 ^ b.toNat)) 1) ∧
    exec (.sra f) s = .next (out (BitVec.ofInt 64 (a.toInt / 2 ^ b.toNat)) 1) ∧
    (f.fn = 0 → exec (.min f) s = .next (out (if a.toInt ≤ b.toInt then a else b) 1) ∧
      exec (.max f) s = .next (out (if a.toInt ≤ b.toInt then b else a) 1)) ∧
    (f.fn = 1 → exec (.min f) s = .next (out (if a.toNat ≤ b.toNat then a else b) 1) ∧
      exec (.max f) s = .next (out (if a.toNat ≤ b.toNat then b else a) 1))

/-- DIV and REM by DivRem (09 R193): by zero the quotient is all ones and the remainder a. -/
def Obligations.DivisionsComplete : Prop :=
  ∀ (f : F3) (s : State), Issues 0 f.g s →
    let a := s.srcS 0 f.a
    let b := s.srcS 0 f.b
    let out (v : Word) := s.delivers 0 [f.a, f.b] 0 [landS 0 f.d v 24]
    (b = 0 → exec (.div f) s = .next (out (BitVec.ofInt 64 (-1))) ∧ exec (.rem f) s = .next (out a)) ∧
    (b ≠ 0 → f.fn = 0 →
      ∃ q r : Int, a.toInt = b.toInt * q + r ∧ r.natAbs < b.toInt.natAbs ∧ 0 ≤ r * a.toInt ∧
        exec (.div f) s = .next (out (BitVec.ofInt 64 q)) ∧ exec (.rem f) s = .next (out (BitVec.ofInt 64 r))) ∧
    (b ≠ 0 → f.fn = 1 →
      exec (.div f) s = .next (out (BitVec.ofNat 64 (a.toNat / b.toNat))) ∧ exec (.rem f) s = .next (out (BitVec.ofNat 64 (a.toNat % b.toNat))))

/-- CLZ, POPC (09 R192), SEL, SETP, PLOG and PMOV (09 R195). -/
def Obligations.BitsAndPredicatesComplete : Prop :=
  ∀ (f : F3) (s : State), Issues 0 f.g s →
    let a := s.srcS 0 f.a
    let b := s.srcS 0 f.b
    let p (n : Nat) := s.curCore.live.pred n
    let all (c : Prop) [Decidable c] : Word := if c then BitVec.allOnes 64 else 0
    (∀ n, (n = 64 ∧ a.toNat = 0) ∨ (n < 64 ∧ 2 ^ (63 - n) ≤ a.toNat ∧ a.toNat < 2 ^ (64 - n)) →
      exec (.clz f) s = .next (s.delivers 0 [f.a] 0 [landS 0 f.d (BitVec.ofNat 64 n) 1])) ∧
    exec (.popc f) s = .next (s.delivers 0 [f.a] 0 [landS 0 f.d (BitVec.ofNat 64 ((List.range 64).countP fun i => a.getLsbD i)) 1]) ∧
    exec (.sel f) s = .next (s.delivers 0 [f.a, f.b] 0 [landS 0 f.d (if (p f.fn).getLsbD 0 then a else b) 1]) ∧
    (let cmp (fn : Nat) (c : Prop) [Decidable c] :=
      f.fn = fn → exec (.setp f) s = .next (s.delivers 0 [f.a, f.b] 0 [landP 0 f.d (all c) (BitVec.allOnes 64) 1])
     cmp 0 (a = b) ∧ cmp 1 (a ≠ b) ∧ cmp 2 (a.toInt < b.toInt) ∧ cmp 3 (b.toInt ≤ a.toInt) ∧ cmp 4 (a.toNat < b.toNat) ∧
     cmp 5 (b.toNat ≤ a.toNat) ∧ cmp 6 (a &&& b ≠ 0) ∧ cmp 7 (a &&& b = 0)) ∧
    (let log (fn : Nat) (v : Word) := f.fn = fn → exec (.plog f) s = .next (s.delivers 0 [] 0 [landP 0 f.d v (BitVec.allOnes 64) 1])
     log 0 (p f.a &&& p f.b) ∧ log 1 (p f.a ||| p f.b) ∧ log 2 (p f.a ^^^ p f.b) ∧ log 3 (p f.a &&& ~~~(p f.b)) ∧
     log 4 (p f.a ||| ~~~(p f.b)) ∧ log 5 (~~~(p f.a))) ∧
    (f.fn = 0 → exec (.pmov f) s = .next (s.delivers 0 [f.a] 0 [landP 0 f.d a (BitVec.allOnes 64) 1])) ∧
    (f.fn = 1 → exec (.pmov f) s = .next (s.delivers 0 [] 0 [landS 0 f.d (p f.a) 1])) ∧
    (f.fn = 2 → exec (.pmov f) s = .next (s.delivers 0 [f.a] 0 [landP 0 f.d (all (a ≠ 0)) (BitVec.allOnes 64) 1]))

/-- The immediate instructions (09 R194); the immediate is IMM9, or the extension word, sign-extended (08 R172). -/
def Obligations.ImmediatesComplete : Prop :=
  ∀ (f : FI) (s : State) (imm : Int), Issues 0 f.g s →
    ImmOf f.ext 9 f.imm9 imm →
    let a := s.srcS 0 f.a
    let i : Word := BitVec.ofInt 64 imm
    let out (v : Word) := s.delivers 0 [f.a] 0 [landS 0 f.d v 1]
    exec (.addi f) s = .next (out (a + i)) ∧ exec (.andi f) s = .next (out (a &&& i)) ∧ exec (.ori f) s = .next (out (a ||| i)) ∧
    exec (.xori f) s = .next (out (a ^^^ i)) ∧
    exec (.shli f) s = .next (out (BitVec.ofNat 64 (a.toNat * 2 ^ i.toNat))) ∧
    exec (.shri f) s = .next (out (BitVec.ofNat 64 (a.toNat / 2 ^ i.toNat))) ∧
    exec (.srai f) s = .next (out (BitVec.ofInt 64 (a.toInt / 2 ^ i.toNat))) ∧
    exec (.movi f) s = .next (s.delivers 0 [] 0 [landS 0 f.d i 1]) ∧
    exec (.movh f) s = .next (out (BitVec.ofNat 64 (i.toNat % 2 ^ 32 * 2 ^ 32 + a.toNat % 2 ^ 32)))

/-- NOP, BR, CALL, JMP and RET (09 R191, R196, R197): where issue goes on, and CALL's link. A follower of a LOCKSTEP group does not act
(02 R38). -/
def Obligations.BranchesComplete : Prop :=
  (∀ (g : Nat) (s : State), exec (.nop g) s = .next s) ∧
  (∀ (f : FB) (s : State) (imm : Int), Issues 0 f.g s → ImmOf f.ext 21 f.imm21 imm →
    let target : Word := s.cur.pc + BitVec.ofInt 64 (4 * imm)
    (s.cur.follower = false →
      exec (.br f) s = .next ((s.atSlot 0).goes target) ∧
      exec (.call f) s = .next ((s.goes target).delivers 0 [] 0 [landS 0 31 s.cur.next 1])) ∧
    (s.cur.follower = true → exec (.br f) s = .next (s.atSlot 0) ∧ exec (.call f) s = .next (s.atSlot 0))) ∧
  (∀ (f : F3) (s : State), Issues 0 f.g s →
    let seen := reads (s.atSlot 0) [f.a]
    (s.cur.follower = false → (s.srcS 0 f.a).toNat % 4 = 0 →
      exec (.jmp f) s = .next (seen.goes (s.srcS 0 f.a)) ∧ exec (.ret f) s = .next (seen.goes (s.srcS 0 f.a))) ∧
    (s.cur.follower = true → exec (.jmp f) s = .next seen ∧ exec (.ret f) s = .next seen))

/-- LOOP, LOOPI and LBRK (09 R198 to R200): the loop stack. A count of 0 marks the entry as skipping. A follower of a LOCKSTEP group does not
act (02 R38). -/
def Obligations.LoopsComplete : Prop :=
  (∀ (f : F3) (s : State), Issues 0 f.g s → s.cur.follower = false → (s.srcS 0 f.a).toNat < 2 ^ 32 → s.curCore.live.loops.length < 6 →
    exec (.loop f) s = .next ((reads (s.atSlot 0) [f.a]).onArch fun a =>
      { a with loops := ⟨(s.srcS 0 f.a).toNat, 0, s.cur.next, (s.srcS 0 f.a).toNat == 0⟩ :: s.curCore.live.loops })) ∧
  (∀ (f : FB) (s : State) (n : Nat), Issues 0 f.g s → s.cur.follower = false → ImmOf f.ext 21 f.imm21 n → s.curCore.live.loops.length < 6 →
    exec (.loopi f) s = .next ((s.atSlot 0).onArch fun a => { a with loops := ⟨n, 0, s.cur.next, n == 0⟩ :: s.curCore.live.loops })) ∧
  (∀ (f : F3) (s : State) (e : LoopEnt) (es : List LoopEnt), Issues 0 f.g s → s.cur.follower = false → s.curCore.live.loops = e :: es →
    exec (.lbrk f) s = .next ((s.atSlot 0).onArch fun a => { a with loops := { e with count := e.index + 1 } :: es })) ∧
  (∀ (f : F3) (b : FB) (s : State), s.cur.follower = true →
    (Issues 0 f.g s → exec (.loop f) s = .next (reads (s.atSlot 0) [f.a]) ∧ exec (.lbrk f) s = .next (s.atSlot 0)) ∧
    (Issues 0 b.g s → exec (.loopi b) s = .next (s.atSlot 0)))

/-- EXIT, SVC, SRET, FENCE and YIELD at issue (09 R191, R201, R207 to R209, R214): what the end of the instance is asked to do. A FENCE
that follows no CADDF of 0 whose result has landed changes nothing else (05 R113). A follower of a LOCKSTEP group does not act on EXIT and YIELD
(02 R38); SRET is taken in SERVICE, and on the management controller, core 768, which runs at FIRM (R204). -/
def Obligations.EndsComplete : Prop :=
  (∀ (f : F3) (s : State), Issues 0 f.g s →
    let t := s.atSlot 0
    (s.inUser → s.cur.follower = false → exec (.exit f) s = .next { t with cur := { t.cur with exits := true } }) ∧
    (s.inUser → s.cur.follower = true → exec (.exit f) s = .next t) ∧
    (s.cur.core = 768 ∨ s.curCore.live.priv_ ≠ 0 → exec (.sret f) s = .next { t with cur := { t.cur with leaveSvc := true } }) ∧
    (let u := acquireSeen t s.cur.core f.fn
     (f.fn = 0 → exec (.fence f) s = .next u) ∧
     (f.fn ≠ 0 → exec (.fence f) s = .next { u with cur := { u.cur with ckpt := true, sync := true } }) ∧
     (s.curCore.seen = [] → u = t)) ∧
    (s.inUser → s.cur.follower = false →
      exec (.yieldOp f) s = .next { t with cur := { t.cur with effs := t.cur.effs ++ [.yield], ckpt := true } }) ∧
    (s.inUser → s.cur.follower = true → exec (.yieldOp f) s = .next t)) ∧
  (∀ (f : FB) (s : State) (imm : Int), Issues 0 f.g s → ImmOf f.ext 21 f.imm21 imm → s.inUser → s.curCore.svcvec ≠ 0 →
    exec (.svc f) s = .next { s.atSlot 0 with cur := { (s.atSlot 0).cur with enterSvc := some (BitVec.ofInt 64 imm) } })

/-- Entering SERVICE and returning from it (07 R155, 09 R207, R208): the saved registers, PRIV and PC; every other register of the core and
every other part of the machine is unchanged. The management controller, core 768, stays at FIRM. The model's choices: SRET goes to EPC with its low
two bits dropped (DEDUCED, log entry 98), which is EPC itself wherever EPC is a multiple of 4. -/
def Obligations.ServiceEntryAndReturn : Prop :=
  ∀ (s : State) (c : Nat) (after : Word) (imm : Nat),
    (let x := s.core 768
     let y := (enterService s 768 after imm).core 768
     y.ecause = 0x17 ∧ y.faultinfo = BitVec.ofNat 64 imm ∧ y.epc = after ∧ y.live.pc = x.svcvec ∧ y.live.status = x.live.status) ∧
    (c ≠ 768 →
     let x := s.core c
     let t := enterService s c after imm
     let y := t.core c
     y.ecause = 0x17 ∧ y.faultinfo = BitVec.ofNat 64 imm ∧ y.epc = after ∧ y.live.pc = x.svcvec ∧ y.live.priv_ = 1 ∧
     { y with ecause := x.ecause, faultinfo := x.faultinfo, epc := x.epc,
              live := { y.live with pc := x.live.pc, status := x.live.status } } = x ∧
     y.live.status &&& ~~~(0xC000 : Word) = x.live.status &&& ~~~(0xC000 : Word) ∧ { t with cores := s.cores } = s ∧
     ∀ d, d ≠ c → t.core d = s.core d) ∧
    (let x := s.core c
     let t := leaveService s c
     let y := t.core c
     y.live.pc = x.epc &&& ~~~3 ∧ (x.epc &&& 3 = 0 → y.live.pc = x.epc) ∧ y.live.priv_ = 0 ∧ { y with live := { y.live with pc := x.live.pc, status := x.live.status } } = x ∧
     y.live.status &&& ~~~(0xC000 : Word) = x.live.status &&& ~~~(0xC000 : Word) ∧ { t with cores := s.cores } = s ∧
     ∀ d, d ≠ c → t.core d = s.core d)

/-- CSRR (09 R202 to R206): the value of every CSR of R204, on a strand's core and on the management controller, core 768, whose PRIV is 2 (25
R432); s.cycle counts the cycles since die reset, loopIndex the index of a loop entry, and firm holds what the controller has written to the CSRs that are its
own. -/
def Obligations.CsrReadsComplete : Prop :=
  ∀ (f : FK) (s : State), Issues 0 f.g s →
    let x := s.curCore
    let m := s.mill (s.cur.core / 2)
    let p := s.corePart s.cur.core
    let gives (n : Nat) (v : Word) := f.csr = n → exec (.csrr f) s = .next (s.delivers 0 [] 0 [landS 0 f.reg v 1])
    (s.cur.core ≠ 768 → gives 0x000 x.live.status ∧ gives 0x030 (if m.millmode then 1 else 0) ∧ gives 0x031 m.bankrole ∧ gives 0x200 p.lattol ∧
      gives 0x201 p.agePeriod) ∧
    (s.cur.core = 768 → gives 0x000 ((x.live.status &&& ~~~(0xC000 : Word)) ||| 0x8000) ∧ gives 0x030 x.firm.millmode ∧
      gives 0x031 x.firm.bankrole ∧ gives 0x200 x.firm.lattol ∧ gives 0x201 x.firm.agePeriod) ∧
    gives 0x001 (BitVec.ofNat 64 (s.coreJob s.cur.core).ctxid) ∧ gives 0x002 (BitVec.ofNat 64 x.strand) ∧
    gives 0x003 x.grpid ∧ gives 0x004 x.rank ∧ gives 0x005 (BitVec.ofNat 64 s.cycle) ∧ gives 0x006 (x.fto.setWidth 64) ∧
    gives 0x007 (if (s.coreJob s.cur.core).det then 1 else 0) ∧ gives 0x008 x.retrycnt ∧ gives 0x009 x.reread ∧ gives 0x00A x.codebase ∧
    gives 0x00B (loopIndex x.live 0) ∧ gives 0x00C (loopIndex x.live 1) ∧
    (∀ k, k < 4 → gives (0x010 + k) (x.lbound.getD k 0)) ∧ (∀ k, k < 5 → gives (0x018 + k) (tget 0 x.live.steps (0x018 + k))) ∧
    gives 0x020 x.live.qmode ∧ gives 0x021 x.live.dressperm ∧ gives 0x028 (BitVec.ofNat 64 x.live.rngNext) ∧
    gives 0x029 (BitVec.ofNat 64 x.rngEnd) ∧ gives 0x100 x.ecause ∧ gives 0x101 x.epc ∧ gives 0x102 x.ckptPc ∧ gives 0x103 x.faultinfo ∧
    (s.cur.core = 768 ∨ x.live.priv_ ≠ 0 → gives 0x104 x.svcvec)

/-- CSRW, CSRW.SET and CSRW.CLR (09 R202, R204 to R206): the shadowed CSRs change in their writable fields at latency 1; FTO, EPC and BANKROLE
change when the instance has issued: FTO is cleared where the source is 1 in every form, EPC follows the form. A BANKROLE write that changes no
role is nothing but the write itself (04 R81, R83): it leaves no effect behind, but where both cores of the mill issue together core 1's applies to
what core 0's leaves, and the writes of the instance change a role where the roles that stand after them differ. On the management controller,
core 768, which runs at FIRM (25 R432), the CSRs that FIRM alone may write take the written value and keep it. -/
def Obligations.CsrWritesComplete : Prop :=
  (∀ (f : FK) (s : State), Issues 0 f.g s →
     let a := s.srcS 0 f.reg
     let seen := reads (s.atSlot 0) [f.reg]
     let lands (rw : Word) :=
       exec (.csrw f) s = .next (s.delivers 0 [f.reg] 0 [landCsr f.csr (a &&& rw) rw]) ∧
       exec (.csrwSet f) s = .next (s.delivers 0 [f.reg] 0 [landCsr f.csr (a &&& rw) (a &&& rw)]) ∧
       exec (.csrwClr f) s = .next (s.delivers 0 [f.reg] 0 [landCsr f.csr 0 (a &&& rw)])
     let later :=
       exec (.csrw f) s = .next (seen.withEff (.csr f.csr 0 a)) ∧ exec (.csrwSet f) s = .next (seen.withEff (.csr f.csr 1 a)) ∧
       exec (.csrwClr f) s = .next (seen.withEff (.csr f.csr 2 a))
     (f.csr = 0x000 → lands 0xDF) ∧ (f.csr = 0x020 → lands 1) ∧ (0x018 ≤ f.csr → f.csr ≤ 0x01C → lands 0xFFFFFFFF) ∧
     (f.csr = 0x021 →
       exec (.csrw f) s = .next ((s.delivers 0 [f.reg] 0 [landCsr f.csr (a &&& 3) 3]).withEff .flush) ∧
       exec (.csrwSet f) s = .next ((s.delivers 0 [f.reg] 0 [landCsr f.csr (a &&& 3) (a &&& 3)]).withEff .flush) ∧
       exec (.csrwClr f) s = .next ((s.delivers 0 [f.reg] 0 [landCsr f.csr 0 (a &&& 3)]).withEff .flush)) ∧
     (f.csr = 0x006 → later) ∧ (f.csr = 0x101 → s.cur.core = 768 ∨ s.curCore.live.priv_ = 1 → later) ∧
     (s.cur.core = 768 → f.csr ∈ [0x010, 0x011, 0x012, 0x013, 0x030, 0x031, 0x104, 0x200, 0x201] → later) ∧
     (s.cur.core ≠ 768 → f.csr = 0x031 → ∀ (form : Nat) (i : Instr), (form = 0 ∧ i = .csrw f ∨ form = 1 ∧ i = .csrwSet f ∨ form = 2 ∧ i = .csrwClr f) →
       let now := rolesNow (s.mill (s.cur.core / 2))
       let new := rolesAfter now a form
       (armedIn seen (s.cur.core / 2) (s.mill (s.cur.core / 2)).bankrole new = true → exec i s = .next (raise seen cAccess 0)) ∧
       (armedIn seen (s.cur.core / 2) (s.mill (s.cur.core / 2)).bankrole new = false →
         let both := (seen.issueCores s.cur.core).any fun d => d != s.cur.core && d / 2 == s.cur.core / 2
         (new = now → both = false → exec i s = .next seen) ∧
         (new ≠ now ∨ both = true → exec i s = .next (seen.withEff (.csr 0x031 form a)))))) ∧
  (∀ (s : State) (u v : Cursor) (form form' : Nat) (a a' : Word), u.core ≠ 768 → u.core / 2 = v.core / 2 →
     u.effs = [.csr 0x031 form a] → v.effs = [.csr 0x031 form' a'] →
     let now := rolesNow (s.mill (u.core / 2))
     (changesRoles s [u] = true ↔ rolesAfter now a form ≠ now) ∧
     (v.core ≠ 768 → (changesRoles s [u, v] = true ↔ rolesAfter (rolesAfter now a form) a' form' ≠ now))) ∧
  (∀ (s : State) (n form : Nat) (a : Word), form < 3 →
     let x := s.core 768
     let put (rw old : Word) : Word := if form = 0 then old &&& ~~~rw ||| a &&& rw else if form = 1 then old ||| a &&& rw else old &&& ~~~(a &&& rw)
     let t := writeCsr s 768 n form a
     (n = 0x104 → (t.core 768).svcvec = put (~~~3) x.svcvec) ∧
     (0x010 ≤ n → n ≤ 0x013 → n - 0x010 < x.lbound.length → (t.core 768).lbound.getD (n - 0x010) 0 = put 0xFFFFFFFF (x.lbound.getD (n - 0x010) 0)) ∧
     (n = 0x030 → (t.core 768).firm = { x.firm with millmode := put 1 x.firm.millmode }) ∧
     (n = 0x031 → (t.core 768).firm = { x.firm with bankrole := put (BitVec.allOnes 64) x.firm.bankrole }) ∧
     (n = 0x200 → (t.core 768).firm = { x.firm with lattol := put 0xFFFFFFFF x.firm.lattol }) ∧
     (n = 0x201 → (t.core 768).firm = { x.firm with agePeriod := put 0xFFFFFFFF x.firm.agePeriod })) ∧
  (∀ (s : State) (c form : Nat) (a : Word), form < 3 →
     writeCsr s c 0x006 form a = s.onCore c (fun x => { x with fto := x.fto &&& ~~~(a.setWidth 16) }) ∧
     writeCsr s c 0x101 form a =
       s.onCore c (fun x => { x with epc := if form = 0 then a else if form = 1 then x.epc ||| a else x.epc &&& ~~~a }))


/-- JOIN, LEAVE and GRP (09 R210 to R212, 02 R36). A JOIN with FN 0 takes the group policy of the task record (19 R354). -/
def Obligations.GroupsComplete : Prop :=
  ∀ (f : F3) (s : State), Issues 0 f.g s → s.inUser →
    let a := s.srcS 0 f.a
    let b := (s.srcS 0 f.b).toNat
    let seen := reads (s.atSlot 0) [f.a, f.b]
    (∀ (m pol : Nat) (lock : Bool), 2 ≤ m → m ≤ 256 → b = m + (if lock then 2 ^ 16 else 0) →
      pol = (if f.fn = 0 then recPolicy (s.coreJob s.cur.core).record / 8 % 8 else f.fn) → joinOk seen s.cur.core a m pol lock = true →
      exec (.join f) s = .next (seen.withEff (.join a m pol lock))) ∧
    (∀ g, s.coreGroup s.cur.core = some g → exec (.leave f) s = .next ((s.atSlot 0).withEff .leave)) ∧
    (let gives (v : Word) := exec (.grp f) s = .next (s.delivers 0 [f.a] 0 [landS 0 f.d v 1])
     (s.coreGroup s.cur.core = none → (f.fn = 0 → gives 0) ∧ (f.fn ≠ 0 → gives (BitVec.allOnes 64))) ∧
     (∀ g, s.coreGroup s.cur.core = some g →
       (f.fn = 0 → gives (BitVec.ofNat 64 g.size)) ∧
       (f.fn = 1 → ∀ st, g.roster[0]? = some st → gives (BitVec.ofNat 64 st)) ∧
       (f.fn = 2 → g.roster[a.toNat]? = none → gives (BitVec.allOnes 64)) ∧
       (f.fn = 2 → ∀ st, g.roster[a.toNat]? = some st → gives (BitVec.ofNat 64 st))))

/-- LAUNCH, DRESS and TDEF (09 R213, R215, R216; 06 R134): the ticket, the waiter entry of a dependency that no job names, and the record
with its place; the rules; the descriptor, which the bundles issued a cycle later read. -/
def Obligations.LaunchDressTdefComplete : Prop :=
  ∀ (f : F3) (s : State), Issues 0 f.g s →
    (∀ p ps es, s.inUser →
      let seen := reads (s.atSlot 0) [f.a]
      let u := keepPages seen s.cur.core es
      let job := u.coreJob s.cur.core
      let got := loadWhole u s.cur.core (p :: ps)
      let part := u.part job.pid
      let held := if recDepabs got.1 = true then part else part.reserve (recDeph got.1)
      Reaches seen (s.srcS 0 f.a).toNat 128 128 .read false (p :: ps) es → job.depth < 24 → part.tickets < part.pool →
      recordFaultAt got.2 job.pid got.1 = none →
      exec (.launch f) s =
        .next ((got.2.setPart job.pid { held with tickets := part.tickets + 1 }).withEff (.cmd (.launch got.1 p.loc)))) ∧
    (let seen := reads (s.atSlot 0) [f.a, f.b]
     let n := (s.srcS 0 f.b).toNat
     s.inUser → (s.srcS 0 f.a).toNat % 32 = 0 →
      (n = 0 → exec (.dress f) s = .next (seen.withEff (.cmd (.dress [])))) ∧
      (∀ ps es, 1 ≤ n → n ≤ 64 → Reaches seen (s.srcS 0 f.a).toNat (32 * n) 32 .read false ps es →
        let got := loadWhole (keepPages seen s.cur.core es) s.cur.core ps
        let rules := chunksOf 32 n got.1
        (∀ r ∈ rules, ruleBad r = false) → exec (.dress f) s = .next (got.2.withEff (.cmd (.dress rules))))) ∧
    (tdefBad (s.srcS 0 f.a) = false →
      let t := s.delivers 0 [f.a] 0 [{ landS 0 0 (s.srcS 0 f.a) 1 with file := .t, num := f.d, latch := false }]
      exec (.tdef f) s = .next { t with cur := { t.cur with tdef := some f.d } })

/-- Where the S slot traps (09 R191, R197 to R200, R203, R204, R207, R208, R210, R211, R213, R215, R216): the fault code raised and its FAULTINFO,
before anything of the operation: PRIV in SERVICE of what only USER may run, and of SRET in USER; the group policy of a JOIN with FN 0 is the
record's (19 R354). The order of the checks of LAUNCH is that of R213. The model's choices: the FAULTINFO 0 of LAUNCH_DEPTH and LAUNCH_POOL and the
address that DRESS_TABLE and the faults of a record carry (log entry 57), and the FAULTINFO 0 of TILE_SHAPE (log entry 22). -/
def Obligations.ScalarTraps : Prop :=
  ∀ (f : F3) (k : FK) (b : FB) (s : State), s.cur.follower = false →
    (Issues 0 f.g s → (s.srcS 0 f.a).toNat % 4 ≠ 0 →
      exec (.jmp f) s = .next (raise (reads (s.atSlot 0) [f.a]) cAlign (s.srcS 0 f.a).toNat) ∧
      exec (.ret f) s = .next (raise (reads (s.atSlot 0) [f.a]) cAlign (s.srcS 0 f.a).toNat)) ∧
    (Issues 0 f.g s → 2 ^ 32 ≤ (s.srcS 0 f.a).toNat →
      exec (.loop f) s = .next (raise (reads (s.atSlot 0) [f.a]) cBound (s.srcS 0 f.a).toNat)) ∧
    (Issues 0 f.g s → (s.srcS 0 f.a).toNat < 2 ^ 32 → s.curCore.live.loops.length = 6 →
      exec (.loop f) s = .next (raise (reads (s.atSlot 0) [f.a]) cLoopOverflow 0)) ∧
    (Issues 0 b.g s → s.curCore.live.loops.length = 6 → exec (.loopi b) s = .next (raise (s.atSlot 0) cLoopOverflow 0)) ∧
    (Issues 0 f.g s → s.curCore.live.loops = [] → exec (.lbrk f) s = .next (raise (s.atSlot 0) cLoopUnderflow 0)) ∧
    (Issues 0 f.g s → s.curCore.live.priv_ = 1 →
      exec (.exit f) s = .next (raise (s.atSlot 0) cPriv 0) ∧ exec (.leave f) s = .next (raise (s.atSlot 0) cPriv 0) ∧
      exec (.yieldOp f) s = .next (raise (s.atSlot 0) cPriv 0) ∧
      exec (.join f) s = .next (raise (reads (s.atSlot 0) [f.a, f.b]) cPriv 0) ∧ exec (.grp f) s = .next (raise (reads (s.atSlot 0) [f.a]) cPriv 0) ∧
      exec (.launch f) s = .next (raise (reads (s.atSlot 0) [f.a]) cPriv 0) ∧
      exec (.dress f) s = .next (raise (reads (s.atSlot 0) [f.a, f.b]) cPriv 0)) ∧
    (Issues 0 b.g s → s.curCore.live.priv_ = 1 → exec (.svc b) s = .next (raise (s.atSlot 0) cPriv 0)) ∧
    (Issues 0 b.g s → s.inUser → s.curCore.svcvec = 0 → exec (.svc b) s = .next (raise (s.atSlot 0) cPriv 0)) ∧
    (Issues 0 f.g s → s.cur.core < 768 → s.curCore.live.priv_ = 0 → exec (.sret f) s = .next (raise (s.atSlot 0) cPriv 0)) ∧
    (Issues 0 k.g s → s.cur.core < 768 → s.curCore.live.priv_ = 0 → k.csr = 0x104 → exec (.csrr k) s = .next (raise (s.atSlot 0) cPriv 0)) ∧
    (Issues 0 k.g s → s.cur.core < 768 → s.curCore.live.priv_ < 2 →
      k.csr ∈ [0x001, 0x002, 0x003, 0x004, 0x005, 0x007, 0x008, 0x009, 0x00A, 0x00B, 0x00C, 0x010, 0x011, 0x012, 0x013, 0x028, 0x029, 0x030,
        0x100, 0x102, 0x103, 0x104, 0x200, 0x201] ∨ (k.csr = 0x101 ∧ s.curCore.live.priv_ = 0) →
      let trap := Host.Outcome.next (raise (reads (s.atSlot 0) [k.reg]) cPriv 0)
      exec (.csrw k) s = trap ∧ exec (.csrwSet k) s = trap ∧ exec (.csrwClr k) s = trap) ∧
    (Issues 0 f.g s → s.inUser →
      let seen := reads (s.atSlot 0) [f.a, f.b]
      let a := s.srcS 0 f.a
      let b := (s.srcS 0 f.b).toNat
      ((∀ (m : Nat) (lock : Bool), 2 ≤ m → m ≤ 256 → b ≠ m + (if lock then 2 ^ 16 else 0)) →
        exec (.join f) s = .next (raise seen cBound b)) ∧
      (∀ (m pol : Nat) (lock : Bool), 2 ≤ m → m ≤ 256 → b = m + (if lock then 2 ^ 16 else 0) →
        pol = (if f.fn = 0 then recPolicy (s.coreJob s.cur.core).record / 8 % 8 else f.fn) → joinOk seen s.cur.core a m pol lock = false →
        exec (.join f) s = .next (raise seen cAccess 0)) ∧
      (s.coreGroup s.cur.core = none → exec (.leave f) s = .next (raise (s.atSlot 0) cAccess 0)) ∧
      (a.toNat % 32 ≠ 0 → exec (.dress f) s = .next (raise seen cAlign a.toNat)) ∧
      (a.toNat % 32 = 0 → 64 < b → exec (.dress f) s = .next (raise seen cBound b)) ∧
      (∀ ps es, a.toNat % 32 = 0 → 1 ≤ b → b ≤ 64 → Reaches seen a.toNat (32 * b) 32 .read false ps es →
        let got := loadWhole (keepPages seen s.cur.core es) s.cur.core ps
        (∃ r ∈ chunksOf 32 b got.1, ruleBad r = true) → exec (.dress f) s = .next (raise got.2 cDressTable a.toNat)) ∧
      (let seen := reads (s.atSlot 0) [f.a]
       (∀ e, coreAccess seen s.cur.core a.toNat 128 128 .read false = .error e → exec (.launch f) s = .next (accessFail seen e)) ∧
       ∀ ps es, Reaches seen a.toNat 128 128 .read false ps es →
        let u := keepPages seen s.cur.core es
        let job := u.coreJob s.cur.core
        let part := u.part job.pid
        let got := loadWhole u s.cur.core ps
        (24 ≤ job.depth → exec (.launch f) s = .next (raise got.2 cLaunchDepth 0)) ∧
        (job.depth < 24 → part.pool ≤ part.tickets → exec (.launch f) s = .next (raise got.2 cLaunchPool 0)) ∧
        (∀ code at_, job.depth < 24 → part.tickets < part.pool → recordFaultAt got.2 job.pid got.1 = some (code, at_) →
          exec (.launch f) s = .next (raise got.2 code (at_.getD a.toNat))))) ∧
    (Issues 0 f.g s → tdefBad (s.srcS 0 f.a) = true → exec (.tdef f) s = .next (raise (reads (s.atSlot 0) [f.a]) cTileShape 0))

/-! ### The V slot -/

/-- VADD, VSUB, VMUL and VFMA (10 R222, R223): every lane type, SUB, SAT and rounding mode. -/
def Obligations.VectorArithmeticComplete : Prop :=
  ∀ (f : F3) (s t : State) (u : Nat → Nat), Issues 1 f.g s → Draws s (vRm f) t u →
    let w := ltWidth f.fn
    let m := s.curCore.live.pred (vMsk f)
    let rm := RMode.ofCode (vRm f)
    let x (i : Nat) := lane (s.srcV 1 f.a) w i
    let y (i : Nat) := lane (s.srcV 1 f.b) w i
    let z (i : Nat) := lane (s.srcV 1 (vCs f)) w i
    let unsigned := decide (vSub f = 1)
    let val (k : Nat) : Int := if unsigned then k else sint w k
    let fp (k : Nat) := (ltFmt f.fn).decode k
    let done (lat : Nat) (g : Nat → Nat × Nat) (o : Host.Outcome State Fault Refusal) :=
      DeliversLanes t 1 [f.a, f.b, vCs f] f.d w lat (fun i => m.getLsbD (i * w / 32)) (groupMask m) g o
    let rounded (i : Nat) (p : Fp × Nat) := ((roundFp (ltFmt f.fn) rm (u i) p.1).1, p.2 ||| (roundFp (ltFmt f.fn) rm (u i) p.1).2)
    (ltInt f.fn = true →
      done 2 (fun i => fitInt (val (x i) + val (y i)) w unsigned (vSat f)) (exec (.vadd f) s) ∧
      done 2 (fun i => fitInt (val (x i) - val (y i)) w unsigned (vSat f)) (exec (.vsub f) s) ∧
      done 2 (fun i => fitInt (val (x i) * val (y i) + val (z i)) w unsigned (vSat f)) (exec (.vfma f) s) ∧
      (vSub f < 2 → done 2 (fun i => fitInt (val (x i) * val (y i)) w unsigned (vSat f)) (exec (.vmul f) s)) ∧
      (vSub f = 2 → done 2 (fun i => (islice w (sint w (x i) * sint w (y i) / 2 ^ w), 0)) (exec (.vmul f) s)) ∧
      (vSub f = 3 → done 2 (fun i => (x i * y i / 2 ^ w, 0)) (exec (.vmul f) s))) ∧
    (ltInt f.fn = false →
      done 4 (fun i => rounded i (Fp.add (rm == .rdn) (fp (x i)) (fp (y i)))) (exec (.vadd f) s) ∧
      done 4 (fun i => rounded i (Fp.add (rm == .rdn) (fp (x i)) (fp (y i)).neg)) (exec (.vsub f) s) ∧
      done 4 (fun i => rounded i (Fp.mul (fp (x i)) (fp (y i)))) (exec (.vmul f) s) ∧
      done 4 (fun i => rounded i (Fp.fma (rm == .rdn) (fp (x i)) (fp (y i)) (fp (z i)))) (exec (.vfma f) s))

/-- VMIN, VMAX, VABS, VNEG, VSEL (10 R224, R226) and VCMP (R227): every lane type. -/
def Obligations.VectorChoicesComplete : Prop :=
  ∀ (f : F3) (s t : State) (u : Nat → Nat), Issues 1 f.g s → Draws s (vRm f) t u →
    let w := ltWidth f.fn
    let m := s.curCore.live.pred (vMsk f)
    let x (i : Nat) := lane (s.srcV 1 f.a) w i
    let y (i : Nat) := lane (s.srcV 1 f.b) w i
    let val (k : Nat) : Int := if vSub f = 1 then k else sint w k
    let sign := 2 ^ (w - 1)
    let nan (k : Nat) : Prop := (ltFmt f.fn).decode k = .nan
    let done (g : Nat → Nat × Nat) (o : Host.Outcome State Fault Refusal) :=
      DeliversLanes t 1 [f.a, f.b, vCs f] f.d w 2 (fun i => m.getLsbD (i * w / 32)) (groupMask m) g o
    (ltInt f.fn = true →
      done (fun i => (if val (x i) ≤ val (y i) then x i else y i, 0)) (exec (.vmin f) s) ∧
      done (fun i => (if val (x i) < val (y i) then y i else x i, 0)) (exec (.vmax f) s) ∧
      done (fun i => fitInt (sint w (x i)).natAbs w false (vSat f)) (exec (.vabs f) s) ∧
      done (fun i => fitInt (-(sint w (x i))) w false (vSat f)) (exec (.vneg f) s)) ∧
    (ltInt f.fn = false →
      DeliversLanes t 1 [f.a, f.b, vCs f] f.d w 4 (fun i => m.getLsbD (i * w / 32)) (groupMask m)
        (fun i => (fpMinMax (ltFmt f.fn) false (x i) (y i), 0)) (exec (.vmin f) s) ∧
      DeliversLanes t 1 [f.a, f.b, vCs f] f.d w 4 (fun i => m.getLsbD (i * w / 32)) (groupMask m)
        (fun i => (fpMinMax (ltFmt f.fn) true (x i) (y i), 0)) (exec (.vmax f) s) ∧
      done (fun i => (if nan (x i) then (ltFmt f.fn).nanCode else x i % sign, 0)) (exec (.vabs f) s) ∧
      done (fun i => (if nan (x i) then (ltFmt f.fn).nanCode else if x i < sign then x i + sign else x i - sign, 0)) (exec (.vneg f) s)) ∧
    done (fun i => (if (s.curCore.live.pred (vSub f)).getLsbD (i * w / 32) then x i else y i, 0)) (exec (.vsel f) s) ∧
    (∃ p : Word,
      exec (.vcmp f) s = .next (s.delivers 1 [f.a, f.b] 0 [landP 1 f.d p m 2]) ∧
      ∀ j, j < 64 →
        (p.getLsbD j = true ↔
          let outcome (k : Nat) := cmpLane f (x (32 / w * j + k)) (y (32 / w * j + k)) = true
          if vSat f then ∃ k, k < 32 / w ∧ outcome k else ∀ k, k < 32 / w → outcome k)) ∧
    (ltInt f.fn = true → ∀ i,
      (vSub f = 0 → (cmpLane f (x i) (y i) = true ↔ x i = y i)) ∧ (vSub f = 1 → (cmpLane f (x i) (y i) = true ↔ x i ≠ y i)) ∧
      (vSub f = 2 → (cmpLane f (x i) (y i) = true ↔ sint w (x i) < sint w (y i))) ∧
      (vSub f = 3 → (cmpLane f (x i) (y i) = true ↔ sint w (x i) ≤ sint w (y i))) ∧
      (vSub f = 4 → (cmpLane f (x i) (y i) = true ↔ sint w (y i) < sint w (x i))) ∧
      (vSub f = 5 → (cmpLane f (x i) (y i) = true ↔ sint w (y i) ≤ sint w (x i))) ∧
      (vSub f = 6 → (cmpLane f (x i) (y i) = true ↔ x i < y i)) ∧ (vSub f = 7 → (cmpLane f (x i) (y i) = true ↔ x i ≤ y i)))

/-- VAND, VOR, VXOR and the shifts (10 R225): a shift by the lane width or more gives 0, or copies of the sign. VRED and VSCAN (R228, R229): the
tree of R70 and the scan of R71 over the active lanes, a NaN made canonical (03 R56; log entry 93: one that no Apply has met, too); the rest
of VRED's register is zero. -/
def Obligations.VectorBitsAndReductionsComplete : Prop :=
  (∀ (f : F3) (s t : State) (u : Nat → Nat), Issues 1 f.g s → Draws s (vRm f) t u →
     let w := ltWidth f.fn
     let m := s.curCore.live.pred (vMsk f)
     let a := s.srcV 1 f.a
     let b := s.srcV 1 f.b
     let whole (v : Vec) := Host.Outcome.next (s.delivers 1 [f.a, f.b] 0 [landV 1 f.d v (groupMask m) 2])
     let done (g : Nat → Nat) (o : Host.Outcome State Fault Refusal) :=
       DeliversLanes t 1 [f.a, f.b, vCs f] f.d w 2 (fun i => m.getLsbD (i * w / 32)) (groupMask m) (fun i => (g i, 0)) o
     exec (.vand f) s = whole (a &&& b) ∧ exec (.vor f) s = whole (a ||| b) ∧ exec (.vxor f) s = whole (a ^^^ b) ∧
     done (fun i => lane a w i * 2 ^ lane b w i % 2 ^ w) (exec (.vshl f) s) ∧
     done (fun i => lane a w i / 2 ^ lane b w i) (exec (.vshr f) s) ∧
     done (fun i => (sint w (lane a w i) / 2 ^ lane b w i % 2 ^ w).toNat) (exec (.vsra f) s)) ∧
  (∀ (f : F3) (s : State), Issues 1 f.g s →
     let w := ltWidth f.fn
     let m := s.curCore.live.pred (vMsk f)
     let rm := RMode.ofCode (vRm f)
     let part (g : Nat → Nat) := (List.range (2048 / w)).map fun i =>
       if m.getLsbD (i * w / 32) then some (g (lane (s.srcV 1 f.a) w i)) else none
     let ty := if vSub f = 0 then (if ltInt f.fn then 0 else 1) else f.fn
     let r := treeReduce (redApply ty (vSub f) (vSat f) rm) 8 (part (redEnter f.fn (vSub f)))
     let rs := scanLanes (redApply f.fn (vSub f) (vSat f) rm) none (part id)
     (∃ v : Vec, exec (.vred f) s = .next (s.delivers 1 [f.a] r.2 [landV 1 f.d v (BitVec.allOnes 2048) 12]) ∧
       lane v 32 0 = (if ltInt ty then islice 32 (sint (ltWidth ty) r.1) else canonNaN (ltFmt ty) r.1 % 2 ^ 32) ∧
       ∀ i, 0 < i → i < 64 → lane v 32 i = 0) ∧
     (∃ v : Vec,
       exec (.vscan f) s = .next (s.delivers 1 [f.a] (rs.foldl (fun acc r => acc ||| r.2) 0) [landV 1 f.d v (BitVec.allOnes 2048) 12]) ∧
       ∀ i, i < 2048 / w →
         lane v w i = (let x := (rs.getD i (0, 0)).1; if ltInt f.fn then x else canonNaN (ltFmt f.fn) x) % 2 ^ w))


/-- VPERM, VBCAST, VEXTR and VIOTA (10 R230 to R233). That the integer 0 of a floating VIOTA is +0 is the model's choice (log entry 136). -/
def Obligations.VectorMovesComplete : Prop :=
  ∀ (f : F3) (s t : State) (u : Nat → Nat), Issues 1 f.g s → Draws s (vRm f) t u →
    let w := ltWidth f.fn
    let n := 2048 / w
    let m := s.curCore.live.pred (vMsk f)
    let a := s.srcV 1 f.a
    let b := s.srcV 1 f.b
    let act (i : Nat) := m.getLsbD (i * w / 32)
    let one := lane a w (lane b 32 0 % n)
    let below (i : Nat) := ((List.range i).filter act).length
    let step (i : Nat) := if vSub f = 1 then below i else i
    let rm := RMode.ofCode (vRm f)
    DeliversLanes s 1 [f.a, f.b, vCs f] f.d w 3 act (groupMask m)
      (fun i => (let k := lane b w i; if k / n % 2 = 0 then lane a w (k % n) else lane (s.srcV 1 (vCs f)) w (k % n), 0)) (exec (.vperm f) s) ∧
    DeliversLanes s 1 [f.a, f.b] f.d w 2 act (groupMask m) (fun _ => (one, 0)) (exec (.vbcast f) s) ∧
    (∃ v : Vec, exec (.vextr f) s = .next (s.delivers 1 [f.a, f.b] 0 [landV 1 f.d v (BitVec.allOnes 2048) 3]) ∧
      v.toNat = if ltInt f.fn then islice 64 (sint w one) else one) ∧
    (ltInt f.fn = true →
      DeliversLanes t 1 [f.a] f.d w 2 act (groupMask m) (fun i => ((lane a w 0 + step i) % 2 ^ w, 0)) (exec (.viota f) s)) ∧
    (ltInt f.fn = false →
      DeliversLanes t 1 [f.a] f.d w 2 act (groupMask m)
        (fun i =>
          let p := Fp.add (rm == .rdn) ((ltFmt f.fn).decode (lane a w 0)) (Fp.ofInt (step i))
          let r := roundFp (ltFmt f.fn) rm (u i) p.1
          (r.1, p.2 ||| r.2)) (exec (.viota f) s))

/-- VDOT4 (10 R234) and VRCP, VRSQ, VEXP2, VLOG2 (R235). For integer lanes the products and c are summed exactly and fitted once. -/
def Obligations.VectorDotAndFunctionsComplete : Prop :=
  ∀ (f : F3) (s t : State) (u : Nat → Nat), Issues 1 f.g s → Draws s (vRm f) t u →
    let w := ltWidth f.fn
    let m := s.curCore.live.pred (vMsk f)
    let a := s.srcV 1 f.a
    let b := s.srcV 1 f.b
    let c := s.srcV 1 (vCs f)
    let rm := RMode.ofCode (vRm f)
    let wa (k : Nat) : Int := if vSub f = 1 then k else sint w k
    let wb (k : Nat) : Int := if vSub f = 0 then sint w k else k
    let fn (op : FnOp) (o : Host.Outcome State Fault Refusal) :=
      DeliversLanes t 1 [f.a, f.b, vCs f] f.d w 16 (fun i => m.getLsbD (i * w / 32)) (groupMask m)
        (fun i => fnLane op (ltFmt f.fn) rm (u i) (lane a w i)) o
    (ltInt f.fn = true →
      DeliversLanes t 1 [f.a, f.b, vCs f] f.d 32 4 (fun j => m.getLsbD j) (groupMask m)
        (fun j => fitInt (((List.range (32 / w)).map fun k => wa (lane a w (32 / w * j + k)) * wb (lane b w (32 / w * j + k))).sum +
          sint 32 (lane c 32 j)) 32 (vSub f == 1) (vSat f)) (exec (.vdot4 f) s)) ∧
    (ltInt f.fn = false →
      DeliversLanes t 1 [f.a, f.b, vCs f] f.d 32 4 (fun j => m.getLsbD j) (groupMask m)
        (fun j => dotFloat f rm (u j) a b j (lane c 32 j)) (exec (.vdot4 f) s)) ∧
    fn .rcp (exec (.vrcp f) s) ∧ fn .rsq (exec (.vrsq f) s) ∧ fn .exp2 (exec (.vexp2 f) s) ∧ fn .log2 (exec (.vlog2 f) s)

/-! ### The L and X slots -/

/-- LDS and STS (11 R245, R247 to R249): the effective address, the sizes and extensions of FN, and that a store's bytes, piece by piece
ascending, join the instance's effects and change no memory before the region is released. On the management controller an access to the control
window (25 R433) is an effect of the instance itself, which commitEff performs as it issues. -/
def Obligations.ScalarLoadsAndStoresComplete : Prop :=
  (∀ (f : F3) (s : State) (ps : List Piece) (es : List TlbEnt), Issues 2 f.g s → (∀ p ∈ ps, p.loc.sp ≠ .ctl) →
     let ea := ((((s.srcS 2 f.a).toNat : Int) + (s.srcS 2 f.b).toNat + lOff f + s.cur.off) % 2 ^ 64).toNat
     (∀ (n : Nat) (signed : Bool),
       (f.fn, n, signed) ∈ [(0, 8, true), (1, 4, true), (2, 4, false), (3, 2, true), (4, 2, false), (5, 1, true), (6, 1, false)] →
       let seen := reads (s.atSlot 2) [f.a, f.b]
       Reaches seen ea n 0 .read false ps es →
       let r := loadNow (keepPages seen s.cur.core es) (lHint f) ps
       exec (.lds f) s = .next (addLanding r.2.2 (landS 2 f.d
         (if signed then (BitVec.ofNat (8 * n) (leNat r.1)).signExtend 64 else BitVec.ofNat 64 (leNat r.1)) r.2.1))) ∧
     (∀ n, (f.fn, n) ∈ [(0, 8), (1, 4), (3, 2), (5, 1)] →
       let seen := reads (s.atSlot 2) [f.a, f.b, f.d]
       Reaches seen ea n 0 .write false ps es →
       let x := (s.srcS 2 f.d).toNat
       exec (.sts f) s = .next (storeEffs (noteTouched (keepPages seen s.cur.core es) ps true) (lHint f) ps (natLE n x)) ∧
       ∀ t, exec (.sts f) s = .next t → t.hbm = s.hbm ∧ t.banks = s.banks ∧ t.hostMem = s.hostMem ∧ t.mcram = s.mcram)) ∧
  (∀ (f : F3) (s : State) (p : Piece) (es : List TlbEnt), Issues 2 f.g s → p.loc.sp = .ctl →
     let ea := ((((s.srcS 2 f.a).toNat : Int) + (s.srcS 2 f.b).toNat + lOff f + s.cur.off) % 2 ^ 64).toNat
     (∀ n, (f.fn, n) ∈ [(0, 8), (1, 4), (2, 4), (3, 2), (4, 2), (5, 1), (6, 1)] →
       let seen := reads (s.atSlot 2) [f.a, f.b]
       Reaches seen ea n 0 .read false [p] es →
       exec (.lds f) s = .next ((keepPages seen s.cur.core es).withEff (.ctlLoad p.loc.addr n f.fn f.d))) ∧
     (∀ n, (f.fn, n) ∈ [(0, 8), (1, 4), (3, 2), (5, 1)] →
       let seen := reads (s.atSlot 2) [f.a, f.b, f.d]
       Reaches seen ea n 0 .write false [p] es →
       exec (.sts f) s = .next ((keepPages seen s.cur.core es).withEff (.ctlStore p.loc.addr n ((s.srcS 2 f.d).toNat % 2 ^ (8 * n)))))) ∧
  (∀ (s : State) (c off n fn d val : Nat),
     commitEff c s (.ctlStore off n val) = ctlStore s off n val ∧
     commitEff c s (.ctlLoad off n fn d) = giveS (ctlLoad s off n).2 2 d (loadedValue fn (ctlLoad s off n).1) 8) ∧
  (∀ (s : State) (hint : Nat) (p : Piece) (ps : List Piece) (bs : List Byte),
     storeEffs s hint [] bs = s ∧
     storeEffs s hint (p :: ps) bs = storeEffs (s.withEff (.store p.loc (bs.take p.len) hint)) hint ps (bs.drop p.len))


/-- LDV, STV, LDVS, STVS, LDVX and STVX (11 R250, R251): the address of each element, the lanes loaded, the bytes stored. On the control window of
the management controller (25 R433) an access has its effect as the instance issues. -/
def Obligations.VectorLoadsAndStoresComplete : Prop :=
  ∀ (f : F3) (s : State) (ls : List (Nat × List Piece)) (es : List TlbEnt), Issues 2 f.g s →
    let m := s.curCore.live.pred (lMsk f)
    let base : Int := (s.srcS 2 f.a).toNat + lOff f + s.cur.off
    let width (n : Nat) := if n = 0 then 32 else if n = 1 then 16 else 8
    let ctl (ps : List Piece) : Bool := ps.any fun p => p.loc.sp == .ctl
    let group (j : Nat) : Nat := ((base + (s.srcS 2 f.b).toNat) % 2 ^ 64).toNat + 4 * j
    let stride (i : Nat) : Nat := (((base % 2 ^ 64).toNat + i * (s.srcS 2 f.b).toInt) % 2 ^ 64).toNat
    let index (i : Nat) : Nat := (base % 2 ^ 64).toNat + lane (s.srcV 2 f.b) (width f.fn) i * (width f.fn / 8)
    let loads (w : Nat) (addr : Nat → Nat) (i : Instr) :=
      let seen := reads (s.atSlot 2) [f.a, f.b]
      vecAccess seen s.cur.core (w / 8) .read (activeElems m w addr) = .ok (ls, es) →
      let kept := keepPages seen s.cur.core es
      let r := loadElems (if ls.any (fun e => ctl e.2) then kept.withEff .ctlTouch else kept) (lHint f) ls
      ∃ v : Vec, exec i s = .next (addLanding r.2.2 (landV 2 f.d v (groupMask m) r.2.1)) ∧
        ∀ k, k < 2048 / w → lane v w k = ((r.1.find? fun e => e.1 == k).map (·.2)).getD 0 % 2 ^ w
    let stores (w : Nat) (addr : Nat → Nat) (i : Instr) :=
      let seen := reads (s.atSlot 2) [f.d, f.a, f.b]
      vecAccess seen s.cur.core (w / 8) .write (activeElems m w addr) = .ok (ls, es) →
      let bytes (i : Nat) : List Byte := natLE (w / 8) (lane (s.srcV 2 f.d) w i)
      exec i s = .next (ls.foldl (fun x e =>
          if ctl e.2 then x.withEff (.ctlStore ((e.2.head?.map (·.loc.addr)).getD 0) (bytes e.1).length (leNat (bytes e.1)))
          else storeEffs (noteTouched x e.2 true) (lHint f) e.2 (bytes e.1))
        (keepPages seen s.cur.core es))
    loads 32 group (.ldv f) ∧ stores 32 group (.stv f) ∧ loads (width f.fn) stride (.ldvs f) ∧ stores (width f.fn) stride (.stvs f) ∧
    loads (width f.fn) index (.ldvx f) ∧ stores (width f.fn) index (.stvx f)

/-- PREF, CFLUSH and CINV (11 R252, R253): FN 0 names the line of the address, and has no effect where the address names no line of device
memory; other values name every line; a prefetch changes no register and no memory. -/
def Obligations.CacheMaintenanceComplete : Prop :=
  ∀ (f : F3) (s : State), Issues 2 f.g s →
    let seen := reads (s.atSlot 2) [f.a, f.b]
    let ea := ((((s.srcS 2 f.a).toNat : Int) + (s.srcS 2 f.b).toNat + lOff f + s.cur.off) % 2 ^ 64).toNat
    (spanCanonical (ea / 128 * 128) (128 * (f.fn + 1)) = true →
      ∃ t, exec (.pref f) s = .next t ∧ t = prefLines seen (lHint f) (f.fn + 1) (ea / 128 * 128) ∧ t.cores = seen.cores ∧ t.hbm = s.hbm ∧
        t.banks = s.banks ∧ t.hostMem = s.hostMem ∧ t.mcram = s.mcram) ∧
    (f.fn ≠ 0 →
      exec (.cinv f) s = .next ((s.atSlot 2).withEff (.cmd (.cinv f.fn none))) ∧
      exec (.cflush f) s =
        .next { s.atSlot 2 with cur := { (s.atSlot 2).cur with effs := s.cur.effs ++ [.cmd (.cflush f.fn none)], ckpt := true, sync := true } }) ∧
    (f.fn = 0 → canonical ea = true →
      (deviceLine seen s.cur.core ea = none → exec (.cinv f) s = .next seen ∧ exec (.cflush f) s = .next seen) ∧
      ∀ line, deviceLine seen s.cur.core ea = some line →
        exec (.cinv f) s = .next (seen.withEff (.cmd (.cinv 0 (some line)))) ∧
        exec (.cflush f) s =
          .next { seen with cur := { seen.cur with effs := seen.cur.effs ++ [.cmd (.cflush 0 (some line))], ckpt := true, sync := true } })

/-- ATOM and ACCV (11 R254 to R256): at issue one access of 4 or 8 bytes, or of 256; ATOM takes the control window of the management controller
too (25 R433), as an effect of the instance itself. ATOM is performed when the instance has issued: after what
precedes it, memory holds the new value of FN, the old value is in flight with latency 40, and no other byte of the addressed storage
changes. -/
def Obligations.AtomicsComplete : Prop :=
  (∀ (f : F3) (s : State) (p : Piece) (es : List TlbEnt), Issues 2 f.g s → p.loc.sp ≠ .ctl →
     let seen := reads (s.atSlot 2) [f.a, f.b, f.d]
     let n := if (lSub f).testBit 0 then 4 else 8
     let at_ (b : Int) : Nat := (((s.srcS 2 f.a).toNat + b + lOff f + s.cur.off) % 2 ^ 64).toNat
     let u := noteTouched (keepPages seen s.cur.core es) [p] true
     (Reaches seen (at_ 0) n n .both true [p] es → exec (.atom f) s = .next (u.withEff (.atom p.loc f (s.srcS 2 f.b) (s.srcS 2 f.d)))) ∧
     (Reaches seen (at_ (s.srcS 2 f.b).toNat) 256 256 .both true [p] es → s.anyForm p.loc 256 = false →
       ((s.coreJob s.cur.core).det = false ∨ ltInt f.fn = true) →
       exec (.accv f) s =
         .next (u.withEff (.cmd (.accv p.loc f.fn (lSub f) (groupMask (s.curCore.live.pred (lMsk f))) (s.srcV 2 f.d)))))) ∧
  (∀ (f : F3) (s : State) (p : Piece) (es : List TlbEnt), Issues 2 f.g s → p.loc.sp = .ctl →
     let seen := reads (s.atSlot 2) [f.a, f.b, f.d]
     let n := if (lSub f).testBit 0 then 4 else 8
     Reaches seen (((s.srcS 2 f.a).toNat + lOff f + s.cur.off) % 2 ^ 64).toNat n n .both true [p] es →
     exec (.atom f) s = .next ((keepPages seen s.cur.core es).withEff (.ctlAtom p.loc.addr f (s.srcS 2 f.b) (s.srcS 2 f.d))) ∧
     ∀ (t : State) (c off : Nat) (y z : Word),
       let old := ctlLoad t off n
       let new := atomNew f.fn (8 * n) ((lSub f).testBit 1) old.1 (y.toNat % 2 ^ (8 * n)) (z.toNat % 2 ^ (8 * n))
       commitEff c t (.ctlAtom off f y z) = giveS (ctlStore old.2 off n new) 2 f.d (atomResult f old.1) 40) ∧
  (∀ (s : State) (c : Nat) (l : Loc) (f : F3) (y z : Word),
     let before := drainAll s c
     let n := if (lSub f).testBit 0 then 4 else 8
     let unsigned := (lSub f).testBit 1
     let old := leNat (before.bytesAt l n)
     let new := atomNew f.fn (8 * n) unsigned old (y.toNat % 2 ^ (8 * n)) (z.toNat % 2 ^ (8 * n))
     let t := performAtom s c l f y z
     before.memWf = true → l.sp ≠ .ctl → before.anyPoison l n = false →
       leNat (t.bytesAt l n) = new ∧
       (∀ k : Loc, (k.sp ≠ l.sp ∨ k.addr < l.addr ∨ l.addr + n ≤ k.addr) → t.byteAt k = before.byteAt k) ∧
       (t.core before.cur.core).inflight = (before.core before.cur.core).inflight ++
         [landS 2 f.d (if unsigned then BitVec.ofNat 64 old else (BitVec.ofNat (8 * n) old).signExtend 64) 40] ∧
       (f.fn = 0 → new = y.toNat % 2 ^ (8 * n)) ∧ (f.fn = 1 → new = (old + y.toNat) % 2 ^ (8 * n)) ∧
       (f.fn = 2 → new = old &&& y.toNat % 2 ^ (8 * n)) ∧ (f.fn = 3 → new = old ||| y.toNat % 2 ^ (8 * n)) ∧
       (f.fn = 4 → new = old ^^^ y.toNat % 2 ^ (8 * n)) ∧
       (let num (x : Nat) : Int := if unsigned then x else sint (8 * n) x
        (f.fn = 5 → num new = min (num old) (num (y.toNat % 2 ^ (8 * n)))) ∧ (f.fn = 6 → num new = max (num old) (num (y.toNat % 2 ^ (8 * n))))) ∧
       (f.fn = 7 → new = if old = y.toNat % 2 ^ (8 * n) then z.toNat % 2 ^ (8 * n) else old))


/-- CVT (10 R237), PACK and UNPACK (R240): element by element; CVT keeps the bits of d outside the written lanes, and PACK zeroes those
beyond its codes. -/
def Obligations.ConversionsComplete : Prop :=
  ∀ (f : F3) (s t : State) (u : Nat → Nat), Issues 3 f.g s →
    (Draws s (xRm f) t u →
      let ws := ltWidth f.fn
      let wd := ltWidth (xTy f)
      let n := 2048 / (if ws < wd then wd else ws)
      let src (i : Nat) := if ws < wd then xOffBits f * n + i else i
      let dst (i : Nat) := if ws < wd then i else xOffBits f * n + i
      let g (i : Nat) := cvtElem f.fn (xTy f) (RMode.ofCode (xRm f)) (u i) (lane (s.srcV 3 f.a) ws (src i))
      ∃ v mask : Vec,
        exec (.cvt f) s = .next (t.delivers 3 [f.a] ((List.range n).foldl (fun acc i => acc ||| (g i).2) 0) [landV 3 f.d v mask 4]) ∧
        (∀ i, i < n → dst i < 2048 / wd → lane v wd (dst i) = (g i).1 % 2 ^ wd ∧ lane mask wd (dst i) = 2 ^ wd - 1) ∧
        ∀ k, k < 2048 / wd → (∀ i, i < n → dst i ≠ k) → lane mask wd k = 0) ∧
    (let m := efMx (xTy f)
     let x (i : Nat) : Int := sint 8 (lane (s.srcV 3 f.a) 8 i)
     let lo : Int := -(2 ^ (m.width - 1))
     let hi : Int := 2 ^ (m.width - 1) - 1
     ∃ v : Vec,
      exec (.pack f) s = .next (s.delivers 3 [f.a] ((List.range 256).foldl (fun acc i => acc ||| if x i < lo ∨ hi < x i then 16 else 0) 0)
        [landV 3 f.d v (BitVec.allOnes 2048) 4]) ∧
      (∀ i, i < 256 → lane v m.width i = islice m.width (if x i < lo then -(m.top : Int) else if hi < x i then m.top else x i)) ∧
      ∀ k, 256 * m.width ≤ k → v.getLsbD k = false) ∧
    (let m := efMx (xTy f)
     ∃ v : Vec, exec (.unpack f) s = .next (s.delivers 3 [f.a] 0 [landV 3 f.d v (BitVec.allOnes 2048) 4]) ∧
      ∀ i, i < 256 → lane v 8 i = islice 8 (sint m.width (lane (s.srcV 3 f.a) m.width i)))

/-- QNT and DQNT (10 R238, R239): blocks of 32 lanes with their scales in KR. -/
def Obligations.QuantisationsComplete : Prop :=
  ∀ (f : F3) (s t : State) (u : Nat → Nat), Issues 3 f.g s → Draws s (xRm f) t u →
    let w := ltWidth f.fn
    let m := efMx (xTy f)
    let rm := RMode.ofCode (xRm f)
    let half := xOffBits f / 8 % 8
    let first := xOffBits f % 8
    (let blocks := (chunksOf 32 8 ((List.range (2048 / w)).map fun i => ((ltFmt f.fn).decode (lane (s.srcV 3 f.a) w i), u i))).map (mqntBlock m rm)
     let codes := placeBytes (32 * half) (bytesOfFields m.width ((blocks.map fun b => b.2.map (·.1)).flatten))
     let scales := placeBytes first (blocks.map fun b => BitVec.ofNat 8 b.1)
     exec (.qnt f) s = .next (t.delivers 3 [f.a] (blocks.foldl (fun acc b => acc ||| orAll b.2) 0)
       [landV 3 f.d codes.1 codes.2 6, landK 3 (xKr f) (scales.1.setWidth 64) (scales.2.setWidth 64) 6 false])) ∧
    DeliversLanes t 3 [f.a] f.d w 4 (fun _ => true) (BitVec.allOnes 2048)
      (fun i =>
        let code := (leNat ((vecBytes (s.srcV 3 f.a)).drop (32 * half)) >>> (m.width * i)) % 2 ^ m.width
        roundFp (ltFmt f.fn) rm (u i) (mxValue m (kByte (s.curCore.live.kreg (xKr f)) (first + i / 32)) (sint m.width code))) (exec (.dqnt f) s)

/-- LDK, STK, MOVK, RNDW and RNDC (10 R241, R242): scale registers and random words; SEAL and OPEN at issue (R243, R244): when the checks of R244
pass, the operation joins the tile operations. -/
def Obligations.ScalesRandomWordsAndSealsComplete : Prop :=
  (∀ (f : F3) (s : State), Issues 3 f.g s →
     let ones : Word := BitVec.allOnes 64
     let seen := reads (s.atSlot 3) [f.a, f.b]
     let ea := ((((s.srcS 3 f.a).toNat : Int) + (s.srcS 3 f.b).toNat + xOff f + s.cur.off) % 2 ^ 64).toNat
     (∀ ps es, isLocal ea = true → ea % 8 = 0 →
       (Reaches seen ea 8 8 .read false ps es →
         let r := loadNow (keepPages seen s.cur.core es) 0 ps
         exec (.ldk f) s = .next (addLanding r.2.2 { landK 3 f.d (BitVec.ofNat 64 (leNat r.1)) ones 6 true with mem := true })) ∧
       (Reaches seen ea 8 8 .write false ps es →
         exec (.stk f) s =
           .next (storeEffs (noteTouched (keepPages seen s.cur.core es) ps true) 0 ps (natLE 8 (s.curCore.live.kreg f.d).toNat)))) ∧
     (f.fn = 0 → exec (.movk f) s = .next (s.delivers 3 [f.a] 0 [landK 3 f.d (s.srcS 3 f.a) ones 2 true])) ∧
     (f.fn = 1 → exec (.movk f) s = .next (s.delivers 3 [] 0 [landS 3 f.d (s.curCore.live.kreg f.a) 2])) ∧
     (f.fn = 2 → exec (.movk f) s = .next (s.delivers 3 [] 0 [landK 3 f.d (s.curCore.live.kreg f.a) ones 2 true])) ∧
     (((s.coreJob s.cur.core).det = false ∨ s.curCore.rngClaim = true) → s.curCore.live.rngNext < s.curCore.rngEnd →
       let t := s.onArch fun a => { a with rngNext := a.rngNext + 1 }
       let word := genG s.curCore.rngKey (BitVec.ofNat 64 s.curCore.live.rngNext)
       exec (.rndw f) s = .next (t.delivers 3 [] 0 [landS 3 f.d word 2]) ∧
       ∃ v : Vec, exec (.rndc f) s = .next (t.delivers 3 [] 0 [landV 3 f.d v (BitVec.allOnes 2048) 2]) ∧
         ∀ j, j < 64 → lane v 32 j = drawU word j)) ∧
  (∀ (f : F3) (s : State), Issues 3 f.g s →
     let seen := reads (s.atSlot 3) [f.a, f.b]
     let d := s.curCore.live.treg f.d
     let op (opc : Nat) : MOp :=
       { slot := 3, opc := opc, fn := 0, td := ⟨f.d, d⟩, key := (s.srcS 3 f.a).toNat, iv := s.srcS 3 f.b, pc := s.cur.pc, inst := s.cur.inst }
     (sealCheck seen s.cur.core (op 16) (tileOf d 0).outside = none → exec (.sealTile f) s = .next (seen.withEff (.tile (op 16)))) ∧
     (sealCheck seen s.cur.core (op 17) (tileOf d 0).outside = none → exec (.openTile f) s = .next (seen.withEff (.tile (op 17)))))


/-! ### The M, C and Y slots -/

/-- The M operations at issue (12 R266 to R275): when the checks of R267 pass, the operation with its operands as read joins the tile
operations; MSCL reads its factor from SR unless it is 63. -/
def Obligations.MatrixIssueComplete : Prop :=
  ∀ (f : FM) (s t : State) (slot : Nat) (u : Nat → Nat), slot = (if s.cur.slot = 5 then 5 else 4) → Issues slot f.g s → Draws s (mRm f) t u →
    let desc (used : Bool) (reg : Nat) : TileRef := if used then ⟨reg, stepDesc (s.curCore.live.treg reg) s.cur.off⟩ else {}
    let word := if mRm f = 5 then genG s.curCore.rngKey (BitVec.ofNat 64 s.curCore.live.rngNext) else 0
    let op (opc : Nat) (d a b : Bool) (sr : Option Nat) : MOp :=
      { slot := slot, opc := opc, fn := f.fn, td := desc d f.td, ta := desc a f.ta, tb := desc b f.tb, off := s.cur.off,
        ka := s.curCore.live.kreg f.ka, kb := s.curCore.live.kreg f.kb,
        rm := mRm f, tr := mTr f, se := mSe f, sr := sr, rnd := word, pc := s.cur.pc, inst := s.cur.inst }
    let joins (i : Instr) (opc : Nat) (d a b : Bool) (codes : List Nat) (sr : Option Nat) :=
      mCheck (s.atSlot slot) s.cur.core opc f.fn (mTr f) (mTile (s.atSlot slot) d f.td) (mTile (s.atSlot slot) a f.ta)
        (mTile (s.atSlot slot) b f.tb) (matesClash s.cur || storeClash s.cur slot) false = none →
      exec i s = .next ((reads (t.atSlot slot) codes).withEff (.tile (op opc d a b sr)))
    joins (.mldb f) 1 false false true [] none ∧ joins (.mma f) 2 true true false [] none ∧ joins (.mtrn f) 3 true true false [] none ∧
    joins (.mscl f) 4 true true false [mSr f] (if mSr f = 63 then none else some (s.srcS slot (mSr f)).toNat) ∧
    joins (.madd f) 5 true true true [] none ∧ joins (.mcvt f) 6 true true false [] none ∧ joins (.mzero f) 7 true false false [] none ∧
    joins (.mcpy f) 8 true true false [] none ∧ joins (.mqnt f) 10 true true false [] none

/-- MVS at issue (12 R276 to R278, 18 R340): the address of B is a multiple of 2,048 in HBM stack ranges of the partition, in lines without
ciphertext; codes 0 and 63 of HR name
no completion handle. -/
def Obligations.MvsIssueComplete : Prop :=
  ∀ (f : FM) (s t : State) (u : Nat → Nat) (ps : List Piece) (es : List TlbEnt), s.cur.slot ≠ 5 → Issues 4 f.g s → Draws s (mRm f) t u →
    let seen := reads (t.atSlot 4) [mSr f, mHr f]
    let va := (s.srcS 4 (mSr f)).toNat
    let handle := if mHr f = 0 ∨ mHr f = 63 then none else some (s.srcS 4 (mHr f)).toNat
    let desc (reg : Nat) : TileRef := ⟨reg, stepDesc (s.curCore.live.treg reg) s.cur.off⟩
    let op : MOp :=
      { slot := 4, opc := 9, fn := f.fn, td := desc f.td, ta := desc f.ta, tb := ⟨f.tb, s.curCore.live.treg f.tb⟩, off := s.cur.off,
        ka := s.curCore.live.kreg f.ka, kb := s.curCore.live.kreg f.kb, rm := mRm f, tr := mTr f, se := mSe f,
        rnd := if mRm f = 5 then genG s.curCore.rngKey (BitVec.ofNat 64 s.curCore.live.rngNext) else 0,
        pc := s.cur.pc, inst := s.cur.inst }
    mCheck (s.atSlot 4) s.cur.core 9 f.fn (mTr f) (mTile (s.atSlot 4) true f.td) (mTile (s.atSlot 4) true f.ta)
      (mTile (s.atSlot 4) true f.tb) (matesClash s.cur || storeClash s.cur 4) false = none →
    (∀ p ∈ ps, seen.anyForm p.loc p.len = false) →
    va % 2048 = 0 → mvsPieces seen va (mvsExtent op.bT) = .ok (ps, es) →
    (∀ h, handle = some h → addCheck (s.corePart s.cur.core) (s.corePart s.cur.core).hasMill h 1 = none) →
    exec (.mvs f) s = .next ((keepPages seen s.cur.core es).withEff
      (.tile { op with baddr := va, bphys := ps.map (·.loc.addr), handle := handle }))

/-- CPY, CPY.D and MCST at issue (12 R282 to R284, 11 R263): the command with its fields, regions and handle is held; on the management
controller its regions are bytes of MCRAM (25 R432). That a sticky re-issue of MCST steps both its source and its table is the model's choice
(log entry 47). -/
def Obligations.CopiesComplete : Prop :=
  ∀ (f : F3) (s : State) (h : Option Nat), Issues 6 f.g s →
    let c := s.cur.core
    let step (x : Nat) : Nat := (((x : Int) + s.cur.off) % 2 ^ 64).toNat
    let room (t : State) := heldCount t (c / 2) (cChan f) < 16
    (handleAt s f.d (cImm f) h →
      let t := seenAt s [f.a, f.b] f.d
      let src := step (s.srcS 6 f.a).toNat
      let dst := step (s.srcS 6 f.b).toNat
      let e : ECmd :=
        { newEngine t .cpy with
          chan := cChan f, slack := cSlack f, src := src, dst := dst, rowBytes := cImm f, rows := 1, handle := h, inc := cImm f,
          reads := [region c (src, cImm f)], writes := [region c (dst, cImm f)] }
      room t → Holdable e → exec (.cpy f) s = .next (t.holds e)) ∧
    (∀ ps es, let seen := reads (s.atSlot 6) [f.a]
      Reaches seen (s.srcS 6 f.a).toNat 64 64 .read false ps es →
      let l := loadWhole (keepPages seen c es) c ps
      let t := noteChecks (noteTouched l.2 ps false) c ps
      let d := l.1
      let rb := fieldLE d 16 4
      let rows := fieldLE d 20 4
      let add := decide (fieldLE d 48 1 = 1)
      1 ≤ rb → rb ≤ 2 ^ 24 → 1 ≤ rows → rows ≤ 65536 → fieldLE d 48 1 < 2 → allZero (d.drop 49) = true → room t →
      (add = true → addCheck (s.corePart c) (s.corePart c).hasMill (fieldLE d 32 8) (fieldLE d 40 8) = none) →
      let e : ECmd :=
        { newEngine t .cpy with
          chan := cChan f, slack := cSlack f, src := step (fieldLE d 0 8), dst := step (fieldLE d 8 8), rowBytes := rb, rows := rows,
          spitch := sint 32 (fieldLE d 24 4), dpitch := sint 32 (fieldLE d 28 4), handle := if add then some (fieldLE d 32 8) else none,
          inc := fieldLE d 40 8,
          reads := [region c (rowsExtent (step (fieldLE d 0 8)) (sint 32 (fieldLE d 24 4)) rows rb)],
          writes := [region c (rowsExtent (step (fieldLE d 8 8)) (sint 32 (fieldLE d 28 4)) rows rb)] }
      Holdable e → exec (.cpyD f) s = .next (t.holds e)) ∧
    (∀ ps es qs gs, handleAt s f.d (cImm f) h →
      let seen := reads (s.atSlot 6) [f.a, f.b]
      let src := step (s.srcS 6 f.a).toNat
      let table := step (s.srcS 6 f.b).toNat
      isLocal table = true → Reaches seen table 64 64 .read false ps es →
      let l := loadWhole (keepPages seen c es) c ps
      let u := noteChecks (noteTouched l.2 ps false) c ps
      let rs := replicaList l.1
      rs ≠ [] → Reaches u src 128 128 .read false qs gs →
      let w := keepPages u c gs
      replicaFault w c [] rs = none →
      let t := if f.d = 63 then w else reads w [f.d]
      exec (.mcst f) s = .next (t.holds { newEngine t .mcst with src := src, replicas := rs, handle := h, inc := cImm f }))

/-- SEND, ARM and DISARM at issue (12 R282, R285 to R287, 14 R305): the command with its descriptor is held; a stochastic compression pops a
word, in an instance where nothing else has popped (08 R166). -/
def Obligations.DeliveryCommandsComplete : Prop :=
  ∀ (f : F3) (s : State) (h : Option Nat) (ps : List Piece) (es : List TlbEnt), Issues 6 f.g s →
    let c := s.cur.core
    let step (x : Nat) : Nat := (((x : Int) + s.cur.off) % 2 ^ 64).toNat
    let b := (s.srcS 6 f.b).toNat
    (let seen := reads (s.atSlot 6) [f.a]
     Reaches seen (s.srcS 6 f.a).toNat 192 64 .read false ps es →
     let l := loadWhole (keepPages seen c es) c ps
     let t := noteChecks (noteTouched l.2 ps false) c ps
     let d0 := l.1
     let d := setLE (setLE d0 0 8 (step (sendSrc d0))) 32 8 (step (sendResid d0))
     ∀ x w, sendOk d0 = true → (sendAdd d = true → addCheck (s.corePart c) (s.corePart c).hasMill (fieldLE d 40 8) (fieldLE d 48 8) = none) →
     DrawsCommand t (sendSto d0) x w →
     let res := if sendComp d = 0 then [] else [region c (sendResid d, 4 * sendRows d * sendCols d)]
     let e : ECmd :=
       { newEngine x .send with
         slack := cSlack f, desc := d, src := sendSrc d, handle := if sendAdd d then some (fieldLE d 40 8) else none, inc := fieldLE d 48 8,
         rnd := w, number := sendInst d,
         reads := region c (rowsExtent (sendSrc d) (sendPitch d) (sendRows d) (sendCols d * sendElem d)) :: res, writes := res }
     Holdable e → exec (.send f) s = .next (x.holds e)) ∧
    (let seen := reads (s.atSlot 6) [f.a, f.b]
     Reaches seen (s.srcS 6 f.a).toNat 64 64 .read false ps es →
     let l := loadWhole (keepPages seen c es) c ps
     let u := noteChecks (noteTouched l.2 ps false) c ps
     let d0 := l.1
     let d := setLE (setLE (setLE d0 0 8 (step (armBase d0))) 32 8 (step (armBitmap d0))) 40 8 (step (armRing d0))
     bits b 31 10 = 0 → armOk d0 = true → addCheck (s.corePart c) (s.corePart c).hasMill (armRingctr d) 1 = none →
     addCheck (s.corePart c) (s.corePart c).hasMill (armDonectr d) 1 = none → handleAt s f.d (cImm f) h →
     let t := if f.d = 63 then u else reads u [f.d]
     slotTaken t (coreDie c) (b % 1024) = false →
     let e : ECmd :=
       { newEngine t .arm with
         slack := cSlack f, desc := d, slot := b % 1024, number := b / 2 ^ 32, handle := h, inc := cImm f,
         writes := [region c (armExtent d), region c (armBitmap d, armBitmapLen d), region c (armRing d, 8 * 2 ^ armRinglog d)] }
     Holdable e → exec (.arm f) s = .next (t.holds e)) ∧
    (handleAt s f.d (cImm f) h →
     let t := seenAt s [f.b] f.d
     slotOwned t (coreDie c) b (s.curCore.job.getD 0) = true →
     exec (.disarm f) s = .next (t.holds { newEngine t .disarm with slot := b, handle := h, inc := cImm f }))

/-- CLOAD and COLL at issue (12 R282, R288, R289): the command with its descriptor or base table is held. That a sticky re-issue of CLOAD
steps the address of its image, and so the region that it reads, is read from R146 and R282 (log entry 97). -/
def Obligations.GraphCommandsComplete : Prop :=
  ∀ (f : F3) (s : State) (h : Option Nat) (ps : List Piece) (es : List TlbEnt), Issues 6 f.g s →
    let c := s.cur.core
    let step (x : Nat) : Nat := (((x : Int) + s.cur.off) % 2 ^ 64).toNat
    let job := s.curCore.job.getD 0
    let b := (s.srcS 6 f.b).toNat
    let a := (s.srcS 6 f.a).toNat
    let seen := reads (s.atSlot 6) [f.a, f.b]
    let l := loadWhole (keepPages seen c es) c ps
    let u := noteChecks (noteTouched l.2 ps false) c ps
    let t := if f.d = 63 then u else reads u [f.d]
    let d0 := l.1
    (b < 64 → Reaches seen (step a) 64 64 .read false ps es → graphHeadOk d0 = true → handleAt s f.d (cImm f) h →
      graphTaken t (coreDie c) b job = false →
      let e : ECmd :=
        { newEngine t .cload with
          slack := cSlack f, desc := d0, src := step a, slot := b, handle := h, inc := cImm f, reads := [region c (step a, graphLen d0)] }
      Holdable e → exec (.cload f) s = .next (t.holds e)) ∧
    (∀ g x w, let d := collStep u d0
      bits b 31 6 = 0 → Reaches seen a 256 64 .read false ps es →
      (∀ k, k < 8 → (collRegion d k).2 = 0 ∨ (collRegion d k).1 + (collRegion d k).2 ≤ 2 ^ 64) → handleAt s f.d (cImm f) h →
      t.graphSlot (coreDie c) (b % 64) = some g → g.job = job → b / 2 ^ 32 ≠ 0 → b / 2 ^ 32 ≠ lastInstance t (coreDie c) (b % 64) job g →
      DrawsCommand t (graphSto g.image) x w →
      let e : ECmd :=
        { newEngine x .coll with
          slack := cSlack f, desc := d, slot := b % 64, number := b / 2 ^ 32, handle := h, inc := cImm f, rnd := w,
          reads := (List.range 4).map fun k => region c (collRegion d k),
          writes := (List.range 4).map fun k => region c (collRegion d (4 + k)) }
      Holdable e → exec (.coll f) s = .next (x.holds e))

/-- CADD, CADDF, CADDM, GEN and QSTAT (11 R262, R264, R265): the amount is b + IMM26, the bits of CADDM's immediate name the handles that
follow a, GEN reserves its claim at issue, QSTAT reads a channel. That GEN of the management controller, which belongs to no partition,
reserves no claim is the model's choice (log entry 44). -/
def Obligations.CounterAndClaimCommandsComplete : Prop :=
  ∀ (f : F3) (s : State), Issues 6 f.g s →
    let c := s.cur.core
    let a := (s.srcS 6 f.a).toNat
    let b := (s.srcS 6 f.b).toNat
    let p := s.corePart c
    let seen := reads (s.atSlot 6) [f.a, f.b]
    let m := s.mill (c / 2)
    (f.fn = 0 → exec (.qstat f) s = .next (s.delivers 6 [] 0 [landS 6 f.d (BitVec.ofNat 64 (tget 0 m.stall (cChan f))) 4])) ∧
    (f.fn ≠ 0 → exec (.qstat f) s = .next (s.delivers 6 [] 0 [landS 6 f.d (BitVec.ofNat 64 (Nat.min 16 (heldCount s (c / 2) (cChan f)))) 4])) ∧
    (addCheck p (s.jobMill c) a (b + cImm f) = none →
      exec (.cadd f) s = .next (seen.withEff (.cmd (.cadd a (b + cImm f)))) ∧
      (isRemote a = false → exec (.caddf f) s = .next (seen.withEff (.caddf a (b + cImm f) f.d)))) ∧
    (∀ hs, caddmHandles p (s.jobMill c) a b ((List.range 16).filter fun j => (cImm f).testBit j) = .ok hs →
      exec (.caddm f) s = .next (seen.withEff (.cmd (.caddm hs b)))) ∧
    (let seed := s.srcS 6 f.d
     let pid := (s.coreJob c).pid
     let seen := reads (s.atSlot 6) [f.a, f.b, f.d]
     let id := s.curCore.job.getD 0
     1 ≤ b → a + b ≤ 2 ^ 64 →
     (c = 768 → exec (.gen f) s = .next (seen.withEff (.cmd (.gen seed a b)))) ∧
     (c ≠ 768 → claimConflict (s.part pid) (some id) seed a b = false → (s.part pid).claims.length < 1024 →
       exec (.gen f) s = .next ((seen.setPart pid
         { s.part pid with claims := (s.part pid).claims ++ [⟨seed, a, b, id, some s.curCore.strand, false⟩] }).withEff (.cmd (.gen seed a b)))))

/-- WAITF, WATCH and UNWATCH (11 R257 to R261): a satisfied WAITF acquires, WATCH reserves its entry at issue, and both WATCH and UNWATCH act
at release. -/
def Obligations.FlagsComplete : Prop :=
  (∀ (f : FW) (s : State), Issues 7 f.g s →
    ∃ t, exec (.waitf f) s = .next t ∧ t = acquireFlags (s.atSlot 7) s.cur.core f.mask ∧
      ((∀ n, n < 16 → f.mask.testBit n = true → s.curCore.fto.getLsbD n = true ∨ tget 0 s.curCore.fhome n = 0) → t = s.atSlot 7)) ∧
  (∀ (f : FY) (s : State), Issues 7 f.g s →
    exec (.unwatch f) s = .next ((s.atSlot 7).withEff (.cmd (.unwatch f.flag))) ∧
    (let seen := reads (s.atSlot 7) [f.a, f.b]
     let c := s.cur.core
     let h := (s.srcS 7 f.a).toNat
     let x := if f.kind = 0 then 0 else (s.srcS 7 (extField f.ext 5 0 0)).toNat
     let y := if f.kind = 1 ∨ f.kind = 3 then (s.srcS 7 (extField f.ext 11 6 0)).toNat else 0
     let pid := (s.coreJob c).pid
     let p := s.part pid
     let kind : WaiterKind :=
       if f.kind = 0 then .flag (s.curCore.job.getD 0) s.curCore.strand f.flag
       else if f.kind = 1 then .event x (y % 2 ^ 32) else if f.kind = 2 then .hostint x else .forward x y
     watchCheck seen c f.kind h x y = none →
     exec (.watch f) s = .next ((seen.setPart pid { p with reserved := tmod 0 p.reserved (waiterPool h) (· + 1) }).withEff
       (.cmd (.watch
         { h := h, threshold := (s.srcS 7 f.b).toNat, kind := kind, deadline := if f.kind = 0 then f.ext.getD 0 else 0, pid := pid,
           aspace := (s.coreJob c).aspace, die := hHome h, by_ := s.issuer c })))))

/-- What issue leaves unchanged (07 R139, R153; 11 R248): delivering results changes only the issuing core's STATUS and its results in flight,
reading an undefined latch only STATUS, and queueing an effect only the cursor; no byte of memory, no
counter, no register of another core. A fault raised at issue is taken at once, and the instance goes no further. -/
def Obligations.IssueFrame : Prop :=
  ∀ (s : State) (slot : Nat) (codes : List Nat) (st : Nat) (ls : List Landing) (e : Eff),
    let x := s.curCore
    let frame (t : State) : Prop :=
      { t with cores := s.cores, cur := s.cur } = s ∧ (∀ l, l.sp ≠ .ctl → t.byteAt l = s.byteAt l) ∧ (∀ h, t.ctr h = s.ctr h) ∧
        ∀ d, d ≠ s.cur.core → t.core d = s.core d
    (let t := s.delivers slot codes st ls
     let y := t.core s.cur.core
     frame t ∧ t.cur = { s.cur with slot := slot } ∧ y.inflight = x.inflight ++ ls ∧
       y.live.status = x.live.status ||| latchStatus s slot codes ||| BitVec.ofNat 64 st ∧
       { y with inflight := x.inflight, live := { y.live with status := x.live.status } } = x) ∧
    (let t := reads (s.atSlot slot) codes
     let y := t.core s.cur.core
     frame t ∧ t.cur = { s.cur with slot := slot } ∧ y.live.status = x.live.status ||| latchStatus s slot codes ∧
       { y with live := { y.live with status := x.live.status } } = x) ∧
    (let t := s.withEff e
     { t with cur := s.cur } = s ∧ t.cur = { s.cur with effs := s.cur.effs ++ [e] }) ∧
    (∀ code info, s.cur.effs = [] →
      let u := takeFault s s.cur.core { code := code, info := info, slot := s.cur.slot, inst := s.cur.inst, epc := s.cur.pc } false
      raise s code info = { u with cur := { u.cur with aborted := true, effs := [] } })

/-! ### Events of the core pipeline -/

/-- RESULT_LANDING and RELEASE_BUFFER_DRAIN (07 R139, R140, R148; 05 R102): the results that are due land in issue order, in the live copy and,
when their region has ended, in the shadow copy; the oldest released entry of a core is performed: the bytes of a store stand at its home,
and every other byte of every memory is as before. -/
def Obligations.LandingsAndDrainsComplete : Prop :=
  (∀ (s : State) (c : Nat),
     (let due := (s.core c).inflight.filter fun l => l.left = 0
      exec (.resultLanding c) s = .next (s.onCore c fun x =>
       { x with
         live := due.foldl Arch.land x.live, shadow := (due.filter fun l => l.older).foldl Arch.land x.shadow,
         inflight := x.inflight.filter fun l => l.left ≠ 0 })) ∧
     ((s.core c).drain = [] → exec (.releaseBufferDrain c) s = .next s) ∧
     (∀ (e : BufEnt) (es : List BufEnt), (s.core c).drain = e :: es →
       let by_ := (s.core c).drainBy
       let t := performEntry (s.onCore c fun x => { x with drain := es }) c by_ e
       ((t.core c).drain = [] → exec (.releaseBufferDrain c) s = .next (offerAll (tryComplete t by_.ctx))) ∧
       ((t.core c).drain ≠ [] → exec (.releaseBufferDrain c) s = .next (offerAll (t.push [.releaseBufferDrain c]))))) ∧
  (∀ (s : State) (c hint : Nat) (l : Loc) (bs : List Byte) (es : List BufEnt),
     (s.core c).drain = .write l bs hint :: es → s.offers = [] → s.memWf = true → l.sp ≠ .ctl →
     ∃ t, exec (.releaseBufferDrain c) s = .next t ∧
       (∀ k, k < bs.length → t.byteAt ⟨l.sp, l.addr + k⟩ = bs.getD k 0) ∧
       (∀ p : Loc, p.sp ≠ .ctl → (p.sp ≠ l.sp ∨ p.addr < l.addr ∨ l.addr + bs.length ≤ p.addr) → t.byteAt p = s.byteAt p) ∧
       t.parts = s.parts ∧ t.ctrs = s.ctrs ∧ (t.core c).live = (s.core c).live ∧ (t.core c).drain = es)


/-- TILE_OPERATION_COMPLETE, MVS_COMPLETE, ARRAY_READ_FAILURE, LOAD_ECC_FAILURE, M_OPERATION_DISPATCH and DRESS_WAIT_EXPIRY (07 R142, R157,
R158; 12 R278, R291, R292): the oldest operation of its kind completes; a failed check of a load rolls the region back the first time, and
raises POISON the second, and waits while a match that has begun cannot finish its dispatches (13 R303). -/
def Obligations.TileAndIntegrityEventsComplete : Prop :=
  ∀ (s : State) (c : Nat),
    (∀ (pre post : List MOp) (m : MOp), (s.core c).tiles = pre ++ m :: post →
      let s1 := s.onCore c fun x => { x with tiles := pre ++ post }
      ((∀ q ∈ pre, q.opc = 9) → m.opc ≠ 9 → exec (.tileOperationComplete c) s = .next (offerAll (tileDone (tileResult s1 c m) c))) ∧
      ((∀ q ∈ pre, q.opc ≠ 9) → m.opc = 9 →
        (∀ e, s.cmd m.cmd = some e → mayStart s e = true) →
        exec (.mvsComplete c) s = .next (offerAll (tileDone (mvsFinish s1 c m) c))) ∧
      (∀ addr, (∀ q ∈ pre, q.opc = 9 ∨ rangesMeet [(addr, 1)] q.reads = false) → m.opc ≠ 9 → rangesMeet [(addr, 1)] m.reads = true →
        let l := bankLoc (c / 2) addr
        exec (.arrayReadFailure c addr) s = .next (offerAll (tileDone (tileFault (s1.setPoison l) c m cPoison (lineInfo l)) c)))) ∧
    (∀ (pre post : List LoadCheck) (k : LoadCheck) (addr : Nat), (s.core c).loads = pre ++ k :: post →
      (∀ q ∈ pre, addr < q.loc.addr ∨ q.loc.addr + q.len ≤ addr) → k.loc.addr ≤ addr → addr < k.loc.addr + k.len →
      let l : Loc := ⟨k.loc.sp, addr⟩
      (matchWaits s c = true →
        exec (.loadEccFailure c addr) s = .next (((s.issueCores c).foldl finishMatch s).push [.loadEccFailure c addr])) ∧
      (matchWaits s c = false → (s.core c).eccAddr ≠ some l →
        exec (.loadEccFailure c addr) s = .next (offerAll ((rollback s c).onCore c fun x => { x with eccAddr := some l }))) ∧
      (matchWaits s c = false → (s.core c).eccAddr = some l →
        exec (.loadEccFailure c addr) s = .next (offerAll (takeFault ((s.onCore c fun x => { x with eccAddr := none }).setPoison l) c
          { code := cPoison, info := lineInfo l, slot := k.slot, inst := k.inst, epc := k.pc } false)))) ∧
    ((s.core c).pending = [] →
      ((s.core c).window ≠ [] ∨ (s.core c).staged ≠ [] → exec (.mOperationDispatch c) s = .next (offerAll (stageRun c false 1 s))) ∧
      (∀ e es, (s.core c).window = e :: es → Config.dressWait ≤ e.age →
        exec (.dressWaitExpiry c) s = .next (offerAll (stageRun c false 9 s))))

/-- FREEZE_CLEAR, PREEMPTION_REQUEST, PREEMPTION_FREEZE_TIMEOUT (07 R143, R159, 13 R291) and the two steps of a BANKROLE change (04 R83): the
cores of a LOCKSTEP group stop together, a dispatch that R142 holds keeps them frozen; zeroing begins once what the mill's cores have released
is performed; the banks whose role changes read zero after, and no
other bank byte changes. -/
def Obligations.FreezeAndRoleEventsComplete : Prop :=
  (∀ (s : State) (c : Nat),
    let cs := s.issueCores c
    let thaw (t : State) := cs.foldl (fun u d => u.onCore d fun x => { x with frozen := false }) t
    let ask := cs.foldl (fun u d => u.onCore d fun x => { x with preempt := true }) s
    let busy (d : Nat) : Prop := (s.core d).frozen = true ∨ rolesChange s d = true
    ((s.core c).frozen = true → (∀ d ∈ cs, ∀ p, (s.core d).hold ≠ some (.ats p)) → (∀ d ∈ cs, (s.core d).closing = none) →
      (let t := cs.foldl (fun u d => stageRun d false 9 u) s
       ((∃ d ∈ cs, stageHeld t d = true) → exec (.freezeClear c) s = .next (offerAll t)) ∧
       ((∀ d ∈ cs, stageHeld t d = false) → exec (.freezeClear c) s = .next (offerAll (preemptAsked (thaw t) cs)))) ∧
      ((∀ d ∈ cs, (s.core d).window = [] ∧ (s.core d).staged = []) → (∀ d ∈ cs, (s.core d).preempt = false) →
        exec (.freezeClear c) s = .next (offerAll (thaw s)))) ∧
    (c ≠ 768 → (s.core c).job ≠ none → (s.core c).stopped = false → cs ≠ [] →
      ((∃ d ∈ cs, busy d) → exec (.preemptionRequest c) s = .next (offerAll ask)) ∧
      ((∀ d ∈ cs, ¬ busy d) → exec (.preemptionRequest c) s = .next (offerAll (preemptHere ask cs)))) ∧
    ((s.core c).preempt = true → (∃ d ∈ cs, (s.core d).frozen = true) → (∀ d ∈ cs, (s.mill (d / 2)).change = none) →
      (matchWaits s c = true → exec (.preemptionFreezeTimeout c) s = .next ((cs.foldl finishMatch s).push [.preemptionFreezeTimeout c])) ∧
      (matchWaits s c = false → exec (.preemptionFreezeTimeout c) s = .next (offerAll (cs.foldl stopRolledBack (rollback s c)))))) ∧
  (∀ (s : State) (mill : Nat) (ch : RoleChange), (s.mill mill).change = some ch →
    let bs := changedBanks (s.mill mill)
    (ch.zeroing = false → engineInBanks s mill bs = false → (∀ c ∈ [2 * mill, 2 * mill + 1], (s.core c).closing = none) →
      (∀ c ∈ [2 * mill, 2 * mill + 1], ∀ t ∈ (s.core c).tiles, ∀ r ∈ t.reads ++ t.writes, inBanks bs r.1 r.2 = false) →
      let t := drainAll (drainAll s (2 * mill)) (2 * mill + 1)
      exec (.bankroleZeroingStart mill) s =
        .next (offerAll ((t.setMill mill { t.mill mill with change := some { ch with zeroing := true } }).push [.bankroleZeroingEnd mill]))) ∧
    (ch.zeroing = true → s.offers = [] → (∀ c ∈ [2 * mill, 2 * mill + 1], ∀ d ∈ s.issueCores c, (s.core d).preempt = false) →
      ∃ t, exec (.bankroleZeroingEnd mill) s = .next t ∧ (t.mill mill).bankrole = ch.roles ∧ (t.mill mill).change = none ∧
        (∀ b ∈ bs, ∀ off, off < 262144 → t.byteAt ⟨.bank, mill * 2 ^ 23 + b * 262144 + off⟩ = 0) ∧
        (∀ a, (∀ b ∈ bs, a < mill * 2 ^ 23 + b * 262144 ∨ mill * 2 ^ 23 + b * 262144 + 262144 ≤ a) → t.byteAt ⟨.bank, a⟩ = s.byteAt ⟨.bank, a⟩) ∧
        t.cores = s.cores ∧ t.hbm = s.hbm ∧ t.parts = s.parts ∧ t.ctrs = s.ctrs))

/-! ### Counters -/

/-- COUNTER_UPDATE, HOSTINT_POST, WAITER_ARRIVAL, WAITER_REMOVAL, WATCH_DEADLINE_EXPIRY and HOST_COUNTER_STORE (06 R122, R123, R127 to R130,
R133): an add that fires no waiter and rings no doorbell changes the one counter, modulo 2^64; a waiter's deadline counts from its arrival. -/
def Obligations.CounterEventsComplete : Prop :=
  (∀ (s : State) (h amount : Nat) (by_ : Issuer), handleOk h = true → amount < 2 ^ 62 →
    exec (.counterUpdate h amount by_) s = .next (offerAll (doAdd s h amount by_ 9)) ∧
    (isRemote h = false → hKind (ownHandle h) ≠ 3 → s.offers = [] →
      (∀ w ∈ s.waiters, ctrKey w.h = ctrKey (ownHandle h) →
        reached (s.ctr (ownHandle h)) (BitVec.ofNat 64 w.threshold) = reached (s.ctr (ownHandle h) + BitVec.ofNat 64 amount) (BitVec.ofNat 64 w.threshold)) →
      exec (.counterUpdate h amount by_) s = .next (askInvals (s.setCtr (ownHandle h) (s.ctr (ownHandle h) + BitVec.ofNat 64 amount))))) ∧
  (∀ (s : State) (link vec : Nat), exec (.hostintPost link vec) s = .next { s with outputs := s.outputs ++ [.msix link vec] }) ∧
  (∀ (s : State) (w : Waiter), handleOk w.h = true → hKind w.h ≠ 4 → w.threshold < 2 ^ 64 →
    exec (.waiterArrival w) s = .next (offerAll (armWaiter s w)) ∧
    (s.offers = [] → (∀ j st n, w.kind ≠ .flag j st n) → reached (s.ctr w.h) (BitVec.ofNat 64 w.threshold) = false →
      exec (.waiterArrival w) s = .next (askInvals { s with waiters := s.waiters ++ [{ w with armed := s.cycle }] }))) ∧
  (∀ (s : State) (ctx strand flag : Nat),
    let kept := s.waiters.filter fun w => w.kind ≠ .flag ctx strand flag
    exec (.waiterRemoval ctx strand flag) s = .next { s with waiters := kept } ∧
    ((∃ w ∈ s.waiters, w.kind = .flag ctx strand flag ∧ w.deadline ≠ 0 ∧ w.armed + w.deadline ≤ s.cycle) →
      exec (.watchDeadlineExpiry ctx strand flag) s = .next (setFlag { s with waiters := kept } ctx strand flag true 0))) ∧
  (∀ (s : State) (link i value : Nat), i < 2 ^ 20 →
    (∃ p ∈ s.parts, p.2.st ≠ .free ∧ p.2.hostBase ≤ i ∧ i < p.2.hostBase + p.2.hostCnt) →
    (value < 2 ^ 62 → exec (.hostCounterStore link (16 * i) 8 value) s = .next (offerAll (applyAdd s (hostHandle i) value))) ∧
    (2 ^ 62 ≤ value → exec (.hostCounterStore link (16 * i) 8 value) s =
      .next { s with hostRefusals := tmod 0 s.hostRefusals link (· + 1) }))

/-! ### The scheduler -/

/-- LAUNCH_QUEUE_ENTRY_ACCEPT, DISPATCH, CONTEXT_COMPLETE, CONTEXT_SWITCH_OUT, CONTEXT_RESTORE and BLOCK_YIELD (19 R350 to R359; 02 R30, R46;
18 R345 to R348): an accepted entry is consumed, counted in TAKEN and submitted; the head of the ready queues is placed when its quads are free,
and else its victims are pre-empted; a context completes with its status, its completion add, and its quads returned. That a queued copy goes to
the core that takes its core's place, with its completion handle as it stood, is the model's choice (log entry 100), and so is what a
switched-out context keeps beside its image (log entry 114). -/
def Obligations.ContextEventsComplete : Prop :=
  (∀ (s : State) (pid queue : Nat), nextDue (s.part pid) = some queue → s.schedPaused = false →
    let p := s.part pid
    let q := tget {} p.queues queue
    let e := s.bytesAt ⟨.hbm, lqRing q.desc + 16 * (q.taken % 2 ^ lqLogn q.desc)⟩ 16
    let refused (code : Nat) := acceptMore (countTaken (consumeEntry s pid queue 2 code) pid queue) pid
    (p.st = .draining → exec (.launchQueueEntryAccept pid queue) s = .next (offerAll (refused 0))) ∧
    (p.st = .active → hostPending s pid < 4096 - p.pool →
      (∀ code, entryFault s pid e = some code → exec (.launchQueueEntryAccept pid queue) s = .next (offerAll (refused code))) ∧
      (entryFault s pid e = none →
        let loc : Loc := ⟨.hbm, fieldLE e 0 8⟩
        let n := nextSubmission (consumeEntry (wakeHome s loc) pid queue 1 0) pid
        exec (.launchQueueEntryAccept pid queue) s = .next (offerAll (acceptMore
          (submit (countTaken (writeAt n.2 p.schedDie ⟨.hbm, loc.addr + 100⟩ (zeros 3)) pid queue) pid (s.bytesAt loc 128) loc 0 none [n.1] false) pid))))) ∧
  (∀ (s : State) (pid : Nat) (h : Job), (s.part pid).st = .active → s.schedPaused = false → readyHead s pid = some h →
    (quadsNeeded h ≤ (freeQuads s pid).length →
      exec (.dispatch pid) s =
        .next (offerAll (serveQueues ((if h.dispatched then placeAgain s h else firstDispatch s h).push [.dispatch pid]) pid))) ∧
    ((freeQuads s pid).length < quadsNeeded h →
      exec (.dispatch pid) s = .next (offerAll ((victims s pid h).foldl (preemptVictim h) s)))) ∧
  (∀ (s : State) (id : Nat), jobDone s id = true →
    let j := s.job id
    let act := s.mgmt.act
    (s.schedPaused = true → .event (.contextComplete id) ∉ act.deferred →
      exec (.contextComplete id) s =
        .next { s with mgmt := { s.mgmt with act := { act with deferred := act.deferred ++ [.event (.contextComplete id)] } } }) ∧
    (s.schedPaused = false →
      let s1 := writeStatus (dropSlots (endClaims s j.pid id) id) j j.outcome (if j.outcome = 2 then 0 else j.fcode)
      let s2 := { s1 with waiters := s1.waiters.filter fun w => match w.kind with | .flag k _ _ => k != id | _ => true }
      let s3 := tickClock (doAdd s2 (recDoneh j.record) (recDoneinc j.record) ⟨id, 0⟩ 9) (s.part j.pid).schedDie
      ∃ t, exec (.contextComplete id) s = .next (offerAll t) ∧ (t.job id).phase = .ended ∧ (t.job id).mills = [] ∧
        t = (s3.setJob id { s3.job id with
            phase := .ended, mills := [], kept := [], keptMills := [], keptCtrs := [], keptWaiters := [], groups := [] }).push
          [if (s.part j.pid).st = .draining then .drainingComplete j.pid else .dispatch j.pid])) ∧
  (∀ (s : State) (id base tagAddr : Nat),
    let j := (noteWatch s id).job id
    let p := s.part j.pid
    switchable s j = true → s.schedPaused = false →
    imageFits p base tagAddr (imageChunks j.strands.length (if pinned s j then 0 else j.mills.length)) = true →
    ∃ t, exec (.contextSwitchOut id base tagAddr) s = .next (offerAll t) ∧
      (t.job id).image = some (base, tagAddr, p.nonce + 1) ∧ (t.part j.pid).nonce = p.nonce + 1 ∧ (t.job id).phase ≠ .running ∧
      (t.job id).strands = j.strands.map (fun x => match x with | .core _ => .saved | y => y) ∧
      (t.job id).mills = (if pinned s j then j.mills else []) ∧
      (∀ c ∈ s.jobCores id, (t.core c).job = none ∧ c ∉ t.runQueue) ∧ t.ctrs = s.ctrs ∧ t.banks = s.banks) ∧
  (∀ (s : State) (id base tagAddr nonce : Nat),
    let j := s.job id
    let p := s.part j.pid
    let hold := j.keptMills.isEmpty
    j.image = some (base, tagAddr, nonce) → j.phase = .running → .saved ∈ j.strands →
    imageGood s p base tagAddr (imageChunks j.strands.length (if hold then 0 else j.mills.length)) nonce = true →
    let recs (i : Nat) : List Byte := rangeBytes s (saveRange p) (base + (1 + 2 * i) * chunkSize) 131072
    let s0 := wakeRange s (saveRange p) base (imageChunks j.strands.length (if hold then 0 else j.mills.length) * chunkSize)
    let s1 := if hold then s0 else
      moveWaiters (restoreLocals recs j
        (j.mills.zipIdx.foldl (fun t x => restoreMill p base (1 + 2 * j.strands.length) j (zeroLocals t x.1) x.1 x.2) s0)) j
    let places := placesOf j
    let cmds := j.savedCmds.map fun (e : ECmd) => { e with core := newCore j e.core }
    let s2 := ({ s1 with engines := s1.engines ++ cmds } : State).setJob id
      { j with
        strands := j.strands.zipIdx.map fun x => ((places.find? fun q => q.1 == x.2).map fun q => StrandAt.core q.2).getD x.1,
        image := none, kept := [], keptMills := [], keptCtrs := [], keptWaiters := [], savedCmds := [],
        groups := rebuildGroups j.groups (places.filterMap fun q => groupFrom q.1 (recs q.1)),
        wdogNs := fieldLE (rangeBytes s (saveRange p) base 64) 56 8, wdogAt := s.fabricTime }
    let s3 := formFull (places.foldl (fun t q => restoreStrand recs j t q.1 q.2) s2) id
    j.leaving = false → exec (.contextRestore id) s = .next (offerAll ((tryComplete s3 id).push (cmds.map engineEvent)))) ∧
  (∀ (s : State) (id : Nat), blockedNow s (s.job id) = true → exec (.blockYield id) s = .next (s.push [.dispatch (s.job id).pid]))

/-- AGE_PERIOD_EXPIRY, WATCHDOG, the gang events and the idle states (02 R47; 19 R361 to R366); what falls due while the scheduler is paused
waits (24 R427). That an idle condition's time is first noted and its state entered by a later event is the model's choice (log entry 53). -/
def Obligations.SchedulerTimersComplete : Prop :=
  (∀ (s : State) (pid task : Nat),
    let j := s.job task
    let act := s.mgmt.act
    let ask : Instr := .agePeriodExpiry pid task
    let waits := act.deferred.count (.event ask)
    let period := (s.part pid).agePeriod.toNat * 1000
    j.pid = pid → j.phase = .ready → (s.part pid).ceiling + waits < j.level → j.readyAt + (waits + 1) * period ≤ s.fabricTime →
    (s.schedPaused = true → exec ask s = .next { s with mgmt := { s.mgmt with act := { act with deferred := act.deferred ++ [.event ask] } } }) ∧
    (s.schedPaused = false →
      exec ask s = .next ((s.setJob task { j with level := j.level - 1, readyAt := j.readyAt + period }).push [.dispatch pid]))) ∧
  (∀ (s : State) (id : Nat),
    let j := s.job id
    let ran := j.wdogNs + (s.fabricTime - j.wdogAt)
    recWdog j.record ≠ 0 → j.phase = .running → j.image = none → j.halted = false → j.wdogHit = false → awaitsPage s id = false →
    recWdog j.record * 1000 ≤ ran →
    exec (.watchdog id) s =
      .next (offerAll (offerContext (s.setJob id { j with wdogNs := ran, wdogAt := s.fabricTime, wdogHit := true }) id cWatchdog 0))) ∧
  (∀ (s : State) (pid gang k : Nat),
    let p := s.part pid
    let d := tget [] p.gangs gang
    let within : Prop := gangOn d = true ∧ sliceStart d k ≤ s.fabricTime ∧ s.fabricTime < sliceEnd d k
    let ended : State :=
      (((s.jobsOf pid).filter fun j => j.phase = .running && recGang j.record && recGangix j.record = gang).foldl
        (fun t j => preemptJob t j.id true) (s.setPart pid { p with slice := tins p.slice gang none })).push [.dispatch pid]
    (p.st = .active → within → tget none p.slice gang ≠ some k →
      (s.schedPaused = true → exec (.gangSliceStart pid gang k) s = .next (s.deferOnce (.gangSliceStart pid gang k))) ∧
      (s.schedPaused = false →
        let t := if tget none p.slice gang = none then s else ended
        exec (.gangSliceStart pid gang k) s = .next (offerAll
          ((t.setPart pid { t.part pid with slice := tins (t.part pid).slice gang (some k) }).push [.dispatch pid])))) ∧
    (tget none p.slice gang = some k → ¬ within →
     (s.schedPaused = true → exec (.gangSliceEnd pid gang) s = .next (s.deferOnce (.gangSliceEnd pid gang))) ∧
     (s.schedPaused = false → exec (.gangSliceEnd pid gang) s = .next (offerAll ended))) ∧
    (∀ task, s.schedPaused = false → (s.job task).pid = pid → (s.job task).phase = .ready → recGang (s.job task).record = true →
      recGangix (s.job task).record = gang → tget none p.slice gang = some k → within → (s.job task).skipped ≠ some k →
      sliceStart d k + 20000 ≤ s.fabricTime →
      exec (.gangMiss pid gang task k) s = .next (((recordSet (recordAdd s pid (40 + 4 * gang) 4 1) pid (104 + 8 * gang) 8 k).setJob task
        { s.job task with skipped := some k }).push [.dispatch pid]))) ∧
  (∀ (s : State) (u : Nat),
    (u < 768 →
      (∃ t, exec (.idleWake u) s = .next t ∧ (t.core u).power = 0 ∧ (t.core u).idleAt = none ∧ (t.mill (u / 2)).idle = 0 ∧
        (t.die (u / 96)).idle = 0 ∧ (t.core u).live = (s.core u).live ∧ t.hbm = s.hbm ∧ t.banks = s.banks ∧ t.ctrs = s.ctrs) ∧
      (coreIdle s u = true → tolerates s (u / 2) 50 = true →
        ((s.core u).idleAt = none → exec (.idleStateEntry u 1) s = .next (s.onCore u fun x => { x with idleAt := some s.fabricTime })) ∧
        (∀ a, (s.core u).idleAt = some a → a + 50 ≤ s.fabricTime →
          exec (.idleStateEntry u 1) s = .next (s.onCore u fun x => { x with power := 1 })))) ∧
    (u < 384 →
      (∃ t, exec (.idleWake (768 + u)) s = .next t ∧ (t.mill u).idle = 0 ∧ (t.die (u / 48)).idle = 0 ∧ t.cores = s.cores) ∧
      (∀ a, millIdle s u = true → tolerates s u 5000 = true → (s.mill u).idleAt = some a → a + 5000 ≤ s.fabricTime →
        exec (.idleStateEntry (768 + u) 2) s = .next (s.setMill u { s.mill u with idle := 2 }))) ∧
    (u < 8 →
      (∃ t, exec (.idleWake (1152 + u)) s = .next t ∧ (t.die u).idle = 0 ∧ t.cores = s.cores ∧ t.mills = s.mills) ∧
      (∀ a, dieIdle s u = true → (∀ m ∈ dieMills u, tolerates s m 200000 = true) → (s.die u).idleAt = some a → a + 200000 ≤ s.fabricTime →
        exec (.idleStateEntry (1152 + u) 3) s = .next (s.setDie u { s.die u with idle := 3 }))))

/-! ### Translation and host loss -/

/-- TRANSLATION_WALK_COMPLETE, PAGE_DEVICE, PAGE_REQUEST_RESPONSE, PRI_REENABLE, the ATS events and host loss (20 R372 to R377, R383; 26 R444). A
page-fault answer reaches a resident strand, a saved strand, an engine command or an armed slot, once the accesses that began with a translation
of the page have been performed (20 R373). That either link's loss is the loss of every partition's host (log entry 104), and that the leat cores
of the partition's ports each get one HOST_LOST for each suspended context (log entry 66), are the model's choices. -/
def Obligations.TranslationEventsComplete : Prop :=
  (∀ (s : State) (die pid space va : Nat) (e : TlbEnt), walk s pid space va = .page e →
    exec (.translationWalkComplete die pid space va) s = .next (s.setDie die { s.die die with l2 := tlbAdd (s.die die).l2 8192 e })) ∧
  (∀ (s : State) (entryAddr entry va : Nat), s.schedPaused = false →
    let mapped (who pid asp : Nat) (answer : State → State) : Prop :=
      let ask : Instr := .pageDevice who true entryAddr entry
      let w := invalOf s ask false pid asp false
      let t := mapPage s pid asp va entryAddr entry
      (s.invalReady ask = true → exec ask s = .next (offerAll (answer (dropInval s ask)))) ∧
      ((∀ q ∈ s.mgmt.invals, q.ask ≠ ask) →
        (pageCached s pid asp va = false ∨ (w.cores = [] ∧ w.cmds = []) → exec ask s = .next (offerAll (answer t))) ∧
        (pageCached s pid asp va = true → w.cores ≠ [] ∨ w.cmds ≠ [] → exec ask s = .next (offerAll (waitInval t w false))))
    (∀ c, c < 2 ^ 20 → (s.core c).hold = some (.pageDevice va) →
      mapped c (s.coreJob c).pid (s.coreJob c).aspace (fun t =>
        wakeCore ((noteWatch t ((t.core c).job.getD 0)).onCore c fun x => { x with hold := none, pageFault := none }) c) ∧
      (∀ f, (s.core c).pageFault = some f → exec (.pageDevice c false entryAddr entry) s = .next (offerAll (offerPage s c f)))) ∧
    (∀ id strand, 0 < id → id < 2 ^ 20 → strand < 2 ^ 20 → (s.job id).strands[strand]? = some .saved →
      (tget {} (s.job id).kept strand).hold = some (.pageDevice va) →
      mapped (id * 2 ^ 20 + strand) (s.job id).pid (s.job id).aspace (fun t => answerSaved t id strand true 0) ∧
      exec (.pageDevice (id * 2 ^ 20 + strand) false entryAddr entry) s = .next (offerAll (answerSaved s id strand false 0))) ∧
    (∀ id e, id < 2 ^ 50 - 2 ^ 40 → s.cmd id = some e → e.stage = .stalledDevice va →
      mapped (2 ^ 40 + id) e.pid e.aspace (fun t => resumeCmd t e) ∧
      exec (.pageDevice (2 ^ 40 + id) false entryAddr entry) s =
        .next (offerAll (stopEngine s e cPageDevice va (malformedFlag s e.pid e.aspace va)))) ∧
    (∀ die slot a, slot < 1024 → s.armedSlot die slot = some a → a.waitDev = some va →
      mapped (2 ^ 50 + die * 1024 + slot) a.pid a.aspace (fun t => answerSlot t die slot a true 0 0 0) ∧
      exec (.pageDevice (2 ^ 50 + die * 1024 + slot) false entryAddr entry) s =
        .next (offerAll (answerSlot s die slot a false cPageDevice va (malformedFlag s a.pid a.aspace va))))) ∧
  (∀ (s : State) (die index : Nat) (q : PageReq), (s.die die).pageReqs[index]? = some q →
    let d := s.die die
    let left := s.setDie die { d with pageReqs := d.pageReqs.eraseIdx index }
    exec (.pageRequestResponse die index 0) s = .next (offerAll (sendWaiting (answerPage left die q true) die)) ∧
    exec (.pageRequestResponse die index 1) s = .next (offerAll (sendWaiting (answerPage left die q false) die)) ∧
    (∀ code, 2 ≤ code → exec (.pageRequestResponse die index code) s = .next (offerAll
      (d.pageReqs.foldl (fun t r => answerPage t die r false) (s.setDie die { d with pageReqs := [], priOff := true }))))) ∧
  (∀ (s : State) (die : Nat), exec (.priReenable die) s = .next (sendWaiting (s.setDie die { s.die die with priOff := false }) die)) ∧
  (∀ (s : State) (die pid space page addr : Nat) (r w : Bool),
    let d := s.die die
    let e : TlbEnt :=
      { pid := pid, aspace := space, va := page % 2 ^ 57 / 4096 * 4096, size := 4096, r := r, w := w, x := r, host := true, addr := addr,
        ats := true }
    let s1 := s.setDie die { d with l2 := tlbAdd (d.l2.filter fun x => !x.hosts pid space page) 8192 e }
    let cs := (s.cores.filter fun c => coreDie c.1 == die && c.2.hold == some (.ats page) && (s.coreJob c.1).pid == pid &&
      (s.coreJob c.1).aspace == space).map (·.1)
    let s2 := cs.foldl (fun t c => (wakeCore (t.onCore c fun x => { x with hold := none }) c).push [.freezeClear c]) s1
    let es := s.engines.filter fun x => x.stage == .stalledAts page && x.stallDie == die && x.pid == pid && x.aspace == space
    exec (.atsTranslationCompletion die pid space page addr r w) s = .next (offerAll
      (resumeFirings (es.foldl resumeCmd s2) fun w => w.die == die && w.pid == pid && w.aspace == space)) ∧
    (cs = [] → es = [] → s.firings = [] → s.offers = [] →
      exec (.atsTranslationCompletion die pid space page addr r w) s = .next (askInvals s1))) ∧
  (∀ (s : State) (pid space page pages : Nat),
    let ask : Instr := .atsInvalidateRequest pid space page pages
    let t := invalidateHost s pid space page (Nat.max 1 pages * 4096)
    let k := invalOf s ask false pid space true
    (s.invalReady ask = false →
      (k.cores = [] → exec ask s = .next (offerAll (t.emit (.atsInvalidateDone page)))) ∧
      (k.cores ≠ [] → exec ask s = .next (offerAll (waitInval t k true)))) ∧
    (s.invalReady ask = true →
      exec ask s = .next (offerAll ((dropInval s ask).emit (.atsInvalidateDone page))))) ∧
  (∀ (s : State) (link : Nat), link < 2 →
    let lost := ((s.parts.filter fun p => p.2.st ≠ .free).map (·.1)).foldl loseHost s
    exec (.hostLoss link) s = .next (offerAll lost) ∧ exec (.linkHotReset link) s = .next (offerAll lost) ∧
      exec (.functionLevelReset link) s = .next (offerAll lost)) ∧
  (∀ (s : State) (pid : Nat),
    let js := (s.jobsOf pid).filter (·.suspendedNow)
    let p := s.part pid
    ∀ since, pid ∈ s.hostLost → js ≠ [] → tget none s.lostAt pid = some since → since + 2000000000 ≤ s.fabricTime →
    exec (.hostlostGraceExpiry pid) s = .next (offerAll (js.foldl
      (fun t j => (leatPorts (partPorts p)).foldl (fun u q => leatEvent u q 0x0D noConn false (natLE 4 j.ctxid ++ natLE 1 pid)) t)
      (p.conns.foldl (fun t c => closeConn t (connId pid c.1) 3) { s with lostAt := tdel s.lostAt pid }))))

/-! ### Engines -/

/-- ENGINE_COMMAND_START, SLUICE_BEAT_DELIVERY, ENGINE_COMMAND_COMPLETE, MCST_COMPLETE, ARM_EFFECT and DISARM_EFFECT (12 R280 to R287; 04 R95,
R96; 05 R117): a command whose turn has come starts or takes effect; a beat moves its bytes and raises the channel's write pointer; a completed
command makes its completion add. That a beat raises the write pointer only while the context holds the mill is the model's choice (log entry
113). -/
def Obligations.EngineEventsComplete : Prop :=
  ∀ (s : State) (id : Nat) (e : ECmd), s.cmd id = some e →
    (e.kind = .cpy → (nextCopy s (e.core / 2) e.chan).map (·.id) = some id → regionsMeet e.reads e.writes = false → startCheck s e = none →
      exec (.engineCommandStart id) s = .next (offerAll ((setStage (wakeMill s (e.core / 2)) { e with begun := true } .running).push [.sluiceBeatDelivery e.id]))) ∧
    (e.kind = .send → mayStart s e = true → exec (.engineCommandStart id) s = .next (offerAll (startSend s e)) ∧
      (sendConnFault s e = none → residFault s e = none → startCheck s e = none → sendComp e.desc = 0 →
        exec (.engineCommandStart id) s = .next (offerAll (sendQueue s e [])))) ∧
    (e.kind = .cpy → e.stage = .running → e.done < cpyTotal e →
      let b := cpyBeat e
      let e1 := { e with done := e.done + b.2.2 }
      ∀ bytes forms t, cmdRead s e b.1 b.2.2 = .ok (bytes, forms) → cmdWrite s e b.2.1 bytes forms = .ok t →
        let u := cmdMerge (updCmd t e1) e b.1 b.2.2
        let w := if (u.job e.job).mills.contains (e.core / 2) then applyAdd u (localHandle (e.core / 2 * 2) (24 + e.chan)) b.2.2 else u
        exec (.sluiceBeatDelivery id) s = .next (offerAll
          (w.push
            [if e1.done < cpyTotal e then .sluiceBeatDelivery e.id else .engineCommandComplete e.id]))) ∧
    (e.stage = .running → ((e.kind = .cpy ∧ cpyTotal e ≤ e.done) ∨ (e.kind = .send ∧ e.done = 1 ∧ packetsLeft s id none = false)) →
      exec (.engineCommandComplete id) s = .next (offerAll (completeCmd s e))) ∧
    (e.kind = .mcst → mayStart s e = true →
      ∀ x t, cmdRead s e (regionVa e.core e.src) 128 = .ok x → mcstWrite s e x e.replicas = .ok t →
        exec (.mcstComplete id) s =
          .next (offerAll (completeCmd (tickClock (cmdMerge t e (regionVa e.core e.src) 128) (coreDie e.core)) e))) ∧
    (e.kind = .arm → mayStart s e = true → startCheck s e = none →
      ∀ t, armSlot (wakeMill s (e.core / 2)) e = .ok t → exec (.armEffect id) s = .next (offerAll (completeCmd t e))) ∧
    (e.kind = .disarm → mayStart s e = true → (∀ a ∈ slotCmds s .arm (coreDie e.core) e.slot, ¬ a.id < e.id) →
      (∀ a, s.armedSlot (coreDie e.core) e.slot = some a → a.job = e.job →
        exec (.disarmEffect id) s = .next (offerAll (completeCmd (freeSlot s (coreDie e.core) e.slot) e))) ∧
      ((∀ a, s.armedSlot (coreDie e.core) e.slot = some a → a.job ≠ e.job) →
        exec (.disarmEffect id) s = .next (offerAll (completeCmd s { e with handle := none }))))

/-- CLOAD_START, COLL_INSTANCE_START, CHUNK_OPERATION_START and CHUNK_OPERATION_COMPLETE (12 R288, R289; 15 R317 to R326): an image that passes its
checks becomes the slot's graph; an instance starts with its counters zero; an operation that is ready runs; one that is done writes its
record and counts. -/
def Obligations.GraphEventsComplete : Prop :=
  (∀ (s : State) (id : Nat) (e : ECmd), s.cmd id = some e → mayStart s e = true →
    (∀ x ∈ earlierCmds s e, (x.kind = .coll ∨ x.kind = .cload) → x.slot = e.slot → x.job ≠ e.job) →
    let die := coreDie e.core
    (e.kind = .cload → (∀ g, s.graphSlot die e.slot = some g → g.job = e.job ∧ g.inst = none) → startCheck s e = none →
      ∀ bytes forms, cmdRead s e (regionVa e.core (e.src + 64)) (graphLen e.desc - 64) = .ok (bytes, forms) →
        graphBad (e.desc ++ bytes) = false →
        exec (.cloadStart id) s = .next (offerAll (completeCmd
          (s.setDie die { s.die die with graphs := tins (s.die die).graphs e.slot (some { job := e.job, image := e.desc ++ bytes }) }) e))) ∧
    (e.kind = .coll → ∀ g, s.graphSlot die e.slot = some g → g.job = e.job → g.inst = none → graphOutside e g.image = none →
      graphPlain s e g.image = false → startCheck s e = none →
      let g1 := { g with inst := some e.number, ctrs := [], ops := [], bases := e.desc, cmd := e.id }
      exec (.collInstanceStart id) s =
        .next (offerAll (retryGraphs (pushReady (setGraph (setStage s e .running) die e.slot g1) die e.slot g1))))) ∧
  (∀ (s : State) (die slot op : Nat) (g : Graph) (e : ECmd), s.graphSlot die slot = some g → s.cmd g.cmd = some e → g.inst ≠ none →
    e.stage = .running →
    let o := graphOp g.image op
    let c := connId e.pid (rankEntry g.image (opPeer o) % 2 ^ 20)
    (op < graphNops g.image → opReady g op = true →
      (opOpc o ≠ 1 → ∀ t st, opEffect s e op o = .ok (t, st) →
        exec (.chunkOperationStart die slot op) s =
          .next (offerAll ((opRuns (cmdMerge t e (opIn e o) (opInLen o)) die slot g op st).push [.chunkOperationComplete die slot op]))) ∧
      (opOpc o = 1 → opPeer o = graphMe g.image →
        exec (.chunkOperationStart die slot op) s = .next (offerAll (sendInternal s e die g op))) ∧
      (opOpc o = 1 → opPeer o ≠ graphMe g.image → connState (s.conn c).entry = 2 → connE8 (s.conn c).entry = true →
        exec (.chunkOperationStart die slot op) s = .next (offerAll
          ((pumpConn ((graphPackets e (s.conn c) g op).foldl (fun t k => enqueue t c k) (opRuns s die slot g op 0)) c).push
            [.chunkOperationComplete die slot op])))) ∧
    ((g.op op).stage = .running → packetsLeft s g.cmd (some op) = false →
      ∀ t, (if opRecord o = true then cmdPut s e (recordAddr e g.image op) (completionRecord s die g op) else .ok s) = .ok t →
      let g1 := g.setOp op { g.op op with stage := .done }
      let g2 := if opDone o = 0xFFFF then g1 else { g1 with ctrs := tmod 0 g1.ctrs (opDone o) (· + 1) }
      ((∀ i, i < graphNops g.image → (g2.op i).stage = .done) → exec (.chunkOperationComplete die slot op) s = .next (offerAll
        (retryGraphs (completeCmd (setGraph t die slot { g2 with inst := none, last := e.number, ops := [], ctrs := [] }) e)))) ∧
      ((∃ i, i < graphNops g.image ∧ (g2.op i).stage ≠ .done) → exec (.chunkOperationComplete die slot op) s = .next (offerAll
        (pushReady (setGraph t die slot g2) die slot g2)))))

/-! ### The fabric -/

/-- The transport's events (21 R386 to R392, 14 R307, 15 R320): a packet that passes every check is placed, counted and acknowledged; an
acknowledgement releases what it covers; the sender's refusals and timers reach its leat core (22 R415, 23 R420, R421). A duplicate is
acknowledged while its entry closes too. The association under which an acknowledgement or a refusal comes is a free value (log entry 138). That
an acknowledgement with a zero bitmap is never reported, the answer to a PROBE neither, is the model's choice (log entry 123). -/
def Obligations.TransportEventsComplete : Prop :=
  (∀ (s0 : State) (p : Packet), (s0.port p.port).down = false → portBlocked s0 p.port = false →
    macAccepts (s0.port p.port).mac p.an = true → p.mode = 0 → p.badAuth = false → headerOk p.header = true →
    ((s0.port p.port).longHaul = true → packetBytes (s0.port p.port) p.header p.payload.length ≤ 9216) →
    connState (s0.conn p.conn).entry = 2 ∨ connState (s0.conn p.conn).entry = 3 →
    let s := noteMac s0 p.port p.an
    let seen := s.setConn p.conn { s.conn p.conn with rxPath := p.path }
    let again := sendAck seen p.conn 0 p.path (if p.ecn = true then p.payload.length else 0)
    (rxHas (s.conn p.conn) p.psn = true →
      exec (.dataPacketReceive p) s0 = .next (offerAll again) ∧ exec (.counterPacketReceive p) s0 = .next (offerAll again)) ∧
    (connState (s0.conn p.conn).entry = 2 → rxHas (s.conn p.conn) p.psn = false → p.trimmed = true →
      exec (.dataPacketReceive p) s0 = .next (offerAll (sendCtl s p.conn (.trimAck p.conn p.psn))) ∧
      exec (.counterPacketReceive p) s0 = .next (offerAll (sendCtl s p.conn (.trimAck p.conn p.psn)))) ∧
    (connState (s0.conn p.conn).entry = 2 → rxHas (s.conn p.conn) p.psn = false → p.trimmed = false →
      (hdType p.header = 1 → exec (.dataPacketReceive p) s0 = .next (offerAll (receiveTensor s p)) ∧
        (∀ a t, s.armedSlot (hdDie p.header) (hdTarget p.header % 1024) = some a → a.inst = hdInst p.header → a.pid = connPid p.conn →
          hdPos p.header + hdRows p.header ≤ armRows a.desc → hdCol p.header + hdCols p.header ≤ armCols a.desc →
          hdEs p.header = fieldLE a.desc 24 1 → (hdMx p.header = true → armElem a.desc = 4 ∧ hdCols p.header % 32 = 0) →
          p.payload.length = tensorLen p.header (armElem a.desc) → hdPoison p.header = false → p.badIcv = false →
          placeTensor s (hdDie p.header) (hdTarget p.header % 1024) a p.header p.payload p.cipher = .ok t →
          exec (.dataPacketReceive p) s0 = .next (offerAll (acceptPacket t p)))) ∧
      (hdType p.header = 2 → exec (.dataPacketReceive p) s0 = .next (offerAll (receiveGraph s p))) ∧
      (hdType p.header = 3 →
        let h := p.header
        let k := mkHandle (hdTarget h) (hdDie h) (hdPos h)
        let q := s.part (connPid p.conn)
        (hdTarget h = 1 ∨ hdTarget h = 2) → handleOk k = true → handleIn q q.hasMill k = true → hdAux h < 2 ^ 62 →
        exec (.counterPacketReceive p) s0 = .next (offerAll (acceptPacket (applyAdd s k (hdAux h)) p))))) ∧
  (∀ (s0 s : State) (c cum bitmap credit marked : Nat), TakesControl s0 (s0.conn c).port s → cum < 2 ^ 32 → bitmap < 2 ^ 64 →
    connState (s.conn c).entry = 2 ∨ connState (s.conn c).entry = 3 →
    let x := s.conn c
    let t := applyAck s c cum bitmap credit
    let u := if bitmap = 0 then t else leatEvent t x.port 0x01 c false (natLE 4 cum ++ natLE 8 bitmap)
    exec (.ackReceive c cum bitmap credit marked) s0 =
      .next (offerAll (if marked = 0 then u else leatEvent u x.port 0x04 c false (natLE 4 cum ++ natLE 4 marked)))) ∧
  (∀ (s0 s : State) (c psn : Nat) (k : Sent), TakesControl s0 (s0.conn c).port s → sentPacket s c psn = some k →
    let x := s.conn c
    (∀ inst slot, exec (.instanceNotArmed c psn inst slot) s0 =
      .next (leatEvent s x.port 0x07 c false (natLE 4 psn ++ (natLE 4 inst ++ natLE 2 slot)))) ∧
    exec (.trimRx c psn) s0 = .next (leatEvent s x.port 0x05 c false (natLE 4 psn ++ [])) ∧
    (∀ reason, reason ≠ 3 → reason < 256 →
      exec (.nackRx c psn reason) s0 = .next (offerAll (leatEvent s x.port 0x02 c false (natLE 4 psn ++ natLE 1 reason)))) ∧
    (∀ slot chunk, slot < 1024 → exec (.nackRx c psn (256 + slot + 1024 * chunk)) s0 =
      .next (offerAll (leatEvent s x.port 0x06 c false (natLE 4 psn ++ (zeros 4 ++ natLE 2 slot ++ natLE 4 chunk))))) ∧
    (let s1 := s.setConn c
       { x with sent := x.sent.filter fun q => q.psn != psn, ackSel := if psnLe psn x.ackCum then x.ackSel else psn :: x.ackSel }
     exec (.nackRx c psn 3) s0 = .next (offerAll (afterAck (if k.cmd = 0 then refuseAdds s1 [k] else stopById s1 k.cmd) c [])))) ∧
  (∀ (s : State) (c : Nat) (k : Sent) (ks : List Sent), (s.conn c).sent = k :: ks → (s.conn c).timerOn = true →
    (s.conn c).timerAt + (s.conn c).timeout ≤ s.fabricTime →
    exec (.rtoExpired c) s =
      .next (leatEvent (s.setConn c { s.conn c with timerOn := false }) (s.conn c).port 0x03 c false (natLE 4 k.psn ++ natLE 4 (k.tx - 1))))

/-- Ports, keys, fabric time and connections (21 R393 to R401): a link that goes down keeps its connections; a handshake that completes opens its
entry; CONN_CLOSE acts on an OPEN entry alone; a closed connection's entry becomes CLOSED. The association under which a control frame comes is
a free value (log entry 138). -/
def Obligations.PortAndConnectionEventsComplete : Prop :=
  (∀ (s : State) (port : Nat),
    let p := s.port port
    (∀ frames first,
      let fs := p.retry.filter fun f => decide (first ≤ f.1) && decide (f.1 < first + frames)
      0 < frames → fs.length = frames → exec (.llrReplay port frames first) s =
        .next (leatEvent { s with outputs := s.outputs ++ fs.map (·.2) } port 0x0A noConn false (natLE 4 frames ++ natLE 4 first))) ∧
    (∀ frame,
      let s1 := s.setPort port { p with retry := p.retry.filter fun f => decide (frame < f.1) }
      (p.buffer = 0 → exec (.linkPartnerAcknowledgement port frame) s = .next (offerAll s1)) ∧
      (p.buffer ≠ 0 → exec (.linkPartnerAcknowledgement port frame) s = .next (offerAll (sendPort s1 port)))) ∧
    (∀ conn key pn,
      (p.mac.on = true → p.mac.tx = key → p.mac.mark.getD (2 ^ 62) ≤ tget 0 p.mac.pn key →
        exec (.keyExpiry port conn key pn false) s = .next (leatEvent s port 0x0B noConn false (natLE 1 key ++ zeros 7 ++ natLE 8 pn))) ∧
      exec (.keyExpiry port conn key pn true) s = .next (leatEvent s port 0x0B conn true (natLE 1 key ++ zeros 7 ++ natLE 8 pn))) ∧
    (∀ mask, exec (.linkDown port mask) s =
      .next (leatEvent (s.setPort port { p with lanesDown := p.lanesDown ||| mask % 16 }) port 0x0C noConn false (natLE 1 mask))) ∧
    exec (.linkUp port) s = .next (offerAll (sendPort (s.setPort port { p with lanesDown := 0 }) port)) ∧
    (∀ t node addr, TakesControl s port t → exec (.connReq port node addr) s =
      .next (leatEvent (t.setPort port { t.port port with requests := (t.port port).requests ++ [(node, padTo 16 addr)] }) port 0x08 noConn false
        (natLE 4 node ++ padTo 8 addr)))) ∧
  (∀ (s : State) (ns port : Nat), s.mgmt.ptpPort = some port → (s.port port).down = false →
    exec (.ptpTimeCorrection false ns) s = .next (if 1000 < ns then { s with timeShift := s.timeShift + ns } else s) ∧
    exec (.ptpTimeCorrection true ns) s = .next s) ∧
  (∀ (s : State) (c : Nat),
    let x := s.conn c
    (∀ t, TakesControl s x.port t →
      (connState x.entry = 1 →
        exec (.connectionHandshakeComplete c) s = .next (t.setConn c { t.conn c with entry := setLE (t.conn c).entry 0 1 2 })) ∧
      (connState x.entry = 2 → exec (.connClose c) s = .next (offerAll (closeConn t c 1))) ∧
      (connState x.entry ≠ 2 → exec (.connClose c) s = .next (offerAll t))) ∧
    (connState x.entry = 3 → exec (.connectionClosed c) s =
      .next (offerAll (refuseAdds (s.setConn c { entry := setLE x.entry 0 1 0, port := x.port }) x.sent))))

/-! ### The leat cores -/

/-- MOVE, the ALU, BMU, EVQ and PC ports (22 R403 to R408, R411, R416): the value of the source and the operand ports as they stand, and the
result in flight for its unit's latency. That the fabric firmware has its occasions to set ports up when EVQ.POP takes a record is the model's
choice (log entry 107). -/
def Obligations.LeatComputeMovesComplete : Prop :=
  ∀ (m : LM) (s : State), s.cur.aborted = false → leatGuard s m = true →
    let v := leatSource s m
    let x := s.leatNow
    let alu (w : Word) := leatGive s (.port 0x100 w) 1
    let bmu (w : Word) := leatGive s (.port 0x105 w) 1
    let a := leatPort s 0x100
    let b := leatPort s 0x170
    let one (c : Prop) [Decidable c] : Word := if c then 1 else 0
    (∀ d, d < 0x44 → exec (.move m d) s = .next (leatGive s (.reg d v) 1)) ∧
    (∀ d, 0x44 ≤ d → exec (.move m d) s = .next (s.setLeat s.leatIx { x with operand := tput 0 x.operand d v })) ∧
    exec (.aluAdd m) s = .next (alu (a + v)) ∧ exec (.aluSub m) s = .next (alu (a - v)) ∧
    exec (.aluAnd m) s = .next (alu (a &&& v)) ∧ exec (.aluOr m) s = .next (alu (a ||| v)) ∧ exec (.aluXor m) s = .next (alu (a ^^^ v)) ∧
    exec (.aluShl m) s = .next (alu (BitVec.ofNat 64 (a.toNat * 2 ^ v.toNat))) ∧
    exec (.aluShr m) s = .next (alu (BitVec.ofNat 64 (a.toNat / 2 ^ v.toNat))) ∧
    exec (.aluSra m) s = .next (alu (BitVec.ofInt 64 (a.toInt / 2 ^ v.toNat))) ∧
    exec (.aluEq m) s = .next (alu (one (a = v))) ∧ exec (.aluLt m) s = .next (alu (one (a.toInt < v.toInt))) ∧
    exec (.aluLtu m) s = .next (alu (one (a.toNat < v.toNat))) ∧
    exec (.aluSel m) s = .next (alu (if (leatPort s 0x101).getLsbD 0 = true then a else v)) ∧
    exec (.bmuBtest m) s = .next (bmu (one (v.toNat < 64 ∧ b.getLsbD v.toNat = true))) ∧
    (∀ w : Word, (∀ i, i < 64 → w.getLsbD i = (b.getLsbD i || decide (i = v.toNat))) → exec (.bmuBset m) s = .next (bmu w)) ∧
    (∀ n, (v.toNat ≤ n ∧ n < 64 ∧ b.getLsbD n = false ∧ ∀ i, v.toNat ≤ i → i < n → b.getLsbD i = true) ∨
        (n = 64 ∧ ∀ i, v.toNat ≤ i → i < 64 → b.getLsbD i = true) → exec (.bmuBffc m) s = .next (bmu (BitVec.ofNat 64 n))) ∧
    exec (.bmuBcnt m) s = .next (bmu (BitVec.ofNat 64 ((List.range 64).filter fun i => b.getLsbD i && v.getLsbD i).length)) ∧
    (leatQueue s = [] → exec (.evqPeek m) s = .next (leatGive s (.port 0x102 0) 2)) ∧
    (∀ r rs, leatQueue s = r :: rs →
      exec (.evqPeek m) s = .next (leatGive s (.port 0x102 (BitVec.ofNat 64 (fieldLE (recordOf r) (8 * (v.toNat % 4)) 8))) 2)) ∧
    (v.toNat % 32 = 0 → v.toNat + 32 ≤ 0x40000 →
      (leatQueue s = [] → exec (.evqPop m) s = .next (leatGive s (.port 0x102 0) 2)) ∧
      (∀ r rs, leatQueue s = r :: rs →
        let t := s.setLeat s.leatIx ({ x with queue := rs } : Leat).refill
        exec (.evqPop m) s = .next (firmwareTurn (firmwareTurn (leatGive (leatGive t (.pop v.toNat (recordOf r)) 2) (.port 0x102 1) 2)
          (pairPort s 0)) (pairPort s 1)))) ∧
    (x.target = none →
      (v.toNat % 16 = 0 → v.toNat < 65536 →
        exec (.pcJump m) s = .next (pcGo s v.toNat) ∧
        (x.stack.length < 8 → exec (.pcCall m) s =
          .next (pcGo (s.setLeat s.leatIx { x with stack := (x.pc + 32) % 65536 :: x.stack }) v.toNat))) ∧
      (∀ t ts, x.stack = t :: ts → exec (.pcRet m) s = .next (pcGo (s.setLeat s.leatIx { x with stack := ts }) t)) ∧
      exec (.pcHalt m) s = .next { s with cur := { s.cur with leatHalt := true } })

/-- The LSU, TXU, CCU, TMR and CTR ports, PROGRAM_TIMER_EXPIRY and LCTL (22 R409, R410, R412 to R415, R417, R418). That a TXU command acts as
its word does, and the TXU's queue is of the resends that limits, ports and pages hold, is the model's choice (log entry 117). -/
def Obligations.LeatUnitMovesComplete : Prop :=
  (∀ (m : LM) (s : State), s.cur.aborted = false → leatGuard s m = true →
    let v := leatSource s m
    let a := v.toNat
    let d := (leatPort s 0x120).toNat
    let x := s.leatNow
    let load (n : Nat) (o : Instr) : Prop :=
      a % n = 0 →
        (a + n ≤ 0x40000 → exec o s = .next (leatGive s (.port 0x101 (BitVec.ofNat 64 (leNat (x.dmem.bytes a n)))) 2)) ∧
        (0x10000000 ≤ a → a < 0x18000000 → ∀ w, windowConn s a = some w →
          exec o s = .next (leatGive s (.port 0x101 (BitVec.ofNat 64 (fieldLE (entryBytes s w.1) w.2 n))) 2))
    let store (n : Nat) (o : Instr) : Prop :=
      a % n = 0 →
        (a + n ≤ 0x40000 → exec o s = .next (s.setLeat s.leatIx { x with dmem := x.dmem.store a (natLE n d) })) ∧
        (0x10000000 ≤ a → a < 0x18000000 → ∀ w, windowConn s a = some w → w.2 ≠ 0 → connState (entryBytes s w.1) = 0 →
          exec o s = .next (s.setConn w.1 { s.conn w.1 with entry := setLE (entryBytes s w.1) w.2 n d }))
    let w := leatPort s 0x150
    load 4 (.lsuLd32 m) ∧ load 8 (.lsuLd64 m) ∧ store 4 (.lsuSt32 m) ∧ store 8 (.lsuSt64 m) ∧
    (∀ c, wordOpen s w = some c →
      let n := a % 2 ^ 16
      exec (.txuAcknow m) s = .next (txuGive (sendAck (s.setConn c { s.conn c with granted := (s.conn c).granted + n }) c n (s.conn c).rxPath 0) 0) ∧
      (∀ port k, movePort s c (leatPort s 0x151) = some port → psnSent (s.conn c) (a % 2 ^ 32) = true →
        sentPacket s c (a % 2 ^ 32) = some k →
        let p := leatPort s 0x151
        exec (.txuRetx m) s = .next (txuGive (offerAll (resend (s.setConn c { s.conn c with port := port, timerOn := true, timerAt := s.fabricTime }) c k
          (if p.getLsbD 4 = true then bits p.toNat 3 0 else connPath (s.conn c).entry (a % 2 ^ 32)))) 0))) ∧
    (a % 32 = 0 → a + 32 ≤ 0x40000 →
      let desc := x.dmem.bytes a 32
      let k := fieldLE desc 0 1
      txdescOk desc = true →
        (k ≤ 3 → exec (.txuTxdesc m) s = .next (txuGive (txdescOpen s k w).1 (txdescOpen s k w).2)) ∧
        (∀ c, wordOpen s w = some c →
          (k = 4 → exec (.txuTxdesc m) s = .next (txuGive (offerAll (closeConn s c 4)) 0)) ∧
          (k = 5 → exec (.txuTxdesc m) s = .next (txuGive (sendCtl s c
            (.probe c (portPath s (s.conn c).port (fieldLE desc 1 1)))) 0)))) ∧
    (∀ c, wordOpen s (leatPort s 0x190) = some c →
      let go (y : Conn) := leatGive (offerAll (sendOut (s.setConn c y) c)) (.port 0x106 0) 2
      exec (.ccuWinupd m) s = .next (go { s.conn c with window := some (a % 2 ^ 32) }) ∧
      exec (.ccuRateset m) s = .next (go { s.conn c with rate := some (Nat.min (a % 2 ^ 32) (800000 / 2 ^ (s.port (s.conn c).port).split)) })) ∧
    (let t := leatPort s 0x1B0
     let n := t.toNat % 16
     (t.getLsbD 63 = true →
       exec (.tmrTarm m) s = .next (s.setLeat s.leatIx { x with timers := tins x.timers n (some (s.fabricTime + a)), tmrx := x.clearX n }) ∧
       exec (.tmrTcancel m) s = .next (s.setLeat s.leatIx { x with timers := tdel x.timers n, tmrx := x.clearX n })) ∧
     (t.getLsbD 63 = false → ∀ c, wordConn s t = some c →
       exec (.tmrTarm m) s = .next (s.setConn c { s.conn c with timeout := a % 2 ^ 32, timerOn := !(s.conn c).sent.isEmpty, timerAt := s.fabricTime }) ∧
       exec (.tmrTcancel m) s = .next (s.setConn c { s.conn c with timerOn := false }))) ∧
    (let h := (leatPort s 0x1D0).toNat
     (hKind h = 1 ∨ hKind h = 2 ∨ hKind h = 3) → handleOk h = true → a < 2 ^ 62 →
     (∃ side, side < 2 ∧ ∃ p, portOwner s (pairPort s side) = some p ∧ handleIn (s.part p) (s.part p).hasMill h = true) →
     exec (.ctrCadd m) s = .next (applyAdd s h a))) ∧
  (∀ (s : State) (n k : Nat),
    let x := s.leat n
    (∀ e, tget none x.timers (k % 16) = some e → e ≤ s.fabricTime → exec (.programTimerExpiry n k) s =
      .next (s.setLeat n { x with timers := tdel x.timers (k % 16), tmrx := x.tmrx ||| BitVec.ofNat 16 (2 ^ (k % 16)) })) ∧
    (n < 24 → s.fabricPaused = false →
      (x.halted = true → k % 2 = 1 → exec (.lctlRun n k) s = .next
        { s.setLeat n { x with b := [], q := 0, operand := [], result := [], flight := [], stack := [], pc := 0, target := none, run := true,
                               halted := false, fcode := 0, fpc := 0, timers := [], tmrx := 0 } with
          runQueue := s.runQueue.filter (· != 1000 + n) ++ [1000 + n] }) ∧
      (x.halted = false → k % 2 = 0 → exec (.lctlRun n k) s = .next
        { s.setLeat n { x.settle with run := false, halted := true, fcode := 0, fpc := 0 } with runQueue := s.runQueue.filter (· != 1000 + n) }) ∧
      ((x.halted = true ↔ k % 2 = 0) → exec (.lctlRun n k) s = .next s)))

/-! ### Management requests -/

/-- The management requests (24 R443), each accepted with status 0 (18 R335 to R339, 19 R350, R361, 20 R368, R369, R373, R383, 21 R398, 23 R424,
R429, 26 R444), or refused with status 1 and no change of state. Choices of the model: CORRECTED grows by a free value as the record is read
(log entry 101); the firmware's own generator loads key slots as the partition is configured, and a line that nothing has written is not
re-keyed (log entry 108). -/
def Obligations.ManagementRequestsComplete : Prop :=
  (∀ (s : State) (tag pid : Nat), s.mgmtWaits = false →
    let p := s.part pid
    let ok (op : Nat) (t : State) := offerAll (t.emit (.mgmtReply (natLE 2 op ++ natLE 2 tag ++ natLE 4 4 ++ natLE 4 0)))
    let no (op : Nat) := s.emit (.mgmtReply (natLE 2 op ++ natLE 2 tag ++ natLE 4 4 ++ natLE 4 1))
    let data (op : Nat) (bs : List Byte) := s.emit (.mgmtReply (natLE 2 op ++ natLE 2 tag ++ natLE 4 (4 + bs.length) ++ natLE 4 0 ++ bs))
    exec (.readBootStatus tag) s = .next (data 0x01 (natLE 4 (bootStatus s))) ∧
    (∀ body, fieldLE body 2 1 = pid →
      (descOk s body = true → exec (.writePartitionDescriptor tag body) s = .next (ok 0x02 (rekeyPart (generateKeys (configure s body) { desc := body }) { desc := body } none))) ∧
      (p.st = .active → descChangeOk p body = true →
        exec (.writePartitionDescriptor tag body) s = .next (ok 0x02 (serveQueues (changeDesc s body) pid))) ∧
      (descOk s body = false → (p.st = .active → descChangeOk p body = false) → exec (.writePartitionDescriptor tag body) s = .next (no 0x02))) ∧
    (p.st = .configured → keysLoaded s p = true → p.svcLen = 0 ∨ servicePasses s p = true → s.mgmt.bootBits % 8 = 7 →
      exec (.activatePartition tag pid) s = .next (ok 0x03 (serveQueues (s.setPart pid
        { p with st := .active, pmeas := if p.svcLen = 0 then p.pmeas else extend p.pmeas (imgDigest (serviceImage s p)) }) pid))) ∧
    (p.st ≠ .configured → exec (.activatePartition tag pid) s = .next (no 0x03)) ∧
    (p.st = .configured → exec (.destroyPartition tag pid) s = .next (ok 0x04 (freePart s pid))) ∧
    (p.st = .active → exec (.destroyPartition tag pid) s = .next (ok 0x04 (drain s pid))) ∧
    (p.st = .free ∨ p.st = .draining → exec (.destroyPartition tag pid) s = .next (no 0x04)) ∧
    (p.st = .draining → drained s pid = true → exec (.drainingComplete pid) s = .next (freePart s pid)) ∧
    (p.st = .configured ∨ p.st = .active →
      (∀ n body, n < 8 → lqOk p body = true →
        let q := tget {} p.queues n
        let fresh := lqEnabled body && !lqEnabled q.desc
        exec (.writeLaunchQueueDescriptor tag pid n body) s = .next (ok 0x05 (s.setPart pid
          { p with
            queues := tins p.queues n (if fresh = true then { desc := body, base := (s.ctr (hostHandle (lqBell body))).toNat, taken := 0 }
              else { q with desc := body }),
            due := if lqEnabled body && lqEnabled q.desc then p.due else p.due.map fun u => u.filter fun e => e.1 != n }))) ∧
      (∀ n body, n < 64 → spaceOk p n body = true →
        (spaceEnabled (tget [] p.spaces n) = false ∨ tget [] p.spaces n = body ∨ spaceLive s pid n = false) →
        exec (.writeAddressSpaceDescriptor tag pid n body) s = .next (ok 0x06 (s.setPart pid { p with spaces := tins p.spaces n body }))) ∧
      (∀ n body, n < 16 → gangOk body = true →
        (∀ j ∈ s.jobsOf pid, j.phase = .running → recGang j.record = true → recGangix j.record ≠ n) →
        exec (.writeGangDescriptor tag pid n body) s = .next (ok 0x07
          (((s.jobsOf pid).filter fun j => recGang j.record && recGangix j.record == n).foldl
            (fun t j => t.setJob j.id { j with skipped := none })
            (s.setPart pid { p with gangs := tins p.gangs n body, slice := tins p.slice n none })))) ∧
      (∀ n body u, n < 2 ^ 20 → body.length = 64 → connState (s.conn (connId pid n)).entry = 0 → entryOk s p body = true →
        (p.conns.filter fun e => connState e.2.entry != 0).length < 65536 → usablePort s body = some u →
        exec (.openConnection tag pid n body) s = .next (ok 0x09
          (sendCtl (s.setConn (connId pid n) { entry := setLE body 0 1 1, port := u }) (connId pid n) (.handshake (connId pid n) 1))))) ∧
    (p.st ≠ .free →
      (∀ n base len, n < 64 →
        let ask : Instr := .invalidateTranslations tag pid n base len
        let k := invalOf s ask true pid n false
        s.invalReady ask = false →
          (k.cores = [] → k.cmds = [] → exec ask s = .next (ok 0x08 (invalidateSpace s pid n base len))) ∧
          (k.cores ≠ [] ∨ k.cmds ≠ [] → exec ask s = .next (offerAll (waitInval (invalidateSpace s pid n base len) k false)))) ∧
      (∀ n, n < 2 ^ 20 → connState (s.conn (connId pid n)).entry = 2 →
        exec (.closeConnection tag pid n) s = .next (ok 0x0A (closeConn s (connId pid n) 2))) ∧
      exec (.detach tag pid) s = .next (ok 0x0C (loseHost s pid)) ∧
      (let js := (s.jobsOf pid).filter (·.suspendedNow)
       exec (.reattach tag pid) s = .next (ok 0x0D ((noteSuspended (rehost
         (js.foldl (fun t j => unsuspend t j.id) { s with hostLost := s.hostLost.filter (· != pid), lostAt := tdel s.lostAt pid }) pid) pid).push [.dispatch pid])) ∧
       exec (.killSuspended tag pid) s = .next (ok 0x0E (js.foldl (fun t j => killJob t j.id 3 cHostlost) s))) ∧
      (let t := recordAdd { s with draws := s.draws + 1 } pid 0 8 (Config.corrected s.draws)
       exec (.readPartitionRecord tag pid 0) s = .next (t.emit
         (.mgmtReply (natLE 2 0x0F ++ natLE 2 tag ++ natLE 4 (4 + (padTo 512 (t.part pid).record).length) ++ natLE 4 0 ++
           padTo 512 (t.part pid).record)))) ∧
      exec (.readPartitionRecord tag pid 1) s = .next (data 0x0F (p.events.flatten ++ natLE 4 p.eventsLost))) ∧
    (∀ slot body, slot < 128 → body.length = 64 →
      (s.mgmt.spdm.session = 2 → exec (.loadKeySlot tag slot body) s = .next (ok 0x0B (rekeySlot { s with keys := tins s.keys slot body } slot))) ∧
      (s.mgmt.spdm.session ≠ 2 → exec (.loadKeySlot tag slot body) s = .next (no 0x0B))) ∧
    (∀ kind floor, kind ∈ s.mgmt.commitKinds → floor ≤ imgSvn (tget [] s.mgmt.running kind) → tget 0 s.mgmt.svnFloor kind ≤ floor →
      exec (.raiseSvnFloor tag kind floor) s = .next (ok 0x11
        { s with mgmt := { s.mgmt with svnFloor := tput 0 s.mgmt.svnFloor kind floor } }))) ∧
  (∀ (s : State) (tag pid n base len : Nat), s.invalReady (.invalidateTranslations tag pid n base len) = true →
    exec (.invalidateTranslations tag pid n base len) s = .next (offerAll (serveWaiting
      ((dropInval s (.invalidateTranslations tag pid n base len)).emit (.mgmtReply (natLE 2 0x08 ++ natLE 2 tag ++ natLE 4 4 ++ natLE 4 0))))))

/-- REQUEST_ACTIVATION, the stages of a live activation and its ends (23 R426 to R428), and the package resets (26 R444, R446). -/
def Obligations.ActivationAndResetComplete : Prop :=
  (∀ (s : State) (tag kind : Nat) (image : List Byte), s.mgmtWaits = false → s.mgmt.act.state = 0 → 1 ≤ kind → kind ≤ 3 →
    let a := s.mgmt.act
    let asked : Activation := { a with state := 1, kind := kind, image := image, block := none, pendingMeas := [], since := s.fabricTime }
    let staged := { s with mgmt := { s.mgmt with act := asked } }
    exec (.requestActivation tag kind image) s = .next
      (if stageOk s kind image = true then reply (if stageClear s = true then measureAct staged else staged) 0x10 tag 0
       else reply { s with mgmt := { s.mgmt with act := { a with kind := kind, result := 3 } } } 0x10 tag 1)) ∧
  (∀ (s : State),
    let a := s.mgmt.act
    (a.state = 1 → 1000000000 ≤ s.actTime → exec .activationStageTimeout s =
      .next { s with mgmt := { s.mgmt with act := { a with state := 0, result := 3, image := [] } } }) ∧
    (∀ hver payload, a.state = 2 ∨ (a.state = 1 ∧ stageClear s = true ∧ s.actTime ≤ 1000000000) → payload.length ≤ 2 ^ 22 →
      let img := tget [] s.mgmt.running a.kind
      let at_ := handoverAt a.kind
      hver = imgHver img →
      let s0 := freezeOld (if a.state = 1 then measureAct s else s) a.kind
      let act (t : State) (f : Activation → Activation) : State := { t with mgmt := { t.mgmt with act := f t.mgmt.act } }
      let s1 := act s0 fun b => { b with state := 3, since := s.fabricTime }
      (img = [] → exec (.activationFreeze hver payload) s = .next s1) ∧
      (img ≠ [] →
        (firmwareOwn s1 at_ (128 + payload.length) = true → exec (.activationFreeze hver payload) s =
          .next (act (writeAt s1 0 ⟨.hbm, at_⟩ (handoverBlock hver a.kind (imgVer img) payload)) fun b => { b with block := some at_ })) ∧
        (firmwareOwn s1 at_ (128 + payload.length) = false → exec (.activationFreeze hver payload) s = .next (enterFallback s1)))) ∧
    (let act (t : State) (f : Activation → Activation) : State := { t with mgmt := { t.mgmt with act := f t.mgmt.act } }
     (a.state = 3 → exec .activationHandover s = .next ((act s fun b => { b with state := 4 }).push [.activationHandover])) ∧
     (a.state = 4 →
       (blockOk s = true → s.actTime ≤ 2000000 → exec .activationHandover s = .next
         ((act (startImage (stopImage s a.kind) a.kind a.image a.block) fun b => { b with state := 5, hbcnt := 0, since := s.fabricTime }).push
           [.activationHandover])) ∧
       (blockOk s = false ∨ 2000000 < s.actTime → exec .activationHandover s = .next (enterFallback s))) ∧
     (a.state = 5 → exec .activationHandover s = .next (offerAll (resumeWork (act s fun b => { b with state := 6 })))) ∧
     (a.state = 7 → exec .activationHandover s = .next (offerAll (commitAct s))) ∧
     (a.state = 8 → exec .activationHandover s = .next (offerAll (resumeWork (fallbackAct s))))) ∧
    (a.state = 3 ∨ a.state = 4 → 2000000 < s.actTime → exec .activationFreezeTimeout s = .next (enterFallback s)) ∧
    (a.state = 6 → 50000000 ≤ s.actTime → exec .heartbeatTimeout s = .next (enterFallback s)) ∧
    (∀ value, value < 4 → value ≠ 0 → value = (a.hbcnt + 1) % 4 →
      let counted : Activation := { a with hbcnt := value }
      exec (.heartbeat value) s = .next
        (if a.state = 6 ∧ value = 3 ∧ s.actTime ≤ 50000000 then
          ({ s with mgmt := { s.mgmt with act := { counted with state := 7 } } } : State).push [.activationHandover]
         else { s with mgmt := { s.mgmt with act := counted } }))) ∧
  (∀ (s : State),
    exec .packageReset s = .next (boot (cleared s)) ∧ exec .thermalTrip s = .next (boot (cleared s)) ∧
    exec .sidePortResetRequest s = .next (boot (cleared s)) ∧
    ((∀ kind, bootImage s kind = none) →
      ∃ t, exec .packageReset s = .next t ∧ t.parts = [] ∧ t.cores = [] ∧ t.mills = [] ∧ t.dies = [] ∧ t.ctrs = [] ∧ t.waiters = [] ∧
        t.engines = [] ∧ t.jobs = [] ∧ t.keys = [] ∧ t.ports = [] ∧ t.leats = [] ∧ t.hbm = [] ∧ t.banks = [] ∧ t.mcram = [] ∧
        t.hostMem = s.hostMem ∧ t.mgmt.flash = s.mgmt.flash ∧ t.mgmt.svnFloor = s.mgmt.svnFloor ∧ t.mgmt.boots = s.mgmt.boots + 1))

/-! ### The management controller and the host -/

/-- The shipped responder (24 R430, 25 R438, R439): with the request in RXBUF, the controller running and the exchange in the request's state, the
answer is absorbed, signed where R438 says, and sent: version 1.2, which 25 lays down (of 1.3, log entry 31). The bodies of the answers that R430 only
names are free values (log entries 9 and 31). -/
def Obligations.ResponderAnswersComplete : Prop :=
  ∀ (msg : List Byte) (s : State), s.mgmt.rxready = true → s.mgmt.rxbuf = msg → (s.core 768).stopped = false →
    s.mgmt.busyUntilPoll = false →
    let code := fieldLE msg 1 1
    let answers (t : State) (body : List Byte) (ctxs : List Nat) (after sign cs : Nat) :=
      finishAnswer msg false { st := t, body := body, ctxs := ctxs, after := after, sign := sign, cs := cs }
    let session (f : Spdm → Spdm) : State := { s with draws := s.draws + 1, mgmt := { s.mgmt with spdm := f s.mgmt.spdm } }
    let free : List Byte := (natLE 1 0x12 ++ natLE 1 (code - 0x80) ++ zeros 2 ++ Config.sessionBody s.draws).take 4096
    let sp := s.mgmt.spdm
    (code = 0x84 → exec (.getVersion msg) s = .next (answers
      { setHash s [0, 1, 2] (fun _ => []) with mgmt := { (setHash s [0, 1, 2] fun _ => []).mgmt with spdm := { sp with session := 0 } } }
      (bytesOf [0x10, 0x04, 0, 0, 0, 2, 0, 0x12, 0, 0x13]) [0, 1, 2] 1 0 0)) ∧
    (fieldLE msg 0 1 = 0x12 →
      (code = 0xE1 → sp.state = 1 → exec (.getCapabilities msg) s = .next (answers s
        (bytesOf [0x12, 0x61, 0, 0, 0, 20, 0, 0, 0xD6, 0x62, 0, 0, 0, 0x10, 0, 0, 0, 0x10, 0, 0]) [0, 1, 2] 2 0 0)) ∧
      (code = 0xE3 → sp.state = 2 → (fieldLE msg 8 4).testBit 7 = true → (fieldLE msg 12 4).testBit 1 = true →
        exec (.negotiateAlgorithms msg) s = .next (answers s
          (bytesOf [0x12, 0x63, 0, 0, 36, 0, 1, 2, 4, 0, 0, 0, 0x80, 0, 0, 0, 2] ++ zeros 19) [0, 1, 2] 3 0 0)) ∧
      (sp.state = 3 →
        (code = 0x81 → exec (.getDigests msg) s = .next (answers (session id) free [1] 3 0 0)) ∧
        (code = 0xE4 → sp.session = 0 → exec (.keyExchange msg) s = .next (answers (session fun p => { p with session := 1 }) free [] 3 0 0)) ∧
        (code = 0xE5 → sp.session = 1 → exec (.finish msg) s = .next (answers (session fun p => { p with session := 2 }) free [] 3 0 0)) ∧
        (code = 0xE8 → sp.session = 2 → exec (.spdmHeartbeat msg) s = .next (answers (session id) free [] 3 0 0)) ∧
        (code = 0xE9 → sp.session = 2 → exec (.keyUpdate msg) s =
          .next (answers (session fun p => { p with keysUpdated := p.keysUpdated + 1 }) free [] 3 0 0)) ∧
        (code = 0xEC → sp.session = 2 → exec (.endSession msg) s =
          .next (answers (session fun p => { p with session := 0, ended := p.ended + 1 }) free [] 3 0 0)) ∧
        (code = 0x82 → fieldLE msg 2 1 % 16 = 0 → fieldLE msg 4 2 ≤ certLen →
          let off := fieldLE msg 4 2
          let n := Nat.min (fieldLE msg 6 2) (certLen - off)
          exec (.getCertificate msg) s = .next (answers s
            (bytesOf [0x12, 0x02, 0, 0] ++ natLE 2 n ++ natLE 2 (certLen - off - n) ++ (chainBytes.drop off).take n) [1] 3 0 0)) ∧
        (code = 0x83 → fieldLE msg 2 1 % 16 = 0 →
          (fieldLE msg 3 1 = 0 → exec (.challenge msg) s = .next (answers (nonceOf s).2
            (bytesOf [0x12, 0x03, 0, 1] ++ sha384 chainBytes ++ (nonceOf s).1 ++ [] ++ zeros 2) [1] 3 1 1)) ∧
          (fieldLE msg 3 1 = 0xFF → s.mgmt.act.state < 3 →
            let t := setHash s [3] fun _ => summaryBytes s
            exec (.challenge msg) s = .next (answers (nonceOf t).2
              (bytesOf [0x12, 0x03, 0, 1] ++ sha384 chainBytes ++ (nonceOf t).1 ++ sha384 (summaryBytes s) ++ zeros 2) [1] 3 1 1))) ∧
        (code = 0xE0 → s.mgmt.act.state < 3 → fieldLE msg 3 1 ≤ 5 ∨ fieldLE msg 3 1 = 0xFF →
          let which := fieldLE msg 3 1
          let blocks := if which = 0 then [] else if which = 0xFF then allBlocks s else [measBlockOf s which]
          exec (.getMeasurements msg) s = .next (answers (nonceOf s).2
            (bytesOf [0x12, 0x60, if which = 0 then 5 else 0, 0] ++ natLE 1 blocks.length ++ natLE 3 (55 * blocks.length) ++ blocks.flatten ++
              (nonceOf s).1 ++ zeros 2) [2] 3 2 (if (fieldLE msg 2 1).testBit 0 = true then 2 else 0)))))

/-- The controller's mailbox, hash unit and RAND as events, and its fault (25 R432 to R437): an object is received, TXBUF is sent, RXBUF is freed,
a hash command runs or is refused, a fault stops the controller. -/
def Obligations.MailboxAndHashComplete : Prop :=
  (∀ (s : State) (object : List Byte),
    (4096 < object.length → exec (.doeObjectReceive object) s = .next { s with mgmt := { s.mgmt with rxlost := s.mgmt.rxlost + 1 } }) ∧
    (object.length ≤ 4096 → fieldLE object 0 2 = 1 → fieldLE object 2 1 = 1 →
      let msg := object.drop 8
      ((s.core 768).stopped = true → exec (.doeObjectReceive object) s = .next (s.emit (.doe (bytesOf [0x12, 0x7F, 0x05, 0])))) ∧
      ((s.core 768).stopped = false →
        (s.mgmt.busyUntilPoll = true → exec (.doeObjectReceive object) s = .next (s.emit (.doe (bytesOf [0x12, 0x7F, 0x03, 0])))) ∧
        (s.mgmt.busyUntilPoll = false →
          (s.mgmt.rxready = false →
            exec (.doeObjectReceive object) s = .next { s with mgmt := { s.mgmt with rxbuf := msg, rxready := true } }) ∧
          (s.mgmt.rxready = true → s.mgmt.rxsecond = none →
            exec (.doeObjectReceive object) s = .next { s with mgmt := { s.mgmt with rxsecond := some msg } })))) ∧
    (object.length ≤ 4096 → fieldLE object 0 2 = 0x1E5C → fieldLE object 2 1 = 0x40 →
      exec (.doeObjectReceive object) s = receiveMgmt s (object.drop 8))) ∧
  (∀ (s : State) (n : Nat), 1 ≤ n → n ≤ 4096 →
    exec (.txgo n) s = .next { s with outputs := s.outputs ++ [.doe ((s.mgmt.txbuf ++ zeros 4096).take n)] }) ∧
  (∀ (s : State),
    (s.mgmt.rxsecond = none → exec .rxdone s = .next { s with mgmt := { s.mgmt with rxbuf := [], rxready := false } }) ∧
    (∀ x, s.mgmt.rxsecond = some x →
      exec .rxdone s = .next { s with mgmt := { s.mgmt with rxbuf := x, rxready := true, rxsecond := none } }) ∧
    exec .randRead s = .next { s.draw.2 with mgmt := { s.draw.2.mgmt with lastRand := s.draw.1 } }) ∧
  (∀ (s : State) (v : Nat), v < 2 ^ 63 →
    let kept (n : Nat) : Prop := ∀ i, n.testBit i = (v.testBit i && (decide (i < 3) || (decide (4 ≤ i) && decide (i ≤ 12))))
    ∀ n, kept n →
    let s1 := { s with mgmt := { s.mgmt with hcmd := BitVec.ofNat 64 n } }
    let refused := { s with mgmt := { s.mgmt with hcmd := BitVec.ofNat 64 (n + 2 ^ 63) } }
    let ctx := hashCtx s ((hMask v).headD 0)
    let src := s.mgmt.hsrc.toNat
    let dst := s.mgmt.hdst.toNat
    let runs (o : Instr) (t : State) : Prop :=
      (hashRefused s v = false → exec o s = .next t) ∧ (hashRefused s v = true → exec o s = .next refused)
    (hOp v = 1 → runs (.hashReset v) (setHash s1 (hMask v) fun _ => [])) ∧
    (hOp v = 2 → runs (.hashAbsorb v) (setHash s1 (hMask v) (· ++ s.bytesAt (mgmtLoc src) s.mgmt.hlen.toNat))) ∧
    (hOp v = 3 → runs (.hashDigest v) (s1.putBytes (mgmtLoc dst) (sha384 ctx))) ∧
    (hOp v = 4 → runs (.hashSign v) (s1.putBytes (mgmtLoc dst) (spdmSign (v.testBit 12) (hCs v) ctx))) ∧
    (hOp v = 5 → runs (.hashClone v) (setHash s1 (hMask v) fun _ => hashCtx s (hSrcctx v)))) ∧
  (∀ (s : State) (code : Nat), (s.core 768).stopped = false →
    ∃ t, exec (.managementControllerFault code) s = .next t ∧ (t.core 768).stopped = true ∧ 768 ∉ t.runQueue ∧
      (t.core 768).ecause = BitVec.ofNat 64 code ∧ (t.core 768).epc = (s.core 768).live.pc ∧ t.hbm = s.hbm ∧ t.mcram = s.mcram)

/-- The host links, the module, the debugger and the owner's key (26 R440 to R442, R446; 19 R364, R366; 23 R423): the host reaches the bytes that R441
lets it reach, and no others; beyond them its counter window adds to HOST counters. Where that window lies is the model's choice (log entry 32). -/
def Obligations.HostAndModuleEventsComplete : Prop :=
  (∀ (s : State) (link off : Nat) (data : List Byte),
    exec (.hostMemoryWrite link (2 ^ 40 + off) data) s = exec (.hostCounterStore link off data.length (leNat data)) s) ∧
  (∀ (s : State) (link addr : Nat) (data : List Byte), s.memWf = true → addr < 2 ^ 40 →
    let may (k : Nat) : Prop := addr + k < 2 ^ 40 ∧ hostReaches s (addr + k) = true
    ∃ t, exec (.hostMemoryWrite link addr data) s = .next t ∧
      (∀ k, k < data.length → may k → t.hbm.read (addr + k) = data.getD k 0) ∧
      (∀ k, k < data.length → ¬ may k → t.hbm.read (addr + k) = s.hbm.read (addr + k)) ∧
      (∀ a, a < addr ∨ addr + data.length ≤ a → t.hbm.read a = s.hbm.read a) ∧
      ((∀ k, k < data.length → may k) → t.hostRefusals = s.hostRefusals) ∧
      t.cores = s.cores ∧ t.parts = s.parts ∧ t.ctrs = s.ctrs ∧ t.banks = s.banks ∧ t.hostMem = s.hostMem) ∧
  (∀ (s : State) (link addr len : Nat),
    (addr + len ≤ 2 ^ 40 → 0 < len →
      ((∀ k, k < len → hostReaches s (addr + k) = true) →
        exec (.hostMemoryRead link addr len) s = .next (wakeDies (s.emit (.hostRead ((List.range len).map fun k => s.hbm.read (addr + k))))
          ((List.range len).map fun k => addr + k))) ∧
      ((∀ k, k < len → hostReaches s (addr + k) = false) →
        exec (.hostMemoryRead link addr len) s = .next
          { s.emit (.hostRead (List.replicate len 0xFF)) with hostRefusals := tmod 0 s.hostRefusals link (· + 1) })) ∧
    (∀ i, i < 2 ^ 20 → hostCounterHeld s i = true →
      exec (.hostMemoryRead link (2 ^ 40 + 16 * i) 8) s = .next (s.emit (.hostRead (natLE 8 (s.ctr (hostHandle i)).toNat)))) ∧
    exec (.snoop link addr) s = .next (s.emit (.snoopMiss link addr))) ∧
  (∀ (s : State) (die ctx pid : Nat) (on : Bool) (hash : List Byte),
    exec (.thermalThrottle die) s = .next (s.setDie die { s.die die with throttled := true }) ∧
    exec (.designPowerThrottle on) s = .next { s with throttle := on } ∧
    ((s.job ctx).phase ≠ .ended → exec (.debuggerHalt ctx on) s =
      .next ((noteWatch s ctx).setJob ctx { (noteWatch s ctx).job ctx with halted := on })) ∧
    (s.mgmtWaits = true → exec (.serviceKeyHashInstall pid hash) s = .next
      { s with mgmt := { s.mgmt with doeQueue := s.mgmt.doeQueue ++ [⟨opKeyHash, 0, [pid], hash⟩] } }) ∧
    (s.mgmtWaits = false → (s.part pid).st = .configured ∨ (s.part pid).st = .active → hash.length = 48 →
      exec (.serviceKeyHashInstall pid hash) s = .next (s.setPart pid { s.part pid with svcHash := hash })))

/-! ### Issue, decoding and the whole machine -/

/-- Issue runs what is decoded (07 R138, R153, 22 R405): a step performs the oldest event that the machine has set itself, else issues for the next
running agent; a core whose bundle decodes runs its operations, each as exec runs it, and commits them together; a leat core's word runs its
moves so, or stalls where it triggers a full TXU (22 R413): what the TXU's queue holds is the model's choice (log entry 117). -/
def Obligations.StepRunsDecoded : Prop :=
  (∀ (s : State),
    let t := { s with ticks := s.ticks + 1, cycle := s.cycle + Config.elapsedCycles s.ticks, leatCycle := s.leatCycle + Config.leatCycles s.ticks }
    (∀ i is, s.agenda = i :: is → step s = exec i { t with agenda := is }) ∧
    (∀ a as, s.agenda = [] → s.runQueue = a :: as → step s = exec (.bundleInstanceIssue a) { t with runQueue := as ++ [a] }) ∧
    (s.agenda = [] → s.runQueue = [] → step s = .next t)) ∧
  (∀ (s : State) (i : Instr) (e : Encoded), encode i = some e →
    (e.slot < 8 → ∀ p : Planned, p.op = i → s.cur.aborted = false → s.cur.frozen = false →
      exec i { s with cur := { s.cur with slot := p.slot, off := p.off } } = .next (issueOp s p)) ∧
    (e.slot = 8 → ∀ m : LeatMove, m.op = i → exec i s = .next (moveState s m))) ∧
  (∀ (s s1 : State) (c h : Nat) (ws : List Nat) (b : Bundle), c < 1000 → issueStops s c = false → s.issueCores c = [c] →
    s1.issueCores c = [c] → (s.core c).pending = [] → (s.core c).closing = none → rolesChange s c = false → (s.core c).dressBad = false →
    (s.core c).preempt = false → atsHold (s.core c).hold = false → outerHold (s.core c).hold = false →
    let w := stageRun c false 9 s
    (w.core c).pending = [] → stageHeld w c = false →
    let s0 := w.onCore c fun x => { x with frozen := false }
    fetchBundle s0 c = .ok (h, ws, s1) → phaseWaits s1 c = false → (s1.core c).masks = [] → decodeBundle (decodeCtx s1 c) h ws = .ok b →
    (∀ l ls, (s1.core c).live.loops = l :: ls → l.skip = false) →
    let m : Member := ⟨c, planAll (s1.core c).live b ((s1.core c).live.rep != 0)⟩
    let s2 := fenceDrain s1 [m]
    let r := runMember s2 b.len m
    let u := r.cur
    ((s1.core c).instCount = 0 ∨ (checkpointsBefore s1 [m] = false ∧ closesFor s2 u = false ∧ changesRoles s2 [u] = false)) → waitsFor s1 [m] c = none →
    fenceWaits s1 [m] c = false → outOfWindow s1 [m] = false → caddfWaits s1 [m] = false → u.core = c → u.aborted = false →
    u.frozen = false → (b.lend = true → (s1.core c).live.loops ≠ []) →
    bufferFull (s2.core c) u = false → windowMeets r c u = false → tileBusy (s2.core c) u = false → poisonedLoad r c = none →
    exec (.bundleInstanceIssue c) s = .next (offerAll (commitAll r b [m] [u] c)) ∧
    ((∀ p ∈ m.ops, latePop p.op = false) → r = m.ops.foldl issueOp { s2 with cur := startCursor s2 c b.len m.ops })) ∧
  (∀ (s : State) (n : Nat) (ms : List LeatMove),
    let x := { (s.leat n).tick with fresh := 0 }
    let s1 := s.setLeat n x
    let full : Prop := 64 ≤ txuHeld s1 n ∧ ∃ m ∈ ms, triggersTxu { s1 with cur := { core := 1000 + n } } m.op = true
    x.run = true → x.halted = false → decodeLeat (x.imem.bytes x.pc 16) = .ok ms →
    (full → exec (.bundleInstanceIssue (1000 + n)) s = .next (offerAll s1)) ∧
    (¬ full →
    let t := (moveOrder ms).foldl moveState { s1 with cur := { core := 1000 + n, leatSeen := some (x.queue.length - (s.leat n).fresh, x.tmrx) } }
    let u : State := { t with cur := {} }
    (t.cur.aborted = true → exec (.bundleInstanceIssue (1000 + n)) s = .next (offerAll (leatFaults s1 n t.cur.leatFault))) ∧
    (t.cur.aborted = false → t.cur.leatHalt = true → exec (.bundleInstanceIssue (1000 + n)) s = .next (offerAll (leatHalts u n))) ∧
    (t.cur.aborted = false → t.cur.leatHalt = false → exec (.bundleInstanceIssue (1000 + n)) s = .next (offerAll (u.setLeat n
      { u.leat n with pc := (u.leat n).target.getD (((u.leat n).pc + 16) % 65536), target := t.cur.leatTarget })))))

/-- Words written out in the spec's examples decode to what the examples say (08 R170, R177, 09 R216, 10 R235, R240, 11 R249 to R261, 12 R275, R284,
22 R402 to R406). -/
def Obligations.DecodeWords : Prop :=
  decodeSlot 0 0x04882105 none = .ok (.setp ⟨0, 2, 2, 4, 5, none⟩) ∧
  decodeSlot 0 0x09419000 none = .ok (.csrwSet ⟨0, 3, 0⟩) ∧ decodeSlot 0 0x0941B000 none = .error cIllegalOp ∧
  decodeSlot 0 0x08400010 none = .ok (.loopi ⟨0, 16, none⟩) ∧ decodeSlot 0 0x0C401180 none = .ok (.tdef ⟨0, 0, 1, 6, 0, none⟩) ∧
  decodeSlot 0 0x0A080000 none = .ok (.fence ⟨0, 2, 0, 0, 0, none⟩) ∧ decodeSlot 0 0x24C20BFD none = .ok (.addi ⟨2, 4, 5, 0x1FD, none⟩) ∧
  decodeSlot 0 0x08C00000 none = .ok (.exit ⟨0, 0, 0, 0, 0, none⟩) ∧
  decodeSlot 1 0x01083042 none = .ok (.vfma ⟨0, 2, 3, 1, 2, none⟩) ∧
  decodeSlot 2 0x00644146 (some 0x10) = .ok (.lds ⟨0, 1, 4, 5, 6, some 0x10⟩) ∧
  decodeSlot 2 0x00A0D07F (some 0x100) = .ok (.sts ⟨0, 0, 13, 1, 63, some 0x100⟩) ∧
  decodeSlot 2 0x0120223F (some 0x18000000) = .ok (.stv ⟨0, 0, 2, 8, 63, some 0x18000000⟩) ∧
  decodeSlot 2 0x0284928B none = .ok (.atom ⟨0, 1, 9, 10, 11, none⟩) ∧
  decodeSlot 3 0x00A45040 (some 0x0100000A) = .ok (.qnt ⟨0, 1, 5, 1, 0, some 0x0100000A⟩) ∧
  decodeSlot 4 0x00600040 (some 0x1000003F) = .ok (.mldb ⟨0, 0, 0, 0, 1, 0, 0, some 0x1000003F⟩) ∧
  decodeSlot 5 0x00A08000 (some 0x00FD003F) = .ok (.mma ⟨0, 0, 2, 0, 0, 0, 0, some 0x00FD003F⟩) ∧
  decodeSlot 6 0x014001C8 none = .ok (.cadd ⟨0, 0, 0, 7, 8, none⟩) ∧ decodeSlot 6 0x016001FF (some 0xE0000040) = .error cIllegalOp ∧
  decodeSlot 6 0x00609105 (some 0xE8010000) = .ok (.cpy ⟨0, 0, 9, 4, 5, some 0xE8010000⟩) ∧
  decodeSlot 7 0x00400009 none = .ok (.waitf ⟨0, 9⟩) ∧ decodeSlot 7 0x00410009 none = .error cIllegalOp ∧
  decodeSlot 7 0x00A081C8 (some 0x1388) = .ok (.watch ⟨0, 0, 2, 7, 8, some 0x1388⟩) ∧
  decodeMove 0xB8001F00 0 = .ok (.pcJump ⟨true, 1, true, 0x800, 0⟩) ∧ decodeMove 0x01000420 0 = .ok (.move ⟨false, 0, false, 0x100, 0⟩ 0x42) ∧
  decodeMove 0x08011100 0 = .ok (.aluAdd ⟨false, 0, false, 0x801, 0⟩)

/-- The decoder and the encoder agree on every well-formed instruction that has an encoding (08 R168 to R172, 22 R402 to R404): no bit of an
encoding is dropped. Both words fit 32 bits; an M operation decodes alike in both M slots; the EXT bit (R168), or a SRC of 0x7FF in a move (R403),
says whether a second word follows. -/
def Obligations.EncodingRoundTrip : Prop :=
  ∀ (i : Instr) (e : Encoded), i.wf = true → encode i = some e →
    decodeEncoded e = some i ∧ e.word < 2 ^ 32 ∧ (∀ x, e.ext = some x → x < 2 ^ 32) ∧
    (e.slot = 4 → decodeSlot 5 e.word e.ext = .ok i) ∧
    (if e.slot = 8 then (bits e.word 27 16 = 0x7FF ↔ e.ext.isSome = true) else e.word.testBit 21 = e.ext.isSome)

/-- Every step keeps every memory of the machine in its canonical form: addresses strictly rising, no listed byte 0. -/
def Obligations.StepKeepsMemoryForm : Prop :=
  ∀ (s t : State), s.memWf = true → step s = .next t → t.memWf = true

/-- What reset leaves (26 R444, 22 R418; values the spec does not give are those of log entries 1 to 4): partitions FREE, registers and
measurements zero, leat cores HALTED, every memory in canonical form, and one step that only lets time pass. -/
def Obligations.ResetState : Prop :=
  let s := State.reset
  s.memWf = true ∧ (∀ p, (s.part p).st = .free) ∧ (∀ n, measOf s n = zeros 48) ∧
  (∀ c, (s.core c).job = none ∧ ∀ n, (s.core c).live.sreg n = 0 ∧ (s.core c).live.vreg n = 0 ∧ (s.core c).live.kreg n = 0 ∧
    (s.core c).live.treg n = 0 ∧ (1 ≤ n → (s.core c).live.pred n = 0) ∧ (s.core c).live.status = 0) ∧
  (∀ m, (s.mill m).bankrole = 0 ∧ (s.mill m).millmode = false) ∧ (∀ n, (s.leat n).run = false ∧ (s.leat n).halted = true) ∧
  (∀ h, s.ctr h = 0) ∧ (∀ l, l.sp ≠ .ctl → s.byteAt l = 0) ∧ s.engines = [] ∧ s.waiters = [] ∧ s.mgmt.act.state = 0 ∧
  step s = .next { s with ticks := 1, cycle := 0 + Config.elapsedCycles 0, leatCycle := 0 + Config.leatCycles 0 }

/-- Taking a fault (07 R154; 02 R40 to R44, 20 R374, R379): the region rolls back, so that the live registers are the shadow's, the release buffer is empty
and only results of earlier regions stay in flight; ECAUSE, FAULTINFO and EPC hold the fault. A device page holds the strand; under RETRY at
the strand level one record is written to the ring and the strand goes on from its checkpoint. The premise on staged: no match of the dressing
stage has begun to dispatch, which would finish first (13 R303). -/
def Obligations.FaultEntry : Prop :=
  ∀ (s : State) (c id : Nat) (f : FaultAt), c ≠ 768 → s.issueCores c = [c] → (s.core c).job = some id → (s.core c).live.priv_ = 0 →
    (∀ m ms, (s.core c).staged = m :: ms → m.orig ≠ 0) →
    let x := s.core c
    let rolled (y : Core) : Prop :=
      y.live = x.shadow ∧ y.shadow = x.shadow ∧ y.buf = [] ∧ y.drain = x.drain ∧ y.inflight = x.inflight.filter (fun l => l.older) ∧
      y.window = [] ∧ y.tileDrop = x.tileSkip ∧ y.instCount = 0 ∧ y.ecause = BitVec.ofNat 64 f.code ∧
      y.faultinfo = BitVec.ofNat 64 f.info ∧ y.epc = f.epc ∧ y.ckptPc = x.ckptPc ∧ y.job = x.job ∧ y.strand = x.strand
    (f.code = cPageDevice →
      let t := takeFault s c f false
      rolled (t.core c) ∧ (t.core c).hold = some (.pageDevice f.info) ∧ (∀ d, d ≠ c → t.core d = s.core d) ∧
        t.hbm = s.hbm ∧ t.banks = s.banks ∧ t.ctrs = s.ctrs) ∧
    (let j := s.job id
     let d := tget [] (s.part j.pid).spaces j.aspace
     let k := tget 0 (s.part j.pid).fring j.aspace
     let a := spaceFrbase d + 64 * (k % 2 ^ spaceFrlog d)
     let t := takeFault s c f false
     f.code ∉ [cPageDevice, cPageHost, cSegmentAuth, cWatchdog, cPoison] → f.info < 2 ^ 64 → recPolicy j.record % 8 = 2 →
     j.memberOf x.strand = none → x.retrycnt.toNat < Config.retryLimit → s.memWf = true → s.hbmForm = [] → s.poison = [] → s.waiters = [] →
     hKind (spaceFrctr d) = 1 → (s.ctr (spaceFrctr d) - s.ctr (spaceFrack d)).toNat < 2 ^ spaceFrlog d →
     rolled (t.core c) ∧ (t.core c).retrycnt = x.retrycnt + 1 ∧ (∀ e, e ≠ c → t.core e = s.core e) ∧
       (let r := t.hbm.bytes a 64
        fieldLE r 0 1 = f.code % 256 ∧ fieldLE r 2 1 = 0 ∧ fieldLE r 3 1 = 2 ∧ fieldLE r 8 4 = j.ctxid % 2 ^ 32 ∧
        fieldLE r 12 2 = x.strand % 2 ^ 16 ∧ fieldLE r 14 2 = c % 2 ^ 16 ∧ fieldLE r 16 8 = f.epc.toNat ∧
        fieldLE r 24 8 = x.ckptPc.toNat ∧ fieldLE r 32 8 = f.info) ∧
       (∀ p, p < a ∨ a + 64 ≤ p → t.hbm.read p = s.hbm.read p) ∧ t.banks = s.banks)

/-- How a result lands (07 R139, R141, 10 R219, 01 R26): the bits of its mask are replaced in its register, no other register changes, s0 and p0 keep
their values, and the slot's latches take the result. wf says that the register tables are in canonical form, which every landing keeps. -/
def Obligations.ResultsLandInTheirRegister : Prop :=
  ∀ (a : Arch) (l : Landing),
    let wf (b : Arch) : Prop :=
      twf 0 b.s = true ∧ twf 0 b.v = true ∧ twf 0 b.o = true ∧ twf 0 b.p = true ∧ twf 0 b.k = true ∧ twf 0 b.t = true ∧ twf 0 b.steps = true ∧
      twf (some (0 : Vec)) b.latch = true
    let t := a.land l
    wf a →
      wf t ∧
      (∀ i, i < (if l.file = .v ∨ l.file = .o then 2048 else 64) → ¬ (l.num = 0 ∧ (l.file = .s ∨ l.file = .p)) → l.file ≠ .none →
        (t.get l.file l.num).getLsbD i = if l.mask.getLsbD i then l.val.getLsbD i else (a.get l.file l.num).getLsbD i) ∧
      (∀ file n, (file ≠ l.file ∨ n ≠ l.num) → t.get file n = a.get file n) ∧
      t.sreg 0 = 0 ∧ t.pred 0 = BitVec.allOnes 64 ∧ t.pc = a.pc ∧ t.loops = a.loops ∧ t.rngNext = a.rngNext ∧
      (l.latch = false → t.latch = a.latch) ∧
      (l.latch = true → t.latchOf l.slot 0 = some (mergeV (a.get l.file l.num) l.val l.mask) ∧ t.latchOf l.slot 1 = a.latchOf l.slot 0 ∧
        ∀ k age, k ≠ l.slot → age < 2 → t.latchOf k age = a.latchOf k age)

/-- Where the other slots trap: the fault raised and its FAULTINFO, before anything of the operation (07 R153). V and X under STO without a draw to
take (03 R75, R76, 10 R221, R242); the L slot and its accesses by the steps of R246 (11 R245 to R256), first failure first; LDK and STK (10 R241);
SEAL and OPEN (R244); the M operations (12 R267, R276); the C commands (R262 to R264, R283 to R289); WATCH (11 R260). The model's choices: an
access of the mill-qualified range raises ACCESS before ALIGN (log entry 130), CADDM judges its handles one by one (log entry 132), a replica
table outside LOCAL raises ACCESS (log entry 133), and the FAULTINFO of commands and tiles (log entries 22 and 57). -/
def Obligations.SlotTraps : Prop :=
  (∀ (f : F3) (s : State) (code : Nat),
     ((s.coreJob s.cur.core).det = true ∧ s.curCore.rngClaim = false ∧ code = cDetViolation ∨
       ((s.coreJob s.cur.core).det = false ∨ s.curCore.rngClaim = true) ∧ s.curCore.rngEnd ≤ s.curCore.live.rngNext ∧ code = cBound) →
     (Issues 1 f.g s → vRm f = 5 →
       let trap := Host.Outcome.next (raise (reads (s.atSlot 1) [f.a, f.b, vCs f]) code 0)
       exec (.vadd f) s = trap ∧ exec (.vsub f) s = trap ∧ exec (.vmul f) s = trap ∧ exec (.vfma f) s = trap ∧ exec (.vdot4 f) s = trap ∧
       exec (.vrcp f) s = trap ∧ exec (.vrsq f) s = trap ∧ exec (.vexp2 f) s = trap ∧ exec (.vlog2 f) s = trap ∧
       exec (.viota f) s = .next (raise (reads (s.atSlot 1) [f.a]) code 0)) ∧
     (Issues 3 f.g s → xRm f = 5 →
       let trap := Host.Outcome.next (raise (reads (s.atSlot 3) [f.a]) code 0)
       exec (.cvt f) s = trap ∧ exec (.qnt f) s = trap ∧ exec (.dqnt f) s = trap) ∧
     (Issues 3 f.g s → exec (.rndw f) s = .next (raise (s.atSlot 3) code 0) ∧ exec (.rndc f) s = .next (raise (s.atSlot 3) code 0))) ∧
  (∀ (s : State) (c va n align : Nat) (need : Need) (noHost : Bool),
     let fails (code : Nat) : Prop := coreAccess s c va n align need noHost = .error { code := code, info := va }
     (spanCanonical va n = false → fails cAccess) ∧
     (c ≠ 768 → spanCanonical va n = true →
       (isLocal va ≠ isLocal (va + n - 1) → fails cAccess) ∧
       (isLocal va = true → isLocal (va + n - 1) = true →
         (aligned va align = false → fails cAlign) ∧
         (aligned va align = true →
           (rolesAdmit (s.mill (c / 2)).bankrole .core (va - localBase) n = false → fails cAccess) ∧
           (rolesAdmit (s.mill (c / 2)).bankrole .core (va - localBase) n = true → (s.core c).live.priv_ = 0 →
             inBounds (s.core c).lbound (va - localBase) n = false → fails cBound))) ∧
       (isLocal va = false → isLocal (va + n - 1) = false →
         (isMillQual va = true → fails cAccess) ∧
         (isMillQual va = false → isMillQual (va + n - 1) = false → (s.core c).live.priv_ = 0 →
           (aligned va align = false → fails cAlign) ∧
           (aligned va align = true → isSvc (s.corePart c) va = false → isSvc (s.corePart c) (va + n - 1) = false →
             let cuts := translateCuts s (s.core c).tlb (coreDie c) (s.coreJob c).pid (s.coreJob c).aspace need (pageCuts (n / 4096 + 2) va n)
             (∀ e, cuts = .error e → coreAccess s c va n align need noHost = .error e) ∧
             (∀ r, cuts = .ok r → noHost = true → (∃ p ∈ r.1, p.loc.sp = .host) → fails cAccess))))) ∧
     (c = 768 → spanCanonical va n = true →
       (isMcram va = false → isCtl va = false → fails cAccess) ∧
       (isMcram va = true → isMcram (va + n - 1) = true → aligned va align = false → fails cAlign))) ∧
  (∀ (f : F3) (s : State) (e : Flt), Issues 2 f.g s →
     let at_ (b : Int) : Nat := (((s.srcS 2 f.a).toNat + b + lOff f + s.cur.off) % 2 ^ 64).toNat
     let ea := at_ (s.srcS 2 f.b).toNat
     let three := reads (s.atSlot 2) [f.a, f.b, f.d]
     let two := reads (s.atSlot 2) [f.a, f.b]
     let m := s.curCore.live.pred (lMsk f)
     let width (n : Nat) := if n = 0 then 32 else if n = 1 then 16 else 8
     let stride (i : Nat) : Nat := (((at_ 0 : Int) + i * (s.srcS 2 f.b).toInt) % 2 ^ 64).toNat
     let index (i : Nat) : Nat := at_ 0 + lane (s.srcV 2 f.b) (width f.fn) i * (width f.fn / 8)
     let loads (w : Nat) (addr : Nat → Nat) (i : Instr) :=
       vecAccess two s.cur.core (w / 8) .read (activeElems m w addr) = .error e → exec i s = .next (accessFail two e)
     let stores (w : Nat) (addr : Nat → Nat) (i : Instr) :=
       let seen := reads (s.atSlot 2) [f.d, f.a, f.b]
       vecAccess seen s.cur.core (w / 8) .write (activeElems m w addr) = .error e → exec i s = .next (accessFail seen e)
     (∀ n, (f.fn, n) ∈ [(0, 8), (1, 4), (2, 4), (3, 2), (4, 2), (5, 1), (6, 1)] →
       coreAccess two s.cur.core ea n 0 .read false = .error e → exec (.lds f) s = .next (accessFail two e)) ∧
     (∀ n, (f.fn, n) ∈ [(0, 8), (1, 4), (3, 2), (5, 1)] →
       coreAccess three s.cur.core ea n 0 .write false = .error e → exec (.sts f) s = .next (accessFail three e)) ∧
     loads 32 (fun j => ea + 4 * j) (.ldv f) ∧ stores 32 (fun j => ea + 4 * j) (.stv f) ∧ loads (width f.fn) stride (.ldvs f) ∧
     stores (width f.fn) stride (.stvs f) ∧ loads (width f.fn) index (.ldvx f) ∧ stores (width f.fn) index (.stvx f) ∧
     (spanCanonical (ea / 128 * 128) (128 * (f.fn + 1)) = false → exec (.pref f) s = .next (raise two cAccess ea)) ∧
     (f.fn = 0 → canonical ea = false →
       exec (.cinv f) s = .next (raise two cAccess ea) ∧ exec (.cflush f) s = .next (raise two cAccess ea)) ∧
     (let n := if (lSub f).testBit 0 then 4 else 8
      coreAccess three s.cur.core (at_ 0) n n .both true = .error e → exec (.atom f) s = .next (accessFail three e)) ∧
     (coreAccess three s.cur.core ea 256 256 .both true = .error e → exec (.accv f) s = .next (accessFail three e)) ∧
     (∀ p es, Reaches three ea 256 256 .both true [p] es →
       let u := keepPages three s.cur.core es
       (p.loc.sp = .ctl → exec (.accv f) s = .next (raise u cAccess ea)) ∧
       (p.loc.sp ≠ .ctl → formBlocks u s.cur.core p.loc 256 = true → exec (.accv f) s = .next (raise u cForm ea)) ∧
       (p.loc.sp ≠ .ctl → formBlocks u s.cur.core p.loc 256 = false → (s.coreJob s.cur.core).det = true → ltInt f.fn = false →
         exec (.accv f) s = .next (raise u cDetViolation ea))) ∧
     (∀ t : State, (e.atsPage = none →
       accessFail t e = raiseFlt t { code := e.code, info := e.info, flags := if e.malformed then 8 else 0, page := e.page }) ∧
       ∀ page, e.atsPage = some page → accessFail t e = { t with cur := { t.cur with frozen := true, freezePage := some page } })) ∧
  (∀ (f : F3) (s : State) (e : Flt), Issues 3 f.g s →
     let seen := reads (s.atSlot 3) [f.a, f.b]
     let ea := ((((s.srcS 3 f.a).toNat : Int) + (s.srcS 3 f.b).toNat + xOff f + s.cur.off) % 2 ^ 64).toNat
     let both (t : State) : Prop := exec (.ldk f) s = .next t ∧ exec (.stk f) s = .next t
     (isLocal ea = false → both (raise seen cAccess ea)) ∧ (isLocal ea = true → ea % 8 ≠ 0 → both (raise seen cAlign ea)) ∧
     (isLocal ea = true → ea % 8 = 0 →
       (coreAccess seen s.cur.core ea 8 8 .read false = .error e → exec (.ldk f) s = .next (accessFail seen e)) ∧
       (coreAccess seen s.cur.core ea 8 8 .write false = .error e → exec (.stk f) s = .next (accessFail seen e))) ∧
     (let d := s.curCore.live.treg f.d
      let op (opc : Nat) : MOp :=
        { slot := 3, opc := opc, fn := 0, td := ⟨f.d, d⟩, key := (s.srcS 3 f.a).toNat, iv := s.srcS 3 f.b, pc := s.cur.pc, inst := s.cur.inst }
      let trap (v : Nat × Nat) : Prop :=
        (sealCheck seen s.cur.core (op 16) (tileOf d 0).outside = some v → exec (.sealTile f) s = .next (raise seen v.1 v.2)) ∧
        (sealCheck seen s.cur.core (op 17) (tileOf d 0).outside = some v → exec (.openTile f) s = .next (raise seen v.1 v.2))
      (∀ v, trap v) ∧
      ∀ opc, (128 ≤ (op opc).key → sealCheck seen s.cur.core (op opc) (tileOf d 0).outside = some (cBound, (op opc).key)) ∧
        ((op opc).key < 128 → (s.corePart s.cur.core).hasKey (op opc).key = false →
          sealCheck seen s.cur.core (op opc) (tileOf d 0).outside = some (cAccess, (op opc).key)))) ∧
  (∀ (f : FM) (s : State) (slot : Nat) (v : Nat × Nat), slot = (if s.cur.slot = 5 then 5 else 4) → Issues slot f.g s →
     let det := mRm f == 5 && (s.coreJob s.cur.core).det && !s.curCore.rngClaim
     let traps (i : Instr) (opc : Nat) (d a b : Bool) :=
       let check (det : Bool) :=
         mCheck (s.atSlot slot) s.cur.core opc f.fn (mTr f) (mTile (s.atSlot slot) d f.td) (mTile (s.atSlot slot) a f.ta)
           (mTile (s.atSlot slot) b f.tb) (matesClash s.cur || storeClash s.cur slot) det
       (check det = some v → exec i s = .next (raise (s.atSlot slot) v.1 v.2)) ∧
       (check false = none → mRm f = 5 → ((s.coreJob s.cur.core).det = true ∧ s.curCore.rngClaim = false) →
         exec i s = .next (raise (s.atSlot slot) cDetViolation 0)) ∧
       (check false = none → mRm f = 5 → ((s.coreJob s.cur.core).det = false ∨ s.curCore.rngClaim = true) →
         s.curCore.rngEnd ≤ s.curCore.live.rngNext → exec i s = .next (raise (s.atSlot slot) cBound 0))
     traps (.mldb f) 1 false false true ∧ traps (.mma f) 2 true true false ∧ traps (.mtrn f) 3 true true false ∧
     traps (.mscl f) 4 true true false ∧ traps (.madd f) 5 true true true ∧ traps (.mcvt f) 6 true true false ∧
     traps (.mzero f) 7 true false false ∧ traps (.mcpy f) 8 true true false ∧ traps (.mvs f) 9 true true true ∧
     traps (.mqnt f) 10 true true false ∧
     (∀ (x : State) (c opc fn : Nat) (tr : Bool) (td ta tb : Tile) (clash det : Bool),
       let check := mCheck x c opc fn tr td ta tb clash det
       let shape := mShapeOk opc tr td ta tb && !(mLocals opc td ta tb).any Tile.outside && mOverlapOk opc td ta tb && !clash
       (mFormatOk opc fn tr td ta tb = false → check = some (cFormat, 0)) ∧
       (mFormatOk opc fn tr td ta tb = true → shape = false → check = some (cTileShape, 0)))) ∧
  (∀ (f : FM) (s t : State) (u : Nat → Nat), s.cur.slot ≠ 5 → Issues 4 f.g s → Draws s (mRm f) t u →
     let seen := reads (t.atSlot 4) [mSr f, mHr f]
     let va := (s.srcS 4 (mSr f)).toNat
     let n := mvsExtent (tileOf (s.curCore.live.treg f.tb) 0)
     mCheck (s.atSlot 4) s.cur.core 9 f.fn (mTr f) (mTile (s.atSlot 4) true f.td) (mTile (s.atSlot 4) true f.ta)
       (mTile (s.atSlot 4) true f.tb) (matesClash s.cur || storeClash s.cur 4) false = none →
     (va % 2048 ≠ 0 → exec (.mvs f) s = .next (raise seen cAlign va)) ∧
     (va % 2048 = 0 → ∀ e, mvsPieces seen va n = .error e → exec (.mvs f) s = .next (accessFail seen e)) ∧
     (∀ ps es, va % 2048 = 0 → mvsPieces seen va n = .ok (ps, es) →
       ((∃ p ∈ ps, seen.anyForm p.loc p.len = true) → exec (.mvs f) s = .next (raise seen cForm va)) ∧
       (∀ code, (∀ p ∈ ps, seen.anyForm p.loc p.len = false) → mHr f ≠ 0 → mHr f ≠ 63 →
         addCheck (s.corePart s.cur.core) (s.corePart s.cur.core).hasMill (s.srcS 4 (mHr f)).toNat 1 = some code →
         exec (.mvs f) s = .next (raise seen code (s.srcS 4 (mHr f)).toNat)))) ∧
  (∀ (f : F3) (s : State), Issues 6 f.g s →
     let c := s.cur.core
     let step (x : Nat) : Nat := (((x : Int) + s.cur.off) % 2 ^ 64).toNat
     let a := (s.srcS 6 f.a).toNat
     let b := (s.srcS 6 f.b).toNat
     let p := s.corePart c
     let one := reads (s.atSlot 6) [f.a]
     let two := reads (s.atSlot 6) [f.a, f.b]
     let got (t : State) (ps : List Piece) (es : List TlbEnt) :=
       let l := loadWhole (keepPages t c es) c ps
       (noteChecks (noteTouched l.2 ps false) c ps, l.1)
     let handleBad (code : Nat) : Prop := f.d ≠ 63 ∧ addCheck p p.hasMill (s.srcS 6 f.d).toNat (cImm f) = some code
     (∀ code, handleBad code → exec (.cpy f) s = .next (raise (reads two [f.d]) code (s.srcS 6 f.d).toNat) ∧
       exec (.disarm f) s = .next (raise (reads (reads (s.atSlot 6) [f.b]) [f.d]) code (s.srcS 6 f.d).toNat)) ∧
     (∀ e, (coreAccess one s.cur.core a 64 64 .read false = .error e → exec (.cpyD f) s = .next (accessFail one e)) ∧
       (coreAccess one s.cur.core a 192 64 .read false = .error e → exec (.send f) s = .next (accessFail one e)) ∧
       (coreAccess two s.cur.core a 64 64 .read false = .error e → exec (.arm f) s = .next (accessFail two e)) ∧
       (b < 64 → coreAccess two s.cur.core (step a) 64 64 .read false = .error e → exec (.cload f) s = .next (accessFail two e)) ∧
       (bits b 31 6 = 0 → coreAccess two s.cur.core a 256 64 .read false = .error e → exec (.coll f) s = .next (accessFail two e)) ∧
       (isLocal (step b) = true → coreAccess two s.cur.core (step b) 64 64 .read false = .error e → exec (.mcst f) s = .next (accessFail two e))) ∧
     (∀ ps es, Reaches one a 64 64 .read false ps es →
       let r := got one ps es
       let rb := fieldLE r.2 16 4
       let rows := fieldLE r.2 20 4
       let ok := 1 ≤ rb ∧ rb ≤ 2 ^ 24 ∧ 1 ≤ rows ∧ rows ≤ 65536 ∧ fieldLE r.2 48 1 < 2 ∧ allZero (r.2.drop 49) = true
       (¬ok → exec (.cpyD f) s = .next (raise r.1 cBound a)) ∧
       (∀ code, ok → fieldLE r.2 48 1 = 1 → addCheck p p.hasMill (fieldLE r.2 32 8) (fieldLE r.2 40 8) = some code →
         exec (.cpyD f) s = .next (raise r.1 code (fieldLE r.2 32 8)))) ∧
     (∀ ps es, Reaches one a 192 64 .read false ps es →
       let r := got one ps es
       (sendSto r.2 = true → 0 < s.cur.pops →
         let w := raise { r.1 with cur := { r.1.cur with slot := 9 } } cIllegalBundle 0
         exec (.send f) s = .next { w with cur := { w.cur with illegal := true } }) ∧
       (sendSto r.2 = false ∨ s.cur.pops = 0 → sendOk r.2 = false → exec (.send f) s = .next (raise r.1 cBound a))) ∧
     (∀ ps es, Reaches two a 64 64 .read false ps es →
       let r := got two ps es
       let d := setLE (setLE (setLE r.2 0 8 (step (armBase r.2))) 32 8 (step (armBitmap r.2))) 40 8 (step (armRing r.2))
       (bits b 31 10 ≠ 0 → exec (.arm f) s = .next (raise r.1 cBound b)) ∧
       (bits b 31 10 = 0 → armOk r.2 = false → exec (.arm f) s = .next (raise r.1 cBound a)) ∧
       (∀ code, bits b 31 10 = 0 → armOk r.2 = true → addCheck p p.hasMill (armRingctr d) 1 = some code →
         exec (.arm f) s = .next (raise r.1 code (armRingctr d))) ∧
       (bits b 31 10 = 0 → armOk r.2 = true → addCheck p p.hasMill (armRingctr d) 1 = none →
         addCheck p p.hasMill (armDonectr d) 1 = none → f.d = 63 → slotTaken r.1 (coreDie c) (b % 1024) = true →
         exec (.arm f) s = .next (raise r.1 cAccess b))) ∧
     (f.d = 63 → slotOwned (reads (s.atSlot 6) [f.b]) (coreDie c) b (s.curCore.job.getD 0) = false →
       exec (.disarm f) s = .next (raise (reads (s.atSlot 6) [f.b]) cAccess b)) ∧
     (64 ≤ b → exec (.cload f) s = .next (raise two cBound b)) ∧
     (∀ ps es, b < 64 → Reaches two (step a) 64 64 .read false ps es →
       let r := got two ps es
       (graphHeadOk r.2 = false → exec (.cload f) s = .next (raise r.1 cBound (step a))) ∧
       (graphHeadOk r.2 = true → f.d = 63 → graphTaken r.1 (coreDie c) b (s.curCore.job.getD 0) = true →
         exec (.cload f) s = .next (raise r.1 cAccess b))) ∧
     (bits b 31 6 ≠ 0 → exec (.coll f) s = .next (raise two cBound b)) ∧
     (∀ ps es, bits b 31 6 = 0 → Reaches two a 256 64 .read false ps es →
       let r := got two ps es
       let job := s.curCore.job.getD 0
       let ok := ∀ k, k < 8 → (collRegion (collStep r.1 r.2) k).2 = 0 ∨
         (collRegion (collStep r.1 r.2) k).1 + (collRegion (collStep r.1 r.2) k).2 ≤ 2 ^ 64
       slotSto r.1 (coreDie c) (b % 64) job = false ∨ s.cur.pops = 0 →
       (¬ok → exec (.coll f) s = .next (raise r.1 cBound a)) ∧
       (ok → f.d = 63 →
         (r.1.graphSlot (coreDie c) (b % 64) = none → exec (.coll f) s = .next (raise r.1 cAccess b)) ∧
         (∀ g, r.1.graphSlot (coreDie c) (b % 64) = some g →
           g.job ≠ job ∨ b / 2 ^ 32 = 0 ∨ b / 2 ^ 32 = lastInstance r.1 (coreDie c) (b % 64) job g →
           exec (.coll f) s = .next (raise r.1 cAccess b)))) ∧
     (∀ code, addCheck p (s.jobMill c) a (b + cImm f) = some code →
       exec (.cadd f) s = .next (raise two code a) ∧ exec (.caddf f) s = .next (raise two code a)) ∧
     (addCheck p (s.jobMill c) a (b + cImm f) = none → isRemote a = true → exec (.caddf f) s = .next (raise two cCounterHandle a)) ∧
     (∀ e, caddmHandles p (s.jobMill c) a b ((List.range 16).filter fun j => (cImm f).testBit j) = .error e →
       exec (.caddm f) s = .next (raise two e.1 e.2)) ∧
     (isLocal (step b) = false → exec (.mcst f) s = .next (raise two cAccess (step b))) ∧
     (∀ ps es, isLocal (step b) = true → Reaches two (step b) 64 64 .read false ps es →
       let r := got two ps es
       (replicaList r.2 = [] → exec (.mcst f) s = .next (raise r.1 cBound (step b))) ∧
       (∀ e, replicaList r.2 ≠ [] → coreAccess r.1 c (step a) 128 128 .read false = .error e → exec (.mcst f) s = .next (accessFail r.1 e)) ∧
       ∀ qs gs e, replicaList r.2 ≠ [] → Reaches r.1 (step a) 128 128 .read false qs gs →
         replicaFault (keepPages r.1 c gs) c [] (replicaList r.2) = some e → exec (.mcst f) s = .next (accessFail (keepPages r.1 c gs) e)) ∧
     (let seen := reads (s.atSlot 6) [f.a, f.b, f.d]
      let part := s.part (s.coreJob c).pid
      (b = 0 ∨ 2 ^ 64 < a + b → exec (.gen f) s = .next (raise seen cBound b)) ∧
      (1 ≤ b → a + b ≤ 2 ^ 64 → c ≠ 768 →
        (claimConflict part (some (s.curCore.job.getD 0)) (s.srcS 6 f.d) a b = true → exec (.gen f) s = .next (raise seen cRngOverlap a)) ∧
        (claimConflict part (some (s.curCore.job.getD 0)) (s.srcS 6 f.d) a b = false → 1024 ≤ part.claims.length →
          exec (.gen f) s = .next (raise seen cQueueFull 0))))) ∧
  (∀ (f : FY) (s : State), Issues 7 f.g s →
     let seen := reads (s.atSlot 7) [f.a, f.b]
     let h := (s.srcS 7 f.a).toNat
     let x := if f.kind = 0 then 0 else (s.srcS 7 (extField f.ext 5 0 0)).toNat
     let y := if f.kind = 1 ∨ f.kind = 3 then (s.srcS 7 (extField f.ext 11 6 0)).toNat else 0
     let check := watchCheck seen s.cur.core f.kind h x y
     (∀ v, check = some v → exec (.watch f) s = .next (raise seen v.1 v.2)) ∧
     (handleOk h = false ∨ hKind h = 4 → check = some (cCounterHandle, h)) ∧
     (hKind h = 0 → f.kind ≠ 0 ∨ hPkgMill h ≠ s.cur.core / 2 → check = some (cCounterHandle, h)) ∧
     (watchHandleOk s.cur.core f.kind h = true → handleIn (s.corePart s.cur.core) (fun _ => true) h = false → check = some (cAccess, h)) ∧
     (watchHandleOk s.cur.core f.kind h = true → handleIn (s.corePart s.cur.core) (fun _ => true) h = true →
       (f.kind = 1 → isLocal x = true ∨ isMillQual x = true → check = some (cAccess, x)) ∧
       (f.kind = 1 → isLocal x = false → isMillQual x = false → x % 32 ≠ 0 → check = some (cAlign, x)) ∧
       (f.kind = 2 → 2047 < x → check = some (cBound, x)) ∧
       (f.kind = 3 → handleOk x = false ∨ hKind x = 4 ∨ isWritePtr x = true ∨ 2 ^ 62 ≤ y → check = some (cCounterHandle, x)) ∧
       (f.kind = 0 → waiterFull seen (s.coreJob s.cur.core).pid h = true → check = some (cWaiterExhausted, h))))
end

