-- ==== Sys2Proof/Laws/Encode.lean ====
section
/-! SUPPORT. The fields of every layout come back out of the word that the encoder puts them into (08 R168 to R171, 22 R402). -/

namespace Sys2Proof

open Sys2Proof.Machine

theorem bits_eq_div_mod (x hi lo : Nat) : bits x hi lo = x / 2 ^ lo % 2 ^ (hi + 1 - lo) := by
  rw [bits, Nat.shiftRight_eq_div_pow]

theorem testBit_eq_div_mod (x n : Nat) : x.testBit n = decide (x / 2 ^ n % 2 = 1) := Nat.testBit_eq_decide_div_mod_eq

/-! ### What a field that fits says -/

theorem F3.fits_iff (f : F3) : f.fits = true ↔
    f.g < 16 ∧ f.fn < 8 ∧ f.d < 64 ∧ f.a < 64 ∧ f.b < 64 ∧ extFits f.ext = true := by
  simp only [F3.fits, Bool.and_eq_true, decide_eq_true_eq, and_assoc]
theorem FI.fits_iff (f : FI) : f.fits = true ↔ f.g < 16 ∧ f.d < 64 ∧ f.a < 64 ∧ f.imm9 < 512 ∧ extFits f.ext = true := by
  simp only [FI.fits, Bool.and_eq_true, decide_eq_true_eq, and_assoc]
theorem FB.fits_iff (f : FB) : f.fits = true ↔ f.g < 16 ∧ f.imm21 < 2 ^ 21 ∧ extFits f.ext = true := by
  simp only [FB.fits, Bool.and_eq_true, decide_eq_true_eq, and_assoc]
theorem FK.fits_iff (f : FK) : f.fits = true ↔ f.g < 16 ∧ f.reg < 64 ∧ f.csr < 4096 := by
  simp only [FK.fits, Bool.and_eq_true, decide_eq_true_eq, and_assoc]
theorem FM.fits_iff (f : FM) : f.fits = true ↔
    f.g < 16 ∧ f.fn < 8 ∧ f.td < 16 ∧ f.ta < 16 ∧ f.tb < 16 ∧ f.ka < 8 ∧ f.kb < 8 ∧ extFits f.ext = true := by
  simp only [FM.fits, Bool.and_eq_true, decide_eq_true_eq, and_assoc]
theorem FY.fits_iff (f : FY) : f.fits = true ↔
    f.g < 16 ∧ f.kind < 8 ∧ f.flag < 16 ∧ f.a < 64 ∧ f.b < 64 ∧ extFits f.ext = true := by
  simp only [FY.fits, Bool.and_eq_true, decide_eq_true_eq, and_assoc]
theorem FW.fits_iff (f : FW) : f.fits = true ↔ f.g < 16 ∧ f.mask < 65536 := by
  simp only [FW.fits, Bool.and_eq_true, decide_eq_true_eq]
theorem LM.fits_iff (m : LM) : m.fits = true ↔ m.gq < 4 ∧ m.src < 4096 ∧ m.imm < 2 ^ 32 ∧ (m.src = 0x7FF ∨ m.imm = 0) := by
  simp only [LM.fits, Bool.and_eq_true, decide_eq_true_eq, and_assoc, Bool.or_eq_true, beq_iff_eq]

theorem extBit_cases (e : Option Nat) : (extBit e = 0 ∧ e.isSome = false) ∨ (extBit e = 2097152 ∧ e.isSome = true) := by
  cases e <;> simp [extBit]

/-! ### Layout F3 -/

theorem putF3_lt (opc : Nat) (f : F3) (ho : opc < 64) (h : f.fits = true) : putF3 opc f < 2 ^ 32 := by
  rw [F3.fits_iff] at h
  rcases extBit_cases f.ext with ⟨he, -⟩ | ⟨he, -⟩ <;> simp only [putF3, he] <;> omega
theorem bits_putF3_opc (opc : Nat) (f : F3) (ho : opc < 64) (h : f.fits = true) : bits (putF3 opc f) 27 22 = opc := by
  rw [F3.fits_iff] at h
  rcases extBit_cases f.ext with ⟨he, -⟩ | ⟨he, -⟩ <;> simp only [bits_eq_div_mod, putF3, he] <;> omega
theorem testBit_putF3_ext (opc : Nat) (f : F3) (h : f.fits = true) :
    (putF3 opc f).testBit 21 = f.ext.isSome := by
  rw [F3.fits_iff] at h
  rcases extBit_cases f.ext with ⟨he, hs⟩ | ⟨he, hs⟩ <;> rw [testBit_eq_div_mod, hs] <;> simp only [putF3, he]
  · exact decide_eq_false (by omega)
  · exact decide_eq_true (by omega)
theorem bits_putF3_fn (opc : Nat) (f : F3) (h : f.fits = true) : bits (putF3 opc f) 20 18 = f.fn := by
  rw [F3.fits_iff] at h
  rcases extBit_cases f.ext with ⟨he, -⟩ | ⟨he, -⟩ <;> simp only [bits_eq_div_mod, putF3, he] <;> omega
theorem getF3_putF3 (opc : Nat) (f : F3) (ho : opc < 64) (h : f.fits = true) : getF3 (putF3 opc f) f.ext = f := by
  have hf := bits_putF3_fn opc f h
  rw [F3.fits_iff] at h
  obtain ⟨g, fn, d, a, b, e⟩ := f
  simp only [getF3, F3.mk.injEq, and_true]
  rw [hf]
  rcases extBit_cases e with ⟨he, -⟩ | ⟨he, -⟩ <;> simp only [bits_eq_div_mod, putF3, he] at * <;>
    refine ⟨?_, trivial, ?_, ?_, ?_⟩ <;> omega

/-! ### Layout FI -/

theorem putFI_lt (opc : Nat) (f : FI) (ho : opc < 64) (h : f.fits = true) : putFI opc f < 2 ^ 32 := by
  rw [FI.fits_iff] at h
  rcases extBit_cases f.ext with ⟨he, -⟩ | ⟨he, -⟩ <;> simp only [putFI, he] <;> omega
theorem bits_putFI_opc (opc : Nat) (f : FI) (ho : opc < 64) (h : f.fits = true) : bits (putFI opc f) 27 22 = opc := by
  rw [FI.fits_iff] at h
  rcases extBit_cases f.ext with ⟨he, -⟩ | ⟨he, -⟩ <;> simp only [bits_eq_div_mod, putFI, he] <;> omega
theorem testBit_putFI_ext (opc : Nat) (f : FI) (h : f.fits = true) :
    (putFI opc f).testBit 21 = f.ext.isSome := by
  rw [FI.fits_iff] at h
  rcases extBit_cases f.ext with ⟨he, hs⟩ | ⟨he, hs⟩ <;> rw [testBit_eq_div_mod, hs] <;> simp only [putFI, he]
  · exact decide_eq_false (by omega)
  · exact decide_eq_true (by omega)
theorem getFI_putFI (opc : Nat) (f : FI) (ho : opc < 64) (h : f.fits = true) : getFI (putFI opc f) f.ext = f := by
  rw [FI.fits_iff] at h
  obtain ⟨g, d, a, i, e⟩ := f
  simp only [getFI, FI.mk.injEq, and_true]
  rcases extBit_cases e with ⟨he, -⟩ | ⟨he, -⟩ <;> simp only [bits_eq_div_mod, putFI, he] at * <;>
    refine ⟨?_, ?_, ?_, ?_⟩ <;> omega

/-! ### Layout FB -/

theorem putFB_lt (opc : Nat) (f : FB) (ho : opc < 64) (h : f.fits = true) : putFB opc f < 2 ^ 32 := by
  rw [FB.fits_iff] at h
  rcases extBit_cases f.ext with ⟨he, -⟩ | ⟨he, -⟩ <;> simp only [putFB, he] <;> omega
theorem bits_putFB_opc (opc : Nat) (f : FB) (ho : opc < 64) (h : f.fits = true) : bits (putFB opc f) 27 22 = opc := by
  rw [FB.fits_iff] at h
  rcases extBit_cases f.ext with ⟨he, -⟩ | ⟨he, -⟩ <;> simp only [bits_eq_div_mod, putFB, he] <;> omega
theorem testBit_putFB_ext (opc : Nat) (f : FB) (h : f.fits = true) :
    (putFB opc f).testBit 21 = f.ext.isSome := by
  rw [FB.fits_iff] at h
  rcases extBit_cases f.ext with ⟨he, hs⟩ | ⟨he, hs⟩ <;> rw [testBit_eq_div_mod, hs] <;> simp only [putFB, he]
  · exact decide_eq_false (by omega)
  · exact decide_eq_true (by omega)
theorem getFB_putFB (opc : Nat) (f : FB) (ho : opc < 64) (h : f.fits = true) : getFB (putFB opc f) f.ext = f := by
  rw [FB.fits_iff] at h
  obtain ⟨g, i, e⟩ := f
  simp only [getFB, FB.mk.injEq, and_true]
  rcases extBit_cases e with ⟨he, -⟩ | ⟨he, -⟩ <;> simp only [bits_eq_div_mod, putFB, he] at * <;>
    refine ⟨?_, ?_⟩ <;> omega

/-! ### Layout FK -/

theorem putFK_lt (opc fn : Nat) (f : FK) (ho : opc < 64) (hn : fn < 8) (h : f.fits = true) : putFK opc fn f < 2 ^ 32 := by
  rw [FK.fits_iff] at h
  simp only [putFK]; omega
theorem bits_putFK_opc (opc fn : Nat) (f : FK) (ho : opc < 64) (hn : fn < 8) (h : f.fits = true) :
    bits (putFK opc fn f) 27 22 = opc := by
  rw [FK.fits_iff] at h
  simp only [bits_eq_div_mod, putFK]; omega
theorem bits_putFK_fn (opc fn : Nat) (f : FK) (hn : fn < 8) (h : f.fits = true) :
    bits (putFK opc fn f) 14 12 = fn := by
  rw [FK.fits_iff] at h
  simp only [bits_eq_div_mod, putFK]; omega
theorem bits_putFK_ext (opc fn : Nat) (f : FK) (hn : fn < 8) (h : f.fits = true) :
    bits (putFK opc fn f) 21 21 = 0 := by
  rw [FK.fits_iff] at h
  simp only [bits_eq_div_mod, putFK]; omega
theorem testBit_putFK_ext (opc fn : Nat) (f : FK) (hn : fn < 8) (h : f.fits = true) :
    (putFK opc fn f).testBit 21 = false := by
  rw [FK.fits_iff] at h
  simp only [testBit_eq_div_mod, putFK]; simp; omega
theorem getFK_putFK (opc fn : Nat) (f : FK) (ho : opc < 64) (hn : fn < 8) (h : f.fits = true) : getFK (putFK opc fn f) = f := by
  rw [FK.fits_iff] at h
  obtain ⟨g, r, c⟩ := f
  simp only [getFK, FK.mk.injEq, bits_eq_div_mod, putFK] at *
  refine ⟨?_, ?_, ?_⟩ <;> omega

/-! ### Layout FM -/

theorem putFM_lt (opc : Nat) (f : FM) (ho : opc < 64) (h : f.fits = true) : putFM opc f < 2 ^ 32 := by
  rw [FM.fits_iff] at h
  rcases extBit_cases f.ext with ⟨he, -⟩ | ⟨he, -⟩ <;> simp only [putFM, he] <;> omega
theorem bits_putFM_opc (opc : Nat) (f : FM) (ho : opc < 64) (h : f.fits = true) : bits (putFM opc f) 27 22 = opc := by
  rw [FM.fits_iff] at h
  rcases extBit_cases f.ext with ⟨he, -⟩ | ⟨he, -⟩ <;> simp only [bits_eq_div_mod, putFM, he] <;> omega
theorem testBit_putFM_ext (opc : Nat) (f : FM) (h : f.fits = true) :
    (putFM opc f).testBit 21 = f.ext.isSome := by
  rw [FM.fits_iff] at h
  rcases extBit_cases f.ext with ⟨he, hs⟩ | ⟨he, hs⟩ <;> rw [testBit_eq_div_mod, hs] <;> simp only [putFM, he]
  · exact decide_eq_false (by omega)
  · exact decide_eq_true (by omega)
theorem getFM_putFM (opc : Nat) (f : FM) (ho : opc < 64) (h : f.fits = true) : getFM (putFM opc f) f.ext = f := by
  rw [FM.fits_iff] at h
  obtain ⟨g, fn, d, a, b, ka, kb, e⟩ := f
  simp only [getFM, FM.mk.injEq, and_true]
  rcases extBit_cases e with ⟨he, -⟩ | ⟨he, -⟩ <;> simp only [bits_eq_div_mod, putFM, he] at * <;>
    refine ⟨?_, ?_, ?_, ?_, ?_, ?_, ?_⟩ <;> omega

/-! ### Layouts FY and FW -/

theorem putFY_lt (opc : Nat) (f : FY) (ho : opc < 64) (h : f.fits = true) : putFY opc f < 2 ^ 32 := by
  rw [FY.fits_iff] at h
  rcases extBit_cases f.ext with ⟨he, -⟩ | ⟨he, -⟩ <;> simp only [putFY, he] <;> omega
theorem bits_putFY_opc (opc : Nat) (f : FY) (ho : opc < 64) (h : f.fits = true) : bits (putFY opc f) 27 22 = opc := by
  rw [FY.fits_iff] at h
  rcases extBit_cases f.ext with ⟨he, -⟩ | ⟨he, -⟩ <;> simp only [bits_eq_div_mod, putFY, he] <;> omega
theorem bits_putFY_zero (opc : Nat) (f : FY) (h : f.fits = true) : bits (putFY opc f) 13 12 = 0 := by
  rw [FY.fits_iff] at h
  rcases extBit_cases f.ext with ⟨he, -⟩ | ⟨he, -⟩ <;> simp only [bits_eq_div_mod, putFY, he] <;> omega
theorem testBit_putFY_ext (opc : Nat) (f : FY) (h : f.fits = true) :
    (putFY opc f).testBit 21 = f.ext.isSome := by
  rw [FY.fits_iff] at h
  rcases extBit_cases f.ext with ⟨he, hs⟩ | ⟨he, hs⟩ <;> rw [testBit_eq_div_mod, hs] <;> simp only [putFY, he]
  · exact decide_eq_false (by omega)
  · exact decide_eq_true (by omega)
theorem getFY_putFY (opc : Nat) (f : FY) (ho : opc < 64) (h : f.fits = true) : getFY (putFY opc f) f.ext = f := by
  rw [FY.fits_iff] at h
  obtain ⟨g, k, l, a, b, e⟩ := f
  simp only [getFY, FY.mk.injEq, and_true]
  rcases extBit_cases e with ⟨he, -⟩ | ⟨he, -⟩ <;> simp only [bits_eq_div_mod, putFY, he] at * <;>
    refine ⟨?_, ?_, ?_, ?_, ?_⟩ <;> omega

theorem putFW_lt (opc : Nat) (f : FW) (ho : opc < 64) (h : f.fits = true) : putFW opc f < 2 ^ 32 := by
  rw [FW.fits_iff] at h
  simp only [putFW]; omega
theorem bits_putFW_opc (opc : Nat) (f : FW) (ho : opc < 64) (h : f.fits = true) : bits (putFW opc f) 27 22 = opc := by
  rw [FW.fits_iff] at h
  simp only [bits_eq_div_mod, putFW]; omega
theorem bits_putFW_zero (opc : Nat) (f : FW) (h : f.fits = true) : bits (putFW opc f) 21 16 = 0 := by
  rw [FW.fits_iff] at h
  simp only [bits_eq_div_mod, putFW]; omega
theorem testBit_putFW_ext (opc : Nat) (f : FW) (h : f.fits = true) : (putFW opc f).testBit 21 = false := by
  rw [FW.fits_iff] at h
  simp only [testBit_eq_div_mod, putFW]; simp; omega
theorem getFW_putFW (opc : Nat) (f : FW) (ho : opc < 64) (h : f.fits = true) : getFW (putFW opc f) = f := by
  rw [FW.fits_iff] at h
  obtain ⟨g, m⟩ := f
  simp only [getFW, FW.mk.injEq, bits_eq_div_mod, putFW] at *
  refine ⟨?_, ?_⟩ <;> omega

/-! ### Move slots (R402) -/

theorem putLM_lt (m : LM) (d : Nat) (hd : d < 4096) (h : m.fits = true) : putLM m d < 2 ^ 32 := by
  rw [LM.fits_iff] at h
  simp only [putLM]; split <;> split <;> omega
theorem bits_putLM_dst (m : LM) (d : Nat) (hd : d < 4096) : bits (putLM m d) 15 4 = d := by
  simp only [bits_eq_div_mod, putLM]; split <;> split <;> omega
theorem bits_putLM_zero (m : LM) (d : Nat) : bits (putLM m d) 3 0 = 0 := by
  simp only [bits_eq_div_mod, putLM]; split <;> split <;> omega
theorem bits_putLM_src (m : LM) (d : Nat) (hd : d < 4096) (h : m.fits = true) : bits (putLM m d) 27 16 = m.src := by
  rw [LM.fits_iff] at h
  simp only [bits_eq_div_mod, putLM]; split <;> split <;> omega
theorem bits_putLM_gen (m : LM) (d : Nat) (hd : d < 4096) (h : m.fits = true) :
    bits (putLM m d) 31 31 = if m.gen then 1 else 0 := by
  rw [LM.fits_iff] at h
  simp only [bits_eq_div_mod, putLM]; split <;> split <;> omega
theorem bits_putLM_gq (m : LM) (d : Nat) (hd : d < 4096) (h : m.fits = true) : bits (putLM m d) 30 29 = m.gq := by
  rw [LM.fits_iff] at h
  simp only [bits_eq_div_mod, putLM]; split <;> split <;> omega
theorem bits_putLM_ginv (m : LM) (d : Nat) (hd : d < 4096) (h : m.fits = true) :
    bits (putLM m d) 28 28 = if m.ginv then 1 else 0 := by
  rw [LM.fits_iff] at h
  simp only [bits_eq_div_mod, putLM]; split <;> split <;> omega
theorem getLM_putLM (m : LM) (d : Nat) (hd : d < 4096) (h : m.fits = true) : getLM (putLM m d) ((putImm m).getD 0) = m := by
  have hm := (LM.fits_iff m).1 h
  simp only [getLM, bits_putLM_gen m d hd h, bits_putLM_gq m d hd h, bits_putLM_ginv m d hd h, bits_putLM_src m d hd h]
  obtain ⟨gen, gq, ginv, src, imm⟩ := m
  simp only [LM.mk.injEq, true_and] at *
  refine ⟨by cases gen <;> rfl, by cases ginv <;> rfl, ?_⟩
  by_cases hs : src = 0x7FF
  · simp only [hs, putImm, beq_self_eq_true, if_true, Option.getD_some]; omega
  · simp only [beq_iff_eq, hs, if_false]; omega

end Sys2Proof
end

