-- ==== Sys2Proof/Laws/Table.lean ====
section
/-! SUPPORT. Laws of tables (Table.lean): a read after a write, a write leaves other keys alone, and every operation keeps the
canonical form, so that equal contents are equal tables. -/

namespace Sys2Proof.Machine

variable {α : Type}

@[simp] theorem tget_nil (d : α) (a : Nat) : tget d [] a = d := rfl

@[simp] theorem tget_tins_same (d : α) (t : Table α) (a : Nat) (x : α) : tget d (tins t a x) a = x := by
  induction t with
  | nil => simp [tins, tget]
  | cons e t ih =>
    obtain ⟨k, v⟩ := e
    by_cases h : a = k
    · simp [tins, tget, h]
    · by_cases h' : a < k <;> simp [tins, tget, h, h', ih]

theorem tget_tins_ne (d : α) (t : Table α) {a b : Nat} (x : α) (h : b ≠ a) : tget d (tins t a x) b = tget d t b := by
  induction t with
  | nil => simp [tins, tget, h]
  | cons e t ih =>
    obtain ⟨k, v⟩ := e
    by_cases h1 : a = k
    · subst h1; simp [tins, tget, h]
    · by_cases h2 : a < k
      · simp [tins, tget, h, h1, h2]
      · simp [tins, tget, h1, h2, ih]

@[simp] theorem tins_tins (t : Table α) (a : Nat) (x y : α) : tins (tins t a x) a y = tins t a y := by
  induction t with
  | nil => simp [tins]
  | cons e t ih =>
    obtain ⟨k, v⟩ := e
    by_cases h1 : a = k
    · simp [tins, h1]
    · by_cases h2 : a < k <;> simp [tins, h1, h2, ih]

/-- Every key listed is above a key that stands below the table's first. -/
theorem tget_of_below (d : α) (t : Table α) [DecidableEq α] {a b : Nat} (hw : twf d t = true) (hb : tabove b t = true) (h : a ≤ b) :
    tget d t a = d := by
  induction t generalizing b with
  | nil => rfl
  | cons e t ih =>
    obtain ⟨k, v⟩ := e
    simp only [twf, tabove, Bool.and_eq_true, decide_eq_true_eq] at hw hb
    have hak : a ≠ k := by omega
    simp only [tget, hak, if_false]
    exact ih hw.2 hw.1.2 (by omega)

theorem tabove_mono {b c : Nat} {t : Table α} (h : tabove b t = true) (hc : c ≤ b) : tabove c t = true := by
  cases t with
  | nil => rfl
  | cons e t => simp only [tabove, decide_eq_true_eq] at *; omega

variable [DecidableEq α]

theorem tabove_tdel {d : α} {b : Nat} {t : Table α} {a : Nat} (hw : twf d t = true) (h : tabove b t = true) :
    tabove b (tdel t a) = true := by
  cases t with
  | nil => rfl
  | cons e t =>
    obtain ⟨k, v⟩ := e
    simp only [twf, tabove, Bool.and_eq_true, decide_eq_true_eq] at hw h
    simp only [tdel]
    split
    · exact tabove_mono hw.1.2 (by omega)
    · split <;> simpa [tabove] using h

omit [DecidableEq α] in
theorem tabove_tins {b : Nat} {t : Table α} {a : Nat} {x : α} (h : tabove b t = true) (ha : b < a) :
    tabove b (tins t a x) = true := by
  cases t with
  | nil => simpa [tins, tabove] using ha
  | cons e t =>
    obtain ⟨k, v⟩ := e
    simp only [tabove, decide_eq_true_eq] at h
    simp only [tins]
    split
    · simpa [tabove] using ha
    · split
      · simpa [tabove] using ha
      · simpa [tabove] using h

/-- Removing a key keeps the canonical form. -/
theorem twf_tdel {d : α} {t : Table α} (a : Nat) (h : twf d t = true) : twf d (tdel t a) = true := by
  induction t with
  | nil => rfl
  | cons e t ih =>
    obtain ⟨k, v⟩ := e
    have h' := h
    simp only [twf, Bool.and_eq_true] at h
    simp only [tdel]
    split
    · exact h.2
    · split
      · exact h'
      · simp only [twf, Bool.and_eq_true]
        exact ⟨⟨h.1.1, tabove_tdel h.2 h.1.2⟩, ih h.2⟩

/-- Listing a value that is not the default keeps the canonical form. -/
theorem twf_tins {d : α} {t : Table α} {a : Nat} {x : α} (hx : x ≠ d) (h : twf d t = true) : twf d (tins t a x) = true := by
  induction t with
  | nil => simp [tins, twf, tabove, hx]
  | cons e t ih =>
    obtain ⟨k, v⟩ := e
    have h' := h
    simp only [twf, Bool.and_eq_true, decide_eq_true_eq] at h
    simp only [tins]
    split
    · rename_i hk; subst hk
      simp only [twf, Bool.and_eq_true, decide_eq_true_eq]; exact ⟨⟨hx, h.1.2⟩, h.2⟩
    · split
      · rename_i hlt
        simp only [twf, Bool.and_eq_true, decide_eq_true_eq]
        exact ⟨⟨hx, by simpa [tabove] using hlt⟩, h.1, h.2⟩
      · simp only [twf, Bool.and_eq_true, decide_eq_true_eq]
        exact ⟨⟨h.1.1, tabove_tins h.1.2 (by omega)⟩, ih h.2⟩

/-- A write keeps the canonical form, whatever is written. -/
theorem twf_tput {d : α} {t : Table α} (a : Nat) (x : α) (h : twf d t = true) : twf d (tput d t a x) = true := by
  unfold tput
  split
  · exact twf_tdel a h
  · rename_i hx; exact twf_tins hx h

theorem twf_tmod {d : α} {t : Table α} (a : Nat) (f : α → α) (h : twf d t = true) : twf d (tmod d t a f) = true :=
  twf_tput a _ h

/-- A part of a table that is kept in order is canonical. -/
theorem tabove_filter {d : α} {t : Table α} {b : Nat} (p : Nat × α → Bool) (hw : twf d t = true) (h : tabove b t = true) :
    tabove b (t.filter p) = true := by
  induction t generalizing b with
  | nil => rfl
  | cons e t ih =>
    obtain ⟨k, v⟩ := e
    simp only [twf, tabove, Bool.and_eq_true, decide_eq_true_eq] at hw h
    rw [List.filter_cons]
    split
    · simpa [tabove] using h
    · exact ih hw.2 (tabove_mono hw.1.2 (by omega))
theorem twf_filter {d : α} {t : Table α} (p : Nat × α → Bool) (h : twf d t = true) : twf d (t.filter p) = true := by
  induction t with
  | nil => rfl
  | cons e t ih =>
    obtain ⟨k, v⟩ := e
    have h' := h
    simp only [twf, Bool.and_eq_true] at h
    rw [List.filter_cons]
    split
    · simp only [twf, Bool.and_eq_true]
      exact ⟨⟨h.1.1, tabove_filter p h.2 h.1.2⟩, ih h.2⟩
    · exact ih h.2

/-- A deleted key reads as the default. -/
theorem tget_tdel_same {d : α} {t : Table α} (a : Nat) (h : twf d t = true) : tget d (tdel t a) a = d := by
  induction t with
  | nil => rfl
  | cons e t ih =>
    obtain ⟨k, v⟩ := e
    have h' := h
    simp only [twf, Bool.and_eq_true] at h
    simp only [tdel]
    split
    · rename_i hk; exact tget_of_below d t h.2 h.1.2 (by omega)
    · split
      · rename_i hk hlt
        simp only [tget, hk, if_false]
        exact tget_of_below d t h.2 h.1.2 (by omega)
      · rename_i hk hlt
        simp only [tget, hk, if_false]; exact ih h.2

theorem tget_tdel_ne {d : α} {t : Table α} {a b : Nat} (h : twf d t = true) (hb : b ≠ a) : tget d (tdel t a) b = tget d t b := by
  induction t with
  | nil => rfl
  | cons e t ih =>
    obtain ⟨k, v⟩ := e
    simp only [twf, Bool.and_eq_true] at h
    simp only [tdel]
    split
    · rename_i hk; subst hk; simp [tget, hb]
    · split
      · rfl
      · simp only [tget]; split
        · rfl
        · exact ih h.2

/-- A read after a write at the same key gives what was written. -/
theorem tget_tput_same {d : α} {t : Table α} (a : Nat) (x : α) (h : twf d t = true) : tget d (tput d t a x) a = x := by
  unfold tput
  split
  · rename_i hx; rw [hx]; exact tget_tdel_same a h
  · exact tget_tins_same d t a x

/-- A write leaves every other key alone. -/
theorem tget_tput_ne {d : α} {t : Table α} {a b : Nat} (x : α) (h : twf d t = true) (hb : b ≠ a) :
    tget d (tput d t a x) b = tget d t b := by
  unfold tput
  split
  · exact tget_tdel_ne h hb
  · exact tget_tins_ne d t x hb

/-! ### Memory -/

theorem Memory.write_wf {m : Memory} (a : Nat) (b : Byte) (h : m.wf = true) : (m.write a b).wf = true := twf_tput a b h
theorem Memory.store_wf {m : Memory} (a : Nat) (bs : List Byte) (h : m.wf = true) : (m.store a bs).wf = true := by
  induction bs generalizing m a with
  | nil => exact h
  | cons b bs ih => exact ih (a + 1) (Memory.write_wf a b h)
theorem Memory.read_write_same {m : Memory} (a : Nat) (b : Byte) (h : m.wf = true) : (m.write a b).read a = b := tget_tput_same a b h
theorem Memory.read_write_ne {m : Memory} {a c : Nat} (b : Byte) (h : m.wf = true) (hc : c ≠ a) :
    (m.write a b).read c = m.read c := tget_tput_ne b h hc
/-- A store leaves every byte outside its range alone. -/
theorem Memory.read_store_outside {m : Memory} {a c : Nat} (bs : List Byte) (h : m.wf = true) (hc : c < a ∨ a + bs.length ≤ c) :
    (m.store a bs).read c = m.read c := by
  induction bs generalizing m a with
  | nil => rfl
  | cons b bs ih =>
    simp only [List.length_cons] at hc
    have h1 := ih (m := m.write a b) (a := a + 1) (Memory.write_wf a b h) (by omega)
    rw [Memory.store, h1, Memory.read_write_ne b h (by omega)]
/-- A store's bytes read back. -/
theorem Memory.read_store_inside {m : Memory} {a k : Nat} (bs : List Byte) (h : m.wf = true) (hk : k < bs.length) :
    (m.store a bs).read (a + k) = bs[k] := by
  induction bs generalizing m a k with
  | nil => simp at hk
  | cons b bs ih =>
    cases k with
    | zero => rw [Memory.store, Memory.read_store_outside bs (Memory.write_wf a b h) (by omega)]; exact Memory.read_write_same a b h
    | succ k =>
      have h1 := ih (m := m.write a b) (a := a + 1) (k := k) (Memory.write_wf a b h) (by simpa using hk)
      rw [Memory.store, show a + (k + 1) = a + 1 + k by omega, h1]; rfl

end Sys2Proof.Machine
end

