-- ==== Sys2Proof/Laws/State.lean ====
section
/-! SUPPORT. Laws of the state's accessors: a read after an update, field by field, so that no proof unfolds a record update. -/

namespace Sys2Proof.Machine

variable (s : State)

@[simp] theorem core_setCore (c : Nat) (x : Core) : (s.setCore c x).core c = x := tget_tins_same _ _ _ _
theorem core_setCore_ne {c d : Nat} (x : Core) (h : d ≠ c) : (s.setCore c x).core d = s.core d := tget_tins_ne _ _ _ h
@[simp] theorem setCore_setCore (c : Nat) (x y : Core) : (s.setCore c x).setCore c y = s.setCore c y := by
  simp [State.setCore]
@[simp] theorem setCore_cur (c : Nat) (x : Core) : (s.setCore c x).cur = s.cur := rfl
@[simp] theorem setCore_agenda (c : Nat) (x : Core) : (s.setCore c x).agenda = s.agenda := rfl
@[simp] theorem setCore_runQueue (c : Nat) (x : Core) : (s.setCore c x).runQueue = s.runQueue := rfl
@[simp] theorem setCore_ticks (c : Nat) (x : Core) : (s.setCore c x).ticks = s.ticks := rfl
@[simp] theorem setCore_hbm (c : Nat) (x : Core) : (s.setCore c x).hbm = s.hbm := rfl
@[simp] theorem setCore_banks (c : Nat) (x : Core) : (s.setCore c x).banks = s.banks := rfl
@[simp] theorem setCore_hostMem (c : Nat) (x : Core) : (s.setCore c x).hostMem = s.hostMem := rfl
@[simp] theorem setCore_mcram (c : Nat) (x : Core) : (s.setCore c x).mcram = s.mcram := rfl
@[simp] theorem setCore_mills (c : Nat) (x : Core) : (s.setCore c x).mills = s.mills := rfl
@[simp] theorem setCore_dies (c : Nat) (x : Core) : (s.setCore c x).dies = s.dies := rfl
@[simp] theorem setCore_ctrs (c : Nat) (x : Core) : (s.setCore c x).ctrs = s.ctrs := rfl
@[simp] theorem setCore_waiters (c : Nat) (x : Core) : (s.setCore c x).waiters = s.waiters := rfl
@[simp] theorem setCore_firings (c : Nat) (x : Core) : (s.setCore c x).firings = s.firings := rfl
@[simp] theorem setCore_offers (c : Nat) (x : Core) : (s.setCore c x).offers = s.offers := rfl
@[simp] theorem setCore_engines (c : Nat) (x : Core) : (s.setCore c x).engines = s.engines := rfl
@[simp] theorem setCore_parts (c : Nat) (x : Core) : (s.setCore c x).parts = s.parts := rfl
@[simp] theorem setCore_jobs (c : Nat) (x : Core) : (s.setCore c x).jobs = s.jobs := rfl
@[simp] theorem setCore_ports (c : Nat) (x : Core) : (s.setCore c x).ports = s.ports := rfl
@[simp] theorem setCore_leats (c : Nat) (x : Core) : (s.setCore c x).leats = s.leats := rfl
@[simp] theorem setCore_mgmt (c : Nat) (x : Core) : (s.setCore c x).mgmt = s.mgmt := rfl
@[simp] theorem setCore_hbmWritten (c : Nat) (x : Core) : (s.setCore c x).hbmWritten = s.hbmWritten := rfl
@[simp] theorem setCore_lostAt (c : Nat) (x : Core) : (s.setCore c x).lostAt = s.lostAt := rfl
@[simp] theorem setCore_hostLost (c : Nat) (x : Core) : (s.setCore c x).hostLost = s.hostLost := rfl
@[simp] theorem setCore_outputs (c : Nat) (x : Core) : (s.setCore c x).outputs = s.outputs := rfl

@[simp] theorem mill_setMill (m : Nat) (x : Mill) : (s.setMill m x).mill m = x := tget_tins_same _ _ _ _
theorem mill_setMill_ne {m n : Nat} (x : Mill) (h : n ≠ m) : (s.setMill m x).mill n = s.mill n := tget_tins_ne _ _ _ h
@[simp] theorem setMill_core (m c : Nat) (x : Mill) : (s.setMill m x).core c = s.core c := rfl
@[simp] theorem setMill_offers (m : Nat) (x : Mill) : (s.setMill m x).offers = s.offers := rfl
@[simp] theorem die_setDie (d : Nat) (x : Die) : (s.setDie d x).die d = x := tget_tins_same _ _ _ _
theorem die_setDie_ne {d e : Nat} (x : Die) (h : e ≠ d) : (s.setDie d x).die e = s.die e := tget_tins_ne _ _ _ h
@[simp] theorem setDie_core (d c : Nat) (x : Die) : (s.setDie d x).core c = s.core c := rfl
@[simp] theorem setDie_offers (d : Nat) (x : Die) : (s.setDie d x).offers = s.offers := rfl
@[simp] theorem part_setPart (p : Nat) (x : Partition) : (s.setPart p x).part p = x := tget_tins_same _ _ _ _
theorem part_setPart_ne {p q : Nat} (x : Partition) (h : q ≠ p) : (s.setPart p x).part q = s.part q := tget_tins_ne _ _ _ h
@[simp] theorem setPart_core (p c : Nat) (x : Partition) : (s.setPart p x).core c = s.core c := rfl
@[simp] theorem setPart_offers (p : Nat) (x : Partition) : (s.setPart p x).offers = s.offers := rfl
@[simp] theorem leat_setLeat (n : Nat) (x : Leat) : (s.setLeat n x).leat n = x := tget_tins_same _ _ _ _
theorem leat_setLeat_ne {n m : Nat} (x : Leat) (h : m ≠ n) : (s.setLeat n x).leat m = s.leat m := tget_tins_ne _ _ _ h
@[simp] theorem setLeat_cur (n : Nat) (x : Leat) : (s.setLeat n x).cur = s.cur := rfl
@[simp] theorem setLeat_offers (n : Nat) (x : Leat) : (s.setLeat n x).offers = s.offers := rfl
@[simp] theorem port_setPort (n : Nat) (x : Port) : (s.setPort n x).port n = x := tget_tins_same _ _ _ _
theorem port_setPort_ne {n m : Nat} (x : Port) (h : m ≠ n) : (s.setPort n x).port m = s.port m := tget_tins_ne _ _ _ h
@[simp] theorem setPort_offers (n : Nat) (x : Port) : (s.setPort n x).offers = s.offers := rfl

@[simp] theorem push_offers (is : List Instr) : (s.push is).offers = s.offers := rfl
@[simp] theorem push_core (is : List Instr) (c : Nat) : (s.push is).core c = s.core c := rfl
@[simp] theorem push_agenda (is : List Instr) : (s.push is).agenda = s.agenda ++ is := rfl
@[simp] theorem emit_offers (o : Output) : (s.emit o).offers = s.offers := rfl
@[simp] theorem emit_core (o : Output) (c : Nat) : (s.emit o).core c = s.core c := rfl
@[simp] theorem emit_outputs (o : Output) : (s.emit o).outputs = s.outputs ++ [o] := rfl

/-! ### Jobs, connections, the management controller, counters -/

@[simp] theorem job_setJob (id : Nat) (j : Job) : (s.setJob id j).job id = j := tget_tins_same _ _ _ _
theorem job_setJob_ne {id k : Nat} (j : Job) (h : k ≠ id) : (s.setJob id j).job k = s.job k := tget_tins_ne _ _ _ h
@[simp] theorem setJob_core (id c : Nat) (j : Job) : (s.setJob id j).core c = s.core c := rfl
@[simp] theorem setJob_part (id p : Nat) (j : Job) : (s.setJob id j).part p = s.part p := rfl
@[simp] theorem setJob_mill (id m : Nat) (j : Job) : (s.setJob id j).mill m = s.mill m := rfl
@[simp] theorem setJob_engines (id : Nat) (j : Job) : (s.setJob id j).engines = s.engines := rfl
@[simp] theorem setJob_waiters (id : Nat) (j : Job) : (s.setJob id j).waiters = s.waiters := rfl
@[simp] theorem setJob_hbm (id : Nat) (j : Job) : (s.setJob id j).hbm = s.hbm := rfl
@[simp] theorem setJob_banks (id : Nat) (j : Job) : (s.setJob id j).banks = s.banks := rfl
@[simp] theorem setJob_ctrs (id : Nat) (j : Job) : (s.setJob id j).ctrs = s.ctrs := rfl
@[simp] theorem setJob_offers (id : Nat) (j : Job) : (s.setJob id j).offers = s.offers := rfl
@[simp] theorem onMgmt_mgmt (f : Mgmt → Mgmt) : (s.onMgmt f).mgmt = f s.mgmt := rfl
@[simp] theorem onMgmt_core (f : Mgmt → Mgmt) (c : Nat) : (s.onMgmt f).core c = s.core c := rfl
@[simp] theorem onMgmt_part (f : Mgmt → Mgmt) (p : Nat) : (s.onMgmt f).part p = s.part p := rfl
@[simp] theorem onMgmt_hbm (f : Mgmt → Mgmt) : (s.onMgmt f).hbm = s.hbm := rfl
@[simp] theorem onMgmt_offers (f : Mgmt → Mgmt) : (s.onMgmt f).offers = s.offers := rfl
@[simp] theorem setCtr_core (h : Nat) (v : Word) (c : Nat) : (s.setCtr h v).core c = s.core c := rfl
@[simp] theorem setCtr_hbm (h : Nat) (v : Word) : (s.setCtr h v).hbm = s.hbm := rfl
@[simp] theorem setCtr_banks (h : Nat) (v : Word) : (s.setCtr h v).banks = s.banks := rfl
@[simp] theorem setCtr_waiters (h : Nat) (v : Word) : (s.setCtr h v).waiters = s.waiters := rfl
@[simp] theorem setCtr_offers (h : Nat) (v : Word) : (s.setCtr h v).offers = s.offers := rfl
@[simp] theorem onCore_part (c p : Nat) (f : Core → Core) : (s.onCore c f).part p = s.part p := rfl
@[simp] theorem onCore_job (c id : Nat) (f : Core → Core) : (s.onCore c f).job id = s.job id := rfl
@[simp] theorem onCore_hbm (c : Nat) (f : Core → Core) : (s.onCore c f).hbm = s.hbm := rfl
@[simp] theorem onCore_banks (c : Nat) (f : Core → Core) : (s.onCore c f).banks = s.banks := rfl
@[simp] theorem onCore_ctrs (c : Nat) (f : Core → Core) : (s.onCore c f).ctrs = s.ctrs := rfl
@[simp] theorem setConn_core (c d : Nat) (x : Conn) : (s.setConn c x).core d = s.core d := rfl
@[simp] theorem setConn_hbm (c : Nat) (x : Conn) : (s.setConn c x).hbm = s.hbm := rfl
@[simp] theorem setConn_port (c n : Nat) (x : Conn) : (s.setConn c x).port n = s.port n := rfl
@[simp] theorem setConn_offers (c : Nat) (x : Conn) : (s.setConn c x).offers = s.offers := rfl
@[simp] theorem setPart_hbm (p : Nat) (x : Partition) : (s.setPart p x).hbm = s.hbm := rfl
@[simp] theorem setPart_job (p id : Nat) (x : Partition) : (s.setPart p x).job id = s.job id := rfl
@[simp] theorem setPort_core (n c : Nat) (x : Port) : (s.setPort n x).core c = s.core c := rfl
@[simp] theorem setPort_part (n p : Nat) (x : Port) : (s.setPort n x).part p = s.part p := rfl
@[simp] theorem setPort_mgmt (n : Nat) (x : Port) : (s.setPort n x).mgmt = s.mgmt := rfl
@[simp] theorem setPort_outputs (n : Nat) (x : Port) : (s.setPort n x).outputs = s.outputs := rfl

/-! ### Decisions that wait (R427), and the CSRs of the management controller (R204) -/

@[simp] theorem defer_deferred (w : Work) : (s.defer w).mgmt.act.deferred = s.mgmt.act.deferred ++ [w] := rfl
@[simp] theorem defer_core (w : Work) (c : Nat) : (s.defer w).core c = s.core c := rfl
@[simp] theorem defer_part (w : Work) (p : Nat) : (s.defer w).part p = s.part p := rfl
@[simp] theorem defer_job (w : Work) (id : Nat) : (s.defer w).job id = s.job id := rfl
@[simp] theorem defer_hbm (w : Work) : (s.defer w).hbm = s.hbm := rfl
@[simp] theorem defer_offers (w : Work) : (s.defer w).offers = s.offers := rfl
@[simp] theorem firm_write_millmode (r : FirmRegs) (form : Nat) (a : Word) :
    r.write 0x030 form a = { r with millmode := csrWrite form 1 r.millmode a } := rfl
@[simp] theorem firm_write_bankrole (r : FirmRegs) (form : Nat) (a : Word) :
    r.write 0x031 form a = { r with bankrole := csrWrite form allOnes r.bankrole a } := rfl
@[simp] theorem firm_write_lattol (r : FirmRegs) (form : Nat) (a : Word) :
    r.write 0x200 form a = { r with lattol := csrWrite form 0xFFFFFFFF r.lattol a } := rfl
@[simp] theorem firm_write_agePeriod (r : FirmRegs) (form : Nat) (a : Word) :
    r.write 0x201 form a = { r with agePeriod := csrWrite form 0xFFFFFFFF r.agePeriod a } := rfl

end Sys2Proof.Machine
end

