-- ==== Sys2Proof/Laws/Slots.lean ====
section
/-! SUPPORT. What the shared operations of the slots can do: the gate of a slot operation, results in flight, and the forms of the scalar
instructions. -/

namespace Sys2Proof.Machine

@[simp] theorem onCore_core (s : State) (c : Nat) (f : Core → Core) : (s.onCore c f).core c = f (s.core c) := core_setCore s c _
theorem onCore_core_ne (s : State) {c d : Nat} (f : Core → Core) (h : d ≠ c) : (s.onCore c f).core d = s.core d := core_setCore_ne s _ h
@[simp] theorem onCore_onCore (s : State) (c : Nat) (f g : Core → Core) : (s.onCore c f).onCore c g = s.onCore c (fun x => g (f x)) := by
  simp [State.onCore]
@[simp] theorem onCore_cur (s : State) (c : Nat) (f : Core → Core) : (s.onCore c f).cur = s.cur := rfl
@[simp] theorem onCore_offers (s : State) (c : Nat) (f : Core → Core) : (s.onCore c f).offers = s.offers := rfl

/-- The gate of a slot operation, when it takes effect. -/
theorem slotOp_issues {slot g : Nat} {s : State} (h : Issues slot g s) (k : State → State) : slotOp slot g s k = k (s.atSlot slot) := by
  obtain ⟨h1, h2, h3, h4⟩ := h
  have : ¬ (s.cur.aborted || s.cur.frozen) = true := by simp [h1, h2]
  rw [slotOp, if_neg this, if_neg (by simp only [h3, h4]; decide)]
  rfl

/-- The gate of a slot operation, when its guard fails or it is masked: nothing but the cursor's slot. -/
theorem slotOp_skips {slot g : Nat} {s : State} (h1 : s.cur.aborted = false) (h2 : s.cur.frozen = false)
    (h : guardPasses s.curCore.live g = false ∨ s.curCore.masks.contains (s.cur.inst, slot) = true) (k : State → State) :
    slotOp slot g s k = s.atSlot slot := by
  rw [slotOp, if_neg (by simp [h1, h2])]
  rw [if_pos (by rcases h with h | h <;> simp only [h] <;> simp)]
  rfl

@[simp] theorem atSlot_cur_slot (s : State) (k : Nat) : (s.atSlot k).cur.slot = k := rfl
@[simp] theorem atSlot_cur_core (s : State) (k : Nat) : (s.atSlot k).cur.core = s.cur.core := rfl
@[simp] theorem atSlot_curCore (s : State) (k : Nat) : (s.atSlot k).curCore = s.curCore := rfl
@[simp] theorem atSlot_core (s : State) (k c : Nat) : (s.atSlot k).core c = s.core c := rfl
@[simp] theorem atSlot_sval (s : State) (k c : Nat) : (s.atSlot k).sval c = s.srcS k c := rfl
@[simp] theorem atSlot_vval (s : State) (k c : Nat) : (s.atSlot k).vval c = s.srcV k c := rfl

/-- Reading sources changes nothing but LATCHRD. -/
theorem reads_eq (s : State) (codes : List Nat) :
    reads s codes = if codes.any (readsUndef s.curCore.live s.cur.slot) then
      s.onCore s.cur.core (fun c => c.onLive fun a => a.orStatus 0x80) else s := by
  simp only [reads, noteReads]; rfl

/-- The issuing core after its sources are read. -/
theorem reads_curCore (s : State) (codes : List Nat) :
    (reads s codes).curCore =
      { s.curCore with live := { s.curCore.live with status := s.curCore.live.status ||| latchStatus s s.cur.slot codes } } := by
  simp only [reads_eq, latchStatus]
  split
  · show ((s.onCore s.cur.core _).core s.cur.core) = _
    rw [onCore_core]; rfl
  · simp
@[simp] theorem reads_cur (s : State) (codes : List Nat) : (reads s codes).cur = s.cur := by
  rw [reads_eq]; split <;> rfl
@[simp] theorem reads_sval (s : State) (codes : List Nat) (c : Nat) : (reads s codes).sval c = s.sval c := by
  simp only [State.sval, reads_curCore, reads_cur]; rfl
@[simp] theorem reads_vval (s : State) (codes : List Nat) (c : Nat) : (reads s codes).vval c = s.vval c := by
  simp only [State.vval, reads_curCore, reads_cur]; rfl
@[simp] theorem reads_pred (s : State) (codes : List Nat) (n : Nat) : (reads s codes).curCore.live.pred n = s.curCore.live.pred n := by
  rw [reads_curCore]; rfl
@[simp] theorem reads_loops (s : State) (codes : List Nat) : (reads s codes).curCore.live.loops = s.curCore.live.loops := by
  rw [reads_curCore]
@[simp] theorem reads_priv (s : State) (codes : List Nat) : (reads s codes).curCore.live.priv_ = s.curCore.live.priv_ := by
  rw [reads_curCore]
  simp only [Arch.priv_, latchStatus]
  have key : ∀ w : Word, bits (w ||| 0x80).toNat 15 14 = bits w.toNat 15 14 := by
    intro w
    simp only [bits, BitVec.toNat_or, Nat.shiftRight_or_distrib]
    show (w.toNat >>> 14 ||| 0) % _ = _
    rw [Nat.or_zero]
  split
  · exact key _
  · simp

theorem orStatus_eq (s : State) (st : Nat) :
    orStatus s st = if st = 0 then s else s.onCore s.cur.core fun c => c.onLive fun a => a.orStatus (BitVec.ofNat 64 st) := rfl

/-- A result behind status bits, as one change of the issuing core. -/
theorem deliver_one (s : State) (slot : Nat) (codes : List Nat) (st : Nat) (l : Landing) :
    addLanding (orStatus (reads (s.atSlot slot) codes) st) l = s.delivers slot codes st [l] := by
  simp only [reads_eq, orStatus_eq, atSlot_curCore, atSlot_cur_slot, State.delivers, latchStatus]
  by_cases hc : codes.any (readsUndef s.curCore.live slot) = true <;> by_cases h0 : st = 0 <;>
    simp [hc, h0, addLanding, Core.onLive, Arch.orStatus]

theorem orStatus_zero (s : State) : orStatus s 0 = s := rfl

theorem deliver_reads (s : State) (slot : Nat) (codes : List Nat) (l : Landing) :
    addLanding (reads (s.atSlot slot) codes) l = s.delivers slot codes 0 [l] := deliver_one s slot codes 0 l
theorem deliver_plain (s : State) (slot : Nat) (l : Landing) :
    addLanding (s.atSlot slot) l = s.delivers slot [] 0 [l] := deliver_one s slot [] 0 l

theorem result64_eq (slot d : Nat) (v : Word) (lat : Nat) : result64 slot (sDest d).1 (sDest d).2 v lat true = landS slot d v lat := by
  by_cases h : d < 32 <;> simp [result64, sDest, landS, mask64, h]

theorem giveS_eq (s : State) (slot d : Nat) (v : Word) (lat : Nat) : giveS s slot d v lat = addLanding s (landS slot d v lat) := by
  rw [giveS, result64_eq]
theorem giveP_eq (s : State) (slot d : Nat) (v m : Word) (lat : Nat) : giveP s slot d v m lat = addLanding s (landP slot d v m lat) := rfl
theorem giveK_eq (s : State) (slot d : Nat) (v m : Word) (lat : Nat) (b : Bool) :
    giveK s slot d v m lat b = addLanding s (landK slot d v m lat b) := rfl
theorem giveV_eq (s : State) (slot d : Nat) (v m : Vec) (lat : Nat) : giveV s slot d v m lat = addLanding s (landV slot d v m lat) := by
  by_cases h : d < 32
  · simp [giveV, vDest, landV, h]
  · by_cases h' : d < 40 <;> simp [giveV, vDest, landV, h, h']

/-- A scalar operation on two sources. -/
theorem opAB_issues {f : F3} {s : State} (h : Issues 0 f.g s) (lat : Nat) (res : Word → Word → Word × Nat) :
    opAB f lat s res = .next (s.delivers 0 [f.a, f.b] (res (s.srcS 0 f.a) (s.srcS 0 f.b)).2
      [landS 0 f.d (res (s.srcS 0 f.a) (s.srcS 0 f.b)).1 lat]) := by
  rw [opAB, slotOp_issues h]
  simp only [atSlot_sval, giveS_eq, deliver_one]
/-- A scalar operation on one source. -/
theorem opA_issues {f : F3} {s : State} (h : Issues 0 f.g s) (lat : Nat) (res : Word → Word) :
    opA f lat s res = .next (s.delivers 0 [f.a] 0 [landS 0 f.d (res (s.srcS 0 f.a)) lat]) := by
  rw [opA, slotOp_issues h]
  simp only [atSlot_sval, giveS_eq, deliver_reads]
/-- An immediate instruction. -/
theorem opImm_issues {f : FI} {s : State} (h : Issues 0 f.g s) (res : Word → Word → Word) :
    opImm f s res = .next (s.delivers 0 [f.a] 0 [landS 0 f.d (res (s.srcS 0 f.a) (immFI f)) 1]) := by
  rw [opImm, slotOp_issues h]
  simp only [atSlot_sval, giveS_eq, deliver_reads]

end Sys2Proof.Machine
end

