-- ==== Sys2Proof/Laws/Lanes.lean ====
section
/-! SUPPORT. What the shared operations of the vector slots can do: lanes packed into a register, the draws of a rounding, results lane by lane. -/

namespace Sys2Proof.Machine

theorem lane_eq (v : Vec) (w i : Nat) : lane v w i = v.toNat / 2 ^ (w * i) % 2 ^ w := by
  rw [lane, Nat.shiftRight_eq_div_pow]
theorem lane_lt (v : Vec) (w i : Nat) : lane v w i < 2 ^ w := Nat.mod_lt _ (Nat.two_pow_pos w)

/-! ### Packed lanes (R217) -/

theorem pack_lt (w : Nat) (xs : List Nat) : xs.foldr (fun x acc => x % 2 ^ w + acc * 2 ^ w) 0 < 2 ^ (w * xs.length) := by
  induction xs with
  | nil => simp
  | cons x xs ih =>
    have h1 := Nat.mod_lt x (Nat.two_pow_pos w)
    rw [List.foldr_cons, List.length_cons, Nat.mul_add, mul_one, Nat.pow_add, Nat.mul_comm]
    calc _ < 2 ^ w + 2 ^ w * List.foldr (fun x acc => x % 2 ^ w + acc * 2 ^ w) 0 xs := by omega
      _ = 2 ^ w * (List.foldr (fun x acc => x % 2 ^ w + acc * 2 ^ w) 0 xs + 1) := by ring
      _ ≤ 2 ^ w * 2 ^ (w * xs.length) := Nat.mul_le_mul_left _ ih
      _ = _ := Nat.mul_comm _ _

theorem pack_get (w : Nat) (xs : List Nat) (i : Nat) (h : i < xs.length) :
    xs.foldr (fun x acc => x % 2 ^ w + acc * 2 ^ w) 0 / 2 ^ (w * i) % 2 ^ w = xs[i] % 2 ^ w := by
  induction xs generalizing i with
  | nil => simp at h
  | cons x xs ih =>
    have h1 := Nat.mod_lt x (Nat.two_pow_pos w)
    cases i with
    | zero => simp
    | succ i =>
      rw [List.foldr_cons, Nat.mul_add, mul_one, Nat.add_comm (w * i), Nat.pow_add, ← Nat.div_div_eq_div_mul,
        Nat.add_mul_div_right _ _ (Nat.two_pow_pos w), Nat.div_eq_of_lt h1, Nat.zero_add]
      exact ih i (by simpa using h)

theorem lane_packLanes (w : Nat) (xs : List Nat) (i : Nat) (h : i < xs.length) (hw : w * xs.length ≤ 2048) :
    lane (packLanes w xs) w i = xs[i] % 2 ^ w := by
  rw [lane_eq, packLanes, BitVec.toNat_ofNat,
    Nat.mod_eq_of_lt (lt_of_lt_of_le (pack_lt w xs) (Nat.pow_le_pow_right (by decide) hw)), pack_get w xs i h]

/-- The status bits of lanes, over their indices. -/
theorem orAll_map (g : Nat → Nat × Nat) (n : Nat) :
    orAll ((List.range n).map g) = (List.range n).foldl (fun acc i => acc ||| (g i).2) 0 := by
  rw [orAll, List.foldl_map]

/-! ### Draws (R73, R221) -/

/-- A rounding finds its draws: what Draws says. -/
theorem withDraws_draws {s t : State} {rm : Nat} {u : Nat → Nat} (h : Draws s rm t u) (k : State → (Nat → Nat) → State) :
    withDraws s rm k = k t u := by
  rcases h with ⟨h, rfl, rfl⟩ | ⟨rfl, hd, hr, rfl, rfl⟩
  · simp [withDraws, h]
  · have : ((s.coreJob s.cur.core).det && !s.curCore.rngClaim) = false := by rcases hd with h | h <;> simp [h]
    simp only [withDraws, beq_self_eq_true, if_true, popRandom, this, Core.popWord, if_pos hr]
    rfl

@[simp] theorem onCore_curCore (s : State) (f : Core → Core) : (s.onCore s.cur.core f).curCore = f s.curCore := onCore_core s _ f
/-- A change of a core that keeps its job keeps what the job is. -/
theorem onCore_coreJob (s : State) (c d : Nat) (f : Core → Core) (h : (f (s.core c)).job = (s.core c).job) :
    (s.onCore c f).coreJob d = s.coreJob d := by
  by_cases hd : d = c
  · subst hd; simp only [State.coreJob, onCore_core, h]; rfl
  · simp only [State.coreJob, onCore_core_ne s f hd]; rfl
@[simp] theorem reads_coreJob (s : State) (codes : List Nat) (c : Nat) : (reads s codes).coreJob c = s.coreJob c := by
  rw [reads_eq]; split
  · exact onCore_coreJob s _ _ _ rfl
  · rfl
@[simp] theorem atSlot_coreJob (s : State) (k c : Nat) : (s.atSlot k).coreJob c = s.coreJob c := rfl
@[simp] theorem onArch_cur (s : State) (g : Arch → Arch) : (s.onArch g).cur = s.cur := rfl
@[simp] theorem onArch_curCore (s : State) (g : Arch → Arch) : (s.onArch g).curCore = { s.curCore with live := g s.curCore.live } :=
  onCore_core s _ _
theorem onArch_atSlot (s : State) (k : Nat) (g : Arch → Arch) : (s.onArch g).atSlot k = (s.atSlot k).onArch g := rfl

/-- A change of the live registers that leaves the latches and adds nothing to STATUS commutes with reading sources. -/
theorem reads_onArch (s : State) (codes : List Nat) (g : Arch → Arch) (hl : ∀ a, (g a).latch = a.latch)
    (hs : ∀ a x, g (a.orStatus x) = (g a).orStatus x) : reads (s.onArch g) codes = (reads s codes).onArch g := by
  have hr : readsUndef (g s.curCore.live) s.cur.slot = readsUndef s.curCore.live s.cur.slot := by
    funext c; simp only [readsUndef, latchCode, Arch.latchOf, hl]
  rw [reads_eq, reads_eq]
  simp only [onArch_curCore, onArch_cur, hr]
  split
  · simp only [State.onArch, onCore_cur, onCore_onCore, Core.onLive, hs]
  · rfl

/-- Reading sources and placing the slot commute with a draw. -/
theorem draws_reads {s t : State} {rm : Nat} {u : Nat → Nat} (h : Draws s rm t u) (slot : Nat) (codes : List Nat) :
    Draws (reads (s.atSlot slot) codes) rm (reads (t.atSlot slot) codes) u := by
  rcases h with ⟨h, rfl, rfl⟩ | ⟨rfl, hd, hr, rfl, rfl⟩
  · exact .inl ⟨h, rfl, rfl⟩
  · refine .inr ⟨rfl, ?_, ?_, ?_, ?_⟩
    · rw [reads_curCore, reads_coreJob, reads_cur]; exact hd
    · rw [reads_curCore]; exact hr
    · exact reads_onArch (s.atSlot slot) codes (fun a => { a with rngNext := a.rngNext + 1 }) (fun _ => rfl) (fun _ _ => rfl)
    · rw [reads_curCore]; rfl

/-- A draw changes the position in the range and no other register. -/
theorem draws_srcV {s t : State} {rm : Nat} {u : Nat → Nat} (h : Draws s rm t u) (slot code : Nat) : t.srcV slot code = s.srcV slot code := by
  rcases h with ⟨-, rfl, -⟩ | ⟨-, -, -, rfl, -⟩
  · rfl
  · simp only [State.srcV, onArch_curCore]; rfl
theorem draws_srcS {s t : State} {rm : Nat} {u : Nat → Nat} (h : Draws s rm t u) (slot code : Nat) : t.srcS slot code = s.srcS slot code := by
  rcases h with ⟨-, rfl, -⟩ | ⟨-, -, -, rfl, -⟩
  · rfl
  · simp only [State.srcS, onArch_curCore]; rfl
theorem draws_pred {s t : State} {rm : Nat} {u : Nat → Nat} (h : Draws s rm t u) (n : Nat) : t.curCore.live.pred n = s.curCore.live.pred n := by
  rcases h with ⟨-, rfl, -⟩ | ⟨-, -, -, rfl, -⟩
  · rfl
  · simp only [onArch_curCore]; rfl

/-! ### Results lane by lane (R218, R219) -/

/-- A vector behind status bits, as one change of the issuing core. -/
theorem giveV_delivers (s : State) (slot d st lat : Nat) (codes : List Nat) (v m : Vec) :
    giveV (orStatus (reads (s.atSlot slot) codes) st) slot d v m lat = s.delivers slot codes st [landV slot d v m lat] := by
  rw [giveV_eq, deliver_one]
/-- The lanes of a register that a V operation delivers: what DeliversLanes says. -/
theorem giveLanes_delivers (t : State) (f : F3) (codes : List Nat) (w lat : Nat) (g : Nat → Nat × Nat) (m : Word)
    (hm : t.curCore.live.pred (vMsk f) = m) :
    DeliversLanes t 1 codes f.d w lat (fun i => m.getLsbD (i * w / 32)) (groupMask m) g
      (.next (giveLanes (reads (t.atSlot 1) codes) f w lat g)) := by
  have hm' : vMask (reads (t.atSlot 1) codes) f = m := by rw [vMask, reads_pred]; exact hm
  have hst : orAll ((List.range (laneCount w)).map fun i => if activeLane m w i then g i else (0, 0)) =
      (List.range (2048 / w)).foldl (fun acc i => acc ||| if m.getLsbD (i * w / 32) then (g i).2 else 0) 0 := by
    rw [orAll_map]
    refine congrArg (fun h => List.foldl h 0 (List.range (2048 / w))) ?_
    funext acc i; simp only [activeLane]; split <;> simp_all
  refine ⟨packLanes w (((List.range (laneCount w)).map fun i => if activeLane m w i then g i else (0, 0)).map (·.1)), ?_, ?_⟩
  · simp only [giveLanes, hm']
    rw [giveV_delivers, hst]
  · intro i hi ha
    have hl : i < (((List.range (laneCount w)).map fun i => if activeLane m w i then g i else (0, 0)).map (·.1)).length := by
      simpa [laneCount] using hi
    rw [lane_packLanes _ _ _ hl (by simpa [laneCount] using Nat.mul_div_le 2048 w)]
    have ha' : activeLane m w i = true := ha
    simp [ha']

/-- A V operation on lanes, with the draws of its rounding (R218, R221): its lanes, at its latency. -/
theorem vLanes_delivers {f : F3} {s t : State} {u : Nat → Nat} (hi : Issues 1 f.g s) (hd : Draws s (vRm f) t u) (latI latF : Nat)
    (g : RMode → Nat → Nat → Nat → Nat → Nat → Nat × Nat) :
    let w := ltWidth f.fn
    let m := s.curCore.live.pred (vMsk f)
    DeliversLanes t 1 [f.a, f.b, vCs f] f.d w (if ltInt f.fn then latI else latF) (fun i => m.getLsbD (i * w / 32)) (groupMask m)
      (fun i => g (RMode.ofCode (vRm f)) (u i) i (lane (s.srcV 1 f.a) w i) (lane (s.srcV 1 f.b) w i) (lane (s.srcV 1 (vCs f)) w i))
      (vLanes f latI latF s g) := by
  simp only []
  rw [vLanes, slotOp_issues hi]
  simp only []
  rw [withDraws_draws (draws_reads hd 1 _)]
  simp only [reads_vval, atSlot_vval]
  exact giveLanes_delivers t f _ _ _ _ _ (draws_pred hd _)

end Sys2Proof.Machine
end

