-- ==== Sys2Proof/Laws/MemForm.lean ====
section
/-! SUPPORT. The canonical form of the memories (Safety.lean) through every operation of the machine: if the form holds before, it holds
after. Here: what the proofs about single operations share. -/

namespace Sys2Proof.Machine

/-- A record update that leaves the four memories alone keeps their form. -/
theorem memWf_of_same {s t : State} (h : s.memWf = true) (h1 : t.hbm = s.hbm) (h2 : t.banks = s.banks) (h3 : t.hostMem = s.hostMem)
    (h4 : t.mcram = s.mcram) : t.memWf = true := by
  unfold State.memWf at *; rw [h1, h2, h3, h4]; exact h
theorem memWf_foldl {α : Type} {f : State → α → State} {l : List α} {s : State} (h : s.memWf = true)
    (hf : ∀ t x, t.memWf = true → (f t x).memWf = true) : (l.foldl f s).memWf = true := by
  induction l generalizing s with
  | nil => exact h
  | cons x xs ih => exact ih (hf s x h)
theorem memWf_ite {c : Prop} [Decidable c] {s t : State} (hs : s.memWf = true) (ht : t.memWf = true) :
    (if c then s else t).memWf = true := by split <;> assumption
theorem putByte_memWf {s : State} (h : s.memWf = true) (l : Loc) (b : Byte) : (s.putByte l b).memWf = true := by
  simp only [State.memWf, Bool.and_eq_true] at h
  obtain ⟨⟨⟨h1, h2⟩, h3⟩, h4⟩ := h
  unfold State.putByte
  split
  · simp only [State.memWf, h1, h3, h4, Memory.write_wf _ _ h2, Bool.and_self]
  · simp only [State.memWf, h2, h3, h4, Memory.write_wf _ _ h1, Bool.and_self]
  · simp only [State.memWf, h1, h2, h4, Memory.write_wf _ _ h3, Bool.and_self]
  · simp only [State.memWf, h1, h2, h3, Memory.write_wf _ _ h4, Bool.and_self]
  · split <;> simp only [State.memWf, h1, h2, h3, h4, Bool.and_self]
theorem putBytes_memWf {s : State} (h : s.memWf = true) (l : Loc) (bs : List Byte) : (s.putBytes l bs).memWf = true := by
  induction bs generalizing s l with
  | nil => exact h
  | cons b bs ih => exact ih (putByte_memWf h l b) _
theorem zeroBanks_memWf {s : State} (h : s.memWf = true) (a n : Nat) : (zeroBanks s a n).memWf = true := by
  simp only [State.memWf, Bool.and_eq_true] at h
  obtain ⟨⟨⟨h1, h2⟩, h3⟩, h4⟩ := h
  have : Memory.wf (tcut s.banks a n) = true := twf_filter _ h2
  simp only [zeroBanks, State.memWf, h1, h3, h4, this, Bool.and_self]


/-- What an operation that may fail answers keeps the form. -/
def okWf {ε : Type} (r : Except ε State) : Prop := ∀ t, r = .ok t → t.memWf = true
def okWf1 {ε α : Type} (r : Except ε (State × α)) : Prop := ∀ t, r = .ok t → t.1.memWf = true
def okWf2 {ε α : Type} (r : Except ε (α × State)) : Prop := ∀ t, r = .ok t → t.2.memWf = true
def okWf22 {ε α β : Type} (r : Except ε (α × β × State)) : Prop := ∀ t, r = .ok t → t.2.2.memWf = true
def someWf (r : Option State) : Prop := ∀ t, r = some t → t.memWf = true
/-- A next state keeps the form. -/
def outWf (r : Out) : Prop := ∀ t, r = .next t → t.memWf = true
theorem okWf_ok {ε : Type} {t : State} (h : t.memWf = true) : okWf (ε := ε) (.ok t) := fun _ e => by cases e; exact h
theorem okWf_error {ε : Type} {e : ε} : okWf (.error e) := fun _ e => nomatch e
theorem okWf1_ok {ε α : Type} {t : State} {a : α} (h : t.memWf = true) : okWf1 (ε := ε) (.ok (t, a)) := fun _ e => by cases e; exact h
theorem okWf1_error {ε α : Type} {e : ε} : okWf1 (α := α) (.error e) := fun _ e => nomatch e
theorem okWf2_ok {ε α : Type} {t : State} {a : α} (h : t.memWf = true) : okWf2 (ε := ε) (.ok (a, t)) := fun _ e => by cases e; exact h
theorem okWf2_error {ε α : Type} {e : ε} : okWf2 (α := α) (.error e) := fun _ e => nomatch e
theorem okWf22_ok {ε α β : Type} {t : State} {a : α} {b : β} (h : t.memWf = true) : okWf22 (ε := ε) (.ok (a, b, t)) :=
  fun _ e => by cases e; exact h
theorem okWf22_error {ε α β : Type} {e : ε} : okWf22 (α := α) (β := β) (.error e) := fun _ e => nomatch e
theorem someWf_some {t : State} (h : t.memWf = true) : someWf (some t) := fun _ e => by cases e; exact h
theorem someWf_none : someWf none := fun _ e => nomatch e
theorem outWf_next {t : State} (h : t.memWf = true) : outWf (.next t) := fun _ e => by cases e; exact h
theorem memWf_of_ok {ε : Type} {r : Except ε State} {t : State} (e : r = .ok t) (h : okWf r) : t.memWf = true := h t e
theorem memWf_of_ok1 {ε α : Type} {r : Except ε (State × α)} {t : State} {a : α} (e : r = .ok (t, a)) (h : okWf1 r) : t.memWf = true := h _ e
theorem memWf_of_ok2 {ε α : Type} {r : Except ε (α × State)} {t : State} {a : α} (e : r = .ok (a, t)) (h : okWf2 r) : t.memWf = true := h _ e
theorem memWf_of_ok22 {ε α β : Type} {r : Except ε (α × β × State)} {t : State} {a : α} {b : β} (e : r = .ok (a, b, t)) (h : okWf22 r) :
    t.memWf = true := h _ e
theorem memWf_of_some {r : Option State} {t : State} (e : r = some t) (h : someWf r) : t.memWf = true := h t e
theorem memWf_of_fst {α : Type} {r : State × α} {t : State} {a : α} (e : r = (t, a)) (h : r.1.memWf = true) : t.memWf = true := by
  subst e; exact h
theorem memWf_of_snd {α : Type} {r : α × State} {t : State} {a : α} (e : r = (a, t)) (h : r.2.memWf = true) : t.memWf = true := by
  subst e; exact h
theorem memWf_of_ok1' {ε α : Type} {r : Except ε (State × α)} {x : State × α} (e : r = .ok x) (h : okWf1 r) : x.1.memWf = true := h _ e
theorem memWf_of_ok2' {ε α : Type} {r : Except ε (α × State)} {x : α × State} (e : r = .ok x) (h : okWf2 r) : x.2.memWf = true := h _ e
theorem memWf_of_next {r : Out} {t : State} (e : r = .next t) (h : outWf r) : t.memWf = true := h t e
theorem memWf_getD {o : Option State} {s : State} (h : s.memWf = true) (ho : ∀ t, o = some t → t.memWf = true) : (o.getD s).memWf = true := by
  cases o with
  | none => exact h
  | some t => exact ho t rfl
theorem memWf_mk_host {ticks draws timeShift mgmt outputs} {s : State} (h : s.memWf = true) :
    State.memWf
      { ticks := ticks, draws := draws, timeShift := timeShift, hostMem := s.hostMem, mgmt := mgmt,
        outputs := outputs } = true := by
  simp only [State.memWf, Bool.and_eq_true] at h ⊢
  exact ⟨⟨⟨rfl, rfl⟩, h.1.2⟩, rfl⟩
def ansWf (r : Except Nat Answer) : Prop := ∀ a, r = .ok a → a.st.memWf = true
theorem ansWf_ok {a : Answer} (h : a.st.memWf = true) : ansWf (.ok a) := fun _ e => by cases e; exact h
theorem ansWf_error {n : Nat} : ansWf (.error n) := fun _ e => nomatch e
theorem memWf_of_ans {r : Except Nat Answer} {a : Answer} (e : r = .ok a) (h : ansWf r) : a.st.memWf = true := h a e
def arrWf (r : Arrival) : Prop := ∀ t, (r = .placed t ∨ r = .notArmed t) → t.memWf = true
theorem arrWf_placed {t : State} (h : t.memWf = true) : arrWf (.placed t) := by rintro _ (e | e) <;> cases e; exact h
theorem arrWf_notArmed {t : State} (h : t.memWf = true) : arrWf (.notArmed t) := by rintro _ (e | e) <;> cases e; exact h
theorem arrWf_discard : arrWf .discard := by rintro _ (e | e) <;> cases e
theorem arrWf_stop : arrWf .stopSender := by rintro _ (e | e) <;> cases e
theorem memWf_of_placed {r : Arrival} {t : State} (e : r = .placed t) (h : arrWf r) : t.memWf = true := h t (.inl e)
theorem memWf_of_notArmed {r : Arrival} {t : State} (e : r = .notArmed t) (h : arrWf r) : t.memWf = true := h t (.inr e)
theorem fst_memWf_ite {α : Type} {c : Prop} [Decidable c] {x y : State × α} (hx : x.1.memWf = true) (hy : y.1.memWf = true) :
    (if c then x else y).1.memWf = true := by split <;> assumption
theorem someWf_map {α : Type} {f : α → State} {o : Option α} (h : ∀ x, (f x).memWf = true) : someWf (o.map f) := by
  intro t e
  obtain ⟨x, -, rfl⟩ := Option.map_eq_some_iff.mp e
  exact h x
theorem memWf_mk {xagenda} {xrunQueue} {xcur} {xticks} {xcycle} {xleatCycle} {xdraws} {xtimeShift} {xhbmForm} {xhbmWritten} {xbankForm} {xpoison} {xcores} {xmills} {xdies} {xctrs} {xwaiters} {xfirings} {xoffers} {xengines} {xnextCmd} {xparts} {xjobs} {xnextJob} {xkeys} {xhbmKeys} {xports} {xleats} {xmgmt} {xhostLost} {xlostAt} {xhostRefusals} {xthrottle} {xoutputs} (s : State) :
    (State.mk xagenda xrunQueue xcur xticks xcycle xleatCycle xdraws xtimeShift s.hbm s.banks s.hostMem s.mcram xhbmForm xhbmWritten xbankForm xpoison xcores xmills xdies xctrs xwaiters xfirings xoffers xengines xnextCmd xparts xjobs xnextJob xkeys xhbmKeys xports xleats xmgmt xhostLost xlostAt xhostRefusals xthrottle xoutputs).memWf = s.memWf := rfl

end Sys2Proof.Machine
end

