-- ==== Sys2Proof/Laws/MemFormOps.lean ====
section
/-! SUPPORT. The canonical form of the memories through the shared operations: if it holds before, it holds after. -/

set_option linter.unusedSimpArgs false

namespace Sys2Proof.Machine

theorem emit_memWf {s : State} (o : Output) (h : s.memWf = true) : (State.emit s o).memWf = true := by
  unfold State.emit
  try dsimp only
  repeat' (first
    | with_reducible assumption
    | with_reducible apply memWf_foldl
    | split
    | simp only [memWf_mk]
    | with_reducible intro)

theorem replyWith_memWf {s : State} (op : Nat) (tag : Nat) (status : Nat) (data : List Byte) (h : s.memWf = true) : (replyWith s op tag status data).memWf = true := by
  unfold replyWith
  try dsimp only
  repeat' (first
    | with_reducible assumption
    | with_reducible apply emit_memWf
    | with_reducible apply memWf_foldl
    | split
    | simp only [memWf_mk]
    | with_reducible intro)

theorem reply_memWf {s : State} (op : Nat) (tag : Nat) (status : Nat) (h : s.memWf = true) : (reply s op tag status).memWf = true := by
  unfold reply
  try dsimp only
  repeat' (first
    | with_reducible assumption
    | with_reducible apply replyWith_memWf
    | with_reducible apply memWf_foldl
    | split
    | simp only [memWf_mk]
    | with_reducible intro)

theorem onMgmt_memWf {s : State} (f : Mgmt → Mgmt) (h : s.memWf = true) : (State.onMgmt s f).memWf = true := by
  unfold State.onMgmt
  try dsimp only
  repeat' (first
    | with_reducible assumption
    | with_reducible apply memWf_foldl
    | split
    | simp only [memWf_mk]
    | with_reducible intro)

theorem waitReq_memWf {s : State} (r : Request) (h : s.memWf = true) : (waitReq s r).memWf = true := by
  unfold waitReq
  try dsimp only
  repeat' (first
    | with_reducible assumption
    | with_reducible apply onMgmt_memWf
    | with_reducible apply memWf_foldl
    | split
    | simp only [memWf_mk]
    | with_reducible intro)

theorem push_memWf {s : State} (is : List Instr) (h : s.memWf = true) : (State.push s is).memWf = true := by
  unfold State.push
  try dsimp only
  repeat' (first
    | with_reducible assumption
    | with_reducible apply memWf_foldl
    | split
    | simp only [memWf_mk]
    | with_reducible intro)

theorem askInvals_memWf {s : State} (h : s.memWf = true) : (askInvals s).memWf = true := by
  unfold askInvals
  try dsimp only
  repeat' (first
    | with_reducible assumption
    | with_reducible apply push_memWf
    | with_reducible apply memWf_foldl
    | split
    | simp only [memWf_mk]
    | with_reducible intro)

theorem setPart_memWf {s : State} (p : Nat) (x : Partition) (h : s.memWf = true) : (State.setPart s p x).memWf = true := by
  unfold State.setPart
  try dsimp only
  repeat' (first
    | with_reducible assumption
    | with_reducible apply memWf_foldl
    | split
    | simp only [memWf_mk]
    | with_reducible intro)

theorem recordAdd_memWf {s : State} (pid : Nat) (off : Nat) (n : Nat) (amount : Nat) (h : s.memWf = true) : (recordAdd s pid off n amount).memWf = true := by
  unfold recordAdd
  try dsimp only
  repeat' (first
    | with_reducible assumption
    | with_reducible apply setPart_memWf
    | with_reducible apply memWf_foldl
    | split
    | simp only [memWf_mk]
    | with_reducible intro)

theorem setCtr_memWf {s : State} (h1 : Nat) (v : Word) (h : s.memWf = true) : (State.setCtr s h1 v).memWf = true := by
  unfold State.setCtr
  try dsimp only
  repeat' (first
    | with_reducible assumption
    | with_reducible apply memWf_foldl
    | split
    | simp only [memWf_mk]
    | with_reducible intro)

theorem serveQueues_memWf {s : State} (pid : Nat) (h : s.memWf = true) : (serveQueues s pid).memWf = true := by
  unfold serveQueues
  try dsimp only
  repeat' (first
    | with_reducible assumption
    | with_reducible apply push_memWf
    | with_reducible apply memWf_foldl
    | split
    | simp only [memWf_mk]
    | with_reducible intro)

theorem noteDue_memWf {s : State} (pid : Nat) (h2 : Nat) (h : s.memWf = true) : (noteDue s pid h2).memWf = true := by
  unfold noteDue
  try dsimp only
  repeat' (first
    | with_reducible assumption
    | with_reducible apply serveQueues_memWf
    | with_reducible apply setPart_memWf
    | with_reducible apply memWf_foldl
    | split
    | simp only [memWf_mk]
    | with_reducible intro)

theorem ringBells_memWf {s : State} (h1 : Nat) (h : s.memWf = true) : (ringBells s h1).memWf = true := by
  unfold ringBells
  try dsimp only
  repeat' (first
    | with_reducible assumption
    | with_reducible apply noteDue_memWf
    | with_reducible apply memWf_foldl
    | split
    | simp only [memWf_mk]
    | with_reducible intro)

theorem queueFiring_memWf {s : State} (w : Waiter) (v : Word) (h : s.memWf = true) : (queueFiring s w v).memWf = true := by
  unfold queueFiring
  try dsimp only
  repeat' (first
    | with_reducible assumption
    | with_reducible apply memWf_foldl
    | split
    | simp only [memWf_mk]
    | with_reducible intro)

theorem setCore_memWf {s : State} (c : Nat) (x : Core) (h : s.memWf = true) : (State.setCore s c x).memWf = true := by
  unfold State.setCore
  try dsimp only
  repeat' (first
    | with_reducible assumption
    | with_reducible apply memWf_foldl
    | split
    | simp only [memWf_mk]
    | with_reducible intro)

theorem setJob_memWf {s : State} (id : Nat) (j : Job) (h : s.memWf = true) : (State.setJob s id j).memWf = true := by
  unfold State.setJob
  try dsimp only
  repeat' (first
    | with_reducible assumption
    | with_reducible apply memWf_foldl
    | split
    | simp only [memWf_mk]
    | with_reducible intro)

theorem onStrand_memWf {s : State} (job : Nat) (strand : Nat) (f : Core → Core) (h : s.memWf = true) : (onStrand s job strand f).memWf = true := by
  unfold onStrand
  try dsimp only
  repeat' (first
    | with_reducible assumption
    | with_reducible apply setCore_memWf
    | with_reducible apply setJob_memWf
    | with_reducible apply memWf_foldl
    | split
    | simp only [memWf_mk]
    | with_reducible intro)

theorem setDie_memWf {s : State} (d : Nat) (x : Die) (h : s.memWf = true) : (State.setDie s d x).memWf = true := by
  unfold State.setDie
  try dsimp only
  repeat' (first
    | with_reducible assumption
    | with_reducible apply memWf_foldl
    | split
    | simp only [memWf_mk]
    | with_reducible intro)

theorem setMill_memWf {s : State} (m : Nat) (x : Mill) (h : s.memWf = true) : (State.setMill s m x).memWf = true := by
  unfold State.setMill
  try dsimp only
  repeat' (first
    | with_reducible assumption
    | with_reducible apply memWf_foldl
    | split
    | simp only [memWf_mk]
    | with_reducible intro)

theorem wakeMill_memWf {s : State} (m : Nat) (h : s.memWf = true) : (wakeMill s m).memWf = true := by
  unfold wakeMill
  try dsimp only
  repeat' (first
    | with_reducible assumption
    | with_reducible apply setDie_memWf
    | with_reducible apply setMill_memWf
    | with_reducible apply memWf_foldl
    | split
    | simp only [memWf_mk]
    | with_reducible intro)

theorem wakeCore_memWf {s : State} (c : Nat) (h : s.memWf = true) : (wakeCore s c).memWf = true := by
  unfold wakeCore
  try dsimp only
  repeat' (first
    | with_reducible assumption
    | with_reducible apply wakeMill_memWf
    | with_reducible apply setCore_memWf
    | with_reducible apply memWf_foldl
    | split
    | simp only [memWf_mk]
    | with_reducible intro)

theorem wakeJob_memWf {s : State} (id : Nat) (h : s.memWf = true) : (wakeJob s id).memWf = true := by
  unfold wakeJob
  try dsimp only
  repeat' (first
    | with_reducible assumption
    | with_reducible apply push_memWf
    | with_reducible apply setJob_memWf
    | with_reducible apply memWf_foldl
    | split
    | simp only [memWf_mk]
    | with_reducible intro)

theorem setFlag_memWf {s : State} (job : Nat) (strand : Nat) (n : Nat) (timeout : Bool) (home : Nat) (h : s.memWf = true) : (setFlag s job strand n timeout home).memWf = true := by
  unfold setFlag
  try dsimp only
  repeat' (first
    | with_reducible assumption
    | with_reducible apply onStrand_memWf
    | with_reducible apply wakeCore_memWf
    | with_reducible apply wakeJob_memWf
    | with_reducible apply memWf_foldl
    | split
    | simp only [memWf_mk]
    | with_reducible intro)

theorem askAts_memWf {s : State} (die : Nat) (pid : Nat) (asp : Nat) (page : Nat) (h : s.memWf = true) : (askAts s die pid asp page).memWf = true := by
  unfold askAts
  try dsimp only
  repeat' (first
    | with_reducible assumption
    | with_reducible apply emit_memWf
    | with_reducible apply memWf_foldl
    | split
    | simp only [memWf_mk]
    | with_reducible intro)

theorem dropOnDie_memWf {s : State} (die : Nat) (p : TlbEnt → Bool) (h : s.memWf = true) : (dropOnDie s die p).memWf = true := by
  unfold dropOnDie
  try dsimp only
  repeat' (first
    | with_reducible assumption
    | with_reducible apply setDie_memWf
    | with_reducible apply memWf_foldl
    | split
    | simp only [memWf_mk]
    | with_reducible intro)

theorem dropAts_memWf {s : State} (die : Nat) (pid : Nat) (asp : Nat) (page : Nat) (h : s.memWf = true) : (dropAts s die pid asp page).memWf = true := by
  unfold dropAts
  try dsimp only
  repeat' (first
    | with_reducible assumption
    | with_reducible apply dropOnDie_memWf
    | with_reducible apply memWf_foldl
    | split
    | simp only [memWf_mk]
    | with_reducible intro)

theorem tickClock_memWf {s : State} (die : Nat) (h : s.memWf = true) : (tickClock s die).memWf = true := by
  unfold tickClock
  try dsimp only
  repeat' (first
    | with_reducible assumption
    | with_reducible apply setDie_memWf
    | with_reducible apply memWf_foldl
    | split
    | simp only [memWf_mk]
    | with_reducible intro)

theorem putPieces_memWf {s : State} (x1 : List Piece) (x2 : List Byte) (h : s.memWf = true) : (putPieces s x1 x2).memWf = true := by
  induction x1 generalizing s x2 with
  | nil =>
    unfold putPieces
    try dsimp only
    repeat' (first
      | with_reducible assumption
      | with_reducible apply putBytes_memWf
      | with_reducible apply memWf_foldl
      | split
      | simp only [memWf_mk]
      | with_reducible intro)
  | cons p ps ih =>
    unfold putPieces
    try dsimp only
    repeat' (first
      | with_reducible apply ih
      | with_reducible assumption
      | with_reducible apply putBytes_memWf
      | with_reducible apply memWf_foldl
      | split
      | simp only [memWf_mk]
      | with_reducible intro)

theorem wakeDie_memWf {s : State} (die : Nat) (h : s.memWf = true) : (wakeDie s die).memWf = true := by
  unfold wakeDie
  try dsimp only
  repeat' (first
    | with_reducible assumption
    | with_reducible apply setDie_memWf
    | with_reducible apply memWf_foldl
    | split
    | simp only [memWf_mk]
    | with_reducible intro)

theorem wakeWalks_memWf {s : State} (held : List TlbEnt) (es : List TlbEnt) (h : s.memWf = true) : (wakeWalks s held es).memWf = true := by
  unfold wakeWalks
  try dsimp only
  repeat' (first
    | with_reducible assumption
    | with_reducible apply wakeDie_memWf
    | with_reducible apply memWf_foldl
    | split
    | simp only [memWf_mk]
    | with_reducible intro)

theorem keepL2_memWf {s : State} (die : Nat) (es : List TlbEnt) (h : s.memWf = true) : (keepL2 s die es).memWf = true := by
  unfold keepL2
  try dsimp only
  repeat' (first
    | with_reducible assumption
    | with_reducible apply setDie_memWf
    | with_reducible apply wakeWalks_memWf
    | with_reducible apply memWf_foldl
    | split
    | simp only [memWf_mk]
    | with_reducible intro)

theorem noteWrite_memWf {s : State} (die : Nat) (r : List Piece × List TlbEnt) (h : s.memWf = true) : (noteWrite s die r).memWf = true := by
  unfold noteWrite
  try dsimp only
  repeat' (first
    | with_reducible assumption
    | with_reducible apply wakeDie_memWf
    | with_reducible apply keepL2_memWf
    | with_reducible apply memWf_foldl
    | split
    | simp only [memWf_mk]
    | with_reducible intro)

theorem fireNow_memWf {s : State} (w : Waiter) (v : Word) (h : s.memWf = true) : (fireNow s w v).memWf = true := by
  unfold fireNow
  try dsimp only
  repeat' (first
    | with_reducible assumption
    | with_reducible apply setFlag_memWf
    | with_reducible apply push_memWf
    | with_reducible apply setJob_memWf
    | with_reducible apply askAts_memWf
    | with_reducible apply queueFiring_memWf
    | with_reducible apply dropAts_memWf
    | with_reducible apply tickClock_memWf
    | with_reducible apply putPieces_memWf
    | with_reducible apply noteWrite_memWf
    | with_reducible apply memWf_foldl
    | split
    | simp only [memWf_mk]
    | with_reducible intro)

theorem fire_memWf {s : State} (w : Waiter) (v : Word) (h : s.memWf = true) : (fire s w v).memWf = true := by
  unfold fire
  try dsimp only
  repeat' (first
    | with_reducible assumption
    | with_reducible apply queueFiring_memWf
    | with_reducible apply fireNow_memWf
    | with_reducible apply memWf_foldl
    | split
    | simp only [memWf_mk]
    | with_reducible intro)

theorem applyAdd_memWf {s : State} (h1 : Nat) (a : Nat) (h : s.memWf = true) : (applyAdd s h1 a).memWf = true := by
  unfold applyAdd
  try dsimp only
  repeat' (first
    | with_reducible assumption
    | with_reducible apply setCtr_memWf
    | with_reducible apply ringBells_memWf
    | with_reducible apply fire_memWf
    | with_reducible apply memWf_foldl
    | split
    | simp only [memWf_mk]
    | with_reducible intro)

theorem wakeHome_memWf {s : State} (l : Loc) (h : s.memWf = true) : (wakeHome s l).memWf = true := by
  unfold wakeHome
  try dsimp only
  repeat' (first
    | with_reducible assumption
    | with_reducible apply wakeDie_memWf
    | with_reducible apply memWf_foldl
    | split
    | simp only [memWf_mk]
    | with_reducible intro)

theorem writeAt_memWf {s : State} (die : Nat) (l : Loc) (bs : List Byte) (h : s.memWf = true) : (writeAt s die l bs).memWf = true := by
  unfold writeAt
  try dsimp only
  repeat' (first
    | with_reducible assumption
    | with_reducible apply wakeHome_memWf
    | with_reducible apply tickClock_memWf
    | with_reducible apply putBytes_memWf
    | with_reducible apply memWf_foldl
    | split
    | simp only [memWf_mk]
    | with_reducible intro)

theorem writeRecord_memWf {s : State} (id : Nat) (rec : Bool → List Byte) (h : s.memWf = true) : (writeRecord s id rec).1.memWf = true := by
  unfold writeRecord
  try dsimp only
  repeat' (first
    | with_reducible assumption
    | with_reducible apply putBytes_memWf
    | with_reducible apply recordAdd_memWf
    | with_reducible apply setPart_memWf
    | with_reducible apply applyAdd_memWf
    | with_reducible apply push_memWf
    | with_reducible apply writeAt_memWf
    | with_reducible apply tickClock_memWf
    | with_reducible apply memWf_foldl
    | split
    | simp only [memWf_mk]
    | with_reducible intro)

theorem recordSet_memWf {s : State} (pid : Nat) (off : Nat) (n : Nat) (v : Nat) (h : s.memWf = true) : (recordSet s pid off n v).memWf = true := by
  unfold recordSet
  try dsimp only
  repeat' (first
    | with_reducible assumption
    | with_reducible apply setPart_memWf
    | with_reducible apply memWf_foldl
    | split
    | simp only [memWf_mk]
    | with_reducible intro)

theorem noteWatch_memWf {s : State} (id : Nat) (h : s.memWf = true) : (noteWatch s id).memWf = true := by
  unfold noteWatch
  try dsimp only
  repeat' (first
    | with_reducible assumption
    | with_reducible apply setJob_memWf
    | with_reducible apply memWf_foldl
    | split
    | simp only [memWf_mk]
    | with_reducible intro)

theorem noteLast_memWf {s : State} (id : Nat) (strand : Nat) (c : Nat) (h : s.memWf = true) : (noteLast s id strand c).memWf = true := by
  unfold noteLast
  try dsimp only
  repeat' (first
    | with_reducible assumption
    | with_reducible apply setJob_memWf
    | with_reducible apply memWf_foldl
    | split
    | simp only [memWf_mk]
    | with_reducible intro)

theorem leaveGroup_memWf {s : State} (id : Nat) (strand : Nat) (h : s.memWf = true) : (leaveGroup s id strand).memWf = true := by
  unfold leaveGroup
  try dsimp only
  repeat' (first
    | with_reducible assumption
    | with_reducible apply setJob_memWf
    | with_reducible apply memWf_foldl
    | split
    | simp only [memWf_mk]
    | with_reducible intro)

theorem removeStrandWaiters_memWf {s : State} (job : Nat) (strand : Nat) (h : s.memWf = true) : (removeStrandWaiters s job strand).memWf = true := by
  unfold removeStrandWaiters
  try dsimp only
  repeat' (first
    | with_reducible assumption
    | with_reducible apply setJob_memWf
    | with_reducible apply memWf_foldl
    | split
    | simp only [memWf_mk]
    | with_reducible intro)

theorem setStrand_memWf {s : State} (id : Nat) (strand : Nat) (at_ : StrandAt) (h : s.memWf = true) : (setStrand s id strand at_).memWf = true := by
  unfold setStrand
  try dsimp only
  repeat' (first
    | with_reducible assumption
    | with_reducible apply setJob_memWf
    | with_reducible apply memWf_foldl
    | split
    | simp only [memWf_mk]
    | with_reducible intro)

theorem undoCmd_memWf {s : State} (c : Nat) (x2 : BufCmd) (h : s.memWf = true) : (undoCmd s c x2).memWf = true := by
  unfold undoCmd
  try dsimp only
  repeat' (first
    | with_reducible assumption
    | with_reducible apply setPart_memWf
    | with_reducible apply memWf_foldl
    | split
    | simp only [memWf_mk]
    | with_reducible intro)

theorem onCore_memWf {s : State} (c : Nat) (f : Core → Core) (h : s.memWf = true) : (State.onCore s c f).memWf = true := by
  unfold State.onCore
  try dsimp only
  repeat' (first
    | with_reducible assumption
    | with_reducible apply setCore_memWf
    | with_reducible apply memWf_foldl
    | split
    | simp only [memWf_mk]
    | with_reducible intro)

theorem dropBuf_memWf {s : State} (c : Nat) (h : s.memWf = true) : (dropBuf s c).memWf = true := by
  unfold dropBuf
  try dsimp only
  repeat' (first
    | with_reducible assumption
    | with_reducible apply undoCmd_memWf
    | with_reducible apply onCore_memWf
    | with_reducible apply memWf_foldl
    | split
    | simp only [memWf_mk]
    | with_reducible intro)

theorem tryComplete_memWf {s : State} (id : Nat) (h : s.memWf = true) : (tryComplete s id).memWf = true := by
  unfold tryComplete
  try dsimp only
  repeat' (first
    | with_reducible assumption
    | with_reducible apply push_memWf
    | with_reducible apply memWf_foldl
    | split
    | simp only [memWf_mk]
    | with_reducible intro)

theorem endStrand_memWf {s : State} (c : Nat) (at_ : StrandAt) (h : s.memWf = true) : (endStrand s c at_).memWf = true := by
  unfold endStrand
  try dsimp only
  repeat' (first
    | with_reducible assumption
    | with_reducible apply noteWatch_memWf
    | with_reducible apply noteLast_memWf
    | with_reducible apply leaveGroup_memWf
    | with_reducible apply removeStrandWaiters_memWf
    | with_reducible apply setStrand_memWf
    | with_reducible apply dropBuf_memWf
    | with_reducible apply setCore_memWf
    | with_reducible apply tryComplete_memWf
    | with_reducible apply memWf_foldl
    | split
    | simp only [memWf_mk]
    | with_reducible intro)

theorem retryEngines_memWf {s : State} (h : s.memWf = true) : (retryEngines s).memWf = true := by
  unfold retryEngines
  try dsimp only
  repeat' (first
    | with_reducible assumption
    | with_reducible apply push_memWf
    | with_reducible apply memWf_foldl
    | split
    | simp only [memWf_mk]
    | with_reducible intro)

theorem stopHostless_memWf {s : State} (id : Nat) (h : s.memWf = true) : (stopHostless s id).memWf = true := by
  unfold stopHostless
  try dsimp only
  repeat' (first
    | with_reducible assumption
    | with_reducible apply retryEngines_memWf
    | with_reducible apply memWf_foldl
    | split
    | simp only [memWf_mk]
    | with_reducible intro)

theorem noteSuspended_memWf {s : State} (pid : Nat) (h : s.memWf = true) : (noteSuspended s pid).memWf = true := by
  unfold noteSuspended
  try dsimp only
  repeat' (first
    | with_reducible assumption
    | with_reducible apply recordSet_memWf
    | with_reducible apply memWf_foldl
    | split
    | simp only [memWf_mk]
    | with_reducible intro)

theorem runSaved_memWf {s : State} (id : Nat) (h : s.memWf = true) : (runSaved s id).memWf = true := by
  unfold runSaved
  try dsimp only
  repeat' (first
    | with_reducible assumption
    | with_reducible apply setJob_memWf
    | with_reducible apply push_memWf
    | with_reducible apply memWf_foldl
    | split
    | simp only [memWf_mk]
    | with_reducible intro)

theorem killJob_memWf {s : State} (id : Nat) (outcome : Nat) (code : Nat) (h : s.memWf = true) : (killJob s id outcome code).memWf = true := by
  unfold killJob
  try dsimp only
  repeat' (first
    | with_reducible assumption
    | with_reducible apply setJob_memWf
    | with_reducible apply endStrand_memWf
    | with_reducible apply tryComplete_memWf
    | with_reducible apply stopHostless_memWf
    | with_reducible apply push_memWf
    | with_reducible apply noteSuspended_memWf
    | with_reducible apply runSaved_memWf
    | with_reducible apply memWf_foldl
    | split
    | simp only [memWf_mk]
    | with_reducible intro)

theorem doubleFault_memWf {s : State} (id : Nat) (code : Nat) (h : s.memWf = true) : (doubleFault s id code).memWf = true := by
  unfold doubleFault
  try dsimp only
  repeat' (first
    | with_reducible assumption
    | with_reducible apply recordSet_memWf
    | with_reducible apply killJob_memWf
    | with_reducible apply memWf_foldl
    | split
    | simp only [memWf_mk]
    | with_reducible intro)

theorem retireCore_memWf {s : State} (c : Nat) (h : s.memWf = true) : (retireCore s c).memWf = true := by
  unfold retireCore
  try dsimp only
  repeat' (first
    | with_reducible assumption
    | with_reducible apply endStrand_memWf
    | with_reducible apply memWf_foldl
    | split
    | simp only [memWf_mk]
    | with_reducible intro)

theorem retireSaved_memWf {s : State} (id : Nat) (strand : Nat) (h : s.memWf = true) : (retireSaved s id strand).memWf = true := by
  unfold retireSaved
  try dsimp only
  repeat' (first
    | with_reducible assumption
    | with_reducible apply setStrand_memWf
    | with_reducible apply tryComplete_memWf
    | with_reducible apply leaveGroup_memWf
    | with_reducible apply removeStrandWaiters_memWf
    | with_reducible apply setJob_memWf
    | with_reducible apply runSaved_memWf
    | with_reducible apply memWf_foldl
    | split
    | simp only [memWf_mk]
    | with_reducible intro)

theorem retireStrand_memWf {s : State} (id : Nat) (strand : Nat) (h : s.memWf = true) : (retireStrand s id strand).memWf = true := by
  unfold retireStrand
  try dsimp only
  repeat' (first
    | with_reducible assumption
    | with_reducible apply retireCore_memWf
    | with_reducible apply retireSaved_memWf
    | with_reducible apply memWf_foldl
    | split
    | simp only [memWf_mk]
    | with_reducible intro)

theorem killGroup_memWf {s : State} (id : Nat) (g : Group) (h : s.memWf = true) : (killGroup s id g).memWf = true := by
  unfold killGroup
  try dsimp only
  repeat' (first
    | with_reducible assumption
    | with_reducible apply retireStrand_memWf
    | with_reducible apply memWf_foldl
    | split
    | simp only [memWf_mk]
    | with_reducible intro)

theorem killParent_memWf {s : State} (id : Nat) (code : Nat) (h : s.memWf = true) : (killParent s id code).memWf = true := by
  unfold killParent
  try dsimp only
  repeat' (first
    | with_reducible assumption
    | with_reducible apply killJob_memWf
    | with_reducible apply memWf_foldl
    | split
    | simp only [memWf_mk]
    | with_reducible intro)

theorem killPartition_memWf {s : State} (id : Nat) (code : Nat) (h : s.memWf = true) : (killPartition s id code).memWf = true := by
  unfold killPartition
  try dsimp only
  repeat' (first
    | with_reducible assumption
    | with_reducible apply killJob_memWf
    | with_reducible apply recordAdd_memWf
    | with_reducible apply memWf_foldl
    | split
    | simp only [memWf_mk]
    | with_reducible intro)

theorem killAt_memWf {s : State} (id : Nat) (strand : Nat) (level : Nat) (action : Nat) (code : Nat) (h : s.memWf = true) : (killAt s id strand level action code).memWf = true := by
  unfold killAt
  try dsimp only
  repeat' (first
    | with_reducible assumption
    | with_reducible apply retireStrand_memWf
    | with_reducible apply killGroup_memWf
    | with_reducible apply killJob_memWf
    | with_reducible apply killParent_memWf
    | with_reducible apply killPartition_memWf
    | with_reducible apply memWf_foldl
    | split
    | simp only [memWf_mk]
    | with_reducible intro)

theorem dropCmd_memWf {s : State} (id : Nat) (h : s.memWf = true) : (dropCmd s id).memWf = true := by
  unfold dropCmd
  try dsimp only
  repeat' (first
    | with_reducible assumption
    | with_reducible apply memWf_foldl
    | split
    | simp only [memWf_mk]
    | with_reducible intro)

theorem addPending_memWf {s : State} (c : Nat) (m : MOp) (code : Nat) (info : Nat) (h : s.memWf = true) : (addPending s c m code info).memWf = true := by
  unfold addPending
  try dsimp only
  repeat' (first
    | with_reducible assumption
    | with_reducible apply onCore_memWf
    | with_reducible apply dropCmd_memWf
    | with_reducible apply memWf_foldl
    | split
    | simp only [memWf_mk]
    | with_reducible intro)

theorem startTile_memWf {s : State} (c : Nat) (m : MOp) (h : s.memWf = true) : (startTile s c m).memWf = true := by
  unfold startTile
  try dsimp only
  repeat' (first
    | with_reducible assumption
    | with_reducible apply push_memWf
    | with_reducible apply onCore_memWf
    | with_reducible apply setMill_memWf
    | with_reducible apply wakeMill_memWf
    | with_reducible apply memWf_foldl
    | split
    | simp only [memWf_mk]
    | with_reducible intro)

theorem noteLocalReads_memWf {s : State} (c : Nat) (ps : List (Nat × Nat)) (h : s.memWf = true) : (noteLocalReads s c ps).memWf = true := by
  unfold noteLocalReads
  try dsimp only
  repeat' (first
    | with_reducible assumption
    | with_reducible apply onCore_memWf
    | with_reducible apply memWf_foldl
    | split
    | simp only [memWf_mk]
    | with_reducible intro)

theorem orStatus_memWf {s : State} (x : Nat) (h : s.memWf = true) : (orStatus s x).memWf = true := by
  unfold orStatus
  try dsimp only
  repeat' (first
    | with_reducible assumption
    | with_reducible apply onCore_memWf
    | with_reducible apply memWf_foldl
    | split
    | simp only [memWf_mk]
    | with_reducible intro)

theorem noteReads_memWf {s : State} (slot : Nat) (codes : List Nat) (h : s.memWf = true) : (noteReads s slot codes).memWf = true := by
  unfold noteReads
  try dsimp only
  repeat' (first
    | with_reducible assumption
    | with_reducible apply orStatus_memWf
    | with_reducible apply memWf_foldl
    | split
    | simp only [memWf_mk]
    | with_reducible intro)

theorem reads_memWf {s : State} (codes : List Nat) (h : s.memWf = true) : (reads s codes).memWf = true := by
  unfold reads
  try dsimp only
  repeat' (first
    | with_reducible assumption
    | with_reducible apply noteReads_memWf
    | with_reducible apply memWf_foldl
    | split
    | simp only [memWf_mk]
    | with_reducible intro)

theorem startOp_memWf {s : State} (c : Nat) (m : MOp) (h : s.memWf = true) : (startOp s c m).memWf = true := by
  unfold startOp
  try dsimp only
  repeat' (first
    | with_reducible assumption
    | with_reducible apply onCore_memWf
    | with_reducible apply addPending_memWf
    | with_reducible apply startTile_memWf
    | with_reducible apply noteLocalReads_memWf
    | with_reducible apply reads_memWf
    | with_reducible apply memWf_foldl
    | split
    | simp only [memWf_mk]
    | with_reducible intro)

theorem startRest_memWf (c : Nat) (ms : List MOp) : ∀ {s : State}, s.memWf = true → (startRest s c ms).memWf = true := by
  induction ms with
  | nil => exact fun h => h
  | cons m ms ih =>
    intro s h
    unfold startRest
    split
    · exact h
    · exact ih (startOp_memWf _ _ (onCore_memWf _ _ h))

theorem finishMatch_memWf {s : State} (c : Nat) (h : s.memWf = true) : (finishMatch s c).memWf = true := startRest_memWf c _ h

theorem rollbackCore_memWf {s : State} (c : Nat) (h : s.memWf = true) : (rollbackCore s c).memWf = true := by
  unfold rollbackCore
  try dsimp only
  repeat' (first
    | with_reducible assumption
    | with_reducible apply onCore_memWf
    | with_reducible apply finishMatch_memWf
    | with_reducible apply dropBuf_memWf
    | with_reducible apply memWf_foldl
    | split
    | simp only [memWf_mk]
    | with_reducible intro)

theorem rollback_memWf {s : State} (c : Nat) (h : s.memWf = true) : (rollback s c).memWf = true := by
  unfold rollback
  try dsimp only
  repeat' (first
    | with_reducible assumption
    | with_reducible apply rollbackCore_memWf
    | with_reducible apply memWf_foldl
    | split
    | simp only [memWf_mk]
    | with_reducible intro)

theorem requestPage_memWf {s : State} (die : Nat) (pid : Nat) (asp : Nat) (page : Nat) (h : s.memWf = true) : (requestPage s die pid asp page).memWf = true := by
  unfold requestPage
  try dsimp only
  repeat' (first
    | with_reducible assumption
    | with_reducible apply emit_memWf
    | with_reducible apply setDie_memWf
    | with_reducible apply memWf_foldl
    | split
    | simp only [memWf_mk]
    | with_reducible intro)

theorem holdOnPage_memWf {s : State} (c : Nat) (f : FaultAt) (h3 : Hold) (h : s.memWf = true) : (holdOnPage s c f h3).memWf = true := by
  unfold holdOnPage
  try dsimp only
  repeat' (first
    | with_reducible assumption
    | with_reducible apply onCore_memWf
    | with_reducible apply noteWatch_memWf
    | with_reducible apply requestPage_memWf
    | with_reducible apply dropAts_memWf
    | with_reducible apply memWf_foldl
    | split
    | simp only [memWf_mk]
    | with_reducible intro)

theorem applyAction_memWf {s : State} (c : Nat) (f : FaultAt) (level : Nat) (action : Nat) (h : s.memWf = true) : (applyAction s c f level action).memWf = true := by
  unfold applyAction
  try dsimp only
  repeat' (first
    | with_reducible assumption
    | with_reducible apply onCore_memWf
    | with_reducible apply killAt_memWf
    | with_reducible apply memWf_foldl
    | split
    | simp only [memWf_mk]
    | with_reducible intro)

theorem offerOnCore_memWf {s : State} (c : Nat) (f : FaultAt) (co : Course) (levels : List (Nat × Nat)) (h : s.memWf = true) : (offerOnCore s c f co levels).memWf = true := by
  unfold offerOnCore
  try dsimp only
  repeat' (first
    | with_reducible assumption
    | with_reducible apply writeRecord_memWf
    | with_reducible apply recordAdd_memWf
    | with_reducible apply applyAction_memWf
    | with_reducible apply doubleFault_memWf
    | (refine memWf_of_fst (by with_reducible assumption) ?_)
    | (refine memWf_of_snd (by with_reducible assumption) ?_)
    | with_reducible apply memWf_foldl
    | split
    | simp only [memWf_mk]
    | with_reducible intro)

theorem errorWaiting_memWf {s : State} (code : Nat) (h : s.memWf = true) : (errorWaiting s code).memWf = true := by
  unfold errorWaiting
  try dsimp only
  repeat' (first
    | with_reducible assumption
    | with_reducible apply memWf_foldl
    | split
    | simp only [memWf_mk]
    | with_reducible intro)

theorem takeFault_memWf {s : State} (c : Nat) (f : FaultAt) (fetch : Bool) (h : s.memWf = true) : (takeFault s c f fetch).memWf = true := by
  unfold takeFault
  try dsimp only
  repeat' (first
    | with_reducible assumption
    | with_reducible apply onCore_memWf
    | with_reducible apply rollback_memWf
    | with_reducible apply doubleFault_memWf
    | with_reducible apply holdOnPage_memWf
    | with_reducible apply offerOnCore_memWf
    | with_reducible apply errorWaiting_memWf
    | with_reducible apply memWf_foldl
    | split
    | simp only [memWf_mk]
    | with_reducible intro)

theorem offerEngine_memWf {s : State} (o : Offer) (h : s.memWf = true) : (offerEngine s o).memWf = true := by
  unfold offerEngine
  try dsimp only
  repeat' (first
    | with_reducible assumption
    | with_reducible apply recordAdd_memWf
    | with_reducible apply writeRecord_memWf
    | with_reducible apply doubleFault_memWf
    | with_reducible apply onCore_memWf
    | with_reducible apply killAt_memWf
    | with_reducible apply onStrand_memWf
    | (refine memWf_of_fst (by with_reducible assumption) ?_)
    | (refine memWf_of_snd (by with_reducible assumption) ?_)
    | with_reducible apply takeFault_memWf
    | with_reducible apply memWf_foldl
    | split
    | simp only [memWf_mk]
    | with_reducible intro)

theorem offerAll_memWf {s : State} (h : s.memWf = true) : (offerAll s).memWf = true := by
  unfold offerAll
  try dsimp only
  repeat' (first
    | with_reducible assumption
    | with_reducible apply askInvals_memWf
    | with_reducible apply offerEngine_memWf
    | with_reducible apply memWf_foldl
    | split
    | simp only [memWf_mk]
    | with_reducible intro)

theorem rekeyLine_memWf {s : State} (new : List Byte) (line : Nat) (h : s.memWf = true) : (rekeyLine s new line).memWf = true := by
  unfold rekeyLine
  split
  · exact h
  · split
    · exact h
    · simp only [State.memWf, Bool.and_eq_true] at h ⊢
      exact ⟨⟨⟨Memory.store_wf _ _ h.1.1.1, h.1.1.2⟩, h.1.2⟩, h.2⟩

theorem rekeyRange_memWf {s : State} (r : HbmRange) (h : s.memWf = true) : (rekeyRange s r).memWf = true := by
  unfold rekeyRange
  try dsimp only
  repeat' (first
    | with_reducible assumption
    | with_reducible apply rekeyLine_memWf
    | with_reducible apply memWf_foldl
    | split
    | simp only [memWf_mk]
    | with_reducible intro)

theorem rekeyPart_memWf {s : State} (p : Partition) (slot : Option Nat) (h : s.memWf = true) : (rekeyPart s p slot).memWf = true := by
  unfold rekeyPart
  try dsimp only
  repeat' (first
    | with_reducible assumption
    | with_reducible apply rekeyRange_memWf
    | with_reducible apply memWf_foldl
    | split
    | simp only [memWf_mk]
    | with_reducible intro)

theorem zeroQuads_memWf {s : State} (p : Partition) (h : s.memWf = true) : (zeroQuads s p).memWf = true := by
  unfold zeroQuads
  try dsimp only
  repeat' (first
    | with_reducible assumption
    | with_reducible apply zeroBanks_memWf
    | with_reducible apply memWf_foldl
    | split
    | simp only [memWf_mk]
    | with_reducible intro)

theorem zeroCounters_memWf {s : State} (p : Partition) (h : s.memWf = true) : (zeroCounters s p).memWf = true := by
  unfold zeroCounters
  try dsimp only
  repeat' (first
    | with_reducible assumption
    | with_reducible apply memWf_foldl
    | split
    | simp only [memWf_mk]
    | with_reducible intro)

theorem configure_memWf {s : State} (d : List Byte) (h : s.memWf = true) : (configure s d).memWf = true := by
  unfold configure
  try dsimp only
  repeat' (first
    | with_reducible assumption
    | with_reducible apply setPart_memWf
    | with_reducible apply zeroQuads_memWf
    | with_reducible apply zeroCounters_memWf
    | with_reducible apply memWf_foldl
    | split
    | simp only [memWf_mk]
    | with_reducible intro)

theorem changeDesc_memWf {s : State} (d : List Byte) (h : s.memWf = true) : (changeDesc s d).memWf = true := by
  unfold changeDesc
  try dsimp only
  repeat' (first
    | with_reducible assumption
    | with_reducible apply setPart_memWf
    | with_reducible apply memWf_foldl
    | split
    | simp only [memWf_mk]
    | with_reducible intro)

theorem removeHeld_memWf {s : State} (pid : Nat) (h : s.memWf = true) : (removeHeld s pid).memWf = true := by
  unfold removeHeld
  try dsimp only
  repeat' (first
    | with_reducible assumption
    | with_reducible apply memWf_foldl
    | split
    | simp only [memWf_mk]
    | with_reducible intro)

theorem askFor_memWf {t : State} (die : Nat) (pid : Nat) (asp : Nat) (x4 : Option Hold) (ht : t.memWf = true) : (askFor t die pid asp x4).memWf = true := by
  unfold askFor
  try dsimp only
  repeat' (first
    | with_reducible assumption
    | with_reducible apply requestPage_memWf
    | with_reducible apply memWf_foldl
    | split
    | simp only [memWf_mk]
    | with_reducible intro)

theorem sendWaiting_memWf {s : State} (die : Nat) (h : s.memWf = true) : (sendWaiting s die).memWf = true := by
  unfold sendWaiting
  try dsimp only
  repeat' (first
    | with_reducible assumption
    | with_reducible apply askFor_memWf
    | with_reducible apply requestPage_memWf
    | with_reducible apply memWf_foldl
    | split
    | simp only [memWf_mk]
    | with_reducible intro)

theorem clearPart_memWf {s : State} (pid : Nat) (h : s.memWf = true) : (clearPart s pid).memWf = true := by
  unfold clearPart
  try dsimp only
  repeat' (first
    | with_reducible assumption
    | with_reducible apply zeroQuads_memWf
    | with_reducible apply zeroCounters_memWf
    | with_reducible apply removeHeld_memWf
    | with_reducible apply memWf_foldl
    | split
    | simp only [memWf_mk]
    | with_reducible intro)

theorem freePart_memWf {s : State} (pid : Nat) (h : s.memWf = true) : (freePart s pid).memWf = true := by
  unfold freePart
  try dsimp only
  repeat' (first
    | with_reducible assumption
    | with_reducible apply zeroQuads_memWf
    | with_reducible apply zeroCounters_memWf
    | with_reducible apply removeHeld_memWf
    | with_reducible apply sendWaiting_memWf
    | with_reducible apply clearPart_memWf
    | with_reducible apply memWf_foldl
    | split
    | simp only [memWf_mk]
    | with_reducible intro)

theorem writeRec_memWf {s : State} (j : Job) (off : Nat) (bs : List Byte) (h : s.memWf = true) : (writeRec s j off bs).memWf = true := by
  unfold writeRec
  try dsimp only
  repeat' (first
    | with_reducible assumption
    | with_reducible apply putBytes_memWf
    | with_reducible apply writeAt_memWf
    | with_reducible apply memWf_foldl
    | split
    | simp only [memWf_mk]
    | with_reducible intro)

theorem writeStatus_memWf {s : State} (j : Job) (status : Nat) (fcode : Nat) (h : s.memWf = true) : (writeStatus s j status fcode).memWf = true := by
  unfold writeStatus
  try dsimp only
  repeat' (first
    | with_reducible assumption
    | with_reducible apply writeRec_memWf
    | with_reducible apply memWf_foldl
    | split
    | simp only [memWf_mk]
    | with_reducible intro)

theorem endClaims_memWf {s : State} (pid : Nat) (id : Nat) (h : s.memWf = true) : (endClaims s pid id).memWf = true := by
  unfold endClaims
  try dsimp only
  repeat' (first
    | with_reducible assumption
    | with_reducible apply setPart_memWf
    | with_reducible apply memWf_foldl
    | split
    | simp only [memWf_mk]
    | with_reducible intro)

theorem discardJob_memWf {s : State} (id : Nat) (h : s.memWf = true) : (discardJob s id).memWf = true := by
  unfold discardJob
  try dsimp only
  repeat' (first
    | with_reducible assumption
    | with_reducible apply setJob_memWf
    | with_reducible apply writeStatus_memWf
    | with_reducible apply endClaims_memWf
    | with_reducible apply setPart_memWf
    | with_reducible apply memWf_foldl
    | split
    | simp only [memWf_mk]
    | with_reducible intro)

theorem refuseAdds_memWf {s : State} (ks : List Sent) (h : s.memWf = true) : (refuseAdds s ks).memWf = true := by
  unfold refuseAdds
  try dsimp only
  repeat' (first
    | with_reducible assumption
    | with_reducible apply memWf_foldl
    | split
    | simp only [memWf_mk]
    | with_reducible intro)

theorem setConn_memWf {s : State} (c : Nat) (x : Conn) (h : s.memWf = true) : (State.setConn s c x).memWf = true := by
  unfold State.setConn
  try dsimp only
  repeat' (first
    | with_reducible assumption
    | with_reducible apply setPart_memWf
    | with_reducible apply memWf_foldl
    | split
    | simp only [memWf_mk]
    | with_reducible intro)

theorem unqueue_memWf {s : State} (cmd : Nat) (h : s.memWf = true) : (unqueue s cmd).memWf = true := by
  unfold unqueue
  try dsimp only
  repeat' (first
    | with_reducible assumption
    | with_reducible apply memWf_foldl
    | split
    | simp only [memWf_mk]
    | with_reducible intro)

theorem retryGraphs_memWf {s : State} (h : s.memWf = true) : (retryGraphs s).memWf = true := by
  unfold retryGraphs
  try dsimp only
  repeat' (first
    | with_reducible assumption
    | with_reducible apply push_memWf
    | with_reducible apply memWf_foldl
    | split
    | simp only [memWf_mk]
    | with_reducible intro)

theorem abandonGraph_memWf {s : State} (e : ECmd) (h : s.memWf = true) : (abandonGraph s e).memWf = true := by
  unfold abandonGraph
  try dsimp only
  repeat' (first
    | with_reducible assumption
    | with_reducible apply retryGraphs_memWf
    | with_reducible apply setDie_memWf
    | with_reducible apply memWf_foldl
    | split
    | simp only [memWf_mk]
    | with_reducible intro)

theorem stopEngine_memWf {s : State} (e : ECmd) (code : Nat) (info : Nat) (flags : Nat) (h : s.memWf = true) : (stopEngine s e code info flags).memWf = true := by
  unfold stopEngine
  try dsimp only
  repeat' (first
    | with_reducible assumption
    | with_reducible apply unqueue_memWf
    | with_reducible apply dropCmd_memWf
    | with_reducible apply abandonGraph_memWf
    | with_reducible apply push_memWf
    | with_reducible apply retryEngines_memWf
    | with_reducible apply memWf_foldl
    | split
    | simp only [memWf_mk]
    | with_reducible intro)

theorem stopById_memWf {s : State} (id : Nat) (h : s.memWf = true) : (stopById s id).memWf = true := by
  unfold stopById
  try dsimp only
  repeat' (first
    | with_reducible assumption
    | with_reducible apply stopEngine_memWf
    | with_reducible apply memWf_foldl
    | split
    | simp only [memWf_mk]
    | with_reducible intro)

theorem setLeat_memWf {s : State} (n : Nat) (x : Leat) (h : s.memWf = true) : (State.setLeat s n x).memWf = true := by
  unfold State.setLeat
  try dsimp only
  repeat' (first
    | with_reducible assumption
    | with_reducible apply memWf_foldl
    | split
    | simp only [memWf_mk]
    | with_reducible intro)

theorem leatEvent_memWf {s : State} (port : Nat) (code : Nat) (conn : Nat) (sub : Bool) (data : List Byte) (h : s.memWf = true) : (leatEvent s port code conn sub data).memWf = true := by
  unfold leatEvent
  try dsimp only
  repeat' (first
    | with_reducible assumption
    | with_reducible apply setLeat_memWf
    | with_reducible apply memWf_foldl
    | split
    | simp only [memWf_mk]
    | with_reducible intro)

theorem closeConn_memWf {s : State} (c : Nat) (reason : Nat) (h : s.memWf = true) : (closeConn s c reason).memWf = true := by
  unfold closeConn
  try dsimp only
  repeat' (first
    | with_reducible assumption
    | with_reducible apply refuseAdds_memWf
    | with_reducible apply setConn_memWf
    | with_reducible apply stopById_memWf
    | with_reducible apply push_memWf
    | with_reducible apply leatEvent_memWf
    | with_reducible apply memWf_foldl
    | split
    | simp only [memWf_mk]
    | with_reducible intro)

theorem drain_memWf {s : State} (pid : Nat) (h : s.memWf = true) : (drain s pid).memWf = true := by
  unfold drain
  try dsimp only
  repeat' (first
    | with_reducible assumption
    | with_reducible apply removeHeld_memWf
    | with_reducible apply setPart_memWf
    | with_reducible apply discardJob_memWf
    | with_reducible apply killJob_memWf
    | with_reducible apply closeConn_memWf
    | with_reducible apply push_memWf
    | with_reducible apply noteSuspended_memWf
    | with_reducible apply serveQueues_memWf
    | with_reducible apply memWf_foldl
    | split
    | simp only [memWf_mk]
    | with_reducible intro)

theorem dropEverywhere_memWf {s : State} (p : TlbEnt → Bool) (h : s.memWf = true) : (dropEverywhere s p).memWf = true := by
  unfold dropEverywhere
  try dsimp only
  repeat' (first
    | with_reducible assumption
    | with_reducible apply memWf_foldl
    | split
    | simp only [memWf_mk]
    | with_reducible intro)

theorem invalidateSpace_memWf {s : State} (pid : Nat) (asp : Nat) (va : Nat) (n : Nat) (h : s.memWf = true) : (invalidateSpace s pid asp va n).memWf = true := by
  unfold invalidateSpace
  try dsimp only
  repeat' (first
    | with_reducible assumption
    | with_reducible apply dropEverywhere_memWf
    | with_reducible apply memWf_foldl
    | split
    | simp only [memWf_mk]
    | with_reducible intro)

theorem waitInval_memWf {s : State} (k : Inval) (host : Bool) (h : s.memWf = true) : (waitInval s k host).memWf = true := by
  unfold waitInval
  try dsimp only
  repeat' (first
    | with_reducible assumption
    | with_reducible apply onMgmt_memWf
    | with_reducible apply onCore_memWf
    | with_reducible apply memWf_foldl
    | split
    | simp only [memWf_mk]
    | with_reducible intro)

theorem setPort_memWf {s : State} (n : Nat) (x : Port) (h : s.memWf = true) : (State.setPort s n x).memWf = true := by
  unfold State.setPort
  try dsimp only
  repeat' (first
    | with_reducible assumption
    | with_reducible apply memWf_foldl
    | split
    | simp only [memWf_mk]
    | with_reducible intro)

theorem sendFrame_memWf {s : State} (port : Nat) (o : Output) (h : s.memWf = true) : (sendFrame s port o).memWf = true := by
  unfold sendFrame
  try dsimp only
  repeat' (first
    | with_reducible assumption
    | with_reducible apply emit_memWf
    | with_reducible apply setPort_memWf
    | with_reducible apply push_memWf
    | with_reducible apply wakeDie_memWf
    | with_reducible apply memWf_foldl
    | split
    | simp only [memWf_mk]
    | with_reducible intro)

theorem sendOn_memWf {s : State} (port : Nat) (o : Output) (h : s.memWf = true) : (sendOn s port o).memWf = true := by
  unfold sendOn
  try dsimp only
  repeat' (first
    | with_reducible assumption
    | with_reducible apply sendFrame_memWf
    | with_reducible apply setPort_memWf
    | with_reducible apply memWf_foldl
    | split
    | simp only [memWf_mk]
    | with_reducible intro)

theorem sendCtl_memWf {s : State} (c : Nat) (o : Output) (h : s.memWf = true) : (sendCtl s c o).memWf = true := by
  unfold sendCtl
  try dsimp only
  repeat' (first
    | with_reducible assumption
    | with_reducible apply sendFrame_memWf
    | with_reducible apply sendOn_memWf
    | with_reducible apply memWf_foldl
    | split
    | simp only [memWf_mk]
    | with_reducible intro)

theorem rekeySlot_memWf {s : State} (slot : Nat) (h : s.memWf = true) : (rekeySlot s slot).memWf = true := by
  unfold rekeySlot
  try dsimp only
  repeat' (first
    | with_reducible assumption
    | with_reducible apply rekeyPart_memWf
    | with_reducible apply memWf_foldl
    | split
    | simp only [memWf_mk]
    | with_reducible intro)

theorem dropRequests_memWf {s : State} (pid : Nat) (asp : Nat) (h : s.memWf = true) : (dropRequests s pid asp).memWf = true := by
  unfold dropRequests
  try dsimp only
  repeat' (first
    | with_reducible assumption
    | with_reducible apply memWf_foldl
    | split
    | simp only [memWf_mk]
    | with_reducible intro)

theorem preemptJob_memWf {s : State} (id : Nat) (rejoins : Bool) (h : s.memWf = true) : (preemptJob s id rejoins).memWf = true := by
  unfold preemptJob
  try dsimp only
  repeat' (first
    | with_reducible assumption
    | with_reducible apply push_memWf
    | with_reducible apply setJob_memWf
    | with_reducible apply memWf_foldl
    | split
    | simp only [memWf_mk]
    | with_reducible intro)

theorem suspendJob_memWf {s : State} (id : Nat) (h : s.memWf = true) : (suspendJob s id).memWf = true := by
  unfold suspendJob
  try dsimp only
  repeat' (first
    | with_reducible assumption
    | with_reducible apply writeRecord_memWf
    | with_reducible apply doubleFault_memWf
    | with_reducible apply dropRequests_memWf
    | with_reducible apply dropEverywhere_memWf
    | with_reducible apply preemptJob_memWf
    | with_reducible apply setJob_memWf
    | (refine memWf_of_fst (by with_reducible assumption) ?_)
    | (refine memWf_of_snd (by with_reducible assumption) ?_)
    | with_reducible apply memWf_foldl
    | split
    | simp only [memWf_mk]
    | with_reducible intro)

theorem loseHost_memWf {s : State} (pid : Nat) (h : s.memWf = true) : (loseHost s pid).memWf = true := by
  unfold loseHost
  try dsimp only
  repeat' (first
    | with_reducible assumption
    | with_reducible apply noteSuspended_memWf
    | with_reducible apply suspendJob_memWf
    | with_reducible apply sendWaiting_memWf
    | with_reducible apply memWf_foldl
    | split
    | simp only [memWf_mk]
    | with_reducible intro)

theorem unsuspend_memWf {s : State} (id : Nat) (h : s.memWf = true) : (unsuspend s id).memWf = true := by
  unfold unsuspend
  try dsimp only
  repeat' (first
    | with_reducible assumption
    | with_reducible apply setJob_memWf
    | with_reducible apply memWf_foldl
    | split
    | simp only [memWf_mk]
    | with_reducible intro)

theorem resumeFirings_memWf {s : State} (may : Waiter → Bool) (h : s.memWf = true) : (resumeFirings s may).memWf = true := by
  unfold resumeFirings
  try dsimp only
  repeat' (first
    | with_reducible assumption
    | with_reducible apply fire_memWf
    | with_reducible apply memWf_foldl
    | split
    | simp only [memWf_mk]
    | with_reducible intro)

theorem updCmd_memWf {s : State} (e : ECmd) (h : s.memWf = true) : (updCmd s e).memWf = true := by
  unfold updCmd
  try dsimp only
  repeat' (first
    | with_reducible assumption
    | with_reducible apply memWf_foldl
    | split
    | simp only [memWf_mk]
    | with_reducible intro)

theorem setStage_memWf {s : State} (e : ECmd) (st : CmdStage) (h : s.memWf = true) : (setStage s e st).memWf = true := by
  unfold setStage
  try dsimp only
  repeat' (first
    | with_reducible assumption
    | with_reducible apply updCmd_memWf
    | with_reducible apply memWf_foldl
    | split
    | simp only [memWf_mk]
    | with_reducible intro)

theorem onForm_memWf {s : State} (l : Loc) (f : Nat → Nat) (h : s.memWf = true) : (State.onForm s l f).memWf = true := by
  unfold State.onForm
  try dsimp only
  repeat' (first
    | with_reducible assumption
    | with_reducible apply memWf_foldl
    | split
    | simp only [memWf_mk]
    | with_reducible intro)

theorem setForm_memWf {s : State} (l : Loc) (b : Bool) (h : s.memWf = true) : (State.setForm s l b).memWf = true := by
  unfold State.setForm
  try dsimp only
  repeat' (first
    | with_reducible assumption
    | with_reducible apply onForm_memWf
    | with_reducible apply memWf_foldl
    | split
    | simp only [memWf_mk]
    | with_reducible intro)

theorem landForm_memWf {s : State} (l : Loc) (cs : List Bool) (line : Nat) (h : s.memWf = true) : (landForm s l cs line).memWf = true := by
  unfold landForm
  try dsimp only
  repeat' (first
    | with_reducible assumption
    | with_reducible apply setForm_memWf
    | with_reducible apply onForm_memWf
    | with_reducible apply memWf_foldl
    | split
    | simp only [memWf_mk]
    | with_reducible intro)

theorem landPieces_memWf {s : State} (x1 : List Piece) (x2 : List Byte) (x3 : List Bool) (h : s.memWf = true) : (landPieces s x1 x2 x3).memWf = true := by
  induction x1 generalizing s x2 x3 with
  | nil =>
    unfold landPieces
    try dsimp only
    repeat' (first
      | with_reducible assumption
      | with_reducible apply putBytes_memWf
      | with_reducible apply landForm_memWf
      | with_reducible apply memWf_foldl
      | split
      | simp only [memWf_mk]
      | with_reducible intro)
  | cons p ps ih =>
    unfold landPieces
    try dsimp only
    repeat' (first
      | with_reducible apply ih
      | with_reducible assumption
      | with_reducible apply putBytes_memWf
      | with_reducible apply landForm_memWf
      | with_reducible apply memWf_foldl
      | split
      | simp only [memWf_mk]
      | with_reducible intro)

theorem landBefore_memWf {s : State} (die : Nat) (xs : List (Loc × List Byte × List Bool)) (h : s.memWf = true) : (landBefore s die xs).memWf = true := by
  unfold landBefore
  try dsimp only
  repeat' (first
    | with_reducible assumption
    | with_reducible apply tickClock_memWf
    | with_reducible apply landPieces_memWf
    | with_reducible apply wakeHome_memWf
    | with_reducible apply memWf_foldl
    | split
    | simp only [memWf_mk]
    | with_reducible intro)

theorem engineFltAt_memWf {s : State} (e : ECmd) (f : Flt) (die : Nat) (h : s.memWf = true) : (engineFltAt s e f die).memWf = true := by
  unfold engineFltAt
  try dsimp only
  repeat' (first
    | with_reducible assumption
    | with_reducible apply retryEngines_memWf
    | with_reducible apply dropCmd_memWf
    | with_reducible apply push_memWf
    | with_reducible apply askAts_memWf
    | with_reducible apply updCmd_memWf
    | with_reducible apply requestPage_memWf
    | with_reducible apply dropAts_memWf
    | with_reducible apply stopEngine_memWf
    | with_reducible apply landBefore_memWf
    | with_reducible apply memWf_foldl
    | split
    | simp only [memWf_mk]
    | with_reducible intro)

theorem engineFlt_memWf {s : State} (e : ECmd) (f : Flt) (h : s.memWf = true) : (engineFlt s e f).memWf = true := by
  unfold engineFlt
  try dsimp only
  repeat' (first
    | with_reducible assumption
    | with_reducible apply push_memWf
    | with_reducible apply retryEngines_memWf
    | with_reducible apply dropCmd_memWf
    | with_reducible apply askAts_memWf
    | with_reducible apply updCmd_memWf
    | with_reducible apply requestPage_memWf
    | with_reducible apply dropAts_memWf
    | with_reducible apply stopEngine_memWf
    | with_reducible apply engineFltAt_memWf
    | with_reducible apply memWf_foldl
    | split
    | simp only [memWf_mk]
    | with_reducible intro)

theorem mergeWith_memWf {s : State} (die : Nat) (clock : List Nat) (h : s.memWf = true) : (mergeWith s die clock).memWf = true := by
  unfold mergeWith
  try dsimp only
  repeat' (first
    | with_reducible assumption
    | with_reducible apply setDie_memWf
    | with_reducible apply memWf_foldl
    | split
    | simp only [memWf_mk]
    | with_reducible intro)

theorem mergeClock_memWf {s : State} (die : Nat) (home : Nat) (h : s.memWf = true) : (mergeClock s die home).memWf = true := by
  unfold mergeClock
  try dsimp only
  repeat' (first
    | with_reducible assumption
    | with_reducible apply mergeWith_memWf
    | with_reducible apply memWf_foldl
    | split
    | simp only [memWf_mk]
    | with_reducible intro)

theorem mergeFrom_memWf {s : State} (die : Nat) (home : Nat) (h : s.memWf = true) : (mergeFrom s die home).memWf = true := by
  unfold mergeFrom
  try dsimp only
  repeat' (first
    | with_reducible assumption
    | with_reducible apply mergeClock_memWf
    | with_reducible apply memWf_foldl
    | split
    | simp only [memWf_mk]
    | with_reducible intro)

theorem noteRead_memWf {s : State} (die : Nat) (r : List Piece × List TlbEnt) (h : s.memWf = true) : (noteRead s die r).memWf = true := by
  unfold noteRead
  try dsimp only
  repeat' (first
    | with_reducible assumption
    | with_reducible apply wakeDie_memWf
    | with_reducible apply mergeFrom_memWf
    | with_reducible apply keepL2_memWf
    | with_reducible apply memWf_foldl
    | split
    | simp only [memWf_mk]
    | with_reducible intro)

theorem noteRanges_memWf {s : State} (die : Nat) (pid : Nat) (asp : Nat) (rs : List (Nat × Nat)) (h : s.memWf = true) : (noteRanges s die pid asp rs).memWf = true := by
  unfold noteRanges
  try dsimp only
  repeat' (first
    | with_reducible assumption
    | with_reducible apply noteRead_memWf
    | with_reducible apply memWf_foldl
    | split
    | simp only [memWf_mk]
    | with_reducible intro)

theorem shareRead_memWf {s : State} (pid : Nat) (port : Nat) (k : Sent) (r : List Byte × List Bool) (h : s.memWf = true) : (shareRead s pid port k r).memWf = true := by
  unfold shareRead
  try dsimp only
  repeat' (first
    | with_reducible assumption
    | with_reducible apply setPart_memWf
    | with_reducible apply memWf_foldl
    | split
    | simp only [memWf_mk]
    | with_reducible intro)

theorem sendHead_memWf {s : State} (c : Nat) (h : s.memWf = true) : (sendHead s c).1.memWf = true := by
  unfold sendHead
  try dsimp only
  repeat' (first
    | with_reducible assumption
    | with_reducible apply engineFlt_memWf
    | with_reducible apply setConn_memWf
    | with_reducible apply noteRanges_memWf
    | with_reducible apply sendFrame_memWf
    | with_reducible apply shareRead_memWf
    | with_reducible apply engineFltAt_memWf
    | with_reducible apply memWf_foldl
    | split
    | simp only [memWf_mk]
    | with_reducible intro)

theorem pumpSome_memWf (c : Nat) (x1 : Nat) {x2 : State} (hx2 : x2.memWf = true) : (pumpSome c x1 x2).memWf = true := by
  induction x1 generalizing x2 with
  | zero =>
    unfold pumpSome
    try dsimp only
    repeat' (first
      | with_reducible assumption
      | with_reducible apply sendHead_memWf
      | (refine memWf_of_fst (by with_reducible assumption) ?_)
      | (refine memWf_of_snd (by with_reducible assumption) ?_)
      | with_reducible apply memWf_foldl
      | split
      | simp only [memWf_mk]
      | with_reducible intro)
  | succ n ih =>
    unfold pumpSome
    try dsimp only
    repeat' (first
      | with_reducible apply ih
      | with_reducible assumption
      | with_reducible apply sendHead_memWf
      | (refine memWf_of_fst (by with_reducible assumption) ?_)
      | (refine memWf_of_snd (by with_reducible assumption) ?_)
      | with_reducible apply memWf_foldl
      | split
      | simp only [memWf_mk]
      | with_reducible intro)

theorem pumpConn_memWf {s : State} (c : Nat) (h : s.memWf = true) : (pumpConn s c).memWf = true := by
  unfold pumpConn
  try dsimp only
  repeat' (first
    | with_reducible assumption
    | with_reducible apply pumpSome_memWf
    | with_reducible apply memWf_foldl
    | split
    | simp only [memWf_mk]
    | with_reducible intro)

theorem pushReady_memWf {s : State} (die : Nat) (slot : Nat) (g : Graph) (h : s.memWf = true) : (pushReady s die slot g).memWf = true := by
  unfold pushReady
  try dsimp only
  repeat' (first
    | with_reducible assumption
    | with_reducible apply push_memWf
    | with_reducible apply memWf_foldl
    | split
    | simp only [memWf_mk]
    | with_reducible intro)

theorem startCpy_memWf {s : State} (e : ECmd) (h : s.memWf = true) : (startCpy s e).memWf = true := by
  unfold startCpy
  try dsimp only
  repeat' (first
    | with_reducible assumption
    | with_reducible apply engineFlt_memWf
    | with_reducible apply push_memWf
    | with_reducible apply setStage_memWf
    | with_reducible apply wakeMill_memWf
    | with_reducible apply reads_memWf
    | with_reducible apply memWf_foldl
    | split
    | simp only [memWf_mk]
    | with_reducible intro)

theorem done_memWf {s : State} (h : s.memWf = true) : outWf (done s) := by
  unfold done
  try dsimp only
  repeat' (first
    | with_reducible assumption
    | with_reducible apply outWf_next
    | with_reducible apply offerAll_memWf
    | with_reducible apply memWf_foldl
    | split
    | simp only [memWf_mk]
    | with_reducible intro)

theorem resend_memWf {s : State} (c : Nat) (k : Sent) (path : Nat) (h : s.memWf = true) : (resend s c k path).memWf = true := by
  unfold resend
  try dsimp only
  repeat' (first
    | with_reducible assumption
    | with_reducible apply setConn_memWf
    | with_reducible apply engineFlt_memWf
    | with_reducible apply sendFrame_memWf
    | with_reducible apply engineFltAt_memWf
    | with_reducible apply memWf_foldl
    | split
    | simp only [memWf_mk]
    | with_reducible intro)

theorem resendHeld_memWf {s : State} (c : Nat) (h : s.memWf = true) : (resendHeld s c).memWf = true := by
  unfold resendHeld
  try dsimp only
  repeat' (first
    | with_reducible assumption
    | with_reducible apply resend_memWf
    | with_reducible apply setConn_memWf
    | with_reducible apply memWf_foldl
    | split
    | simp only [memWf_mk]
    | with_reducible intro)

theorem sendOut_memWf {s : State} (c : Nat) (h : s.memWf = true) : (sendOut s c).memWf = true := by
  unfold sendOut
  try dsimp only
  repeat' (first
    | with_reducible assumption
    | with_reducible apply pumpConn_memWf
    | with_reducible apply resendHeld_memWf
    | with_reducible apply memWf_foldl
    | split
    | simp only [memWf_mk]
    | with_reducible intro)

theorem sendOnward_memWf {s : State} (cmd : Nat) (h : s.memWf = true) : (sendOnward s cmd).memWf = true := by
  unfold sendOnward
  try dsimp only
  repeat' (first
    | with_reducible assumption
    | with_reducible apply sendOut_memWf
    | with_reducible apply memWf_foldl
    | split
    | simp only [memWf_mk]
    | with_reducible intro)

theorem resumeCmd_memWf {s : State} (e : ECmd) (h : s.memWf = true) : (resumeCmd s e).memWf = true := by
  unfold resumeCmd
  try dsimp only
  repeat' (first
    | with_reducible assumption
    | with_reducible apply setStage_memWf
    | with_reducible apply push_memWf
    | with_reducible apply pumpConn_memWf
    | with_reducible apply retryGraphs_memWf
    | with_reducible apply pushReady_memWf
    | with_reducible apply startCpy_memWf
    | with_reducible apply done_memWf
    | with_reducible apply sendOnward_memWf
    | with_reducible apply memWf_foldl
    | split
    | simp only [memWf_mk]
    | with_reducible intro)

theorem rehost_memWf {s : State} (pid : Nat) (h : s.memWf = true) : (rehost s pid).memWf = true := by
  unfold rehost
  try dsimp only
  repeat' (first
    | with_reducible assumption
    | with_reducible apply resumeFirings_memWf
    | with_reducible apply resumeCmd_memWf
    | with_reducible apply memWf_foldl
    | split
    | simp only [memWf_mk]
    | with_reducible intro)

theorem noteCorrected_memWf {s : State} (pid : Nat) (h : s.memWf = true) : (noteCorrected s pid).memWf = true := by
  unfold noteCorrected
  try dsimp only
  repeat' (first
    | with_reducible assumption
    | with_reducible apply recordAdd_memWf
    | with_reducible apply memWf_foldl
    | split
    | simp only [memWf_mk]
    | with_reducible intro)

theorem onAct_memWf {s : State} (f : Activation → Activation) (h : s.memWf = true) : (State.onAct s f).memWf = true := by
  unfold State.onAct
  try dsimp only
  repeat' (first
    | with_reducible assumption
    | with_reducible apply onMgmt_memWf
    | with_reducible apply memWf_foldl
    | split
    | simp only [memWf_mk]
    | with_reducible intro)

theorem measureAct_memWf {s : State} (h : s.memWf = true) : (measureAct s).memWf = true := by
  unfold measureAct
  try dsimp only
  repeat' (first
    | with_reducible assumption
    | with_reducible apply onAct_memWf
    | with_reducible apply memWf_foldl
    | split
    | simp only [memWf_mk]
    | with_reducible intro)

theorem draw_memWf {s : State} (h : s.memWf = true) : (State.draw s).2.memWf = true := by
  unfold State.draw
  try dsimp only
  repeat' (first
    | with_reducible assumption
    | with_reducible apply memWf_foldl
    | split
    | simp only [memWf_mk]
    | with_reducible intro)

theorem onLeat_memWf {s : State} (f : Leat → Leat) (h : s.memWf = true) : (State.onLeat s f).memWf = true := by
  unfold State.onLeat
  try dsimp only
  repeat' (first
    | with_reducible assumption
    | with_reducible apply setLeat_memWf
    | with_reducible apply memWf_foldl
    | split
    | simp only [memWf_mk]
    | with_reducible intro)

theorem setPoison_memWf {s : State} (l : Loc) (h : s.memWf = true) : (State.setPoison s l).memWf = true := by
  unfold State.setPoison
  try dsimp only
  repeat' (first
    | with_reducible assumption
    | with_reducible apply memWf_foldl
    | split
    | simp only [memWf_mk]
    | with_reducible intro)

theorem zeroLocals_memWf {s : State} (m : Nat) (h : s.memWf = true) : (zeroLocals s m).memWf = true := by
  unfold zeroLocals
  try dsimp only
  repeat' (first
    | with_reducible assumption
    | with_reducible apply setCtr_memWf
    | with_reducible apply memWf_foldl
    | split
    | simp only [memWf_mk]
    | with_reducible intro)

theorem freshMill_memWf (j : Job) {s : State} (m : Nat) (h : s.memWf = true) : (freshMill j s m).memWf = true := by
  unfold freshMill
  try dsimp only
  repeat' (first
    | with_reducible assumption
    | with_reducible apply zeroBanks_memWf
    | with_reducible apply wakeDie_memWf
    | with_reducible apply setMill_memWf
    | with_reducible apply zeroLocals_memWf
    | with_reducible apply memWf_foldl
    | split
    | simp only [memWf_mk]
    | with_reducible intro)

theorem offerContext_memWf {s : State} (id : Nat) (code : Nat) (info : Nat) (h : s.memWf = true) : (offerContext s id code info).memWf = true := by
  unfold offerContext
  try dsimp only
  repeat' (first
    | with_reducible assumption
    | with_reducible apply writeRecord_memWf
    | with_reducible apply doubleFault_memWf
    | with_reducible apply killAt_memWf
    | (refine memWf_of_fst (by with_reducible assumption) ?_)
    | (refine memWf_of_snd (by with_reducible assumption) ?_)
    | with_reducible apply memWf_foldl
    | split
    | simp only [memWf_mk]
    | with_reducible intro)

theorem abortRestore_memWf {s : State} (j : Job) (h : s.memWf = true) : (abortRestore s j).memWf = true := by
  unfold abortRestore
  try dsimp only
  repeat' (first
    | with_reducible assumption
    | with_reducible apply freshMill_memWf
    | with_reducible apply offerContext_memWf
    | with_reducible apply setJob_memWf
    | with_reducible apply killJob_memWf
    | with_reducible apply memWf_foldl
    | split
    | simp only [memWf_mk]
    | with_reducible intro)

theorem acceptMore_memWf {s : State} (pid : Nat) (h : s.memWf = true) : (acceptMore s pid).memWf = true := by
  unfold acceptMore
  try dsimp only
  repeat' (first
    | with_reducible assumption
    | with_reducible apply memWf_foldl
    | split
    | simp only [memWf_mk]
    | with_reducible intro)

theorem sendAck_memWf {s : State} (c : Nat) (credit : Nat) (path : Nat) (marked : Nat) (h : s.memWf = true) : (sendAck s c credit path marked).memWf = true := by
  unfold sendAck
  try dsimp only
  repeat' (first
    | with_reducible assumption
    | with_reducible apply sendCtl_memWf
    | with_reducible apply memWf_foldl
    | split
    | simp only [memWf_mk]
    | with_reducible intro)

theorem answerPacket_memWf {s : State} (p : Packet) (h : s.memWf = true) : (answerPacket s p).memWf = true := by
  unfold answerPacket
  try dsimp only
  repeat' (first
    | with_reducible assumption
    | with_reducible apply sendAck_memWf
    | with_reducible apply setConn_memWf
    | with_reducible apply memWf_foldl
    | split
    | simp only [memWf_mk]
    | with_reducible intro)

theorem acceptPacket_memWf {s : State} (p : Packet) (h : s.memWf = true) : (acceptPacket s p).memWf = true := by
  unfold acceptPacket
  try dsimp only
  repeat' (first
    | with_reducible assumption
    | with_reducible apply answerPacket_memWf
    | with_reducible apply setConn_memWf
    | with_reducible apply memWf_foldl
    | split
    | simp only [memWf_mk]
    | with_reducible intro)

theorem freeze_memWf {s : State} (page : Option Nat) (h : s.memWf = true) : (freeze s page).memWf = true := by
  unfold freeze
  try dsimp only
  repeat' (first
    | with_reducible assumption
    | with_reducible apply memWf_foldl
    | split
    | simp only [memWf_mk]
    | with_reducible intro)

theorem undoEffs_memWf {s : State} (c : Nat) (es : List Eff) (h : s.memWf = true) : (undoEffs s c es).memWf = true := by
  unfold undoEffs
  try dsimp only
  repeat' (first
    | with_reducible assumption
    | with_reducible apply undoCmd_memWf
    | with_reducible apply memWf_foldl
    | split
    | simp only [memWf_mk]
    | with_reducible intro)

theorem raiseFlt_memWf {s : State} (f : FaultAt) (h : s.memWf = true) : (raiseFlt s f).memWf = true := by
  unfold raiseFlt
  try dsimp only
  repeat' (first
    | with_reducible assumption
    | with_reducible apply undoEffs_memWf
    | with_reducible apply takeFault_memWf
    | with_reducible apply memWf_foldl
    | split
    | simp only [memWf_mk]
    | with_reducible intro)

theorem accessFail_memWf {s : State} (e : Flt) (h : s.memWf = true) : (accessFail s e).memWf = true := by
  unfold accessFail
  try dsimp only
  repeat' (first
    | with_reducible assumption
    | with_reducible apply freeze_memWf
    | with_reducible apply raiseFlt_memWf
    | with_reducible apply memWf_foldl
    | split
    | simp only [memWf_mk]
    | with_reducible intro)

theorem dropLines_memWf {s : State} (mill : Nat) (p : CacheLine → Bool) (h : s.memWf = true) : (dropLines s mill p).memWf = true := by
  unfold dropLines
  try dsimp only
  repeat' (first
    | with_reducible assumption
    | with_reducible apply setMill_memWf
    | with_reducible apply memWf_foldl
    | split
    | simp only [memWf_mk]
    | with_reducible intro)

theorem acquireCache_memWf {s : State} (c : Nat) (h : s.memWf = true) : (acquireCache s c).memWf = true := by
  unfold acquireCache
  try dsimp only
  repeat' (first
    | with_reducible assumption
    | with_reducible apply dropLines_memWf
    | with_reducible apply memWf_foldl
    | split
    | simp only [memWf_mk]
    | with_reducible intro)

theorem acquireFlags_memWf {s : State} (c : Nat) (mask : Nat) (h : s.memWf = true) : (acquireFlags s c mask).memWf = true := by
  unfold acquireFlags
  try dsimp only
  repeat' (first
    | with_reducible assumption
    | with_reducible apply mergeClock_memWf
    | with_reducible apply acquireCache_memWf
    | with_reducible apply memWf_foldl
    | split
    | simp only [memWf_mk]
    | with_reducible intro)

theorem acquireSeen_memWf {s : State} (c : Nat) (scope : Nat) (h : s.memWf = true) : (acquireSeen s c scope).memWf = true := by
  unfold acquireSeen
  try dsimp only
  repeat' (first
    | with_reducible assumption
    | with_reducible apply onCore_memWf
    | with_reducible apply mergeClock_memWf
    | with_reducible apply acquireCache_memWf
    | with_reducible apply memWf_foldl
    | split
    | simp only [memWf_mk]
    | with_reducible intro)

theorem addEff_memWf {s : State} (e : Eff) (h : s.memWf = true) : (addEff s e).memWf = true := by
  unfold addEff
  try dsimp only
  repeat' (first
    | with_reducible assumption
    | with_reducible apply memWf_foldl
    | split
    | simp only [memWf_mk]
    | with_reducible intro)

theorem addCmd_memWf {s : State} (k : BufCmd) (h : s.memWf = true) : (addCmd s k).memWf = true := by
  unfold addCmd
  try dsimp only
  repeat' (first
    | with_reducible assumption
    | with_reducible apply addEff_memWf
    | with_reducible apply memWf_foldl
    | split
    | simp only [memWf_mk]
    | with_reducible intro)

theorem addLanding_memWf {s : State} (l : Landing) (h : s.memWf = true) : (addLanding s l).memWf = true := by
  unfold addLanding
  try dsimp only
  repeat' (first
    | with_reducible assumption
    | with_reducible apply onCore_memWf
    | with_reducible apply memWf_foldl
    | split
    | simp only [memWf_mk]
    | with_reducible intro)

theorem afterAck_memWf {s : State} (c : Nat) (ks : List Sent) (h : s.memWf = true) : (afterAck s c ks).memWf = true := by
  unfold afterAck
  try dsimp only
  repeat' (first
    | with_reducible assumption
    | with_reducible apply push_memWf
    | with_reducible apply pumpConn_memWf
    | with_reducible apply sendOut_memWf
    | with_reducible apply memWf_foldl
    | split
    | simp only [memWf_mk]
    | with_reducible intro)

theorem leatOp_memWf (m : LM) {s : State} (k : State → Word → State) (h : s.memWf = true) (hk : ∀ t x0, t.memWf = true → (k t x0).memWf = true) : (leatOp m s k).memWf = true := by
  unfold leatOp
  try dsimp only
  repeat' (first
    | with_reducible assumption
    | with_reducible apply hk
    | with_reducible apply memWf_foldl
    | split
    | simp only [memWf_mk]
    | with_reducible intro)

theorem leatGive_memWf {s : State} (r : LeatResult) (left : Nat) (h : s.memWf = true) : (leatGive s r left).memWf = true := by
  unfold leatGive
  try dsimp only
  repeat' (first
    | with_reducible assumption
    | with_reducible apply onLeat_memWf
    | with_reducible apply memWf_foldl
    | split
    | simp only [memWf_mk]
    | with_reducible intro)

theorem answerAlgorithms_memWf (msg : List Byte) {s : State} (h : s.memWf = true) : ansWf (answerAlgorithms msg s) := by
  unfold answerAlgorithms
  try dsimp only
  repeat' (first
    | with_reducible assumption
    | with_reducible apply ansWf_ok
    | with_reducible exact ansWf_error
    | with_reducible apply memWf_foldl
    | split
    | simp only [memWf_mk]
    | with_reducible intro)

theorem answerCapabilities_memWf {s : State} (h : s.memWf = true) : ansWf (answerCapabilities s) := by
  unfold answerCapabilities
  try dsimp only
  repeat' (first
    | with_reducible assumption
    | with_reducible apply ansWf_ok
    | with_reducible exact ansWf_error
    | with_reducible apply memWf_foldl
    | split
    | simp only [memWf_mk]
    | with_reducible intro)

theorem answerCertificate_memWf (msg : List Byte) {s : State} (h : s.memWf = true) : ansWf (answerCertificate msg s) := by
  unfold answerCertificate
  try dsimp only
  repeat' (first
    | with_reducible assumption
    | with_reducible apply ansWf_ok
    | with_reducible exact ansWf_error
    | with_reducible apply memWf_foldl
    | split
    | simp only [memWf_mk]
    | with_reducible intro)

theorem setHash_memWf {s : State} (is : List Nat) (f : List Byte → List Byte) (h : s.memWf = true) : (setHash s is f).memWf = true := by
  unfold setHash
  try dsimp only
  repeat' (first
    | with_reducible assumption
    | with_reducible apply onMgmt_memWf
    | with_reducible apply memWf_foldl
    | split
    | simp only [memWf_mk]
    | with_reducible intro)

theorem randDraw_memWf {s : State} (h : s.memWf = true) : (randDraw s).2.memWf = true := by
  unfold randDraw
  try dsimp only
  repeat' (first
    | with_reducible assumption
    | with_reducible apply draw_memWf
    | with_reducible apply onMgmt_memWf
    | (refine memWf_of_fst (by with_reducible assumption) ?_)
    | (refine memWf_of_snd (by with_reducible assumption) ?_)
    | with_reducible apply memWf_foldl
    | split
    | simp only [memWf_mk]
    | with_reducible intro)

theorem nonceOf_memWf {s : State} (h : s.memWf = true) : (nonceOf s).2.memWf = true := by
  unfold nonceOf
  have : ∀ (l : List Nat) (r : List Byte × State), r.2.memWf = true →
      (l.foldl (fun r _ => let d := randDraw r.2; (r.1 ++ natLE 8 d.1.toNat, d.2)) r).2.memWf = true := by
    intro l
    induction l with
    | nil => exact fun _ hr => hr
    | cons x xs ih => exact fun r hr => ih _ (randDraw_memWf hr)
  exact this _ _ h

theorem answerChallenge_memWf (msg : List Byte) {s : State} (h : s.memWf = true) : ansWf (answerChallenge msg s) := by
  unfold answerChallenge
  try dsimp only
  repeat' (first
    | with_reducible assumption
    | with_reducible apply ansWf_ok
    | with_reducible exact ansWf_error
    | with_reducible apply setHash_memWf
    | with_reducible apply nonceOf_memWf
    | (refine memWf_of_fst (by with_reducible assumption) ?_)
    | (refine memWf_of_snd (by with_reducible assumption) ?_)
    | with_reducible apply memWf_foldl
    | split
    | simp only [memWf_mk]
    | with_reducible intro)

theorem answerCmd_memWf {s : State} (e : ECmd) (good : Bool) (code : Nat) (info : Nat) (flags : Nat) (h : s.memWf = true) : (answerCmd s e good code info flags).memWf = true := by
  unfold answerCmd
  try dsimp only
  repeat' (first
    | with_reducible assumption
    | with_reducible apply resumeCmd_memWf
    | with_reducible apply stopEngine_memWf
    | with_reducible apply memWf_foldl
    | split
    | simp only [memWf_mk]
    | with_reducible intro)

theorem releasePage_memWf {s : State} (c : Nat) (h : s.memWf = true) : (releasePage s c).memWf = true := by
  unfold releasePage
  try dsimp only
  repeat' (first
    | with_reducible assumption
    | with_reducible apply wakeCore_memWf
    | with_reducible apply noteWatch_memWf
    | with_reducible apply onCore_memWf
    | with_reducible apply memWf_foldl
    | split
    | simp only [memWf_mk]
    | with_reducible intro)

theorem offerPage_memWf {s : State} (c : Nat) (f : PendingFault) (h : s.memWf = true) : (offerPage s c f).memWf = true := by
  unfold offerPage
  try dsimp only
  repeat' (first
    | with_reducible assumption
    | with_reducible apply onCore_memWf
    | with_reducible apply noteWatch_memWf
    | with_reducible apply offerOnCore_memWf
    | with_reducible apply releasePage_memWf
    | with_reducible apply memWf_foldl
    | split
    | simp only [memWf_mk]
    | with_reducible intro)

theorem answerCore_memWf {s : State} (c : Nat) (good : Bool) (flags : Nat) (h : s.memWf = true) : (answerCore s c good flags).memWf = true := by
  unfold answerCore
  try dsimp only
  repeat' (first
    | with_reducible assumption
    | with_reducible apply onCore_memWf
    | with_reducible apply noteWatch_memWf
    | with_reducible apply offerPage_memWf
    | with_reducible apply releasePage_memWf
    | with_reducible apply memWf_foldl
    | split
    | simp only [memWf_mk]
    | with_reducible intro)

theorem answerMeasurements_memWf (msg : List Byte) {s : State} (h : s.memWf = true) : ansWf (answerMeasurements msg s) := by
  unfold answerMeasurements
  try dsimp only
  repeat' (first
    | with_reducible assumption
    | with_reducible apply ansWf_ok
    | with_reducible exact ansWf_error
    | with_reducible apply nonceOf_memWf
    | (refine memWf_of_fst (by with_reducible assumption) ?_)
    | (refine memWf_of_snd (by with_reducible assumption) ?_)
    | with_reducible apply memWf_foldl
    | split
    | simp only [memWf_mk]
    | with_reducible intro)

theorem keepStrand_memWf {s : State} (id : Nat) (strand : Nat) (f : Core → Core) (h : s.memWf = true) : (keepStrand s id strand f).memWf = true := by
  unfold keepStrand
  try dsimp only
  repeat' (first
    | with_reducible assumption
    | with_reducible apply setJob_memWf
    | with_reducible apply memWf_foldl
    | split
    | simp only [memWf_mk]
    | with_reducible intro)

theorem answerSaved_memWf {s : State} (id : Nat) (strand : Nat) (good : Bool) (flags : Nat) (h : s.memWf = true) : (answerSaved s id strand good flags).memWf = true := by
  unfold answerSaved
  try dsimp only
  repeat' (first
    | with_reducible assumption
    | with_reducible apply keepStrand_memWf
    | with_reducible apply wakeJob_memWf
    | with_reducible apply memWf_foldl
    | split
    | simp only [memWf_mk]
    | with_reducible intro)

theorem freeSlot_memWf {s : State} (die : Nat) (slot : Nat) (h : s.memWf = true) : (freeSlot s die slot).memWf = true := by
  unfold freeSlot
  try dsimp only
  repeat' (first
    | with_reducible assumption
    | with_reducible apply setDie_memWf
    | with_reducible apply memWf_foldl
    | split
    | simp only [memWf_mk]
    | with_reducible intro)

theorem answerSlot_memWf {s : State} (die : Nat) (slot : Nat) (a : Armed) (good : Bool) (code : Nat) (info : Nat) (flags : Nat) (h : s.memWf = true) : (answerSlot s die slot a good code info flags).memWf = true := by
  unfold answerSlot
  try dsimp only
  repeat' (first
    | with_reducible assumption
    | with_reducible apply setDie_memWf
    | with_reducible apply freeSlot_memWf
    | with_reducible apply memWf_foldl
    | split
    | simp only [memWf_mk]
    | with_reducible intro)

theorem answerPage_memWf {s : State} (die : Nat) (q : PageReq) (good : Bool) (h : s.memWf = true) : (answerPage s die q good).memWf = true := by
  unfold answerPage
  try dsimp only
  repeat' (first
    | with_reducible assumption
    | with_reducible apply answerCore_memWf
    | with_reducible apply answerSaved_memWf
    | with_reducible apply answerCmd_memWf
    | with_reducible apply answerSlot_memWf
    | with_reducible apply memWf_foldl
    | split
    | simp only [memWf_mk]
    | with_reducible intro)

theorem answerVersion_memWf {s : State} (h : s.memWf = true) : ansWf (answerVersion s) := by
  unfold answerVersion
  try dsimp only
  repeat' (first
    | with_reducible assumption
    | with_reducible apply ansWf_ok
    | with_reducible exact ansWf_error
    | with_reducible apply onMgmt_memWf
    | with_reducible apply setHash_memWf
    | with_reducible apply memWf_foldl
    | split
    | simp only [memWf_mk]
    | with_reducible intro)

theorem appendEvent_memWf {s : State} (pid : Nat) (rec : List Byte) (h : s.memWf = true) : (appendEvent s pid rec).memWf = true := by
  unfold appendEvent
  try dsimp only
  repeat' (first
    | with_reducible assumption
    | with_reducible apply setPart_memWf
    | with_reducible apply emit_memWf
    | with_reducible apply memWf_foldl
    | split
    | simp only [memWf_mk]
    | with_reducible intro)

theorem applyAck_memWf {s : State} (c : Nat) (cum : Nat) (bitmap : Nat) (credit : Nat) (h : s.memWf = true) : (applyAck s c cum bitmap credit).memWf = true := by
  unfold applyAck
  try dsimp only
  repeat' (first
    | with_reducible assumption
    | with_reducible apply afterAck_memWf
    | with_reducible apply setConn_memWf
    | with_reducible apply memWf_foldl
    | split
    | simp only [memWf_mk]
    | with_reducible intro)

theorem cmdPut_memWf {s : State} (e : ECmd) (va : Nat) (bs : List Byte) (h : s.memWf = true) : okWf (cmdPut s e va bs) := by
  unfold cmdPut
  try dsimp only
  repeat' (first
    | with_reducible assumption
    | with_reducible apply okWf_ok
    | with_reducible exact okWf_error
    | with_reducible apply tickClock_memWf
    | with_reducible apply landPieces_memWf
    | with_reducible apply noteWrite_memWf
    | with_reducible apply memWf_foldl
    | split
    | simp only [memWf_mk]
    | with_reducible intro)

theorem armSlot_memWf {s : State} (e : ECmd) (h : s.memWf = true) : okWf (armSlot s e) := by
  unfold armSlot
  try dsimp only
  repeat' (first
    | with_reducible assumption
    | with_reducible apply okWf_ok
    | with_reducible exact okWf_error
    | with_reducible apply cmdPut_memWf
    | with_reducible apply setDie_memWf
    | (refine memWf_of_ok (by with_reducible assumption) ?_)
    | with_reducible apply memWf_foldl
    | split
    | simp only [memWf_mk]
    | with_reducible intro)

theorem removeFlagWaiter_memWf {s : State} (job : Nat) (strand : Nat) (n : Nat) (h : s.memWf = true) : (removeFlagWaiter s job strand n).memWf = true := by
  unfold removeFlagWaiter
  try dsimp only
  repeat' (first
    | with_reducible assumption
    | with_reducible apply memWf_foldl
    | split
    | simp only [memWf_mk]
    | with_reducible intro)

theorem armWaiter_memWf {s : State} (w : Waiter) (h : s.memWf = true) : (armWaiter s w).memWf = true := by
  unfold armWaiter
  try dsimp only
  repeat' (first
    | with_reducible assumption
    | with_reducible apply removeFlagWaiter_memWf
    | with_reducible apply onStrand_memWf
    | with_reducible apply fire_memWf
    | with_reducible apply memWf_foldl
    | split
    | simp only [memWf_mk]
    | with_reducible intro)

theorem askClose_memWf {s : State} (k : Closing) (h : s.memWf = true) : (askClose s k).memWf = true := by
  unfold askClose
  try dsimp only
  repeat' (first
    | with_reducible assumption
    | with_reducible apply onCore_memWf
    | with_reducible apply memWf_foldl
    | split
    | simp only [memWf_mk]
    | with_reducible intro)

theorem measExtend_memWf {s : State} (n : Nat) (d : List Byte) (h : s.memWf = true) : (measExtend s n d).memWf = true := by
  unfold measExtend
  try dsimp only
  repeat' (first
    | with_reducible assumption
    | with_reducible apply memWf_foldl
    | split
    | simp only [memWf_mk]
    | with_reducible intro)

theorem setUpPort_memWf {s : State} (port : Nat) (h : s.memWf = true) : (setUpPort s port).memWf = true := by
  unfold setUpPort
  try dsimp only
  repeat' (first
    | with_reducible assumption
    | with_reducible apply setPort_memWf
    | with_reducible apply memWf_foldl
    | split
    | simp only [memWf_mk]
    | with_reducible intro)

theorem lctlWrite_memWf {s : State} (n : Nat) (val : Nat) (h : s.memWf = true) : (lctlWrite s n val).memWf = true := by
  unfold lctlWrite
  try dsimp only
  repeat' (first
    | with_reducible assumption
    | with_reducible apply setLeat_memWf
    | with_reducible apply memWf_foldl
    | split
    | simp only [memWf_mk]
    | with_reducible intro)

theorem startLeat_memWf (img : List Byte) {s : State} (n : Nat) (h : s.memWf = true) : (startLeat img s n).memWf = true := by
  unfold startLeat
  try dsimp only
  repeat' (first
    | with_reducible assumption
    | with_reducible apply lctlWrite_memWf
    | with_reducible apply setLeat_memWf
    | with_reducible apply memWf_foldl
    | split
    | simp only [memWf_mk]
    | with_reducible intro)

theorem startImage_memWf {s : State} (kind : Nat) (img : List Byte) (block : Option Nat) (h : s.memWf = true) : (startImage s kind img block).memWf = true := by
  unfold startImage
  dsimp only
  split
  · exact h
  split
  · exact h
  split
  · simp only [State.memWf, Bool.and_eq_true] at h ⊢
    exact ⟨h.1, Memory.store_wf 0 _ rfl⟩
  split
  · exact memWf_foldl (memWf_foldl h fun t x ht => startLeat_memWf _ _ ht) fun t x ht => setUpPort_memWf _ ht
  · exact memWf_foldl h fun t x ht => setCore_memWf _ _ ht

theorem bootKind_memWf {s : State} (kind : Nat) (h : s.memWf = true) : (bootKind s kind).memWf = true := by
  unfold bootKind
  try dsimp only
  repeat' (first
    | with_reducible assumption
    | with_reducible apply onMgmt_memWf
    | with_reducible apply measExtend_memWf
    | with_reducible apply startImage_memWf
    | with_reducible apply memWf_foldl
    | split
    | simp only [memWf_mk]
    | with_reducible intro)

theorem boot_memWf {s : State} (h : s.memWf = true) : (boot s).memWf = true := by
  unfold boot
  try dsimp only
  repeat' (first
    | with_reducible assumption
    | with_reducible apply measExtend_memWf
    | with_reducible apply onMgmt_memWf
    | with_reducible apply bootKind_memWf
    | with_reducible apply memWf_foldl
    | split
    | simp only [memWf_mk]
    | with_reducible intro)

theorem bumpStall_memWf {s : State} (c : Nat) (chan : Nat) (h : s.memWf = true) : (bumpStall s c chan).memWf = true := by
  unfold bumpStall
  try dsimp only
  repeat' (first
    | with_reducible assumption
    | with_reducible apply onCore_memWf
    | with_reducible apply setMill_memWf
    | with_reducible apply memWf_foldl
    | split
    | simp only [memWf_mk]
    | with_reducible intro)

theorem checkBlock_memWf {s : State} (c : Nat) (b : Nat) (h : s.memWf = true) : okWf (checkBlock s c b) := by
  unfold checkBlock
  try dsimp only
  repeat' (first
    | with_reducible assumption
    | with_reducible apply okWf_ok
    | with_reducible exact okWf_error
    | with_reducible apply onCore_memWf
    | with_reducible apply memWf_foldl
    | split
    | simp only [memWf_mk]
    | with_reducible intro)

theorem settleLoads_memWf {s : State} (c : Nat) (h : s.memWf = true) : (settleLoads s c).memWf = true := by
  unfold settleLoads
  try dsimp only
  repeat' (first
    | with_reducible assumption
    | with_reducible apply onCore_memWf
    | with_reducible apply memWf_foldl
    | split
    | simp only [memWf_mk]
    | with_reducible intro)

end Sys2Proof.Machine
end

