-- ==== Sys2Proof/Laws/MemFormUnits.lean ====
section
/-! SUPPORT. The canonical form of the memories through the operations of the units. -/

set_option linter.unusedSimpArgs false

namespace Sys2Proof.Machine

theorem storeHome_memWf {s : State} (c : Nat) (l : Loc) (bs : List Byte) (hint : Nat) (h : s.memWf = true) : (storeHome s c l bs hint).memWf = true := by
  unfold storeHome
  try dsimp only
  repeat' (first
    | with_reducible assumption
    | with_reducible apply putBytes_memWf
    | with_reducible apply wakeHome_memWf
    | with_reducible apply tickClock_memWf
    | with_reducible apply setMill_memWf
    | with_reducible apply writeAt_memWf
    | with_reducible apply memWf_foldl
    | split
    | simp only [memWf_mk]
    | with_reducible intro)

theorem enqueue_memWf {s : State} (c : Nat) (k : Sent) (h : s.memWf = true) : (enqueue s c k).memWf = true := by
  unfold enqueue
  try dsimp only
  repeat' (first
    | with_reducible assumption
    | with_reducible apply setConn_memWf
    | with_reducible apply memWf_foldl
    | split
    | simp only [memWf_mk]
    | with_reducible intro)

theorem refuseAdd_memWf {s : State} (by_ : Issuer) (h2 : Nat) (slot : Nat) (h : s.memWf = true) : (refuseAdd s by_ h2 slot).memWf = true := by
  unfold refuseAdd
  try dsimp only
  repeat' (first
    | with_reducible assumption
    | with_reducible apply memWf_foldl
    | split
    | simp only [memWf_mk]
    | with_reducible intro)

theorem doAdd_memWf {s : State} (h1 : Nat) (a : Nat) (by_ : Issuer) (slot : Nat) (h : s.memWf = true) : (doAdd s h1 a by_ slot).memWf = true := by
  unfold doAdd
  try dsimp only
  repeat' (first
    | with_reducible assumption
    | with_reducible apply pumpConn_memWf
    | with_reducible apply enqueue_memWf
    | with_reducible apply refuseAdd_memWf
    | with_reducible apply applyAdd_memWf
    | with_reducible apply memWf_foldl
    | split
    | simp only [memWf_mk]
    | with_reducible intro)

theorem releaseEngine_memWf {s : State} (c : Nat) (id : Nat) (h : s.memWf = true) : (releaseEngine s c id).memWf = true := by
  unfold releaseEngine
  try dsimp only
  repeat' (first
    | with_reducible assumption
    | with_reducible apply push_memWf
    | with_reducible apply wakeDie_memWf
    | with_reducible apply memWf_foldl
    | split
    | simp only [memWf_mk]
    | with_reducible intro)

theorem performAccv_memWf {s : State} (c : Nat) (by_ : Issuer) (l : Loc) (lt : Nat) (sub : Nat) (mask : Vec) (val : Vec) (h : s.memWf = true) : (performAccv s c by_ l lt sub mask val).memWf = true := by
  unfold performAccv
  try dsimp only
  repeat' (first
    | with_reducible assumption
    | with_reducible apply putBytes_memWf
    | with_reducible apply wakeHome_memWf
    | with_reducible apply tickClock_memWf
    | with_reducible apply dropLines_memWf
    | with_reducible apply writeAt_memWf
    | with_reducible apply memWf_foldl
    | split
    | simp only [memWf_mk]
    | with_reducible intro)

theorem unreserveDep_memWf {s : State} (pid : Nat) (rec : List Byte) (h : s.memWf = true) : (unreserveDep s pid rec).memWf = true := by
  unfold unreserveDep
  try dsimp only
  repeat' (first
    | with_reducible assumption
    | with_reducible apply setPart_memWf
    | with_reducible apply memWf_foldl
    | split
    | simp only [memWf_mk]
    | with_reducible intro)

theorem stampJob_memWf {s : State} (die : Nat) (h : s.memWf = true) : (stampJob s die).memWf = true := by
  unfold stampJob
  try dsimp only
  repeat' (first
    | with_reducible assumption
    | with_reducible apply setJob_memWf
    | with_reducible apply memWf_foldl
    | split
    | simp only [memWf_mk]
    | with_reducible intro)

theorem submit_memWf {s : State} (pid : Nat) (rec : List Byte) (loc : Loc) (depth : Nat) (parent : Option Nat) (key : List Nat) (launched : Bool) (h : s.memWf = true) : (submit s pid rec loc depth parent key launched).memWf = true := by
  unfold submit
  try dsimp only
  repeat' (first
    | with_reducible assumption
    | with_reducible apply writeStatus_memWf
    | with_reducible apply setJob_memWf
    | with_reducible apply setPart_memWf
    | with_reducible apply push_memWf
    | with_reducible apply armWaiter_memWf
    | with_reducible apply memWf_foldl
    | split
    | simp only [memWf_mk]
    | with_reducible intro)

theorem nextSubmission_memWf {s : State} (pid : Nat) (h : s.memWf = true) : (nextSubmission s pid).2.memWf = true := by
  unfold nextSubmission
  try dsimp only
  repeat' (first
    | with_reducible assumption
    | with_reducible apply setPart_memWf
    | with_reducible apply memWf_foldl
    | split
    | simp only [memWf_mk]
    | with_reducible intro)

theorem launchRelease_memWf {s0 : State} (c : Nat) (by_ : Issuer) (rec : List Byte) (loc : Loc) (hs0 : s0.memWf = true) : (launchRelease s0 c by_ rec loc).memWf = true := by
  unfold launchRelease
  try dsimp only
  repeat' (first
    | with_reducible assumption
    | with_reducible apply unreserveDep_memWf
    | with_reducible apply setJob_memWf
    | with_reducible apply stampJob_memWf
    | with_reducible apply submit_memWf
    | with_reducible apply nextSubmission_memWf
    | (refine memWf_of_fst (by with_reducible assumption) ?_)
    | (refine memWf_of_snd (by with_reducible assumption) ?_)
    | with_reducible apply memWf_foldl
    | split
    | simp only [memWf_mk]
    | with_reducible intro)

theorem addFrom_memWf {s : State} (die : Nat) (h1 : Nat) (a : Nat) (by_ : Issuer) (slot : Nat) (h : s.memWf = true) : (addFrom s die h1 a by_ slot).memWf = true := by
  unfold addFrom
  try dsimp only
  repeat' (first
    | with_reducible assumption
    | with_reducible apply tickClock_memWf
    | with_reducible apply doAdd_memWf
    | with_reducible apply memWf_foldl
    | split
    | simp only [memWf_mk]
    | with_reducible intro)

theorem performCmd_memWf {s : State} (c : Nat) (by_ : Issuer) (x3 : BufCmd) (h : s.memWf = true) : (performCmd s c by_ x3).memWf = true := by
  unfold performCmd
  try dsimp only
  repeat' (first
    | with_reducible assumption
    | with_reducible apply tickClock_memWf
    | with_reducible apply doAdd_memWf
    | with_reducible apply releaseEngine_memWf
    | with_reducible apply performAccv_memWf
    | with_reducible apply dropLines_memWf
    | with_reducible apply armWaiter_memWf
    | with_reducible apply setPart_memWf
    | with_reducible apply removeFlagWaiter_memWf
    | with_reducible apply launchRelease_memWf
    | with_reducible apply addFrom_memWf
    | with_reducible apply memWf_foldl
    | split
    | simp only [memWf_mk]
    | with_reducible intro)

theorem performEntry_memWf {s : State} (c : Nat) (by_ : Issuer) (x3 : BufEnt) (h : s.memWf = true) : (performEntry s c by_ x3).memWf = true := by
  unfold performEntry
  try dsimp only
  repeat' (first
    | with_reducible assumption
    | with_reducible apply storeHome_memWf
    | with_reducible apply onCore_memWf
    | with_reducible apply performCmd_memWf
    | with_reducible apply memWf_foldl
    | split
    | simp only [memWf_mk]
    | with_reducible intro)

theorem drainAll_memWf {s : State} (c : Nat) (h : s.memWf = true) : (drainAll s c).memWf = true := by
  unfold drainAll
  try dsimp only
  repeat' (first
    | with_reducible assumption
    | with_reducible apply performEntry_memWf
    | with_reducible apply setCore_memWf
    | with_reducible apply drain_memWf
    | with_reducible apply memWf_foldl
    | split
    | simp only [memWf_mk]
    | with_reducible intro)

theorem dispatchOp_memWf {s : State} (c : Nat) (m : MOp) (h : s.memWf = true) : (dispatchOp s c m).memWf = true := by
  unfold dispatchOp
  try dsimp only
  repeat' (first
    | with_reducible assumption
    | with_reducible apply startOp_memWf
    | with_reducible apply settleLoads_memWf
    | with_reducible apply drainAll_memWf
    | with_reducible apply memWf_foldl
    | split
    | simp only [memWf_mk]
    | with_reducible intro)

theorem stagedRun_memWf (c : Nat) (x1 : Nat) {x2 : State} (hx2 : x2.memWf = true) : (stagedRun c x1 x2).memWf = true := by
  induction x1 generalizing x2 with
  | zero =>
    unfold stagedRun
    try dsimp only
    repeat' (first
      | with_reducible assumption
      | with_reducible apply dispatchOp_memWf
      | with_reducible apply onCore_memWf
      | with_reducible apply memWf_foldl
      | split
      | simp only [memWf_mk]
      | with_reducible intro)
  | succ n ih =>
    unfold stagedRun
    try dsimp only
    repeat' (first
      | with_reducible apply ih
      | with_reducible assumption
      | with_reducible apply dispatchOp_memWf
      | with_reducible apply onCore_memWf
      | with_reducible apply memWf_foldl
      | split
      | simp only [memWf_mk]
      | with_reducible intro)

theorem stageStep_memWf {s : State} (c : Nat) (nowait : Bool) (h : s.memWf = true) : (stageStep s c nowait).1.memWf = true := by
  unfold stageStep
  try dsimp only
  repeat' (first
    | with_reducible assumption
    | with_reducible apply setCore_memWf
    | with_reducible apply memWf_foldl
    | split
    | simp only [memWf_mk]
    | with_reducible intro)

theorem stageRun_memWf (c : Nat) (nowait : Bool) (x2 : Nat) {x3 : State} (hx3 : x3.memWf = true) : (stageRun c nowait x2 x3).memWf = true := by
  induction x2 generalizing x3 with
  | zero =>
    unfold stageRun
    try dsimp only
    repeat' (first
      | with_reducible assumption
      | with_reducible apply stagedRun_memWf
      | with_reducible apply stageStep_memWf
      | (refine memWf_of_fst (by with_reducible assumption) ?_)
      | (refine memWf_of_snd (by with_reducible assumption) ?_)
      | with_reducible apply memWf_foldl
      | split
      | simp only [memWf_mk]
      | with_reducible intro)
  | succ n ih =>
    unfold stageRun
    try dsimp only
    repeat' (first
      | with_reducible apply ih
      | with_reducible assumption
      | with_reducible apply stagedRun_memWf
      | with_reducible apply stageStep_memWf
      | (refine memWf_of_fst (by with_reducible assumption) ?_)
      | (refine memWf_of_snd (by with_reducible assumption) ?_)
      | with_reducible apply memWf_foldl
      | split
      | simp only [memWf_mk]
      | with_reducible intro)

theorem flushWindow_memWf {s : State} (c : Nat) (h : s.memWf = true) : (flushWindow s c).memWf = true := by
  unfold flushWindow
  try dsimp only
  repeat' (first
    | with_reducible assumption
    | with_reducible apply stageRun_memWf
    | with_reducible apply onCore_memWf
    | with_reducible apply memWf_foldl
    | split
    | simp only [memWf_mk]
    | with_reducible intro)

theorem loadClaim_memWf {s : State} (c : Nat) (by_ : Issuer) (seed : Word) (base : Nat) (len : Nat) (h : s.memWf = true) : (loadClaim s c by_ seed base len).memWf = true := by
  unfold loadClaim
  try dsimp only
  repeat' (first
    | with_reducible assumption
    | with_reducible apply onCore_memWf
    | with_reducible apply setPart_memWf
    | with_reducible apply memWf_foldl
    | split
    | simp only [memWf_mk]
    | with_reducible intro)

theorem loadClaims_memWf {s : State} (c : Nat) (by_ : Issuer) (buf : List BufEnt) (h : s.memWf = true) : (loadClaims s c by_ buf).memWf = true := by
  unfold loadClaims
  try dsimp only
  repeat' (first
    | with_reducible assumption
    | with_reducible apply loadClaim_memWf
    | with_reducible apply memWf_foldl
    | split
    | simp only [memWf_mk]
    | with_reducible intro)

theorem checkpoint_memWf {s : State} (c : Nat) (pc : Word) (h : s.memWf = true) : (checkpoint s c pc).memWf = true := by
  unfold checkpoint
  try dsimp only
  repeat' (first
    | with_reducible assumption
    | with_reducible apply flushWindow_memWf
    | with_reducible apply settleLoads_memWf
    | with_reducible apply loadClaims_memWf
    | with_reducible apply setCore_memWf
    | with_reducible apply push_memWf
    | with_reducible apply memWf_foldl
    | split
    | simp only [memWf_mk]
    | with_reducible intro)

theorem checkpointAll_memWf {s : State} (cs : List Nat) (h : s.memWf = true) : (checkpointAll s cs).memWf = true := by
  unfold checkpointAll
  try dsimp only
  repeat' (first
    | with_reducible assumption
    | with_reducible apply checkpoint_memWf
    | with_reducible apply memWf_foldl
    | split
    | simp only [memWf_mk]
    | with_reducible intro)

theorem cleared_memWf {s : State} (h : s.memWf = true) : (cleared s).memWf = true := by
  exact memWf_mk_host h

theorem tryFlush_memWf {s : State} (cs : List Nat) (h : s.memWf = true) : (tryFlush s cs).1.memWf = true := by
  unfold tryFlush
  try dsimp only
  repeat' (first
    | with_reducible assumption
    | with_reducible apply flushWindow_memWf
    | with_reducible apply onCore_memWf
    | with_reducible apply memWf_foldl
    | split
    | simp only [memWf_mk]
    | with_reducible intro)

theorem tryClose_memWf {s : State} (cs : List Nat) (h : s.memWf = true) : (tryClose s cs).1.memWf = true := by
  unfold tryClose
  try dsimp only
  repeat' (first
    | with_reducible assumption
    | with_reducible apply tryFlush_memWf
    | with_reducible apply settleLoads_memWf
    | with_reducible apply checkpointAll_memWf
    | (refine memWf_of_fst (by with_reducible assumption) ?_)
    | (refine memWf_of_snd (by with_reducible assumption) ?_)
    | with_reducible apply memWf_foldl
    | split
    | simp only [memWf_mk]
    | with_reducible intro)

theorem defer_memWf {s : State} (w : Work) (h : s.memWf = true) : (State.defer s w).memWf = true := by
  unfold State.defer
  try dsimp only
  repeat' (first
    | with_reducible assumption
    | with_reducible apply memWf_foldl
    | split
    | simp only [memWf_mk]
    | with_reducible intro)

theorem yieldAsk_memWf {s : State} (id : Nat) (h : s.memWf = true) : (yieldAsk s id).memWf = true := by
  unfold yieldAsk
  try dsimp only
  repeat' (first
    | with_reducible assumption
    | with_reducible apply preemptJob_memWf
    | with_reducible apply defer_memWf
    | with_reducible apply memWf_foldl
    | split
    | simp only [memWf_mk]
    | with_reducible intro)

theorem performCaddf_memWf {s : State} (c : Nat) (o : Owed) (h : s.memWf = true) : (performCaddf s c o).memWf = true := by
  unfold performCaddf
  try dsimp only
  repeat' (first
    | with_reducible assumption
    | with_reducible apply drainAll_memWf
    | with_reducible apply onCore_memWf
    | with_reducible apply mergeFrom_memWf
    | with_reducible apply addFrom_memWf
    | with_reducible apply memWf_foldl
    | split
    | simp only [memWf_mk]
    | with_reducible intro)

theorem settleOwed_memWf {s : State} (c : Nat) (h : s.memWf = true) : (settleOwed s c).memWf = true := by
  unfold settleOwed
  try dsimp only
  repeat' (first
    | with_reducible assumption
    | with_reducible apply performCaddf_memWf
    | with_reducible apply setCore_memWf
    | with_reducible apply memWf_foldl
    | split
    | simp only [memWf_mk]
    | with_reducible intro)

theorem freezeAll_memWf {s : State} (cs : List Nat) (h : s.memWf = true) : (freezeAll s cs).memWf = true := by
  unfold freezeAll
  try dsimp only
  repeat' (first
    | with_reducible assumption
    | with_reducible apply onCore_memWf
    | with_reducible apply memWf_foldl
    | split
    | simp only [memWf_mk]
    | with_reducible intro)

theorem enterService_memWf {s : State} (c : Nat) (after : Word) (imm : Nat) (h : s.memWf = true) : (enterService s c after imm).memWf = true := by
  unfold enterService
  try dsimp only
  repeat' (first
    | with_reducible assumption
    | with_reducible apply onCore_memWf
    | with_reducible apply memWf_foldl
    | split
    | simp only [memWf_mk]
    | with_reducible intro)

theorem leaveService_memWf {s : State} (c : Nat) (h : s.memWf = true) : (leaveService s c).memWf = true := by
  unfold leaveService
  try dsimp only
  repeat' (first
    | with_reducible assumption
    | with_reducible apply onCore_memWf
    | with_reducible apply memWf_foldl
    | split
    | simp only [memWf_mk]
    | with_reducible intro)

theorem turnPriv_memWf {s : State} (k : Closing) (cs : List Nat) (h : s.memWf = true) : (turnPriv s k cs).memWf = true := by
  unfold turnPriv
  try dsimp only
  repeat' (first
    | with_reducible assumption
    | with_reducible apply enterService_memWf
    | with_reducible apply leaveService_memWf
    | with_reducible apply memWf_foldl
    | split
    | simp only [memWf_mk]
    | with_reducible intro)

theorem stopCore_memWf {s : State} (c : Nat) (h : s.memWf = true) : (stopCore s c).memWf = true := by
  unfold stopCore
  try dsimp only
  repeat' (first
    | with_reducible assumption
    | with_reducible apply onCore_memWf
    | with_reducible apply drainAll_memWf
    | with_reducible apply memWf_foldl
    | split
    | simp only [memWf_mk]
    | with_reducible intro)

theorem regionClosed_memWf {s : State} (c : Nat) (k : Closing) (cs : List Nat) (h : s.memWf = true) : (regionClosed s c k cs).memWf = true := by
  have h1 := memWf_foldl (l := cs) (f := fun t d => t.onCore d fun x => { x with closing := none, frozen := false })
    (checkpointAll_memWf cs (turnPriv_memWf k cs h)) fun t x ht => onCore_memWf _ _ ht
  refine memWf_ite (memWf_foldl ?_ fun t x ht => stopCore_memWf _ ht) ?_ <;>
    refine memWf_ite (memWf_foldl ?_ fun t x ht => endStrand_memWf _ _ ht) ?_ <;>
    refine memWf_ite (yieldAsk_memWf _ ?_) ?_ <;>
    exact memWf_ite (memWf_foldl h1 fun t x ht => drainAll_memWf _ ht) h1

theorem closeRegion_memWf {s : State} (c : Nat) (h : s.memWf = true) : (closeRegion s c).memWf = true := by
  unfold closeRegion
  try dsimp only
  repeat' (first
    | with_reducible assumption
    | with_reducible apply tryClose_memWf
    | with_reducible apply onCore_memWf
    | with_reducible apply drainAll_memWf
    | with_reducible apply yieldAsk_memWf
    | with_reducible apply endStrand_memWf
    | with_reducible apply push_memWf
    | (refine memWf_of_fst (by with_reducible assumption) ?_)
    | (refine memWf_of_snd (by with_reducible assumption) ?_)
    | with_reducible apply tryFlush_memWf
    | with_reducible apply settleLoads_memWf
    | with_reducible apply settleOwed_memWf
    | with_reducible apply freezeAll_memWf
    | with_reducible apply regionClosed_memWf
    | with_reducible apply memWf_foldl
    | split
    | simp only [memWf_mk]
    | with_reducible intro)

theorem cmdLand_memWf {s : State} (e : ECmd) (va : Nat) (bs : List Byte) (cs : List Bool) (h : s.memWf = true) : okWf (cmdLand s e va bs cs) := by
  unfold cmdLand
  try dsimp only
  repeat' (first
    | with_reducible assumption
    | with_reducible apply okWf_ok
    | with_reducible exact okWf_error
    | with_reducible apply landPieces_memWf
    | with_reducible apply noteWrite_memWf
    | with_reducible apply memWf_foldl
    | split
    | simp only [memWf_mk]
    | with_reducible intro)

theorem cmdMerge_memWf {s : State} (e : ECmd) (va : Nat) (n : Nat) (h : s.memWf = true) : (cmdMerge s e va n).memWf = true := by
  unfold cmdMerge
  try dsimp only
  repeat' (first
    | with_reducible assumption
    | with_reducible apply noteRead_memWf
    | with_reducible apply memWf_foldl
    | split
    | simp only [memWf_mk]
    | with_reducible intro)

theorem cmdMergeAll_memWf {s : State} (e : ECmd) (rs : List (Nat × Nat)) (h : s.memWf = true) : (cmdMergeAll s e rs).memWf = true := by
  unfold cmdMergeAll
  try dsimp only
  repeat' (first
    | with_reducible assumption
    | with_reducible apply cmdMerge_memWf
    | with_reducible apply memWf_foldl
    | split
    | simp only [memWf_mk]
    | with_reducible intro)

theorem cmdWrite_memWf {s : State} (e : ECmd) (va : Nat) (bs : List Byte) (cs : List Bool) (h : s.memWf = true) : okWf (cmdWrite s e va bs cs) := by
  unfold cmdWrite
  try dsimp only
  repeat' (first
    | with_reducible assumption
    | with_reducible apply okWf_ok
    | with_reducible exact okWf_error
    | with_reducible apply cmdLand_memWf
    | with_reducible apply tickClock_memWf
    | (refine memWf_of_ok (by with_reducible assumption) ?_)
    | with_reducible apply memWf_foldl
    | split
    | simp only [memWf_mk]
    | with_reducible intro)

theorem recordEvents_memWf {s : State} (status : Nat) (h : s.memWf = true) : (recordEvents s status).memWf = true := by
  unfold recordEvents
  try dsimp only
  repeat' (first
    | with_reducible assumption
    | with_reducible apply appendEvent_memWf
    | with_reducible apply memWf_foldl
    | split
    | simp only [memWf_mk]
    | with_reducible intro)

theorem commitAct_memWf {s : State} (h : s.memWf = true) : (commitAct s).memWf = true := by
  unfold commitAct
  try dsimp only
  repeat' (first
    | with_reducible assumption
    | with_reducible apply recordEvents_memWf
    | with_reducible apply memWf_foldl
    | split
    | simp only [memWf_mk]
    | with_reducible intro)

theorem enterTile_memWf {s : State} (c : Nat) (m : MOp) (h : s.memWf = true) : (enterTile s c m).memWf = true := by
  unfold enterTile
  try dsimp only
  repeat' (first
    | with_reducible assumption
    | with_reducible apply setCore_memWf
    | with_reducible apply dispatchOp_memWf
    | with_reducible apply stagedRun_memWf
    | with_reducible apply stageRun_memWf
    | with_reducible apply memWf_foldl
    | split
    | simp only [memWf_mk]
    | with_reducible intro)

theorem giveS_memWf {s : State} (slot : Nat) (d : Nat) (v : Word) (lat : Nat) (h : s.memWf = true) : (giveS s slot d v lat).memWf = true := by
  unfold giveS
  try dsimp only
  repeat' (first
    | with_reducible assumption
    | with_reducible apply addLanding_memWf
    | with_reducible apply memWf_foldl
    | split
    | simp only [memWf_mk]
    | with_reducible intro)

theorem performAtom_memWf {s0 : State} (c : Nat) (l : Loc) (f : F3) (y : Word) (z : Word) (hs0 : s0.memWf = true) : (performAtom s0 c l f y z).memWf = true := by
  unfold performAtom
  try dsimp only
  repeat' (first
    | with_reducible assumption
    | with_reducible apply putBytes_memWf
    | with_reducible apply drainAll_memWf
    | with_reducible apply onCore_memWf
    | with_reducible apply wakeHome_memWf
    | with_reducible apply tickClock_memWf
    | with_reducible apply mergeFrom_memWf
    | with_reducible apply dropLines_memWf
    | with_reducible apply giveS_memWf
    | with_reducible apply writeAt_memWf
    | with_reducible apply memWf_foldl
    | split
    | simp only [memWf_mk]
    | with_reducible intro)

theorem startRoles_memWf {s : State} (c : Nat) (form : Nat) (a : Word) (h : s.memWf = true) : (startRoles s c form a).memWf = true := by
  unfold startRoles
  try dsimp only
  repeat' (first
    | with_reducible assumption
    | with_reducible apply setMill_memWf
    | with_reducible apply askClose_memWf
    | with_reducible apply push_memWf
    | with_reducible apply memWf_foldl
    | split
    | simp only [memWf_mk]
    | with_reducible intro)

theorem writeCsr_memWf {s : State} (c : Nat) (n : Nat) (form : Nat) (a : Word) (h : s.memWf = true) : (writeCsr s c n form a).memWf = true := by
  unfold writeCsr
  try dsimp only
  repeat' (first
    | with_reducible assumption
    | with_reducible apply onCore_memWf
    | with_reducible apply startRoles_memWf
    | with_reducible apply memWf_foldl
    | split
    | simp only [memWf_mk]
    | with_reducible intro)

theorem formGroup_memWf {s : State} (id : Nat) (g : Group) (h : s.memWf = true) : (formGroup s id g).memWf = true := by
  unfold formGroup
  try dsimp only
  repeat' (first
    | with_reducible assumption
    | with_reducible apply setJob_memWf
    | with_reducible apply onCore_memWf
    | with_reducible apply wakeCore_memWf
    | with_reducible apply memWf_foldl
    | split
    | simp only [memWf_mk]
    | with_reducible intro)

theorem joinGroup_memWf {s : State} (c : Nat) (key : Word) (size : Nat) (policy : Nat) (lock : Bool) (h : s.memWf = true) : (joinGroup s c key size policy lock).memWf = true := by
  unfold joinGroup
  try dsimp only
  repeat' (first
    | with_reducible assumption
    | with_reducible apply onCore_memWf
    | with_reducible apply setJob_memWf
    | with_reducible apply formGroup_memWf
    | with_reducible apply memWf_foldl
    | split
    | simp only [memWf_mk]
    | with_reducible intro)

theorem leaveOne_memWf {s : State} (c : Nat) (h : s.memWf = true) : (leaveOne s c).memWf = true := by
  unfold leaveOne
  try dsimp only
  repeat' (first
    | with_reducible assumption
    | with_reducible apply onCore_memWf
    | with_reducible apply leaveGroup_memWf
    | with_reducible apply memWf_foldl
    | split
    | simp only [memWf_mk]
    | with_reducible intro)

theorem sendTx_memWf {s : State} (n : Nat) (h : s.memWf = true) : (sendTx s n).memWf = true := by
  unfold sendTx
  try dsimp only
  repeat' (first
    | with_reducible assumption
    | with_reducible apply emit_memWf
    | with_reducible apply memWf_foldl
    | split
    | simp only [memWf_mk]
    | with_reducible intro)

theorem freeRx_memWf {s : State} (h : s.memWf = true) : (freeRx s).memWf = true := by
  unfold freeRx
  try dsimp only
  repeat' (first
    | with_reducible assumption
    | with_reducible apply onMgmt_memWf
    | with_reducible apply memWf_foldl
    | split
    | simp only [memWf_mk]
    | with_reducible intro)

theorem doeCtl_memWf {s : State} (v : Nat) (h : s.memWf = true) : (doeCtl s v).memWf = true := by
  unfold doeCtl
  try dsimp only
  repeat' (first
    | with_reducible assumption
    | with_reducible apply sendTx_memWf
    | with_reducible apply freeRx_memWf
    | with_reducible apply memWf_foldl
    | split
    | simp only [memWf_mk]
    | with_reducible intro)

theorem hashCommand_memWf {s : State} (v0 : Nat) (h : s.memWf = true) : (hashCommand s v0).memWf = true := by
  unfold hashCommand
  try dsimp only
  repeat' (first
    | with_reducible assumption
    | with_reducible apply putBytes_memWf
    | with_reducible apply onMgmt_memWf
    | with_reducible apply setHash_memWf
    | with_reducible apply memWf_foldl
    | split
    | simp only [memWf_mk]
    | with_reducible intro)

theorem heartbeatWrite_memWf {s : State} (v : Nat) (h : s.memWf = true) : (heartbeatWrite s v).memWf = true := by
  unfold heartbeatWrite
  try dsimp only
  repeat' (first
    | with_reducible assumption
    | with_reducible apply commitAct_memWf
    | with_reducible apply push_memWf
    | with_reducible apply memWf_foldl
    | split
    | simp only [memWf_mk]
    | with_reducible intro)

theorem ctlStore_memWf {s : State} (off : Nat) (n : Nat) (val : Nat) (h : s.memWf = true) : (ctlStore s off n val).memWf = true := by
  unfold ctlStore
  try dsimp only
  repeat' (first
    | with_reducible assumption
    | with_reducible apply putBytes_memWf
    | with_reducible apply doeCtl_memWf
    | with_reducible apply hashCommand_memWf
    | with_reducible apply onMgmt_memWf
    | with_reducible apply heartbeatWrite_memWf
    | with_reducible apply lctlWrite_memWf
    | with_reducible apply memWf_foldl
    | split
    | simp only [memWf_mk]
    | with_reducible intro)

theorem ctlLoad_memWf {s : State} (off : Nat) (n : Nat) (h : s.memWf = true) : (ctlLoad s off n).2.memWf = true := by
  unfold ctlLoad
  try dsimp only
  repeat' (first
    | with_reducible assumption
    | with_reducible apply onMgmt_memWf
    | with_reducible apply randDraw_memWf
    | (refine memWf_of_fst (by with_reducible assumption) ?_)
    | (refine memWf_of_snd (by with_reducible assumption) ?_)
    | with_reducible apply memWf_foldl
    | split
    | simp only [memWf_mk]
    | with_reducible intro)

theorem commitCaddf_memWf {s : State} (c : Nat) (h1 : Nat) (amount : Nat) (d : Nat) (h : s.memWf = true) : (commitCaddf s c h1 amount d).memWf = true := by
  unfold commitCaddf
  try dsimp only
  repeat' (first
    | with_reducible assumption
    | with_reducible apply performCaddf_memWf
    | with_reducible apply setCore_memWf
    | with_reducible apply memWf_foldl
    | split
    | simp only [memWf_mk]
    | with_reducible intro)

theorem commitEff_memWf (c : Nat) {s : State} (e : Eff) (h : s.memWf = true) : (commitEff c s e).memWf = true := by
  unfold commitEff
  try dsimp only
  repeat' (first
    | with_reducible assumption
    | with_reducible apply onCore_memWf
    | with_reducible apply drainAll_memWf
    | with_reducible apply enterTile_memWf
    | with_reducible apply performAtom_memWf
    | with_reducible apply performCaddf_memWf
    | with_reducible apply writeCsr_memWf
    | with_reducible apply joinGroup_memWf
    | with_reducible apply leaveOne_memWf
    | with_reducible apply ctlStore_memWf
    | with_reducible apply ctlLoad_memWf
    | with_reducible apply giveS_memWf
    | with_reducible apply flushWindow_memWf
    | (refine memWf_of_fst (by with_reducible assumption) ?_)
    | (refine memWf_of_snd (by with_reducible assumption) ?_)
    | with_reducible apply commitCaddf_memWf
    | with_reducible apply memWf_foldl
    | split
    | simp only [memWf_mk]
    | with_reducible intro)

theorem commitMember_memWf {s : State} (u : Cursor) (m : Member) (h : s.memWf = true) : (commitMember s u m).memWf = true := by
  unfold commitMember
  try dsimp only
  repeat' (first
    | with_reducible assumption
    | with_reducible apply commitEff_memWf
    | with_reducible apply wakeCore_memWf
    | with_reducible apply onCore_memWf
    | with_reducible apply stageRun_memWf
    | with_reducible apply memWf_foldl
    | split
    | simp only [memWf_mk]
    | with_reducible intro)

theorem commitMembers_memWf {x0 : State} (x1 : List Cursor) (x2 : List Member) (hx0 : x0.memWf = true) : (commitMembers x0 x1 x2).memWf = true := by
  induction x1 generalizing x0 x2 with
  | nil => exact hx0
  | cons u us ih =>
    cases x2 with
    | nil => exact hx0
    | cons m ms => exact ih _ (commitMember_memWf _ _ hx0)

theorem followAll_memWf {s : State} (lead : Nat) (cs : List Nat) (n : Nat) (h : s.memWf = true) : (followAll s lead cs n).memWf = true := by
  unfold followAll
  try dsimp only
  repeat' (first
    | with_reducible assumption
    | with_reducible apply onCore_memWf
    | with_reducible apply memWf_foldl
    | split
    | simp only [memWf_mk]
    | with_reducible intro)

theorem finish_memWf {s : State} (b : Bundle) (lead : Nat) (cs : List Nat) (us : List Cursor) (after : Bool) (last : Bool) (h : s.memWf = true) : (finish s b lead cs us after last).memWf = true := by
  unfold finish
  try dsimp only
  repeat' (first
    | with_reducible assumption
    | with_reducible apply enterService_memWf
    | with_reducible apply leaveService_memWf
    | with_reducible apply closeRegion_memWf
    | with_reducible apply askClose_memWf
    | with_reducible apply memWf_foldl
    | split
    | simp only [memWf_mk]
    | with_reducible intro)

theorem commitAll_memWf {s : State} (b : Bundle) (ms : List Member) (us : List Cursor) (lead : Nat) (h : s.memWf = true) : (commitAll s b ms us lead).memWf = true := by
  unfold commitAll
  try dsimp only
  repeat' (first
    | with_reducible assumption
    | with_reducible apply commitMembers_memWf
    | with_reducible apply onCore_memWf
    | with_reducible apply followAll_memWf
    | with_reducible apply finish_memWf
    | with_reducible apply memWf_foldl
    | split
    | simp only [memWf_mk]
    | with_reducible intro)

theorem completeCmd_memWf {s : State} (e : ECmd) (h : s.memWf = true) : (completeCmd s e).memWf = true := by
  unfold completeCmd
  try dsimp only
  repeat' (first
    | with_reducible assumption
    | with_reducible apply dropCmd_memWf
    | with_reducible apply tickClock_memWf
    | with_reducible apply doAdd_memWf
    | with_reducible apply push_memWf
    | with_reducible apply retryEngines_memWf
    | with_reducible apply addFrom_memWf
    | with_reducible apply memWf_foldl
    | split
    | simp only [memWf_mk]
    | with_reducible intro)

theorem consumeEntry_memWf {s : State} (pid : Nat) (queue : Nat) (result : Nat) (fcode : Nat) (h : s.memWf = true) : (consumeEntry s pid queue result fcode).memWf = true := by
  unfold consumeEntry
  try dsimp only
  repeat' (first
    | with_reducible assumption
    | with_reducible apply putBytes_memWf
    | with_reducible apply setPart_memWf
    | with_reducible apply writeAt_memWf
    | with_reducible apply memWf_foldl
    | split
    | simp only [memWf_mk]
    | with_reducible intro)

theorem offerPending_memWf {s : State} (c : Nat) (h : s.memWf = true) : (offerPending s c).memWf = true := by
  unfold offerPending
  try dsimp only
  repeat' (first
    | with_reducible assumption
    | with_reducible apply takeFault_memWf
    | with_reducible apply onCore_memWf
    | with_reducible apply memWf_foldl
    | split
    | simp only [memWf_mk]
    | with_reducible intro)

theorem preemptHere_memWf {s : State} (cs : List Nat) (h : s.memWf = true) : (preemptHere s cs).memWf = true := by
  unfold preemptHere
  try dsimp only
  repeat' (first
    | with_reducible assumption
    | with_reducible apply tryClose_memWf
    | with_reducible apply stopCore_memWf
    | (refine memWf_of_fst (by with_reducible assumption) ?_)
    | (refine memWf_of_snd (by with_reducible assumption) ?_)
    | with_reducible apply closeRegion_memWf
    | with_reducible apply askClose_memWf
    | with_reducible apply memWf_foldl
    | split
    | simp only [memWf_mk]
    | with_reducible intro)

theorem preemptAsked_memWf {s : State} (cs : List Nat) (h : s.memWf = true) : (preemptAsked s cs).memWf = true := by
  unfold preemptAsked
  try dsimp only
  repeat' (first
    | with_reducible assumption
    | with_reducible apply preemptHere_memWf
    | with_reducible apply memWf_foldl
    | split
    | simp only [memWf_mk]
    | with_reducible intro)

theorem dressFault_memWf {s : State} (c : Nat) (h : s.memWf = true) : (dressFault s c).memWf = true := by
  unfold dressFault
  try dsimp only
  repeat' (first
    | with_reducible assumption
    | with_reducible apply takeFault_memWf
    | with_reducible apply onCore_memWf
    | with_reducible apply memWf_foldl
    | split
    | simp only [memWf_mk]
    | with_reducible intro)

theorem heldCycle_memWf {s : State} (cs : List Nat) (h2 : Nat → Option Hold) (h : s.memWf = true) : (heldCycle s cs h2).memWf = true := by
  unfold heldCycle
  try dsimp only
  repeat' (first
    | with_reducible assumption
    | with_reducible apply stageRun_memWf
    | with_reducible apply onCore_memWf
    | with_reducible apply push_memWf
    | with_reducible apply memWf_foldl
    | split
    | simp only [memWf_mk]
    | with_reducible intro)

theorem freezeAts_memWf {s : State} (c : Nat) (page : Nat) (h : s.memWf = true) : (freezeAts s c page).memWf = true := by
  unfold freezeAts
  try dsimp only
  repeat' (first
    | with_reducible assumption
    | with_reducible apply askAts_memWf
    | with_reducible apply onCore_memWf
    | with_reducible apply memWf_foldl
    | split
    | simp only [memWf_mk]
    | with_reducible intro)

theorem holdFrozen_memWf {s : State} (cs : List Nat) (u : Cursor) (h : s.memWf = true) : (holdFrozen s cs u).memWf = true := by
  unfold holdFrozen
  try dsimp only
  repeat' (first
    | with_reducible assumption
    | with_reducible apply bumpStall_memWf
    | with_reducible apply onCore_memWf
    | with_reducible apply freezeAts_memWf
    | with_reducible apply freezeAll_memWf
    | with_reducible apply memWf_foldl
    | split
    | simp only [memWf_mk]
    | with_reducible intro)

theorem keepPages_memWf {s : State} (c : Nat) (es : List TlbEnt) (h : s.memWf = true) : (keepPages s c es).memWf = true := by
  unfold keepPages
  try dsimp only
  repeat' (first
    | with_reducible assumption
    | with_reducible apply setDie_memWf
    | with_reducible apply setCore_memWf
    | with_reducible apply wakeWalks_memWf
    | with_reducible apply memWf_foldl
    | split
    | simp only [memWf_mk]
    | with_reducible intro)

theorem fetchBytes_memWf {s : State} (c : Nat) (va : Nat) (n : Nat) (h : s.memWf = true) : okWf2 (fetchBytes s c va n) := by
  unfold fetchBytes
  try dsimp only
  repeat' (first
    | with_reducible assumption
    | with_reducible apply okWf2_ok
    | with_reducible exact okWf2_error
    | with_reducible apply keepPages_memWf
    | with_reducible apply wakeHome_memWf
    | with_reducible apply memWf_foldl
    | split
    | simp only [memWf_mk]
    | with_reducible intro)

theorem fetchBundle_memWf {s : State} (c : Nat) (h : s.memWf = true) : okWf22 (fetchBundle s c) := by
  unfold fetchBundle
  try dsimp only
  repeat' (first
    | with_reducible assumption
    | with_reducible apply okWf22_ok
    | with_reducible exact okWf22_error
    | with_reducible apply fetchBytes_memWf
    | with_reducible apply checkBlock_memWf
    | (refine memWf_of_ok (by with_reducible assumption) ?_)
    | (refine memWf_of_ok2 (by with_reducible assumption) ?_)
    | (refine memWf_of_ok2' (by with_reducible assumption) ?_)
    | with_reducible apply memWf_foldl
    | split
    | simp only [memWf_mk]
    | with_reducible intro)

theorem fetchFail_memWf {s : State} (c : Nat) (e : Flt) (h : s.memWf = true) : (fetchFail s c e).memWf = true := by
  unfold fetchFail
  try dsimp only
  repeat' (first
    | with_reducible assumption
    | with_reducible apply freezeAts_memWf
    | with_reducible apply onCore_memWf
    | with_reducible apply takeFault_memWf
    | with_reducible apply memWf_foldl
    | split
    | simp only [memWf_mk]
    | with_reducible intro)

theorem skipBundle_memWf {s : State} (cs : List Nat) (len : Nat) (h : s.memWf = true) : (skipBundle s cs len).memWf = true := by
  unfold skipBundle
  try dsimp only
  repeat' (first
    | with_reducible assumption
    | with_reducible apply stageRun_memWf
    | with_reducible apply onCore_memWf
    | with_reducible apply memWf_foldl
    | split
    | simp only [memWf_mk]
    | with_reducible intro)

theorem skipBody_memWf {s : State} (cs : List Nat) (lead : Nat) (b : Bundle) (h : s.memWf = true) : (skipBody s cs lead b).memWf = true := by
  unfold skipBody
  try dsimp only
  repeat' (first
    | with_reducible assumption
    | with_reducible apply takeFault_memWf
    | with_reducible apply onCore_memWf
    | with_reducible apply followAll_memWf
    | with_reducible apply stageRun_memWf
    | with_reducible apply closeRegion_memWf
    | with_reducible apply askClose_memWf
    | with_reducible apply memWf_foldl
    | split
    | simp only [memWf_mk]
    | with_reducible intro)

theorem slotOp_memWf (slot : Nat) (g : Nat) {s : State} (k : State → State) (h : s.memWf = true) (hk : ∀ t, t.memWf = true → (k t).memWf = true) : (slotOp slot g s k).memWf = true := by
  unfold slotOp
  try dsimp only
  repeat' (first
    | with_reducible assumption
    | with_reducible apply hk
    | with_reducible apply memWf_foldl
    | split
    | simp only [memWf_mk]
    | with_reducible intro)

theorem giveP_memWf {s : State} (slot : Nat) (d : Nat) (v : Word) (mask : Word) (lat : Nat) (h : s.memWf = true) : (giveP s slot d v mask lat).memWf = true := by
  unfold giveP
  try dsimp only
  repeat' (first
    | with_reducible assumption
    | with_reducible apply addLanding_memWf
    | with_reducible apply memWf_foldl
    | split
    | simp only [memWf_mk]
    | with_reducible intro)

theorem onLead_memWf {s : State} (k : State → State) (h : s.memWf = true) (hk : ∀ t, t.memWf = true → (k t).memWf = true) : (onLead s k).memWf = true := by
  unfold onLead
  try dsimp only
  repeat' (first
    | with_reducible assumption
    | with_reducible apply hk
    | with_reducible apply memWf_foldl
    | split
    | simp only [memWf_mk]
    | with_reducible intro)

theorem setTarget_memWf {s : State} (a : Word) (h : s.memWf = true) : (setTarget s a).memWf = true := by
  unfold setTarget
  try dsimp only
  repeat' (first
    | with_reducible assumption
    | with_reducible apply memWf_foldl
    | split
    | simp only [memWf_mk]
    | with_reducible intro)

theorem raise_memWf {s : State} (code : Nat) (info : Nat) (h : s.memWf = true) : (raise s code info).memWf = true := by
  unfold raise
  try dsimp only
  repeat' (first
    | with_reducible assumption
    | with_reducible apply raiseFlt_memWf
    | with_reducible apply memWf_foldl
    | split
    | simp only [memWf_mk]
    | with_reducible intro)

theorem pushLoop_memWf {s : State} (count : Nat) (h : s.memWf = true) : (pushLoop s count).memWf = true := by
  unfold pushLoop
  try dsimp only
  repeat' (first
    | with_reducible assumption
    | with_reducible apply raise_memWf
    | with_reducible apply onCore_memWf
    | with_reducible apply memWf_foldl
    | split
    | simp only [memWf_mk]
    | with_reducible intro)

theorem notService_memWf {s : State} (k : State → State) (h : s.memWf = true) (hk : ∀ t, t.memWf = true → (k t).memWf = true) : (notService s k).memWf = true := by
  unfold notService
  try dsimp only
  repeat' (first
    | with_reducible assumption
    | with_reducible apply hk
    | with_reducible apply raise_memWf
    | with_reducible apply memWf_foldl
    | split
    | simp only [memWf_mk]
    | with_reducible intro)

theorem giveCsr_memWf {s : State} (n : Nat) (form : Nat) (rw : Word) (a : Word) (h : s.memWf = true) : (giveCsr s n form rw a).memWf = true := by
  unfold giveCsr
  try dsimp only
  repeat' (first
    | with_reducible assumption
    | with_reducible apply addLanding_memWf
    | with_reducible apply memWf_foldl
    | split
    | simp only [memWf_mk]
    | with_reducible intro)

theorem withAccess_memWf {s : State} (va : Nat) (n : Nat) (align : Nat) (need : Need) (noHost : Bool) (k : State → List Piece → State) (h : s.memWf = true) (hk : ∀ t x0, t.memWf = true → (k t x0).memWf = true) : (withAccess s va n align need noHost k).memWf = true := by
  unfold withAccess
  try dsimp only
  repeat' (first
    | with_reducible assumption
    | with_reducible apply hk
    | with_reducible apply accessFail_memWf
    | with_reducible apply keepPages_memWf
    | with_reducible apply memWf_foldl
    | split
    | simp only [memWf_mk]
    | with_reducible intro)

theorem loadLine_memWf {s : State} (mill : Nat) (line : Nat) (hint : Nat) (h : s.memWf = true) : (loadLine s mill line hint).2.2.memWf = true := by
  unfold loadLine
  try dsimp only
  repeat' (first
    | with_reducible assumption
    | with_reducible apply setMill_memWf
    | with_reducible apply memWf_foldl
    | split
    | simp only [memWf_mk]
    | with_reducible intro)

theorem loadHbm_memWf {s : State} (mill : Nat) (hint : Nat) (x3 : Nat) (x4 : Nat) (x5 : Nat) (h : s.memWf = true) : (loadHbm s mill hint x3 x4 x5).2.2.memWf = true := by
  induction x3 generalizing s x4 x5 with
  | zero =>
    unfold loadHbm
    try dsimp only
    repeat' (first
      | with_reducible assumption
      | with_reducible apply loadLine_memWf
      | with_reducible apply wakeDie_memWf
      | with_reducible apply mergeFrom_memWf
      | (refine memWf_of_fst (by with_reducible assumption) ?_)
      | (refine memWf_of_snd (by with_reducible assumption) ?_)
      | with_reducible apply memWf_foldl
      | split
      | simp only [memWf_mk]
      | with_reducible intro)
  | succ n ih =>
    unfold loadHbm
    try dsimp only
    repeat' (first
      | with_reducible apply ih
      | with_reducible assumption
      | with_reducible apply loadLine_memWf
      | with_reducible apply wakeDie_memWf
      | with_reducible apply mergeFrom_memWf
      | (refine memWf_of_fst (by with_reducible assumption) ?_)
      | (refine memWf_of_snd (by with_reducible assumption) ?_)
      | with_reducible apply memWf_foldl
      | split
      | simp only [memWf_mk]
      | with_reducible intro)

theorem loadPieces_memWf {s : State} (c : Nat) (hint : Nat) (x3 : List Piece) (h : s.memWf = true) : (loadPieces s c hint x3).2.2.memWf = true := by
  induction x3 generalizing s with
  | nil =>
    unfold loadPieces
    try dsimp only
    repeat' (first
      | with_reducible assumption
      | with_reducible apply loadHbm_memWf
      | (refine memWf_of_fst (by with_reducible assumption) ?_)
      | (refine memWf_of_snd (by with_reducible assumption) ?_)
      | with_reducible apply memWf_foldl
      | split
      | simp only [memWf_mk]
      | with_reducible intro)
  | cons p ps ih =>
    unfold loadPieces
    try dsimp only
    repeat' (first
      | with_reducible apply ih
      | with_reducible assumption
      | with_reducible apply loadHbm_memWf
      | (refine memWf_of_fst (by with_reducible assumption) ?_)
      | (refine memWf_of_snd (by with_reducible assumption) ?_)
      | with_reducible apply memWf_foldl
      | split
      | simp only [memWf_mk]
      | with_reducible intro)

theorem loadWhole_memWf {s : State} (c : Nat) (ps : List Piece) (h : s.memWf = true) : (loadWhole s c ps).2.memWf = true := by
  unfold loadWhole
  try dsimp only
  repeat' (first
    | with_reducible assumption
    | with_reducible apply loadPieces_memWf
    | (refine memWf_of_fst (by with_reducible assumption) ?_)
    | (refine memWf_of_snd (by with_reducible assumption) ?_)
    | with_reducible apply memWf_foldl
    | split
    | simp only [memWf_mk]
    | with_reducible intro)

theorem popRandom_memWf {s : State} (k : State → Word → State) (h : s.memWf = true) (hk : ∀ t x0, t.memWf = true → (k t x0).memWf = true) : (popRandom s k).memWf = true := by
  unfold popRandom
  try dsimp only
  repeat' (first
    | with_reducible assumption
    | with_reducible apply hk
    | with_reducible apply raise_memWf
    | with_reducible apply onCore_memWf
    | with_reducible apply memWf_foldl
    | split
    | simp only [memWf_mk]
    | with_reducible intro)

theorem withDraws_memWf {s : State} (rm : Nat) (k : State → (Nat → Nat) → State) (h : s.memWf = true) (hk : ∀ t x0, t.memWf = true → (k t x0).memWf = true) : (withDraws s rm k).memWf = true := by
  unfold withDraws
  try dsimp only
  repeat' (first
    | with_reducible assumption
    | with_reducible apply hk
    | with_reducible apply popRandom_memWf
    | with_reducible apply memWf_foldl
    | split
    | simp only [memWf_mk]
    | with_reducible intro)

theorem giveV_memWf {s : State} (slot : Nat) (d : Nat) (v : Vec) (mask : Vec) (lat : Nat) (h : s.memWf = true) : (giveV s slot d v mask lat).memWf = true := by
  unfold giveV
  try dsimp only
  repeat' (first
    | with_reducible assumption
    | with_reducible apply addLanding_memWf
    | with_reducible apply memWf_foldl
    | split
    | simp only [memWf_mk]
    | with_reducible intro)

theorem giveLanes_memWf {s : State} (f : F3) (w : Nat) (lat : Nat) (g : Nat → Nat × Nat) (h : s.memWf = true) : (giveLanes s f w lat g).memWf = true := by
  unfold giveLanes
  try dsimp only
  repeat' (first
    | with_reducible assumption
    | with_reducible apply giveV_memWf
    | with_reducible apply orStatus_memWf
    | with_reducible apply memWf_foldl
    | split
    | simp only [memWf_mk]
    | with_reducible intro)

theorem noteChecks_memWf {s : State} (c : Nat) (ps : List Piece) (h : s.memWf = true) : (noteChecks s c ps).memWf = true := by
  unfold noteChecks
  try dsimp only
  repeat' (first
    | with_reducible assumption
    | with_reducible apply onCore_memWf
    | with_reducible apply memWf_foldl
    | split
    | simp only [memWf_mk]
    | with_reducible intro)

theorem noteTouched_memWf {s : State} (ps : List Piece) (write : Bool) (h : s.memWf = true) : (noteTouched s ps write).memWf = true := by
  unfold noteTouched
  try dsimp only
  repeat' (first
    | with_reducible assumption
    | with_reducible apply noteLocalReads_memWf
    | with_reducible apply memWf_foldl
    | split
    | simp only [memWf_mk]
    | with_reducible intro)

theorem loadNow_memWf {s : State} (hint : Nat) (ps : List Piece) (h : s.memWf = true) : (loadNow s hint ps).2.2.memWf = true := by
  unfold loadNow
  try dsimp only
  repeat' (first
    | with_reducible assumption
    | with_reducible apply loadPieces_memWf
    | with_reducible apply noteChecks_memWf
    | with_reducible apply noteTouched_memWf
    | (refine memWf_of_fst (by with_reducible assumption) ?_)
    | (refine memWf_of_snd (by with_reducible assumption) ?_)
    | with_reducible apply memWf_foldl
    | split
    | simp only [memWf_mk]
    | with_reducible intro)

theorem storeEffs_memWf {s : State} (hint : Nat) (x2 : List Piece) (x3 : List Byte) (h : s.memWf = true) : (storeEffs s hint x2 x3).memWf = true := by
  induction x2 generalizing s x3 with
  | nil =>
    unfold storeEffs
    try dsimp only
    repeat' (first
      | with_reducible assumption
      | with_reducible apply addEff_memWf
      | with_reducible apply memWf_foldl
      | split
      | simp only [memWf_mk]
      | with_reducible intro)
  | cons p ps ih =>
    unfold storeEffs
    try dsimp only
    repeat' (first
      | with_reducible apply ih
      | with_reducible assumption
      | with_reducible apply addEff_memWf
      | with_reducible apply memWf_foldl
      | split
      | simp only [memWf_mk]
      | with_reducible intro)

theorem withElems_memWf {s : State} (f : F3) (w : Nat) (addr : Nat → Nat) (need : Need) (k : State → List (Nat × List Piece) → State) (h : s.memWf = true) (hk : ∀ t x0, t.memWf = true → (k t x0).memWf = true) : (withElems s f w addr need k).memWf = true := by
  unfold withElems
  try dsimp only
  repeat' (first
    | with_reducible assumption
    | with_reducible apply hk
    | with_reducible apply accessFail_memWf
    | with_reducible apply keepPages_memWf
    | with_reducible apply memWf_foldl
    | split
    | simp only [memWf_mk]
    | with_reducible intro)

theorem loadElems_memWf {s : State} (hint : Nat) (x2 : List (Nat × List Piece)) (h : s.memWf = true) : (loadElems s hint x2).2.2.memWf = true := by
  induction x2 generalizing s with
  | nil =>
    unfold loadElems
    try dsimp only
    repeat' (first
      | with_reducible assumption
      | with_reducible apply loadNow_memWf
      | (refine memWf_of_fst (by with_reducible assumption) ?_)
      | (refine memWf_of_snd (by with_reducible assumption) ?_)
      | with_reducible apply memWf_foldl
      | split
      | simp only [memWf_mk]
      | with_reducible intro)
  | cons p ps ih =>
    unfold loadElems
    try dsimp only
    repeat' (first
      | with_reducible apply ih
      | with_reducible assumption
      | with_reducible apply loadNow_memWf
      | (refine memWf_of_fst (by with_reducible assumption) ?_)
      | (refine memWf_of_snd (by with_reducible assumption) ?_)
      | with_reducible apply memWf_foldl
      | split
      | simp only [memWf_mk]
      | with_reducible intro)

theorem prefLine_memWf {s : State} (mill : Nat) (line : Nat) (hint : Nat) (h : s.memWf = true) : (prefLine s mill line hint).memWf = true := by
  unfold prefLine
  try dsimp only
  repeat' (first
    | with_reducible assumption
    | with_reducible apply setMill_memWf
    | with_reducible apply memWf_foldl
    | split
    | simp only [memWf_mk]
    | with_reducible intro)

theorem prefLines_memWf {s : State} (hint : Nat) (x2 : Nat) (x3 : Nat) (h : s.memWf = true) : (prefLines s hint x2 x3).memWf = true := by
  induction x2 generalizing s x3 with
  | zero =>
    unfold prefLines
    try dsimp only
    repeat' (first
      | with_reducible assumption
      | with_reducible apply prefLine_memWf
      | with_reducible apply memWf_foldl
      | split
      | simp only [memWf_mk]
      | with_reducible intro)
  | succ n ih =>
    unfold prefLines
    try dsimp only
    repeat' (first
      | with_reducible apply ih
      | with_reducible assumption
      | with_reducible apply prefLine_memWf
      | with_reducible apply memWf_foldl
      | split
      | simp only [memWf_mk]
      | with_reducible intro)

theorem withLine_memWf {s : State} (f : F3) (k : State → Option Nat → State) (h : s.memWf = true) (hk : ∀ t x0, t.memWf = true → (k t x0).memWf = true) : (withLine s f k).memWf = true := by
  unfold withLine
  try dsimp only
  repeat' (first
    | with_reducible assumption
    | with_reducible apply hk
    | with_reducible apply reads_memWf
    | with_reducible apply raise_memWf
    | with_reducible apply memWf_foldl
    | split
    | simp only [memWf_mk]
    | with_reducible intro)

theorem giveK_memWf {s : State} (slot : Nat) (d : Nat) (v : Word) (mask : Word) (lat : Nat) (latch : Bool) (h : s.memWf = true) : (giveK s slot d v mask lat latch).memWf = true := by
  unfold giveK
  try dsimp only
  repeat' (first
    | with_reducible assumption
    | with_reducible apply addLanding_memWf
    | with_reducible apply memWf_foldl
    | split
    | simp only [memWf_mk]
    | with_reducible intro)

theorem withScale_memWf {s : State} (f : F3) (need : Need) (k : State → List Piece → State) (h : s.memWf = true) (hk : ∀ t x0, t.memWf = true → (k t x0).memWf = true) : (withScale s f need k).memWf = true := by
  unfold withScale
  try dsimp only
  repeat' (first
    | with_reducible assumption
    | with_reducible apply hk
    | with_reducible apply reads_memWf
    | with_reducible apply raise_memWf
    | with_reducible apply withAccess_memWf
    | with_reducible apply memWf_foldl
    | split
    | simp only [memWf_mk]
    | with_reducible intro)

theorem loadK_memWf {s : State} (d : Nat) (v : Word) (h : s.memWf = true) : (loadK s d v).memWf = true := by
  unfold loadK
  try dsimp only
  repeat' (first
    | with_reducible assumption
    | with_reducible apply addLanding_memWf
    | with_reducible apply memWf_foldl
    | split
    | simp only [memWf_mk]
    | with_reducible intro)

theorem withHandle_memWf {s : State} (h1 : Nat) (inc : Nat) (k : State → State) (h : s.memWf = true) (hk : ∀ t, t.memWf = true → (k t).memWf = true) : (withHandle s h1 inc k).memWf = true := by
  unfold withHandle
  try dsimp only
  repeat' (first
    | with_reducible assumption
    | with_reducible apply hk
    | with_reducible apply raise_memWf
    | with_reducible apply memWf_foldl
    | split
    | simp only [memWf_mk]
    | with_reducible intro)

theorem withD_memWf {s : State} (code : Nat) (inc : Nat) (k : State → Option Nat → State) (h : s.memWf = true) (hk : ∀ t x0, t.memWf = true → (k t x0).memWf = true) : (withD s code inc k).memWf = true := by
  unfold withD
  try dsimp only
  repeat' (first
    | with_reducible assumption
    | with_reducible apply hk
    | with_reducible apply reads_memWf
    | with_reducible apply withHandle_memWf
    | with_reducible apply memWf_foldl
    | split
    | simp only [memWf_mk]
    | with_reducible intro)

theorem withQueue_memWf {s : State} (chan : Nat) (k : State → State) (h : s.memWf = true) (hk : ∀ t, t.memWf = true → (k t).memWf = true) : (withQueue s chan k).memWf = true := by
  unfold withQueue
  try dsimp only
  repeat' (first
    | with_reducible assumption
    | with_reducible apply hk
    | with_reducible apply raise_memWf
    | with_reducible apply bumpStall_memWf
    | with_reducible apply freeze_memWf
    | with_reducible apply memWf_foldl
    | split
    | simp only [memWf_mk]
    | with_reducible intro)

theorem holdEngine_memWf {s : State} (e : ECmd) (h : s.memWf = true) : (holdEngine s e).memWf = true := by
  unfold holdEngine
  try dsimp only
  repeat' (first
    | with_reducible assumption
    | with_reducible apply addCmd_memWf
    | with_reducible apply reads_memWf
    | with_reducible apply raise_memWf
    | with_reducible apply memWf_foldl
    | split
    | simp only [memWf_mk]
    | with_reducible intro)

theorem issueCpy_memWf {s : State} (f : F3) (src : Nat) (dst : Nat) (rowBytes : Nat) (rows : Nat) (sp : Int) (dp : Int) (handle : Option Nat) (inc : Nat) (h : s.memWf = true) : (issueCpy s f src dst rowBytes rows sp dp handle inc).memWf = true := by
  unfold issueCpy
  try dsimp only
  repeat' (first
    | with_reducible assumption
    | with_reducible apply withQueue_memWf
    | with_reducible apply holdEngine_memWf
    | with_reducible apply reads_memWf
    | with_reducible apply memWf_foldl
    | split
    | simp only [memWf_mk]
    | with_reducible intro)

theorem withDesc_memWf {s : State} (va : Nat) (n : Nat) (align : Nat) (k : State → List Byte → State) (h : s.memWf = true) (hk : ∀ t x0, t.memWf = true → (k t x0).memWf = true) : (withDesc s va n align k).memWf = true := by
  unfold withDesc
  try dsimp only
  repeat' (first
    | with_reducible assumption
    | with_reducible apply hk
    | with_reducible apply withAccess_memWf
    | with_reducible apply loadWhole_memWf
    | with_reducible apply noteChecks_memWf
    | with_reducible apply noteTouched_memWf
    | (refine memWf_of_fst (by with_reducible assumption) ?_)
    | (refine memWf_of_snd (by with_reducible assumption) ?_)
    | with_reducible apply memWf_foldl
    | split
    | simp only [memWf_mk]
    | with_reducible intro)

theorem popCommand_memWf {s : State} (sto : Bool) (k : State → Word → State) (h : s.memWf = true) (hk : ∀ t x0, t.memWf = true → (k t x0).memWf = true) : (popCommand s sto k).memWf = true := by
  unfold popCommand
  try dsimp only
  repeat' (first
    | with_reducible assumption
    | with_reducible apply hk
    | with_reducible apply raise_memWf
    | with_reducible apply popRandom_memWf
    | with_reducible apply memWf_foldl
    | split
    | simp only [memWf_mk]
    | with_reducible intro)

theorem eccFailure_memWf {s : State} (c : Nat) (k : LoadCheck) (l : Loc) (h : s.memWf = true) : (eccFailure s c k l).memWf = true := by
  unfold eccFailure
  try dsimp only
  repeat' (first
    | with_reducible assumption
    | with_reducible apply takeFault_memWf
    | with_reducible apply setPoison_memWf
    | with_reducible apply onCore_memWf
    | with_reducible apply rollback_memWf
    | with_reducible apply memWf_foldl
    | split
    | simp only [memWf_mk]
    | with_reducible intro)

theorem refuseHost_memWf {s : State} (link : Nat) (h : s.memWf = true) : (refuseHost s link).memWf = true := by
  unfold refuseHost
  try dsimp only
  repeat' (first
    | with_reducible assumption
    | with_reducible apply memWf_foldl
    | split
    | simp only [memWf_mk]
    | with_reducible intro)

theorem countRefusal_memWf {s : State} (link : Nat) (bad : Bool) (h : s.memWf = true) : (countRefusal s link bad).memWf = true := by
  unfold countRefusal
  try dsimp only
  repeat' (first
    | with_reducible assumption
    | with_reducible apply refuseHost_memWf
    | with_reducible apply memWf_foldl
    | split
    | simp only [memWf_mk]
    | with_reducible intro)

theorem countTaken_memWf {s : State} (pid : Nat) (queue : Nat) (h : s.memWf = true) : (countTaken s pid queue).memWf = true := by
  unfold countTaken
  try dsimp only
  repeat' (first
    | with_reducible assumption
    | with_reducible apply applyAdd_memWf
    | with_reducible apply tickClock_memWf
    | with_reducible apply memWf_foldl
    | split
    | simp only [memWf_mk]
    | with_reducible intro)

theorem writePointer_memWf {s : State} (e : ECmd) (n : Nat) (h : s.memWf = true) : (writePointer s e n).memWf = true := by
  unfold writePointer
  try dsimp only
  repeat' (first
    | with_reducible assumption
    | with_reducible apply applyAdd_memWf
    | with_reducible apply memWf_foldl
    | split
    | simp only [memWf_mk]
    | with_reducible intro)

theorem cpyDeliver_memWf {s : State} (e : ECmd) (h : s.memWf = true) : (cpyDeliver s e).memWf = true := by
  unfold cpyDeliver
  try dsimp only
  repeat' (first
    | with_reducible assumption
    | with_reducible apply engineFlt_memWf
    | with_reducible apply cmdWrite_memWf
    | with_reducible apply writePointer_memWf
    | with_reducible apply cmdMerge_memWf
    | with_reducible apply updCmd_memWf
    | with_reducible apply push_memWf
    | (refine memWf_of_ok (by with_reducible assumption) ?_)
    | with_reducible apply done_memWf
    | with_reducible apply memWf_foldl
    | split
    | simp only [memWf_mk]
    | with_reducible intro)

theorem discardPacket_memWf {s : State} (port : Nat) (h : s.memWf = true) : (discardPacket s port).memWf = true := by
  unfold discardPacket
  try dsimp only
  repeat' (first
    | with_reducible assumption
    | with_reducible apply setPort_memWf
    | with_reducible apply memWf_foldl
    | split
    | simp only [memWf_mk]
    | with_reducible intro)

theorem drainOne_memWf {s : State} (c : Nat) (h : s.memWf = true) : (drainOne s c).memWf = true := by
  unfold drainOne
  try dsimp only
  repeat' (first
    | with_reducible assumption
    | with_reducible apply performEntry_memWf
    | with_reducible apply onCore_memWf
    | with_reducible apply drain_memWf
    | with_reducible apply memWf_foldl
    | split
    | simp only [memWf_mk]
    | with_reducible intro)

theorem dropInval_memWf {s : State} (ask : Instr) (h : s.memWf = true) : (dropInval s ask).memWf = true := by
  unfold dropInval
  try dsimp only
  repeat' (first
    | with_reducible assumption
    | with_reducible apply onMgmt_memWf
    | with_reducible apply memWf_foldl
    | split
    | simp only [memWf_mk]
    | with_reducible intro)

theorem dropSlots_memWf {s : State} (id : Nat) (h : s.memWf = true) : (dropSlots s id).memWf = true := by
  unfold dropSlots
  try dsimp only
  repeat' (first
    | with_reducible assumption
    | with_reducible apply memWf_foldl
    | split
    | simp only [memWf_mk]
    | with_reducible intro)

theorem emptyCore_memWf {s : State} (c : Nat) (h : s.memWf = true) : (emptyCore s c).memWf = true := by
  unfold emptyCore
  try dsimp only
  repeat' (first
    | with_reducible assumption
    | with_reducible apply setCore_memWf
    | with_reducible apply memWf_foldl
    | split
    | simp only [memWf_mk]
    | with_reducible intro)

theorem leatFaults_memWf {s : State} (n : Nat) (code : Nat) (h : s.memWf = true) : (leatFaults s n code).memWf = true := by
  unfold leatFaults
  try dsimp only
  repeat' (first
    | with_reducible assumption
    | with_reducible apply setLeat_memWf
    | with_reducible apply memWf_foldl
    | split
    | simp only [memWf_mk]
    | with_reducible intro)

theorem leatRaise_memWf {s : State} (code : Nat) (h : s.memWf = true) : (leatRaise s code).memWf = true := by
  unfold leatRaise
  try dsimp only
  repeat' (first
    | with_reducible assumption
    | with_reducible apply memWf_foldl
    | split
    | simp only [memWf_mk]
    | with_reducible intro)

theorem txuGive_memWf {s : State} (status : Nat) (h : s.memWf = true) : (txuGive s status).memWf = true := by
  unfold txuGive
  try dsimp only
  repeat' (first
    | with_reducible assumption
    | with_reducible apply leatGive_memWf
    | with_reducible apply memWf_foldl
    | split
    | simp only [memWf_mk]
    | with_reducible intro)

theorem openEntry_memWf {s : State} (c : Nat) (port : Nat) (h : s.memWf = true) : (openEntry s c port).memWf = true := by
  unfold openEntry
  try dsimp only
  repeat' (first
    | with_reducible assumption
    | with_reducible apply setConn_memWf
    | with_reducible apply memWf_foldl
    | split
    | simp only [memWf_mk]
    | with_reducible intro)

theorem txdescOpen_memWf {s : State} (k : Nat) (w : Word) (h : s.memWf = true) : (txdescOpen s k w).1.memWf = true := by
  unfold txdescOpen
  try dsimp only
  repeat' (first
    | with_reducible assumption
    | with_reducible apply openEntry_memWf
    | with_reducible apply sendCtl_memWf
    | with_reducible apply setPort_memWf
    | with_reducible apply sendFrame_memWf
    | with_reducible apply sendOn_memWf
    | with_reducible apply memWf_foldl
    | split
    | simp only [memWf_mk]
    | with_reducible intro)

theorem pcGo_memWf {s : State} (a : Nat) (h : s.memWf = true) : (pcGo s a).memWf = true := by
  unfold pcGo
  try dsimp only
  repeat' (first
    | with_reducible assumption
    | with_reducible apply memWf_foldl
    | split
    | simp only [memWf_mk]
    | with_reducible intro)

theorem leatHalts_memWf {s : State} (n : Nat) (h : s.memWf = true) : (leatHalts s n).memWf = true := by
  unfold leatHalts
  try dsimp only
  repeat' (first
    | with_reducible assumption
    | with_reducible apply setLeat_memWf
    | with_reducible apply memWf_foldl
    | split
    | simp only [memWf_mk]
    | with_reducible intro)

theorem settleLater_memWf {s : State} (c : Nat) (h : s.memWf = true) : (settleLater s c).memWf = true := by
  unfold settleLater
  try dsimp only
  repeat' (first
    | with_reducible assumption
    | with_reducible apply performCmd_memWf
    | with_reducible apply onCore_memWf
    | with_reducible apply memWf_foldl
    | split
    | simp only [memWf_mk]
    | with_reducible intro)

theorem tileDone_memWf {s0 : State} (c : Nat) (hs0 : s0.memWf = true) : (tileDone s0 c).memWf = true := by
  unfold tileDone
  try dsimp only
  repeat' (first
    | with_reducible assumption
    | with_reducible apply settleLater_memWf
    | with_reducible apply retryEngines_memWf
    | with_reducible apply push_memWf
    | with_reducible apply tryComplete_memWf
    | with_reducible apply memWf_foldl
    | split
    | simp only [memWf_mk]
    | with_reducible intro)

theorem tileFault_memWf {s : State} (c : Nat) (m : MOp) (code : Nat) (info : Nat) (h : s.memWf = true) : (tileFault s c m code info).memWf = true := by
  unfold tileFault
  try dsimp only
  repeat' (first
    | with_reducible assumption
    | with_reducible apply addPending_memWf
    | with_reducible apply memWf_foldl
    | split
    | simp only [memWf_mk]
    | with_reducible intro)

theorem sealForm_memWf {s : State} (mill : Nat) (m : MOp) (b : Bool) (h : s.memWf = true) : (sealForm s mill m b).memWf = true := by
  unfold sealForm
  try dsimp only
  repeat' (first
    | with_reducible assumption
    | with_reducible apply setForm_memWf
    | with_reducible apply memWf_foldl
    | split
    | simp only [memWf_mk]
    | with_reducible intro)

theorem putRanges_memWf {s : State} (mill : Nat) (x2 : List (Nat × Nat)) (x3 : List Byte) (h : s.memWf = true) : (putRanges s mill x2 x3).memWf = true := by
  induction x2 generalizing s x3 with
  | nil =>
    unfold putRanges
    try dsimp only
    repeat' (first
      | with_reducible assumption
      | with_reducible apply putBytes_memWf
      | with_reducible apply memWf_foldl
      | split
      | simp only [memWf_mk]
      | with_reducible intro)
  | cons p ps ih =>
    unfold putRanges
    try dsimp only
    repeat' (first
      | with_reducible apply ih
      | with_reducible assumption
      | with_reducible apply putBytes_memWf
      | with_reducible apply memWf_foldl
      | split
      | simp only [memWf_mk]
      | with_reducible intro)

theorem runSeal_memWf {s : State} (c : Nat) (m : MOp) (h : s.memWf = true) : someWf (runSeal s c m) := by
  unfold runSeal
  try dsimp only
  repeat' (first
    | with_reducible assumption
    | with_reducible apply someWf_some
    | with_reducible exact someWf_none
    | with_reducible apply putBytes_memWf
    | with_reducible apply sealForm_memWf
    | with_reducible apply putRanges_memWf
    | exact someWf_none
    | with_reducible apply someWf_map
    | with_reducible apply memWf_foldl
    | split
    | simp only [memWf_mk]
    | with_reducible intro)

theorem writeRows_memWf {s : State} (mill : Nat) (t : Tile) (x3 : Nat) (x4 : List (List Nat)) (h : s.memWf = true) : (writeRows s mill t x3 x4).memWf = true := by
  induction x4 generalizing s x3 with
  | nil =>
    unfold writeRows
    try dsimp only
    repeat' (first
      | with_reducible assumption
      | with_reducible apply putBytes_memWf
      | with_reducible apply memWf_foldl
      | split
      | simp only [memWf_mk]
      | with_reducible intro)
  | cons p ps ih =>
    unfold writeRows
    try dsimp only
    repeat' (first
      | with_reducible apply ih
      | with_reducible assumption
      | with_reducible apply putBytes_memWf
      | with_reducible apply memWf_foldl
      | split
      | simp only [memWf_mk]
      | with_reducible intro)

theorem writeTile_memWf {s : State} (mill : Nat) (t : Tile) (rows : List (List Nat)) (strip : List Byte) (h : s.memWf = true) : (writeTile s mill t rows strip).memWf = true := by
  unfold writeTile
  try dsimp only
  repeat' (first
    | with_reducible assumption
    | with_reducible apply putBytes_memWf
    | with_reducible apply writeRows_memWf
    | with_reducible apply memWf_foldl
    | split
    | simp only [memWf_mk]
    | with_reducible intro)

theorem runTile_memWf {s : State} (c : Nat) (m : MOp) (h : s.memWf = true) : (runTile s c m).1.memWf = true := by
  unfold runTile
  try dsimp only
  repeat' (first
    | with_reducible assumption
    | with_reducible apply setMill_memWf
    | with_reducible apply writeTile_memWf
    | with_reducible apply memWf_foldl
    | split
    | simp only [memWf_mk]
    | with_reducible intro)

theorem tileResult_memWf {s : State} (c : Nat) (m : MOp) (h : s.memWf = true) : (tileResult s c m).memWf = true := by
  unfold tileResult
  try dsimp only
  repeat' (first
    | with_reducible assumption
    | with_reducible apply tileFault_memWf
    | with_reducible apply runSeal_memWf
    | with_reducible apply tickClock_memWf
    | with_reducible apply runTile_memWf
    | with_reducible apply onCore_memWf
    | (refine memWf_of_some (by with_reducible assumption) ?_)
    | (refine memWf_of_fst (by with_reducible assumption) ?_)
    | (refine memWf_of_snd (by with_reducible assumption) ?_)
    | with_reducible apply orStatus_memWf
    | with_reducible apply memWf_foldl
    | split
    | simp only [memWf_mk]
    | with_reducible intro)

theorem stopRolledBack_memWf {s : State} (c : Nat) (h : s.memWf = true) : (stopRolledBack s c).memWf = true := by
  unfold stopRolledBack
  try dsimp only
  repeat' (first
    | with_reducible assumption
    | with_reducible apply onCore_memWf
    | with_reducible apply drainAll_memWf
    | with_reducible apply memWf_foldl
    | split
    | simp only [memWf_mk]
    | with_reducible intro)

theorem placeAgain_memWf {s : State} (h1 : Job) (h : s.memWf = true) : (placeAgain s h1).memWf = true := by
  unfold placeAgain
  try dsimp only
  repeat' (first
    | with_reducible assumption
    | with_reducible apply push_memWf
    | with_reducible apply setJob_memWf
    | with_reducible apply setPart_memWf
    | with_reducible apply memWf_foldl
    | split
    | simp only [memWf_mk]
    | with_reducible intro)

theorem startStrand_memWf {s0 : State} (j : Job) (i : Nat) (c : Nat) (rules : Option (List (List Byte))) (hs0 : s0.memWf = true) : (startStrand s0 j i c rules).memWf = true := by
  unfold startStrand
  try dsimp only
  repeat' (first
    | with_reducible assumption
    | with_reducible apply draw_memWf
    | with_reducible apply setCore_memWf
    | (refine memWf_of_fst (by with_reducible assumption) ?_)
    | (refine memWf_of_snd (by with_reducible assumption) ?_)
    | with_reducible apply memWf_foldl
    | split
    | simp only [memWf_mk]
    | with_reducible intro)

theorem firstDispatch_memWf {s : State} (h1 : Job) (h : s.memWf = true) : (firstDispatch s h1).memWf = true := by
  unfold firstDispatch
  lift_lets
  intro p id mills n cores j src s1 s2 s3 s4 rules
  have a1 : s1.memWf = true := setPart_memWf _ _ h
  clear_value s1
  have a2 : s2.memWf = true := writeRec_memWf _ _ _ (writeRec_memWf _ _ _ (setJob_memWf _ _ a1))
  clear_value s2
  have a3 : s3.memWf = true := memWf_foldl a2 fun t x ht => freshMill_memWf _ _ ht
  clear_value s3
  have a4 : s4.memWf = true := memWf_ite a3 (memWf_foldl a3 fun t x ht => mergeWith_memWf _ _ ht)
  clear_value s4
  exact memWf_foldl a4 fun t x ht => startStrand_memWf _ _ _ _ ht

theorem preemptVictim_memWf (h0 : Job) {s : State} (v : Job) (h : s.memWf = true) : (preemptVictim h0 s v).memWf = true := by
  unfold preemptVictim
  try dsimp only
  repeat' (first
    | with_reducible assumption
    | with_reducible apply preemptJob_memWf
    | with_reducible apply memWf_foldl
    | split
    | simp only [memWf_mk]
    | with_reducible intro)

theorem putInRange_memWf {s : State} (r : HbmRange) (off : Nat) (bs : List Byte) (h : s.memWf = true) : (putInRange s r off bs).memWf = true := by
  unfold putInRange
  try dsimp only
  repeat' (first
    | with_reducible assumption
    | with_reducible apply putBytes_memWf
    | with_reducible apply wakeHome_memWf
    | with_reducible apply memWf_foldl
    | split
    | simp only [memWf_mk]
    | with_reducible intro)

theorem writeImage_memWf {s : State} (j : Job) (base : Nat) (tagAddr : Nat) (nonce : Nat) (hold : Bool) (h : s.memWf = true) : (writeImage s j base tagAddr nonce hold).memWf = true := by
  unfold writeImage
  try dsimp only
  repeat' (first
    | with_reducible assumption
    | with_reducible apply putInRange_memWf
    | with_reducible apply memWf_foldl
    | split
    | simp only [memWf_mk]
    | with_reducible intro)

theorem moveWaiters_memWf {s : State} (j : Job) (h : s.memWf = true) : (moveWaiters s j).memWf = true := by
  unfold moveWaiters
  try dsimp only
  repeat' (first
    | with_reducible assumption
    | with_reducible apply memWf_foldl
    | split
    | simp only [memWf_mk]
    | with_reducible intro)

theorem restoreCounters_memWf {s : State} (c : Nat) (rec_ : List Byte) (h : s.memWf = true) : (restoreCounters s c rec_).memWf = true := by
  unfold restoreCounters
  try dsimp only
  repeat' (first
    | with_reducible assumption
    | with_reducible apply setCtr_memWf
    | with_reducible apply memWf_foldl
    | split
    | simp only [memWf_mk]
    | with_reducible intro)

theorem restoreLocals_memWf (recs : Nat → List Byte) (j : Job) {s : State} (h : s.memWf = true) : (restoreLocals recs j s).memWf = true := by
  unfold restoreLocals
  try dsimp only
  repeat' (first
    | with_reducible assumption
    | with_reducible apply restoreCounters_memWf
    | with_reducible apply setCtr_memWf
    | with_reducible apply memWf_foldl
    | split
    | simp only [memWf_mk]
    | with_reducible intro)

theorem restoreMill_memWf (p : Partition) (base : Nat) (first : Nat) (j : Job) {s : State} (m : Nat) (k : Nat) (h : s.memWf = true) : (restoreMill p base first j s m k).memWf = true := by
  unfold restoreMill
  try dsimp only
  repeat' (first
    | with_reducible assumption
    | with_reducible apply putBytes_memWf
    | with_reducible apply zeroBanks_memWf
    | with_reducible apply setForm_memWf
    | with_reducible apply setCtr_memWf
    | with_reducible apply wakeDie_memWf
    | with_reducible apply setMill_memWf
    | with_reducible apply memWf_foldl
    | split
    | simp only [memWf_mk]
    | with_reducible intro)

theorem formFull_memWf {s : State} (id : Nat) (h : s.memWf = true) : (formFull s id).memWf = true := by
  unfold formFull
  try dsimp only
  repeat' (first
    | with_reducible assumption
    | with_reducible apply formGroup_memWf
    | with_reducible apply memWf_foldl
    | split
    | simp only [memWf_mk]
    | with_reducible intro)

theorem seatStrand_memWf {s : State} (c : Nat) (x : Core) (h : s.memWf = true) : (seatStrand s c x).memWf = true := by
  unfold seatStrand
  try dsimp only
  repeat' (first
    | with_reducible assumption
    | with_reducible apply setCore_memWf
    | with_reducible apply wakeMill_memWf
    | with_reducible apply memWf_foldl
    | split
    | simp only [memWf_mk]
    | with_reducible intro)

theorem restoreStrand_memWf (recs : Nat → List Byte) (j : Job) {s : State} (strand : Nat) (c : Nat) (h : s.memWf = true) : (restoreStrand recs j s strand c).memWf = true := by
  unfold restoreStrand
  try dsimp only
  repeat' (first
    | with_reducible assumption
    | with_reducible apply seatStrand_memWf
    | with_reducible apply offerPage_memWf
    | with_reducible apply onCore_memWf
    | with_reducible apply memWf_foldl
    | split
    | simp only [memWf_mk]
    | with_reducible intro)

theorem returnQuads_memWf {s : State} (id : Nat) (h : s.memWf = true) : (returnQuads s id).memWf = true := by
  unfold returnQuads
  try dsimp only
  repeat' (first
    | with_reducible assumption
    | with_reducible apply setJob_memWf
    | with_reducible apply memWf_foldl
    | split
    | simp only [memWf_mk]
    | with_reducible intro)

theorem mapPage_memWf {s : State} (pid : Nat) (asp : Nat) (va : Nat) (entryAddr : Nat) (entry : Nat) (h : s.memWf = true) : (mapPage s pid asp va entryAddr entry).memWf = true := by
  unfold mapPage
  try dsimp only
  repeat' (first
    | with_reducible assumption
    | with_reducible apply putBytes_memWf
    | with_reducible apply invalidateSpace_memWf
    | with_reducible apply writeAt_memWf
    | with_reducible apply memWf_foldl
    | split
    | simp only [memWf_mk]
    | with_reducible intro)

theorem invalidateHost_memWf {s : State} (pid : Nat) (asp : Nat) (page : Nat) (n : Nat) (h : s.memWf = true) : (invalidateHost s pid asp page n).memWf = true := by
  unfold invalidateHost
  try dsimp only
  repeat' (first
    | with_reducible assumption
    | with_reducible apply dropEverywhere_memWf
    | with_reducible apply memWf_foldl
    | split
    | simp only [memWf_mk]
    | with_reducible intro)

theorem loseLink_memWf {s : State} (link : Nat) (h : s.memWf = true) : (loseLink s link).memWf = true := by
  unfold loseLink
  try dsimp only
  repeat' (first
    | with_reducible assumption
    | with_reducible apply loseHost_memWf
    | with_reducible apply memWf_foldl
    | split
    | simp only [memWf_mk]
    | with_reducible intro)

theorem sendQueue_memWf {s : State} (e : ECmd) (cb : List CBlock) (h : s.memWf = true) : (sendQueue s e cb).memWf = true := by
  unfold sendQueue
  try dsimp only
  repeat' (first
    | with_reducible assumption
    | with_reducible apply enqueue_memWf
    | with_reducible apply updCmd_memWf
    | with_reducible apply push_memWf
    | with_reducible apply pumpConn_memWf
    | with_reducible apply done_memWf
    | with_reducible apply memWf_foldl
    | split
    | simp only [memWf_mk]
    | with_reducible intro)

theorem sendCompress_memWf {s : State} (e : ECmd) (h : s.memWf = true) : okWf2 (sendCompress s e) := by
  unfold sendCompress
  try dsimp only
  repeat' (first
    | with_reducible assumption
    | with_reducible apply okWf2_ok
    | with_reducible exact okWf2_error
    | with_reducible apply cmdWrite_memWf
    | with_reducible apply cmdMergeAll_memWf
    | with_reducible apply cmdMerge_memWf
    | (refine memWf_of_ok (by with_reducible assumption) ?_)
    | with_reducible apply memWf_foldl
    | split
    | simp only [memWf_mk]
    | with_reducible intro)

theorem startSend_memWf {s : State} (e : ECmd) (h : s.memWf = true) : (startSend s e).memWf = true := by
  unfold startSend
  try dsimp only
  repeat' (first
    | with_reducible assumption
    | with_reducible apply engineFlt_memWf
    | with_reducible apply sendQueue_memWf
    | with_reducible apply sendCompress_memWf
    | (refine memWf_of_ok2 (by with_reducible assumption) ?_)
    | (refine memWf_of_ok2' (by with_reducible assumption) ?_)
    | with_reducible apply memWf_foldl
    | split
    | simp only [memWf_mk]
    | with_reducible intro)

theorem mcstWrite_memWf {s : State} (e : ECmd) (x : List Byte × List Bool) (x3 : List Nat) (h : s.memWf = true) : okWf (mcstWrite s e x x3) := by
  induction x3 generalizing s with
  | nil =>
    unfold mcstWrite
    try dsimp only
    repeat' (first
      | with_reducible assumption
      | with_reducible apply okWf_ok
      | with_reducible exact okWf_error
      | with_reducible apply cmdLand_memWf
      | (refine memWf_of_ok (by with_reducible assumption) ?_)
      | with_reducible apply memWf_foldl
      | split
      | simp only [memWf_mk]
      | with_reducible intro)
  | cons p ps ih =>
    unfold mcstWrite
    try dsimp only
    repeat' (first
      | with_reducible apply ih
      | with_reducible assumption
      | with_reducible apply okWf_ok
      | with_reducible exact okWf_error
      | with_reducible apply cmdLand_memWf
      | (refine memWf_of_ok (by with_reducible assumption) ?_)
      | with_reducible apply memWf_foldl
      | split
      | simp only [memWf_mk]
      | with_reducible intro)

theorem setGraph_memWf {s : State} (die : Nat) (slot : Nat) (g : Graph) (h : s.memWf = true) : (setGraph s die slot g).memWf = true := by
  unfold setGraph
  try dsimp only
  repeat' (first
    | with_reducible assumption
    | with_reducible apply setDie_memWf
    | with_reducible apply memWf_foldl
    | split
    | simp only [memWf_mk]
    | with_reducible intro)

theorem opRuns_memWf {s : State} (die : Nat) (slot : Nat) (g : Graph) (i : Nat) (st : Nat) (h : s.memWf = true) : (opRuns s die slot g i st).memWf = true := by
  unfold opRuns
  try dsimp only
  repeat' (first
    | with_reducible assumption
    | with_reducible apply setGraph_memWf
    | with_reducible apply memWf_foldl
    | split
    | simp only [memWf_mk]
    | with_reducible intro)

theorem writeSpans_memWf {s : State} (e : ECmd) (o : List Byte) (x3 : List (Nat × Nat)) (x4 : List Byte) (x5 : List Bool) (h : s.memWf = true) : okWf (writeSpans s e o x3 x4 x5) := by
  induction x3 generalizing s x4 x5 with
  | nil =>
    unfold writeSpans
    try dsimp only
    repeat' (first
      | with_reducible assumption
      | with_reducible apply okWf_ok
      | with_reducible exact okWf_error
      | with_reducible apply cmdWrite_memWf
      | (refine memWf_of_ok (by with_reducible assumption) ?_)
      | with_reducible apply memWf_foldl
      | split
      | simp only [memWf_mk]
      | with_reducible intro)
  | cons p ps ih =>
    unfold writeSpans
    try dsimp only
    repeat' (first
      | with_reducible apply ih
      | with_reducible assumption
      | with_reducible apply okWf_ok
      | with_reducible exact okWf_error
      | with_reducible apply cmdWrite_memWf
      | (refine memWf_of_ok (by with_reducible assumption) ?_)
      | with_reducible apply memWf_foldl
      | split
      | simp only [memWf_mk]
      | with_reducible intro)

theorem graphArrive_memWf {s : State} (die : Nat) (slot : Nat) (inst : Nat) (op : Nat) (pos : Nat) (mx : Bool) (mx4 : Bool) (aux : Nat) (bs : List Byte) (cs : List Bool) (clean : Bool) (own : Graph → List Byte → Bool) (h : s.memWf = true) : arrWf (graphArrive s die slot inst op pos mx mx4 aux bs cs clean own) := by
  unfold graphArrive
  try dsimp only
  repeat' (first
    | with_reducible assumption
    | with_reducible apply arrWf_placed
    | with_reducible apply arrWf_notArmed
    | with_reducible exact arrWf_discard
    | with_reducible exact arrWf_stop
    | with_reducible apply writeSpans_memWf
    | with_reducible apply engineFlt_memWf
    | with_reducible apply setGraph_memWf
    | with_reducible apply push_memWf
    | (refine memWf_of_ok (by with_reducible assumption) ?_)
    | with_reducible apply memWf_foldl
    | split
    | simp only [memWf_mk]
    | with_reducible intro)

theorem sendInternal_memWf {s : State} (e : ECmd) (die : Nat) (g : Graph) (i : Nat) (h : s.memWf = true) : (sendInternal s e die g i).memWf = true := by
  unfold sendInternal
  try dsimp only
  repeat' (first
    | with_reducible assumption
    | with_reducible apply engineFlt_memWf
    | with_reducible apply push_memWf
    | with_reducible apply opRuns_memWf
    | with_reducible apply graphArrive_memWf
    | with_reducible apply cmdMerge_memWf
    | with_reducible apply stopEngine_memWf
    | (refine memWf_of_notArmed (by with_reducible assumption) ?_)
    | (refine memWf_of_placed (by with_reducible assumption) ?_)
    | with_reducible apply memWf_foldl
    | split
    | simp only [memWf_mk]
    | with_reducible intro)

theorem opEffect_memWf {s : State} (e : ECmd) (i : Nat) (o : List Byte) (h : s.memWf = true) : okWf1 (opEffect s e i o) := by
  unfold opEffect
  try dsimp only
  repeat' (first
    | with_reducible assumption
    | with_reducible apply okWf1_ok
    | with_reducible exact okWf1_error
    | with_reducible apply cmdWrite_memWf
    | (refine memWf_of_ok (by with_reducible assumption) ?_)
    | (refine memWf_of_ok1' (by with_reducible assumption) ?_)
    | with_reducible apply memWf_foldl
    | split
    | simp only [memWf_mk]
    | with_reducible intro)

theorem opFinish_memWf {s : State} (e : ECmd) (die : Nat) (slot : Nat) (g : Graph) (op : Nat) (h : s.memWf = true) : okWf (opFinish s e die slot g op) := by
  unfold opFinish
  try dsimp only
  repeat' (first
    | with_reducible assumption
    | with_reducible apply okWf_ok
    | with_reducible exact okWf_error
    | with_reducible apply cmdPut_memWf
    | with_reducible apply retryGraphs_memWf
    | with_reducible apply completeCmd_memWf
    | with_reducible apply setGraph_memWf
    | with_reducible apply pushReady_memWf
    | (refine memWf_of_ok (by with_reducible assumption) ?_)
    | with_reducible apply memWf_foldl
    | split
    | simp only [memWf_mk]
    | with_reducible intro)

theorem mvsFinish_memWf {s : State} (c : Nat) (m : MOp) (h : s.memWf = true) : (mvsFinish s c m).memWf = true := by
  unfold mvsFinish
  try dsimp only
  repeat' (first
    | with_reducible assumption
    | with_reducible apply tileFault_memWf
    | with_reducible apply retryEngines_memWf
    | with_reducible apply dropCmd_memWf
    | with_reducible apply tileResult_memWf
    | with_reducible apply completeCmd_memWf
    | with_reducible apply memWf_foldl
    | split
    | simp only [memWf_mk]
    | with_reducible intro)

theorem noteMac_memWf {s : State} (port : Nat) (an : Nat) (h : s.memWf = true) : (noteMac s port an).memWf = true := by
  unfold noteMac
  try dsimp only
  repeat' (first
    | with_reducible assumption
    | with_reducible apply setPort_memWf
    | with_reducible apply memWf_foldl
    | split
    | simp only [memWf_mk]
    | with_reducible intro)

theorem takeFrame_memWf {s : State} (port : Nat) (an : Nat) (k : State → State) (h : s.memWf = true) (hk : ∀ t, t.memWf = true → (k t).memWf = true) : (takeFrame s port an k).memWf = true := by
  unfold takeFrame
  try dsimp only
  repeat' (first
    | with_reducible assumption
    | with_reducible apply hk
    | with_reducible apply noteMac_memWf
    | with_reducible apply memWf_foldl
    | split
    | simp only [memWf_mk]
    | with_reducible intro)

theorem receivePacket_memWf {s0 : State} (p : Packet) (k : State → State) (hs0 : s0.memWf = true) (hk : ∀ t, t.memWf = true → (k t).memWf = true) : (receivePacket s0 p k).memWf = true := by
  unfold receivePacket
  try dsimp only
  repeat' (first
    | with_reducible assumption
    | with_reducible apply hk
    | with_reducible apply noteMac_memWf
    | with_reducible apply discardPacket_memWf
    | with_reducible apply answerPacket_memWf
    | with_reducible apply sendCtl_memWf
    | with_reducible apply takeFrame_memWf
    | with_reducible apply memWf_foldl
    | split
    | simp only [memWf_mk]
    | with_reducible intro)

theorem refusePacket_memWf {s : State} (p : Packet) (h : s.memWf = true) : (refusePacket s p).memWf = true := by
  unfold refusePacket
  try dsimp only
  repeat' (first
    | with_reducible assumption
    | with_reducible apply sendCtl_memWf
    | with_reducible apply memWf_foldl
    | split
    | simp only [memWf_mk]
    | with_reducible intro)

theorem stopSender_memWf {s : State} (p : Packet) (h : s.memWf = true) : (stopSender s p).memWf = true := by
  unfold stopSender
  try dsimp only
  repeat' (first
    | with_reducible assumption
    | with_reducible apply acceptPacket_memWf
    | with_reducible apply sendCtl_memWf
    | with_reducible apply memWf_foldl
    | split
    | simp only [memWf_mk]
    | with_reducible intro)

theorem poisonPacket_memWf {s : State} (p : Packet) (slot : Nat) (chunk : Nat) (h : s.memWf = true) : (poisonPacket s p slot chunk).memWf = true := by
  unfold poisonPacket
  try dsimp only
  repeat' (first
    | with_reducible assumption
    | with_reducible apply sendCtl_memWf
    | with_reducible apply leatEvent_memWf
    | with_reducible apply memWf_foldl
    | split
    | simp only [memWf_mk]
    | with_reducible intro)

theorem slotLand_memWf {s : State} (die : Nat) (r : List Piece × List TlbEnt) (bs : List Byte) (cs : List Bool) (h : s.memWf = true) : (slotLand s die r bs cs).memWf = true := by
  unfold slotLand
  try dsimp only
  repeat' (first
    | with_reducible assumption
    | with_reducible apply tickClock_memWf
    | with_reducible apply landPieces_memWf
    | with_reducible apply noteWrite_memWf
    | with_reducible apply memWf_foldl
    | split
    | simp only [memWf_mk]
    | with_reducible intro)

theorem slotAdd_memWf {s : State} (die : Nat) (a : Armed) (va : Nat) (bs : List Byte) (cs : List Bool) (h : s.memWf = true) : okWf (slotAdd s die a va bs cs) := by
  unfold slotAdd
  try dsimp only
  repeat' (first
    | with_reducible assumption
    | with_reducible apply okWf_ok
    | with_reducible exact okWf_error
    | with_reducible apply slotLand_memWf
    | with_reducible apply memWf_foldl
    | split
    | simp only [memWf_mk]
    | with_reducible intro)

theorem slotWrite_memWf {s : State} (die : Nat) (a : Armed) (va : Nat) (bs : List Byte) (cs : List Bool) (h : s.memWf = true) : okWf (slotWrite s die a va bs cs) := by
  unfold slotWrite
  try dsimp only
  repeat' (first
    | with_reducible assumption
    | with_reducible apply okWf_ok
    | with_reducible exact okWf_error
    | with_reducible apply slotLand_memWf
    | with_reducible apply memWf_foldl
    | split
    | simp only [memWf_mk]
    | with_reducible intro)

theorem placeRows_memWf {s : State} (die : Nat) (a : Armed) (col : Nat) (x4 : Nat) (x5 : List (List Byte × List Bool)) (h : s.memWf = true) : okWf (placeRows s die a col x4 x5) := by
  induction x5 generalizing s x4 with
  | nil =>
    unfold placeRows
    try dsimp only
    repeat' (first
      | with_reducible assumption
      | with_reducible apply okWf_ok
      | with_reducible exact okWf_error
      | with_reducible apply slotAdd_memWf
      | with_reducible apply slotWrite_memWf
      | (refine memWf_of_ok (by with_reducible assumption) ?_)
      | with_reducible apply memWf_foldl
      | split
      | simp only [memWf_mk]
      | with_reducible intro)
  | cons p ps ih =>
    unfold placeRows
    try dsimp only
    repeat' (first
      | with_reducible apply ih
      | with_reducible assumption
      | with_reducible apply okWf_ok
      | with_reducible exact okWf_error
      | with_reducible apply slotAdd_memWf
      | with_reducible apply slotWrite_memWf
      | (refine memWf_of_ok (by with_reducible assumption) ?_)
      | with_reducible apply memWf_foldl
      | split
      | simp only [memWf_mk]
      | with_reducible intro)

theorem setArmed_memWf {s : State} (die : Nat) (slot : Nat) (a : Armed) (h : s.memWf = true) : (setArmed s die slot a).memWf = true := by
  unfold setArmed
  try dsimp only
  repeat' (first
    | with_reducible assumption
    | with_reducible apply setDie_memWf
    | with_reducible apply memWf_foldl
    | split
    | simp only [memWf_mk]
    | with_reducible intro)

theorem slotFault_memWf {s : State} (die : Nat) (slot : Nat) (a : Armed) (f : Flt) (h : s.memWf = true) : (slotFault s die slot a f).memWf = true := by
  unfold slotFault
  try dsimp only
  repeat' (first
    | with_reducible assumption
    | with_reducible apply askAts_memWf
    | with_reducible apply setArmed_memWf
    | with_reducible apply requestPage_memWf
    | with_reducible apply dropAts_memWf
    | with_reducible apply freeSlot_memWf
    | with_reducible apply landBefore_memWf
    | with_reducible apply memWf_foldl
    | split
    | simp only [memWf_mk]
    | with_reducible intro)

theorem slotPut_memWf {s : State} (die : Nat) (a : Armed) (va : Nat) (bs : List Byte) (h : s.memWf = true) : okWf (slotPut s die a va bs) := by
  unfold slotPut
  try dsimp only
  repeat' (first
    | with_reducible assumption
    | with_reducible apply okWf_ok
    | with_reducible exact okWf_error
    | with_reducible apply slotLand_memWf
    | with_reducible apply memWf_foldl
    | split
    | simp only [memWf_mk]
    | with_reducible intro)

theorem publishTile_memWf {s : State} (die : Nat) (slot : Nat) (a : Armed) (t : Nat) (h : s.memWf = true) : okWf1 (publishTile s die slot a t) := by
  unfold publishTile
  try dsimp only
  repeat' (first
    | with_reducible assumption
    | with_reducible apply okWf1_ok
    | with_reducible exact okWf1_error
    | with_reducible apply slotPut_memWf
    | with_reducible apply tickClock_memWf
    | with_reducible apply doAdd_memWf
    | with_reducible apply setArmed_memWf
    | (refine memWf_of_ok (by with_reducible assumption) ?_)
    | (refine memWf_of_ok1' (by with_reducible assumption) ?_)
    | with_reducible apply addFrom_memWf
    | with_reducible apply memWf_foldl
    | split
    | simp only [memWf_mk]
    | with_reducible intro)

theorem publishAll_memWf {s : State} (die : Nat) (slot : Nat) (a : Armed) (x4 : List Nat) (h : s.memWf = true) : okWf1 (publishAll s die slot a x4) := by
  induction x4 generalizing s a with
  | nil =>
    unfold publishAll
    try dsimp only
    repeat' (first
      | with_reducible assumption
      | with_reducible apply okWf1_ok
      | with_reducible exact okWf1_error
      | with_reducible apply publishTile_memWf
      | (refine memWf_of_ok1 (by with_reducible assumption) ?_)
      | (refine memWf_of_ok1' (by with_reducible assumption) ?_)
      | with_reducible apply memWf_foldl
      | split
      | simp only [memWf_mk]
      | with_reducible intro)
  | cons p ps ih =>
    unfold publishAll
    try dsimp only
    repeat' (first
      | with_reducible apply ih
      | with_reducible assumption
      | with_reducible apply okWf1_ok
      | with_reducible exact okWf1_error
      | with_reducible apply publishTile_memWf
      | (refine memWf_of_ok1 (by with_reducible assumption) ?_)
      | (refine memWf_of_ok1' (by with_reducible assumption) ?_)
      | with_reducible apply memWf_foldl
      | split
      | simp only [memWf_mk]
      | with_reducible intro)

theorem landChunk_memWf {s : State} (die : Nat) (slot : Nat) (a : Armed) (c : Nat) (h : s.memWf = true) : okWf1 (landChunk s die slot a c) := by
  unfold landChunk
  try dsimp only
  repeat' (first
    | with_reducible assumption
    | with_reducible apply okWf1_ok
    | with_reducible exact okWf1_error
    | with_reducible apply slotPut_memWf
    | with_reducible apply publishAll_memWf
    | with_reducible apply setArmed_memWf
    | with_reducible apply tickClock_memWf
    | with_reducible apply doAdd_memWf
    | (refine memWf_of_ok (by with_reducible assumption) ?_)
    | (refine memWf_of_ok1 (by with_reducible assumption) ?_)
    | (refine memWf_of_ok1' (by with_reducible assumption) ?_)
    | with_reducible apply addFrom_memWf
    | with_reducible apply memWf_foldl
    | split
    | simp only [memWf_mk]
    | with_reducible intro)

theorem landChunks_memWf {s : State} (die : Nat) (slot : Nat) (a : Armed) (x4 : List Nat) (h : s.memWf = true) : okWf1 (landChunks s die slot a x4) := by
  induction x4 generalizing s a with
  | nil =>
    unfold landChunks
    try dsimp only
    repeat' (first
      | with_reducible assumption
      | with_reducible apply okWf1_ok
      | with_reducible exact okWf1_error
      | with_reducible apply landChunk_memWf
      | (refine memWf_of_ok1 (by with_reducible assumption) ?_)
      | (refine memWf_of_ok1' (by with_reducible assumption) ?_)
      | with_reducible apply memWf_foldl
      | split
      | simp only [memWf_mk]
      | with_reducible intro)
  | cons p ps ih =>
    unfold landChunks
    try dsimp only
    repeat' (first
      | with_reducible apply ih
      | with_reducible assumption
      | with_reducible apply okWf1_ok
      | with_reducible exact okWf1_error
      | with_reducible apply landChunk_memWf
      | (refine memWf_of_ok1 (by with_reducible assumption) ?_)
      | (refine memWf_of_ok1' (by with_reducible assumption) ?_)
      | with_reducible apply memWf_foldl
      | split
      | simp only [memWf_mk]
      | with_reducible intro)

theorem placeTensor_memWf {s : State} (die : Nat) (slot : Nat) (a : Armed) (h4 : List Byte) (bs : List Byte) (cs : List Bool) (h : s.memWf = true) : okWf (placeTensor s die slot a h4 bs cs) := by
  unfold placeTensor
  try dsimp only
  repeat' (first
    | with_reducible assumption
    | with_reducible apply okWf_ok
    | with_reducible exact okWf_error
    | with_reducible apply placeRows_memWf
    | with_reducible apply landChunks_memWf
    | with_reducible apply setArmed_memWf
    | (refine memWf_of_ok (by with_reducible assumption) ?_)
    | (refine memWf_of_ok1 (by with_reducible assumption) ?_)
    | (refine memWf_of_ok1' (by with_reducible assumption) ?_)
    | with_reducible apply memWf_foldl
    | split
    | simp only [memWf_mk]
    | with_reducible intro)

theorem receiveTensor_memWf {s : State} (p : Packet) (h : s.memWf = true) : (receiveTensor s p).memWf = true := by
  unfold receiveTensor
  try dsimp only
  repeat' (first
    | with_reducible assumption
    | with_reducible apply refusePacket_memWf
    | with_reducible apply stopSender_memWf
    | with_reducible apply poisonPacket_memWf
    | with_reducible apply placeRows_memWf
    | with_reducible apply slotFault_memWf
    | with_reducible apply placeTensor_memWf
    | with_reducible apply acceptPacket_memWf
    | (refine memWf_of_ok (by with_reducible assumption) ?_)
    | with_reducible apply memWf_foldl
    | split
    | simp only [memWf_mk]
    | with_reducible intro)

theorem receiveGraph_memWf {s : State} (p : Packet) (h : s.memWf = true) : (receiveGraph s p).memWf = true := by
  unfold receiveGraph
  try dsimp only
  repeat' (first
    | with_reducible assumption
    | with_reducible apply refusePacket_memWf
    | with_reducible apply graphArrive_memWf
    | with_reducible apply acceptPacket_memWf
    | with_reducible apply stopSender_memWf
    | with_reducible apply poisonPacket_memWf
    | (refine memWf_of_notArmed (by with_reducible assumption) ?_)
    | (refine memWf_of_placed (by with_reducible assumption) ?_)
    | with_reducible apply memWf_foldl
    | split
    | simp only [memWf_mk]
    | with_reducible intro)

theorem receiveCounter_memWf {s : State} (p : Packet) (h : s.memWf = true) : (receiveCounter s p).memWf = true := by
  unfold receiveCounter
  try dsimp only
  repeat' (first
    | with_reducible assumption
    | with_reducible apply stopSender_memWf
    | with_reducible apply acceptPacket_memWf
    | with_reducible apply applyAdd_memWf
    | with_reducible apply memWf_foldl
    | split
    | simp only [memWf_mk]
    | with_reducible intro)

theorem reportSent_memWf {s : State} (c : Nat) (psn : Nat) (code : Nat) (data : List Byte) (h : s.memWf = true) : (reportSent s c psn code data).memWf = true := by
  unfold reportSent
  try dsimp only
  repeat' (first
    | with_reducible assumption
    | with_reducible apply leatEvent_memWf
    | with_reducible apply memWf_foldl
    | split
    | simp only [memWf_mk]
    | with_reducible intro)

theorem finishClose_memWf {s : State} (c : Nat) (h : s.memWf = true) : (finishClose s c).memWf = true := by
  unfold finishClose
  try dsimp only
  repeat' (first
    | with_reducible assumption
    | with_reducible apply refuseAdds_memWf
    | with_reducible apply setConn_memWf
    | with_reducible apply memWf_foldl
    | split
    | simp only [memWf_mk]
    | with_reducible intro)

theorem nextOf_memWf {s : State} (x1 : Out) (h : s.memWf = true) (hx1 : outWf x1) : (nextOf s x1).memWf = true := by
  unfold nextOf
  split
  · exact hx1 _ rfl
  · exact h

theorem haltLeats_memWf {s : State} (h : s.memWf = true) : (haltLeats s).memWf = true := by
  unfold haltLeats
  try dsimp only
  repeat' (first
    | with_reducible assumption
    | with_reducible apply lctlWrite_memWf
    | with_reducible apply memWf_foldl
    | split
    | simp only [memWf_mk]
    | with_reducible intro)

theorem freezeOld_memWf {s : State} (kind : Nat) (h : s.memWf = true) : (freezeOld s kind).memWf = true := by
  unfold freezeOld
  try dsimp only
  repeat' (first
    | with_reducible assumption
    | with_reducible apply onMgmt_memWf
    | with_reducible apply haltLeats_memWf
    | with_reducible apply errorWaiting_memWf
    | with_reducible apply memWf_foldl
    | split
    | simp only [memWf_mk]
    | with_reducible intro)

theorem deferOnce_memWf {s : State} (i : Instr) (h : s.memWf = true) : (State.deferOnce s i).memWf = true := by
  unfold State.deferOnce
  try dsimp only
  repeat' (first
    | with_reducible assumption
    | with_reducible apply defer_memWf
    | with_reducible apply memWf_foldl
    | split
    | simp only [memWf_mk]
    | with_reducible intro)

theorem execContextComplete_memWf (id : Nat) {s : State} (h : s.memWf = true) : outWf (execContextComplete id s) := by
  unfold execContextComplete
  try dsimp only
  repeat' (first
    | with_reducible assumption
    | with_reducible apply outWf_next
    | with_reducible apply writeStatus_memWf
    | with_reducible apply dropSlots_memWf
    | with_reducible apply endClaims_memWf
    | with_reducible apply doAdd_memWf
    | with_reducible apply setJob_memWf
    | with_reducible apply done_memWf
    | with_reducible apply push_memWf
    | with_reducible apply returnQuads_memWf
    | (refine memWf_of_next (by with_reducible assumption) ?_)
    | with_reducible apply deferOnce_memWf
    | with_reducible apply addFrom_memWf
    | with_reducible apply memWf_foldl
    | split
    | simp only [memWf_mk]
    | with_reducible intro)

theorem execDispatch_memWf (pid : Nat) {s : State} (h : s.memWf = true) : outWf (execDispatch pid s) := by
  unfold execDispatch
  try dsimp only
  repeat' (first
    | with_reducible assumption
    | with_reducible apply outWf_next
    | with_reducible apply done_memWf
    | with_reducible apply serveQueues_memWf
    | with_reducible apply push_memWf
    | with_reducible apply placeAgain_memWf
    | with_reducible apply firstDispatch_memWf
    | with_reducible apply preemptVictim_memWf
    | (refine memWf_of_next (by with_reducible assumption) ?_)
    | with_reducible apply deferOnce_memWf
    | with_reducible apply memWf_foldl
    | split
    | simp only [memWf_mk]
    | with_reducible intro)

theorem execLaunchQueueEntryAccept_memWf (pid : Nat) (queue : Nat) {s : State} (h : s.memWf = true) : outWf (execLaunchQueueEntryAccept pid queue s) := by
  unfold execLaunchQueueEntryAccept
  try dsimp only
  repeat' (first
    | with_reducible assumption
    | with_reducible apply outWf_next
    | with_reducible apply putBytes_memWf
    | with_reducible apply done_memWf
    | with_reducible apply acceptMore_memWf
    | with_reducible apply countTaken_memWf
    | with_reducible apply consumeEntry_memWf
    | with_reducible apply nextSubmission_memWf
    | with_reducible apply submit_memWf
    | (refine memWf_of_next (by with_reducible assumption) ?_)
    | (refine memWf_of_fst (by with_reducible assumption) ?_)
    | (refine memWf_of_snd (by with_reducible assumption) ?_)
    | with_reducible apply deferOnce_memWf
    | with_reducible apply wakeHome_memWf
    | with_reducible apply writeAt_memWf
    | with_reducible apply memWf_foldl
    | split
    | simp only [memWf_mk]
    | with_reducible intro)

theorem execAgePeriodExpiry_memWf (pid : Nat) (task : Nat) {s : State} (h : s.memWf = true) : outWf (execAgePeriodExpiry pid task s) := by
  unfold execAgePeriodExpiry
  try dsimp only
  repeat' (first
    | with_reducible assumption
    | with_reducible apply outWf_next
    | with_reducible apply push_memWf
    | with_reducible apply setJob_memWf
    | with_reducible apply defer_memWf
    | with_reducible apply memWf_foldl
    | split
    | simp only [memWf_mk]
    | with_reducible intro)

theorem endSlice_memWf {s : State} (pid : Nat) (gang : Nat) (h : s.memWf = true) : (endSlice s pid gang).memWf = true := by
  unfold endSlice
  try dsimp only
  repeat' (first
    | with_reducible assumption
    | with_reducible apply preemptJob_memWf
    | with_reducible apply setPart_memWf
    | with_reducible apply push_memWf
    | with_reducible apply memWf_foldl
    | split
    | simp only [memWf_mk]
    | with_reducible intro)

end Sys2Proof.Machine
end

