-- ==== Sys2Proof/Laws/MemFormExec.lean ====
section
/-! SUPPORT. The canonical form of the memories through every meaning, one lemma each, and through issue. -/

set_option linter.unusedSimpArgs false

namespace Sys2Proof.Machine

theorem execGangSliceStart_memWf (pid : Nat) (gang : Nat) (k : Nat) {s : State} (h : s.memWf = true) : outWf (execGangSliceStart pid gang k s) := by
  unfold execGangSliceStart
  try dsimp only
  repeat' (first
    | with_reducible assumption
    | with_reducible apply outWf_next
    | with_reducible apply push_memWf
    | with_reducible apply setPart_memWf
    | with_reducible apply deferOnce_memWf
    | with_reducible apply endSlice_memWf
    | with_reducible apply done_memWf
    | with_reducible apply memWf_foldl
    | split
    | simp only [memWf_mk]
    | with_reducible intro)

theorem execGangSliceEnd_memWf (pid : Nat) (gang : Nat) {s : State} (h : s.memWf = true) : outWf (execGangSliceEnd pid gang s) := by
  unfold execGangSliceEnd
  try dsimp only
  repeat' (first
    | with_reducible assumption
    | with_reducible apply outWf_next
    | with_reducible apply setPart_memWf
    | with_reducible apply done_memWf
    | with_reducible apply push_memWf
    | with_reducible apply preemptJob_memWf
    | (refine memWf_of_next (by with_reducible assumption) ?_)
    | with_reducible apply deferOnce_memWf
    | with_reducible apply endSlice_memWf
    | with_reducible apply memWf_foldl
    | split
    | simp only [memWf_mk]
    | with_reducible intro)

theorem execGangMiss_memWf (pid : Nat) (gang : Nat) (task : Nat) (k : Nat) {s : State} (h : s.memWf = true) : outWf (execGangMiss pid gang task k s) := by
  unfold execGangMiss
  try dsimp only
  repeat' (first
    | with_reducible assumption
    | with_reducible apply outWf_next
    | with_reducible apply recordSet_memWf
    | with_reducible apply recordAdd_memWf
    | with_reducible apply push_memWf
    | with_reducible apply setJob_memWf
    | with_reducible apply deferOnce_memWf
    | with_reducible apply memWf_foldl
    | split
    | simp only [memWf_mk]
    | with_reducible intro)

theorem mapThen_memWf {s : State} (ask : Instr) (pid : Nat) (asp : Nat) (va : Nat) (entryAddr : Nat) (entry : Nat) (k : State → State) (h : s.memWf = true) (hk : ∀ t, t.memWf = true → (k t).memWf = true) : (mapThen s ask pid asp va entryAddr entry k).memWf = true := by
  unfold mapThen
  try dsimp only
  repeat' (first
    | with_reducible assumption
    | with_reducible apply hk
    | with_reducible apply dropInval_memWf
    | with_reducible apply mapPage_memWf
    | with_reducible apply waitInval_memWf
    | with_reducible apply memWf_foldl
    | split
    | simp only [memWf_mk]
    | with_reducible intro)

theorem execPageDevice_memWf (core : Nat) (mapped : Bool) (entryAddr : Nat) (entry : Nat) {s : State} (h : s.memWf = true) : outWf (execPageDevice core mapped entryAddr entry s) := by
  unfold execPageDevice
  try dsimp only
  repeat' (first
    | with_reducible assumption
    | with_reducible apply outWf_next
    | with_reducible apply done_memWf
    | with_reducible apply answerCore_memWf
    | with_reducible apply mapPage_memWf
    | with_reducible apply answerSaved_memWf
    | with_reducible apply answerCmd_memWf
    | with_reducible apply answerSlot_memWf
    | (refine memWf_of_next (by with_reducible assumption) ?_)
    | with_reducible apply deferOnce_memWf
    | with_reducible apply mapThen_memWf
    | with_reducible apply memWf_foldl
    | split
    | simp only [memWf_mk]
    | with_reducible intro)

theorem workRun_memWf (w : Work) {s : State} (h : s.memWf = true) : (Work.run w s).memWf = true := by
  unfold Work.run
  try dsimp only
  repeat' (first
    | with_reducible assumption
    | with_reducible apply yieldAsk_memWf
    | with_reducible apply nextOf_memWf
    | with_reducible apply execContextComplete_memWf
    | with_reducible apply execDispatch_memWf
    | with_reducible apply execLaunchQueueEntryAccept_memWf
    | with_reducible apply execAgePeriodExpiry_memWf
    | with_reducible apply execGangSliceStart_memWf
    | with_reducible apply execGangSliceEnd_memWf
    | with_reducible apply execGangMiss_memWf
    | with_reducible apply execPageDevice_memWf
    | (refine memWf_of_next (by with_reducible assumption) ?_)
    | with_reducible apply memWf_foldl
    | split
    | simp only [memWf_mk]
    | with_reducible intro)

theorem execReadBootStatus_memWf (tag : Nat) {s : State} (h : s.memWf = true) : outWf (execReadBootStatus tag s) := by
  unfold execReadBootStatus
  try dsimp only
  repeat' (first
    | with_reducible assumption
    | with_reducible apply outWf_next
    | with_reducible apply waitReq_memWf
    | with_reducible apply replyWith_memWf
    | with_reducible apply memWf_foldl
    | split
    | simp only [memWf_mk]
    | with_reducible intro)

theorem serve_memWf (r : Request) {s : State} (t : Option State) (h : s.memWf = true) (ht : someWf t) : outWf (serve r s t) := by
  unfold serve
  split
  · exact outWf_next (waitReq_memWf _ h)
  split
  · exact done_memWf (reply_memWf _ _ _ (memWf_of_some rfl ht))
  · exact outWf_next (reply_memWf _ _ _ h)

theorem generateKeys_memWf {s : State} (p : Partition) (h : s.memWf = true) : (generateKeys s p).memWf = true := by
  unfold generateKeys
  try dsimp only
  repeat' (first
    | with_reducible assumption
    | with_reducible apply memWf_foldl
    | split
    | simp only [memWf_mk]
    | with_reducible intro)

theorem execWritePartitionDescriptor_memWf (tag : Nat) (body : List Byte) {s : State} (h : s.memWf = true) : outWf (execWritePartitionDescriptor tag body s) := by
  unfold execWritePartitionDescriptor
  try dsimp only
  repeat' (first
    | with_reducible assumption
    | with_reducible apply outWf_next
    | with_reducible apply serve_memWf
    | with_reducible apply rekeyPart_memWf
    | with_reducible apply configure_memWf
    | with_reducible apply serveQueues_memWf
    | with_reducible apply changeDesc_memWf
    | (refine memWf_of_next (by with_reducible assumption) ?_)
    | with_reducible apply someWf_some
    | exact someWf_none
    | with_reducible apply someWf_map
    | with_reducible apply generateKeys_memWf
    | with_reducible apply memWf_foldl
    | split
    | simp only [memWf_mk]
    | with_reducible intro)

theorem execActivatePartition_memWf (tag : Nat) (pid : Nat) {s : State} (h : s.memWf = true) : outWf (execActivatePartition tag pid s) := by
  unfold execActivatePartition
  try dsimp only
  repeat' (first
    | with_reducible assumption
    | with_reducible apply outWf_next
    | with_reducible apply serve_memWf
    | with_reducible apply serveQueues_memWf
    | with_reducible apply setPart_memWf
    | (refine memWf_of_next (by with_reducible assumption) ?_)
    | with_reducible apply someWf_some
    | exact someWf_none
    | with_reducible apply someWf_map
    | with_reducible apply memWf_foldl
    | split
    | simp only [memWf_mk]
    | with_reducible intro)

theorem execDestroyPartition_memWf (tag : Nat) (pid : Nat) {s : State} (h : s.memWf = true) : outWf (execDestroyPartition tag pid s) := by
  unfold execDestroyPartition
  try dsimp only
  repeat' (first
    | with_reducible assumption
    | with_reducible apply outWf_next
    | with_reducible apply serve_memWf
    | with_reducible apply freePart_memWf
    | with_reducible apply drain_memWf
    | (refine memWf_of_next (by with_reducible assumption) ?_)
    | with_reducible apply someWf_some
    | exact someWf_none
    | with_reducible apply someWf_map
    | with_reducible apply memWf_foldl
    | split
    | simp only [memWf_mk]
    | with_reducible intro)

theorem execWriteLaunchQueueDescriptor_memWf (tag : Nat) (pid : Nat) (queue : Nat) (body : List Byte) {s : State} (h : s.memWf = true) : outWf (execWriteLaunchQueueDescriptor tag pid queue body s) := by
  unfold execWriteLaunchQueueDescriptor
  try dsimp only
  repeat' (first
    | with_reducible assumption
    | with_reducible apply outWf_next
    | with_reducible apply serve_memWf
    | with_reducible apply setPart_memWf
    | (refine memWf_of_next (by with_reducible assumption) ?_)
    | with_reducible apply someWf_some
    | exact someWf_none
    | with_reducible apply someWf_map
    | with_reducible apply memWf_foldl
    | split
    | simp only [memWf_mk]
    | with_reducible intro)

theorem execWriteAddressSpaceDescriptor_memWf (tag : Nat) (pid : Nat) (space : Nat) (body : List Byte) {s : State} (h : s.memWf = true) : outWf (execWriteAddressSpaceDescriptor tag pid space body s) := by
  unfold execWriteAddressSpaceDescriptor
  try dsimp only
  repeat' (first
    | with_reducible assumption
    | with_reducible apply outWf_next
    | with_reducible apply serve_memWf
    | with_reducible apply setPart_memWf
    | (refine memWf_of_next (by with_reducible assumption) ?_)
    | with_reducible apply someWf_some
    | exact someWf_none
    | with_reducible apply someWf_map
    | with_reducible apply memWf_foldl
    | split
    | simp only [memWf_mk]
    | with_reducible intro)

theorem execWriteGangDescriptor_memWf (tag : Nat) (pid : Nat) (gang : Nat) (body : List Byte) {s : State} (h : s.memWf = true) : outWf (execWriteGangDescriptor tag pid gang body s) := by
  unfold execWriteGangDescriptor
  try dsimp only
  repeat' (first
    | with_reducible assumption
    | with_reducible apply outWf_next
    | with_reducible apply serve_memWf
    | with_reducible apply setPart_memWf
    | (refine memWf_of_next (by with_reducible assumption) ?_)
    | with_reducible apply someWf_some
    | exact someWf_none
    | with_reducible apply someWf_map
    | with_reducible apply setJob_memWf
    | with_reducible apply memWf_foldl
    | split
    | simp only [memWf_mk]
    | with_reducible intro)

theorem askInvalidate_memWf (tag : Nat) (pid : Nat) (space : Nat) (base : Nat) (len : Nat) {s : State} (h : s.memWf = true) : outWf (askInvalidate tag pid space base len s) := by
  unfold askInvalidate
  try dsimp only
  repeat' (first
    | with_reducible assumption
    | with_reducible apply outWf_next
    | with_reducible apply serve_memWf
    | with_reducible apply invalidateSpace_memWf
    | with_reducible apply done_memWf
    | with_reducible apply waitInval_memWf
    | (refine memWf_of_next (by with_reducible assumption) ?_)
    | with_reducible apply someWf_some
    | exact someWf_none
    | with_reducible apply someWf_map
    | with_reducible apply memWf_foldl
    | split
    | simp only [memWf_mk]
    | with_reducible intro)

theorem execOpenConnection_memWf (tag : Nat) (pid : Nat) (index : Nat) (body : List Byte) {s : State} (h : s.memWf = true) : outWf (execOpenConnection tag pid index body s) := by
  unfold execOpenConnection
  try dsimp only
  repeat' (first
    | with_reducible assumption
    | with_reducible apply outWf_next
    | with_reducible apply serve_memWf
    | with_reducible apply sendCtl_memWf
    | with_reducible apply setConn_memWf
    | (refine memWf_of_next (by with_reducible assumption) ?_)
    | with_reducible apply someWf_some
    | exact someWf_none
    | with_reducible apply someWf_map
    | with_reducible apply memWf_foldl
    | split
    | simp only [memWf_mk]
    | with_reducible intro)

theorem execCloseConnection_memWf (tag : Nat) (pid : Nat) (index : Nat) {s : State} (h : s.memWf = true) : outWf (execCloseConnection tag pid index s) := by
  unfold execCloseConnection
  try dsimp only
  repeat' (first
    | with_reducible assumption
    | with_reducible apply outWf_next
    | with_reducible apply serve_memWf
    | with_reducible apply closeConn_memWf
    | (refine memWf_of_next (by with_reducible assumption) ?_)
    | with_reducible apply someWf_some
    | exact someWf_none
    | with_reducible apply someWf_map
    | with_reducible apply memWf_foldl
    | split
    | simp only [memWf_mk]
    | with_reducible intro)

theorem execLoadKeySlot_memWf (tag : Nat) (slot : Nat) (body : List Byte) {s : State} (h : s.memWf = true) : outWf (execLoadKeySlot tag slot body s) := by
  unfold execLoadKeySlot
  try dsimp only
  repeat' (first
    | with_reducible assumption
    | with_reducible apply outWf_next
    | with_reducible apply serve_memWf
    | with_reducible apply rekeySlot_memWf
    | (refine memWf_of_next (by with_reducible assumption) ?_)
    | with_reducible apply someWf_some
    | exact someWf_none
    | with_reducible apply someWf_map
    | with_reducible apply memWf_foldl
    | split
    | simp only [memWf_mk]
    | with_reducible intro)

theorem execDetach_memWf (tag : Nat) (pid : Nat) {s : State} (h : s.memWf = true) : outWf (execDetach tag pid s) := by
  unfold execDetach
  try dsimp only
  repeat' (first
    | with_reducible assumption
    | with_reducible apply outWf_next
    | with_reducible apply serve_memWf
    | with_reducible apply loseHost_memWf
    | (refine memWf_of_next (by with_reducible assumption) ?_)
    | with_reducible apply someWf_some
    | exact someWf_none
    | with_reducible apply someWf_map
    | with_reducible apply memWf_foldl
    | split
    | simp only [memWf_mk]
    | with_reducible intro)

theorem execReattach_memWf (tag : Nat) (pid : Nat) {s : State} (h : s.memWf = true) : outWf (execReattach tag pid s) := by
  unfold execReattach
  try dsimp only
  repeat' (first
    | with_reducible assumption
    | with_reducible apply outWf_next
    | with_reducible apply serve_memWf
    | with_reducible apply unsuspend_memWf
    | with_reducible apply push_memWf
    | with_reducible apply noteSuspended_memWf
    | with_reducible apply rehost_memWf
    | (refine memWf_of_next (by with_reducible assumption) ?_)
    | with_reducible apply someWf_some
    | exact someWf_none
    | with_reducible apply someWf_map
    | with_reducible apply memWf_foldl
    | split
    | simp only [memWf_mk]
    | with_reducible intro)

theorem execKillSuspended_memWf (tag : Nat) (pid : Nat) {s : State} (h : s.memWf = true) : outWf (execKillSuspended tag pid s) := by
  unfold execKillSuspended
  try dsimp only
  repeat' (first
    | with_reducible assumption
    | with_reducible apply outWf_next
    | with_reducible apply serve_memWf
    | with_reducible apply killJob_memWf
    | with_reducible apply recordSet_memWf
    | (refine memWf_of_next (by with_reducible assumption) ?_)
    | with_reducible apply someWf_some
    | exact someWf_none
    | with_reducible apply someWf_map
    | with_reducible apply memWf_foldl
    | split
    | simp only [memWf_mk]
    | with_reducible intro)

theorem execReadPartitionRecord_memWf (tag : Nat) (pid : Nat) (which : Nat) {s : State} (h : s.memWf = true) : outWf (execReadPartitionRecord tag pid which s) := by
  unfold execReadPartitionRecord
  try dsimp only
  repeat' (first
    | with_reducible assumption
    | with_reducible apply outWf_next
    | with_reducible apply waitReq_memWf
    | with_reducible apply reply_memWf
    | with_reducible apply replyWith_memWf
    | with_reducible apply noteCorrected_memWf
    | with_reducible apply memWf_foldl
    | split
    | simp only [memWf_mk]
    | with_reducible intro)

theorem execRequestActivation_memWf (tag : Nat) (kind : Nat) (image : List Byte) {s : State} (h : s.memWf = true) : outWf (execRequestActivation tag kind image s) := by
  unfold execRequestActivation
  try dsimp only
  repeat' (first
    | with_reducible assumption
    | with_reducible apply outWf_next
    | with_reducible apply waitReq_memWf
    | with_reducible apply reply_memWf
    | with_reducible apply onAct_memWf
    | with_reducible apply measureAct_memWf
    | with_reducible apply memWf_foldl
    | split
    | simp only [memWf_mk]
    | with_reducible intro)

theorem execRaiseSvnFloor_memWf (tag : Nat) (kind : Nat) (floor : Nat) {s : State} (h : s.memWf = true) : outWf (execRaiseSvnFloor tag kind floor s) := by
  unfold execRaiseSvnFloor
  try dsimp only
  repeat' (first
    | with_reducible assumption
    | with_reducible apply outWf_next
    | with_reducible apply serve_memWf
    | with_reducible apply onMgmt_memWf
    | (refine memWf_of_next (by with_reducible assumption) ?_)
    | with_reducible apply someWf_some
    | exact someWf_none
    | with_reducible apply someWf_map
    | with_reducible apply memWf_foldl
    | split
    | simp only [memWf_mk]
    | with_reducible intro)

theorem installKeyHash_memWf {s : State} (pid : Nat) (hash : List Byte) (h : s.memWf = true) : (installKeyHash s pid hash).memWf = true := by
  unfold installKeyHash
  try dsimp only
  repeat' (first
    | with_reducible assumption
    | with_reducible apply setPart_memWf
    | with_reducible apply memWf_foldl
    | split
    | simp only [memWf_mk]
    | with_reducible intro)

theorem run_memWf (r : Request) {s : State} (h : s.memWf = true) : outWf (Request.run r s) := by
  unfold Request.run
  try dsimp only
  repeat' (first
    | with_reducible assumption
    | with_reducible apply outWf_next
    | with_reducible apply reply_memWf
    | with_reducible apply execReadBootStatus_memWf
    | with_reducible apply execWritePartitionDescriptor_memWf
    | with_reducible apply execActivatePartition_memWf
    | with_reducible apply execDestroyPartition_memWf
    | with_reducible apply execWriteLaunchQueueDescriptor_memWf
    | with_reducible apply execWriteAddressSpaceDescriptor_memWf
    | with_reducible apply execWriteGangDescriptor_memWf
    | with_reducible apply askInvalidate_memWf
    | with_reducible apply execOpenConnection_memWf
    | with_reducible apply execCloseConnection_memWf
    | with_reducible apply execLoadKeySlot_memWf
    | with_reducible apply execDetach_memWf
    | with_reducible apply execReattach_memWf
    | with_reducible apply execKillSuspended_memWf
    | with_reducible apply execReadPartitionRecord_memWf
    | with_reducible apply execRequestActivation_memWf
    | with_reducible apply execRaiseSvnFloor_memWf
    | (refine memWf_of_next (by with_reducible assumption) ?_)
    | with_reducible apply waitReq_memWf
    | with_reducible apply installKeyHash_memWf
    | with_reducible apply memWf_foldl
    | split
    | simp only [memWf_mk]
    | with_reducible intro)

theorem serveWaiting_memWf {s : State} (h : s.memWf = true) : (serveWaiting s).memWf = true := by
  unfold serveWaiting
  try dsimp only
  repeat' (first
    | with_reducible assumption
    | with_reducible apply nextOf_memWf
    | with_reducible apply run_memWf
    | with_reducible apply onMgmt_memWf
    | (refine memWf_of_next (by with_reducible assumption) ?_)
    | with_reducible apply memWf_foldl
    | split
    | simp only [memWf_mk]
    | with_reducible intro)

theorem resumeWork_memWf {s : State} (h : s.memWf = true) : (resumeWork s).memWf = true := by
  unfold resumeWork
  try dsimp only
  repeat' (first
    | with_reducible assumption
    | with_reducible apply push_memWf
    | with_reducible apply workRun_memWf
    | with_reducible apply onAct_memWf
    | with_reducible apply serveWaiting_memWf
    | (refine memWf_of_next (by with_reducible assumption) ?_)
    | with_reducible apply memWf_foldl
    | split
    | simp only [memWf_mk]
    | with_reducible intro)

theorem fallbackAct_memWf {s : State} (h : s.memWf = true) : (fallbackAct s).memWf = true := by
  unfold fallbackAct
  try dsimp only
  repeat' (first
    | with_reducible assumption
    | with_reducible apply haltLeats_memWf
    | with_reducible apply startImage_memWf
    | with_reducible apply resumeWork_memWf
    | with_reducible apply recordEvents_memWf
    | with_reducible apply memWf_foldl
    | split
    | simp only [memWf_mk]
    | with_reducible intro)

theorem sendAnswer_memWf {s : State} (body : List Byte) (h : s.memWf = true) : (sendAnswer s body).memWf = true := by
  unfold sendAnswer
  try dsimp only
  repeat' (first
    | with_reducible assumption
    | with_reducible apply putBytes_memWf
    | with_reducible apply doeCtl_memWf
    | with_reducible apply memWf_foldl
    | split
    | simp only [memWf_mk]
    | with_reducible intro)

theorem finishAnswer_memWf (msg : List Byte) (v13 : Bool) (a : Answer) (ha : a.st.memWf = true) : (finishAnswer msg v13 a).memWf = true := by
  unfold finishAnswer
  try dsimp only
  repeat' (first
    | with_reducible assumption
    | with_reducible apply setHash_memWf
    | with_reducible apply onMgmt_memWf
    | with_reducible apply sendAnswer_memWf
    | with_reducible apply memWf_foldl
    | split
    | simp only [memWf_mk]
    | with_reducible intro)

theorem inState_memWf (n : Nat) (h1 : State → Except Nat Answer) {s : State} (hk : ∀ t, t.memWf = true → ansWf (h1 t)) (h : s.memWf = true) : ansWf (inState n h1 s) := by
  unfold inState
  try dsimp only
  repeat' (first
    | with_reducible assumption
    | with_reducible apply ansWf_ok
    | with_reducible exact ansWf_error
    | with_reducible apply hk
    | with_reducible apply memWf_foldl
    | split
    | simp only [memWf_mk]
    | with_reducible intro)

theorem freeAnswer_memWf (code : Nat) (ctxs : List Nat) (f : Spdm → Spdm) {s : State} (h : s.memWf = true) : ansWf (freeAnswer code ctxs f s) := by
  unfold freeAnswer
  try dsimp only
  repeat' (first
    | with_reducible assumption
    | with_reducible apply ansWf_ok
    | with_reducible exact ansWf_error
    | with_reducible apply onMgmt_memWf
    | with_reducible apply memWf_foldl
    | split
    | simp only [memWf_mk]
    | with_reducible intro)

theorem inSession_memWf (n : Nat) (h1 : State → Except Nat Answer) {s : State} (hk : ∀ t, t.memWf = true → ansWf (h1 t)) (h : s.memWf = true) : ansWf (inSession n h1 s) := by
  unfold inSession
  try dsimp only
  repeat' (first
    | with_reducible assumption
    | with_reducible apply ansWf_ok
    | with_reducible exact ansWf_error
    | with_reducible apply hk
    | with_reducible apply memWf_foldl
    | split
    | simp only [memWf_mk]
    | with_reducible intro)

theorem receiveSpdm_memWf {s : State} (msg : List Byte) (h : s.memWf = true) : (receiveSpdm s msg).memWf = true := by
  unfold receiveSpdm
  try dsimp only
  repeat' (first
    | with_reducible assumption
    | with_reducible apply emit_memWf
    | with_reducible apply onMgmt_memWf
    | with_reducible apply memWf_foldl
    | split
    | simp only [memWf_mk]
    | with_reducible intro)

theorem aluOp_memWf (m : LM) {s : State} (f : Word → Word → Word) (h : s.memWf = true) : outWf (aluOp m s f) := by
  unfold aluOp
  try dsimp only
  repeat' (first
    | with_reducible assumption
    | with_reducible apply outWf_next
    | with_reducible apply leatOp_memWf
    | with_reducible apply leatGive_memWf
    | with_reducible apply memWf_foldl
    | split
    | simp only [memWf_mk]
    | with_reducible intro)

theorem bmuOp_memWf (m : LM) {s : State} (f : Word → Word → Word) (h : s.memWf = true) : outWf (bmuOp m s f) := by
  unfold bmuOp
  try dsimp only
  repeat' (first
    | with_reducible assumption
    | with_reducible apply outWf_next
    | with_reducible apply leatOp_memWf
    | with_reducible apply leatGive_memWf
    | with_reducible apply memWf_foldl
    | split
    | simp only [memWf_mk]
    | with_reducible intro)

theorem ccuOp_memWf (m : LM) {s : State} (f : State → Nat → Conn → Conn) (h : s.memWf = true) : outWf (ccuOp m s f) := by
  unfold ccuOp
  try dsimp only
  repeat' (first
    | with_reducible assumption
    | with_reducible apply outWf_next
    | with_reducible apply leatOp_memWf
    | with_reducible apply leatGive_memWf
    | with_reducible apply offerAll_memWf
    | with_reducible apply pumpConn_memWf
    | with_reducible apply resendHeld_memWf
    | with_reducible apply setConn_memWf
    | with_reducible apply sendOut_memWf
    | with_reducible apply memWf_foldl
    | split
    | simp only [memWf_mk]
    | with_reducible intro)

theorem execNop_memWf (x0 : Nat) {s : State} (h : s.memWf = true) : outWf (execNop x0 s) := by
  unfold execNop
  try dsimp only
  repeat' (first
    | with_reducible assumption
    | with_reducible apply outWf_next
    | with_reducible apply memWf_foldl
    | split
    | simp only [memWf_mk]
    | with_reducible intro)

theorem opAB_memWf (f : F3) (lat : Nat) {s : State} (res : Word → Word → Word × Nat) (h : s.memWf = true) : outWf (opAB f lat s res) := by
  unfold opAB
  try dsimp only
  repeat' (first
    | with_reducible assumption
    | with_reducible apply outWf_next
    | with_reducible apply slotOp_memWf
    | with_reducible apply giveS_memWf
    | with_reducible apply orStatus_memWf
    | with_reducible apply reads_memWf
    | with_reducible apply memWf_foldl
    | split
    | simp only [memWf_mk]
    | with_reducible intro)

theorem execAdd_memWf (f : F3) {s : State} (h : s.memWf = true) : outWf (execAdd f s) := by
  unfold execAdd
  try dsimp only
  repeat' (first
    | with_reducible assumption
    | with_reducible apply outWf_next
    | with_reducible apply opAB_memWf
    | (refine memWf_of_next (by with_reducible assumption) ?_)
    | with_reducible apply memWf_foldl
    | split
    | simp only [memWf_mk]
    | with_reducible intro)

theorem execSub_memWf (f : F3) {s : State} (h : s.memWf = true) : outWf (execSub f s) := by
  unfold execSub
  try dsimp only
  repeat' (first
    | with_reducible assumption
    | with_reducible apply outWf_next
    | with_reducible apply opAB_memWf
    | (refine memWf_of_next (by with_reducible assumption) ?_)
    | with_reducible apply memWf_foldl
    | split
    | simp only [memWf_mk]
    | with_reducible intro)

theorem execMul_memWf (f : F3) {s : State} (h : s.memWf = true) : outWf (execMul f s) := by
  unfold execMul
  try dsimp only
  repeat' (first
    | with_reducible assumption
    | with_reducible apply outWf_next
    | with_reducible apply opAB_memWf
    | (refine memWf_of_next (by with_reducible assumption) ?_)
    | with_reducible apply memWf_foldl
    | split
    | simp only [memWf_mk]
    | with_reducible intro)

theorem execMulh_memWf (f : F3) {s : State} (h : s.memWf = true) : outWf (execMulh f s) := by
  unfold execMulh
  try dsimp only
  repeat' (first
    | with_reducible assumption
    | with_reducible apply outWf_next
    | with_reducible apply opAB_memWf
    | (refine memWf_of_next (by with_reducible assumption) ?_)
    | with_reducible apply memWf_foldl
    | split
    | simp only [memWf_mk]
    | with_reducible intro)

theorem execDiv_memWf (f : F3) {s : State} (h : s.memWf = true) : outWf (execDiv f s) := by
  unfold execDiv
  try dsimp only
  repeat' (first
    | with_reducible assumption
    | with_reducible apply outWf_next
    | with_reducible apply opAB_memWf
    | (refine memWf_of_next (by with_reducible assumption) ?_)
    | with_reducible apply memWf_foldl
    | split
    | simp only [memWf_mk]
    | with_reducible intro)

theorem execRem_memWf (f : F3) {s : State} (h : s.memWf = true) : outWf (execRem f s) := by
  unfold execRem
  try dsimp only
  repeat' (first
    | with_reducible assumption
    | with_reducible apply outWf_next
    | with_reducible apply opAB_memWf
    | (refine memWf_of_next (by with_reducible assumption) ?_)
    | with_reducible apply memWf_foldl
    | split
    | simp only [memWf_mk]
    | with_reducible intro)

theorem execAnd_memWf (f : F3) {s : State} (h : s.memWf = true) : outWf (execAnd f s) := by
  unfold execAnd
  try dsimp only
  repeat' (first
    | with_reducible assumption
    | with_reducible apply outWf_next
    | with_reducible apply opAB_memWf
    | (refine memWf_of_next (by with_reducible assumption) ?_)
    | with_reducible apply memWf_foldl
    | split
    | simp only [memWf_mk]
    | with_reducible intro)

theorem execOr_memWf (f : F3) {s : State} (h : s.memWf = true) : outWf (execOr f s) := by
  unfold execOr
  try dsimp only
  repeat' (first
    | with_reducible assumption
    | with_reducible apply outWf_next
    | with_reducible apply opAB_memWf
    | (refine memWf_of_next (by with_reducible assumption) ?_)
    | with_reducible apply memWf_foldl
    | split
    | simp only [memWf_mk]
    | with_reducible intro)

theorem execXor_memWf (f : F3) {s : State} (h : s.memWf = true) : outWf (execXor f s) := by
  unfold execXor
  try dsimp only
  repeat' (first
    | with_reducible assumption
    | with_reducible apply outWf_next
    | with_reducible apply opAB_memWf
    | (refine memWf_of_next (by with_reducible assumption) ?_)
    | with_reducible apply memWf_foldl
    | split
    | simp only [memWf_mk]
    | with_reducible intro)

theorem execShl_memWf (f : F3) {s : State} (h : s.memWf = true) : outWf (execShl f s) := by
  unfold execShl
  try dsimp only
  repeat' (first
    | with_reducible assumption
    | with_reducible apply outWf_next
    | with_reducible apply opAB_memWf
    | (refine memWf_of_next (by with_reducible assumption) ?_)
    | with_reducible apply memWf_foldl
    | split
    | simp only [memWf_mk]
    | with_reducible intro)

theorem execShr_memWf (f : F3) {s : State} (h : s.memWf = true) : outWf (execShr f s) := by
  unfold execShr
  try dsimp only
  repeat' (first
    | with_reducible assumption
    | with_reducible apply outWf_next
    | with_reducible apply opAB_memWf
    | (refine memWf_of_next (by with_reducible assumption) ?_)
    | with_reducible apply memWf_foldl
    | split
    | simp only [memWf_mk]
    | with_reducible intro)

theorem execSra_memWf (f : F3) {s : State} (h : s.memWf = true) : outWf (execSra f s) := by
  unfold execSra
  try dsimp only
  repeat' (first
    | with_reducible assumption
    | with_reducible apply outWf_next
    | with_reducible apply opAB_memWf
    | (refine memWf_of_next (by with_reducible assumption) ?_)
    | with_reducible apply memWf_foldl
    | split
    | simp only [memWf_mk]
    | with_reducible intro)

theorem execMin_memWf (f : F3) {s : State} (h : s.memWf = true) : outWf (execMin f s) := by
  unfold execMin
  try dsimp only
  repeat' (first
    | with_reducible assumption
    | with_reducible apply outWf_next
    | with_reducible apply opAB_memWf
    | (refine memWf_of_next (by with_reducible assumption) ?_)
    | with_reducible apply memWf_foldl
    | split
    | simp only [memWf_mk]
    | with_reducible intro)

theorem execMax_memWf (f : F3) {s : State} (h : s.memWf = true) : outWf (execMax f s) := by
  unfold execMax
  try dsimp only
  repeat' (first
    | with_reducible assumption
    | with_reducible apply outWf_next
    | with_reducible apply opAB_memWf
    | (refine memWf_of_next (by with_reducible assumption) ?_)
    | with_reducible apply memWf_foldl
    | split
    | simp only [memWf_mk]
    | with_reducible intro)

theorem opA_memWf (f : F3) (lat : Nat) {s : State} (res : Word → Word) (h : s.memWf = true) : outWf (opA f lat s res) := by
  unfold opA
  try dsimp only
  repeat' (first
    | with_reducible assumption
    | with_reducible apply outWf_next
    | with_reducible apply slotOp_memWf
    | with_reducible apply giveS_memWf
    | with_reducible apply reads_memWf
    | with_reducible apply memWf_foldl
    | split
    | simp only [memWf_mk]
    | with_reducible intro)

theorem execClz_memWf (f : F3) {s : State} (h : s.memWf = true) : outWf (execClz f s) := by
  unfold execClz
  try dsimp only
  repeat' (first
    | with_reducible assumption
    | with_reducible apply outWf_next
    | with_reducible apply opA_memWf
    | (refine memWf_of_next (by with_reducible assumption) ?_)
    | with_reducible apply memWf_foldl
    | split
    | simp only [memWf_mk]
    | with_reducible intro)

theorem execPopc_memWf (f : F3) {s : State} (h : s.memWf = true) : outWf (execPopc f s) := by
  unfold execPopc
  try dsimp only
  repeat' (first
    | with_reducible assumption
    | with_reducible apply outWf_next
    | with_reducible apply opA_memWf
    | (refine memWf_of_next (by with_reducible assumption) ?_)
    | with_reducible apply memWf_foldl
    | split
    | simp only [memWf_mk]
    | with_reducible intro)

theorem execSel_memWf (f : F3) {s : State} (h : s.memWf = true) : outWf (execSel f s) := by
  unfold execSel
  try dsimp only
  repeat' (first
    | with_reducible assumption
    | with_reducible apply outWf_next
    | with_reducible apply opAB_memWf
    | (refine memWf_of_next (by with_reducible assumption) ?_)
    | with_reducible apply memWf_foldl
    | split
    | simp only [memWf_mk]
    | with_reducible intro)

theorem execSetp_memWf (f : F3) {s : State} (h : s.memWf = true) : outWf (execSetp f s) := by
  unfold execSetp
  try dsimp only
  repeat' (first
    | with_reducible assumption
    | with_reducible apply outWf_next
    | with_reducible apply slotOp_memWf
    | with_reducible apply giveP_memWf
    | with_reducible apply reads_memWf
    | with_reducible apply memWf_foldl
    | split
    | simp only [memWf_mk]
    | with_reducible intro)

theorem opImm_memWf (f : FI) {s : State} (res : Word → Word → Word) (h : s.memWf = true) : outWf (opImm f s res) := by
  unfold opImm
  try dsimp only
  repeat' (first
    | with_reducible assumption
    | with_reducible apply outWf_next
    | with_reducible apply slotOp_memWf
    | with_reducible apply giveS_memWf
    | with_reducible apply reads_memWf
    | with_reducible apply memWf_foldl
    | split
    | simp only [memWf_mk]
    | with_reducible intro)

theorem execAddi_memWf (f : FI) {s : State} (h : s.memWf = true) : outWf (execAddi f s) := by
  unfold execAddi
  try dsimp only
  repeat' (first
    | with_reducible assumption
    | with_reducible apply outWf_next
    | with_reducible apply opImm_memWf
    | (refine memWf_of_next (by with_reducible assumption) ?_)
    | with_reducible apply memWf_foldl
    | split
    | simp only [memWf_mk]
    | with_reducible intro)

theorem execAndi_memWf (f : FI) {s : State} (h : s.memWf = true) : outWf (execAndi f s) := by
  unfold execAndi
  try dsimp only
  repeat' (first
    | with_reducible assumption
    | with_reducible apply outWf_next
    | with_reducible apply opImm_memWf
    | (refine memWf_of_next (by with_reducible assumption) ?_)
    | with_reducible apply memWf_foldl
    | split
    | simp only [memWf_mk]
    | with_reducible intro)

theorem execOri_memWf (f : FI) {s : State} (h : s.memWf = true) : outWf (execOri f s) := by
  unfold execOri
  try dsimp only
  repeat' (first
    | with_reducible assumption
    | with_reducible apply outWf_next
    | with_reducible apply opImm_memWf
    | (refine memWf_of_next (by with_reducible assumption) ?_)
    | with_reducible apply memWf_foldl
    | split
    | simp only [memWf_mk]
    | with_reducible intro)

theorem execXori_memWf (f : FI) {s : State} (h : s.memWf = true) : outWf (execXori f s) := by
  unfold execXori
  try dsimp only
  repeat' (first
    | with_reducible assumption
    | with_reducible apply outWf_next
    | with_reducible apply opImm_memWf
    | (refine memWf_of_next (by with_reducible assumption) ?_)
    | with_reducible apply memWf_foldl
    | split
    | simp only [memWf_mk]
    | with_reducible intro)

theorem execShli_memWf (f : FI) {s : State} (h : s.memWf = true) : outWf (execShli f s) := by
  unfold execShli
  try dsimp only
  repeat' (first
    | with_reducible assumption
    | with_reducible apply outWf_next
    | with_reducible apply opImm_memWf
    | (refine memWf_of_next (by with_reducible assumption) ?_)
    | with_reducible apply memWf_foldl
    | split
    | simp only [memWf_mk]
    | with_reducible intro)

theorem execShri_memWf (f : FI) {s : State} (h : s.memWf = true) : outWf (execShri f s) := by
  unfold execShri
  try dsimp only
  repeat' (first
    | with_reducible assumption
    | with_reducible apply outWf_next
    | with_reducible apply opImm_memWf
    | (refine memWf_of_next (by with_reducible assumption) ?_)
    | with_reducible apply memWf_foldl
    | split
    | simp only [memWf_mk]
    | with_reducible intro)

theorem execSrai_memWf (f : FI) {s : State} (h : s.memWf = true) : outWf (execSrai f s) := by
  unfold execSrai
  try dsimp only
  repeat' (first
    | with_reducible assumption
    | with_reducible apply outWf_next
    | with_reducible apply opImm_memWf
    | (refine memWf_of_next (by with_reducible assumption) ?_)
    | with_reducible apply memWf_foldl
    | split
    | simp only [memWf_mk]
    | with_reducible intro)

theorem execMovi_memWf (f : FI) {s : State} (h : s.memWf = true) : outWf (execMovi f s) := by
  unfold execMovi
  try dsimp only
  repeat' (first
    | with_reducible assumption
    | with_reducible apply outWf_next
    | with_reducible apply slotOp_memWf
    | with_reducible apply giveS_memWf
    | with_reducible apply memWf_foldl
    | split
    | simp only [memWf_mk]
    | with_reducible intro)

theorem execMovh_memWf (f : FI) {s : State} (h : s.memWf = true) : outWf (execMovh f s) := by
  unfold execMovh
  try dsimp only
  repeat' (first
    | with_reducible assumption
    | with_reducible apply outWf_next
    | with_reducible apply opImm_memWf
    | (refine memWf_of_next (by with_reducible assumption) ?_)
    | with_reducible apply memWf_foldl
    | split
    | simp only [memWf_mk]
    | with_reducible intro)

theorem execBr_memWf (f : FB) {s : State} (h : s.memWf = true) : outWf (execBr f s) := by
  unfold execBr
  try dsimp only
  repeat' (first
    | with_reducible assumption
    | with_reducible apply outWf_next
    | with_reducible apply slotOp_memWf
    | with_reducible apply onLead_memWf
    | with_reducible apply setTarget_memWf
    | with_reducible apply memWf_foldl
    | split
    | simp only [memWf_mk]
    | with_reducible intro)

theorem execJmp_memWf (f : F3) {s : State} (h : s.memWf = true) : outWf (execJmp f s) := by
  unfold execJmp
  try dsimp only
  repeat' (first
    | with_reducible assumption
    | with_reducible apply outWf_next
    | with_reducible apply slotOp_memWf
    | with_reducible apply onLead_memWf
    | with_reducible apply reads_memWf
    | with_reducible apply raise_memWf
    | with_reducible apply setTarget_memWf
    | with_reducible apply memWf_foldl
    | split
    | simp only [memWf_mk]
    | with_reducible intro)

theorem execCall_memWf (f : FB) {s : State} (h : s.memWf = true) : outWf (execCall f s) := by
  unfold execCall
  try dsimp only
  repeat' (first
    | with_reducible assumption
    | with_reducible apply outWf_next
    | with_reducible apply slotOp_memWf
    | with_reducible apply onLead_memWf
    | with_reducible apply giveS_memWf
    | with_reducible apply setTarget_memWf
    | with_reducible apply memWf_foldl
    | split
    | simp only [memWf_mk]
    | with_reducible intro)

theorem execRet_memWf (f : F3) {s : State} (h : s.memWf = true) : outWf (execRet f s) := by
  unfold execRet
  try dsimp only
  repeat' (first
    | with_reducible assumption
    | with_reducible apply outWf_next
    | with_reducible apply slotOp_memWf
    | with_reducible apply onLead_memWf
    | with_reducible apply reads_memWf
    | with_reducible apply raise_memWf
    | with_reducible apply setTarget_memWf
    | with_reducible apply memWf_foldl
    | split
    | simp only [memWf_mk]
    | with_reducible intro)

theorem execLoop_memWf (f : F3) {s : State} (h : s.memWf = true) : outWf (execLoop f s) := by
  unfold execLoop
  try dsimp only
  repeat' (first
    | with_reducible assumption
    | with_reducible apply outWf_next
    | with_reducible apply slotOp_memWf
    | with_reducible apply onLead_memWf
    | with_reducible apply reads_memWf
    | with_reducible apply raise_memWf
    | with_reducible apply pushLoop_memWf
    | with_reducible apply memWf_foldl
    | split
    | simp only [memWf_mk]
    | with_reducible intro)

theorem execLoopi_memWf (f : FB) {s : State} (h : s.memWf = true) : outWf (execLoopi f s) := by
  unfold execLoopi
  try dsimp only
  repeat' (first
    | with_reducible assumption
    | with_reducible apply outWf_next
    | with_reducible apply slotOp_memWf
    | with_reducible apply onLead_memWf
    | with_reducible apply pushLoop_memWf
    | with_reducible apply memWf_foldl
    | split
    | simp only [memWf_mk]
    | with_reducible intro)

theorem execLbrk_memWf (f : F3) {s : State} (h : s.memWf = true) : outWf (execLbrk f s) := by
  unfold execLbrk
  try dsimp only
  repeat' (first
    | with_reducible assumption
    | with_reducible apply outWf_next
    | with_reducible apply slotOp_memWf
    | with_reducible apply onLead_memWf
    | with_reducible apply raise_memWf
    | with_reducible apply onCore_memWf
    | with_reducible apply memWf_foldl
    | split
    | simp only [memWf_mk]
    | with_reducible intro)

theorem execExit_memWf (f : F3) {s : State} (h : s.memWf = true) : outWf (execExit f s) := by
  unfold execExit
  try dsimp only
  repeat' (first
    | with_reducible assumption
    | with_reducible apply outWf_next
    | with_reducible apply slotOp_memWf
    | with_reducible apply notService_memWf
    | with_reducible apply onLead_memWf
    | with_reducible apply memWf_foldl
    | split
    | simp only [memWf_mk]
    | with_reducible intro)

theorem execCsrr_memWf (f : FK) {s : State} (h : s.memWf = true) : outWf (execCsrr f s) := by
  unfold execCsrr
  try dsimp only
  repeat' (first
    | with_reducible assumption
    | with_reducible apply outWf_next
    | with_reducible apply slotOp_memWf
    | with_reducible apply raise_memWf
    | with_reducible apply giveS_memWf
    | with_reducible apply memWf_foldl
    | split
    | simp only [memWf_mk]
    | with_reducible intro)

theorem csrwOp_memWf (form : Nat) (f : FK) {s : State} (h : s.memWf = true) : outWf (csrwOp form f s) := by
  unfold csrwOp
  try dsimp only
  repeat' (first
    | with_reducible assumption
    | with_reducible apply outWf_next
    | with_reducible apply slotOp_memWf
    | with_reducible apply reads_memWf
    | with_reducible apply raise_memWf
    | with_reducible apply giveCsr_memWf
    | with_reducible apply addEff_memWf
    | with_reducible apply memWf_foldl
    | split
    | simp only [memWf_mk]
    | with_reducible intro)

theorem execCsrw_memWf (f : FK) {s : State} (h : s.memWf = true) : outWf (execCsrw f s) := by
  unfold execCsrw
  try dsimp only
  repeat' (first
    | with_reducible assumption
    | with_reducible apply outWf_next
    | with_reducible apply csrwOp_memWf
    | (refine memWf_of_next (by with_reducible assumption) ?_)
    | with_reducible apply memWf_foldl
    | split
    | simp only [memWf_mk]
    | with_reducible intro)

theorem execCsrwSet_memWf (f : FK) {s : State} (h : s.memWf = true) : outWf (execCsrwSet f s) := by
  unfold execCsrwSet
  try dsimp only
  repeat' (first
    | with_reducible assumption
    | with_reducible apply outWf_next
    | with_reducible apply csrwOp_memWf
    | (refine memWf_of_next (by with_reducible assumption) ?_)
    | with_reducible apply memWf_foldl
    | split
    | simp only [memWf_mk]
    | with_reducible intro)

theorem execCsrwClr_memWf (f : FK) {s : State} (h : s.memWf = true) : outWf (execCsrwClr f s) := by
  unfold execCsrwClr
  try dsimp only
  repeat' (first
    | with_reducible assumption
    | with_reducible apply outWf_next
    | with_reducible apply csrwOp_memWf
    | (refine memWf_of_next (by with_reducible assumption) ?_)
    | with_reducible apply memWf_foldl
    | split
    | simp only [memWf_mk]
    | with_reducible intro)

theorem execSvc_memWf (f : FB) {s : State} (h : s.memWf = true) : outWf (execSvc f s) := by
  unfold execSvc
  try dsimp only
  repeat' (first
    | with_reducible assumption
    | with_reducible apply outWf_next
    | with_reducible apply slotOp_memWf
    | with_reducible apply notService_memWf
    | with_reducible apply raise_memWf
    | with_reducible apply memWf_foldl
    | split
    | simp only [memWf_mk]
    | with_reducible intro)

theorem execSret_memWf (f : F3) {s : State} (h : s.memWf = true) : outWf (execSret f s) := by
  unfold execSret
  try dsimp only
  repeat' (first
    | with_reducible assumption
    | with_reducible apply outWf_next
    | with_reducible apply slotOp_memWf
    | with_reducible apply raise_memWf
    | with_reducible apply memWf_foldl
    | split
    | simp only [memWf_mk]
    | with_reducible intro)

theorem execFence_memWf (f : F3) {s : State} (h : s.memWf = true) : outWf (execFence f s) := by
  unfold execFence
  try dsimp only
  repeat' (first
    | with_reducible assumption
    | with_reducible apply outWf_next
    | with_reducible apply slotOp_memWf
    | with_reducible apply acquireSeen_memWf
    | with_reducible apply memWf_foldl
    | split
    | simp only [memWf_mk]
    | with_reducible intro)

theorem execJoin_memWf (f : F3) {s : State} (h : s.memWf = true) : outWf (execJoin f s) := by
  unfold execJoin
  try dsimp only
  repeat' (first
    | with_reducible assumption
    | with_reducible apply outWf_next
    | with_reducible apply slotOp_memWf
    | with_reducible apply notService_memWf
    | with_reducible apply reads_memWf
    | with_reducible apply raise_memWf
    | with_reducible apply addEff_memWf
    | with_reducible apply memWf_foldl
    | split
    | simp only [memWf_mk]
    | with_reducible intro)

theorem execLeave_memWf (f : F3) {s : State} (h : s.memWf = true) : outWf (execLeave f s) := by
  unfold execLeave
  try dsimp only
  repeat' (first
    | with_reducible assumption
    | with_reducible apply outWf_next
    | with_reducible apply slotOp_memWf
    | with_reducible apply notService_memWf
    | with_reducible apply raise_memWf
    | with_reducible apply addEff_memWf
    | with_reducible apply memWf_foldl
    | split
    | simp only [memWf_mk]
    | with_reducible intro)

theorem execGrp_memWf (f : F3) {s : State} (h : s.memWf = true) : outWf (execGrp f s) := by
  unfold execGrp
  try dsimp only
  repeat' (first
    | with_reducible assumption
    | with_reducible apply outWf_next
    | with_reducible apply slotOp_memWf
    | with_reducible apply notService_memWf
    | with_reducible apply reads_memWf
    | with_reducible apply giveS_memWf
    | with_reducible apply memWf_foldl
    | split
    | simp only [memWf_mk]
    | with_reducible intro)

theorem execLaunch_memWf (f : F3) {s : State} (h : s.memWf = true) : outWf (execLaunch f s) := by
  unfold execLaunch
  try dsimp only
  repeat' (first
    | with_reducible assumption
    | with_reducible apply outWf_next
    | with_reducible apply slotOp_memWf
    | with_reducible apply notService_memWf
    | with_reducible apply reads_memWf
    | with_reducible apply withAccess_memWf
    | with_reducible apply loadWhole_memWf
    | with_reducible apply raise_memWf
    | with_reducible apply addCmd_memWf
    | with_reducible apply setPart_memWf
    | (refine memWf_of_fst (by with_reducible assumption) ?_)
    | (refine memWf_of_snd (by with_reducible assumption) ?_)
    | with_reducible apply memWf_foldl
    | split
    | simp only [memWf_mk]
    | with_reducible intro)

theorem execYieldOp_memWf (f : F3) {s : State} (h : s.memWf = true) : outWf (execYieldOp f s) := by
  unfold execYieldOp
  try dsimp only
  repeat' (first
    | with_reducible assumption
    | with_reducible apply outWf_next
    | with_reducible apply slotOp_memWf
    | with_reducible apply notService_memWf
    | with_reducible apply addEff_memWf
    | with_reducible apply memWf_foldl
    | split
    | simp only [memWf_mk]
    | with_reducible intro)

theorem execDress_memWf (f : F3) {s : State} (h : s.memWf = true) : outWf (execDress f s) := by
  unfold execDress
  try dsimp only
  repeat' (first
    | with_reducible assumption
    | with_reducible apply outWf_next
    | with_reducible apply slotOp_memWf
    | with_reducible apply notService_memWf
    | with_reducible apply reads_memWf
    | with_reducible apply raise_memWf
    | with_reducible apply addCmd_memWf
    | with_reducible apply withAccess_memWf
    | with_reducible apply loadWhole_memWf
    | (refine memWf_of_fst (by with_reducible assumption) ?_)
    | (refine memWf_of_snd (by with_reducible assumption) ?_)
    | with_reducible apply memWf_foldl
    | split
    | simp only [memWf_mk]
    | with_reducible intro)

theorem execPlog_memWf (f : F3) {s : State} (h : s.memWf = true) : outWf (execPlog f s) := by
  unfold execPlog
  try dsimp only
  repeat' (first
    | with_reducible assumption
    | with_reducible apply outWf_next
    | with_reducible apply slotOp_memWf
    | with_reducible apply giveP_memWf
    | with_reducible apply memWf_foldl
    | split
    | simp only [memWf_mk]
    | with_reducible intro)

theorem execPmov_memWf (f : F3) {s : State} (h : s.memWf = true) : outWf (execPmov f s) := by
  unfold execPmov
  try dsimp only
  repeat' (first
    | with_reducible assumption
    | with_reducible apply outWf_next
    | with_reducible apply slotOp_memWf
    | with_reducible apply giveS_memWf
    | with_reducible apply giveP_memWf
    | with_reducible apply reads_memWf
    | with_reducible apply memWf_foldl
    | split
    | simp only [memWf_mk]
    | with_reducible intro)

theorem execTdef_memWf (f : F3) {s : State} (h : s.memWf = true) : outWf (execTdef f s) := by
  unfold execTdef
  try dsimp only
  repeat' (first
    | with_reducible assumption
    | with_reducible apply outWf_next
    | with_reducible apply slotOp_memWf
    | with_reducible apply reads_memWf
    | with_reducible apply raise_memWf
    | with_reducible apply addLanding_memWf
    | with_reducible apply memWf_foldl
    | split
    | simp only [memWf_mk]
    | with_reducible intro)

theorem vLanes_memWf (f : F3) (latI : Nat) (latF : Nat) {s : State} (g : RMode → Nat → Nat → Nat → Nat → Nat → Nat × Nat) (h : s.memWf = true) : outWf (vLanes f latI latF s g) := by
  unfold vLanes
  try dsimp only
  repeat' (first
    | with_reducible assumption
    | with_reducible apply outWf_next
    | with_reducible apply slotOp_memWf
    | with_reducible apply reads_memWf
    | with_reducible apply withDraws_memWf
    | with_reducible apply giveLanes_memWf
    | with_reducible apply memWf_foldl
    | split
    | simp only [memWf_mk]
    | with_reducible intro)

theorem execVadd_memWf (f : F3) {s : State} (h : s.memWf = true) : outWf (execVadd f s) := by
  unfold execVadd
  try dsimp only
  repeat' (first
    | with_reducible assumption
    | with_reducible apply outWf_next
    | with_reducible apply vLanes_memWf
    | (refine memWf_of_next (by with_reducible assumption) ?_)
    | with_reducible apply memWf_foldl
    | split
    | simp only [memWf_mk]
    | with_reducible intro)

theorem execVsub_memWf (f : F3) {s : State} (h : s.memWf = true) : outWf (execVsub f s) := by
  unfold execVsub
  try dsimp only
  repeat' (first
    | with_reducible assumption
    | with_reducible apply outWf_next
    | with_reducible apply vLanes_memWf
    | (refine memWf_of_next (by with_reducible assumption) ?_)
    | with_reducible apply memWf_foldl
    | split
    | simp only [memWf_mk]
    | with_reducible intro)

theorem execVmul_memWf (f : F3) {s : State} (h : s.memWf = true) : outWf (execVmul f s) := by
  unfold execVmul
  try dsimp only
  repeat' (first
    | with_reducible assumption
    | with_reducible apply outWf_next
    | with_reducible apply vLanes_memWf
    | (refine memWf_of_next (by with_reducible assumption) ?_)
    | with_reducible apply memWf_foldl
    | split
    | simp only [memWf_mk]
    | with_reducible intro)

theorem execVfma_memWf (f : F3) {s : State} (h : s.memWf = true) : outWf (execVfma f s) := by
  unfold execVfma
  try dsimp only
  repeat' (first
    | with_reducible assumption
    | with_reducible apply outWf_next
    | with_reducible apply vLanes_memWf
    | (refine memWf_of_next (by with_reducible assumption) ?_)
    | with_reducible apply memWf_foldl
    | split
    | simp only [memWf_mk]
    | with_reducible intro)

theorem execVmin_memWf (f : F3) {s : State} (h : s.memWf = true) : outWf (execVmin f s) := by
  unfold execVmin
  try dsimp only
  repeat' (first
    | with_reducible assumption
    | with_reducible apply outWf_next
    | with_reducible apply vLanes_memWf
    | (refine memWf_of_next (by with_reducible assumption) ?_)
    | with_reducible apply memWf_foldl
    | split
    | simp only [memWf_mk]
    | with_reducible intro)

theorem execVmax_memWf (f : F3) {s : State} (h : s.memWf = true) : outWf (execVmax f s) := by
  unfold execVmax
  try dsimp only
  repeat' (first
    | with_reducible assumption
    | with_reducible apply outWf_next
    | with_reducible apply vLanes_memWf
    | (refine memWf_of_next (by with_reducible assumption) ?_)
    | with_reducible apply memWf_foldl
    | split
    | simp only [memWf_mk]
    | with_reducible intro)

theorem execVabs_memWf (f : F3) {s : State} (h : s.memWf = true) : outWf (execVabs f s) := by
  unfold execVabs
  try dsimp only
  repeat' (first
    | with_reducible assumption
    | with_reducible apply outWf_next
    | with_reducible apply vLanes_memWf
    | (refine memWf_of_next (by with_reducible assumption) ?_)
    | with_reducible apply memWf_foldl
    | split
    | simp only [memWf_mk]
    | with_reducible intro)

theorem execVneg_memWf (f : F3) {s : State} (h : s.memWf = true) : outWf (execVneg f s) := by
  unfold execVneg
  try dsimp only
  repeat' (first
    | with_reducible assumption
    | with_reducible apply outWf_next
    | with_reducible apply vLanes_memWf
    | (refine memWf_of_next (by with_reducible assumption) ?_)
    | with_reducible apply memWf_foldl
    | split
    | simp only [memWf_mk]
    | with_reducible intro)

theorem vBits_memWf (f : F3) {s : State} (op : Vec → Vec → Vec) (h : s.memWf = true) : outWf (vBits f s op) := by
  unfold vBits
  try dsimp only
  repeat' (first
    | with_reducible assumption
    | with_reducible apply outWf_next
    | with_reducible apply slotOp_memWf
    | with_reducible apply giveV_memWf
    | with_reducible apply reads_memWf
    | with_reducible apply memWf_foldl
    | split
    | simp only [memWf_mk]
    | with_reducible intro)

theorem execVand_memWf (f : F3) {s : State} (h : s.memWf = true) : outWf (execVand f s) := by
  unfold execVand
  try dsimp only
  repeat' (first
    | with_reducible assumption
    | with_reducible apply outWf_next
    | with_reducible apply vBits_memWf
    | (refine memWf_of_next (by with_reducible assumption) ?_)
    | with_reducible apply memWf_foldl
    | split
    | simp only [memWf_mk]
    | with_reducible intro)

theorem execVor_memWf (f : F3) {s : State} (h : s.memWf = true) : outWf (execVor f s) := by
  unfold execVor
  try dsimp only
  repeat' (first
    | with_reducible assumption
    | with_reducible apply outWf_next
    | with_reducible apply vBits_memWf
    | (refine memWf_of_next (by with_reducible assumption) ?_)
    | with_reducible apply memWf_foldl
    | split
    | simp only [memWf_mk]
    | with_reducible intro)

theorem execVxor_memWf (f : F3) {s : State} (h : s.memWf = true) : outWf (execVxor f s) := by
  unfold execVxor
  try dsimp only
  repeat' (first
    | with_reducible assumption
    | with_reducible apply outWf_next
    | with_reducible apply vBits_memWf
    | (refine memWf_of_next (by with_reducible assumption) ?_)
    | with_reducible apply memWf_foldl
    | split
    | simp only [memWf_mk]
    | with_reducible intro)

theorem execVshl_memWf (f : F3) {s : State} (h : s.memWf = true) : outWf (execVshl f s) := by
  unfold execVshl
  try dsimp only
  repeat' (first
    | with_reducible assumption
    | with_reducible apply outWf_next
    | with_reducible apply vLanes_memWf
    | (refine memWf_of_next (by with_reducible assumption) ?_)
    | with_reducible apply memWf_foldl
    | split
    | simp only [memWf_mk]
    | with_reducible intro)

theorem execVshr_memWf (f : F3) {s : State} (h : s.memWf = true) : outWf (execVshr f s) := by
  unfold execVshr
  try dsimp only
  repeat' (first
    | with_reducible assumption
    | with_reducible apply outWf_next
    | with_reducible apply vLanes_memWf
    | (refine memWf_of_next (by with_reducible assumption) ?_)
    | with_reducible apply memWf_foldl
    | split
    | simp only [memWf_mk]
    | with_reducible intro)

theorem execVsra_memWf (f : F3) {s : State} (h : s.memWf = true) : outWf (execVsra f s) := by
  unfold execVsra
  try dsimp only
  repeat' (first
    | with_reducible assumption
    | with_reducible apply outWf_next
    | with_reducible apply vLanes_memWf
    | (refine memWf_of_next (by with_reducible assumption) ?_)
    | with_reducible apply memWf_foldl
    | split
    | simp only [memWf_mk]
    | with_reducible intro)

theorem execVcmp_memWf (f : F3) {s : State} (h : s.memWf = true) : outWf (execVcmp f s) := by
  unfold execVcmp
  try dsimp only
  repeat' (first
    | with_reducible assumption
    | with_reducible apply outWf_next
    | with_reducible apply slotOp_memWf
    | with_reducible apply giveP_memWf
    | with_reducible apply reads_memWf
    | with_reducible apply memWf_foldl
    | split
    | simp only [memWf_mk]
    | with_reducible intro)

theorem execVsel_memWf (f : F3) {s : State} (h : s.memWf = true) : outWf (execVsel f s) := by
  unfold execVsel
  try dsimp only
  repeat' (first
    | with_reducible assumption
    | with_reducible apply outWf_next
    | with_reducible apply vLanes_memWf
    | (refine memWf_of_next (by with_reducible assumption) ?_)
    | with_reducible apply memWf_foldl
    | split
    | simp only [memWf_mk]
    | with_reducible intro)

theorem execVred_memWf (f : F3) {s : State} (h : s.memWf = true) : outWf (execVred f s) := by
  unfold execVred
  try dsimp only
  repeat' (first
    | with_reducible assumption
    | with_reducible apply outWf_next
    | with_reducible apply slotOp_memWf
    | with_reducible apply giveV_memWf
    | with_reducible apply orStatus_memWf
    | with_reducible apply reads_memWf
    | with_reducible apply memWf_foldl
    | split
    | simp only [memWf_mk]
    | with_reducible intro)

theorem execVscan_memWf (f : F3) {s : State} (h : s.memWf = true) : outWf (execVscan f s) := by
  unfold execVscan
  try dsimp only
  repeat' (first
    | with_reducible assumption
    | with_reducible apply outWf_next
    | with_reducible apply slotOp_memWf
    | with_reducible apply giveV_memWf
    | with_reducible apply orStatus_memWf
    | with_reducible apply reads_memWf
    | with_reducible apply memWf_foldl
    | split
    | simp only [memWf_mk]
    | with_reducible intro)

theorem execVperm_memWf (f : F3) {s : State} (h : s.memWf = true) : outWf (execVperm f s) := by
  unfold execVperm
  try dsimp only
  repeat' (first
    | with_reducible assumption
    | with_reducible apply outWf_next
    | with_reducible apply slotOp_memWf
    | with_reducible apply giveLanes_memWf
    | with_reducible apply reads_memWf
    | with_reducible apply memWf_foldl
    | split
    | simp only [memWf_mk]
    | with_reducible intro)

theorem execVbcast_memWf (f : F3) {s : State} (h : s.memWf = true) : outWf (execVbcast f s) := by
  unfold execVbcast
  try dsimp only
  repeat' (first
    | with_reducible assumption
    | with_reducible apply outWf_next
    | with_reducible apply slotOp_memWf
    | with_reducible apply giveLanes_memWf
    | with_reducible apply reads_memWf
    | with_reducible apply memWf_foldl
    | split
    | simp only [memWf_mk]
    | with_reducible intro)

theorem execVextr_memWf (f : F3) {s : State} (h : s.memWf = true) : outWf (execVextr f s) := by
  unfold execVextr
  try dsimp only
  repeat' (first
    | with_reducible assumption
    | with_reducible apply outWf_next
    | with_reducible apply slotOp_memWf
    | with_reducible apply giveV_memWf
    | with_reducible apply reads_memWf
    | with_reducible apply memWf_foldl
    | split
    | simp only [memWf_mk]
    | with_reducible intro)

theorem vFunction_memWf (op : FnOp) (f : F3) {s : State} (h : s.memWf = true) : outWf (vFunction op f s) := by
  unfold vFunction
  try dsimp only
  repeat' (first
    | with_reducible assumption
    | with_reducible apply outWf_next
    | with_reducible apply vLanes_memWf
    | (refine memWf_of_next (by with_reducible assumption) ?_)
    | with_reducible apply memWf_foldl
    | split
    | simp only [memWf_mk]
    | with_reducible intro)

theorem execVrcp_memWf (f : F3) {s : State} (h : s.memWf = true) : outWf (execVrcp f s) := by
  unfold execVrcp
  try dsimp only
  repeat' (first
    | with_reducible assumption
    | with_reducible apply outWf_next
    | with_reducible apply vFunction_memWf
    | (refine memWf_of_next (by with_reducible assumption) ?_)
    | with_reducible apply memWf_foldl
    | split
    | simp only [memWf_mk]
    | with_reducible intro)

theorem execVrsq_memWf (f : F3) {s : State} (h : s.memWf = true) : outWf (execVrsq f s) := by
  unfold execVrsq
  try dsimp only
  repeat' (first
    | with_reducible assumption
    | with_reducible apply outWf_next
    | with_reducible apply vFunction_memWf
    | (refine memWf_of_next (by with_reducible assumption) ?_)
    | with_reducible apply memWf_foldl
    | split
    | simp only [memWf_mk]
    | with_reducible intro)

theorem execVexp2_memWf (f : F3) {s : State} (h : s.memWf = true) : outWf (execVexp2 f s) := by
  unfold execVexp2
  try dsimp only
  repeat' (first
    | with_reducible assumption
    | with_reducible apply outWf_next
    | with_reducible apply vFunction_memWf
    | (refine memWf_of_next (by with_reducible assumption) ?_)
    | with_reducible apply memWf_foldl
    | split
    | simp only [memWf_mk]
    | with_reducible intro)

theorem execVlog2_memWf (f : F3) {s : State} (h : s.memWf = true) : outWf (execVlog2 f s) := by
  unfold execVlog2
  try dsimp only
  repeat' (first
    | with_reducible assumption
    | with_reducible apply outWf_next
    | with_reducible apply vFunction_memWf
    | (refine memWf_of_next (by with_reducible assumption) ?_)
    | with_reducible apply memWf_foldl
    | split
    | simp only [memWf_mk]
    | with_reducible intro)

theorem execViota_memWf (f : F3) {s : State} (h : s.memWf = true) : outWf (execViota f s) := by
  unfold execViota
  try dsimp only
  repeat' (first
    | with_reducible assumption
    | with_reducible apply outWf_next
    | with_reducible apply slotOp_memWf
    | with_reducible apply reads_memWf
    | with_reducible apply withDraws_memWf
    | with_reducible apply giveLanes_memWf
    | with_reducible apply memWf_foldl
    | split
    | simp only [memWf_mk]
    | with_reducible intro)

theorem execVdot4_memWf (f : F3) {s : State} (h : s.memWf = true) : outWf (execVdot4 f s) := by
  unfold execVdot4
  try dsimp only
  repeat' (first
    | with_reducible assumption
    | with_reducible apply outWf_next
    | with_reducible apply slotOp_memWf
    | with_reducible apply reads_memWf
    | with_reducible apply withDraws_memWf
    | with_reducible apply giveLanes_memWf
    | with_reducible apply memWf_foldl
    | split
    | simp only [memWf_mk]
    | with_reducible intro)

theorem execLds_memWf (f : F3) {s : State} (h : s.memWf = true) : outWf (execLds f s) := by
  unfold execLds
  try dsimp only
  repeat' (first
    | with_reducible assumption
    | with_reducible apply outWf_next
    | with_reducible apply slotOp_memWf
    | with_reducible apply reads_memWf
    | with_reducible apply withAccess_memWf
    | with_reducible apply addEff_memWf
    | with_reducible apply loadNow_memWf
    | with_reducible apply giveS_memWf
    | (refine memWf_of_fst (by with_reducible assumption) ?_)
    | (refine memWf_of_snd (by with_reducible assumption) ?_)
    | with_reducible apply memWf_foldl
    | split
    | simp only [memWf_mk]
    | with_reducible intro)

theorem execSts_memWf (f : F3) {s : State} (h : s.memWf = true) : outWf (execSts f s) := by
  unfold execSts
  try dsimp only
  repeat' (first
    | with_reducible assumption
    | with_reducible apply outWf_next
    | with_reducible apply slotOp_memWf
    | with_reducible apply reads_memWf
    | with_reducible apply withAccess_memWf
    | with_reducible apply addEff_memWf
    | with_reducible apply storeEffs_memWf
    | with_reducible apply noteTouched_memWf
    | with_reducible apply memWf_foldl
    | split
    | simp only [memWf_mk]
    | with_reducible intro)

theorem touchCtl_memWf {s : State} (es : List (Nat × List Piece)) (h : s.memWf = true) : (touchCtl s es).memWf = true := by
  unfold touchCtl
  try dsimp only
  repeat' (first
    | with_reducible assumption
    | with_reducible apply addEff_memWf
    | with_reducible apply memWf_foldl
    | split
    | simp only [memWf_mk]
    | with_reducible intro)

theorem vecLoad_memWf (f : F3) (w : Nat) (codes : List Nat) (addr : State → Nat → Nat) {s : State} (h : s.memWf = true) : outWf (vecLoad f w codes addr s) := by
  unfold vecLoad
  try dsimp only
  repeat' (first
    | with_reducible assumption
    | with_reducible apply outWf_next
    | with_reducible apply slotOp_memWf
    | with_reducible apply reads_memWf
    | with_reducible apply withElems_memWf
    | with_reducible apply loadElems_memWf
    | with_reducible apply giveV_memWf
    | (refine memWf_of_fst (by with_reducible assumption) ?_)
    | (refine memWf_of_snd (by with_reducible assumption) ?_)
    | with_reducible apply touchCtl_memWf
    | with_reducible apply memWf_foldl
    | split
    | simp only [memWf_mk]
    | with_reducible intro)

theorem execLdv_memWf (f : F3) {s : State} (h : s.memWf = true) : outWf (execLdv f s) := by
  unfold execLdv
  try dsimp only
  repeat' (first
    | with_reducible assumption
    | with_reducible apply outWf_next
    | with_reducible apply vecLoad_memWf
    | (refine memWf_of_next (by with_reducible assumption) ?_)
    | with_reducible apply memWf_foldl
    | split
    | simp only [memWf_mk]
    | with_reducible intro)

theorem storeElem_memWf {s : State} (f : F3) (ps : List Piece) (bs : List Byte) (h : s.memWf = true) : (storeElem s f ps bs).memWf = true := by
  unfold storeElem
  try dsimp only
  repeat' (first
    | with_reducible assumption
    | with_reducible apply addEff_memWf
    | with_reducible apply storeEffs_memWf
    | with_reducible apply noteTouched_memWf
    | with_reducible apply memWf_foldl
    | split
    | simp only [memWf_mk]
    | with_reducible intro)

theorem vecStore_memWf (f : F3) (w : Nat) (codes : List Nat) (addr : State → Nat → Nat) {s : State} (h : s.memWf = true) : outWf (vecStore f w codes addr s) := by
  unfold vecStore
  try dsimp only
  repeat' (first
    | with_reducible assumption
    | with_reducible apply outWf_next
    | with_reducible apply slotOp_memWf
    | with_reducible apply reads_memWf
    | with_reducible apply withElems_memWf
    | with_reducible apply storeEffs_memWf
    | with_reducible apply noteTouched_memWf
    | with_reducible apply storeElem_memWf
    | with_reducible apply memWf_foldl
    | split
    | simp only [memWf_mk]
    | with_reducible intro)

theorem execStv_memWf (f : F3) {s : State} (h : s.memWf = true) : outWf (execStv f s) := by
  unfold execStv
  try dsimp only
  repeat' (first
    | with_reducible assumption
    | with_reducible apply outWf_next
    | with_reducible apply vecStore_memWf
    | (refine memWf_of_next (by with_reducible assumption) ?_)
    | with_reducible apply memWf_foldl
    | split
    | simp only [memWf_mk]
    | with_reducible intro)

theorem execLdvs_memWf (f : F3) {s : State} (h : s.memWf = true) : outWf (execLdvs f s) := by
  unfold execLdvs
  try dsimp only
  repeat' (first
    | with_reducible assumption
    | with_reducible apply outWf_next
    | with_reducible apply vecLoad_memWf
    | (refine memWf_of_next (by with_reducible assumption) ?_)
    | with_reducible apply memWf_foldl
    | split
    | simp only [memWf_mk]
    | with_reducible intro)

theorem execStvs_memWf (f : F3) {s : State} (h : s.memWf = true) : outWf (execStvs f s) := by
  unfold execStvs
  try dsimp only
  repeat' (first
    | with_reducible assumption
    | with_reducible apply outWf_next
    | with_reducible apply vecStore_memWf
    | (refine memWf_of_next (by with_reducible assumption) ?_)
    | with_reducible apply memWf_foldl
    | split
    | simp only [memWf_mk]
    | with_reducible intro)

theorem execLdvx_memWf (f : F3) {s : State} (h : s.memWf = true) : outWf (execLdvx f s) := by
  unfold execLdvx
  try dsimp only
  repeat' (first
    | with_reducible assumption
    | with_reducible apply outWf_next
    | with_reducible apply vecLoad_memWf
    | (refine memWf_of_next (by with_reducible assumption) ?_)
    | with_reducible apply memWf_foldl
    | split
    | simp only [memWf_mk]
    | with_reducible intro)

theorem execStvx_memWf (f : F3) {s : State} (h : s.memWf = true) : outWf (execStvx f s) := by
  unfold execStvx
  try dsimp only
  repeat' (first
    | with_reducible assumption
    | with_reducible apply outWf_next
    | with_reducible apply vecStore_memWf
    | (refine memWf_of_next (by with_reducible assumption) ?_)
    | with_reducible apply memWf_foldl
    | split
    | simp only [memWf_mk]
    | with_reducible intro)

theorem execPref_memWf (f : F3) {s : State} (h : s.memWf = true) : outWf (execPref f s) := by
  unfold execPref
  try dsimp only
  repeat' (first
    | with_reducible assumption
    | with_reducible apply outWf_next
    | with_reducible apply slotOp_memWf
    | with_reducible apply reads_memWf
    | with_reducible apply raise_memWf
    | with_reducible apply prefLines_memWf
    | with_reducible apply memWf_foldl
    | split
    | simp only [memWf_mk]
    | with_reducible intro)

theorem execAtom_memWf (f : F3) {s : State} (h : s.memWf = true) : outWf (execAtom f s) := by
  unfold execAtom
  try dsimp only
  repeat' (first
    | with_reducible assumption
    | with_reducible apply outWf_next
    | with_reducible apply slotOp_memWf
    | with_reducible apply reads_memWf
    | with_reducible apply withAccess_memWf
    | with_reducible apply raise_memWf
    | with_reducible apply addEff_memWf
    | with_reducible apply noteTouched_memWf
    | with_reducible apply memWf_foldl
    | split
    | simp only [memWf_mk]
    | with_reducible intro)

theorem execAccv_memWf (f : F3) {s : State} (h : s.memWf = true) : outWf (execAccv f s) := by
  unfold execAccv
  try dsimp only
  repeat' (first
    | with_reducible assumption
    | with_reducible apply outWf_next
    | with_reducible apply slotOp_memWf
    | with_reducible apply reads_memWf
    | with_reducible apply withAccess_memWf
    | with_reducible apply raise_memWf
    | with_reducible apply addCmd_memWf
    | with_reducible apply noteTouched_memWf
    | with_reducible apply memWf_foldl
    | split
    | simp only [memWf_mk]
    | with_reducible intro)

theorem execCflush_memWf (f : F3) {s : State} (h : s.memWf = true) : outWf (execCflush f s) := by
  unfold execCflush
  try dsimp only
  repeat' (first
    | with_reducible assumption
    | with_reducible apply outWf_next
    | with_reducible apply slotOp_memWf
    | with_reducible apply withLine_memWf
    | with_reducible apply addCmd_memWf
    | with_reducible apply memWf_foldl
    | split
    | simp only [memWf_mk]
    | with_reducible intro)

theorem execCinv_memWf (f : F3) {s : State} (h : s.memWf = true) : outWf (execCinv f s) := by
  unfold execCinv
  try dsimp only
  repeat' (first
    | with_reducible assumption
    | with_reducible apply outWf_next
    | with_reducible apply slotOp_memWf
    | with_reducible apply withLine_memWf
    | with_reducible apply addCmd_memWf
    | with_reducible apply memWf_foldl
    | split
    | simp only [memWf_mk]
    | with_reducible intro)

theorem execCvt_memWf (f : F3) {s : State} (h : s.memWf = true) : outWf (execCvt f s) := by
  unfold execCvt
  try dsimp only
  repeat' (first
    | with_reducible assumption
    | with_reducible apply outWf_next
    | with_reducible apply slotOp_memWf
    | with_reducible apply reads_memWf
    | with_reducible apply withDraws_memWf
    | with_reducible apply giveV_memWf
    | with_reducible apply orStatus_memWf
    | with_reducible apply memWf_foldl
    | split
    | simp only [memWf_mk]
    | with_reducible intro)

theorem execQnt_memWf (f : F3) {s : State} (h : s.memWf = true) : outWf (execQnt f s) := by
  unfold execQnt
  try dsimp only
  repeat' (first
    | with_reducible assumption
    | with_reducible apply outWf_next
    | with_reducible apply slotOp_memWf
    | with_reducible apply reads_memWf
    | with_reducible apply withDraws_memWf
    | with_reducible apply giveK_memWf
    | with_reducible apply giveV_memWf
    | with_reducible apply orStatus_memWf
    | with_reducible apply memWf_foldl
    | split
    | simp only [memWf_mk]
    | with_reducible intro)

theorem execDqnt_memWf (f : F3) {s : State} (h : s.memWf = true) : outWf (execDqnt f s) := by
  unfold execDqnt
  try dsimp only
  repeat' (first
    | with_reducible assumption
    | with_reducible apply outWf_next
    | with_reducible apply slotOp_memWf
    | with_reducible apply reads_memWf
    | with_reducible apply withDraws_memWf
    | with_reducible apply giveV_memWf
    | with_reducible apply orStatus_memWf
    | with_reducible apply memWf_foldl
    | split
    | simp only [memWf_mk]
    | with_reducible intro)

theorem execLdk_memWf (f : F3) {s : State} (h : s.memWf = true) : outWf (execLdk f s) := by
  unfold execLdk
  try dsimp only
  repeat' (first
    | with_reducible assumption
    | with_reducible apply outWf_next
    | with_reducible apply slotOp_memWf
    | with_reducible apply withScale_memWf
    | with_reducible apply loadNow_memWf
    | with_reducible apply loadK_memWf
    | (refine memWf_of_fst (by with_reducible assumption) ?_)
    | (refine memWf_of_snd (by with_reducible assumption) ?_)
    | with_reducible apply memWf_foldl
    | split
    | simp only [memWf_mk]
    | with_reducible intro)

theorem execStk_memWf (f : F3) {s : State} (h : s.memWf = true) : outWf (execStk f s) := by
  unfold execStk
  try dsimp only
  repeat' (first
    | with_reducible assumption
    | with_reducible apply outWf_next
    | with_reducible apply slotOp_memWf
    | with_reducible apply withScale_memWf
    | with_reducible apply storeEffs_memWf
    | with_reducible apply noteTouched_memWf
    | with_reducible apply memWf_foldl
    | split
    | simp only [memWf_mk]
    | with_reducible intro)

theorem execMovk_memWf (f : F3) {s : State} (h : s.memWf = true) : outWf (execMovk f s) := by
  unfold execMovk
  try dsimp only
  repeat' (first
    | with_reducible assumption
    | with_reducible apply outWf_next
    | with_reducible apply slotOp_memWf
    | with_reducible apply giveK_memWf
    | with_reducible apply reads_memWf
    | with_reducible apply giveS_memWf
    | with_reducible apply memWf_foldl
    | split
    | simp only [memWf_mk]
    | with_reducible intro)

theorem execRndw_memWf (f : F3) {s : State} (h : s.memWf = true) : outWf (execRndw f s) := by
  unfold execRndw
  try dsimp only
  repeat' (first
    | with_reducible assumption
    | with_reducible apply outWf_next
    | with_reducible apply slotOp_memWf
    | with_reducible apply popRandom_memWf
    | with_reducible apply giveS_memWf
    | with_reducible apply memWf_foldl
    | split
    | simp only [memWf_mk]
    | with_reducible intro)

theorem execRndc_memWf (f : F3) {s : State} (h : s.memWf = true) : outWf (execRndc f s) := by
  unfold execRndc
  try dsimp only
  repeat' (first
    | with_reducible assumption
    | with_reducible apply outWf_next
    | with_reducible apply slotOp_memWf
    | with_reducible apply popRandom_memWf
    | with_reducible apply giveV_memWf
    | with_reducible apply memWf_foldl
    | split
    | simp only [memWf_mk]
    | with_reducible intro)

theorem sealIssue_memWf (opc : Nat) (f : F3) {s : State} (h : s.memWf = true) : outWf (sealIssue opc f s) := by
  unfold sealIssue
  try dsimp only
  repeat' (first
    | with_reducible assumption
    | with_reducible apply outWf_next
    | with_reducible apply slotOp_memWf
    | with_reducible apply reads_memWf
    | with_reducible apply raise_memWf
    | with_reducible apply addEff_memWf
    | with_reducible apply memWf_foldl
    | split
    | simp only [memWf_mk]
    | with_reducible intro)

theorem execSealTile_memWf (f : F3) {s : State} (h : s.memWf = true) : outWf (execSealTile f s) := by
  unfold execSealTile
  try dsimp only
  repeat' (first
    | with_reducible assumption
    | with_reducible apply outWf_next
    | with_reducible apply sealIssue_memWf
    | (refine memWf_of_next (by with_reducible assumption) ?_)
    | with_reducible apply memWf_foldl
    | split
    | simp only [memWf_mk]
    | with_reducible intro)

theorem execOpenTile_memWf (f : F3) {s : State} (h : s.memWf = true) : outWf (execOpenTile f s) := by
  unfold execOpenTile
  try dsimp only
  repeat' (first
    | with_reducible assumption
    | with_reducible apply outWf_next
    | with_reducible apply sealIssue_memWf
    | (refine memWf_of_next (by with_reducible assumption) ?_)
    | with_reducible apply memWf_foldl
    | split
    | simp only [memWf_mk]
    | with_reducible intro)

theorem execPack_memWf (f : F3) {s : State} (h : s.memWf = true) : outWf (execPack f s) := by
  unfold execPack
  try dsimp only
  repeat' (first
    | with_reducible assumption
    | with_reducible apply outWf_next
    | with_reducible apply slotOp_memWf
    | with_reducible apply giveV_memWf
    | with_reducible apply orStatus_memWf
    | with_reducible apply reads_memWf
    | with_reducible apply memWf_foldl
    | split
    | simp only [memWf_mk]
    | with_reducible intro)

theorem execUnpack_memWf (f : F3) {s : State} (h : s.memWf = true) : outWf (execUnpack f s) := by
  unfold execUnpack
  try dsimp only
  repeat' (first
    | with_reducible assumption
    | with_reducible apply outWf_next
    | with_reducible apply slotOp_memWf
    | with_reducible apply giveV_memWf
    | with_reducible apply reads_memWf
    | with_reducible apply memWf_foldl
    | split
    | simp only [memWf_mk]
    | with_reducible intro)

theorem mIssue_memWf (opc : Nat) (f : FM) {s : State} (sr : State → Option Nat) (more : State → MOp → State) (h : s.memWf = true) (hk : ∀ t x0, t.memWf = true → (more t x0).memWf = true) : outWf (mIssue opc f s sr more) := by
  unfold mIssue
  try dsimp only
  repeat' (first
    | with_reducible assumption
    | with_reducible apply outWf_next
    | with_reducible apply hk
    | with_reducible apply slotOp_memWf
    | with_reducible apply raise_memWf
    | with_reducible apply popRandom_memWf
    | with_reducible apply memWf_foldl
    | split
    | simp only [memWf_mk]
    | with_reducible intro)

theorem mPlain_memWf (opc : Nat) (f : FM) {s : State} (h : s.memWf = true) : outWf (mPlain opc f s) := by
  unfold mPlain
  try dsimp only
  repeat' (first
    | with_reducible assumption
    | with_reducible apply outWf_next
    | with_reducible apply mIssue_memWf
    | with_reducible apply addEff_memWf
    | (refine memWf_of_next (by with_reducible assumption) ?_)
    | with_reducible apply memWf_foldl
    | split
    | simp only [memWf_mk]
    | with_reducible intro)

theorem execMldb_memWf (f : FM) {s : State} (h : s.memWf = true) : outWf (execMldb f s) := by
  unfold execMldb
  try dsimp only
  repeat' (first
    | with_reducible assumption
    | with_reducible apply outWf_next
    | with_reducible apply mPlain_memWf
    | (refine memWf_of_next (by with_reducible assumption) ?_)
    | with_reducible apply memWf_foldl
    | split
    | simp only [memWf_mk]
    | with_reducible intro)

theorem execMma_memWf (f : FM) {s : State} (h : s.memWf = true) : outWf (execMma f s) := by
  unfold execMma
  try dsimp only
  repeat' (first
    | with_reducible assumption
    | with_reducible apply outWf_next
    | with_reducible apply mPlain_memWf
    | (refine memWf_of_next (by with_reducible assumption) ?_)
    | with_reducible apply memWf_foldl
    | split
    | simp only [memWf_mk]
    | with_reducible intro)

theorem execMtrn_memWf (f : FM) {s : State} (h : s.memWf = true) : outWf (execMtrn f s) := by
  unfold execMtrn
  try dsimp only
  repeat' (first
    | with_reducible assumption
    | with_reducible apply outWf_next
    | with_reducible apply mPlain_memWf
    | (refine memWf_of_next (by with_reducible assumption) ?_)
    | with_reducible apply memWf_foldl
    | split
    | simp only [memWf_mk]
    | with_reducible intro)

theorem execMscl_memWf (f : FM) {s : State} (h : s.memWf = true) : outWf (execMscl f s) := by
  unfold execMscl
  try dsimp only
  repeat' (first
    | with_reducible assumption
    | with_reducible apply outWf_next
    | with_reducible apply mIssue_memWf
    | with_reducible apply addEff_memWf
    | with_reducible apply reads_memWf
    | (refine memWf_of_next (by with_reducible assumption) ?_)
    | with_reducible apply memWf_foldl
    | split
    | simp only [memWf_mk]
    | with_reducible intro)

theorem execMadd_memWf (f : FM) {s : State} (h : s.memWf = true) : outWf (execMadd f s) := by
  unfold execMadd
  try dsimp only
  repeat' (first
    | with_reducible assumption
    | with_reducible apply outWf_next
    | with_reducible apply mPlain_memWf
    | (refine memWf_of_next (by with_reducible assumption) ?_)
    | with_reducible apply memWf_foldl
    | split
    | simp only [memWf_mk]
    | with_reducible intro)

theorem execMcvt_memWf (f : FM) {s : State} (h : s.memWf = true) : outWf (execMcvt f s) := by
  unfold execMcvt
  try dsimp only
  repeat' (first
    | with_reducible assumption
    | with_reducible apply outWf_next
    | with_reducible apply mPlain_memWf
    | (refine memWf_of_next (by with_reducible assumption) ?_)
    | with_reducible apply memWf_foldl
    | split
    | simp only [memWf_mk]
    | with_reducible intro)

theorem execMzero_memWf (f : FM) {s : State} (h : s.memWf = true) : outWf (execMzero f s) := by
  unfold execMzero
  try dsimp only
  repeat' (first
    | with_reducible assumption
    | with_reducible apply outWf_next
    | with_reducible apply mPlain_memWf
    | (refine memWf_of_next (by with_reducible assumption) ?_)
    | with_reducible apply memWf_foldl
    | split
    | simp only [memWf_mk]
    | with_reducible intro)

theorem execMcpy_memWf (f : FM) {s : State} (h : s.memWf = true) : outWf (execMcpy f s) := by
  unfold execMcpy
  try dsimp only
  repeat' (first
    | with_reducible assumption
    | with_reducible apply outWf_next
    | with_reducible apply mPlain_memWf
    | (refine memWf_of_next (by with_reducible assumption) ?_)
    | with_reducible apply memWf_foldl
    | split
    | simp only [memWf_mk]
    | with_reducible intro)

theorem execMvs_memWf (f : FM) {s : State} (h : s.memWf = true) : outWf (execMvs f s) := by
  unfold execMvs
  try dsimp only
  repeat' (first
    | with_reducible assumption
    | with_reducible apply outWf_next
    | with_reducible apply mIssue_memWf
    | with_reducible apply reads_memWf
    | with_reducible apply raise_memWf
    | with_reducible apply accessFail_memWf
    | with_reducible apply addEff_memWf
    | with_reducible apply keepPages_memWf
    | (refine memWf_of_next (by with_reducible assumption) ?_)
    | with_reducible apply memWf_foldl
    | split
    | simp only [memWf_mk]
    | with_reducible intro)

theorem execMqnt_memWf (f : FM) {s : State} (h : s.memWf = true) : outWf (execMqnt f s) := by
  unfold execMqnt
  try dsimp only
  repeat' (first
    | with_reducible assumption
    | with_reducible apply outWf_next
    | with_reducible apply mPlain_memWf
    | (refine memWf_of_next (by with_reducible assumption) ?_)
    | with_reducible apply memWf_foldl
    | split
    | simp only [memWf_mk]
    | with_reducible intro)

theorem execCpy_memWf (f : F3) {s : State} (h : s.memWf = true) : outWf (execCpy f s) := by
  unfold execCpy
  try dsimp only
  repeat' (first
    | with_reducible assumption
    | with_reducible apply outWf_next
    | with_reducible apply slotOp_memWf
    | with_reducible apply reads_memWf
    | with_reducible apply withD_memWf
    | with_reducible apply issueCpy_memWf
    | with_reducible apply memWf_foldl
    | split
    | simp only [memWf_mk]
    | with_reducible intro)

theorem execCpyD_memWf (f : F3) {s : State} (h : s.memWf = true) : outWf (execCpyD f s) := by
  unfold execCpyD
  try dsimp only
  repeat' (first
    | with_reducible assumption
    | with_reducible apply outWf_next
    | with_reducible apply slotOp_memWf
    | with_reducible apply reads_memWf
    | with_reducible apply withDesc_memWf
    | with_reducible apply issueCpy_memWf
    | with_reducible apply raise_memWf
    | with_reducible apply withHandle_memWf
    | with_reducible apply memWf_foldl
    | split
    | simp only [memWf_mk]
    | with_reducible intro)

theorem withExcess_memWf {s : State} (sto : Bool) (k : State → State) (h : s.memWf = true) (hk : ∀ t, t.memWf = true → (k t).memWf = true) : (withExcess s sto k).memWf = true := by
  unfold withExcess
  try dsimp only
  repeat' (first
    | with_reducible assumption
    | with_reducible apply hk
    | with_reducible apply raise_memWf
    | with_reducible apply memWf_foldl
    | split
    | simp only [memWf_mk]
    | with_reducible intro)

theorem execSend_memWf (f : F3) {s : State} (h : s.memWf = true) : outWf (execSend f s) := by
  unfold execSend
  try dsimp only
  repeat' (first
    | with_reducible assumption
    | with_reducible apply outWf_next
    | with_reducible apply slotOp_memWf
    | with_reducible apply reads_memWf
    | with_reducible apply withDesc_memWf
    | with_reducible apply raise_memWf
    | with_reducible apply popCommand_memWf
    | with_reducible apply holdEngine_memWf
    | with_reducible apply withHandle_memWf
    | with_reducible apply withExcess_memWf
    | with_reducible apply memWf_foldl
    | split
    | simp only [memWf_mk]
    | with_reducible intro)

theorem execArm_memWf (f : F3) {s : State} (h : s.memWf = true) : outWf (execArm f s) := by
  unfold execArm
  try dsimp only
  repeat' (first
    | with_reducible assumption
    | with_reducible apply outWf_next
    | with_reducible apply slotOp_memWf
    | with_reducible apply reads_memWf
    | with_reducible apply withDesc_memWf
    | with_reducible apply raise_memWf
    | with_reducible apply withHandle_memWf
    | with_reducible apply withD_memWf
    | with_reducible apply holdEngine_memWf
    | with_reducible apply memWf_foldl
    | split
    | simp only [memWf_mk]
    | with_reducible intro)

theorem execDisarm_memWf (f : F3) {s : State} (h : s.memWf = true) : outWf (execDisarm f s) := by
  unfold execDisarm
  try dsimp only
  repeat' (first
    | with_reducible assumption
    | with_reducible apply outWf_next
    | with_reducible apply slotOp_memWf
    | with_reducible apply reads_memWf
    | with_reducible apply withD_memWf
    | with_reducible apply raise_memWf
    | with_reducible apply holdEngine_memWf
    | with_reducible apply memWf_foldl
    | split
    | simp only [memWf_mk]
    | with_reducible intro)

theorem execCadd_memWf (f : F3) {s : State} (h : s.memWf = true) : outWf (execCadd f s) := by
  unfold execCadd
  try dsimp only
  repeat' (first
    | with_reducible assumption
    | with_reducible apply outWf_next
    | with_reducible apply slotOp_memWf
    | with_reducible apply reads_memWf
    | with_reducible apply raise_memWf
    | with_reducible apply addCmd_memWf
    | with_reducible apply memWf_foldl
    | split
    | simp only [memWf_mk]
    | with_reducible intro)

theorem execCaddf_memWf (f : F3) {s : State} (h : s.memWf = true) : outWf (execCaddf f s) := by
  unfold execCaddf
  try dsimp only
  repeat' (first
    | with_reducible assumption
    | with_reducible apply outWf_next
    | with_reducible apply slotOp_memWf
    | with_reducible apply reads_memWf
    | with_reducible apply raise_memWf
    | with_reducible apply addEff_memWf
    | with_reducible apply memWf_foldl
    | split
    | simp only [memWf_mk]
    | with_reducible intro)

theorem execCaddm_memWf (f : F3) {s : State} (h : s.memWf = true) : outWf (execCaddm f s) := by
  unfold execCaddm
  try dsimp only
  repeat' (first
    | with_reducible assumption
    | with_reducible apply outWf_next
    | with_reducible apply slotOp_memWf
    | with_reducible apply reads_memWf
    | with_reducible apply raise_memWf
    | with_reducible apply addCmd_memWf
    | with_reducible apply memWf_foldl
    | split
    | simp only [memWf_mk]
    | with_reducible intro)

theorem execMcst_memWf (f : F3) {s : State} (h : s.memWf = true) : outWf (execMcst f s) := by
  unfold execMcst
  try dsimp only
  repeat' (first
    | with_reducible assumption
    | with_reducible apply outWf_next
    | with_reducible apply slotOp_memWf
    | with_reducible apply reads_memWf
    | with_reducible apply raise_memWf
    | with_reducible apply withDesc_memWf
    | with_reducible apply withAccess_memWf
    | with_reducible apply accessFail_memWf
    | with_reducible apply withD_memWf
    | with_reducible apply holdEngine_memWf
    | with_reducible apply memWf_foldl
    | split
    | simp only [memWf_mk]
    | with_reducible intro)

theorem execCload_memWf (f : F3) {s : State} (h : s.memWf = true) : outWf (execCload f s) := by
  unfold execCload
  try dsimp only
  repeat' (first
    | with_reducible assumption
    | with_reducible apply outWf_next
    | with_reducible apply slotOp_memWf
    | with_reducible apply reads_memWf
    | with_reducible apply raise_memWf
    | with_reducible apply withDesc_memWf
    | with_reducible apply withD_memWf
    | with_reducible apply holdEngine_memWf
    | with_reducible apply memWf_foldl
    | split
    | simp only [memWf_mk]
    | with_reducible intro)

theorem execColl_memWf (f : F3) {s : State} (h : s.memWf = true) : outWf (execColl f s) := by
  unfold execColl
  try dsimp only
  repeat' (first
    | with_reducible assumption
    | with_reducible apply outWf_next
    | with_reducible apply slotOp_memWf
    | with_reducible apply reads_memWf
    | with_reducible apply raise_memWf
    | with_reducible apply withDesc_memWf
    | with_reducible apply withD_memWf
    | with_reducible apply popCommand_memWf
    | with_reducible apply holdEngine_memWf
    | with_reducible apply withExcess_memWf
    | with_reducible apply memWf_foldl
    | split
    | simp only [memWf_mk]
    | with_reducible intro)

theorem execGen_memWf (f : F3) {s : State} (h : s.memWf = true) : outWf (execGen f s) := by
  unfold execGen
  try dsimp only
  repeat' (first
    | with_reducible assumption
    | with_reducible apply outWf_next
    | with_reducible apply slotOp_memWf
    | with_reducible apply reads_memWf
    | with_reducible apply raise_memWf
    | with_reducible apply addCmd_memWf
    | with_reducible apply setPart_memWf
    | with_reducible apply memWf_foldl
    | split
    | simp only [memWf_mk]
    | with_reducible intro)

theorem execQstat_memWf (f : F3) {s : State} (h : s.memWf = true) : outWf (execQstat f s) := by
  unfold execQstat
  try dsimp only
  repeat' (first
    | with_reducible assumption
    | with_reducible apply outWf_next
    | with_reducible apply slotOp_memWf
    | with_reducible apply giveS_memWf
    | with_reducible apply memWf_foldl
    | split
    | simp only [memWf_mk]
    | with_reducible intro)

theorem execWaitf_memWf (f : FW) {s : State} (h : s.memWf = true) : outWf (execWaitf f s) := by
  unfold execWaitf
  try dsimp only
  repeat' (first
    | with_reducible assumption
    | with_reducible apply outWf_next
    | with_reducible apply slotOp_memWf
    | with_reducible apply acquireFlags_memWf
    | with_reducible apply memWf_foldl
    | split
    | simp only [memWf_mk]
    | with_reducible intro)

theorem execWatch_memWf (f : FY) {s : State} (h : s.memWf = true) : outWf (execWatch f s) := by
  unfold execWatch
  try dsimp only
  repeat' (first
    | with_reducible assumption
    | with_reducible apply outWf_next
    | with_reducible apply slotOp_memWf
    | with_reducible apply reads_memWf
    | with_reducible apply raise_memWf
    | with_reducible apply addCmd_memWf
    | with_reducible apply setPart_memWf
    | with_reducible apply memWf_foldl
    | split
    | simp only [memWf_mk]
    | with_reducible intro)

theorem execUnwatch_memWf (f : FY) {s : State} (h : s.memWf = true) : outWf (execUnwatch f s) := by
  unfold execUnwatch
  try dsimp only
  repeat' (first
    | with_reducible assumption
    | with_reducible apply outWf_next
    | with_reducible apply slotOp_memWf
    | with_reducible apply addCmd_memWf
    | with_reducible apply memWf_foldl
    | split
    | simp only [memWf_mk]
    | with_reducible intro)

theorem slotOut_memWf (i : Instr) {s : State} (h : s.memWf = true) : outWf (slotOut i s) := by
  unfold slotOut
  split
  · exact execNop_memWf _ h
  · exact execAdd_memWf _ h
  · exact execSub_memWf _ h
  · exact execMul_memWf _ h
  · exact execMulh_memWf _ h
  · exact execDiv_memWf _ h
  · exact execRem_memWf _ h
  · exact execAnd_memWf _ h
  · exact execOr_memWf _ h
  · exact execXor_memWf _ h
  · exact execShl_memWf _ h
  · exact execShr_memWf _ h
  · exact execSra_memWf _ h
  · exact execMin_memWf _ h
  · exact execMax_memWf _ h
  · exact execClz_memWf _ h
  · exact execPopc_memWf _ h
  · exact execSel_memWf _ h
  · exact execSetp_memWf _ h
  · exact execAddi_memWf _ h
  · exact execAndi_memWf _ h
  · exact execOri_memWf _ h
  · exact execXori_memWf _ h
  · exact execShli_memWf _ h
  · exact execShri_memWf _ h
  · exact execSrai_memWf _ h
  · exact execMovi_memWf _ h
  · exact execMovh_memWf _ h
  · exact execBr_memWf _ h
  · exact execJmp_memWf _ h
  · exact execCall_memWf _ h
  · exact execRet_memWf _ h
  · exact execLoop_memWf _ h
  · exact execLoopi_memWf _ h
  · exact execLbrk_memWf _ h
  · exact execExit_memWf _ h
  · exact execCsrr_memWf _ h
  · exact execCsrw_memWf _ h
  · exact execCsrwSet_memWf _ h
  · exact execCsrwClr_memWf _ h
  · exact execSvc_memWf _ h
  · exact execSret_memWf _ h
  · exact execFence_memWf _ h
  · exact execJoin_memWf _ h
  · exact execLeave_memWf _ h
  · exact execGrp_memWf _ h
  · exact execLaunch_memWf _ h
  · exact execYieldOp_memWf _ h
  · exact execDress_memWf _ h
  · exact execPlog_memWf _ h
  · exact execPmov_memWf _ h
  · exact execTdef_memWf _ h
  · exact execVadd_memWf _ h
  · exact execVsub_memWf _ h
  · exact execVmul_memWf _ h
  · exact execVfma_memWf _ h
  · exact execVmin_memWf _ h
  · exact execVmax_memWf _ h
  · exact execVabs_memWf _ h
  · exact execVneg_memWf _ h
  · exact execVand_memWf _ h
  · exact execVor_memWf _ h
  · exact execVxor_memWf _ h
  · exact execVshl_memWf _ h
  · exact execVshr_memWf _ h
  · exact execVsra_memWf _ h
  · exact execVcmp_memWf _ h
  · exact execVsel_memWf _ h
  · exact execVred_memWf _ h
  · exact execVscan_memWf _ h
  · exact execVperm_memWf _ h
  · exact execVbcast_memWf _ h
  · exact execVextr_memWf _ h
  · exact execVrcp_memWf _ h
  · exact execVrsq_memWf _ h
  · exact execVexp2_memWf _ h
  · exact execVlog2_memWf _ h
  · exact execViota_memWf _ h
  · exact execVdot4_memWf _ h
  · exact execLds_memWf _ h
  · exact execSts_memWf _ h
  · exact execLdv_memWf _ h
  · exact execStv_memWf _ h
  · exact execLdvs_memWf _ h
  · exact execStvs_memWf _ h
  · exact execLdvx_memWf _ h
  · exact execStvx_memWf _ h
  · exact execPref_memWf _ h
  · exact execAtom_memWf _ h
  · exact execAccv_memWf _ h
  · exact execCflush_memWf _ h
  · exact execCinv_memWf _ h
  · exact execCvt_memWf _ h
  · exact execQnt_memWf _ h
  · exact execDqnt_memWf _ h
  · exact execLdk_memWf _ h
  · exact execStk_memWf _ h
  · exact execMovk_memWf _ h
  · exact execRndw_memWf _ h
  · exact execRndc_memWf _ h
  · exact execSealTile_memWf _ h
  · exact execOpenTile_memWf _ h
  · exact execPack_memWf _ h
  · exact execUnpack_memWf _ h
  · exact execMldb_memWf _ h
  · exact execMma_memWf _ h
  · exact execMtrn_memWf _ h
  · exact execMscl_memWf _ h
  · exact execMadd_memWf _ h
  · exact execMcvt_memWf _ h
  · exact execMzero_memWf _ h
  · exact execMcpy_memWf _ h
  · exact execMvs_memWf _ h
  · exact execMqnt_memWf _ h
  · exact execCpy_memWf _ h
  · exact execCpyD_memWf _ h
  · exact execSend_memWf _ h
  · exact execArm_memWf _ h
  · exact execDisarm_memWf _ h
  · exact execCadd_memWf _ h
  · exact execCaddf_memWf _ h
  · exact execCaddm_memWf _ h
  · exact execMcst_memWf _ h
  · exact execCload_memWf _ h
  · exact execColl_memWf _ h
  · exact execGen_memWf _ h
  · exact execQstat_memWf _ h
  · exact execWaitf_memWf _ h
  · exact execWatch_memWf _ h
  · exact execUnwatch_memWf _ h
  · exact outWf_next h

theorem runSlot_memWf (i : Instr) {s : State} (h : s.memWf = true) : (runSlot i s).memWf = true := by
  unfold runSlot
  try dsimp only
  repeat' (first
    | with_reducible assumption
    | with_reducible apply slotOut_memWf
    | (refine memWf_of_next (by with_reducible assumption) ?_)
    | with_reducible apply memWf_foldl
    | split
    | simp only [memWf_mk]
    | with_reducible intro)

theorem issueOp_memWf {s : State} (p : Planned) (h : s.memWf = true) : (issueOp s p).memWf = true := by
  unfold issueOp
  try dsimp only
  repeat' (first
    | with_reducible assumption
    | with_reducible apply runSlot_memWf
    | with_reducible apply memWf_foldl
    | split
    | simp only [memWf_mk]
    | with_reducible intro)

theorem runMember_memWf {s : State} (len : Nat) (m : Member) (h : s.memWf = true) : (runMember s len m).memWf = true := by
  unfold runMember
  try dsimp only
  repeat' (first
    | with_reducible assumption
    | with_reducible apply issueOp_memWf
    | with_reducible apply memWf_foldl
    | split
    | simp only [memWf_mk]
    | with_reducible intro)

theorem runMembers_memWf (len : Nat) {x1 : State} (x2 : List Member) (x3 : List Cursor) (hx1 : x1.memWf = true) : (runMembers len x1 x2 x3).1.memWf = true := by
  induction x2 generalizing x1 x3 with
  | nil =>
    unfold runMembers
    try dsimp only
    repeat' (first
      | with_reducible assumption
      | with_reducible apply runMember_memWf
      | with_reducible apply memWf_foldl
      | split
      | simp only [memWf_mk]
      | with_reducible intro)
  | cons p ps ih =>
    unfold runMembers
    try dsimp only
    repeat' (first
      | with_reducible apply ih
      | with_reducible assumption
      | with_reducible apply runMember_memWf
      | with_reducible apply memWf_foldl
      | split
      | simp only [memWf_mk]
      | with_reducible intro)

theorem fenceDrain_memWf {s : State} (ms : List Member) (h : s.memWf = true) : (fenceDrain s ms).memWf = true := by
  unfold fenceDrain
  try dsimp only
  repeat' (first
    | with_reducible assumption
    | with_reducible apply drainAll_memWf
    | with_reducible apply memWf_foldl
    | split
    | simp only [memWf_mk]
    | with_reducible intro)

theorem issueDecoded_memWf {s : State} (lead : Nat) (b : Bundle) (ms : List Member) (h : s.memWf = true) :
    (issueDecoded s lead b ms).1.memWf = true := by
  have hf := fenceDrain_memWf ms h
  have hr : (runMembers b.len (fenceDrain s ms) ms []).1.memWf = true := runMembers_memWf _ _ _ hf
  have ha : ∀ {u : State}, u.memWf = true → State.memWf { u with cur := {} } = true := fun x => x
  unfold issueDecoded
  dsimp only
  generalize fenceDrain s ms = t at hf hr ⊢
  generalize runMembers b.len t ms [] = r at hr ⊢
  have hc : ∀ cs, (tryClose t cs).1.memWf = true := fun cs => tryClose_memWf _ hf
  refine fst_memWf_ite (ha (tryClose_memWf _ h)) (fst_memWf_ite (heldCycle_memWf _ _ h) (fst_memWf_ite (heldCycle_memWf _ _ h)
    (fst_memWf_ite (holdFrozen_memWf _ _ h) (fst_memWf_ite ?_ (fst_memWf_ite (takeFault_memWf _ _ _ hf)
      (fst_memWf_ite (fst_memWf_ite (ha (hc _)) (holdFrozen_memWf _ _ hf)) (fst_memWf_ite ?_ (fst_memWf_ite ?_ ?_))))))))
  · show State.memWf (if _ then _ else r.1) = true
    refine memWf_ite ?_ hr
    split
    · exact runMember_memWf _ _ hf
    · exact hr
  · exact ha (memWf_ite (memWf_foldl (hc _) fun t x ht => drainAll_memWf _ ht) (hc _))
  · exact fst_memWf_ite (ha (memWf_foldl hf fun t x ht => drainAll_memWf _ ht)) (holdFrozen_memWf _ _ hf)
  · split
    · exact ha (tryFlush_memWf _ hf)
    · refine fst_memWf_ite (holdFrozen_memWf _ _ hf) ?_
      split
      · split
        · exact eccFailure_memWf _ _ _ hf
        · exact hf
      · exact commitAll_memWf _ _ _ _ hr

theorem issueTry_memWf (x0 : Nat) (x1 : Nat) {x2 : State} (hx2 : x2.memWf = true) : (issueTry x0 x1 x2).memWf = true := by
  induction x0 generalizing x1 x2 with
  | zero =>
    unfold issueTry
    try dsimp only
    repeat' (first
      | with_reducible assumption
      | with_reducible apply fetchBundle_memWf
      | with_reducible apply fetchFail_memWf
      | with_reducible apply holdFrozen_memWf
      | with_reducible apply skipBundle_memWf
      | with_reducible apply takeFault_memWf
      | with_reducible apply skipBody_memWf
      | with_reducible apply issueDecoded_memWf
      | (refine memWf_of_ok22 (by with_reducible assumption) ?_)
      | (refine memWf_of_fst (by with_reducible assumption) ?_)
      | (refine memWf_of_snd (by with_reducible assumption) ?_)
      | with_reducible apply memWf_foldl
      | split
      | simp only [memWf_mk]
      | with_reducible intro)
  | succ n ih =>
    unfold issueTry
    try dsimp only
    repeat' (first
      | with_reducible apply ih
      | with_reducible assumption
      | with_reducible apply fetchBundle_memWf
      | with_reducible apply fetchFail_memWf
      | with_reducible apply holdFrozen_memWf
      | with_reducible apply skipBundle_memWf
      | with_reducible apply takeFault_memWf
      | with_reducible apply skipBody_memWf
      | with_reducible apply issueDecoded_memWf
      | (refine memWf_of_ok22 (by with_reducible assumption) ?_)
      | (refine memWf_of_fst (by with_reducible assumption) ?_)
      | (refine memWf_of_snd (by with_reducible assumption) ?_)
      | with_reducible apply memWf_foldl
      | split
      | simp only [memWf_mk]
      | with_reducible intro)

theorem thawAll_memWf {s : State} (cs : List Nat) (h : s.memWf = true) : (thawAll s cs).memWf = true := by
  unfold thawAll
  try dsimp only
  repeat' (first
    | with_reducible assumption
    | with_reducible apply onCore_memWf
    | with_reducible apply memWf_foldl
    | split
    | simp only [memWf_mk]
    | with_reducible intro)

theorem coreIssue_memWf (c : Nat) {s : State} (h : s.memWf = true) : (coreIssue c s).memWf = true := by
  unfold coreIssue
  try dsimp only
  repeat' (first
    | with_reducible assumption
    | with_reducible apply finishMatch_memWf
    | with_reducible apply offerPending_memWf
    | with_reducible apply preemptAsked_memWf
    | with_reducible apply closeRegion_memWf
    | with_reducible apply dressFault_memWf
    | with_reducible apply heldCycle_memWf
    | with_reducible apply stageRun_memWf
    | with_reducible apply holdFrozen_memWf
    | with_reducible apply issueTry_memWf
    | with_reducible apply preemptHere_memWf
    | with_reducible apply thawAll_memWf
    | with_reducible apply memWf_foldl
    | split
    | simp only [memWf_mk]
    | with_reducible intro)

theorem execMove_memWf (m : LM) (dst : Nat) {s : State} (h : s.memWf = true) : outWf (execMove m dst s) := by
  unfold execMove
  try dsimp only
  repeat' (first
    | with_reducible assumption
    | with_reducible apply outWf_next
    | with_reducible apply leatOp_memWf
    | with_reducible apply leatGive_memWf
    | with_reducible apply onLeat_memWf
    | with_reducible apply memWf_foldl
    | split
    | simp only [memWf_mk]
    | with_reducible intro)

theorem execAluAdd_memWf (m : LM) {s : State} (h : s.memWf = true) : outWf (execAluAdd m s) := by
  unfold execAluAdd
  try dsimp only
  repeat' (first
    | with_reducible assumption
    | with_reducible apply outWf_next
    | with_reducible apply aluOp_memWf
    | (refine memWf_of_next (by with_reducible assumption) ?_)
    | with_reducible apply memWf_foldl
    | split
    | simp only [memWf_mk]
    | with_reducible intro)

theorem execAluSub_memWf (m : LM) {s : State} (h : s.memWf = true) : outWf (execAluSub m s) := by
  unfold execAluSub
  try dsimp only
  repeat' (first
    | with_reducible assumption
    | with_reducible apply outWf_next
    | with_reducible apply aluOp_memWf
    | (refine memWf_of_next (by with_reducible assumption) ?_)
    | with_reducible apply memWf_foldl
    | split
    | simp only [memWf_mk]
    | with_reducible intro)

theorem execAluAnd_memWf (m : LM) {s : State} (h : s.memWf = true) : outWf (execAluAnd m s) := by
  unfold execAluAnd
  try dsimp only
  repeat' (first
    | with_reducible assumption
    | with_reducible apply outWf_next
    | with_reducible apply aluOp_memWf
    | (refine memWf_of_next (by with_reducible assumption) ?_)
    | with_reducible apply memWf_foldl
    | split
    | simp only [memWf_mk]
    | with_reducible intro)

theorem execAluOr_memWf (m : LM) {s : State} (h : s.memWf = true) : outWf (execAluOr m s) := by
  unfold execAluOr
  try dsimp only
  repeat' (first
    | with_reducible assumption
    | with_reducible apply outWf_next
    | with_reducible apply aluOp_memWf
    | (refine memWf_of_next (by with_reducible assumption) ?_)
    | with_reducible apply memWf_foldl
    | split
    | simp only [memWf_mk]
    | with_reducible intro)

theorem execAluXor_memWf (m : LM) {s : State} (h : s.memWf = true) : outWf (execAluXor m s) := by
  unfold execAluXor
  try dsimp only
  repeat' (first
    | with_reducible assumption
    | with_reducible apply outWf_next
    | with_reducible apply aluOp_memWf
    | (refine memWf_of_next (by with_reducible assumption) ?_)
    | with_reducible apply memWf_foldl
    | split
    | simp only [memWf_mk]
    | with_reducible intro)

theorem execAluShl_memWf (m : LM) {s : State} (h : s.memWf = true) : outWf (execAluShl m s) := by
  unfold execAluShl
  try dsimp only
  repeat' (first
    | with_reducible assumption
    | with_reducible apply outWf_next
    | with_reducible apply aluOp_memWf
    | (refine memWf_of_next (by with_reducible assumption) ?_)
    | with_reducible apply memWf_foldl
    | split
    | simp only [memWf_mk]
    | with_reducible intro)

theorem execAluShr_memWf (m : LM) {s : State} (h : s.memWf = true) : outWf (execAluShr m s) := by
  unfold execAluShr
  try dsimp only
  repeat' (first
    | with_reducible assumption
    | with_reducible apply outWf_next
    | with_reducible apply aluOp_memWf
    | (refine memWf_of_next (by with_reducible assumption) ?_)
    | with_reducible apply memWf_foldl
    | split
    | simp only [memWf_mk]
    | with_reducible intro)

theorem execAluSra_memWf (m : LM) {s : State} (h : s.memWf = true) : outWf (execAluSra m s) := by
  unfold execAluSra
  try dsimp only
  repeat' (first
    | with_reducible assumption
    | with_reducible apply outWf_next
    | with_reducible apply aluOp_memWf
    | (refine memWf_of_next (by with_reducible assumption) ?_)
    | with_reducible apply memWf_foldl
    | split
    | simp only [memWf_mk]
    | with_reducible intro)

theorem execAluEq_memWf (m : LM) {s : State} (h : s.memWf = true) : outWf (execAluEq m s) := by
  unfold execAluEq
  try dsimp only
  repeat' (first
    | with_reducible assumption
    | with_reducible apply outWf_next
    | with_reducible apply aluOp_memWf
    | (refine memWf_of_next (by with_reducible assumption) ?_)
    | with_reducible apply memWf_foldl
    | split
    | simp only [memWf_mk]
    | with_reducible intro)

theorem execAluLt_memWf (m : LM) {s : State} (h : s.memWf = true) : outWf (execAluLt m s) := by
  unfold execAluLt
  try dsimp only
  repeat' (first
    | with_reducible assumption
    | with_reducible apply outWf_next
    | with_reducible apply aluOp_memWf
    | (refine memWf_of_next (by with_reducible assumption) ?_)
    | with_reducible apply memWf_foldl
    | split
    | simp only [memWf_mk]
    | with_reducible intro)

theorem execAluLtu_memWf (m : LM) {s : State} (h : s.memWf = true) : outWf (execAluLtu m s) := by
  unfold execAluLtu
  try dsimp only
  repeat' (first
    | with_reducible assumption
    | with_reducible apply outWf_next
    | with_reducible apply aluOp_memWf
    | (refine memWf_of_next (by with_reducible assumption) ?_)
    | with_reducible apply memWf_foldl
    | split
    | simp only [memWf_mk]
    | with_reducible intro)

theorem execAluSel_memWf (m : LM) {s : State} (h : s.memWf = true) : outWf (execAluSel m s) := by
  unfold execAluSel
  try dsimp only
  repeat' (first
    | with_reducible assumption
    | with_reducible apply outWf_next
    | with_reducible apply leatOp_memWf
    | with_reducible apply leatGive_memWf
    | with_reducible apply memWf_foldl
    | split
    | simp only [memWf_mk]
    | with_reducible intro)

theorem lsuLoad_memWf (n : Nat) (m : LM) {s : State} (h : s.memWf = true) : outWf (lsuLoad n m s) := by
  unfold lsuLoad
  try dsimp only
  repeat' (first
    | with_reducible assumption
    | with_reducible apply outWf_next
    | with_reducible apply leatOp_memWf
    | with_reducible apply leatRaise_memWf
    | with_reducible apply leatGive_memWf
    | with_reducible apply memWf_foldl
    | split
    | simp only [memWf_mk]
    | with_reducible intro)

theorem execLsuLd32_memWf (m : LM) {s : State} (h : s.memWf = true) : outWf (execLsuLd32 m s) := by
  unfold execLsuLd32
  try dsimp only
  repeat' (first
    | with_reducible assumption
    | with_reducible apply outWf_next
    | with_reducible apply lsuLoad_memWf
    | (refine memWf_of_next (by with_reducible assumption) ?_)
    | with_reducible apply memWf_foldl
    | split
    | simp only [memWf_mk]
    | with_reducible intro)

theorem execLsuLd64_memWf (m : LM) {s : State} (h : s.memWf = true) : outWf (execLsuLd64 m s) := by
  unfold execLsuLd64
  try dsimp only
  repeat' (first
    | with_reducible assumption
    | with_reducible apply outWf_next
    | with_reducible apply lsuLoad_memWf
    | (refine memWf_of_next (by with_reducible assumption) ?_)
    | with_reducible apply memWf_foldl
    | split
    | simp only [memWf_mk]
    | with_reducible intro)

theorem lsuStore_memWf (n : Nat) (m : LM) {s : State} (h : s.memWf = true) : outWf (lsuStore n m s) := by
  unfold lsuStore
  try dsimp only
  repeat' (first
    | with_reducible assumption
    | with_reducible apply outWf_next
    | with_reducible apply leatOp_memWf
    | with_reducible apply leatRaise_memWf
    | with_reducible apply onLeat_memWf
    | with_reducible apply setConn_memWf
    | with_reducible apply memWf_foldl
    | split
    | simp only [memWf_mk]
    | with_reducible intro)

theorem execLsuSt32_memWf (m : LM) {s : State} (h : s.memWf = true) : outWf (execLsuSt32 m s) := by
  unfold execLsuSt32
  try dsimp only
  repeat' (first
    | with_reducible assumption
    | with_reducible apply outWf_next
    | with_reducible apply lsuStore_memWf
    | (refine memWf_of_next (by with_reducible assumption) ?_)
    | with_reducible apply memWf_foldl
    | split
    | simp only [memWf_mk]
    | with_reducible intro)

theorem execLsuSt64_memWf (m : LM) {s : State} (h : s.memWf = true) : outWf (execLsuSt64 m s) := by
  unfold execLsuSt64
  try dsimp only
  repeat' (first
    | with_reducible assumption
    | with_reducible apply outWf_next
    | with_reducible apply lsuStore_memWf
    | (refine memWf_of_next (by with_reducible assumption) ?_)
    | with_reducible apply memWf_foldl
    | split
    | simp only [memWf_mk]
    | with_reducible intro)

theorem firmwareTurn_memWf {s : State} (port : Nat) (h : s.memWf = true) : (firmwareTurn s port).memWf = true := by
  unfold firmwareTurn
  try dsimp only
  repeat' (first
    | with_reducible assumption
    | with_reducible apply setUpPort_memWf
    | with_reducible apply setPort_memWf
    | with_reducible apply memWf_foldl
    | split
    | simp only [memWf_mk]
    | with_reducible intro)

theorem execEvqPop_memWf (m : LM) {s : State} (h : s.memWf = true) : outWf (execEvqPop m s) := by
  unfold execEvqPop
  try dsimp only
  repeat' (first
    | with_reducible assumption
    | with_reducible apply outWf_next
    | with_reducible apply leatOp_memWf
    | with_reducible apply leatRaise_memWf
    | with_reducible apply leatGive_memWf
    | with_reducible apply onLeat_memWf
    | with_reducible apply firmwareTurn_memWf
    | with_reducible apply memWf_foldl
    | split
    | simp only [memWf_mk]
    | with_reducible intro)

theorem execEvqPeek_memWf (m : LM) {s : State} (h : s.memWf = true) : outWf (execEvqPeek m s) := by
  unfold execEvqPeek
  try dsimp only
  repeat' (first
    | with_reducible assumption
    | with_reducible apply outWf_next
    | with_reducible apply leatOp_memWf
    | with_reducible apply leatGive_memWf
    | with_reducible apply memWf_foldl
    | split
    | simp only [memWf_mk]
    | with_reducible intro)

theorem sendProbe_memWf {s : State} (c : Nat) (path : Nat) (h : s.memWf = true) : (sendProbe s c path).memWf = true := by
  unfold sendProbe
  try dsimp only
  repeat' (first
    | with_reducible assumption
    | with_reducible apply sendCtl_memWf
    | with_reducible apply memWf_foldl
    | split
    | simp only [memWf_mk]
    | with_reducible intro)

theorem execTxuTxdesc_memWf (m : LM) {s : State} (h : s.memWf = true) : outWf (execTxuTxdesc m s) := by
  unfold execTxuTxdesc
  try dsimp only
  repeat' (first
    | with_reducible assumption
    | with_reducible apply outWf_next
    | with_reducible apply leatOp_memWf
    | with_reducible apply leatRaise_memWf
    | with_reducible apply txuGive_memWf
    | with_reducible apply txdescOpen_memWf
    | with_reducible apply offerAll_memWf
    | with_reducible apply closeConn_memWf
    | with_reducible apply sendProbe_memWf
    | (refine memWf_of_fst (by with_reducible assumption) ?_)
    | (refine memWf_of_snd (by with_reducible assumption) ?_)
    | with_reducible apply memWf_foldl
    | split
    | simp only [memWf_mk]
    | with_reducible intro)

theorem execTxuRetx_memWf (m : LM) {s : State} (h : s.memWf = true) : outWf (execTxuRetx m s) := by
  unfold execTxuRetx
  try dsimp only
  repeat' (first
    | with_reducible assumption
    | with_reducible apply outWf_next
    | with_reducible apply leatOp_memWf
    | with_reducible apply txuGive_memWf
    | with_reducible apply offerAll_memWf
    | with_reducible apply resend_memWf
    | with_reducible apply setConn_memWf
    | with_reducible apply memWf_foldl
    | split
    | simp only [memWf_mk]
    | with_reducible intro)

theorem execTxuAcknow_memWf (m : LM) {s : State} (h : s.memWf = true) : outWf (execTxuAcknow m s) := by
  unfold execTxuAcknow
  try dsimp only
  repeat' (first
    | with_reducible assumption
    | with_reducible apply outWf_next
    | with_reducible apply leatOp_memWf
    | with_reducible apply txuGive_memWf
    | with_reducible apply sendAck_memWf
    | with_reducible apply setConn_memWf
    | with_reducible apply memWf_foldl
    | split
    | simp only [memWf_mk]
    | with_reducible intro)

theorem execBmuBset_memWf (m : LM) {s : State} (h : s.memWf = true) : outWf (execBmuBset m s) := by
  unfold execBmuBset
  try dsimp only
  repeat' (first
    | with_reducible assumption
    | with_reducible apply outWf_next
    | with_reducible apply bmuOp_memWf
    | (refine memWf_of_next (by with_reducible assumption) ?_)
    | with_reducible apply memWf_foldl
    | split
    | simp only [memWf_mk]
    | with_reducible intro)

theorem execBmuBtest_memWf (m : LM) {s : State} (h : s.memWf = true) : outWf (execBmuBtest m s) := by
  unfold execBmuBtest
  try dsimp only
  repeat' (first
    | with_reducible assumption
    | with_reducible apply outWf_next
    | with_reducible apply bmuOp_memWf
    | (refine memWf_of_next (by with_reducible assumption) ?_)
    | with_reducible apply memWf_foldl
    | split
    | simp only [memWf_mk]
    | with_reducible intro)

theorem execBmuBffc_memWf (m : LM) {s : State} (h : s.memWf = true) : outWf (execBmuBffc m s) := by
  unfold execBmuBffc
  try dsimp only
  repeat' (first
    | with_reducible assumption
    | with_reducible apply outWf_next
    | with_reducible apply bmuOp_memWf
    | (refine memWf_of_next (by with_reducible assumption) ?_)
    | with_reducible apply memWf_foldl
    | split
    | simp only [memWf_mk]
    | with_reducible intro)

theorem execBmuBcnt_memWf (m : LM) {s : State} (h : s.memWf = true) : outWf (execBmuBcnt m s) := by
  unfold execBmuBcnt
  try dsimp only
  repeat' (first
    | with_reducible assumption
    | with_reducible apply outWf_next
    | with_reducible apply bmuOp_memWf
    | (refine memWf_of_next (by with_reducible assumption) ?_)
    | with_reducible apply memWf_foldl
    | split
    | simp only [memWf_mk]
    | with_reducible intro)

theorem execCcuWinupd_memWf (m : LM) {s : State} (h : s.memWf = true) : outWf (execCcuWinupd m s) := by
  unfold execCcuWinupd
  try dsimp only
  repeat' (first
    | with_reducible assumption
    | with_reducible apply outWf_next
    | with_reducible apply ccuOp_memWf
    | (refine memWf_of_next (by with_reducible assumption) ?_)
    | with_reducible apply memWf_foldl
    | split
    | simp only [memWf_mk]
    | with_reducible intro)

theorem execCcuRateset_memWf (m : LM) {s : State} (h : s.memWf = true) : outWf (execCcuRateset m s) := by
  unfold execCcuRateset
  try dsimp only
  repeat' (first
    | with_reducible assumption
    | with_reducible apply outWf_next
    | with_reducible apply ccuOp_memWf
    | (refine memWf_of_next (by with_reducible assumption) ?_)
    | with_reducible apply memWf_foldl
    | split
    | simp only [memWf_mk]
    | with_reducible intro)

theorem execTmrTarm_memWf (m : LM) {s : State} (h : s.memWf = true) : outWf (execTmrTarm m s) := by
  unfold execTmrTarm
  try dsimp only
  repeat' (first
    | with_reducible assumption
    | with_reducible apply outWf_next
    | with_reducible apply leatOp_memWf
    | with_reducible apply onLeat_memWf
    | with_reducible apply setConn_memWf
    | with_reducible apply memWf_foldl
    | split
    | simp only [memWf_mk]
    | with_reducible intro)

theorem execTmrTcancel_memWf (m : LM) {s : State} (h : s.memWf = true) : outWf (execTmrTcancel m s) := by
  unfold execTmrTcancel
  try dsimp only
  repeat' (first
    | with_reducible assumption
    | with_reducible apply outWf_next
    | with_reducible apply leatOp_memWf
    | with_reducible apply onLeat_memWf
    | with_reducible apply setConn_memWf
    | with_reducible apply memWf_foldl
    | split
    | simp only [memWf_mk]
    | with_reducible intro)

theorem execCtrCadd_memWf (m : LM) {s : State} (h : s.memWf = true) : outWf (execCtrCadd m s) := by
  unfold execCtrCadd
  try dsimp only
  repeat' (first
    | with_reducible assumption
    | with_reducible apply outWf_next
    | with_reducible apply leatOp_memWf
    | with_reducible apply leatRaise_memWf
    | with_reducible apply applyAdd_memWf
    | with_reducible apply memWf_foldl
    | split
    | simp only [memWf_mk]
    | with_reducible intro)

theorem pcOp_memWf (m : LM) {s : State} (k : State → Word → State) (h : s.memWf = true) (hk : ∀ t x0, t.memWf = true → (k t x0).memWf = true) : outWf (pcOp m s k) := by
  unfold pcOp
  try dsimp only
  repeat' (first
    | with_reducible assumption
    | with_reducible apply outWf_next
    | with_reducible apply hk
    | with_reducible apply leatOp_memWf
    | with_reducible apply leatRaise_memWf
    | with_reducible apply memWf_foldl
    | split
    | simp only [memWf_mk]
    | with_reducible intro)

theorem execPcJump_memWf (m : LM) {s : State} (h : s.memWf = true) : outWf (execPcJump m s) := by
  unfold execPcJump
  try dsimp only
  repeat' (first
    | with_reducible assumption
    | with_reducible apply outWf_next
    | with_reducible apply pcOp_memWf
    | with_reducible apply leatRaise_memWf
    | with_reducible apply pcGo_memWf
    | (refine memWf_of_next (by with_reducible assumption) ?_)
    | with_reducible apply memWf_foldl
    | split
    | simp only [memWf_mk]
    | with_reducible intro)

theorem execPcCall_memWf (m : LM) {s : State} (h : s.memWf = true) : outWf (execPcCall m s) := by
  unfold execPcCall
  try dsimp only
  repeat' (first
    | with_reducible assumption
    | with_reducible apply outWf_next
    | with_reducible apply pcOp_memWf
    | with_reducible apply leatRaise_memWf
    | with_reducible apply pcGo_memWf
    | with_reducible apply onLeat_memWf
    | (refine memWf_of_next (by with_reducible assumption) ?_)
    | with_reducible apply memWf_foldl
    | split
    | simp only [memWf_mk]
    | with_reducible intro)

theorem execPcRet_memWf (m : LM) {s : State} (h : s.memWf = true) : outWf (execPcRet m s) := by
  unfold execPcRet
  try dsimp only
  repeat' (first
    | with_reducible assumption
    | with_reducible apply outWf_next
    | with_reducible apply pcOp_memWf
    | with_reducible apply leatRaise_memWf
    | with_reducible apply pcGo_memWf
    | with_reducible apply onLeat_memWf
    | (refine memWf_of_next (by with_reducible assumption) ?_)
    | with_reducible apply memWf_foldl
    | split
    | simp only [memWf_mk]
    | with_reducible intro)

theorem execPcHalt_memWf (m : LM) {s : State} (h : s.memWf = true) : outWf (execPcHalt m s) := by
  unfold execPcHalt
  try dsimp only
  repeat' (first
    | with_reducible assumption
    | with_reducible apply outWf_next
    | with_reducible apply pcOp_memWf
    | (refine memWf_of_next (by with_reducible assumption) ?_)
    | with_reducible apply memWf_foldl
    | split
    | simp only [memWf_mk]
    | with_reducible intro)

theorem runMove_memWf (i : Instr) {s : State} (h : s.memWf = true) : outWf (runMove i s) := by
  unfold runMove
  try dsimp only
  repeat' (first
    | with_reducible assumption
    | with_reducible apply outWf_next
    | with_reducible apply execMove_memWf
    | with_reducible apply execAluAdd_memWf
    | with_reducible apply execAluSub_memWf
    | with_reducible apply execAluAnd_memWf
    | with_reducible apply execAluOr_memWf
    | with_reducible apply execAluXor_memWf
    | with_reducible apply execAluShl_memWf
    | with_reducible apply execAluShr_memWf
    | with_reducible apply execAluSra_memWf
    | with_reducible apply execAluEq_memWf
    | with_reducible apply execAluLt_memWf
    | with_reducible apply execAluLtu_memWf
    | with_reducible apply execAluSel_memWf
    | with_reducible apply execLsuLd32_memWf
    | with_reducible apply execLsuLd64_memWf
    | with_reducible apply execLsuSt32_memWf
    | with_reducible apply execLsuSt64_memWf
    | with_reducible apply execEvqPop_memWf
    | with_reducible apply execEvqPeek_memWf
    | with_reducible apply execTxuTxdesc_memWf
    | with_reducible apply execTxuRetx_memWf
    | with_reducible apply execTxuAcknow_memWf
    | with_reducible apply execBmuBset_memWf
    | with_reducible apply execBmuBtest_memWf
    | with_reducible apply execBmuBffc_memWf
    | with_reducible apply execBmuBcnt_memWf
    | with_reducible apply execCcuWinupd_memWf
    | with_reducible apply execCcuRateset_memWf
    | with_reducible apply execTmrTarm_memWf
    | with_reducible apply execTmrTcancel_memWf
    | with_reducible apply execCtrCadd_memWf
    | with_reducible apply execPcJump_memWf
    | with_reducible apply execPcCall_memWf
    | with_reducible apply execPcRet_memWf
    | with_reducible apply execPcHalt_memWf
    | (refine memWf_of_next (by with_reducible assumption) ?_)
    | with_reducible apply memWf_foldl
    | split
    | simp only [memWf_mk]
    | with_reducible intro)

theorem moveState_memWf {s : State} (m : LeatMove) (h : s.memWf = true) : (moveState s m).memWf = true := by
  unfold moveState
  try dsimp only
  repeat' (first
    | with_reducible assumption
    | with_reducible apply runMove_memWf
    | (refine memWf_of_next (by with_reducible assumption) ?_)
    | with_reducible apply memWf_foldl
    | split
    | simp only [memWf_mk]
    | with_reducible intro)

theorem leatIssue_memWf (n : Nat) {s0 : State} (hs0 : s0.memWf = true) : (leatIssue n s0).memWf = true := by
  unfold leatIssue
  try dsimp only
  repeat' (first
    | with_reducible assumption
    | with_reducible apply setLeat_memWf
    | with_reducible apply leatFaults_memWf
    | with_reducible apply moveState_memWf
    | with_reducible apply leatHalts_memWf
    | with_reducible apply run_memWf
    | (refine memWf_of_next (by with_reducible assumption) ?_)
    | with_reducible apply memWf_foldl
    | split
    | simp only [memWf_mk]
    | with_reducible intro)

theorem execBundleInstanceIssue_memWf (agent : Nat) {s : State} (h : s.memWf = true) : outWf (execBundleInstanceIssue agent s) := by
  unfold execBundleInstanceIssue
  try dsimp only
  repeat' (first
    | with_reducible assumption
    | with_reducible apply outWf_next
    | with_reducible apply done_memWf
    | with_reducible apply leatIssue_memWf
    | with_reducible apply coreIssue_memWf
    | (refine memWf_of_next (by with_reducible assumption) ?_)
    | with_reducible apply memWf_foldl
    | split
    | simp only [memWf_mk]
    | with_reducible intro)

theorem execReleaseBufferDrain_memWf (c : Nat) {s : State} (h : s.memWf = true) : outWf (execReleaseBufferDrain c s) := by
  unfold execReleaseBufferDrain
  try dsimp only
  repeat' (first
    | with_reducible assumption
    | with_reducible apply outWf_next
    | with_reducible apply drainOne_memWf
    | with_reducible apply done_memWf
    | with_reducible apply tryComplete_memWf
    | with_reducible apply push_memWf
    | (refine memWf_of_next (by with_reducible assumption) ?_)
    | with_reducible apply memWf_foldl
    | split
    | simp only [memWf_mk]
    | with_reducible intro)

theorem execResultLanding_memWf (c : Nat) {s : State} (h : s.memWf = true) : outWf (execResultLanding c s) := by
  unfold execResultLanding
  try dsimp only
  repeat' (first
    | with_reducible assumption
    | with_reducible apply outWf_next
    | with_reducible apply onCore_memWf
    | with_reducible apply memWf_foldl
    | split
    | simp only [memWf_mk]
    | with_reducible intro)

theorem execTileOperationComplete_memWf (c : Nat) {s : State} (h : s.memWf = true) : outWf (execTileOperationComplete c s) := by
  unfold execTileOperationComplete
  try dsimp only
  repeat' (first
    | with_reducible assumption
    | with_reducible apply outWf_next
    | with_reducible apply done_memWf
    | with_reducible apply tileDone_memWf
    | with_reducible apply tileResult_memWf
    | with_reducible apply onCore_memWf
    | (refine memWf_of_next (by with_reducible assumption) ?_)
    | with_reducible apply memWf_foldl
    | split
    | simp only [memWf_mk]
    | with_reducible intro)

theorem execFreezeClear_memWf (c : Nat) {s : State} (h : s.memWf = true) : outWf (execFreezeClear c s) := by
  unfold execFreezeClear
  try dsimp only
  repeat' (first
    | with_reducible assumption
    | with_reducible apply outWf_next
    | with_reducible apply closeRegion_memWf
    | with_reducible apply stageRun_memWf
    | with_reducible apply done_memWf
    | with_reducible apply preemptAsked_memWf
    | with_reducible apply onCore_memWf
    | (refine memWf_of_next (by with_reducible assumption) ?_)
    | with_reducible apply memWf_foldl
    | split
    | simp only [memWf_mk]
    | with_reducible intro)

theorem matchesFirst_memWf (c : Nat) (again : Instr) {s : State} (h : s.memWf = true) : (matchesFirst s c again).memWf = true :=
  push_memWf _ (memWf_foldl h fun _ c ht => finishMatch_memWf c ht)

theorem execLoadEccFailure_memWf (c : Nat) (addr : Nat) {s : State} (h : s.memWf = true) : outWf (execLoadEccFailure c addr s) := by
  unfold execLoadEccFailure
  try dsimp only
  repeat' (first
    | with_reducible assumption
    | with_reducible apply outWf_next
    | with_reducible apply done_memWf
    | with_reducible apply matchesFirst_memWf
    | with_reducible apply eccFailure_memWf
    | (refine memWf_of_next (by with_reducible assumption) ?_)
    | with_reducible apply push_memWf
    | with_reducible apply memWf_foldl
    | split
    | simp only [memWf_mk]
    | with_reducible intro)

theorem execArrayReadFailure_memWf (c : Nat) (addr : Nat) {s : State} (h : s.memWf = true) : outWf (execArrayReadFailure c addr s) := by
  unfold execArrayReadFailure
  try dsimp only
  repeat' (first
    | with_reducible assumption
    | with_reducible apply outWf_next
    | with_reducible apply done_memWf
    | with_reducible apply tileDone_memWf
    | with_reducible apply tileFault_memWf
    | with_reducible apply setPoison_memWf
    | with_reducible apply onCore_memWf
    | (refine memWf_of_next (by with_reducible assumption) ?_)
    | with_reducible apply reads_memWf
    | with_reducible apply memWf_foldl
    | split
    | simp only [memWf_mk]
    | with_reducible intro)

theorem execPreemptionRequest_memWf (c : Nat) {s : State} (h : s.memWf = true) : outWf (execPreemptionRequest c s) := by
  unfold execPreemptionRequest
  try dsimp only
  repeat' (first
    | with_reducible assumption
    | with_reducible apply outWf_next
    | with_reducible apply onCore_memWf
    | with_reducible apply done_memWf
    | with_reducible apply preemptAsked_memWf
    | (refine memWf_of_next (by with_reducible assumption) ?_)
    | with_reducible apply memWf_foldl
    | split
    | simp only [memWf_mk]
    | with_reducible intro)

theorem execPreemptionFreezeTimeout_memWf (c : Nat) {s : State} (h : s.memWf = true) : outWf (execPreemptionFreezeTimeout c s) := by
  unfold execPreemptionFreezeTimeout
  try dsimp only
  repeat' (first
    | with_reducible assumption
    | with_reducible apply outWf_next
    | with_reducible apply done_memWf
    | with_reducible apply matchesFirst_memWf
    | with_reducible apply stopRolledBack_memWf
    | with_reducible apply rollback_memWf
    | (refine memWf_of_next (by with_reducible assumption) ?_)
    | with_reducible apply push_memWf
    | with_reducible apply memWf_foldl
    | split
    | simp only [memWf_mk]
    | with_reducible intro)

theorem execBankroleZeroingStart_memWf (mill : Nat) {s : State} (h : s.memWf = true) : outWf (execBankroleZeroingStart mill s) := by
  unfold execBankroleZeroingStart
  try dsimp only
  repeat' (first
    | with_reducible assumption
    | with_reducible apply outWf_next
    | with_reducible apply push_memWf
    | with_reducible apply setMill_memWf
    | with_reducible apply reads_memWf
    | with_reducible apply drainAll_memWf
    | with_reducible apply done_memWf
    | with_reducible apply memWf_foldl
    | split
    | simp only [memWf_mk]
    | with_reducible intro)

theorem execBankroleZeroingEnd_memWf (mill : Nat) {s : State} (h : s.memWf = true) : outWf (execBankroleZeroingEnd mill s) := by
  unfold execBankroleZeroingEnd
  try dsimp only
  repeat' (first
    | with_reducible assumption
    | with_reducible apply outWf_next
    | with_reducible apply zeroBanks_memWf
    | with_reducible apply setMill_memWf
    | with_reducible apply done_memWf
    | with_reducible apply preemptAsked_memWf
    | (refine memWf_of_next (by with_reducible assumption) ?_)
    | with_reducible apply memWf_foldl
    | split
    | simp only [memWf_mk]
    | with_reducible intro)

theorem execMOperationDispatch_memWf (c : Nat) {s : State} (h : s.memWf = true) : outWf (execMOperationDispatch c s) := by
  unfold execMOperationDispatch
  try dsimp only
  repeat' (first
    | with_reducible assumption
    | with_reducible apply outWf_next
    | with_reducible apply done_memWf
    | with_reducible apply stageRun_memWf
    | (refine memWf_of_next (by with_reducible assumption) ?_)
    | with_reducible apply memWf_foldl
    | split
    | simp only [memWf_mk]
    | with_reducible intro)

theorem execDressWaitExpiry_memWf (c : Nat) {s : State} (h : s.memWf = true) : outWf (execDressWaitExpiry c s) := by
  unfold execDressWaitExpiry
  try dsimp only
  repeat' (first
    | with_reducible assumption
    | with_reducible apply outWf_next
    | with_reducible apply done_memWf
    | with_reducible apply stageRun_memWf
    | (refine memWf_of_next (by with_reducible assumption) ?_)
    | with_reducible apply memWf_foldl
    | split
    | simp only [memWf_mk]
    | with_reducible intro)

theorem execCounterUpdate_memWf (h0 : Nat) (amount : Nat) (by_ : Issuer) {s : State} (h : s.memWf = true) : outWf (execCounterUpdate h0 amount by_ s) := by
  unfold execCounterUpdate
  try dsimp only
  repeat' (first
    | with_reducible assumption
    | with_reducible apply outWf_next
    | with_reducible apply done_memWf
    | with_reducible apply doAdd_memWf
    | (refine memWf_of_next (by with_reducible assumption) ?_)
    | with_reducible apply memWf_foldl
    | split
    | simp only [memWf_mk]
    | with_reducible intro)

theorem execHostintPost_memWf (link : Nat) (vec : Nat) {s : State} (h : s.memWf = true) : outWf (execHostintPost link vec s) := by
  unfold execHostintPost
  try dsimp only
  repeat' (first
    | with_reducible assumption
    | with_reducible apply outWf_next
    | with_reducible apply emit_memWf
    | with_reducible apply memWf_foldl
    | split
    | simp only [memWf_mk]
    | with_reducible intro)

theorem execWaiterArrival_memWf (w : Waiter) {s : State} (h : s.memWf = true) : outWf (execWaiterArrival w s) := by
  unfold execWaiterArrival
  try dsimp only
  repeat' (first
    | with_reducible assumption
    | with_reducible apply outWf_next
    | with_reducible apply done_memWf
    | with_reducible apply armWaiter_memWf
    | (refine memWf_of_next (by with_reducible assumption) ?_)
    | with_reducible apply memWf_foldl
    | split
    | simp only [memWf_mk]
    | with_reducible intro)

theorem execWaiterRemoval_memWf (ctx : Nat) (strand : Nat) (flag : Nat) {s : State} (h : s.memWf = true) : outWf (execWaiterRemoval ctx strand flag s) := by
  unfold execWaiterRemoval
  try dsimp only
  repeat' (first
    | with_reducible assumption
    | with_reducible apply outWf_next
    | with_reducible apply removeFlagWaiter_memWf
    | with_reducible apply memWf_foldl
    | split
    | simp only [memWf_mk]
    | with_reducible intro)

theorem execWatchDeadlineExpiry_memWf (ctx : Nat) (strand : Nat) (flag : Nat) {s : State} (h : s.memWf = true) : outWf (execWatchDeadlineExpiry ctx strand flag s) := by
  unfold execWatchDeadlineExpiry
  try dsimp only
  repeat' (first
    | with_reducible assumption
    | with_reducible apply outWf_next
    | with_reducible apply setFlag_memWf
    | with_reducible apply removeFlagWaiter_memWf
    | with_reducible apply setJob_memWf
    | with_reducible apply memWf_foldl
    | split
    | simp only [memWf_mk]
    | with_reducible intro)

theorem execHostCounterStore_memWf (link : Nat) (off : Nat) (width : Nat) (value : Nat) {s : State} (h : s.memWf = true) : outWf (execHostCounterStore link off width value s) := by
  unfold execHostCounterStore
  try dsimp only
  repeat' (first
    | with_reducible assumption
    | with_reducible apply outWf_next
    | with_reducible apply refuseHost_memWf
    | with_reducible apply done_memWf
    | with_reducible apply applyAdd_memWf
    | (refine memWf_of_next (by with_reducible assumption) ?_)
    | with_reducible apply memWf_foldl
    | split
    | simp only [memWf_mk]
    | with_reducible intro)

theorem execContextSwitchOut_memWf (id : Nat) (base : Nat) (tagAddr : Nat) {s : State} (h : s.memWf = true) : outWf (execContextSwitchOut id base tagAddr s) := by
  unfold execContextSwitchOut
  try dsimp only
  repeat' (first
    | with_reducible assumption
    | with_reducible apply outWf_next
    | with_reducible apply noteWatch_memWf
    | with_reducible apply writeImage_memWf
    | with_reducible apply setPart_memWf
    | with_reducible apply emptyCore_memWf
    | with_reducible apply setJob_memWf
    | with_reducible apply done_memWf
    | with_reducible apply push_memWf
    | with_reducible apply noteSuspended_memWf
    | (refine memWf_of_next (by with_reducible assumption) ?_)
    | with_reducible apply memWf_foldl
    | split
    | simp only [memWf_mk]
    | with_reducible intro)

theorem wakeRange_memWf {s : State} (r : HbmRange) (off : Nat) (n : Nat) (h : s.memWf = true) : (wakeRange s r off n).memWf = true := by
  unfold wakeRange
  try dsimp only
  repeat' (first
    | with_reducible assumption
    | with_reducible apply wakeHome_memWf
    | with_reducible apply memWf_foldl
    | split
    | simp only [memWf_mk]
    | with_reducible intro)

theorem execContextRestore_memWf (id : Nat) {s : State} (h : s.memWf = true) : outWf (execContextRestore id s) := by
  unfold execContextRestore
  try dsimp only
  repeat' (first
    | with_reducible assumption
    | with_reducible apply outWf_next
    | with_reducible apply done_memWf
    | with_reducible apply abortRestore_memWf
    | with_reducible apply moveWaiters_memWf
    | with_reducible apply restoreLocals_memWf
    | with_reducible apply restoreMill_memWf
    | with_reducible apply zeroLocals_memWf
    | with_reducible apply setJob_memWf
    | with_reducible apply formFull_memWf
    | with_reducible apply restoreStrand_memWf
    | with_reducible apply push_memWf
    | with_reducible apply tryComplete_memWf
    | (refine memWf_of_next (by with_reducible assumption) ?_)
    | with_reducible apply wakeRange_memWf
    | with_reducible apply memWf_foldl
    | split
    | simp only [memWf_mk]
    | with_reducible intro)

theorem execBlockYield_memWf (id : Nat) {s : State} (h : s.memWf = true) : outWf (execBlockYield id s) := by
  unfold execBlockYield
  try dsimp only
  repeat' (first
    | with_reducible assumption
    | with_reducible apply outWf_next
    | with_reducible apply push_memWf
    | with_reducible apply memWf_foldl
    | split
    | simp only [memWf_mk]
    | with_reducible intro)

theorem execWatchdog_memWf (id : Nat) {s : State} (h : s.memWf = true) : outWf (execWatchdog id s) := by
  unfold execWatchdog
  try dsimp only
  repeat' (first
    | with_reducible assumption
    | with_reducible apply outWf_next
    | with_reducible apply noteWatch_memWf
    | with_reducible apply done_memWf
    | with_reducible apply offerContext_memWf
    | with_reducible apply setJob_memWf
    | (refine memWf_of_next (by with_reducible assumption) ?_)
    | with_reducible apply memWf_foldl
    | split
    | simp only [memWf_mk]
    | with_reducible intro)

theorem execIdleStateEntry_memWf (unit_ : Nat) (level : Nat) {s : State} (h : s.memWf = true) : outWf (execIdleStateEntry unit_ level s) := by
  unfold execIdleStateEntry
  try dsimp only
  repeat' (first
    | with_reducible assumption
    | with_reducible apply outWf_next
    | with_reducible apply setCore_memWf
    | with_reducible apply setMill_memWf
    | with_reducible apply setDie_memWf
    | with_reducible apply memWf_foldl
    | split
    | simp only [memWf_mk]
    | with_reducible intro)

theorem execIdleWake_memWf (unit_ : Nat) {s : State} (h : s.memWf = true) : outWf (execIdleWake unit_ s) := by
  unfold execIdleWake
  try dsimp only
  repeat' (first
    | with_reducible assumption
    | with_reducible apply outWf_next
    | with_reducible apply wakeCore_memWf
    | with_reducible apply wakeMill_memWf
    | with_reducible apply wakeDie_memWf
    | with_reducible apply memWf_foldl
    | split
    | simp only [memWf_mk]
    | with_reducible intro)

theorem execTranslationWalkComplete_memWf (die : Nat) (pid : Nat) (space : Nat) (va : Nat) {s : State} (h : s.memWf = true) : outWf (execTranslationWalkComplete die pid space va s) := by
  unfold execTranslationWalkComplete
  try dsimp only
  repeat' (first
    | with_reducible assumption
    | with_reducible apply outWf_next
    | with_reducible apply setDie_memWf
    | with_reducible apply memWf_foldl
    | split
    | simp only [memWf_mk]
    | with_reducible intro)

theorem execPageRequestResponse_memWf (die : Nat) (index : Nat) (code : Nat) {s : State} (h : s.memWf = true) : outWf (execPageRequestResponse die index code s) := by
  unfold execPageRequestResponse
  try dsimp only
  repeat' (first
    | with_reducible assumption
    | with_reducible apply outWf_next
    | with_reducible apply done_memWf
    | with_reducible apply sendWaiting_memWf
    | with_reducible apply answerPage_memWf
    | with_reducible apply setDie_memWf
    | (refine memWf_of_next (by with_reducible assumption) ?_)
    | with_reducible apply memWf_foldl
    | split
    | simp only [memWf_mk]
    | with_reducible intro)

theorem execAtsTranslationCompletion_memWf (die : Nat) (pid : Nat) (space : Nat) (page : Nat) (addr : Nat) (r : Bool) (w : Bool) {s : State} (h : s.memWf = true) : outWf (execAtsTranslationCompletion die pid space page addr r w s) := by
  unfold execAtsTranslationCompletion
  try dsimp only
  repeat' (first
    | with_reducible assumption
    | with_reducible apply outWf_next
    | with_reducible apply setDie_memWf
    | with_reducible apply push_memWf
    | with_reducible apply onCore_memWf
    | with_reducible apply done_memWf
    | with_reducible apply resumeFirings_memWf
    | with_reducible apply resumeCmd_memWf
    | (refine memWf_of_next (by with_reducible assumption) ?_)
    | with_reducible apply wakeCore_memWf
    | with_reducible apply memWf_foldl
    | split
    | simp only [memWf_mk]
    | with_reducible intro)

theorem execAtsInvalidateRequest_memWf (pid : Nat) (space : Nat) (page : Nat) (pages : Nat) {s : State} (h : s.memWf = true) : outWf (execAtsInvalidateRequest pid space page pages s) := by
  unfold execAtsInvalidateRequest
  try dsimp only
  repeat' (first
    | with_reducible assumption
    | with_reducible apply outWf_next
    | with_reducible apply done_memWf
    | with_reducible apply emit_memWf
    | with_reducible apply dropInval_memWf
    | with_reducible apply invalidateHost_memWf
    | with_reducible apply waitInval_memWf
    | (refine memWf_of_next (by with_reducible assumption) ?_)
    | with_reducible apply memWf_foldl
    | split
    | simp only [memWf_mk]
    | with_reducible intro)

theorem execHostLoss_memWf (link : Nat) {s : State} (h : s.memWf = true) : outWf (execHostLoss link s) := by
  unfold execHostLoss
  try dsimp only
  repeat' (first
    | with_reducible assumption
    | with_reducible apply outWf_next
    | with_reducible apply done_memWf
    | with_reducible apply loseLink_memWf
    | (refine memWf_of_next (by with_reducible assumption) ?_)
    | with_reducible apply memWf_foldl
    | split
    | simp only [memWf_mk]
    | with_reducible intro)

theorem execHostlostGraceExpiry_memWf (pid : Nat) {s : State} (h : s.memWf = true) : outWf (execHostlostGraceExpiry pid s) := by
  unfold execHostlostGraceExpiry
  try dsimp only
  repeat' (first
    | with_reducible assumption
    | with_reducible apply outWf_next
    | with_reducible apply closeConn_memWf
    | with_reducible apply done_memWf
    | with_reducible apply leatEvent_memWf
    | (refine memWf_of_next (by with_reducible assumption) ?_)
    | with_reducible apply memWf_foldl
    | split
    | simp only [memWf_mk]
    | with_reducible intro)

theorem execEngineCommandStart_memWf (id : Nat) {s : State} (h : s.memWf = true) : outWf (execEngineCommandStart id s) := by
  unfold execEngineCommandStart
  try dsimp only
  repeat' (first
    | with_reducible assumption
    | with_reducible apply outWf_next
    | with_reducible apply done_memWf
    | with_reducible apply startCpy_memWf
    | with_reducible apply startSend_memWf
    | (refine memWf_of_next (by with_reducible assumption) ?_)
    | with_reducible apply memWf_foldl
    | split
    | simp only [memWf_mk]
    | with_reducible intro)

theorem execSluiceBeatDelivery_memWf (id : Nat) {s : State} (h : s.memWf = true) : outWf (execSluiceBeatDelivery id s) := by
  unfold execSluiceBeatDelivery
  try dsimp only
  repeat' (first
    | with_reducible assumption
    | with_reducible apply outWf_next
    | with_reducible apply done_memWf
    | with_reducible apply cpyDeliver_memWf
    | (refine memWf_of_next (by with_reducible assumption) ?_)
    | with_reducible apply memWf_foldl
    | split
    | simp only [memWf_mk]
    | with_reducible intro)

theorem execEngineCommandComplete_memWf (id : Nat) {s : State} (h : s.memWf = true) : outWf (execEngineCommandComplete id s) := by
  unfold execEngineCommandComplete
  try dsimp only
  repeat' (first
    | with_reducible assumption
    | with_reducible apply outWf_next
    | with_reducible apply done_memWf
    | with_reducible apply completeCmd_memWf
    | (refine memWf_of_next (by with_reducible assumption) ?_)
    | with_reducible apply memWf_foldl
    | split
    | simp only [memWf_mk]
    | with_reducible intro)

theorem execMcstComplete_memWf (id : Nat) {s : State} (h : s.memWf = true) : outWf (execMcstComplete id s) := by
  unfold execMcstComplete
  try dsimp only
  repeat' (first
    | with_reducible assumption
    | with_reducible apply outWf_next
    | with_reducible apply done_memWf
    | with_reducible apply engineFlt_memWf
    | with_reducible apply mcstWrite_memWf
    | with_reducible apply completeCmd_memWf
    | with_reducible apply tickClock_memWf
    | with_reducible apply cmdMerge_memWf
    | (refine memWf_of_next (by with_reducible assumption) ?_)
    | (refine memWf_of_ok (by with_reducible assumption) ?_)
    | with_reducible apply memWf_foldl
    | split
    | simp only [memWf_mk]
    | with_reducible intro)

theorem execArmEffect_memWf (id : Nat) {s : State} (h : s.memWf = true) : outWf (execArmEffect id s) := by
  unfold execArmEffect
  try dsimp only
  repeat' (first
    | with_reducible assumption
    | with_reducible apply outWf_next
    | with_reducible apply done_memWf
    | with_reducible apply engineFlt_memWf
    | with_reducible apply armSlot_memWf
    | with_reducible apply wakeMill_memWf
    | with_reducible apply completeCmd_memWf
    | (refine memWf_of_next (by with_reducible assumption) ?_)
    | (refine memWf_of_ok (by with_reducible assumption) ?_)
    | with_reducible apply memWf_foldl
    | split
    | simp only [memWf_mk]
    | with_reducible intro)

theorem execDisarmEffect_memWf (id : Nat) {s : State} (h : s.memWf = true) : outWf (execDisarmEffect id s) := by
  unfold execDisarmEffect
  try dsimp only
  repeat' (first
    | with_reducible assumption
    | with_reducible apply outWf_next
    | with_reducible apply done_memWf
    | with_reducible apply completeCmd_memWf
    | with_reducible apply freeSlot_memWf
    | (refine memWf_of_next (by with_reducible assumption) ?_)
    | with_reducible apply memWf_foldl
    | split
    | simp only [memWf_mk]
    | with_reducible intro)

theorem execCloadStart_memWf (id : Nat) {s : State} (h : s.memWf = true) : outWf (execCloadStart id s) := by
  unfold execCloadStart
  try dsimp only
  repeat' (first
    | with_reducible assumption
    | with_reducible apply outWf_next
    | with_reducible apply done_memWf
    | with_reducible apply stopEngine_memWf
    | with_reducible apply engineFlt_memWf
    | with_reducible apply completeCmd_memWf
    | with_reducible apply setDie_memWf
    | (refine memWf_of_next (by with_reducible assumption) ?_)
    | with_reducible apply memWf_foldl
    | split
    | simp only [memWf_mk]
    | with_reducible intro)

theorem execCollInstanceStart_memWf (id : Nat) {s : State} (h : s.memWf = true) : outWf (execCollInstanceStart id s) := by
  unfold execCollInstanceStart
  try dsimp only
  repeat' (first
    | with_reducible assumption
    | with_reducible apply outWf_next
    | with_reducible apply done_memWf
    | with_reducible apply stopEngine_memWf
    | with_reducible apply engineFlt_memWf
    | with_reducible apply retryGraphs_memWf
    | with_reducible apply pushReady_memWf
    | with_reducible apply setGraph_memWf
    | with_reducible apply setStage_memWf
    | (refine memWf_of_next (by with_reducible assumption) ?_)
    | with_reducible apply memWf_foldl
    | split
    | simp only [memWf_mk]
    | with_reducible intro)

theorem execChunkOperationStart_memWf (die : Nat) (slot : Nat) (op : Nat) {s : State} (h : s.memWf = true) : outWf (execChunkOperationStart die slot op s) := by
  unfold execChunkOperationStart
  try dsimp only
  repeat' (first
    | with_reducible assumption
    | with_reducible apply outWf_next
    | with_reducible apply done_memWf
    | with_reducible apply sendInternal_memWf
    | with_reducible apply stopEngine_memWf
    | with_reducible apply push_memWf
    | with_reducible apply pumpConn_memWf
    | with_reducible apply enqueue_memWf
    | with_reducible apply opRuns_memWf
    | with_reducible apply opEffect_memWf
    | with_reducible apply engineFlt_memWf
    | with_reducible apply cmdMerge_memWf
    | (refine memWf_of_next (by with_reducible assumption) ?_)
    | (refine memWf_of_ok1 (by with_reducible assumption) ?_)
    | (refine memWf_of_ok1' (by with_reducible assumption) ?_)
    | with_reducible apply memWf_foldl
    | split
    | simp only [memWf_mk]
    | with_reducible intro)

theorem execChunkOperationComplete_memWf (die : Nat) (slot : Nat) (op : Nat) {s : State} (h : s.memWf = true) : outWf (execChunkOperationComplete die slot op s) := by
  unfold execChunkOperationComplete
  try dsimp only
  repeat' (first
    | with_reducible assumption
    | with_reducible apply outWf_next
    | with_reducible apply opFinish_memWf
    | with_reducible apply done_memWf
    | with_reducible apply engineFlt_memWf
    | (refine memWf_of_next (by with_reducible assumption) ?_)
    | (refine memWf_of_ok (by with_reducible assumption) ?_)
    | with_reducible apply memWf_foldl
    | split
    | simp only [memWf_mk]
    | with_reducible intro)

theorem execMvsComplete_memWf (c : Nat) {s : State} (h : s.memWf = true) : outWf (execMvsComplete c s) := by
  unfold execMvsComplete
  try dsimp only
  repeat' (first
    | with_reducible assumption
    | with_reducible apply outWf_next
    | with_reducible apply done_memWf
    | with_reducible apply tileDone_memWf
    | with_reducible apply mvsFinish_memWf
    | with_reducible apply onCore_memWf
    | (refine memWf_of_next (by with_reducible assumption) ?_)
    | with_reducible apply memWf_foldl
    | split
    | simp only [memWf_mk]
    | with_reducible intro)

theorem execDataPacketReceive_memWf (p : Packet) {s : State} (h : s.memWf = true) : outWf (execDataPacketReceive p s) := by
  unfold execDataPacketReceive
  try dsimp only
  repeat' (first
    | with_reducible assumption
    | with_reducible apply outWf_next
    | with_reducible apply done_memWf
    | with_reducible apply receivePacket_memWf
    | with_reducible apply receiveTensor_memWf
    | with_reducible apply receiveGraph_memWf
    | with_reducible apply discardPacket_memWf
    | (refine memWf_of_next (by with_reducible assumption) ?_)
    | with_reducible apply memWf_foldl
    | split
    | simp only [memWf_mk]
    | with_reducible intro)

theorem execCounterPacketReceive_memWf (p : Packet) {s : State} (h : s.memWf = true) : outWf (execCounterPacketReceive p s) := by
  unfold execCounterPacketReceive
  try dsimp only
  repeat' (first
    | with_reducible assumption
    | with_reducible apply outWf_next
    | with_reducible apply done_memWf
    | with_reducible apply receivePacket_memWf
    | with_reducible apply receiveCounter_memWf
    | with_reducible apply discardPacket_memWf
    | (refine memWf_of_next (by with_reducible assumption) ?_)
    | with_reducible apply memWf_foldl
    | split
    | simp only [memWf_mk]
    | with_reducible intro)

theorem takeControl_memWf {s : State} (port : Nat) (k : State → State) (h : s.memWf = true) (hk : ∀ t, t.memWf = true → (k t).memWf = true) : (takeControl s port k).memWf = true := by
  unfold takeControl
  try dsimp only
  repeat' (first
    | with_reducible assumption
    | with_reducible apply hk
    | with_reducible apply takeFrame_memWf
    | with_reducible apply memWf_foldl
    | split
    | simp only [memWf_mk]
    | with_reducible intro)

theorem execAckReceive_memWf (c : Nat) (cum : Nat) (bitmap : Nat) (credit : Nat) (marked : Nat) {s0 : State} (h : s0.memWf = true) : outWf (execAckReceive c cum bitmap credit marked s0) := by
  unfold execAckReceive
  try dsimp only
  repeat' (first
    | with_reducible assumption
    | with_reducible apply outWf_next
    | with_reducible apply done_memWf
    | with_reducible apply takeControl_memWf
    | with_reducible apply applyAck_memWf
    | with_reducible apply leatEvent_memWf
    | with_reducible apply memWf_foldl
    | split
    | simp only [memWf_mk]
    | with_reducible intro)

theorem execInstanceNotArmed_memWf (c : Nat) (psn : Nat) (inst : Nat) (slot : Nat) {s : State} (h : s.memWf = true) : outWf (execInstanceNotArmed c psn inst slot s) := by
  unfold execInstanceNotArmed
  try dsimp only
  repeat' (first
    | with_reducible assumption
    | with_reducible apply outWf_next
    | with_reducible apply reportSent_memWf
    | with_reducible apply takeControl_memWf
    | with_reducible apply memWf_foldl
    | split
    | simp only [memWf_mk]
    | with_reducible intro)

theorem execTrimRx_memWf (c : Nat) (psn : Nat) {s : State} (h : s.memWf = true) : outWf (execTrimRx c psn s) := by
  unfold execTrimRx
  try dsimp only
  repeat' (first
    | with_reducible assumption
    | with_reducible apply outWf_next
    | with_reducible apply reportSent_memWf
    | with_reducible apply takeControl_memWf
    | with_reducible apply memWf_foldl
    | split
    | simp only [memWf_mk]
    | with_reducible intro)

theorem execRtoExpired_memWf (c : Nat) {s : State} (h : s.memWf = true) : outWf (execRtoExpired c s) := by
  unfold execRtoExpired
  try dsimp only
  repeat' (first
    | with_reducible assumption
    | with_reducible apply outWf_next
    | with_reducible apply leatEvent_memWf
    | with_reducible apply setConn_memWf
    | with_reducible apply memWf_foldl
    | split
    | simp only [memWf_mk]
    | with_reducible intro)

theorem execLlrReplay_memWf (port : Nat) (frames : Nat) (first : Nat) {s : State} (h : s.memWf = true) : outWf (execLlrReplay port frames first s) := by
  unfold execLlrReplay
  try dsimp only
  repeat' (first
    | with_reducible assumption
    | with_reducible apply outWf_next
    | with_reducible apply leatEvent_memWf
    | with_reducible apply emit_memWf
    | with_reducible apply memWf_foldl
    | split
    | simp only [memWf_mk]
    | with_reducible intro)

theorem execKeyExpiry_memWf (port : Nat) (conn : Nat) (key : Nat) (pn : Nat) (sublayer : Bool) {s : State} (h : s.memWf = true) : outWf (execKeyExpiry port conn key pn sublayer s) := by
  unfold execKeyExpiry
  try dsimp only
  repeat' (first
    | with_reducible assumption
    | with_reducible apply outWf_next
    | with_reducible apply leatEvent_memWf
    | with_reducible apply memWf_foldl
    | split
    | simp only [memWf_mk]
    | with_reducible intro)

theorem execPtpTimeCorrection_memWf (backward : Bool) (ns : Nat) {s : State} (h : s.memWf = true) : outWf (execPtpTimeCorrection backward ns s) := by
  unfold execPtpTimeCorrection
  try dsimp only
  repeat' (first
    | with_reducible assumption
    | with_reducible apply outWf_next
    | with_reducible apply memWf_foldl
    | split
    | simp only [memWf_mk]
    | with_reducible intro)

theorem execConnReq_memWf (port : Nat) (node : Nat) (addr : List Byte) {s : State} (h : s.memWf = true) : outWf (execConnReq port node addr s) := by
  unfold execConnReq
  try dsimp only
  repeat' (first
    | with_reducible assumption
    | with_reducible apply outWf_next
    | with_reducible apply leatEvent_memWf
    | with_reducible apply setPort_memWf
    | with_reducible apply takeControl_memWf
    | with_reducible apply memWf_foldl
    | split
    | simp only [memWf_mk]
    | with_reducible intro)

theorem execConnectionHandshakeComplete_memWf (c : Nat) {s : State} (h : s.memWf = true) : outWf (execConnectionHandshakeComplete c s) := by
  unfold execConnectionHandshakeComplete
  try dsimp only
  repeat' (first
    | with_reducible assumption
    | with_reducible apply outWf_next
    | with_reducible apply setConn_memWf
    | with_reducible apply takeControl_memWf
    | with_reducible apply memWf_foldl
    | split
    | simp only [memWf_mk]
    | with_reducible intro)

theorem execConnClose_memWf (c : Nat) {s : State} (h : s.memWf = true) : outWf (execConnClose c s) := by
  unfold execConnClose
  try dsimp only
  repeat' (first
    | with_reducible assumption
    | with_reducible apply outWf_next
    | with_reducible apply done_memWf
    | with_reducible apply closeConn_memWf
    | (refine memWf_of_next (by with_reducible assumption) ?_)
    | with_reducible apply takeControl_memWf
    | with_reducible apply memWf_foldl
    | split
    | simp only [memWf_mk]
    | with_reducible intro)

theorem execConnectionClosed_memWf (c : Nat) {s : State} (h : s.memWf = true) : outWf (execConnectionClosed c s) := by
  unfold execConnectionClosed
  try dsimp only
  repeat' (first
    | with_reducible assumption
    | with_reducible apply outWf_next
    | with_reducible apply done_memWf
    | with_reducible apply finishClose_memWf
    | (refine memWf_of_next (by with_reducible assumption) ?_)
    | with_reducible apply memWf_foldl
    | split
    | simp only [memWf_mk]
    | with_reducible intro)

theorem execLinkDown_memWf (port : Nat) (mask : Nat) {s : State} (h : s.memWf = true) : outWf (execLinkDown port mask s) := by
  unfold execLinkDown
  try dsimp only
  repeat' (first
    | with_reducible assumption
    | with_reducible apply outWf_next
    | with_reducible apply leatEvent_memWf
    | with_reducible apply setPort_memWf
    | with_reducible apply memWf_foldl
    | split
    | simp only [memWf_mk]
    | with_reducible intro)

theorem execProgramTimerExpiry_memWf (leat : Nat) (n : Nat) {s : State} (h : s.memWf = true) : outWf (execProgramTimerExpiry leat n s) := by
  unfold execProgramTimerExpiry
  try dsimp only
  repeat' (first
    | with_reducible assumption
    | with_reducible apply outWf_next
    | with_reducible apply setLeat_memWf
    | with_reducible apply memWf_foldl
    | split
    | simp only [memWf_mk]
    | with_reducible intro)

theorem execLctlRun_memWf (leat : Nat) (value : Nat) {s : State} (h : s.memWf = true) : outWf (execLctlRun leat value s) := by
  unfold execLctlRun
  try dsimp only
  repeat' (first
    | with_reducible assumption
    | with_reducible apply outWf_next
    | with_reducible apply lctlWrite_memWf
    | with_reducible apply memWf_foldl
    | split
    | simp only [memWf_mk]
    | with_reducible intro)

theorem execDrainingComplete_memWf (pid : Nat) {s : State} (h : s.memWf = true) : outWf (execDrainingComplete pid s) := by
  unfold execDrainingComplete
  try dsimp only
  repeat' (first
    | with_reducible assumption
    | with_reducible apply outWf_next
    | with_reducible apply freePart_memWf
    | with_reducible apply memWf_foldl
    | split
    | simp only [memWf_mk]
    | with_reducible intro)

theorem execInvalidateTranslations_memWf (tag : Nat) (pid : Nat) (space : Nat) (base : Nat) (len : Nat) {s : State} (h : s.memWf = true) : outWf (execInvalidateTranslations tag pid space base len s) := by
  unfold execInvalidateTranslations
  try dsimp only
  repeat' (first
    | with_reducible assumption
    | with_reducible apply outWf_next
    | with_reducible apply done_memWf
    | with_reducible apply serveWaiting_memWf
    | with_reducible apply reply_memWf
    | with_reducible apply dropInval_memWf
    | with_reducible apply askInvalidate_memWf
    | (refine memWf_of_next (by with_reducible assumption) ?_)
    | with_reducible apply memWf_foldl
    | split
    | simp only [memWf_mk]
    | with_reducible intro)

theorem writeBlock_memWf {s : State} (payload : List Byte) (h : s.memWf = true) : someWf (writeBlock s payload) := by
  unfold writeBlock
  try dsimp only
  repeat' (first
    | with_reducible assumption
    | with_reducible apply someWf_some
    | exact someWf_none
    | with_reducible apply someWf_map
    | with_reducible apply writeAt_memWf
    | with_reducible apply onAct_memWf
    | with_reducible apply memWf_foldl
    | split
    | simp only [memWf_mk]
    | with_reducible intro)

theorem stopImage_memWf {s : State} (kind : Nat) (h : s.memWf = true) : (stopImage s kind).memWf = true := by
  unfold stopImage
  try dsimp only
  repeat' (first
    | with_reducible assumption
    | with_reducible apply haltLeats_memWf
    | with_reducible apply setCore_memWf
    | with_reducible apply memWf_foldl
    | split
    | simp only [memWf_mk]
    | with_reducible intro)

theorem enterFallback_memWf {s : State} (h : s.memWf = true) : (enterFallback s).memWf = true := by
  unfold enterFallback
  try dsimp only
  repeat' (first
    | with_reducible assumption
    | with_reducible apply stopImage_memWf
    | with_reducible apply push_memWf
    | with_reducible apply memWf_foldl
    | split
    | simp only [memWf_mk]
    | with_reducible intro)

theorem execActivationFreeze_memWf (hver : Nat) (payload : List Byte) {s : State} (h : s.memWf = true) : outWf (execActivationFreeze hver payload s) := by
  unfold execActivationFreeze
  try dsimp only
  repeat' (first
    | with_reducible assumption
    | with_reducible apply outWf_next
    | with_reducible apply freezeOld_memWf
    | with_reducible apply measureAct_memWf
    | with_reducible apply onAct_memWf
    | with_reducible apply done_memWf
    | (refine memWf_of_next (by with_reducible assumption) ?_)
    | (refine memWf_getD ?_ (writeBlock_memWf _ ?_))
    | with_reducible apply enterFallback_memWf
    | (refine memWf_of_some (by with_reducible assumption) ?_)
    | with_reducible apply memWf_foldl
    | split
    | simp only [memWf_mk]
    | with_reducible intro)

theorem handOver_memWf {s : State} (h : s.memWf = true) : (handOver s).memWf = true := by
  unfold handOver
  try dsimp only
  repeat' (first
    | with_reducible assumption
    | with_reducible apply enterFallback_memWf
    | with_reducible apply startImage_memWf
    | with_reducible apply stopImage_memWf
    | with_reducible apply onAct_memWf
    | with_reducible apply push_memWf
    | with_reducible apply memWf_foldl
    | split
    | simp only [memWf_mk]
    | with_reducible intro)

theorem execActivationHandover_memWf {s : State} (h : s.memWf = true) : outWf (execActivationHandover s) := by
  unfold execActivationHandover
  try dsimp only
  repeat' (first
    | with_reducible assumption
    | with_reducible apply outWf_next
    | with_reducible apply done_memWf
    | with_reducible apply startImage_memWf
    | with_reducible apply haltLeats_memWf
    | with_reducible apply serveWaiting_memWf
    | with_reducible apply resumeWork_memWf
    | with_reducible apply onAct_memWf
    | (refine memWf_of_next (by with_reducible assumption) ?_)
    | with_reducible apply push_memWf
    | with_reducible apply handOver_memWf
    | with_reducible apply commitAct_memWf
    | with_reducible apply fallbackAct_memWf
    | with_reducible apply memWf_foldl
    | split
    | simp only [memWf_mk]
    | with_reducible intro)

theorem execActivationFreezeTimeout_memWf {s : State} (h : s.memWf = true) : outWf (execActivationFreezeTimeout s) := by
  unfold execActivationFreezeTimeout
  try dsimp only
  repeat' (first
    | with_reducible assumption
    | with_reducible apply outWf_next
    | with_reducible apply done_memWf
    | (refine memWf_of_next (by with_reducible assumption) ?_)
    | with_reducible apply enterFallback_memWf
    | with_reducible apply memWf_foldl
    | split
    | simp only [memWf_mk]
    | with_reducible intro)

theorem execHeartbeat_memWf (value : Nat) {s : State} (h : s.memWf = true) : outWf (execHeartbeat value s) := by
  unfold execHeartbeat
  try dsimp only
  repeat' (first
    | with_reducible assumption
    | with_reducible apply outWf_next
    | with_reducible apply heartbeatWrite_memWf
    | with_reducible apply memWf_foldl
    | split
    | simp only [memWf_mk]
    | with_reducible intro)

theorem execHeartbeatTimeout_memWf {s : State} (h : s.memWf = true) : outWf (execHeartbeatTimeout s) := by
  unfold execHeartbeatTimeout
  try dsimp only
  repeat' (first
    | with_reducible assumption
    | with_reducible apply outWf_next
    | with_reducible apply done_memWf
    | (refine memWf_of_next (by with_reducible assumption) ?_)
    | with_reducible apply enterFallback_memWf
    | with_reducible apply memWf_foldl
    | split
    | simp only [memWf_mk]
    | with_reducible intro)

theorem in13_memWf {a : Answer} (h : a.st.memWf = true) : (Answer.in13 a).st.memWf = true := h

theorem respond_memWf (code : Nat) (msg : List Byte) (handler : State → Except Nat Answer) {s : State} (hk : ∀ t, t.memWf = true → ansWf (handler t)) (h : s.memWf = true) : outWf (respond code msg handler s) := by
  unfold respond
  dsimp only
  split
  · exact outWf_next h
  split
  · exact outWf_next h
  split
  · exact outWf_next (sendAnswer_memWf _ h)
  split
  · exact outWf_next (sendAnswer_memWf _ h)
  split
  · exact outWf_next (sendAnswer_memWf _ h)
  · rename_i a e
    have ha := memWf_of_ans e (hk s h)
    refine outWf_next (finishAnswer_memWf _ _ _ ?_)
    split
    · exact in13_memWf ha
    · exact ha

theorem execGetVersion_memWf (msg : List Byte) {s : State} (h : s.memWf = true) : outWf (execGetVersion msg s) := by
  unfold execGetVersion
  try dsimp only
  repeat' (first
    | with_reducible assumption
    | with_reducible apply outWf_next
    | with_reducible apply respond_memWf
    | with_reducible apply answerVersion_memWf
    | (refine memWf_of_next (by with_reducible assumption) ?_)
    | (refine memWf_of_ans (by with_reducible assumption) ?_)
    | with_reducible apply memWf_foldl
    | split
    | simp only [memWf_mk]
    | with_reducible intro)

theorem execGetCapabilities_memWf (msg : List Byte) {s : State} (h : s.memWf = true) : outWf (execGetCapabilities msg s) := by
  unfold execGetCapabilities
  try dsimp only
  repeat' (first
    | with_reducible assumption
    | with_reducible apply outWf_next
    | with_reducible apply respond_memWf
    | with_reducible apply inState_memWf
    | with_reducible apply answerCapabilities_memWf
    | (refine memWf_of_next (by with_reducible assumption) ?_)
    | (refine memWf_of_ans (by with_reducible assumption) ?_)
    | with_reducible apply memWf_foldl
    | split
    | simp only [memWf_mk]
    | with_reducible intro)

theorem execNegotiateAlgorithms_memWf (msg : List Byte) {s : State} (h : s.memWf = true) : outWf (execNegotiateAlgorithms msg s) := by
  unfold execNegotiateAlgorithms
  try dsimp only
  repeat' (first
    | with_reducible assumption
    | with_reducible apply outWf_next
    | with_reducible apply respond_memWf
    | with_reducible apply inState_memWf
    | with_reducible apply answerAlgorithms_memWf
    | (refine memWf_of_next (by with_reducible assumption) ?_)
    | (refine memWf_of_ans (by with_reducible assumption) ?_)
    | with_reducible apply memWf_foldl
    | split
    | simp only [memWf_mk]
    | with_reducible intro)

theorem execGetDigests_memWf (msg : List Byte) {s : State} (h : s.memWf = true) : outWf (execGetDigests msg s) := by
  unfold execGetDigests
  try dsimp only
  repeat' (first
    | with_reducible assumption
    | with_reducible apply outWf_next
    | with_reducible apply respond_memWf
    | with_reducible apply inState_memWf
    | with_reducible apply freeAnswer_memWf
    | (refine memWf_of_next (by with_reducible assumption) ?_)
    | (refine memWf_of_ans (by with_reducible assumption) ?_)
    | with_reducible apply memWf_foldl
    | split
    | simp only [memWf_mk]
    | with_reducible intro)

theorem execGetCertificate_memWf (msg : List Byte) {s : State} (h : s.memWf = true) : outWf (execGetCertificate msg s) := by
  unfold execGetCertificate
  try dsimp only
  repeat' (first
    | with_reducible assumption
    | with_reducible apply outWf_next
    | with_reducible apply respond_memWf
    | with_reducible apply inState_memWf
    | with_reducible apply answerCertificate_memWf
    | (refine memWf_of_next (by with_reducible assumption) ?_)
    | (refine memWf_of_ans (by with_reducible assumption) ?_)
    | with_reducible apply memWf_foldl
    | split
    | simp only [memWf_mk]
    | with_reducible intro)

theorem execChallenge_memWf (msg : List Byte) {s : State} (h : s.memWf = true) : outWf (execChallenge msg s) := by
  unfold execChallenge
  try dsimp only
  repeat' (first
    | with_reducible assumption
    | with_reducible apply outWf_next
    | with_reducible apply respond_memWf
    | with_reducible apply inState_memWf
    | with_reducible apply answerChallenge_memWf
    | (refine memWf_of_next (by with_reducible assumption) ?_)
    | (refine memWf_of_ans (by with_reducible assumption) ?_)
    | with_reducible apply memWf_foldl
    | split
    | simp only [memWf_mk]
    | with_reducible intro)

theorem execGetMeasurements_memWf (msg : List Byte) {s : State} (h : s.memWf = true) : outWf (execGetMeasurements msg s) := by
  unfold execGetMeasurements
  try dsimp only
  repeat' (first
    | with_reducible assumption
    | with_reducible apply outWf_next
    | with_reducible apply respond_memWf
    | with_reducible apply inState_memWf
    | with_reducible apply answerMeasurements_memWf
    | (refine memWf_of_next (by with_reducible assumption) ?_)
    | (refine memWf_of_ans (by with_reducible assumption) ?_)
    | with_reducible apply memWf_foldl
    | split
    | simp only [memWf_mk]
    | with_reducible intro)

theorem execKeyExchange_memWf (msg : List Byte) {s : State} (h : s.memWf = true) : outWf (execKeyExchange msg s) := by
  unfold execKeyExchange
  try dsimp only
  repeat' (first
    | with_reducible assumption
    | with_reducible apply outWf_next
    | with_reducible apply respond_memWf
    | with_reducible apply inState_memWf
    | with_reducible apply inSession_memWf
    | with_reducible apply freeAnswer_memWf
    | (refine memWf_of_next (by with_reducible assumption) ?_)
    | (refine memWf_of_ans (by with_reducible assumption) ?_)
    | with_reducible apply memWf_foldl
    | split
    | simp only [memWf_mk]
    | with_reducible intro)

theorem execFinish_memWf (msg : List Byte) {s : State} (h : s.memWf = true) : outWf (execFinish msg s) := by
  unfold execFinish
  try dsimp only
  repeat' (first
    | with_reducible assumption
    | with_reducible apply outWf_next
    | with_reducible apply respond_memWf
    | with_reducible apply inState_memWf
    | with_reducible apply inSession_memWf
    | with_reducible apply freeAnswer_memWf
    | (refine memWf_of_next (by with_reducible assumption) ?_)
    | (refine memWf_of_ans (by with_reducible assumption) ?_)
    | with_reducible apply memWf_foldl
    | split
    | simp only [memWf_mk]
    | with_reducible intro)

theorem execSpdmHeartbeat_memWf (msg : List Byte) {s : State} (h : s.memWf = true) : outWf (execSpdmHeartbeat msg s) := by
  unfold execSpdmHeartbeat
  try dsimp only
  repeat' (first
    | with_reducible assumption
    | with_reducible apply outWf_next
    | with_reducible apply respond_memWf
    | with_reducible apply inState_memWf
    | with_reducible apply inSession_memWf
    | with_reducible apply freeAnswer_memWf
    | (refine memWf_of_next (by with_reducible assumption) ?_)
    | (refine memWf_of_ans (by with_reducible assumption) ?_)
    | with_reducible apply memWf_foldl
    | split
    | simp only [memWf_mk]
    | with_reducible intro)

theorem execKeyUpdate_memWf (msg : List Byte) {s : State} (h : s.memWf = true) : outWf (execKeyUpdate msg s) := by
  unfold execKeyUpdate
  try dsimp only
  repeat' (first
    | with_reducible assumption
    | with_reducible apply outWf_next
    | with_reducible apply respond_memWf
    | with_reducible apply inState_memWf
    | with_reducible apply inSession_memWf
    | with_reducible apply freeAnswer_memWf
    | (refine memWf_of_next (by with_reducible assumption) ?_)
    | (refine memWf_of_ans (by with_reducible assumption) ?_)
    | with_reducible apply memWf_foldl
    | split
    | simp only [memWf_mk]
    | with_reducible intro)

theorem execEndSession_memWf (msg : List Byte) {s : State} (h : s.memWf = true) : outWf (execEndSession msg s) := by
  unfold execEndSession
  try dsimp only
  repeat' (first
    | with_reducible assumption
    | with_reducible apply outWf_next
    | with_reducible apply respond_memWf
    | with_reducible apply inState_memWf
    | with_reducible apply inSession_memWf
    | with_reducible apply freeAnswer_memWf
    | (refine memWf_of_next (by with_reducible assumption) ?_)
    | (refine memWf_of_ans (by with_reducible assumption) ?_)
    | with_reducible apply memWf_foldl
    | split
    | simp only [memWf_mk]
    | with_reducible intro)

theorem receiveMgmt_memWf {s : State} (b : List Byte) (h : s.memWf = true) : outWf (receiveMgmt s b) := by
  unfold receiveMgmt
  try dsimp only
  repeat' (first
    | with_reducible assumption
    | with_reducible apply outWf_next
    | with_reducible apply waitReq_memWf
    | with_reducible apply run_memWf
    | (refine memWf_of_next (by with_reducible assumption) ?_)
    | with_reducible apply memWf_foldl
    | split
    | simp only [memWf_mk]
    | with_reducible intro)

theorem execDoeObjectReceive_memWf (object : List Byte) {s : State} (h : s.memWf = true) : outWf (execDoeObjectReceive object s) := by
  unfold execDoeObjectReceive
  try dsimp only
  repeat' (first
    | with_reducible assumption
    | with_reducible apply outWf_next
    | with_reducible apply onMgmt_memWf
    | with_reducible apply receiveSpdm_memWf
    | with_reducible apply receiveMgmt_memWf
    | (refine memWf_of_next (by with_reducible assumption) ?_)
    | with_reducible apply memWf_foldl
    | split
    | simp only [memWf_mk]
    | with_reducible intro)

theorem execTxgo_memWf (len : Nat) {s : State} (h : s.memWf = true) : outWf (execTxgo len s) := by
  unfold execTxgo
  try dsimp only
  repeat' (first
    | with_reducible assumption
    | with_reducible apply outWf_next
    | with_reducible apply doeCtl_memWf
    | with_reducible apply memWf_foldl
    | split
    | simp only [memWf_mk]
    | with_reducible intro)

theorem execRxdone_memWf {s : State} (h : s.memWf = true) : outWf (execRxdone s) := by
  unfold execRxdone
  try dsimp only
  repeat' (first
    | with_reducible assumption
    | with_reducible apply outWf_next
    | with_reducible apply doeCtl_memWf
    | with_reducible apply memWf_foldl
    | split
    | simp only [memWf_mk]
    | with_reducible intro)

theorem hashEvent_memWf (op : Nat) (cmd : Nat) {s : State} (h : s.memWf = true) : outWf (hashEvent op cmd s) := by
  unfold hashEvent
  try dsimp only
  repeat' (first
    | with_reducible assumption
    | with_reducible apply outWf_next
    | with_reducible apply hashCommand_memWf
    | with_reducible apply memWf_foldl
    | split
    | simp only [memWf_mk]
    | with_reducible intro)

theorem execHashReset_memWf (cmd : Nat) {s : State} (h : s.memWf = true) : outWf (execHashReset cmd s) := by
  unfold execHashReset
  try dsimp only
  repeat' (first
    | with_reducible assumption
    | with_reducible apply outWf_next
    | with_reducible apply hashEvent_memWf
    | (refine memWf_of_next (by with_reducible assumption) ?_)
    | with_reducible apply memWf_foldl
    | split
    | simp only [memWf_mk]
    | with_reducible intro)

theorem execHashAbsorb_memWf (cmd : Nat) {s : State} (h : s.memWf = true) : outWf (execHashAbsorb cmd s) := by
  unfold execHashAbsorb
  try dsimp only
  repeat' (first
    | with_reducible assumption
    | with_reducible apply outWf_next
    | with_reducible apply hashEvent_memWf
    | (refine memWf_of_next (by with_reducible assumption) ?_)
    | with_reducible apply memWf_foldl
    | split
    | simp only [memWf_mk]
    | with_reducible intro)

theorem execHashDigest_memWf (cmd : Nat) {s : State} (h : s.memWf = true) : outWf (execHashDigest cmd s) := by
  unfold execHashDigest
  try dsimp only
  repeat' (first
    | with_reducible assumption
    | with_reducible apply outWf_next
    | with_reducible apply hashEvent_memWf
    | (refine memWf_of_next (by with_reducible assumption) ?_)
    | with_reducible apply memWf_foldl
    | split
    | simp only [memWf_mk]
    | with_reducible intro)

theorem execHashSign_memWf (cmd : Nat) {s : State} (h : s.memWf = true) : outWf (execHashSign cmd s) := by
  unfold execHashSign
  try dsimp only
  repeat' (first
    | with_reducible assumption
    | with_reducible apply outWf_next
    | with_reducible apply hashEvent_memWf
    | (refine memWf_of_next (by with_reducible assumption) ?_)
    | with_reducible apply memWf_foldl
    | split
    | simp only [memWf_mk]
    | with_reducible intro)

theorem execHashClone_memWf (cmd : Nat) {s : State} (h : s.memWf = true) : outWf (execHashClone cmd s) := by
  unfold execHashClone
  try dsimp only
  repeat' (first
    | with_reducible assumption
    | with_reducible apply outWf_next
    | with_reducible apply hashEvent_memWf
    | (refine memWf_of_next (by with_reducible assumption) ?_)
    | with_reducible apply memWf_foldl
    | split
    | simp only [memWf_mk]
    | with_reducible intro)

theorem execRandRead_memWf {s : State} (h : s.memWf = true) : outWf (execRandRead s) := by
  unfold execRandRead
  try dsimp only
  repeat' (first
    | with_reducible assumption
    | with_reducible apply outWf_next
    | with_reducible apply randDraw_memWf
    | (refine memWf_of_fst (by with_reducible assumption) ?_)
    | (refine memWf_of_snd (by with_reducible assumption) ?_)
    | with_reducible apply memWf_foldl
    | split
    | simp only [memWf_mk]
    | with_reducible intro)

theorem execManagementControllerFault_memWf (code : Nat) {s : State} (h : s.memWf = true) : outWf (execManagementControllerFault code s) := by
  unfold execManagementControllerFault
  try dsimp only
  repeat' (first
    | with_reducible assumption
    | with_reducible apply outWf_next
    | with_reducible apply takeFault_memWf
    | with_reducible apply memWf_foldl
    | split
    | simp only [memWf_mk]
    | with_reducible intro)

theorem wakeDies_memWf {s : State} (as : List Nat) (h : s.memWf = true) : (wakeDies s as).memWf = true := by
  unfold wakeDies
  try dsimp only
  repeat' (first
    | with_reducible assumption
    | with_reducible apply wakeDie_memWf
    | with_reducible apply memWf_foldl
    | split
    | simp only [memWf_mk]
    | with_reducible intro)

theorem execHostMemoryWrite_memWf (link : Nat) (addr : Nat) (data : List Byte) {s : State} (h : s.memWf = true) : outWf (execHostMemoryWrite link addr data s) := by
  unfold execHostMemoryWrite
  try dsimp only
  repeat' (first
    | with_reducible assumption
    | with_reducible apply outWf_next
    | with_reducible apply putByte_memWf
    | with_reducible apply setForm_memWf
    | with_reducible apply countRefusal_memWf
    | with_reducible apply execHostCounterStore_memWf
    | with_reducible apply wakeDies_memWf
    | (refine memWf_of_next (by with_reducible assumption) ?_)
    | with_reducible apply memWf_foldl
    | split
    | simp only [memWf_mk]
    | with_reducible intro)

theorem execHostMemoryRead_memWf (link : Nat) (addr : Nat) (len : Nat) {s : State} (h : s.memWf = true) : outWf (execHostMemoryRead link addr len s) := by
  unfold execHostMemoryRead
  try dsimp only
  repeat' (first
    | with_reducible assumption
    | with_reducible apply outWf_next
    | with_reducible apply emit_memWf
    | with_reducible apply countRefusal_memWf
    | with_reducible apply wakeDies_memWf
    | with_reducible apply memWf_foldl
    | split
    | simp only [memWf_mk]
    | with_reducible intro)

theorem execPackageReset_memWf {s : State} (h : s.memWf = true) : outWf (execPackageReset s) := by
  unfold execPackageReset
  try dsimp only
  repeat' (first
    | with_reducible assumption
    | with_reducible apply outWf_next
    | with_reducible apply boot_memWf
    | with_reducible apply cleared_memWf
    | with_reducible apply memWf_foldl
    | split
    | simp only [memWf_mk]
    | with_reducible intro)

theorem execLinkHotReset_memWf (link : Nat) {s : State} (h : s.memWf = true) : outWf (execLinkHotReset link s) := by
  unfold execLinkHotReset
  try dsimp only
  repeat' (first
    | with_reducible assumption
    | with_reducible apply outWf_next
    | with_reducible apply done_memWf
    | with_reducible apply loseLink_memWf
    | (refine memWf_of_next (by with_reducible assumption) ?_)
    | with_reducible apply memWf_foldl
    | split
    | simp only [memWf_mk]
    | with_reducible intro)

theorem execFunctionLevelReset_memWf (link : Nat) {s : State} (h : s.memWf = true) : outWf (execFunctionLevelReset link s) := by
  unfold execFunctionLevelReset
  try dsimp only
  repeat' (first
    | with_reducible assumption
    | with_reducible apply outWf_next
    | with_reducible apply done_memWf
    | with_reducible apply loseLink_memWf
    | (refine memWf_of_next (by with_reducible assumption) ?_)
    | with_reducible apply memWf_foldl
    | split
    | simp only [memWf_mk]
    | with_reducible intro)

theorem execThermalThrottle_memWf (die : Nat) {s : State} (h : s.memWf = true) : outWf (execThermalThrottle die s) := by
  unfold execThermalThrottle
  try dsimp only
  repeat' (first
    | with_reducible assumption
    | with_reducible apply outWf_next
    | with_reducible apply setDie_memWf
    | with_reducible apply memWf_foldl
    | split
    | simp only [memWf_mk]
    | with_reducible intro)

theorem execThermalTrip_memWf {s : State} (h : s.memWf = true) : outWf (execThermalTrip s) := by
  unfold execThermalTrip
  try dsimp only
  repeat' (first
    | with_reducible assumption
    | with_reducible apply outWf_next
    | with_reducible apply boot_memWf
    | with_reducible apply cleared_memWf
    | with_reducible apply memWf_foldl
    | split
    | simp only [memWf_mk]
    | with_reducible intro)

theorem execSidePortResetRequest_memWf {s : State} (h : s.memWf = true) : outWf (execSidePortResetRequest s) := by
  unfold execSidePortResetRequest
  try dsimp only
  repeat' (first
    | with_reducible assumption
    | with_reducible apply outWf_next
    | with_reducible apply boot_memWf
    | with_reducible apply cleared_memWf
    | with_reducible apply memWf_foldl
    | split
    | simp only [memWf_mk]
    | with_reducible intro)

theorem execActivationStageTimeout_memWf {s : State} (h : s.memWf = true) : outWf (execActivationStageTimeout s) := by
  unfold execActivationStageTimeout
  try dsimp only
  repeat' (first
    | with_reducible assumption
    | with_reducible apply outWf_next
    | with_reducible apply onAct_memWf
    | with_reducible apply memWf_foldl
    | split
    | simp only [memWf_mk]
    | with_reducible intro)

theorem execNackRx_memWf (c : Nat) (psn : Nat) (reason : Nat) {s0 : State} (h : s0.memWf = true) : outWf (execNackRx c psn reason s0) := by
  unfold execNackRx
  try dsimp only
  repeat' (first
    | with_reducible assumption
    | with_reducible apply outWf_next
    | with_reducible apply done_memWf
    | with_reducible apply takeControl_memWf
    | with_reducible apply reportSent_memWf
    | with_reducible apply setConn_memWf
    | with_reducible apply afterAck_memWf
    | with_reducible apply refuseAdds_memWf
    | with_reducible apply stopById_memWf
    | with_reducible apply memWf_foldl
    | split
    | simp only [memWf_mk]
    | with_reducible intro)

theorem execPriReenable_memWf (die : Nat) {s : State} (h : s.memWf = true) : outWf (execPriReenable die s) := by
  unfold execPriReenable
  try dsimp only
  repeat' (first
    | with_reducible assumption
    | with_reducible apply outWf_next
    | with_reducible apply sendWaiting_memWf
    | with_reducible apply setDie_memWf
    | with_reducible apply memWf_foldl
    | split
    | simp only [memWf_mk]
    | with_reducible intro)

theorem sendStopped_memWf {s : State} (port : Nat) (h : s.memWf = true) : (sendStopped s port).memWf = true := by
  unfold sendStopped
  try dsimp only
  repeat' (first
    | with_reducible assumption
    | with_reducible apply sendOn_memWf
    | with_reducible apply setPort_memWf
    | with_reducible apply memWf_foldl
    | split
    | simp only [memWf_mk]
    | with_reducible intro)

theorem sendPort_memWf {s : State} (port : Nat) (h : s.memWf = true) : (sendPort s port).memWf = true := by
  unfold sendPort
  try dsimp only
  repeat' (first
    | with_reducible assumption
    | with_reducible apply sendOut_memWf
    | with_reducible apply sendStopped_memWf
    | with_reducible apply memWf_foldl
    | split
    | simp only [memWf_mk]
    | with_reducible intro)

theorem execLinkUp_memWf (port : Nat) {s : State} (h : s.memWf = true) : outWf (execLinkUp port s) := by
  unfold execLinkUp
  try dsimp only
  repeat' (first
    | with_reducible assumption
    | with_reducible apply outWf_next
    | with_reducible apply setPort_memWf
    | with_reducible apply done_memWf
    | with_reducible apply pumpConn_memWf
    | (refine memWf_of_next (by with_reducible assumption) ?_)
    | with_reducible apply sendPort_memWf
    | with_reducible apply memWf_foldl
    | split
    | simp only [memWf_mk]
    | with_reducible intro)

theorem execLinkPartnerAcknowledgement_memWf (port : Nat) (frame : Nat) {s : State} (h : s.memWf = true) : outWf (execLinkPartnerAcknowledgement port frame s) := by
  unfold execLinkPartnerAcknowledgement
  try dsimp only
  repeat' (first
    | with_reducible assumption
    | with_reducible apply outWf_next
    | with_reducible apply setPort_memWf
    | with_reducible apply done_memWf
    | with_reducible apply pumpConn_memWf
    | (refine memWf_of_next (by with_reducible assumption) ?_)
    | with_reducible apply sendPort_memWf
    | with_reducible apply memWf_foldl
    | split
    | simp only [memWf_mk]
    | with_reducible intro)

theorem execDebuggerHalt_memWf (ctx : Nat) (halt : Bool) {s : State} (h : s.memWf = true) : outWf (execDebuggerHalt ctx halt s) := by
  unfold execDebuggerHalt
  try dsimp only
  repeat' (first
    | with_reducible assumption
    | with_reducible apply outWf_next
    | with_reducible apply setJob_memWf
    | with_reducible apply noteWatch_memWf
    | with_reducible apply memWf_foldl
    | split
    | simp only [memWf_mk]
    | with_reducible intro)

theorem execServiceKeyHashInstall_memWf (pid : Nat) (hash : List Byte) {s : State} (h : s.memWf = true) : outWf (execServiceKeyHashInstall pid hash s) := by
  unfold execServiceKeyHashInstall
  try dsimp only
  repeat' (first
    | with_reducible assumption
    | with_reducible apply outWf_next
    | with_reducible apply setPart_memWf
    | with_reducible apply run_memWf
    | (refine memWf_of_next (by with_reducible assumption) ?_)
    | with_reducible apply memWf_foldl
    | split
    | simp only [memWf_mk]
    | with_reducible intro)

theorem execDesignPowerThrottle_memWf (on : Bool) {s : State} (h : s.memWf = true) : outWf (execDesignPowerThrottle on s) := by
  unfold execDesignPowerThrottle
  try dsimp only
  repeat' (first
    | with_reducible assumption
    | with_reducible apply outWf_next
    | with_reducible apply memWf_foldl
    | split
    | simp only [memWf_mk]
    | with_reducible intro)

theorem execSnoop_memWf (link : Nat) (addr : Nat) {s : State} (h : s.memWf = true) : outWf (execSnoop link addr s) := by
  unfold execSnoop
  try dsimp only
  repeat' (first
    | with_reducible assumption
    | with_reducible apply outWf_next
    | with_reducible apply emit_memWf
    | with_reducible apply memWf_foldl
    | split
    | simp only [memWf_mk]
    | with_reducible intro)

end Sys2Proof.Machine
end

