-- ==== Sys2Proof/Tests/Slice0.lean ====
section
/-! SUPPORT. The model's own tests: what is not well-formed, words decoded, a witness for the hypotheses of each statement, and results worked out
by hand from the spec. -/

namespace Sys2Proof.Tests

open Sys2Proof Sys2Proof.Machine

set_option Elab.async false

/-- A concrete fact about the machine that the kernel evaluates: the clause of a witness it stands for says which. -/
theorem settled {p : Prop} [Decidable p] (h : decide p = true := by decide +kernel) : p := of_decide_eq_true h

/-! ### Well-formedness refuses what a field cannot hold and what R179 rejects -/

theorem test_wf_guard : (Instr.nop 15).wf = true ∧ (Instr.nop 16).wf = false := by decide
theorem test_wf_fn : (Instr.add ⟨0, 2, 1, 2, 3, none⟩).wf = true ∧ (Instr.add ⟨0, 8, 1, 2, 3, none⟩).wf = false := by decide
theorem test_wf_guard_f3 : (Instr.add ⟨16, 0, 1, 2, 3, none⟩).wf = false := by decide
theorem test_wf_d : (Instr.add ⟨0, 0, 64, 2, 3, none⟩).wf = false := by decide
theorem test_wf_a : (Instr.add ⟨0, 0, 1, 64, 3, none⟩).wf = false := by decide
theorem test_wf_b : (Instr.add ⟨0, 0, 1, 2, 64, none⟩).wf = false := by decide
theorem test_wf_ext : (Instr.lds ⟨0, 0, 1, 2, 63, some (2 ^ 32)⟩).fits = false ∧ (Instr.lds ⟨0, 0, 1, 2, 63, some (2 ^ 32 - 1)⟩).fits = true := by decide
theorem test_wf_fi : (Instr.addi ⟨16, 1, 2, 0, none⟩).wf = false ∧ (Instr.addi ⟨0, 64, 2, 0, none⟩).wf = false ∧
    (Instr.addi ⟨0, 1, 64, 0, none⟩).wf = false ∧ (Instr.addi ⟨0, 1, 2, 512, none⟩).wf = false ∧
    (Instr.addi ⟨0, 1, 2, 0, some (2 ^ 32)⟩).wf = false ∧ (Instr.addi ⟨0, 1, 2, 511, none⟩).wf = true := by decide
theorem test_wf_fb : (Instr.br ⟨0, 2 ^ 21 - 1, none⟩).wf = true ∧ (Instr.br ⟨0, 2 ^ 21, none⟩).wf = false ∧ (Instr.br ⟨16, 0, none⟩).wf = false ∧
    (Instr.br ⟨0, 0, some (2 ^ 32)⟩).wf = false := by decide
theorem test_wf_fk : (Instr.csrr ⟨0, 1, 0x1000⟩).wf = false ∧ (Instr.csrr ⟨0, 64, 0⟩).wf = false ∧ (Instr.csrr ⟨16, 1, 0⟩).wf = false ∧
    (Instr.csrr ⟨0, 1, 0x104⟩).wf = true := by decide
theorem test_wf_fm : (Instr.mzero ⟨0, 0, 15, 0, 0, 0, 0, none⟩).wf = true ∧ (Instr.mzero ⟨16, 0, 15, 0, 0, 0, 0, none⟩).wf = false ∧
    (Instr.mzero ⟨0, 8, 15, 0, 0, 0, 0, none⟩).wf = false ∧ (Instr.mzero ⟨0, 0, 16, 0, 0, 0, 0, none⟩).wf = false ∧
    (Instr.mzero ⟨0, 0, 15, 16, 0, 0, 0, none⟩).wf = false ∧ (Instr.mzero ⟨0, 0, 15, 0, 16, 0, 0, none⟩).wf = false ∧
    (Instr.mzero ⟨0, 0, 15, 0, 0, 8, 0, none⟩).wf = false ∧ (Instr.mzero ⟨0, 0, 15, 0, 0, 0, 8, none⟩).wf = false ∧
    (Instr.mzero ⟨0, 0, 15, 0, 0, 0, 0, some (2 ^ 32)⟩).wf = false := by decide
theorem test_wf_fy : (Instr.unwatch ⟨0, 0, 15, 0, 0, none⟩).wf = true ∧ (Instr.unwatch ⟨16, 0, 15, 0, 0, none⟩).wf = false ∧
    (Instr.unwatch ⟨0, 8, 15, 0, 0, none⟩).wf = false ∧ (Instr.unwatch ⟨0, 0, 16, 0, 0, none⟩).wf = false ∧
    (Instr.unwatch ⟨0, 0, 15, 64, 0, none⟩).wf = false ∧ (Instr.unwatch ⟨0, 0, 15, 0, 64, none⟩).wf = false ∧
    (Instr.unwatch ⟨0, 0, 15, 0, 0, some (2 ^ 32)⟩).wf = false := by decide
theorem test_wf_fw : (Instr.waitf ⟨0, 65535⟩).wf = true ∧ (Instr.waitf ⟨0, 65536⟩).wf = false ∧ (Instr.waitf ⟨16, 1⟩).wf = false := by decide
theorem test_wf_move : (Instr.move ⟨false, 0, false, 0x7FF, 7⟩ 0x42).wf = true ∧ (Instr.move ⟨false, 4, false, 0x7FF, 7⟩ 0x42).wf = false ∧
    (Instr.move ⟨false, 0, false, 0x1000, 0⟩ 0x42).wf = false ∧ (Instr.move ⟨false, 0, false, 0x7FF, 2 ^ 32⟩ 0x42).wf = false ∧
    (Instr.move ⟨false, 0, false, 0x100, 7⟩ 0x42).wf = false ∧ (Instr.move ⟨false, 0, false, 0x100, 0⟩ 0x1000).wf = false := by decide
/-- R192: SETP's FN has eight values and ADD's three; a reserved FN is not well-formed. -/
theorem test_wf_reserved_fn : (Instr.add ⟨0, 3, 1, 2, 3, none⟩).wf = false ∧ (Instr.setp ⟨0, 7, 1, 2, 3, none⟩).wf = true := by decide
/-- R173: a destination code 32 to 62 names nothing that ADD writes. -/
theorem test_wf_operand : (Instr.add ⟨0, 0, 40, 2, 3, none⟩).wf = false := by decide
/-- R204: a CSR that does not exist, and one that is only read. -/
theorem test_wf_csr : (Instr.csrr ⟨0, 1, 0x050⟩).wf = false := by decide

/-! ### Decoding: words written out bit by bit from the layouts of R170 and R402, and the spec's own examples -/

/-- Layout F3: guard 0000, OPC 010010, EXT 0, FN 010, D 000010, A 000100, B 000101: SETP p2, s4, s5 with FN LT. -/
theorem test_decode_s : decodeSlot 0 0x04882105 none = .ok (.setp ⟨0, 2, 2, 4, 5, none⟩) := by rfl
theorem test_decode_s_immediate : decodeSlot 0 0x24C20BFD none = .ok (.addi ⟨2, 4, 5, 0x1FD, none⟩) := by rfl
theorem test_decode_s_branch : decodeSlot 0 0x08400010 none = .ok (.loopi ⟨0, 16, none⟩) := by rfl
theorem test_decode_s_csr : decodeSlot 0 0x09419000 none = .ok (.csrwSet ⟨0, 3, 0⟩) := by rfl
theorem test_decode_s_fence : decodeSlot 0 0x0A080000 none = .ok (.fence ⟨0, 2, 0, 0, 0, none⟩) := by rfl
theorem test_decode_s_tdef : decodeSlot 0 0x0C401180 none = .ok (.tdef ⟨0, 0, 1, 6, 0, none⟩) := by rfl
theorem test_decode_v : decodeSlot 1 0x01083042 none = .ok (.vfma ⟨0, 2, 3, 1, 2, none⟩) := by rfl
theorem test_decode_l_load : decodeSlot 2 0x00644146 (some 0x10) = .ok (.lds ⟨0, 1, 4, 5, 6, some 0x10⟩) := by rfl
theorem test_decode_l_store : decodeSlot 2 0x00A0D07F (some 0x100) = .ok (.sts ⟨0, 0, 13, 1, 63, some 0x100⟩) := by rfl
theorem test_decode_l_atom : decodeSlot 2 0x0284928B none = .ok (.atom ⟨0, 1, 9, 10, 11, none⟩) := by rfl
theorem test_decode_x : decodeSlot 3 0x00A45040 (some 0x0100000A) = .ok (.qnt ⟨0, 1, 5, 1, 0, some 0x0100000A⟩) := by rfl
theorem test_decode_m : decodeSlot 4 0x00600040 (some 0x1000003F) = .ok (.mldb ⟨0, 0, 0, 0, 1, 0, 0, some 0x1000003F⟩) ∧
    decodeSlot 5 0x00A08000 (some 0x00FD003F) = .ok (.mma ⟨0, 0, 2, 0, 0, 0, 0, some 0x00FD003F⟩) := ⟨by rfl, by rfl⟩
theorem test_decode_c : decodeSlot 6 0x014001C8 none = .ok (.cadd ⟨0, 0, 0, 7, 8, none⟩) ∧
    decodeSlot 6 0x00609105 (some 0xE8010000) = .ok (.cpy ⟨0, 0, 9, 4, 5, some 0xE8010000⟩) := ⟨by rfl, by rfl⟩
theorem test_decode_y : decodeSlot 7 0x00400009 none = .ok (.waitf ⟨0, 9⟩) ∧
    decodeSlot 7 0x00A081C8 (some 0x1388) = .ok (.watch ⟨0, 0, 2, 7, 8, some 0x1388⟩) := ⟨by rfl, by rfl⟩
theorem test_decode_leat : decodeMove 0xB8001F00 0 = .ok (.pcJump ⟨true, 1, true, 0x800, 0⟩) ∧
    decodeMove 0x01000420 0 = .ok (.move ⟨false, 0, false, 0x100, 0⟩ 0x42) ∧
    decodeMove 0x08011100 0 = .ok (.aluAdd ⟨false, 0, false, 0x801, 0⟩) := ⟨by rfl, by rfl, by rfl⟩
/-- Reserved words are rejected by name, not read as a neighbour (R179). -/
theorem test_decode_reserved : decodeSlot 0 0x0941B000 none = .error cIllegalOp ∧ decodeSlot 7 0x00410009 none = .error cIllegalOp ∧
    decodeSlot 6 0x016001FF (some 0xE0000040) = .error cIllegalOp := ⟨by rfl, by rfl, by rfl⟩

/-! ### Witnesses: states and operands that meet the hypotheses of the statements

One theorem for each statement that has hypotheses. placed is the machine of log entry 11 with core 0 about to issue; the other
builders change one thing of it. -/

/-- The machine of log entry 11, core 0 at issue, with its live registers changed by r. -/
def placed (r : Arch → Arch) : State := (State.reset.withFetchWord 32 0).onCore 0 fun x => { x with live := r x.live }
/-- The same with values in scalar registers. -/
def placedS (vals : Table Word) : State := placed fun a => { a with s := vals }
/-- The same with partition 0 changed. -/
def withPart (s : State) (f : Partition → Partition) : State := s.setPart 0 (f (s.part 0))
/-- The same with its job changed. -/
def withJob (s : State) (f : Job → Job) : State := s.setJob 1 (f (s.job 1))
/-- The same with the cursor of issue changed. -/
def withCur (s : State) (f : Cursor → Cursor) : State := { s with cur := f s.cur }
def f3 (fn d a b : Nat) : F3 := ⟨0, fn, d, a, b, none⟩
/-- An operation takes effect, by evaluation. -/
theorem issues_by {slot g : Nat} {s : State}
    (h : (!s.cur.aborted && !s.cur.frozen && guardPasses s.curCore.live g && !s.curCore.masks.contains (s.cur.inst, slot)) = true) :
    Issues slot g s := by
  simpa [Issues, and_assoc] using h
/-- Guard 0 passes on every slot after reset. -/
theorem issues_reset (slot : Nat) : Issues slot 0 State.reset := ⟨rfl, rfl, rfl, rfl⟩
/-- And of the placed machine. -/
theorem issues_placed (slot : Nat) : Issues slot 0 (placed id) := ⟨rfl, rfl, rfl, rfl⟩
/-- The placed machine as the management controller issues, with values in scalar registers. -/
def firmS (vals : Table Word) : State :=
  withCur (State.reset.onCore 768 fun x => { x with live := { x.live with s := vals } }) fun c => { c with core := 768 }
theorem issues_firm (slot : Nat) (t : Table Word) : Issues slot 0 (firmS t) := ⟨rfl, rfl, rfl, rfl⟩
/-- A control frame is taken on a port that is up, runs no MACsec and waits on no record, whatever its association. -/
theorem takes_control (s : State) (p : Nat) (h : ((s.port p).down || portBlocked s p || (s.port p).mac.on) = false) :
    TakesControl s p (noteMac s p (Config.frameAn s.ticks % 4)) := by
  simp only [Bool.or_eq_false_iff] at h
  exact ⟨h.1.1, h.1.2, by simp [macAccepts, h.2], rfl⟩
theorem issues_placedS (slot : Nat) (t : Table Word) : Issues slot 0 (placedS t) := ⟨rfl, rfl, rfl, rfl⟩
/-- An armed receive of job 1 on core 0 with its tensor at base. -/
def armedAt (base : Nat) : Armed :=
  { inst := 7, desc := setLE (setLE (zeros 64) 0 8 base) 8 4 128, job := 1, strand := 0, pid := 0, aspace := 0, det := false, core := 0,
    closing := false, effective := true, placed := [], landed := [], published := [], count := 0, user := true, lb := [0, 0, 0, 0] }
/-- The placed machine whose mill 0 has every bank in role TILE and whose strand may use all of LOCAL. -/
def tiled (r : Arch → Arch) : State :=
  let s := (placed r).onCore 0 fun x => { x with lbound := [0x08000000, 0, 0, 0], rngEnd := 1 }
  s.setMill 0 { s.mill 0 with bankrole := 0xAAAAAAAAAAAAAAAA }
/-- A tile descriptor: base and pitch in 128-byte units, rows and columns, EF, AX, strip. -/
def tdesc (base pitch rows cols ef ax scl : Nat) : Word :=
  BitVec.ofNat 64 (base + pitch * 2 ^ 16 + (rows - 1) * 2 ^ 25 + (cols - 1) * 2 ^ 34 + ef * 2 ^ 44 + ax * 2 ^ 47 + scl * 2 ^ 48)
theorem issues_tiled (slot : Nat) (r : Arch → Arch) (h : guardPasses (r placedCore.live) 0 = true) : Issues slot 0 (tiled r) := ⟨rfl, rfl, h, rfl⟩
/-- No draw is made unless RM is STO. -/
theorem draws_none (s : State) (rm : Nat) (h : rm ≠ 5) : Draws s rm s fun _ => 0 := .inl ⟨h, rfl, rfl⟩
/-- Under STO the word at RNGPOS is popped: the last of the range here. -/
theorem draws_sto :
    Draws (tiled id) 5 ((tiled id).onArch fun a => { a with rngNext := a.rngNext + 1 })
      (drawU (genG (tiled id).curCore.rngKey (BitVec.ofNat 64 (tiled id).curCore.live.rngNext))) :=
  .inr ⟨rfl, .inl rfl, by decide, rfl, rfl⟩
/-- The LOCAL address of an offset. -/
def loc (off : Nat) : Word := BitVec.ofNat 64 (0xFFFFFFFFFF800000 + off)
/-- An access answers a given result, by evaluation. -/
theorem ok_of {ε α : Type} [DecidableEq α] {x : Except ε α} {a : α} (h : (match x with | .ok y => decide (y = a) | .error _ => false) = true) :
    x = .ok a := by
  cases x with
  | error e => simp at h
  | ok y => simp at h; rw [h]
/-- Bytes in HBM; the placed page maps 0x1000 to HBM address 0. -/
def withHbm (s : State) (a : Nat) (bs : List Byte) : State := { s with hbm := s.hbm.store a bs }
/-- Tiles for each M operation. -/
def tilesOf : Table Word :=
  [(1, tdesc 0 1 2 32 7 0 0), (2, tdesc 16 1 2 32 7 0 0), (3, tdesc 32 1 2 32 7 0 0), (4, tdesc 64 1 32 2 7 0 0), (5, tdesc 128 1 2 64 0 0 512),
   (6, tdesc 256 1 64 64 5 0 0), (7, tdesc 320 2 2 64 5 0 0), (8, tdesc 340 1 2 2 7 0 0), (9, tdesc 0 16 2 32 7 0 0)]
def fm (fn td ta tb : Nat) : FM := ⟨0, fn, td, ta, tb, 0, 0, none⟩
def mop (opc : Nat) : MOp := { slot := 4, opc := opc, fn := 0, td := ⟨1, tdesc 0 1 2 32 7 0 0⟩, ta := ⟨2, tdesc 16 1 2 32 7 0 0⟩ }
/-- Core 3 after reset with a change. -/
def core3 (f : Core → Core) : State := State.reset.onCore 3 f
def cmdOf (kind : CmdKind) (stage : CmdStage) : ECmd :=
  { id := 1, kind := kind, job := 1, strand := 0, core := 0, pid := 0, aspace := 0, stage := stage, lb := [0, 0, 0, 0] }
def waiterOn (h threshold : Nat) (kind : WaiterKind) (deadline : Nat) : Waiter :=
  { h := h, threshold := threshold, kind := kind, deadline := deadline, pid := 0, aspace := 0, die := 0, by_ := ⟨1, 0⟩ }
/-- An access that ends well has some result, by evaluation. -/
theorem ok_some {ε α : Type} {x : Except ε α} (h : (match x with | .ok _ => true | .error _ => false) = true) : ∃ y, x = .ok y := by
  cases x with
  | error e => simp at h
  | ok y => exact ⟨y, rfl⟩
/-- The placed machine with its page in die 0's L2, one engine command, and OPEN connection 0 on port 0. -/
def engined (es : List ECmd) : State :=
  let s := (placed id).setDie 0 { l2 := [placedPage] }
  withPart { s with engines := es } fun p => { p with desc := setLE p.desc 20 1 3, conns := [(0, { entry := setLE (zeros 64) 0 2 0x102, port := 0 })] }
theorem ok_bind {ε α β : Type} {x : Except ε α} {f : α → Except ε β}
    (h : (match x with | .ok y => (match f y with | .ok _ => true | .error _ => false) | .error _ => false) = true) :
    ∃ y t, x = .ok y ∧ f y = .ok t := by
  cases x with
  | error e => simp at h
  | ok y => exact ⟨y, (ok_some h).imp fun _ k => ⟨rfl, k⟩⟩
/-- A graph of one operation and two ranks. -/
def graphHead : List Byte :=
  setLE (setLE (setLE (setLE (setLE (zeros 64) 0 4 0x4C4C4F43) 4 2 1) 6 2 1) 8 2 2) 12 2 1
theorem ok_with {ε α : Type} {x : Except ε α} {p : α → Bool} (h : (match x with | .ok y => p y | .error _ => false) = true) :
    ∃ y, x = .ok y ∧ p y = true := by
  cases x with
  | error e => simp at h
  | ok y => exact ⟨y, rfl, h⟩
theorem ok_both {ε ε' α β : Type} {x : Except ε α} {f : α → Except ε' β} {P : α → β → Prop} [∀ a b, Decidable (P a b)]
    (h : (match x with | .ok y => (match f y with | .ok z => decide (P y z) | .error _ => false) | .error _ => false) = true) :
    ∃ y z, x = .ok y ∧ f y = .ok z ∧ P y z := by
  cases x with
  | error e => simp at h
  | ok y =>
    refine ⟨y, ?_⟩
    cases hf : f y with
    | error e => simp [hf] at h
    | ok z => exact ⟨z, rfl, rfl, by simpa [hf] using h⟩

theorem witness_IntegerSumsComplete : ∀ fn, fn < 3 → Issues 0 (f3 fn 1 2 3).g State.reset ∧ (f3 fn 1 2 3).fn = fn :=
  fun _ _ => ⟨issues_reset 0, rfl⟩
theorem witness_IntegerOperationsComplete : ∀ fn, fn < 3 → Issues 0 (f3 fn 1 2 3).g State.reset ∧ (f3 fn 1 2 3).fn = fn :=
  fun _ _ => ⟨issues_reset 0, rfl⟩
/-- b is 0 after reset; b is -1 and a the most negative number; b is 2^64 - 1 unsigned. -/
theorem witness_DivisionsComplete :
    (Issues 0 0 State.reset ∧ State.reset.srcS 0 3 = 0) ∧
    (let s := placedS [(2, 0x8000000000000000), (3, 0xFFFFFFFFFFFFFFFF)]
     Issues 0 0 s ∧ s.srcS 0 3 ≠ 0 ∧ s.srcS 0 2 = 0x8000000000000000 ∧ (f3 0 1 2 3).fn = 0 ∧ (f3 1 1 2 3).fn = 1) :=
  ⟨⟨issues_reset 0, rfl⟩, issues_placedS 0 _, settled⟩
/-- a = 0 has 64 leading zeros, a = 1 has 63 and a = 2^63 has none; every FN of SETP, PLOG and PMOV. -/
theorem witness_BitsAndPredicatesComplete :
    (Issues 0 0 State.reset ∧ (State.reset.srcS 0 2).toNat = 0) ∧
    (let s := placedS [(2, 1), (3, 0x8000000000000000)]
     Issues 0 0 s ∧ 2 ^ (63 - 63) ≤ (s.srcS 0 2).toNat ∧ (s.srcS 0 2).toNat < 2 ^ (64 - 63) ∧
       2 ^ (63 - 0) ≤ (s.srcS 0 3).toNat ∧ (s.srcS 0 3).toNat < 2 ^ (64 - 0)) ∧
    ∀ fn, fn < 8 → (f3 fn 1 2 3).fn = fn ∧ Issues 0 (f3 fn 1 2 3).g State.reset :=
  ⟨⟨issues_reset 0, rfl⟩, ⟨issues_placedS 0 _, settled⟩, fun _ _ => ⟨rfl, issues_reset 0⟩⟩
theorem witness_ImmediatesComplete :
    Issues 0 0 State.reset ∧ ImmOf none 9 511 (-1) ∧ ImmOf none 9 256 (-256) ∧ ImmOf (some 0xFFFFFFFF) 9 0 (-1) :=
  ⟨issues_reset 0, .inl settled, .inl settled, .inr ⟨_, rfl, by decide, by decide⟩⟩
theorem witness_BranchesComplete :
    let s := placedS [(2, 0x1004)]
    let t := withCur s fun c => { c with follower := true }
    Issues 0 0 s ∧ s.cur.follower = false ∧ ImmOf none 21 0x1FFFFF (-1) ∧ ImmOf (some 0x80000000) 21 0 (-0x80000000) ∧
    (s.srcS 0 2).toNat % 4 = 0 ∧ Issues 0 0 t ∧ t.cur.follower = true :=
  ⟨issues_placedS 0 _, rfl, .inl settled, .inr ⟨_, rfl, by decide, by decide⟩, by decide, issues_by rfl, rfl⟩
/-- Five entries leave room for the sixth. -/
theorem witness_LoopsComplete :
    let s := placed fun a => { a with s := [(2, 0xFFFFFFFF)], loops := List.replicate 5 ⟨3, 1, 0x1010, false⟩ }
    Issues 0 0 s ∧ s.cur.follower = false ∧ (s.srcS 0 2).toNat < 2 ^ 32 ∧ s.curCore.live.loops.length < 6 ∧
    ImmOf none 21 0 (0 : Nat) ∧ ImmOf none 21 0xFFFFF (0xFFFFF : Nat) ∧
    s.curCore.live.loops = ⟨3, 1, 0x1010, false⟩ :: List.replicate 4 ⟨3, 1, 0x1010, false⟩ :=
  ⟨issues_by rfl, rfl, by decide, by decide, .inl settled, .inl settled, rfl⟩
/-- Issue as a follower, which the equations of LOOP and LOOPI need as well. -/
theorem witness_LoopsComplete_follower :
    let s := withCur (placedS [(2, 5)]) fun c => { c with follower := true }
    Issues 0 0 s ∧ s.cur.follower = true ∧ (s.srcS 0 2).toNat < 2 ^ 32 ∧ s.curCore.live.loops.length < 6 := ⟨issues_by rfl, rfl, by decide⟩
theorem witness_EndsComplete :
    let s := (placed id).onCore 0 fun x => { x with svcvec := 0x8000 }
    let t := placed fun a => { a with status := 0x4000 }
    let u := withCur s fun c => { c with follower := true }
    Issues 0 0 s ∧ s.inUser ∧ s.cur.follower = false ∧ s.curCore.svcvec ≠ 0 ∧ ImmOf none 21 0x100000 (-0x100000) ∧
    (Issues 0 0 t ∧ t.curCore.live.priv_ ≠ 0) ∧ (Issues 0 0 u ∧ u.inUser ∧ u.cur.follower = true) ∧ Issues 0 0 (firmS []) ∧
    (firmS []).cur.core = 768 ∧ s.curCore.seen = [] ∧ (f3 0 0 0 0).fn = 0 ∧ (f3 2 0 0 0).fn ≠ 0 :=
  ⟨issues_by rfl, by unfold State.inUser; decide, rfl, by decide, .inl settled, ⟨issues_by rfl, by decide⟩,
    ⟨issues_by rfl, by unfold State.inUser; decide, rfl⟩, issues_firm 0 _, settled⟩
theorem witness_ServiceEntryAndReturn : (1 : Nat) ≠ 0 ∧ ((placed id).onCore 0 fun x => { x with epc := 0x1FFC }).curCore.epc &&& 3 = 0 := by decide
theorem witness_CsrReadsComplete :
    let t := placed fun a => { a with status := 0x4000 }
    Issues 0 0 (placed id) ∧ (placed id).cur.core ≠ 768 ∧ Issues 0 0 t ∧ t.cur.core ≠ 768 ∧ t.curCore.live.priv_ ≠ 0 ∧
    (∀ n, (⟨0, 1, n⟩ : FK).csr = n) ∧ Issues 0 0 (firmS []) ∧ (firmS []).cur.core = 768 :=
  ⟨issues_placed 0, by decide, issues_by rfl, by decide, by decide, fun _ => rfl, issues_firm 0 _, rfl⟩
/-- A BANKROLE write that changes bank 0, one that changes nothing, and one under an armed receive in bank 0; the writes of both cores of a mill; the
controller's own CSRs. -/
theorem witness_CsrWritesComplete :
    let s := placedS [(2, 1)]
    let t := placed fun a => { a with status := 0x4000 }
    let u := s.setDie 0 { s.die 0 with armed := [(0, some (armedAt 0xFFFFFFFFFF800000))] }
    let f : FK := ⟨0, 2, 0x031⟩
    let seen (s : State) := reads (s.atSlot 0) [f.reg]
    let new (s : State) := rolesAfter (rolesNow (s.mill (s.cur.core / 2))) (s.srcS 0 f.reg) 0
    Issues 0 f.g s ∧ s.cur.core ≠ 768 ∧ (Issues 0 0 t ∧ t.curCore.live.priv_ = 1) ∧
    (armedIn (seen s) 0 (s.mill 0).bankrole (new s) = false ∧ new s ≠ rolesNow (s.mill 0)) ∧
    (let z := placed id
     armedIn (seen z) 0 (z.mill 0).bankrole (new z) = false ∧ new z = rolesNow (z.mill 0) ∧
       ((seen z).issueCores 0).any (fun d => d != 0 && d / 2 == 0 / 2) = false) ∧
    (Issues 0 0 u ∧ armedIn (seen u) 0 (u.mill 0).bankrole (new u) = true) ∧ (2 : Nat) < 3 ∧
    (Issues 0 f.g (firmS [(2, 1)]) ∧ (firmS [(2, 1)]).cur.core = 768 ∧ (⟨0, 2, 0x201⟩ : FK).csr ∈ [0x010, 0x011, 0x012, 0x013, 0x030, 0x031, 0x104, 0x200, 0x201]) ∧
    (let v (c : Nat) (a : Word) : Cursor := { core := c, effs := [.csr 0x031 0 a] }
     (v 2 1).core ≠ 768 ∧ (v 2 1).core / 2 = (v 3 0).core / 2 ∧ (v 3 0).core ≠ 768 ∧ (v 2 1).effs = [.csr 0x031 0 1] ∧ (v 3 0).effs = [.csr 0x031 0 0]) ∧
    0x013 - 0x010 < (State.reset.core 768).lbound.length :=
  ⟨issues_placedS 0 _, by decide, ⟨issues_by rfl, by decide⟩, by decide, by decide,
    ⟨issues_by rfl, by decide⟩, by decide, ⟨issues_firm 0 _, by decide⟩, by decide⟩
/-- A new group with the record's policy, one whose key has an unformed group, two strands of a formed group. -/
theorem witness_GroupsComplete :
    let s := placedS [(2, 9), (3, 2)]
    let t := placedS [(2, 9), (3, 0x10010)]
    let g : Group := { key := 9, size := 2, policy := 0, lockstep := false, formed := true, gid := 5, roster := [0, 1] }
    let u := withJob (placedS [(2, 1)]) fun j => { j with groups := [g] }
    let v := withJob (placedS [(2, 2)]) fun j => { j with groups := [g] }
    (Issues 0 0 s ∧ s.inUser ∧ (s.srcS 0 3).toNat = 2 + 0 ∧ 0 = recPolicy (s.coreJob s.cur.core).record / 8 % 8 ∧
      joinOk (reads (s.atSlot 0) [2, 3]) s.cur.core (s.srcS 0 2) 2 0 false = true) ∧
    (Issues 0 0 t ∧ t.inUser ∧ (t.srcS 0 3).toNat = 16 + 2 ^ 16 ∧ joinOk (reads (t.atSlot 0) [2, 3]) t.cur.core (t.srcS 0 2) 16 3 true = true) ∧
    s.coreGroup s.cur.core = none ∧ Issues 0 0 u ∧ u.inUser ∧ u.coreGroup u.cur.core = some g ∧ g.roster[0]? = some 0 ∧
    g.roster[(u.srcS 0 2).toNat]? = some 1 ∧ Issues 0 0 v ∧ v.inUser ∧ v.coreGroup v.cur.core = some g ∧ g.roster[(v.srcS 0 2).toNat]? = none :=
  ⟨⟨issues_placedS 0 _, by unfold State.inUser; decide, settled⟩,
    ⟨issues_placedS 0 _, by unfold State.inUser; decide, settled⟩, by decide, issues_by rfl, by unfold State.inUser; decide,
    by decide, rfl, by decide, issues_by rfl, by unfold State.inUser; decide, settled⟩
/-- A LAUNCH record at 0x1080 whose segment header stands at 0x1000; no rule, and one rule of one pattern; a descriptor of one row. -/
theorem witness_LaunchDressTdefComplete :
    let header := setLE (setLE (setLE (setLE (zeros 64) 0 4 0x314D5347) 4 2 1) 8 4 0x1000) 52 4 0x1000
    let record := setLE (setLE (setLE (setLE (setLE (zeros 128) 0 8 0x1000) 12 2 1) 14 1 1) 15 1 4) 88 8 1
    let s := withPart (placedS [(2, 0x1080)]) fun p => { p with desc := setLE p.desc 6 2 1 }
    let l := ({ s with hbm := (s.hbm.store 0 header).store 0x80 record } : State).setDie 0 { l2 := [placedPage] }
    let ps : List Piece := [⟨⟨.hbm, 0x80⟩, 128⟩]
    let u := keepPages (reads (l.atSlot 0) [2]) l.cur.core [placedPage]
    let rule := setLE (setLE (setLE (zeros 32) 0 1 9) 4 2 0x107) 8 1 8
    let e := placedS [(2, 0x1800)]
    let r := placedS [(2, 0x1800), (3, 1)]
    let r1 : State := { r with hbm := r.hbm.store 0x800 rule }
    let qs : List Piece := [⟨⟨.hbm, 0x800⟩, 32⟩]
    let d := placedS [(2, 0x0000000000010000)]
    (Issues 0 0 l ∧ l.inUser ∧ Reaches (reads (l.atSlot 0) [2]) (l.srcS 0 2).toNat 128 128 .read false ps [placedPage] ∧ ps ≠ [] ∧
      (u.coreJob l.cur.core).depth < 24 ∧ (u.part 0).tickets < (u.part 0).pool ∧
      recordFaultAt (loadWhole u l.cur.core ps).2 0 (loadWhole u l.cur.core ps).1 = none) ∧
    (Issues 0 0 e ∧ e.inUser ∧ (e.srcS 0 2).toNat % 32 = 0 ∧ (e.srcS 0 3).toNat = 0) ∧
    (Issues 0 0 r1 ∧ r1.inUser ∧ (r1.srcS 0 3).toNat = 1 ∧
      Reaches (reads (r1.atSlot 0) [2, 3]) (r1.srcS 0 2).toNat (32 * 1) 32 .read false qs [placedPage] ∧
      ∀ x ∈ chunksOf 32 1 (loadWhole (keepPages (reads (r1.atSlot 0) [2, 3]) 0 [placedPage]) 0 qs).1, ruleBad x = false) ∧
    (Issues 0 0 d ∧ tdefBad (d.srcS 0 2) = false) := by
  refine ⟨⟨issues_by rfl, by unfold State.inUser; decide, ok_of settled, settled⟩,
    ⟨issues_by rfl, by unfold State.inUser; decide, by decide⟩,
    ⟨issues_by rfl, by unfold State.inUser; decide, by decide, ok_of settled, settled⟩, issues_by rfl,
    settled⟩
/-- Each trap: an odd target, a count of 2^32, six loops and none, SERVICE, no SERVICE vector, user mode, an empty descriptor. -/
theorem witness_ScalarTraps :
    let s := placedS [(2, 0x100000002)]
    let full := placed fun a => { a with loops := List.replicate 6 ⟨3, 1, 0x1010, false⟩ }
    let svc := placed fun a => { a with status := 0x4000 }
    s.cur.follower = false ∧ full.cur.follower = false ∧ svc.cur.follower = false ∧ Issues 0 0 s ∧ Issues 0 0 full ∧ Issues 0 0 svc ∧
    (s.srcS 0 2).toNat % 4 ≠ 0 ∧ 2 ^ 32 ≤ (s.srcS 0 2).toNat ∧ full.curCore.live.loops.length = 6 ∧ s.curCore.live.loops = [] ∧
    svc.curCore.live.priv_ = 1 ∧ s.inUser ∧ s.curCore.svcvec = 0 ∧ s.curCore.live.priv_ = 0 ∧ s.cur.core ≠ 768 ∧
    tdefBad (s.srcS 0 0) = true :=
  ⟨rfl, rfl, rfl, issues_by rfl, issues_by rfl, issues_by rfl, by decide, by decide, rfl, rfl, by decide,
    by unfold State.inUser; decide, settled⟩
/-- An access that is refused, by evaluation. -/
theorem err_of {ε α : Type} {x : Except ε α} (h : (match x with | .ok _ => false | .error _ => true) = true) : ∃ e, x = .error e := by
  cases x with
  | error e => exact ⟨e, rfl⟩
  | ok y => simp at h
/-- USER and SERVICE writing privileged CSRs. -/
theorem witness_ScalarTraps_csr :
    let k (n : Nat) : FK := ⟨0, 2, n⟩
    let s := placedS [(2, 1)]
    let t := placed fun a => { a with status := 0x4000 }
    (Issues 0 0 s ∧ s.cur.core < 768 ∧ s.curCore.live.priv_ = 0 ∧ (k 0x104).csr = 0x104 ∧ (k 0x201).csr = 0x201 ∧ (k 0x101).csr = 0x101) ∧
    (Issues 0 0 t ∧ t.cur.core < 768 ∧ t.curCore.live.priv_ = 1) :=
  ⟨⟨issues_placedS 0 _, by decide⟩, issues_by rfl, by decide⟩
/-- A JOIN of size 1, a JOIN of a group that has formed, a LEAVE without a group, and DRESS misaligned, of 65 rules, and of a rule that is
malformed. -/
theorem witness_ScalarTraps_join_dress :
    let g : Group := { key := 9, size := 2, policy := 0, lockstep := false, formed := true, gid := 5, roster := [0, 1] }
    let one := placedS [(3, 1)]
    let two := withJob (placedS [(2, 9), (3, 2)]) fun j => { j with groups := [{ g with roster := [1] }] }
    let odd := placedS [(2, 0x1810), (3, 65)]
    let many := placedS [(2, 0x1800), (3, 65)]
    let r := placedS [(2, 0x1800), (3, 1)]
    let r1 : State := { r with hbm := r.hbm.store 0x800 (List.replicate 32 0xFF) }
    let qs : List Piece := [⟨⟨.hbm, 0x800⟩, 32⟩]
    (one.inUser ∧ Issues 0 0 one ∧ (one.srcS 0 3).toNat = 1 ∧ one.coreGroup one.cur.core = none) ∧
    (two.inUser ∧ Issues 0 0 two ∧ (two.srcS 0 3).toNat = 2 + 0 ∧ joinOk (reads (two.atSlot 0) [2, 3]) two.cur.core (two.srcS 0 2) 2 0 false = false) ∧
    (odd.inUser ∧ Issues 0 0 odd ∧ (odd.srcS 0 2).toNat % 32 ≠ 0) ∧
    (many.inUser ∧ Issues 0 0 many ∧ (many.srcS 0 2).toNat % 32 = 0 ∧ 64 < (many.srcS 0 3).toNat) ∧
    (r1.inUser ∧ Issues 0 0 r1 ∧ (r1.srcS 0 2).toNat % 32 = 0 ∧ (r1.srcS 0 3).toNat = 1 ∧
      Reaches (reads (r1.atSlot 0) [2, 3]) (r1.srcS 0 2).toNat (32 * 1) 32 .read false qs [placedPage] ∧
      ∃ x ∈ chunksOf 32 1 (loadWhole (keepPages (reads (r1.atSlot 0) [2, 3]) 0 [placedPage]) 0 qs).1, ruleBad x = true) :=
  ⟨⟨by unfold State.inUser; decide, issues_by rfl, by decide⟩, ⟨by unfold State.inUser; decide, issues_by rfl, settled⟩,
    ⟨by unfold State.inUser; decide, issues_by rfl, by decide⟩, ⟨by unfold State.inUser; decide, issues_by rfl, by decide⟩,
    by unfold State.inUser; decide, issues_by rfl, by decide, by decide, ok_of settled, settled⟩
/-- LAUNCH of a misaligned record, at depth 24, without a ticket, and of a record of zeros. -/
theorem witness_ScalarTraps_launch :
    let odd := placedS [(2, 0x1001)]
    let s := withPart (placedS [(2, 0x1080)]) fun p => { p with desc := setLE p.desc 6 2 1 }
    let ps : List Piece := [⟨⟨.hbm, 0x80⟩, 128⟩]
    let kept (x : State) := keepPages (reads (x.atSlot 0) [2]) x.cur.core [placedPage]
    let deep := withJob s fun j => { j with depth := 24 }
    let poor := withPart s fun p => { p with tickets := p.pool }
    (odd.inUser ∧ Issues 0 0 odd ∧ ∃ e, coreAccess (reads (odd.atSlot 0) [2]) 0 (odd.srcS 0 2).toNat 128 128 .read false = .error e) ∧
    (deep.inUser ∧ Issues 0 0 deep ∧ Reaches (reads (deep.atSlot 0) [2]) (deep.srcS 0 2).toNat 128 128 .read false ps [placedPage] ∧
      24 ≤ ((kept deep).coreJob 0).depth) ∧
    (poor.inUser ∧ Issues 0 0 poor ∧ Reaches (reads (poor.atSlot 0) [2]) (poor.srcS 0 2).toNat 128 128 .read false ps [placedPage] ∧
      ((kept poor).coreJob 0).depth < 24 ∧ ((kept poor).part 0).pool ≤ ((kept poor).part 0).tickets) ∧
    (s.inUser ∧ Issues 0 0 s ∧ Reaches (reads (s.atSlot 0) [2]) (s.srcS 0 2).toNat 128 128 .read false ps [placedPage] ∧
      ((kept s).coreJob 0).depth < 24 ∧ ((kept s).part 0).tickets < ((kept s).part 0).pool ∧
      recordFaultAt (loadWhole (kept s) 0 ps).2 0 (loadWhole (kept s) 0 ps).1 = some (cBound, none)) :=
  ⟨⟨by unfold State.inUser; decide, issues_by rfl, err_of settled⟩,
    ⟨by unfold State.inUser; decide, issues_by rfl, ok_of settled, settled⟩,
    ⟨by unfold State.inUser; decide, issues_by rfl, ok_of settled, settled⟩,
    by unfold State.inUser; decide, issues_by rfl, ok_of settled, settled⟩
/-- Integer lanes with every SUB of VMUL, floating lanes, and RM = STO with one word left. -/
theorem witness_VectorArithmeticComplete :
    let f (fn ext : Nat) : F3 := ⟨0, fn, 1, 2, 3, some ext⟩
    Issues 1 (f 0 0).g (tiled id) ∧ Draws (tiled id) (vRm (f 0 0x01000000)) (tiled id) (fun _ => 0) ∧ ltInt (f 5 0).fn = true ∧ vSub (f 0 0) < 2 ∧
    vSub (f 0 0x01000000) = 2 ∧ vSub (f 0 0x01800000) = 3 ∧ ltInt (f 1 0).fn = false ∧ vRm (f 1 0x14000000) = 5 ∧
    ∃ t u, Draws (tiled id) (vRm (f 1 0x14000000)) t u :=
  ⟨issues_tiled 1 _ rfl, draws_none _ _ (by decide), by decide, by decide, by decide, by decide, by decide, by decide, _, _, draws_sto⟩
theorem witness_VectorChoicesComplete :
    let f (fn sub : Nat) : F3 := ⟨0, fn, 1, 2, 3, some (sub * 2 ^ 23)⟩
    Issues 1 (f 0 0).g (tiled id) ∧ (∀ sub, sub < 8 → Draws (tiled id) (vRm (f 0 sub)) (tiled id) (fun _ => 0) ∧ vSub (f 0 sub) = sub) ∧
    ltInt (f 4 0).fn = true ∧ ltInt (f 7 0).fn = false :=
  ⟨issues_tiled 1 _ rfl, fun sub h => ⟨.inl ⟨by interval_cases sub <;> decide, rfl, rfl⟩, by interval_cases sub <;> decide⟩, rfl, rfl⟩
theorem witness_VectorBitsAndReductionsComplete :
    let f : F3 := ⟨0, 0, 1, 2, 3, some 0x20000000⟩
    Issues 1 f.g (tiled id) ∧ Draws (tiled id) (vRm f) (tiled id) (fun _ => 0) :=
  ⟨issues_tiled 1 _ rfl, draws_none _ _ (by decide)⟩
theorem witness_VectorMovesComplete :
    let f (fn : Nat) : F3 := ⟨0, fn, 1, 2, 3, none⟩
    Issues 1 (f 0).g (tiled id) ∧ Draws (tiled id) (vRm (f 0)) (tiled id) (fun _ => 0) ∧ ltInt (f 5).fn = true ∧ ltInt (f 2).fn = false :=
  ⟨issues_tiled 1 _ rfl, draws_none _ _ (by decide), rfl, rfl⟩
theorem witness_VectorDotAndFunctionsComplete :
    let f (fn : Nat) : F3 := ⟨0, fn, 1, 2, 3, some 0x14000000⟩
    Issues 1 (f 0).g (tiled id) ∧ (∃ t u, Draws (tiled id) (vRm (f 2)) t u) ∧ ltInt (f 4).fn = true ∧ ltInt (f 2).fn = false :=
  ⟨issues_tiled 1 _ rfl, ⟨_, _, draws_sto⟩, rfl, rfl⟩
/-- A load of the last 8 bytes of the page, a store of its last byte. -/
theorem witness_ScalarLoadsAndStoresComplete :
    let s := placedS [(2, 0x1FF8), (3, 0)]
    let t := placedS [(2, 0x1FFF), (3, 0)]
    let ps : List Piece := [⟨⟨.hbm, 0xFF8⟩, 8⟩]
    let qs : List Piece := [⟨⟨.hbm, 0xFFF⟩, 1⟩]
    Issues 2 0 s ∧ (∀ p ∈ ps, p.loc.sp ≠ .ctl) ∧ Reaches (reads (s.atSlot 2) [2, 3]) 0x1FF8 8 0 .read false ps [placedPage] ∧
    Issues 2 0 t ∧ (∀ p ∈ qs, p.loc.sp ≠ .ctl) ∧ Reaches (reads (t.atSlot 2) [2, 3, 1]) 0x1FFF 1 0 .write false qs [placedPage] ∧
    (let c := firmS [(2, 0xFFFFFFFD00003FFF)]
     let p : Piece := ⟨⟨.ctl, 0x3FFF⟩, 1⟩
     Issues 2 0 c ∧ p.loc.sp = .ctl ∧ Reaches (reads (c.atSlot 2) [2, 3]) 0xFFFFFFFD00003FFF 1 0 .read false [p] [] ∧
       Reaches (reads (c.atSlot 2) [2, 3, 1]) 0xFFFFFFFD00003FFF 1 0 .write false [p] []) :=
  ⟨issues_placedS 2 _, by decide, ok_of settled, issues_placedS 2 _, by decide, ok_of settled, issues_firm 2 _, by decide, ok_of settled,
    ok_of settled⟩
/-- Two active lanes of each form: groups and strides at 0x1000, indices 0 and 0x3FF. -/
theorem witness_VectorLoadsAndStoresComplete :
    let s := placed fun a => { a with s := [(2, 0x1000), (3, 0xFFC)], p := [(1, 3)], v := [(3, 0x3FF00000000)] }
    let f : F3 := ⟨0, 0, 1, 2, 3, some 0x08000000⟩
    let g : F3 := ⟨0, 0, 1, 2, 0, some 0x08000000⟩
    let m := s.curCore.live.pred (lMsk f)
    let ps (x y : Nat) : List (Nat × List Piece) := [(0, [⟨⟨.hbm, x⟩, 4⟩]), (1, [⟨⟨.hbm, y⟩, 4⟩])]
    Issues 2 f.g s ∧
    vecAccess (reads (s.atSlot 2) [2, 0]) 0 4 .read (activeElems m 32 fun j => 0x1000 + 4 * j) = .ok (ps 0 4, [placedPage, placedPage]) ∧
    vecAccess (reads (s.atSlot 2) [1, 2, 0]) 0 4 .write (activeElems m 32 fun j => 0x1000 + 4 * j) = .ok (ps 0 4, [placedPage, placedPage]) ∧
    vecAccess (reads (s.atSlot 2) [2, 3]) 0 4 .read (activeElems m 32 fun i => 0x1000 + i * 0xFFC) = .ok (ps 0 0xFFC, [placedPage, placedPage]) ∧
    vecAccess (reads (s.atSlot 2) [2, 3]) 0 4 .read (activeElems m 32 fun i => 0x1000 + lane (s.srcV 2 3) 32 i * 4) =
      .ok (ps 0 0xFFC, [placedPage, placedPage]) ∧ g.b = 0 ∧
    (let c := firmS [(2, 0xFFFFFFFD00001000)]
     Issues 2 f.g c ∧ vecAccess (reads (c.atSlot 2) [2, 0]) 768 4 .write (activeElems 1 32 fun j => 0xFFFFFFFD00001000 + 4 * j) =
       .ok ([(0, [⟨⟨.ctl, 0x1000⟩, 4⟩])], [])) :=
  ⟨issues_by rfl, ok_of settled, ok_of settled, ok_of settled, ok_of settled, rfl, issues_firm 2 _, ok_of settled⟩
theorem witness_CacheMaintenanceComplete :
    let s := placedS [(2, 0x1FFF)]
    Issues 2 0 s ∧ spanCanonical (0x1FFF / 128 * 128) (128 * (7 + 1)) = true ∧ (f3 1 0 2 0).fn ≠ 0 ∧ (f3 0 0 2 0).fn = 0 ∧ canonical 0x1FFF = true ∧
    deviceLine (reads (s.atSlot 2) [2, 0]) 0 0x1FFF = some 31 ∧ canonical 0xFFFFFFFFFF800000 = true ∧
    deviceLine (reads (s.atSlot 2) [2, 0]) 0 0xFFFFFFFFFF800000 = none :=
  ⟨issues_placedS 2 _, settled⟩
/-- A word at 0x1000, 256 bytes at 0x1F00, and an atomic whose place is in HBM. -/
theorem witness_AtomicsComplete :
    let s := placedS [(2, 0x1000)]
    let t := placedS [(2, 0x1F00)]
    let f : F3 := ⟨0, 7, 1, 2, 3, none⟩
    Issues 2 f.g s ∧ Reaches (reads (s.atSlot 2) [2, 3, 1]) 0x1000 4 4 .both true [⟨⟨.hbm, 0⟩, 4⟩] [placedPage] ∧
    Issues 2 f.g t ∧ Reaches (reads (t.atSlot 2) [2, 3, 1]) 0x1F00 256 256 .both true [⟨⟨.hbm, 0xF00⟩, 256⟩] [placedPage] ∧
    t.anyForm ⟨.hbm, 0xF00⟩ 256 = false ∧ (t.coreJob t.cur.core).det = false ∧
    (let c := firmS [(2, 0xFFFFFFFD00001000)]
     Issues 2 f.g c ∧ Reaches (reads (c.atSlot 2) [2, 3, 1]) 0xFFFFFFFD00001000 4 4 .both true [⟨⟨.ctl, 0x1000⟩, 4⟩] []) ∧
    (drainAll s 0).memWf = true ∧ (Space.hbm ≠ .ctl) ∧ (drainAll s 0).anyPoison ⟨.hbm, 0⟩ 4 = false :=
  ⟨issues_placedS 2 _, ok_of settled, issues_placedS 2 _, ok_of settled, settled, settled, ⟨issues_firm 2 _, ok_of settled⟩, settled⟩
theorem witness_ConversionsComplete :
    let f (ext : Nat) : F3 := ⟨0, 1, 1, 2, 0, some ext⟩
    Issues 3 (f 0).g (tiled id) ∧ Draws (tiled id) (xRm (f 0xC0000000)) (tiled id) (fun _ => 0) ∧ ∃ t u, Draws (tiled id) (xRm (f 0xA0000000)) t u :=
  ⟨issues_tiled 3 _ rfl, draws_none _ _ (by decide), _, _, draws_sto⟩
theorem witness_QuantisationsComplete :
    let f (ext : Nat) : F3 := ⟨0, 1, 1, 2, 0, some ext⟩
    Issues 3 (f 0).g (tiled id) ∧ Draws (tiled id) (xRm (f 0)) (tiled id) (fun _ => 0) ∧ ∃ t u, Draws (tiled id) (xRm (f 0xA0000000)) t u :=
  ⟨issues_tiled 3 _ rfl, draws_none _ _ (by decide), _, _, draws_sto⟩
/-- The last 8 bytes of LOCAL, every FN of MOVK, one word left of the range, and a tile of one row with a key the partition holds. -/
theorem witness_ScalesRandomWordsAndSealsComplete :
    let s := tiled fun a => { a with s := [(2, loc 0x7FFFF8), (4, 5)], t := [(1, tdesc 0 1 1 128 3 0 0)] }
    let t := withPart s fun p => { p with desc := setLE p.desc 32 1 0x20 }
    let op (opc : Nat) : MOp :=
      { slot := 3, opc := opc, fn := 0, td := ⟨1, t.curCore.live.treg 1⟩, key := 5, iv := t.srcS 3 3,
        pc := t.cur.pc, inst := t.cur.inst }
    let ps : List Piece := [⟨⟨.bank, 0x7FFFF8⟩, 8⟩]
    Issues 3 0 s ∧ isLocal 0xFFFFFFFFFFFFFFF8 = true ∧ (s.srcS 3 2).toNat = 0xFFFFFFFFFFFFFFF8 ∧
    Reaches (reads (s.atSlot 3) [2, 0]) 0xFFFFFFFFFFFFFFF8 8 8 .read false ps [] ∧ Reaches (reads (s.atSlot 3) [2, 0]) 0xFFFFFFFFFFFFFFF8 8 8 .write false ps [] ∧
    (∀ fn, fn < 3 → (f3 fn 1 2 0).fn = fn) ∧ (s.coreJob s.cur.core).det = false ∧ s.curCore.live.rngNext < s.curCore.rngEnd ∧
    Issues 3 0 t ∧ (t.srcS 3 4).toNat = 5 ∧
    sealCheck (reads (t.atSlot 3) [4, 3]) 0 (op 16) (tileOf (t.curCore.live.treg 1) 0).outside = none ∧
    sealCheck (reads (t.atSlot 3) [4, 3]) 0 (op 17) (tileOf (t.curCore.live.treg 1) 0).outside = none :=
  ⟨issues_tiled 3 _ rfl, by decide, by decide, rfl, rfl, fun _ _ => rfl, rfl, by decide, issues_by rfl, settled⟩
/-- The checks of R267 pass for a shape of each operation, in both M slots, and a stochastic one draws. -/
theorem witness_MatrixIssueComplete :
    let s := tiled fun a => { a with t := tilesOf }
    let t := withCur s fun c => { c with slot := 5 }
    let ok (s : State) (slot opc : Nat) (d a b : Bool) (f : FM) : Prop :=
      mCheck (s.atSlot slot) s.cur.core opc f.fn (mTr f) (mTile (s.atSlot slot) d f.td) (mTile (s.atSlot slot) a f.ta)
        (mTile (s.atSlot slot) b f.tb) (matesClash s.cur || storeClash s.cur slot) false = none
    Issues 4 0 s ∧ 4 = (if s.cur.slot = 5 then 5 else 4) ∧ Issues 5 0 t ∧ 5 = (if t.cur.slot = 5 then 5 else 4) ∧
    Draws s (mRm (fm 0 1 2 3)) s (fun _ => 0) ∧ ok s 4 1 false false true (fm 0 0 0 6) ∧ ok s 4 2 true true false (fm 0 1 2 0) ∧
    ok s 4 3 true true false (fm 0 1 4 0) ∧ ok s 4 4 true true false (fm 0 1 2 0) ∧ ok s 4 5 true true true (fm 3 1 2 3) ∧
    ok s 4 6 true true false (fm 0 1 2 0) ∧ ok s 4 7 true false false (fm 0 1 0 0) ∧ ok s 4 8 true true false (fm 0 1 2 0) ∧
    ok s 4 10 true true false (fm 0 5 7 0) ∧ ok t 5 7 true false false (fm 0 1 0 0) ∧
    ∃ x u, Draws (tiled id) (mRm ⟨0, 0, 1, 2, 3, 0, 0, some 0xA000003F⟩) x u :=
  ⟨issues_tiled 4 _ rfl, rfl, issues_by rfl, rfl, draws_none _ _ (by decide), settled, settled, settled,
    settled, settled, settled, settled, settled, settled, settled, _, _, draws_sto⟩
/-- B of two rows at 0x1000, no handle and handle 0 in s4. -/
theorem witness_MvsIssueComplete :
    let s := tiled fun a => { a with t := tilesOf, s := [(3, 0x1000)] }
    let f : FM := ⟨0, 0, 1, 8, 9, 0, 0, some 0x00000103⟩
    let seen := reads (s.atSlot 4) [mSr f, mHr f]
    s.cur.slot ≠ 5 ∧ Issues 4 f.g s ∧ Draws s (mRm f) s (fun _ => 0) ∧ mHr f = 4 ∧
    mCheck (s.atSlot 4) s.cur.core 9 f.fn (mTr f) (mTile (s.atSlot 4) true f.td) (mTile (s.atSlot 4) true f.ta) (mTile (s.atSlot 4) true f.tb)
      (matesClash s.cur || storeClash s.cur 4) false = none ∧
    (s.srcS 4 (mSr f)).toNat % 2048 = 0 ∧ seen.anyForm ⟨.hbm, 0⟩ 2176 = false ∧
    mvsPieces seen 0x1000 (mvsExtent (tileOf (s.curCore.live.treg 9) 0)) = .ok ([⟨⟨.hbm, 0⟩, 2176⟩], [placedPage]) ∧
    addCheck (s.corePart s.cur.core) (s.corePart s.cur.core).hasMill 0 1 = none :=
  ⟨by decide, issues_tiled 4 _ rfl, draws_none _ _ (by decide), by decide, settled, by decide, by decide, ok_of settled, settled⟩
/-- A context's commands, and the controller's inside MCRAM, may be held. -/
theorem holdable : (∀ e : ECmd, e.core ≠ 768 → Holdable e) ∧
    Holdable { cmdOf .cpy .held with core := 768, reads := [(0xFFFF0, 16)], writes := [(0, 16)] } :=
  ⟨fun _ h k => absurd k h, fun _ => by decide⟩
/-- No handle, and handle 0; one descriptor; one replica, named by a table in LOCAL. holdable meets the premise on the regions. -/
theorem witness_CopiesComplete :
    let s := placedS [(2, 0x1000), (4, 0)]
    let d := setLE (setLE (setLE (zeros 64) 16 4 (2 ^ 24)) 20 4 65536) 40 9 (1 + 2 ^ 64)
    let t := withHbm s 0 d
    let ps : List Piece := [⟨⟨.hbm, 0⟩, 64⟩]
    let m0 := tiled fun a => { a with s := [(2, 0x1000), (3, loc 0)] }
    let m : State := { m0 with banks := m0.banks.store 0 (natLE 8 0x1080) }
    let qs : List Piece := [⟨⟨.bank, 0⟩, 64⟩]
    let table := loadWhole (keepPages (reads (m.atSlot 6) [2, 3]) 0 []) 0 qs
    let u := noteChecks (noteTouched table.2 qs false) 0 qs
    Issues 6 0 s ∧ s.cur.core ≠ 768 ∧ handleAt s 63 5 none ∧ handleAt s 4 5 (some 0) ∧ heldCount (seenAt s [2, 3] 63) 0 0 < 16 ∧
    (Issues 6 0 t ∧ Reaches (reads (t.atSlot 6) [2]) 0x1000 64 64 .read false ps [placedPage] ∧
      (let l := loadWhole (keepPages (reads (t.atSlot 6) [2]) 0 [placedPage]) 0 ps
       let e := l.1
       fieldLE e 16 4 = 2 ^ 24 ∧ fieldLE e 20 4 = 65536 ∧ fieldLE e 48 1 = 1 ∧ allZero (e.drop 49) = true ∧
         heldCount (noteChecks (noteTouched l.2 ps false) 0 ps) 0 0 < 16 ∧
         addCheck (t.corePart 0) (t.corePart 0).hasMill (fieldLE e 32 8) (fieldLE e 40 8) = none)) ∧
    (Issues 6 0 m ∧ isLocal 0xFFFFFFFFFF800000 = true ∧ (m.srcS 6 3).toNat = 0xFFFFFFFFFF800000 ∧
      Reaches (reads (m.atSlot 6) [2, 3]) 0xFFFFFFFFFF800000 64 64 .read false qs [] ∧
      (let rs := replicaList table.1
       rs = [0x1080] ∧ Reaches u 0x1000 128 128 .read false [⟨⟨.hbm, 0⟩, 128⟩] [placedPage] ∧ replicaFault (keepPages u 0 [placedPage]) 0 [] rs = none)) :=
  ⟨issues_placedS 6 _, by decide, .inl ⟨rfl, rfl⟩, .inr settled, settled,
    ⟨issues_by rfl, ok_of settled, settled⟩,
    issues_by rfl, by decide, by decide, ok_of settled, settled, ok_of settled, settled⟩
/-- A SEND of one destination, an ARM of one row in slot 1023, a DISARM of an armed slot. -/
theorem witness_DeliveryCommandsComplete :
    let s := placedS [(2, 0x1000), (3, 1023)]
    let sd := setLE (setLE (zeros 192) 18 1 1) 48 8 1
    let a := withHbm s 0 sd
    let ps : List Piece := [⟨⟨.hbm, 0⟩, 192⟩]
    let v := loadWhole (keepPages (reads (a.atSlot 6) [2]) 0 [placedPage]) 0 ps
    let t := noteChecks (noteTouched v.2 ps false) 0 ps
    let d0 := v.1
    let ad := setLE (setLE (setLE (setLE (zeros 64) 0 8 0x1000) 8 4 128) 32 8 0x1400) 40 8 0x1800
    let b := withHbm s 0 ad
    let qs : List Piece := [⟨⟨.hbm, 0⟩, 64⟩]
    let w := loadWhole (keepPages (reads (b.atSlot 6) [2, 3]) 0 [placedPage]) 0 qs
    let c := s.setDie 0 { s.die 0 with armed := [(1023, some (armedAt 0x1000))] }
    Issues 6 0 a ∧ a.cur.core ≠ 768 ∧ Reaches (reads (a.atSlot 6) [2]) 0x1000 192 64 .read false ps [placedPage] ∧ sendOk d0 = true ∧
    sendAdd d0 = false ∧ DrawsCommand t (sendSto d0) t 0 ∧
    Issues 6 0 b ∧ Reaches (reads (b.atSlot 6) [2, 3]) 0x1000 64 64 .read false qs [placedPage] ∧ bits 1023 31 10 = 0 ∧ (b.srcS 6 3).toNat = 1023 ∧
    armOk w.1 = true ∧ addCheck (b.corePart 0) (b.corePart 0).hasMill (armRingctr w.1) 1 = none ∧
    addCheck (b.corePart 0) (b.corePart 0).hasMill (armDonectr w.1) 1 = none ∧ handleAt b 63 0 none ∧
    slotTaken (noteChecks (noteTouched w.2 qs false) 0 qs) (coreDie 0) (1023 % 1024) = false ∧
    Issues 6 0 c ∧ handleAt c 63 0 none ∧ slotOwned (seenAt c [3] 63) (coreDie 0) 1023 (c.curCore.job.getD 0) = true :=
  ⟨issues_by rfl, by decide, ok_of settled, settled, settled, .inl settled,
    issues_by rfl, ok_of settled, by decide, by decide, settled, settled, settled, .inl ⟨rfl, rfl⟩,
    settled, issues_by rfl, .inl ⟨rfl, rfl⟩, settled⟩
/-- CLOAD into slot 63, COLL of instance 2^32 - 1 on slot 63. -/
theorem witness_GraphCommandsComplete :
    let s := placedS [(2, 0x1000), (3, 63)]
    let a := withHbm s 0 graphHead
    let ps : List Piece := [⟨⟨.hbm, 0⟩, 64⟩]
    let v := loadWhole (keepPages (reads (a.atSlot 6) [2, 3]) 0 [placedPage]) 0 ps
    let g : Graph := { job := 1, image := graphHead ++ zeros 48 }
    let r := placedS [(2, 0x1000), (3, 0xFFFFFFFF0000003F)]
    let c := r.setDie 0 { r.die 0 with graphs := [(63, some g)] }
    let qs : List Piece := [⟨⟨.hbm, 0⟩, 256⟩]
    let w := loadWhole (keepPages (reads (c.atSlot 6) [2, 3]) 0 [placedPage]) 0 qs
    let t := noteChecks (noteTouched w.2 qs false) 0 qs
    let d := collStep t w.1
    Issues 6 0 a ∧ a.cur.core ≠ 768 ∧ (a.srcS 6 3).toNat = 63 ∧ Reaches (reads (a.atSlot 6) [2, 3]) 0x1000 64 64 .read false ps [placedPage] ∧
    graphHeadOk v.1 = true ∧ handleAt a 63 0 none ∧ graphTaken (noteChecks (noteTouched v.2 ps false) 0 ps) (coreDie 0) 63 1 = false ∧
    Issues 6 0 c ∧ bits 0xFFFFFFFF0000003F 31 6 = 0 ∧ (c.srcS 6 3).toNat = 0xFFFFFFFF0000003F ∧
    Reaches (reads (c.atSlot 6) [2, 3]) 0x1000 256 64 .read false qs [placedPage] ∧
    (∀ k, k < 8 → (collRegion d k).2 = 0 ∨ (collRegion d k).1 + (collRegion d k).2 ≤ 2 ^ 64) ∧
    t.graphSlot (coreDie 0) 63 = some g ∧ g.job = 1 ∧ 0xFFFFFFFF0000003F / 2 ^ 32 ≠ lastInstance t (coreDie 0) 63 1 g ∧ DrawsCommand t (graphSto g.image) t 0 :=
  ⟨issues_by rfl, by decide, by decide, ok_of settled, settled, .inl ⟨rfl, rfl⟩, settled,
    issues_by rfl, by decide, by decide, ok_of settled, settled, settled, rfl, settled,
    .inl settled⟩
/-- An amount of 2^62 - 1 on handle 0, two handles of CADDM, a claim that ends at 2^64. -/
theorem witness_CounterAndClaimCommandsComplete :
    let s := placedS [(2, 0), (3, 0x3FFFFFFFFFFFFFFF)]
    let t := placedS [(2, 0xFFFFFFFFFFFFFFFF), (3, 1)]
    Issues 6 0 s ∧ (f3 0 1 2 3).fn = 0 ∧ (f3 1 1 2 3).fn ≠ 0 ∧ s.cur.core ≠ 768 ∧
    addCheck (s.corePart 0) (s.jobMill 0) 0 ((s.srcS 6 3).toNat + cImm (f3 0 1 2 3)) = none ∧ isRemote 0 = false ∧
    caddmHandles (s.corePart 0) (s.jobMill 0) 0 0x3FFFFFFFFFFFFFFF ((List.range 16).filter fun j => (0x8001).testBit j) = .ok [0, 15] ∧
    Issues 6 0 t ∧ 1 ≤ (t.srcS 6 3).toNat ∧ (t.srcS 6 2).toNat + (t.srcS 6 3).toNat ≤ 2 ^ 64 ∧
    claimConflict (t.part 0) (some 1) (t.srcS 6 1) (2 ^ 64 - 1) 1 = false ∧ (t.part 0).claims.length < 1024 ∧ t.cur.core ≠ 768 ∧
    (firmS []).cur.core = 768 ∧ Issues 6 0 (firmS []) ∧ ∃ h, isRemote h = false ∧ addCheck (s.corePart 0) (s.jobMill 0) h 1 = none :=
  ⟨issues_placedS 6 _, rfl, by decide, by decide, settled, by decide, ok_of settled, issues_placedS 6 _, settled, settled, settled, settled, settled,
    rfl, issues_firm 6 _, 0, settled⟩
/-- A flag waiter on a LOCAL counter, an event at 0x1000, vector 2047, a forward of 2^62 - 1. -/
theorem witness_FlagsComplete :
    let s := withPart (placedS []) fun p => { p with desc := setLE (setLE p.desc 84 4 1) 144 4 1 }
    let chk (kind h x y : Nat) : Prop := watchCheck (reads (s.atSlot 7) [2, 3]) 0 kind h x y = none
    Issues 7 0 s ∧ (∀ n, n < 16 → (0xFFFF : Nat).testBit n = true → s.curCore.fto.getLsbD n = true ∨ tget 0 s.curCore.fhome n = 0) ∧
    chk 0 0 0 0 ∧ chk 1 (hostHandle 0) 0x1000 7 ∧ chk 2 (hostHandle 0) 2047 0 ∧ chk 3 (hostHandle 0) 1 (2 ^ 62 - 1) :=
  ⟨issues_by rfl, fun n _ _ => .inr rfl, settled⟩
/-- RM = STO under DET without a claim, and with no word left of the range. -/
theorem witness_SlotTraps_draws :
    let det := withJob (tiled id) fun j => { j with record := setLE j.record 15 1 2 }
    let end_ := tiled fun a => { a with rngNext := 1 }
    (Issues 1 0 det ∧ Issues 3 0 det ∧ (det.coreJob det.cur.core).det = true ∧ det.curCore.rngClaim = false) ∧
    (Issues 1 0 end_ ∧ Issues 3 0 end_ ∧ (end_.coreJob end_.cur.core).det = false ∧ end_.curCore.rngEnd ≤ end_.curCore.live.rngNext) ∧
    vRm ⟨0, 1, 1, 2, 3, some 0x14000000⟩ = 5 ∧ xRm ⟨0, 1, 1, 2, 0, some 0xA0000000⟩ = 5 :=
  ⟨⟨issues_by rfl, issues_by rfl, settled⟩, ⟨issues_by rfl, issues_by rfl, settled⟩, by decide⟩
/-- Each step of R246 at the edge of its range, and of the controller's ranges. -/
theorem witness_SlotTraps_access :
    let s := placed id
    let roles (s : State) : State := s.setMill 0 { s.mill 0 with bankrole := 0x4000000000000000 }
    let host := s.onCore 0 fun x => { x with tlb := [{ placedPage with host := true, addr := 0x9000 }, { placedPage with va := 0x9000, host := true, ats := true }] }
    let maps := withPart host fun p => { p with spaces := [(0, setLE (zeros 64) 12 1 3)] }
    let cuts (s : State) (va : Nat) := translateCuts s (s.core 0).tlb 0 (s.coreJob 0).pid (s.coreJob 0).aspace .read (pageCuts (8 / 4096 + 2) va 8)
    (spanCanonical (2 ^ 56) 8 = false ∧ spanCanonical (2 ^ 56 - 4) 8 = false ∧ (0 : Nat) ≠ 768 ∧ (s.core 0).live.priv_ = 0) ∧
    (spanCanonical 0xFFFFFFFFFF7FFFFC 8 = true ∧ isLocal 0xFFFFFFFFFF7FFFFC ≠ isLocal (0xFFFFFFFFFF7FFFFC + 8 - 1)) ∧
    (spanCanonical 0xFFFFFFFFFFFFFFF8 8 = true ∧ isLocal 0xFFFFFFFFFFFFFFF8 = true ∧ isLocal (0xFFFFFFFFFFFFFFF8 + 8 - 1) = true ∧
      aligned 0xFFFFFFFFFFFFFFF8 16 = false ∧ aligned 0xFFFFFFFFFFFFFFF8 8 = true ∧
      rolesAdmit ((roles s).mill 0).bankrole .core (0xFFFFFFFFFFFFFFF8 - localBase) 8 = false ∧
      rolesAdmit (s.mill 0).bankrole .core (0xFFFFFFFFFFFFFFF8 - localBase) 8 = true ∧
      inBounds (s.core 0).lbound (0xFFFFFFFFFFFFFFF8 - localBase) 8 = false) ∧
    (isLocal 0xFFFFFFFEFFFFFFFF = false ∧ isMillQual 0xFFFFFFFEFFFFFFFF = true ∧ spanCanonical 0xFFFFFFFEFFFFFFFF 1 = true) ∧
    (spanCanonical 0x1FF8 8 = true ∧ isLocal 0x1FF8 = false ∧ isLocal (0x1FF8 + 8 - 1) = false ∧ isMillQual 0x1FF8 = false ∧
      isMillQual (0x1FF8 + 8 - 1) = false ∧ aligned 0x1FF8 16 = false ∧ aligned 0x1FF8 8 = true ∧ isSvc (s.corePart 0) 0x1FF8 = false ∧
      isSvc (s.corePart 0) (0x1FF8 + 8 - 1) = false ∧ isSvc (s.corePart 0) (0x2000 + 8 - 1) = false) ∧
    (∃ e, cuts s 0x2000 = .error e) ∧ (∃ r, cuts maps 0x1FF8 = .ok r ∧ decide (∃ p ∈ r.1, p.loc.sp = .host) = true) ∧
    (spanCanonical (2 ^ 20) 8 = true ∧ isMcram (2 ^ 20) = false ∧ isCtl (2 ^ 20) = false) ∧
    (spanCanonical 0xFFFF4 8 = true ∧ isMcram 0xFFFF4 = true ∧ isMcram (0xFFFF4 + 8 - 1) = true ∧ aligned 0xFFFF4 8 = false) :=
  ⟨settled, settled, settled, settled, settled, err_of settled, ok_with settled, settled⟩
/-- Unmapped pages, addresses out of form, and what ACCV turns away. -/
theorem witness_SlotTraps_loads :
    let s := placed fun a => { a with s := [(2, 0x2000)], p := [(1, 3)] }
    let f : F3 := ⟨0, 0, 1, 2, 0, some 0x08000000⟩
    let seen := reads (s.atSlot 2) [2, 0]
    let m := s.curCore.live.pred (lMsk f)
    let off := placedS [(2, 0x0100000000000000)]
    let a := placedS [(2, 0x1F00)]
    let three (x : State) := reads (x.atSlot 2) [2, 0, 1]
    let dry : State := { a with hbmForm := [(0xF80 / 128, 1)] }
    let det := withJob a fun j => { j with record := setLE j.record 15 1 2 }
    let c := firmS [(2, 0xFFFFFFFD00001000)]
    Issues 2 f.g s ∧ (∃ e, coreAccess seen 0 0x2000 8 0 .read false = .error e) ∧ (∃ e, coreAccess (three s) 0 0x2000 8 0 .write false = .error e) ∧
    (∃ e, vecAccess seen 0 4 .read (activeElems m 32 fun j => 0x2000 + 4 * j) = .error e) ∧
    (∃ e, vecAccess (reads (s.atSlot 2) [1, 2, 0]) 0 4 .write (activeElems m 32 fun j => 0x2000 + 4 * j) = .error e) ∧
    (∃ e, coreAccess (three s) 0 0x2000 8 8 .both true = .error e) ∧ (∃ e, coreAccess (three s) 0 0x2000 256 256 .both true = .error e) ∧
    Issues 2 0 off ∧ spanCanonical (0x0100000000000000 / 128 * 128) (128 * (0 + 1)) = false ∧ canonical 0x0100000000000000 = false ∧
    (Issues 2 0 dry ∧ Reaches (three dry) 0x1F00 256 256 .both true [⟨⟨.hbm, 0xF00⟩, 256⟩] [placedPage] ∧
      formBlocks (keepPages (three dry) 0 [placedPage]) 0 ⟨.hbm, 0xF00⟩ 256 = true) ∧
    (Issues 2 0 det ∧ Reaches (three det) 0x1F00 256 256 .both true [⟨⟨.hbm, 0xF00⟩, 256⟩] [placedPage] ∧
      formBlocks (keepPages (three det) 0 [placedPage]) 0 ⟨.hbm, 0xF00⟩ 256 = false ∧ (det.coreJob det.cur.core).det = true ∧ ltInt 1 = false) ∧
    (Issues 2 0 c ∧ Reaches (three c) 0xFFFFFFFD00001000 256 256 .both true [⟨⟨.ctl, 0x1000⟩, 256⟩] []) ∧
    ({ code := cPageHost, info := 0 } : Flt).atsPage = none ∧ ({ code := cPageHost, info := 0, atsPage := some 0x1000 } : Flt).atsPage = some 0x1000 :=
  ⟨issues_by rfl, err_of settled, err_of settled, err_of settled, err_of settled, err_of settled, err_of settled, issues_by rfl, settled, settled,
    ⟨issues_by rfl, ok_of settled, settled⟩, ⟨issues_by rfl, ok_of settled, settled⟩, ⟨issues_by rfl, ok_of settled⟩, settled⟩
/-- LDK at a page, at an odd address and past the bounds; SEAL under key 128, under a key not held, and past LOCAL. -/
theorem witness_SlotTraps_scales :
    let s := placed fun a => { a with s := [(2, 0x1000), (3, loc 4), (5, loc 0), (6, 128), (7, 127)] }
    let t := withPart (tiled fun a => { a with s := [(4, 5)], t := [(1, tdesc 0xFFFF 1 2 128 3 0 0)] }) fun p => { p with desc := setLE p.desc 32 1 0x20 }
    let op : MOp :=
      { slot := 3, opc := 16, fn := 0, td := ⟨1, t.curCore.live.treg 1⟩, key := 5, iv := t.srcS 3 3, pc := t.cur.pc, inst := t.cur.inst }
    Issues 3 0 s ∧ isLocal (s.srcS 3 2).toNat = false ∧ isLocal (s.srcS 3 3).toNat = true ∧ (s.srcS 3 3).toNat % 8 ≠ 0 ∧
    isLocal (s.srcS 3 5).toNat = true ∧ (s.srcS 3 5).toNat % 8 = 0 ∧
    (∃ e, coreAccess (reads (s.atSlot 3) [5, 0]) 0 0xFFFFFFFFFF800000 8 8 .read false = .error e) ∧
    (∃ e, coreAccess (reads (s.atSlot 3) [5, 0]) 0 0xFFFFFFFFFF800000 8 8 .write false = .error e) ∧
    128 ≤ (s.srcS 3 6).toNat ∧ (s.srcS 3 7).toNat < 128 ∧ (s.corePart s.cur.core).hasKey (s.srcS 3 7).toNat = false ∧
    Issues 3 0 t ∧ sealCheck (reads (t.atSlot 3) [4, 3]) 0 op (tileOf (t.curCore.live.treg 1) 0).outside = some (cTileShape, 0) :=
  ⟨issues_by rfl, settled, settled, settled, settled, settled, err_of settled, err_of settled, settled, settled, settled, issues_by rfl, settled⟩
/-- A check that is refused in a given way, by evaluation. -/
theorem error_of {ε α : Type} [DecidableEq ε] {x : Except ε α} {e : ε} (h : (match x with | .error y => decide (y = e) | .ok _ => false) = true) :
    x = .error e := by
  cases x with
  | error y => simp at h; rw [h]
  | ok y => simp at h
/-- Tiles in banks of role SCRATCH, a format and a shape that are refused, RM = STO under DET and at the end of the range; MVS at an odd
address, at a page that is not mapped, of a line with ciphertext, and with a handle that is not the partition's. -/
theorem witness_SlotTraps_matrix :
    let s := placed fun a => { a with t := tilesOf }
    let bad (opc fn td ta tb : Nat) (d a b : Bool) : Prop :=
      (mCheck (s.atSlot 4) 0 opc fn false (mTile (s.atSlot 4) d td) (mTile (s.atSlot 4) a ta) (mTile (s.atSlot 4) b tb)
        (matesClash s.cur || storeClash s.cur 4) false).isSome = true
    let sto : FM := ⟨0, 1, 1, 2, 0, 0, 0, some 0xA000003F⟩
    let cvt (x : State) : Prop :=
      mCheck (x.atSlot 4) 0 6 1 (mTr sto) (mTile (x.atSlot 4) true 1) (mTile (x.atSlot 4) true 2) (mTile (x.atSlot 4) false 0)
        (matesClash x.cur || storeClash x.cur 4) false = none
    let t := tiled fun a => { a with t := tilesOf }
    let det := withJob t fun j => { j with record := setLE j.record 15 1 2 }
    let end_ := tiled fun a => { a with t := tilesOf, rngNext := 1 }
    Issues 4 0 s ∧ 4 = (if s.cur.slot = 5 then 5 else 4) ∧ bad 1 0 0 0 6 false false true ∧ bad 2 1 1 2 0 true true false ∧
    bad 3 1 1 4 0 true true false ∧ bad 4 1 1 2 0 true true false ∧ bad 5 3 1 2 3 true true true ∧ bad 6 1 1 2 0 true true false ∧
    bad 7 0 1 0 0 true false false ∧ bad 8 1 1 2 0 true true false ∧ bad 9 0 1 8 9 true true true ∧ bad 10 0 5 7 0 true true false ∧
    mRm sto = 5 ∧ Issues 4 0 det ∧ cvt det ∧ (det.coreJob 0).det = true ∧ det.curCore.rngClaim = false ∧
    Issues 4 0 end_ ∧ cvt end_ ∧ (end_.coreJob 0).det = false ∧ end_.curCore.rngEnd ≤ end_.curCore.live.rngNext ∧
    mFormatOk 1 0 false (tileOf 0 0) (tileOf 0 0) (tileOf (tdesc 0 1 2 32 7 0 0) 0) = false ∧
    (mFormatOk 7 0 false (tileOf (tdesc 0xFFFF 1 2 32 7 0 0) 0) (tileOf 0 0) (tileOf 0 0) = true ∧
      (mLocals 7 (tileOf (tdesc 0xFFFF 1 2 32 7 0 0) 0) (tileOf 0 0) (tileOf 0 0)).any Tile.outside = true) :=
  ⟨issues_by rfl, settled, settled, settled, settled, settled, settled, settled, settled, settled, settled, settled, by decide, issues_by rfl,
    settled, settled, settled, issues_by rfl, settled⟩
theorem witness_SlotTraps_mvs :
    let s (va h : Nat) := tiled fun a => { a with t := tilesOf, s := [(3, BitVec.ofNat 64 va), (4, BitVec.ofNat 64 h)] }
    let f : FM := ⟨0, 0, 1, 8, 9, 0, 0, some 0x00000103⟩
    let seen (x : State) := reads (x.atSlot 4) [mSr f, mHr f]
    let n := mvsExtent (tileOf ((s 0 0).curCore.live.treg 9) 0)
    let dry : State := { s 0x1000 0 with hbmForm := [(0, 1)] }
    (s 0 0).cur.slot ≠ 5 ∧ Issues 4 f.g (s 0x1001 0) ∧ Draws (s 0x1001 0) (mRm f) (s 0x1001 0) (fun _ => 0) ∧
    mCheck ((s 0 0).atSlot 4) 0 9 f.fn (mTr f) (mTile ((s 0 0).atSlot 4) true f.td) (mTile ((s 0 0).atSlot 4) true f.ta)
      (mTile ((s 0 0).atSlot 4) true f.tb) (matesClash (s 0 0).cur || storeClash (s 0 0).cur 4) false = none ∧
    0x1001 % 2048 ≠ 0 ∧ 0x2000 % 2048 = 0 ∧ (∃ e, mvsPieces (seen (s 0x2000 0)) 0x2000 n = .error e) ∧
    (mvsPieces (seen dry) 0x1000 n = .ok ([⟨⟨.hbm, 0⟩, 2176⟩], [placedPage]) ∧ (seen dry).anyForm ⟨.hbm, 0⟩ 2176 = true) ∧
    (seen (s 0x1000 0)).anyForm ⟨.hbm, 0⟩ 2176 = false ∧ mHr f = 4 ∧
    addCheck ((s 0x1000 0).corePart 0) ((s 0x1000 0).corePart 0).hasMill (mkHandle 1 0 0) 1 = some cAccess :=
  ⟨by decide, issues_by rfl, draws_none _ _ (by decide), settled, by decide, by decide, err_of settled, ⟨ok_of settled, settled⟩, settled⟩
/-- A handle that the partition does not hold, descriptors at a page that is not mapped, and descriptors and slots that are refused. -/
theorem witness_SlotTraps_commands :
    let bad := mkHandle 1 0 0
    let s := placedS [(2, 0x2000), (3, loc 4), (4, BitVec.ofNat 64 bad), (5, 0), (6, 64), (7, 1024)]
    let one := reads (s.atSlot 6) [2]
    let fails (n : Nat) : Prop := ∃ e, coreAccess one 0 0x2000 n 64 .read false = .error e
    let d := placedS [(2, 0x1000), (3, loc 0), (5, 0)]
    let at_ (n : Nat) (codes : List Nat) (bs : List Byte) : Prop :=
      Reaches (reads ((withHbm d 0 bs).atSlot 6) codes) 0x1000 n 64 .read false [⟨⟨.hbm, 0⟩, n⟩] [placedPage]
    let part := s.corePart 0
    let checked (h : Nat) : Prop := addCheck part part.hasMill h 1 = some cAccess
    let cp := setLE (setLE (setLE (setLE (zeros 64) 16 4 1) 20 4 1) 32 8 bad) 40 9 (1 + 2 ^ 64)
    let snd := setLE (zeros 192) 17 1 5
    let popped := withCur (withHbm d 0 snd) fun c => { c with pops := 1 }
    let arm := setLE (setLE (setLE (zeros 64) 0 8 0x1000) 8 4 128) 48 8 bad
    let armed := d.setDie 0 { d.die 0 with armed := [(0, some (armedAt 0x1000))] }
    let g (job inst : Nat) : Graph := { job := job, image := graphHead ++ zeros 48, last := inst }
    let graphs (x : Graph) := d.setDie 0 { d.die 0 with graphs := [(0, some x)] }
    let past := setLE (zeros 256) 128 16 (2 ^ 64 - 1 + 2 * 2 ^ 64)
    Issues 6 0 s ∧ Issues 6 0 d ∧ s.cur.core = 0 ∧ (4 : Nat) ≠ 63 ∧ checked bad ∧ fails 64 ∧ fails 192 ∧ fails 256 ∧ (s.srcS 6 5).toNat = 0 ∧
    (isLocal (0xFFFFFFFFFF800000 + 4) = true ∧ ∃ e, coreAccess (reads (s.atSlot 6) [2, 3]) 0 0xFFFFFFFFFF800004 64 64 .read false = .error e) ∧
    (at_ 64 [2] (zeros 64) ∧ fieldLE (zeros 64) 16 4 = 0) ∧
    (at_ 64 [2] cp ∧ fieldLE cp 16 4 = 1 ∧ fieldLE cp 20 4 = 1 ∧ fieldLE cp 48 1 = 1 ∧ allZero (cp.drop 49) = true ∧ checked (fieldLE cp 32 8)) ∧
    (at_ 192 [2] snd ∧ sendSto snd = true ∧ 0 < popped.cur.pops ∧ at_ 192 [2] (zeros 192) ∧ sendSto (zeros 192) = false ∧
      sendOk (zeros 192) = false) ∧
    (at_ 64 [2, 5] arm ∧ bits 1024 31 10 ≠ 0 ∧ bits 0 31 10 = 0 ∧ armOk arm = true ∧ checked (armRingctr arm) ∧
      at_ 64 [2, 5] (setLE arm 24 1 3) ∧ armOk (setLE arm 24 1 3) = false ∧ slotTaken armed (coreDie 0) (0 % 1024) = true) ∧
    slotOwned (reads (d.atSlot 6) [5]) (coreDie 0) 0 (d.curCore.job.getD 0) = false ∧
    (64 ≤ (s.srcS 6 6).toNat ∧ at_ 64 [2, 5] (zeros 64) ∧ graphHeadOk (zeros 64) = false ∧ at_ 64 [2, 5] graphHead ∧ graphHeadOk graphHead = true ∧
      graphTaken (graphs (g 2 0)) (coreDie 0) 0 1 = true) ∧
    (bits 64 31 6 ≠ 0 ∧ bits 0 31 6 = 0 ∧ at_ 256 [2, 5] past ∧ 2 ^ 64 < (collRegion (collStep d past) 0).1 + (collRegion (collStep d past) 0).2 ∧
      (collRegion (collStep d past) 0).2 ≠ 0 ∧ d.graphSlot (coreDie 0) 0 = none ∧ (graphs (g 2 0)).graphSlot (coreDie 0) 0 = some (g 2 0) ∧
      (g 2 0).job ≠ 1 ∧ lastInstance (graphs (g 1 7)) (coreDie 0) 0 1 (g 1 7) = 7 ∧ slotSto d (coreDie 0) 0 1 = false) :=
  ⟨issues_by rfl, issues_by rfl, settled, settled, settled, err_of settled, err_of settled, err_of settled, settled,
    ⟨settled, err_of settled⟩, ⟨ok_of settled, settled⟩, ⟨ok_of settled, settled⟩,
    ⟨ok_of settled, settled, settled, ok_of settled, settled⟩, ⟨ok_of settled, settled, settled, settled, settled, ok_of settled, settled⟩, settled,
    ⟨settled, ok_of settled, settled, ok_of settled, settled⟩, settled, settled, ok_of settled, settled⟩
/-- A handle of another node adds, but CADDF of it is refused. -/
theorem remote_handle : ∃ h, isRemote h = true ∧ addCheck ((placed id).corePart 0) ((placed id).jobMill 0) h 1 = none := by
  have k : ∀ h ∈ [0x8000000400000000, 0x8000002400000000], hKind h = 4 ∧ handleOk h = true ∧ isWritePtr h = false := by decide
  rcases Nat.eq_zero_or_pos Config.ownNode with e | e
  · have n : hNode 0x8000002400000000 ≠ Config.ownNode := by rw [e]; decide
    exact ⟨0x8000002400000000, by simp [isRemote, k, n], by simp [addCheck, ownHandle, k, n, firstFail, handleIn]⟩
  · have n : hNode 0x8000000400000000 ≠ Config.ownNode := by rw [show hNode 0x8000000400000000 = 0 from rfl]; omega
    exact ⟨0x8000000400000000, by simp [isRemote, k, n], by simp [addCheck, ownHandle, k, n, firstFail, handleIn]⟩
theorem witness_SlotTraps_counters :
    let bad := mkHandle 1 0 0
    let s := placedS [(2, 0x1000), (3, loc 0), (4, BitVec.ofNat 64 bad)]
    let p := s.corePart 0
    let qs : List Piece := [⟨⟨.bank, 0⟩, 64⟩]
    let m (va : Nat) : State := let t := tiled fun a => { a with s := [(2, 0x1000), (3, loc 0)] }; { t with banks := t.banks.store 0 (natLE 8 va) }
    let got (x : State) := loadWhole (keepPages (reads (x.atSlot 6) [2, 3]) 0 []) 0 qs
    let u (x : State) := noteChecks (noteTouched (got x).2 qs false) 0 qs
    let full := withPart s fun p => { p with claims := List.replicate 1024 ⟨9, 0, 1, 2, some 0, false⟩ }
    let both := withPart s fun p => { p with desc := setLE p.desc 5 1 0x22, claims := [⟨9, 5, 1, 2, some 0, false⟩] }
    Issues 6 0 s ∧ addCheck p (s.jobMill 0) bad (0 + 1) = some cAccess ∧ caddmHandles p (s.jobMill 0) bad 0 [0] = .error (cAccess, bad) ∧
    isLocal 0x1000 = false ∧ isLocal 0xFFFFFFFFFF800000 = true ∧
    (Reaches (reads ((m 0).atSlot 6) [2, 3]) 0xFFFFFFFFFF800000 64 64 .read false qs [] ∧ replicaList (got (m 0)).1 = []) ∧
    (Reaches (reads ((m 0x1081).atSlot 6) [2, 3]) 0xFFFFFFFFFF800000 64 64 .read false qs [] ∧ replicaList (got (m 0x1081)).1 = [0x1081] ∧
      (∃ e, coreAccess (u (m 0x1081)) 0 0x2000 128 128 .read false = .error e) ∧
      Reaches (u (m 0x1081)) 0x1000 128 128 .read false [⟨⟨.hbm, 0⟩, 128⟩] [placedPage] ∧
      replicaFault (keepPages (u (m 0x1081)) 0 [placedPage]) 0 [] [0x1081] = some { code := cAlign, info := 0x1081 }) ∧
    claimConflict (both.part 0) (some 1) 9 5 1 = true ∧ claimConflict (full.part 0) (some 1) 9 5 1 = false ∧ 1024 ≤ (full.part 0).claims.length :=
  ⟨issues_by rfl, settled, error_of settled, settled, settled, ⟨ok_of settled, settled⟩,
    ⟨ok_of settled, settled, err_of settled, ok_of settled, settled⟩, settled⟩
/-- Each refusal of WATCH. -/
theorem witness_SlotTraps_watch :
    let s := placedS []
    let seen := reads (s.atSlot 7) [2, 3]
    let host := withPart s fun p => { p with desc := setLE p.desc 84 4 1 }
    let full := withPart s fun p => { p with reserved := [(waiterPool 0, 32)] }
    Issues 7 0 s ∧ watchCheck seen 0 0 (7 * 2 ^ 61) 0 0 ≠ none ∧ handleOk (7 * 2 ^ 61) = false ∧ hKind 0x8000000400000000 = 4 ∧ hKind 0 = 0 ∧
    hPkgMill 0 = 0 / 2 ∧ hPkgMill (localHandle 2 0) ≠ 0 / 2 ∧
    (watchHandleOk 0 0 (mkHandle 1 0 0) = true ∧ handleIn (s.corePart 0) (fun _ => true) (mkHandle 1 0 0) = false) ∧
    (∀ kind ∈ [1, 2, 3], watchHandleOk 0 kind (hostHandle 0) = true ∧ handleIn (host.corePart 0) (fun _ => true) (hostHandle 0) = true) ∧
    isLocal 0xFFFFFFFFFF800000 = true ∧ isMillQual 0xFFFFFFFE00000000 = true ∧ isLocal 0x1010 = false ∧ isMillQual 0x1010 = false ∧ 0x1010 % 32 ≠ 0 ∧
    2047 < 2048 ∧ (handleOk (7 * 2 ^ 61) = false ∧ isWritePtr (localHandle 0 24) = true ∧ 2 ^ 62 ≤ 2 ^ 62) ∧
    (watchHandleOk 0 0 0 = true ∧ handleIn (full.corePart 0) (fun _ => true) 0 = true ∧
      waiterFull (reads (full.atSlot 7) [2, 3]) (full.coreJob 0).pid 0 = true) :=
  ⟨issues_by rfl, settled⟩
theorem witness_IssueFrame : (placed id).cur.effs = [] ∧ (1 : Nat) ≠ (placed id).cur.core := by decide
/-- One entry, the last of the drain, and one with another behind it; a store of two bytes. -/
theorem witness_LandingsAndDrainsComplete :
    let e : BufEnt := .write ⟨.hbm, 16⟩ [1, 2] 0
    let s := core3 fun x => { x with drain := [e] }
    let t := core3 fun x => { x with drain := [e, e] }
    let after (s : State) (es : List BufEnt) := performEntry (s.onCore 3 fun x => { x with drain := es }) 3 (s.core 3).drainBy e
    (s.core 3).drain = [e] ∧ ((after s []).core 3).drain = [] ∧ (t.core 3).drain = [e, e] ∧ ((after t [e]).core 3).drain ≠ [] ∧
    s.offers = [] ∧ s.memWf = true ∧ Space.hbm ≠ .ctl :=
  settled
/-- An MMA behind an MVS, an MVS behind an MMA with its command first in line, a byte of an operation's sources, two loads. -/
theorem witness_TileAndIntegrityEventsComplete :
    let s := core3 fun x => { x with tiles := [mop 9, mop 2] }
    let t : State := { core3 fun x => { x with tiles := [mop 2, { mop 9 with cmd := 1 }] } with engines := [cmdOf .mvs .released] }
    let k : LoadCheck := { loc := ⟨.hbm, 0x1000⟩, len := 8, left := 3, again := false }
    let l := core3 fun x => { x with loads := [{ k with loc := ⟨.hbm, 0x2000⟩ }, k] }
    let l2 := core3 fun x => { x with loads := [k], eccAddr := some ⟨.hbm, 0x1007⟩ }
    let b := core3 fun x => { x with loads := [k], tiles := List.replicate 8 (mop 9), staged := [{ mop 2 with orig := 0 }] }
    let w := core3 fun x => { x with window := [{ mop 2 with age := 16 }] }
    ((s.core 3).tiles = [mop 9] ++ mop 2 :: [] ∧ (∀ q ∈ [mop 9], q.opc = 9) ∧ (mop 2).opc ≠ 9) ∧
    ((t.core 3).tiles = [mop 2] ++ { mop 9 with cmd := 1 } :: [] ∧ (∀ q ∈ [mop 2], q.opc ≠ 9) ∧ ({ mop 9 with cmd := 1 } : MOp).opc = 9 ∧
      t.cmd 1 = some (cmdOf .mvs .released) ∧ mayStart t (cmdOf .mvs .released) = true) ∧
    ((∀ q ∈ [mop 9], q.opc = 9 ∨ rangesMeet [(0x800, 1)] q.reads = false) ∧ rangesMeet [(0x800, 1)] (mop 2).reads = true) ∧
    ((l.core 3).loads = [{ k with loc := ⟨.hbm, 0x2000⟩ }] ++ k :: [] ∧
      (∀ q ∈ [({ k with loc := ⟨.hbm, 0x2000⟩ } : LoadCheck)], 0x1007 < q.loc.addr ∨ q.loc.addr + q.len ≤ 0x1007) ∧ k.loc.addr ≤ 0x1007 ∧
      0x1007 < k.loc.addr + k.len ∧ (l.core 3).eccAddr ≠ some ⟨k.loc.sp, 0x1007⟩ ∧ (l2.core 3).eccAddr = some ⟨k.loc.sp, 0x1007⟩) ∧
    (matchWaits l 3 = false ∧ matchWaits l2 3 = false ∧ matchWaits b 3 = true) ∧ (w.core 3).window = [{ mop 2 with age := 16 }] ∧ (w.core 3).pending = [] ∧ Config.dressWait ≤ ({ mop 2 with age := 16 } : MOp).age :=
  ⟨settled, settled, settled,
    settled, settled, settled⟩
/-- A frozen core with and without a pre-emption asked for; a running one; a change of bank 31's role before and during its zeroing. -/
theorem witness_FreezeAndRoleEventsComplete :
    let s := core3 fun x => { x with frozen := true }
    let p := core3 fun x => { x with frozen := true, preempt := true }
    let r := core3 fun x => { x with job := some 1 }
    let rf := core3 fun x => { x with job := some 1, frozen := true }
    let full := core3 fun x => { x with frozen := true, tiles := List.replicate 8 (mop 9), staged := [mop 2] }
    let after (t : State) := (t.issueCores 3).foldl (fun u d => stageRun d false 9 u) t
    let ch (z : Bool) : State := State.reset.setMill 383 { change := some ⟨0x4000000000000000, z⟩ }
    (∀ d ∈ s.issueCores 3, ∀ q, (s.core d).hold ≠ some (.ats q)) ∧ (∀ d ∈ full.issueCores 3, ∀ q, (full.core d).hold ≠ some (.ats q)) ∧
    s.issueCores 3 = [3] ∧ (s.core 3).frozen = true ∧ (∀ d ∈ s.issueCores 3, (s.core d).closing = none) ∧
    (∀ d ∈ s.issueCores 3, stageHeld (after s) d = false) ∧ (∀ d ∈ s.issueCores 3, (s.core d).window = [] ∧ (s.core d).staged = []) ∧
    (∀ d ∈ s.issueCores 3, (s.core d).preempt = false) ∧ (full.core 3).frozen = true ∧ (∀ d ∈ full.issueCores 3, (full.core d).closing = none) ∧
    (∃ d ∈ full.issueCores 3, stageHeld (after full) d = true) ∧ (p.core 3).preempt = true ∧ (∃ d ∈ p.issueCores 3, (p.core d).frozen = true) ∧
    (∀ d ∈ p.issueCores 3, (p.mill (d / 2)).change = none) ∧ matchWaits p 3 = false ∧ (full.core 3).preempt = false ∧
    matchWaits (full.onCore 3 fun x => { x with preempt := true, staged := [{ mop 2 with orig := 0 }] }) 3 = true ∧ (3 : Nat) ≠ 768 ∧ (r.core 3).job ≠ none ∧ (r.core 3).stopped = false ∧
    r.issueCores 3 ≠ [] ∧ (∀ d ∈ r.issueCores 3, ¬((r.core d).frozen = true ∨ rolesChange r d = true)) ∧
    (rf.core 3).job ≠ none ∧ (rf.core 3).stopped = false ∧ (∃ d ∈ rf.issueCores 3, (rf.core d).frozen = true) ∧
    ((ch false).mill 383).change = some ⟨0x4000000000000000, false⟩ ∧ engineInBanks (ch false) 383 (changedBanks ((ch false).mill 383)) = false ∧
    (∀ c ∈ [766, 767], ((ch false).core c).closing = none ∧ ((ch false).core c).tiles = []) ∧
    ((ch true).mill 383).change = some ⟨0x4000000000000000, true⟩ ∧
    (ch true).offers = [] ∧ (∀ c ∈ [766, 767], ∀ d ∈ (ch true).issueCores c, ((ch true).core d).preempt = false) := by
  refine ⟨fun d h q => ?_, fun d h q => ?_, settled⟩ <;>
    (have : d = 3 := by simpa using (show d ∈ [3] from h)
     subst this; show none ≠ _; simp)
/-- Adds at the largest handle and amount; a waiter that the add leaves unfired; a deadline of 9; counter 2^20 - 1 of the host. -/
theorem witness_CounterEventsComplete :
    let h := mkHandle 1 7 0x3FFFF
    let w := waiterOn h 100 (.event 0x1000 0) 0
    let f := waiterOn 0 5 (.flag 1 0 15) 9
    let s : State := { State.reset with waiters := [w, f], cycle := 9 }
    let p : State := { State.reset with parts := [(0, { st := .configured, desc := setLE (zeros 512) 80 8 (0xFFFFF + 2 ^ 32) })] }
    handleOk h = true ∧ 2 ^ 62 - 1 < 2 ^ 62 ∧ isRemote h = false ∧ hKind (ownHandle h) ≠ 3 ∧ s.offers = [] ∧
    (∀ x ∈ s.waiters, ctrKey x.h = ctrKey (ownHandle h) →
      reached (s.ctr (ownHandle h)) (BitVec.ofNat 64 x.threshold) = reached (s.ctr (ownHandle h) + BitVec.ofNat 64 99) (BitVec.ofNat 64 x.threshold)) ∧
    handleOk w.h = true ∧ hKind w.h ≠ 4 ∧ w.threshold < 2 ^ 64 ∧ (∀ j st n, w.kind ≠ .flag j st n) ∧
    reached (s.ctr w.h) (BitVec.ofNat 64 w.threshold) = false ∧ (∃ x ∈ s.waiters, x.kind = .flag 1 0 15 ∧ x.deadline ≠ 0 ∧ x.armed + x.deadline ≤ s.cycle) ∧
    0xFFFFF < 2 ^ 20 ∧ (∃ x ∈ p.parts, x.2.st ≠ .free ∧ x.2.hostBase ≤ 0xFFFFF ∧ 0xFFFFF < x.2.hostBase + x.2.hostCnt) ∧ 2 ^ 62 ≤ 2 ^ 62 :=
  ⟨by decide, by decide, by decide, by decide, rfl, by decide, by decide, by decide, by decide, fun _ _ _ => by simp [waiterOn], by decide,
    ⟨_, .tail _ (.head _), rfl, by decide, by decide⟩, by decide, ⟨_, .head _, by decide, by decide, by decide⟩, by decide⟩
/-- A partition whose queue 7 has one entry due: a record that is refused, and one that passes; its segment header is read through the L2. -/
def queued (st : PartState) (entry : List Byte) : State :=
  let header := setLE (setLE (setLE (setLE (zeros 64) 0 4 0x314D5347) 4 2 1) 8 4 0x1000) 52 4 0x1000
  let record := setLE (setLE (setLE (setLE (setLE (zeros 128) 0 8 0x1000) 12 2 1) 14 1 1) 15 1 4) 88 8 1
  let q : LaunchQueue := { desc := setLE (setLE (zeros 64) 0 8 0x800) 9 1 1 }
  let p := { placedPart with st := st, queues := [(7, q)], due := [[(7, 1)]] }
  let s : State := { State.reset with parts := [(0, p)], hbm := Memory.store (Memory.store (Memory.store [] 0 header) 0x80 record) 0x800 entry }
  s.setDie 0 { l2 := [placedPage] }
/-- A job of partition 0 that is ready, its quad free or held by a job of a higher level. -/
def readyJob (f : Job → Job) : Job :=
  f { placedJob with id := 2, phase := .ready, dispatched := false, mills := [], strands := [], key := [2] }
/-- The placed job, its strand stopped and leaving. -/
def leavingState : State :=
  let s := (placed id).onCore 0 fun x => { x with stopped := true }
  (withPart s fun p => { p with desc := setLE p.desc 392 4 20000 }).setJob 1 { placedJob with leaving := true }
/-- A machine with the scheduler's work held back by an activation. -/
def paused (s : State) : State := { s with mgmt := { s.mgmt with act := { s.mgmt.act with kind := 2, state := 3 } } }
/-- The placed job with its strand gone. -/
def finished : State := (placed id).setJob 1 { placedJob with strands := [.exited] }
/-- The witness of CONTEXT_RESTORE's clause is witness_ContextRestore. -/
theorem witness_ContextEventsComplete :
    let good := natLE 8 0x80 ++ zeros 8
    let e (s : State) := s.bytesAt ⟨.hbm, 0x800⟩ 16
    let fits := withJob (placed id) fun j => { j with strands := [.exited], phase := .ended, mills := [] }
    let d := fits.setJob 2 (readyJob id)
    let n := (placed id).setJob 2 (readyJob id)
    let b := (placed id).onCore 0 fun x => { x with hold := some .join, idle := 4096 }
    (nextDue ((queued .draining good).part 0) = some 7 ∧ (queued .draining good).schedPaused = false ∧ ((queued .draining good).part 0).st = .draining) ∧
    (nextDue ((queued .active good).part 0) = some 7 ∧ ((queued .active good).part 0).st = .active ∧
      hostPending (queued .active good) 0 < 4096 - ((queued .active good).part 0).pool ∧ e (queued .active good) = good ∧
      entryFault (queued .active good) 0 good = none) ∧
    entryFault (queued .active (natLE 8 0x81)) 0 (e (queued .active (natLE 8 0x81))) = some cAlign ∧
    ((d.part 0).st = .active ∧ d.schedPaused = false ∧ readyHead d 0 = some (readyJob id) ∧ quadsNeeded (readyJob id) ≤ (freeQuads d 0).length) ∧
    (readyHead n 0 = some (readyJob id) ∧ (freeQuads n 0).length < quadsNeeded (readyJob id)) ∧
    (jobDone finished 1 = true ∧ finished.schedPaused = false ∧ jobDone (paused finished) 1 = true ∧ (paused finished).schedPaused = true ∧
      .event (.contextComplete 1) ∉ (paused finished).mgmt.act.deferred) ∧
    (leavingState.schedPaused = false ∧
      (let j := (noteWatch leavingState 1).job 1
       switchable leavingState j = true ∧
       imageFits (leavingState.part j.pid) 0 (20000 * 4096 - 16 * 531)
         (imageChunks j.strands.length (if pinned leavingState j then 0 else j.mills.length)) = true)) ∧
    blockedNow b (b.job 1) = true :=
  ⟨settled, settled,
    settled, settled, settled,
    settled, settled, settled⟩
/-- A ready task above its ceiling, a running job with a watchdog, a gang in and past its slice, and units that have no work for their exit
time. timeShift is the time here. -/
theorem witness_SchedulerTimersComplete :
    let at_ (ns : Nat) (s : State) : State := { s with timeShift := ns }
    let t := at_ 1000 (withPart ((placed id).setJob 2 (readyJob fun j =>
      { j with level := 1, record := setLE (setLE j.record 15 1 8) 17 1 15 })) fun p => { p with agePeriod := 1 })
    let w := at_ 1000 (withJob (placed id) fun j => { j with record := setLE j.record 96 4 1 })
    let d := setLE (setLE (setLE (zeros 32) 8 4 100) 12 4 50) 16 1 1
    let g (ns : Nat) := at_ ns (withPart t fun p => { p with gangs := [(15, d)], slice := [(15, some 3)] })
    let within (s : State) (k : Nat) : Prop := gangOn d = true ∧ sliceStart d k ≤ s.fabricTime ∧ s.fabricTime < sliceEnd d k
    let sleep : State := (State.reset.onCore 766 fun x => { x with power := 1 }).onCore 767 fun x => { x with power := 1, idleAt := some 0 }
    let doze : State := (dieMills 7).foldl (fun u m => u.setMill m { u.mill m with idle := 2 }) State.reset
    (t.job 2).pid = 0 ∧ (t.job 2).phase = .ready ∧ t.schedPaused = false ∧ (paused t).schedPaused = true ∧
    (paused t).mgmt.act.deferred.count (.event (.agePeriodExpiry 0 2)) = 0 ∧ (t.part 0).ceiling + 0 < (t.job 2).level ∧
    (t.job 2).readyAt + (0 + 1) * ((t.part 0).agePeriod.toNat * 1000) ≤ t.fabricTime ∧
    recWdog (w.job 1).record ≠ 0 ∧ (w.job 1).phase = .running ∧ (w.job 1).image = none ∧ (w.job 1).halted = false ∧ (w.job 1).wdogHit = false ∧
    awaitsPage w 1 = false ∧ recWdog (w.job 1).record * 1000 ≤ (w.job 1).wdogNs + (w.fabricTime - (w.job 1).wdogAt) ∧
    ((g 349999).part 0).st = .active ∧ tget [] ((g 349999).part 0).gangs 15 = d ∧ within (g 300000) 3 ∧ within (g 349999) 3 ∧ ¬ within (g 350000) 3 ∧
    ¬ within (g 299999) 3 ∧
    within (g 400000) 4 ∧ tget none ((g 400000).part 0).slice 15 ≠ some 4 ∧ tget none ((g 350000).part 0).slice 15 = some 3 ∧ (paused (g 350000)).schedPaused = true ∧ (g 350000).schedPaused = false ∧
    recGang ((g 320000).job 2).record = true ∧ recGangix ((g 320000).job 2).record = 15 ∧ within (g 320000) 3 ∧
    ((g 320000).job 2).skipped ≠ some 3 ∧ sliceStart d 3 + 20000 ≤ (g 320000).fabricTime ∧
    767 < 768 ∧ coreIdle State.reset 767 = true ∧ tolerates State.reset (767 / 2) 50 = true ∧ (State.reset.core 767).idleAt = none ∧
    ((at_ 50 sleep).core 767).idleAt = some 0 ∧ 0 + 50 ≤ (at_ 50 sleep).fabricTime ∧ 383 < 384 ∧
    (let m := at_ 5000 (sleep.setMill 383 { sleep.mill 383 with idleAt := some 0 })
     millIdle m 383 = true ∧ tolerates m 383 5000 = true ∧ (m.mill 383).idleAt = some 0 ∧ 0 + 5000 ≤ m.fabricTime) ∧
    7 < 8 ∧ (let n := at_ 200000 (doze.setDie 7 { doze.die 7 with idleAt := some 0 })
     dieIdle n 7 = true ∧ (∀ m ∈ dieMills 7, tolerates n m 200000 = true) ∧ (n.die 7).idleAt = some 0 ∧ 0 + 200000 ≤ n.fabricTime) := by
  decide +kernel
/-- A walk ends at a page, by evaluation. -/
theorem page_of {w : Walk} (h : (match w with | .page _ => true | _ => false) = true) : ∃ x, w = .page x := by
  cases w with
  | page e => exact ⟨e, rfl⟩
  | missing => cases h
  | malformed => cases h
/-- A page found by the walk of five levels, and each kind of place that waits for a page. -/
theorem witness_TranslationEventsComplete :
    let table (n : Nat) : Memory → Memory := fun m => m.store (0x2000 + 0x1000 * n) (natLE 8 ((0x3000 + 0x1000 * n) * 1 + 1))
    let p : State := { placed id with hbm := (table 0 (table 1 (table 2 (table 3 [])))).store (0x6000 + 8) (natLE 8 0x1F) }
    let s := core3 fun x => { x with hold := some (.pageDevice 0x5000), pageFault := some { code := 3, info := 0x5000, pc := 0, slot := 2 } }
    let j : Job := { placedJob with strands := [.saved], kept := [(0, { hold := some (.pageDevice 0x5000) })] }
    let t := State.reset.setJob 1 j
    let c := cmdOf .cpy (.stalledDevice 0x5000)
    let e : State := { State.reset with engines := [c] }
    let a := { armedAt 0x1000 with waitDev := some 0x5000 }
    let u := State.reset.setDie 7 { armed := [(1023, some a)] }
    let q : PageReq := ⟨0, 0, 0x5000⟩
    let r := State.reset.setDie 7 { pageReqs := [q] }
    let h : State :=
      { State.reset with hostLost := [0], lostAt := [(0, some 0)], timeShift := 2000000000, jobs := [(1, { placedJob with phase := .suspended })] }
    let ask : Instr := .atsInvalidateRequest 0 0 0x5000 1
    let f := ((placed id).setDie 0 { l2 := [placedPage] }).onCore 0 fun x => { x with buf := [.write ⟨.hbm, 16⟩ [1] 0] }
    let b := (placed id).onCore 0 fun x => { x with buf := [.write ⟨.host, 16⟩ [1] 0] }
    let k : Inval := { ask := ask, doe := false, cores := [0], cmds := [] }
    let v : State := { State.reset with mgmt := { State.reset.mgmt with invals := [k] } }
    (∃ x, walk p 0 0 0x1000 = .page x) ∧ s.schedPaused = false ∧ 3 < 2 ^ 20 ∧ (s.core 3).hold = some (.pageDevice 0x5000) ∧
    (s.core 3).pageFault = some { code := 3, info := 0x5000, pc := 0, slot := 2 } ∧
    (t.job 1).strands[0]? = some .saved ∧ (tget {} (t.job 1).kept 0).hold = some (.pageDevice 0x5000) ∧ 1 < 2 ^ 50 - 2 ^ 40 ∧ e.cmd 1 = some c ∧
    c.stage = .stalledDevice 0x5000 ∧ 1023 < 1024 ∧ u.armedSlot 7 1023 = some a ∧ a.waitDev = some 0x5000 ∧ (r.die 7).pageReqs[0]? = some q ∧ 2 ≤ 2 ∧
    State.reset.cores = [] ∧ State.reset.engines = [] ∧ State.reset.firings = [] ∧ State.reset.offers = [] ∧
    (placed id).invalReady ask = false ∧ (invalOf (placed id) ask false 0 0 true).cores = [] ∧ b.invalReady ask = false ∧
    (invalOf b ask false 0 0 true).cores ≠ [] ∧ v.invalReady ask = true ∧ 1 < 2 ∧
    0 ∈ h.hostLost ∧ (h.jobsOf 0).filter (·.suspendedNow) ≠ [] ∧ tget none h.lostAt 0 = some 0 ∧ 0 + 2000000000 ≤ h.fabricTime ∧
    pageCached s 0 0 0x5000 = false ∧ (∀ q ∈ s.mgmt.invals, q.ask ≠ .pageDevice 3 true 0 0) ∧ pageCached f 0 0 0x1000 = true ∧
    (invalOf f (.pageDevice 0 true 0 0) false 0 0 false).cores ≠ [] :=
  ⟨page_of settled, settled⟩
/-! CONTEXT_RESTORE's clause: a saved image of zeros with NONCE 0, whose tags stand at 0x30000 of the save range. -/

/-- The placed job switched out, its image at 0, with bytes at the tag array. -/
def imaged (bs : List Byte) : State :=
  { (placed id).setJob 1 { placedJob with strands := [.saved], image := some (0, 0x30000, 0) } with hbm := Memory.store [] 0x30000 bs }
theorem imaged_phys (bs : List Byte) (x : Nat) : (saveRange ((imaged bs).part 0)).phys x = x := by
  have h : (saveRange ((imaged bs).part 0)).stack = true := by
    show (saveRange ((imaged []).part 0)).stack = true
    decide +kernel
  have h2 : (2 * (saveRange ((imaged bs).part 0)).die + (saveRange ((imaged bs).part 0)).stk) * 2 ^ 36 + (saveRange ((imaged bs).part 0)).base = 0 := by
    show (2 * (saveRange ((imaged []).part 0)).die + (saveRange ((imaged []).part 0)).stk) * 2 ^ 36 + (saveRange ((imaged []).part 0)).base = 0
    decide +kernel
  rw [HbmRange.phys, if_pos h, h2, Nat.zero_add]
/-- The image does not depend on the tags. -/
theorem imaged_image (bs : List Byte) : imageInMemory (imaged bs) ((imaged bs).part 0) 0 3 = imageInMemory (imaged []) ((imaged []).part 0) 0 3 := by
  have cuts : ∀ i, i < 3 → ∀ q ∈ pageCuts (65536 / 4096 + 2) (0 + i * 65536) 65536, q.1 + q.2 ≤ 0x30000 := by decide +kernel
  refine List.map_congr_left fun i hi => congrArg List.flatten (List.map_congr_left fun q hq => ?_)
  have h := cuts i (by simpa using hi) q hq
  rw [imaged_phys, imaged_phys]
  refine List.map_congr_left fun k hk => ?_
  have : k < q.2 := by simpa using hk
  exact (Memory.read_store_outside bs rfl (by show q.1 + k < 0x30000 ∨ _; omega)).trans rfl
/-- The tags read back. -/
theorem imaged_tag (a t b : List Byte) (i : Nat) (hi : i < 3) (ha : a.length = 16 * i) (ht : t.length = 16) :
    rangeBytes (imaged (a ++ t ++ b)) (saveRange ((imaged (a ++ t ++ b)).part 0)) (0x30000 + 16 * i) 16 = t := by
  have cuts : ∀ i, i < 3 → pageCuts (16 / 4096 + 2) (0x30000 + 16 * i) 16 = [(0x30000 + 16 * i, 16)] := by decide +kernel
  rw [rangeBytes, cuts i hi]
  simp only [List.map_cons, List.map_nil, List.flatten_cons, List.flatten_nil, List.append_nil, imaged_phys]
  refine List.ext_getElem (by simp [State.bytesAt, ht]) fun k h1 h2 => ?_
  simp only [State.bytesAt, List.getElem_map, List.getElem_range]
  have : 0x30000 + 16 * i + k = 0x30000 + (16 * i + k) := by omega
  show Memory.read (Memory.store [] 0x30000 (a ++ t ++ b)) (0x30000 + 16 * i + k) = t[k]
  rw [this, Memory.read_store_inside (m := []) (a ++ t ++ b) rfl (by simp [ha, ht]; omega)]
  rw [List.getElem_append_left (by simp [ha]; omega), List.getElem_append_right (by omega)]
  simp [ha]
theorem gmac_length (key iv aad msg : List Byte) : (gmac key iv aad msg).length = 16 := by
  simp only [gmac, gcmTag, natBE, List.length_reverse]; rfl
theorem witness_ContextRestore : ∃ s : State,
    (s.job 1).image = some (0, 0x30000, 0) ∧ (s.job 1).phase = .running ∧ (s.job 1).leaving = false ∧ .saved ∈ (s.job 1).strands ∧ (s.job 1).keptMills.isEmpty = true ∧
    imageGood s (s.part 0) 0 0x30000 (imageChunks (s.job 1).strands.length (if (s.job 1).keptMills.isEmpty then 0 else (s.job 1).mills.length)) 0 = true := by
  let key := saveKey (imaged []) ((imaged []).part 0)
  obtain ⟨c0, c1, c2, hc⟩ : ∃ c0 c1 c2, imageInMemory (imaged []) ((imaged []).part 0) 0 3 = [c0, c1, c2] := ⟨_, _, _, rfl⟩
  let t0 := gmac key (natLE 4 0 ++ natLE 8 0) (zeros 16) c0
  let t1 := gmac key (natLE 4 1 ++ natLE 8 0) t0 c1
  let t2 := gmac key (natLE 4 2 ++ natLE 8 0) t1 c2
  have l0 : t0.length = 16 := gmac_length _ _ _ _
  have l1 : t1.length = 16 := gmac_length _ _ _ _
  have l2 : t2.length = 16 := gmac_length _ _ _ _
  have nonce : fieldLE ((imageInMemory (imaged []) ((imaged []).part 0) 0 3).headD []) 16 8 = 0 := by decide +kernel
  rw [hc] at nonce
  refine ⟨imaged (t0 ++ t1 ++ t2), rfl, rfl, rfl, .head _, rfl, ?_⟩
  have r0 := imaged_tag [] t0 (t1 ++ t2) 0 (by decide) rfl l0
  have r1 := imaged_tag t0 t1 t2 1 (by decide) l0 l1
  have r2 := imaged_tag (t0 ++ t1) t2 [] 2 (by decide) (by simp [l0, l1]) l2
  simp only [List.nil_append, List.append_nil, ← List.append_assoc] at r0 r1 r2
  show imageGood (imaged (t0 ++ t1 ++ t2)) ((imaged (t0 ++ t1 ++ t2)).part 0) 0 0x30000 3 0 = true
  simp only [imageGood, imaged_image, nonce, hc, chunkTags, show List.range 3 = [0, 1, 2] from rfl, List.map_cons, List.map_nil, r0, r1, r2]
  show ((0 : Nat) == 0 && [t0, t1, t2] == [t0, t1, t2]) = true
  simp
/-- A command of each kind where its turn has come, over the placed page. -/
theorem witness_EngineEventsComplete :
    let c : ECmd := { cmdOf .cpy .released with src := 0x1000, dst := 0x1800, rowBytes := 256, rows := 1, reads := [(0x1000, 256)], writes := [(0x1800, 256)] }
    let r : ECmd := { c with stage := .running, done := 128 }
    let f : ECmd := { c with stage := .running, done := 256 }
    let d : ECmd := { cmdOf .send .released with desc := setLE (zeros 192) 18 1 1, reads := [(0x1000, 1)] }
    let m : ECmd := { cmdOf .mcst .released with src := 0x1000, replicas := [0x1080, 0x1F80] }
    let a : ECmd := { cmdOf .arm .released with desc := setLE (setLE (zeros 64) 0 8 0x1000) 32 8 0x1400, slot := 1023, number := 7 }
    let x : ECmd := { cmdOf .disarm .released with slot := 1023 }
    let other := (engined [x]).setDie 0 { armed := [(1023, some { armedAt 0x1000 with job := 2 })] }
    let mine := (engined [x]).setDie 0 { armed := [(1023, some (armedAt 0x1000))] }
    ((engined [c]).cmd 1 = some c ∧ (nextCopy (engined [c]) 0 0).map (·.id) = some 1 ∧ regionsMeet c.reads c.writes = false ∧
      startCheck (engined [c]) c = none) ∧
    ((engined [d]).cmd 1 = some d ∧ mayStart (engined [d]) d = true ∧ sendConnFault (engined [d]) d = none ∧ residFault (engined [d]) d = none ∧
      startCheck (engined [d]) d = none ∧ sendComp d.desc = 0) ∧
    ((engined [r]).cmd 1 = some r ∧ r.done < cpyTotal r ∧
      ∃ y t, cmdRead (engined [r]) r (cpyBeat r).1 (cpyBeat r).2.2 = .ok y ∧ cmdWrite (engined [r]) r (cpyBeat r).2.1 y.1 y.2 = .ok t) ∧
    (f.stage = .running ∧ f.kind = .cpy ∧ cpyTotal f ≤ f.done) ∧
    (({ d with stage := .running, done := 1 } : ECmd).done = 1 ∧ packetsLeft (engined [{ d with stage := .running, done := 1 }]) 1 none = false) ∧
    (∃ y t, cmdRead (engined [m]) m (regionVa 0 m.src) 128 = .ok y ∧ mcstWrite (engined [m]) m y m.replicas = .ok t) ∧
    (mayStart (engined [a]) a = true ∧ startCheck (engined [a]) a = none ∧ ∃ t, armSlot (wakeMill (engined [a]) 0) a = .ok t) ∧
    ((∀ y ∈ slotCmds mine .arm 0 1023, ¬ y.id < 1) ∧ mine.armedSlot 0 1023 = some (armedAt 0x1000) ∧ (armedAt 0x1000).job = x.job) ∧
    (other.armedSlot 0 1023 = some { armedAt 0x1000 with job := 2 } ∧ ({ armedAt 0x1000 with job := 2 } : Armed).job ≠ x.job) :=
  ⟨settled,
    settled,
    ⟨settled, by decide, ok_bind settled⟩,
    settled, settled,
    ok_bind settled,
    ⟨settled, settled, ok_some settled⟩, settled,
    settled⟩
/-- A graph of two operations, a COPY and a SEND to rank 1, that uses nothing of memory but the placed page. -/
def graphImage : List Byte :=
  let copy := setLE (setLE (setLE (setLE (setLE (zeros 32) 0 1 3) 6 2 0xFFFF) 24 4 128) 16 4 0x100) 30 2 0xFFFF
  let send := setLE (setLE (setLE (setLE (setLE (zeros 32) 0 1 1) 6 2 0xFFFF) 10 2 1) 24 4 128) 30 2 0xFFFF
  setLE graphHead 6 2 2 ++ copy ++ send ++ zeros 16
/-- The same with a SEND to the rank itself. -/
def graphOwn : List Byte := setLE graphImage (64 + 32 + 10) 2 0
theorem witness_GraphEventsComplete :
    let bases := setLE (zeros 256) 0 8 0x1000
    let l : ECmd := { cmdOf .cload .released with desc := graphImage.take 64, src := 0x1000, slot := 63, reads := [(0x1000, graphLen (graphImage.take 64))] }
    let ls := withHbm (engined [l]) 0 graphImage
    let c : ECmd := { cmdOf .coll .released with desc := bases, slot := 63, number := 9, reads := [(0x1000, 0x80)], writes := [(0x1100, 0x80)] }
    let g (img : List Byte) : Graph := { job := 1, image := img }
    let cs := (engined [c]).setDie 0 { l2 := [placedPage], graphs := [(63, some (g graphImage))] }
    let r : ECmd := { c with stage := .running }
    let h (img : List Byte) (ops : Table OpState) : Graph := { g img with inst := some 9, cmd := 1, ops := ops }
    let run (img : List Byte) (ops : Table OpState) : State := (engined [r]).setDie 0 { l2 := [placedPage], graphs := [(63, some (h img ops))] }
    let one : Table OpState := [(0, { stage := .running })]
    let last : Table OpState := [(0, { stage := .done }), (1, { stage := .running })]
    (ls.cmd 1 = some l ∧ mayStart ls l = true ∧ earlierCmds ls l = [] ∧ earlierCmds cs c = [] ∧ (g graphImage).job = c.job ∧
      (g graphImage).inst = none ∧ (h graphImage []).inst ≠ none ∧ ls.graphSlot 0 63 = none ∧ startCheck ls l = none ∧
      ∃ x, cmdRead ls l (regionVa 0 (l.src + 64)) (graphLen l.desc - 64) = .ok x ∧ (!graphBad (l.desc ++ x.1)) = true) ∧
    (cs.cmd 1 = some c ∧ mayStart cs c = true ∧ cs.graphSlot 0 63 = some (g graphImage) ∧ graphOutside c graphImage = none ∧
      graphPlain cs c graphImage = false ∧ startCheck cs c = none) ∧
    (run graphImage []).graphSlot 0 63 = some (h graphImage []) ∧ (run graphImage []).cmd 1 = some r ∧ r.stage = .running ∧
    (0 < graphNops graphImage ∧ opReady (h graphImage []) 0 = true ∧ opOpc (graphOp graphImage 0) = 3 ∧
      ∃ t, opEffect (run graphImage []) r 0 (graphOp graphImage 0) = .ok t) ∧
    (1 < graphNops graphOwn ∧ opReady (h graphOwn []) 1 = true ∧ opOpc (graphOp graphOwn 1) = 1 ∧ opPeer (graphOp graphOwn 1) = graphMe graphOwn) ∧
    (opReady (h graphImage []) 1 = true ∧ opOpc (graphOp graphImage 1) = 1 ∧ opPeer (graphOp graphImage 1) ≠ graphMe graphImage ∧
      connState ((run graphImage []).conn (connId 0 (rankEntry graphImage 1 % 2 ^ 20))).entry = 2 ∧
      connE8 ((run graphImage []).conn (connId 0 (rankEntry graphImage 1 % 2 ^ 20))).entry = true) ∧
    (((h graphImage one).op 0).stage = .running ∧ packetsLeft (run graphImage one) 1 (some 0) = false ∧ opRecord (graphOp graphImage 0) = false ∧
      ((h graphImage one).op 1).stage ≠ .done) ∧
    (((h graphImage last).op 1).stage = .running ∧ packetsLeft (run graphImage last) 1 (some 1) = false ∧
      ∀ i, i < graphNops graphImage → (((h graphImage last).setOp 1 { ((h graphImage last).op 1) with stage := .done }).op i).stage = .done) :=
  ⟨⟨settled, settled, settled, settled, rfl, rfl, settled, settled, settled,
      ok_with settled⟩, settled, settled, settled, rfl,
    ⟨settled, settled, settled, ok_some settled⟩,
    settled,
    settled,
    settled, settled⟩
/-- A packet for connection 0 with a header of 32 bytes. -/
def packetOf (psn : Nat) (header payload : List Byte) : Packet :=
  { port := 0, conn := 0, psn := psn, header := header, payload := payload, trimmed := false, badIcv := false, badAuth := false,
    cipher := List.replicate payload.length true }
/-- Packets of the three types: new and seen, a tensor of one byte for an armed slot, an add of 2^62 - 1, and a packet not yet acknowledged. -/
theorem witness_TransportEventsComplete :
    let tensor := setLE (setLE (setLE (zeros 32) 0 1 0x11) 4 4 7) 8 4 1023
    let graph := setLE (setLE (setLE (zeros 32) 0 1 0x21) 4 4 9) 8 4 63
    let add := setLE (setLE (setLE (zeros 32) 0 1 0x31) 8 4 1) 24 8 (2 ^ 62 - 1)
    let a := { armedAt 0x1000 with desc := setLE (setLE (armedAt 0x1000).desc 32 8 0x1400) 40 8 0x1800 }
    let q := withPart (engined []) fun p => { p with desc := setLE p.desc 132 4 1 }
    let s := q.setDie 0 { l2 := [placedPage], armed := [(1023, some a)] }
    let k : Sent := { psn := 5, by_ := ⟨1, 0⟩, header := tensor, tx := 1 }
    let n : State := { s.setConn 0 { s.conn 0 with sent := [k], timerOn := true } with timeShift := 2 ^ 32 }
    let z := withPart s fun p => { p with conns := [(0, { entry := setLE (zeros 64) 0 2 0x103, port := 0 })] }
    connState (z.conn 0).entry = 3 ∧ rxHas (z.conn 0) 0xFFFFFFFF = true ∧ TakesControl n (n.conn 0).port (noteMac n (n.conn 0).port (Config.frameAn n.ticks % 4)) ∧
    TakesControl z (z.conn 0).port (noteMac z (z.conn 0).port (Config.frameAn z.ticks % 4)) ∧
    packetBytes { s.port 0 with longHaul := true } tensor 4096 ≤ 9216 ∧
    macAccepts (s.port 0).mac 3 = true ∧ (packetOf 0 tensor []).mode = 0 ∧ (s.port 0).longHaul = false ∧
    (n.conn 0).timerAt + (n.conn 0).timeout ≤ n.fabricTime ∧
    connState (s.conn 0).entry = 2 ∧ (s.port 0).down = false ∧ portBlocked s 0 = false ∧ headerOk tensor = true ∧ headerOk graph = true ∧
    headerOk add = true ∧ (packetOf 0xFFFFFFFF tensor []).badAuth = false ∧ rxHas (s.conn 0) 0xFFFFFFFF = true ∧ rxHas (s.conn 0) 0 = false ∧
    (packetOf 0 tensor []).trimmed = false ∧ hdType tensor = 1 ∧ hdType graph = 2 ∧ hdType add = 3 ∧
    (s.armedSlot (hdDie tensor) (hdTarget tensor % 1024) = some a ∧ a.inst = hdInst tensor ∧ a.pid = connPid 0 ∧
      hdPos tensor + hdRows tensor ≤ armRows a.desc ∧ hdCol tensor + hdCols tensor ≤ armCols a.desc ∧ hdEs tensor = fieldLE a.desc 24 1 ∧
      hdMx tensor = false ∧ [(9 : Byte)].length = tensorLen tensor (armElem a.desc) ∧ hdPoison tensor = false ∧
      ∃ t, placeTensor s (hdDie tensor) (hdTarget tensor % 1024) a tensor [9] [true] = .ok t) ∧
    (hdTarget add = 1 ∧ handleOk (mkHandle 1 (hdDie add) (hdPos add)) = true ∧
      handleIn (s.part 0) (s.part 0).hasMill (mkHandle 1 (hdDie add) (hdPos add)) = true ∧ hdAux add < 2 ^ 62) ∧
    sentPacket n 0 5 = some k ∧ (n.conn 0).sent = k :: [] ∧ (n.conn 0).timerOn = true ∧ 2 ^ 32 - 1 < 2 ^ 32 ∧ 2 ^ 64 - 1 < 2 ^ 64 :=
  ⟨settled, settled, takes_control _ _ settled, takes_control _ _ settled, settled, settled, rfl, settled, settled, settled, settled, settled, settled,
    settled, settled, rfl, settled, settled, rfl, settled, settled, settled,
    ⟨settled, settled, settled, settled, settled, settled, settled,
      settled, settled, ok_some settled⟩,
    settled, settled⟩
theorem witness_PortAndConnectionEventsComplete :
    let s (n : Nat) := withPart (engined []) fun p => { p with conns := [(0, { entry := setLE (zeros 64) 0 1 n })] }
    let m : Mac := { on := true, tx := 2, pn := [(2, 2 ^ 62)] }
    let f : List (Nat × Output) := [(4, .snoopMiss 0 0), (5, .snoopMiss 0 0), (6, .snoopMiss 0 0)]
    let p := State.reset.setPort 47 { retry := f, mac := m, buffer := 1 }
    let q : State := { State.reset with mgmt := { State.reset.mgmt with ptpPort := some 47 } }
    (((p.port 47).retry.filter fun x => decide (5 ≤ x.1) && decide (x.1 < 5 + 2)).length = 2 ∧ (p.port 47).buffer ≠ 0 ∧ (State.reset.port 47).buffer = 0 ∧
      (p.port 47).mac.on = true ∧ (p.port 47).mac.tx = 2 ∧ (p.port 47).mac.mark.getD (2 ^ 62) ≤ tget 0 (p.port 47).mac.pn 2 ∧ q.mgmt.ptpPort = some 47 ∧
      (q.port 47).down = false ∧ ((s 0).port 47).down = false ∧ portBlocked (s 0) 47 = false) ∧
    TakesControl (s 0) 47 (noteMac (s 0) 47 (Config.frameAn (s 0).ticks % 4)) ∧
    ∀ n, n ∈ [1, 2, 3] → connState ((s n).conn 0).entry = n ∧
      TakesControl (s n) ((s n).conn 0).port (noteMac (s n) ((s n).conn 0).port (Config.frameAn (s n).ticks % 4)) := by
  refine ⟨settled, takes_control _ _ settled, fun n h => ?_⟩
  have : n = 1 ∨ n = 2 ∨ n = 3 := by simpa using h
  rcases this with rfl | rfl | rfl <;> exact ⟨settled, takes_control _ _ settled⟩
/-- Leat core 0 at issue with operand ports and ports 0 and 1 owned by partition 0. -/
def leating (ops : Table Word) (f : Leat → Leat) : State :=
  withCur ((engined []).setLeat 0 (f { run := true, halted := false, operand := ops })) fun c => { c with core := 1000 }
def imm (n : Nat) : LM := ⟨false, 0, false, 0x7FF, n⟩
/-- A true guard; empty and full queue; a destination in DMEM; a code address; 7 and 1 entries of the stack. -/
theorem witness_LeatComputeMovesComplete :
    let r : EventRec := { code := 1, port := 0, sub := false, conn := 0, time := 0, data := [], coalesced := false }
    let s := leating [(0x170, 0xFFFFFFFFFFFFFFFE)] fun x => { x with queue := [r], stack := List.replicate 7 0x20 }
    let e := leating [(0x170, 0xFFFFFFFFFFFFFFFF)] id
    let g : LM := ⟨true, 1, true, 0x7FF, 1⟩
    s.cur.aborted = false ∧ leatGuard s (imm 0) = true ∧ leatGuard e ⟨true, 1, true, 0x7FF, 1⟩ = true ∧ 0x43 < 0x44 ∧ 0x44 ≤ 0x44 ∧
    leatQueue e = [] ∧ leatQueue s = r :: [] ∧ (leatSource s (imm 0x3FFE0)).toNat % 32 = 0 ∧ (leatSource s (imm 0x3FFE0)).toNat + 32 ≤ 0x40000 ∧
    s.leatNow.target = none ∧ (leatSource s (imm 65520)).toNat % 16 = 0 ∧ (leatSource s (imm 65520)).toNat < 65536 ∧ s.leatNow.stack.length < 8 ∧
    s.leatNow.stack = 0x20 :: List.replicate 6 0x20 ∧
    ((∀ i, i < 64 → (0xFFFFFFFFFFFFFFFF : Word).getLsbD i = ((leatPort s 0x170).getLsbD i || decide (i = (leatSource s (imm 0)).toNat))) ∧
      ((leatSource s (imm 0)).toNat ≤ 0 ∧ 0 < 64 ∧ (leatPort s 0x170).getLsbD 0 = false ∧
        ∀ i, (leatSource s (imm 0)).toNat ≤ i → i < 0 → (leatPort s 0x170).getLsbD i = true) ∧
      (∀ i, (leatSource e g).toNat ≤ i → i < 64 → (leatPort e 0x170).getLsbD i = true)) :=
  ⟨rfl, settled, settled, by decide, by decide, settled, settled, settled, settled,
    settled, settled, settled, settled, settled, settled,
    ⟨settled, by decide, settled, fun i _ h => absurd h (by omega)⟩,
    fun i _ h => (show ∀ i, i < 64 → (leatPort (leating [(0x170, 0xFFFFFFFFFFFFFFFF)] id) 0x170).getLsbD i = true by decide +kernel) i h⟩
/-- Addresses in DMEM and in the window, a connection that is OPEN and one that is CLOSED, descriptors of each kind, a HOST handle. -/
theorem witness_LeatUnitMovesComplete :
    let s := leating [(0x150, 0), (0x190, 0), (0x1D0, BitVec.ofNat 64 (mkHandle 1 0 0))] fun x =>
      { x with dmem := (Memory.store (Memory.store (Memory.store [] 0x20 [1]) 0x40 [4]) 0x60 [5, 15]), halted := true }
    let sent : Sent := { psn := 5, by_ := ⟨1, 0⟩, header := zeros 32, tx := 1 }
    let r := (withPart s fun p => { p with desc := setLE p.desc 132 4 1 }).setConn 0 { s.conn 0 with sent := [sent], nextPsn := 6, numbered := 6 }
    let t := leating [(0x1B0, 0x800000000000000F)] id
    let o := leating [(0x1B0, 0)] fun x => { x with timers := [(15, some 9)] }
    s.cur.aborted = false ∧ leatGuard s (imm 0) = true ∧
    (leatSource s (imm 0x3FFF8)).toNat % 8 = 0 ∧ (leatSource s (imm 0x3FFF8)).toNat + 8 ≤ 0x40000 ∧
    (0x10000000 ≤ (leatSource s (imm 0x10000040)).toNat ∧ (leatSource s (imm 0x10000040)).toNat < 0x18000000 ∧
      windowConn s 0x10000040 = some (1, 0) ∧ windowConn s 0x10000044 = some (1, 4) ∧ connState (entryBytes s 1) = 0) ∧
    wordOpen s (leatPort s 0x150) = some 0 ∧ wordOpen s (leatPort s 0x190) = some 0 ∧
    (movePort r 0 (leatPort r 0x151) = some 0 ∧ psnSent (r.conn 0) 5 = true ∧ sentPacket r 0 5 = some sent ∧
      wordOpen r (leatPort r 0x150) = some 0) ∧
    (∀ a ∈ [(0x20 : Nat), 0x40, 0x60], a % 32 = 0 ∧ a + 32 ≤ 0x40000 ∧ txdescOk (s.leatNow.dmem.bytes a 32) = true) ∧
    fieldLE (s.leatNow.dmem.bytes 0x20 32) 0 1 ≤ 3 ∧ fieldLE (s.leatNow.dmem.bytes 0x40 32) 0 1 = 4 ∧ fieldLE (s.leatNow.dmem.bytes 0x60 32) 0 1 = 5 ∧
    (leatPort t 0x1B0).getLsbD 63 = true ∧ (leatPort o 0x1B0).getLsbD 63 = false ∧ wordConn o (leatPort o 0x1B0) = some 0 ∧
    (hKind (leatPort r 0x1D0).toNat = 1 ∧ handleOk (leatPort r 0x1D0).toNat = true ∧ (leatSource r (imm 0x7FFFFFFF)).toNat < 2 ^ 62 ∧
      ∃ side, side < 2 ∧ ∃ p, portOwner r (pairPort r side) = some p ∧ handleIn (r.part p) (r.part p).hasMill (leatPort r 0x1D0).toNat = true) ∧
    tget none (o.leat 0).timers (31 % 16) = some 9 ∧ 9 ≤ ({ o with timeShift := 9 } : State).fabricTime ∧ 23 < 24 ∧ s.fabricPaused = false ∧ (s.leat 0).halted = true ∧ (t.leat 0).halted = false :=
  ⟨rfl, settled, settled, settled,
    settled, settled, settled,
    settled, settled, settled, settled,
    settled, settled, settled, settled,
    ⟨settled, settled, settled, 0, by decide, 0, settled⟩, settled⟩
/-- A partition descriptor that keeps every limit of R335, with no quad, port, range or counter of its own. -/
def descOf (pid : Nat) : List Byte :=
  setLE (setLE (setLE (setLE (setLE (setLE (zeros 512) 0 2 1) 2 1 pid) 4 4 0x10001) 26 1 3) 32 1 8) 76 4 1
/-- A machine whose partition 0 is the placed one in a state, with two HOST and two WEIR counters, port 0 and its key slot 5. -/
def managed (st : PartState) : State :=
  withPart (placed id) fun p => { p with st := st, desc := setLE (setLE (setLE (setLE p.desc 20 1 1) 32 1 0x20) 84 4 2) 132 4 2 }
def emptyPart (st : PartState) : State := { State.reset with parts := [(31, { st := st, desc := descOf 31 })], keys := [(3, zeros 64)] }
theorem witness_ManagementRequestsComplete :
    let s := managed .active
    let free := State.reset
    let conf := emptyPart .configured
    let gone := emptyPart .draining
    let boot : State :=
      { conf with
        mgmt := { conf.mgmt with
          bootBits := 7, commitKinds := [1], running := [(1, setLE (zeros 512) 12 4 5)], svnFloor := [(1, 5)], spdm := { conf.mgmt.spdm with session := 2 } } }
    let lq := setLE (setLE (setLE (setLE (zeros 32) 0 8 0x1000) 8 1 4) 9 1 1) 16 4 1
    let sp := setLE (setLE (setLE (setLE (setLE (setLE (zeros 64) 0 8 0x2000) 12 1 1) 13 1 4) 16 8 0x3000) 24 8 (mkHandle 1 0 0)) 32 8 (mkHandle 1 0 1)
    let gang := setLE (setLE (setLE (zeros 32) 8 4 10000000) 12 4 1) 16 1 1
    let conn := setLE (setLE (setLE (setLE (zeros 64) 2 1 1) 3 1 16) 32 2 4096) 34 1 5
    let open_ := s.setConn (connId 0 (2 ^ 20 - 1)) { entry := setLE (zeros 64) 0 1 2 }
    let ask : Instr := .invalidateTranslations 9 0 3 0x5000 4096
    let b : State := s.onCore 0 fun x => { x with buf := [.write ⟨.hbm, 16⟩ [1] 0] }
    let k : Inval := { ask := ask, doe := true, cores := [0], cmds := [] }
    let v : State := { s with mgmt := { s.mgmt with invals := [k] } }
    free.mgmtWaits = false ∧ fieldLE (descOf 31) 2 1 = 31 ∧ descOk free (descOf 31) = true ∧
    ((emptyPart .active).part 31).st = .active ∧ descChangeOk ((emptyPart .active).part 31) (descOf 31) = true ∧
    (descOk conf (descOf 31) = false ∧ (conf.part 31).st ≠ .active) ∧
    ((boot.part 31).st = .configured ∧ boot.mgmtWaits = false ∧ keysLoaded boot (boot.part 31) = true ∧ (boot.part 31).svcLen = 0 ∧ boot.mgmt.bootBits % 8 = 7) ∧
    (free.part 31).st ≠ .configured ∧ (free.part 31).st = .free ∧ (gone.part 31).st = .draining ∧ drained gone 31 = true ∧
    ((s.part 0).st = .active ∧ lqOk (s.part 0) lq = true ∧ spaceOk (s.part 0) 63 (setLE sp 8 4 1) = true ∧ spaceEnabled (tget [] (s.part 0).spaces 63) = false ∧
      gangOk gang = true ∧ (∀ j ∈ s.jobsOf 0, j.phase = .running → recGang j.record = true → recGangix j.record ≠ 15)) ∧
    (2 ^ 20 - 1 < 2 ^ 20 ∧ conn.length = 64 ∧ connState (s.conn (connId 0 (2 ^ 20 - 1))).entry = 0 ∧ entryOk s (s.part 0) conn = true ∧
      ((s.part 0).conns.filter fun e => connState e.2.entry != 0).length < 65536 ∧ usablePort s conn = some 0) ∧
    connState (open_.conn (connId 0 (2 ^ 20 - 1))).entry = 2 ∧ (open_.part 0).st ≠ .free ∧
    (127 < 128 ∧ (zeros 64).length = 64 ∧ boot.mgmt.spdm.session = 2 ∧ free.mgmt.spdm.session ≠ 2) ∧
    (s.invalReady ask = false ∧ (invalOf s ask true 0 3 false).cores = [] ∧ (invalOf s ask true 0 3 false).cmds = [] ∧ b.invalReady ask = false ∧
      (invalOf b ask true 0 0 false).cores ≠ [] ∧ v.invalReady ask = true) ∧
    (1 ∈ boot.mgmt.commitKinds ∧ 5 ≤ imgSvn (tget [] boot.mgmt.running 1) ∧ tget 0 boot.mgmt.svnFloor 1 ≤ 5) :=
  ⟨rfl, settled, settled, settled, settled, settled,
    settled, settled, settled, settled,
    settled, settled,
    settled, settled, settled,
    settled, settled⟩
/-- Where no partition is, the hand-over area is the firmware's own; where one holds all of HBM, it is not. -/
theorem own_true (s : State) (h : s.parts = []) (k n : Nat) (hn : n ≤ 2 ^ 23) : firmwareOwn s (handoverAt k) n = true := by
  have : handoverAt k < 2 ^ 40 - 2 ^ 23 := Nat.mod_lt _ (by decide)
  simp [firmwareOwn, h]; omega
/-- A partition that holds all of HBM. -/
def hbmHeld : State := { State.reset with parts := [(0, { st := .active, desc := setLE (setLE (zeros 512) 392 4 (2 ^ 28)) 396 1 1 })] }
theorem own_false (s : State) (h : s.parts = hbmHeld.parts) (k n : Nat) : firmwareOwn s (handoverAt k) (128 + n) = false := by
  have lt : handoverAt k < 2 ^ 40 - 2 ^ 23 := Nat.mod_lt _ (by decide)
  have e : ∀ x ∈ hbmHeld.parts, x.2.st ≠ .free ∧ (0, 0, 2 ^ 40) ∈ (x.2.ranges.map HbmRange.extents).flatten := settled
  simp only [firmwareOwn, Bool.and_eq_false_iff]
  right
  rw [h]
  simp only [hbmHeld, List.all_cons, List.all_nil, Bool.and_true]
  have := e _ (.head _)
  simp only at this
  simp only [Bool.or_eq_false_iff, beq_eq_false_iff_ne]
  refine ⟨this.1, by
    simp only [Bool.not_eq_false']
    exact List.any_eq_true.mpr ⟨_, this.2, by simp [overlaps]; omega⟩⟩
/-- Each stage of an activation, a block that fits no image running and one that matches nothing, heartbeat 3 after 2. -/
theorem witness_ActivationAndResetComplete :
    let act (st kind hb : Nat) (run : Table (List Byte)) : State :=
      { State.reset with
        timeShift := 1000000000, mgmt := { State.reset.mgmt with running := run, act := { state := st, kind := kind, hbcnt := hb } } }
    let soon (a : State) : State := { a with timeShift := 2000000 }
    let fits (s : State) : State := { s with mgmt := { s.mgmt with act := { s.mgmt.act with state := 3, since := s.fabricTime } } }
    let full := { act 2 2 0 [(2, [1])] with parts := hbmHeld.parts }
    (tget [] (act 2 2 0 []).mgmt.running 2 = [] ∧ tget [] (act 2 2 0 [(2, [1])]).mgmt.running 2 ≠ [] ∧ imgHver [1] = 0 ∧
      firmwareOwn (fits (freezeOld (act 2 2 0 [(2, [1])]) 2)) (handoverAt 2) (128 + 16) = true ∧
      firmwareOwn (fits (freezeOld full 2)) (handoverAt 2) (128 + 16) = false) ∧
    ((act 1 2 0 []).actTime ≤ 1000000000 ∧ (act 4 2 0 []).mgmt.act.state = 4 ∧ blockOk (act 4 2 0 []) = true ∧ (soon (act 4 2 0 [])).actTime ≤ 2000000 ∧
      blockOk (act 4 2 0 [(2, [1])]) = false ∧ (act 5 2 0 []).mgmt.act.state = 5 ∧ (act 7 2 0 []).mgmt.act.state = 7 ∧
      (act 8 2 0 []).mgmt.act.state = 8) ∧
    1000000000 ≤ (act 1 2 0 []).actTime ∧ 2000000 < (act 3 2 0 []).actTime ∧ (soon (act 3 2 0 [])).actTime ≤ 2000000 ∧
    50000000 ≤ (act 6 1 2 []).actTime ∧ (soon (act 6 1 2 [])).actTime ≤ 50000000 ∧
    State.reset.mgmtWaits = false ∧ State.reset.mgmt.act.state = 0 ∧ 1 ≤ 3 ∧ (act 1 2 0 []).mgmt.act.state = 1 ∧ stageClear (act 1 2 0 []) = true ∧
    (act 2 2 0 []).mgmt.act.state = 2 ∧ (zeros 16).length ≤ 2 ^ 22 ∧ (act 3 2 0 []).mgmt.act.state = 3 ∧ blockOk (act 3 2 0 []) = true ∧
    blockOk (act 3 2 0 [(2, [1])]) = false ∧ (act 6 1 2 []).mgmt.act.state = 6 ∧ 3 < 4 ∧ 3 ≠ 0 ∧ 3 = ((act 6 1 2 []).mgmt.act.hbcnt + 1) % 4 ∧
    ∀ kind, bootImage State.reset kind = none := by
  refine ⟨⟨settled, settled, settled, own_true _ rfl _ _ (by decide), own_false _ rfl _ _⟩, settled, settled, settled, settled, settled, settled, rfl, rfl,
    by decide, rfl, settled, rfl, by decide, rfl, settled, settled, rfl, by decide, by decide, settled, fun kind => ?_⟩
  simp [bootImage, imgAccepted, imgSigned, State.reset, tget]
/-- The controller running with each request in its state; certLen bounds the offset 0. -/
theorem witness_ResponderAnswersComplete :
    let s (state session : Nat) (msg : List Byte) : State :=
      { State.reset with mgmt := { State.reset.mgmt with rxready := true, rxbuf := msg, spdm := { state := state, session := session } } }
    let m (code : Nat) : List Byte := natLE 1 0x12 ++ natLE 1 code ++ zeros 30
    let negotiate := setLE (setLE (m 0xE3) 8 4 0x80) 12 4 2
    (∀ state session msg, (s state session msg).mgmt.rxready = true ∧ (s state session msg).mgmt.rxbuf = msg ∧
      ((s state session msg).core 768).stopped = false ∧ (s state session msg).mgmt.spdm.state = state ∧ (s state session msg).mgmt.spdm.session = session ∧
      (s state session msg).mgmt.act.state < 3 ∧ (s state session msg).mgmt.busyUntilPoll = false) ∧
    (∀ code ∈ [0x81, 0x82, 0x83, 0x84, 0xE0, 0xE1, 0xE4, 0xE5, 0xE8, 0xE9, 0xEC], fieldLE (m code) 1 1 = code ∧ fieldLE (m code) 0 1 = 0x12) ∧
    (fieldLE negotiate 1 1 = 0xE3 ∧ (fieldLE negotiate 8 4).testBit 7 = true ∧ (fieldLE negotiate 12 4).testBit 1 = true) ∧
    (fieldLE (m 0x82) 2 1 % 16 = 0 ∧ fieldLE (m 0x82) 4 2 ≤ certLen) ∧ fieldLE (m 0x83) 3 1 = 0 ∧ fieldLE (setLE (m 0x83) 3 1 0xFF) 3 1 = 0xFF ∧
    fieldLE (setLE (m 0xE0) 3 1 5) 3 1 ≤ 5 :=
  ⟨fun _ _ _ => ⟨rfl, rfl, rfl, rfl, rfl, Nat.zero_lt_succ 2, rfl⟩, settled, settled,
    ⟨settled, by rw [show fieldLE _ 4 2 = 0 by decide +kernel]; exact Nat.zero_le _⟩, settled⟩
theorem witness_MailboxAndHashComplete :
    let spdm := setLE (zeros 16) 0 4 0x10001
    let mgmt := setLE (zeros 16) 0 4 0x401E5C
    let down := State.reset.onCore 768 fun x => { x with stopped := true }
    let m (f : Mgmt → Mgmt) : State := { State.reset with mgmt := f State.reset.mgmt }
    4096 < (zeros 4097).length ∧ spdm.length ≤ 4096 ∧ fieldLE spdm 0 2 = 1 ∧ fieldLE spdm 2 1 = 1 ∧ fieldLE mgmt 0 2 = 0x1E5C ∧ fieldLE mgmt 2 1 = 0x40 ∧
    (down.core 768).stopped = true ∧ (State.reset.core 768).stopped = false ∧ (m fun x => { x with busyUntilPoll := true }).mgmt.busyUntilPoll = true ∧
    State.reset.mgmt.busyUntilPoll = false ∧ State.reset.mgmt.rxready = false ∧
    ((m fun x => { x with rxready := true }).mgmt.rxready = true ∧ (m fun x => { x with rxready := true }).mgmt.rxsecond = none) ∧
    (m fun x => { x with rxsecond := some [1] }).mgmt.rxsecond = some [1] ∧ 1 ≤ 4096 ∧
    (∀ v ∈ [0x11, 0x12, 0x13, 0x114, 0xC15], v < 2 ^ 63 ∧ hashRefused (m fun x => { x with hlen := 65536 }) v = false) ∧
    [0x11, 0x12, 0x13, 0x114, 0xC15].map hOp = [1, 2, 3, 4, 5] ∧
    (∀ v ∈ [0x01, 0x02, 0x33, 0x14, 0x05], v < 2 ^ 63 ∧ hashRefused State.reset v = true) ∧
    ∀ v i, (v &&& 0x1FF7).testBit i = (v.testBit i && (decide (i < 3) || (decide (4 ≤ i) && decide (i ≤ 12)))) :=
  ⟨settled, by decide, settled, settled, settled, settled, by decide, by decide, rfl, rfl, rfl, ⟨rfl, rfl⟩,
    rfl, by decide, settled, settled, settled, fun v i => by
      rw [Nat.testBit_and]
      rcases Nat.lt_or_ge i 13 with h | h
      · interval_cases i <;> rfl
      · rw [Nat.testBit_lt_two_pow (Nat.lt_of_lt_of_le (by decide : 0x1FF7 < 2 ^ 13) (Nat.pow_le_pow_right (by decide) h))]
        have : ¬ i < 3 ∧ ¬ i ≤ 12 := by omega
        simp [this]⟩
/-- Bytes that the partition opens to the host, bytes that none holds, the last HOST counter. -/
theorem witness_HostAndModuleEventsComplete :
    let s := withPart (managed .configured) fun p => { p with desc := setLE p.desc 5 1 0x28 }
    s.memWf = true ∧ (0x3FFFE + 1 < 2 ^ 40 ∧ hostReaches s (0x3FFFE + 1) = true) ∧ hostReaches s 0x40000 = false ∧ 0x3FFFE + 2 ≤ 2 ^ 40 ∧
    (∀ k, k < 2 → hostReaches s (0x3FFFE + k) = true) ∧ (∀ k, k < 2 → hostReaches s (0x40000 + k) = false) ∧ hostCounterHeld s 1 = true ∧
    (s.job 1).phase ≠ .ended ∧ (s.part 0).st = .configured ∧ (zeros 48).length = 48 ∧ s.mgmtWaits = false ∧ 0 < 2 ∧
    ({ s with mgmt := { s.mgmt with act := { s.mgmt.act with kind := 1, state := 3 } } } : State).mgmtWaits = true :=
  ⟨settled, settled, settled⟩
theorem witness_EncodingRoundTrip :
    let i : Instr := .mma ⟨15, 1, 15, 15, 0, 7, 0, some 0x007F003F⟩
    let j : Instr := .add ⟨15, 2, 31, 31, 31, none⟩
    let m : Instr := .move ⟨true, 3, true, 0x7FF, 0xFFFFFFFF⟩ 0x43
    (∃ e, i.wf = true ∧ encode i = some e ∧ e.slot = 4) ∧ (∃ e, j.wf = true ∧ encode j = some e) ∧ ∃ e, m.wf = true ∧ encode m = some e :=
  ⟨⟨_, by decide, rfl, rfl⟩, ⟨_, by decide, rfl⟩, _, by decide, rfl⟩
theorem witness_StepKeepsMemoryForm : State.reset.memWf = true ∧ ∃ t, step State.reset = .next t := ⟨by decide, _, rfl⟩
theorem witness_ResultsLandInTheirRegister :
    let a : Arch := { s := [(1, 5)], latch := [(0, some 3)] }
    let l := landS 0 1 7 0
    (twf 0 a.s = true ∧ twf 0 a.v = true ∧ twf 0 a.o = true ∧ twf 0 a.p = true ∧ twf 0 a.k = true ∧ twf 0 a.t = true ∧ twf 0 a.steps = true ∧
      twf (some (0 : Vec)) a.latch = true) ∧
    (63 < if l.file = .v ∨ l.file = .o then 2048 else 64) ∧ ¬ (l.num = 0 ∧ (l.file = .s ∨ l.file = .p)) ∧ l.file ≠ .none ∧ l.latch = true ∧
    (landCsr 0 1 1).latch = false ∧ RegFile.v ≠ l.file ∧ 1 ≠ l.slot :=
  by decide +kernel
/-- A strand under RETRY at the strand level, its fault ring empty. -/
theorem witness_FaultEntry :
    let s := withJob (placed id) fun j => { j with record := setLE j.record 18 1 2 }
    let f : FaultAt := { code := cAlign, info := 2 ^ 64 - 1, slot := 2, inst := 0, epc := 0x1000 }
    let d := tget [] (s.part 0).spaces 0
    (0 : Nat) ≠ 768 ∧ s.issueCores 0 = [0] ∧ (s.core 0).job = some 1 ∧ (s.core 0).live.priv_ = 0 ∧ (s.core 0).staged = [] ∧
    f.code ∉ [cPageDevice, cPageHost, cSegmentAuth, cWatchdog, cPoison] ∧ f.info < 2 ^ 64 ∧ recPolicy (s.job 1).record % 8 = 2 ∧
    (s.job 1).memberOf (s.core 0).strand = none ∧ (s.core 0).retrycnt.toNat < Config.retryLimit ∧ s.memWf = true ∧ s.hbmForm = [] ∧ s.poison = [] ∧
    s.waiters = [] ∧ hKind (spaceFrctr d) = 1 ∧ (s.ctr (spaceFrctr d) - s.ctr (spaceFrack d)).toNat < 2 ^ spaceFrlog d :=
  settled
/-- Core 0's share of a bundle. -/
abbrev memberOf (s1 : State) (b : Bundle) : Member := ⟨0, planAll (s1.core 0).live b ((s1.core 0).live.rep != 0)⟩
/-- The placed machine at ADD s1, s0, s0, that is bytes 8 to 11 of the bundle: every premise of the third clause. -/
theorem witness_StepRunsDecoded_bundle :
    let s := State.reset.withFetchWord 32 0x00401000
    let s0 := stageRun 0 false 9 s
    (issueStops s 0 = false ∧ s.issueCores 0 = [0] ∧ (s.core 0).pending = [] ∧ (s.core 0).closing = none ∧ rolesChange s 0 = false ∧
      (s.core 0).dressBad = false ∧ (s.core 0).preempt = false ∧ atsHold (s.core 0).hold = false ∧ outerHold (s.core 0).hold = false ∧
      (s0.core 0).pending = [] ∧ stageHeld s0 0 = false) ∧
    ∃ x b, fetchBundle (s0.onCore 0 fun y => { y with frozen := false }) 0 = .ok x ∧ decodeBundle (decodeCtx x.2.2 0) x.1 x.2.1 = .ok b ∧
      (let m := memberOf x.2.2 b
       let s2 := fenceDrain x.2.2 [m]
       let r := runMember s2 b.len m
       x.2.2.issueCores 0 = [0] ∧ phaseWaits x.2.2 0 = false ∧ caddfWaits x.2.2 [m] = false ∧ (x.2.2.core 0).masks = [] ∧ (x.2.2.core 0).live.loops = [] ∧
        m.ops.map (·.op) = [.add ⟨0, 0, 1, 0, 0, none⟩] ∧ (x.2.2.core 0).instCount = 0 ∧ checkpointsBefore x.2.2 [m] = false ∧
        closesFor s2 r.cur = false ∧ changesRoles s2 [r.cur] = false ∧ waitsFor x.2.2 [m] 0 = none ∧ fenceWaits x.2.2 [m] 0 = false ∧
        outOfWindow x.2.2 [m] = false ∧ r.cur.core = 0 ∧ r.cur.aborted = false ∧ r.cur.frozen = false ∧ b.lend = false ∧
        bufferFull (s2.core 0) r.cur = false ∧ windowMeets r 0 r.cur = false ∧ tileBusy (s2.core 0) r.cur = false ∧ poisonedLoad r 0 = none ∧
        ∀ p ∈ m.ops, latePop p.op = false) :=
  ⟨settled, ok_both settled⟩
/-- The state of a leat core's word after its moves. -/
def wordDone (s : State) (ms : List LeatMove) : State :=
  (moveOrder ms).foldl moveState
    { s.setLeat 0 (s.leat 0).tick with cur := { core := 1000, leatSeen := some ((s.leat 0).tick.queue.length, (s.leat 0).tick.tmrx) } }
/-- A move of b1 to b2, HALT, and a load whose address in b0 is odd. -/
theorem witness_StepRunsDecoded_leat :
    let s (w : Nat) : State :=
      { State.reset with runQueue := [1000] }.setLeat 0 { run := true, halted := false, b := [(0, 1)], imem := Memory.store [] 0 (natLE 4 w) }
    let ends (w : Nat) (aborted halt : Bool) : Prop :=
      ∃ ms, decodeLeat (((s w).leat 0).tick.imem.bytes 0 16) = .ok ms ∧
        decide ((wordDone (s w) ms).cur.aborted = aborted ∧ (wordDone (s w) ms).cur.leatHalt = halt) = true
    ((s 0).leat 0).tick.run = true ∧ ((s 0).leat 0).tick.halted = false ∧ ((s 0).leat 0).tick.pc = 0 ∧
    ends 0x10020 false false ∧ ends 0x11F30 false true ∧ ends 0x1300 true false :=
  ⟨settled, settled, settled, ok_with settled, ok_with settled, ok_with settled⟩
/-- A leat core whose TXU holds 63 resends, and one that holds 64 and has an ACKNOW in its word. -/
theorem witness_StepRunsDecoded_leat_full :
    let w := ((encode (.txuAcknow ⟨false, 0, false, 1, 0⟩)).map (·.word)).getD 0
    let s (n : Nat) : State :=
      { State.reset with parts := [(0, { placedPart with conns := [(0, { entry := zeros 64, port := 0, held := List.replicate n (0, 0) })] })] }.setLeat 0
        { run := true, halted := false, imem := Memory.store [] 0 (natLE 4 w) }
    txuHeld (s 63) 0 = 63 ∧ txuHeld (s 64) 0 = 64 ∧ ∃ ms, decodeLeat (((s 64).leat 0).tick.imem.bytes 0 16) = .ok ms ∧
      ms.any (fun m => triggersTxu { s 64 with cur := { core := 1000 } } m.op) = true :=
  ⟨settled, settled, ok_with settled⟩
/-- The agenda first, then the run queue, then nothing; a Garsum operation and an Adesal move. -/
theorem witness_StepRunsDecoded :
    let a : State := { State.reset with agenda := [.nop 0] }
    let r : State := { State.reset with runQueue := [0] }
    a.agenda = .nop 0 :: [] ∧ (r.agenda = [] ∧ r.runQueue = 0 :: []) ∧ (State.reset.agenda = [] ∧ State.reset.runQueue = []) ∧
    (∃ e, encode (.add ⟨0, 0, 1, 2, 3, none⟩) = some e ∧ e.slot < 8) ∧ State.reset.cur.aborted = false ∧ State.reset.cur.frozen = false ∧
    ∃ e, encode (.move ⟨false, 0, false, 1, 0⟩ 2) = some e ∧ e.slot = 8 :=
  ⟨rfl, ⟨rfl, rfl⟩, ⟨rfl, rfl⟩, ⟨_, rfl, by decide⟩, rfl, rfl, _, rfl, rfl⟩

/-! ### Results: the spec's worked examples and hand calculation, one operation each -/

/-- The result in flight that an outcome leaves last. -/
def landed (o : Host.Outcome State Fault Refusal) : Option Vec :=
  match o with
  | .next t => ((t.core t.cur.core).inflight.getLast?).map (·.val)
  | _ => none
/-- Its low 64 bits. -/
def word (o : Host.Outcome State Fault Refusal) : Option Nat := (landed o).map fun v => lane v 64 0
/-- STATUS after an outcome. -/
def statusOf (o : Host.Outcome State Fault Refusal) : Option Nat :=
  match o with
  | .next t => some (t.core t.cur.core).live.status.toNat
  | _ => none
/-- s4 = a and s5 = b. -/
def ab (a b : Nat) : State := placedS [(4, BitVec.ofNat 64 a), (5, BitVec.ofNat 64 b)]
/-- Vector registers. -/
def vecs (t : Table Vec) (p : Table Word) : State := placed fun a => { a with v := t, p := p }

/-- 00 R3: the four bytes of its example. -/
theorem test_little_endian : leNat [0x11, 0x22, 0x33, 0x44] = 0x44332211 ∧ lane 0x44332211 8 1 = 0x22 ∧ sint 16 (lane 0x44332211 16 0) = 8721 := by decide +kernel
theorem test_add_wraps : word (execAdd (f3 0 6 4 5) (ab 0xFFFFFFFFFFFFFFFF 2)) = some 1 := by decide +kernel
theorem test_add_saturates : word (execAdd (f3 1 6 4 5) (ab 0x7FFFFFFFFFFFFFFF 1)) = some 0x7FFFFFFFFFFFFFFF ∧
    statusOf (execAdd (f3 1 6 4 5) (ab 0x7FFFFFFFFFFFFFFF 1)) = some 16 := by decide +kernel
theorem test_sub_unsigned_saturates : word (execSub (f3 2 6 4 5) (ab 0 1)) = some 0 := by decide +kernel
theorem test_mulh : word (execMulh (f3 0 6 4 5) (ab 0xFFFFFFFFFFFFFFFF 0xFFFFFFFFFFFFFFFF)) = some 0 ∧
    word (execMulh (f3 1 6 4 5) (ab 0xFFFFFFFFFFFFFFFF 0xFFFFFFFFFFFFFFFF)) = some 0xFFFFFFFFFFFFFFFE := by decide +kernel
/-- 09 R193: −7 by 2, by zero, and the most negative number by −1. -/
theorem test_div : word (execDiv (f3 0 6 4 5) (ab (2 ^ 64 - 7) 2)) = some (2 ^ 64 - 3) ∧
    word (execDiv (f3 1 6 4 5) (ab (2 ^ 64 - 7) 0)) = some 0xFFFFFFFFFFFFFFFF ∧
    word (execDiv (f3 0 6 4 5) (ab (2 ^ 63) (2 ^ 64 - 1))) = some (2 ^ 63) := by decide +kernel
theorem test_rem : word (execRem (f3 0 6 4 5) (ab (2 ^ 64 - 7) 2)) = some (2 ^ 64 - 1) ∧
    word (execRem (f3 0 6 4 5) (ab (2 ^ 63) (2 ^ 64 - 1))) = some 0 := by decide +kernel
theorem test_shl_width : word (execShl (f3 0 6 4 5) (ab 1 64)) = some 0 := by decide +kernel
theorem test_sra_width : word (execSra (f3 0 6 4 5) (ab (2 ^ 63) 200)) = some (2 ^ 64 - 1) := by decide +kernel
theorem test_clz : word (execClz (f3 0 6 4 0) (ab 0 0)) = some 64 ∧ word (execClz (f3 0 6 4 0) (ab 1 0)) = some 63 := by decide +kernel
theorem test_popc : word (execPopc (f3 0 6 4 0) (ab 0xF0F1 0)) = some 9 := by decide +kernel
theorem test_setp_signed : word (execSetp (f3 2 1 4 5) (ab (2 ^ 64 - 1) 0)) = some (2 ^ 64 - 1) ∧
    word (execSetp (f3 4 1 4 5) (ab (2 ^ 64 - 1) 0)) = some 0 := by decide +kernel
/-- 09 R194: the two halves of its example. -/
theorem test_movh : word (execMovh ⟨0, 4, 4, 0, some 0x0ABCDEF0⟩ (ab 0x12345678 0)) = some 0x0ABCDEF012345678 := by decide +kernel
theorem test_addi_sign : word (execAddi ⟨0, 4, 5, 0x1FD, none⟩ (ab 0 2)) = some (2 ^ 64 - 1) := by decide +kernel
/-- 04 R91: the fields of its descriptor. -/
theorem test_tile_descriptor :
    let t := tileOf 0x208001FCFE012000 0
    (t.base, t.pitch, t.rows, t.cols, t.ef, t.ax, t.scl) = (0x2000, 1, 128, 128, 0, 0, 0x2080) := by decide +kernel
/-- 06 R118 and R124: the handles of its example, and when a threshold is reached. -/
theorem test_handles : mkHandle 1 5 0x1234 = 0x3400000000001234 ∧ localHandle (2 * 96 + 2 * 10 + 1) 3 = 0x08A8000000000003 := by decide
theorem test_reached : reached 0xFFFFFFFFFFFFFFF0 0x10 = false ∧ reached 0x10 0x10 = true := by decide
/-- 03 R62 and R73: 1 + 2^−8 to BF16 by RNE (with NX), RNA, RTZ and STO. -/
theorem test_round_bf16 :
    let x := Fmt.fp32.decode 0x3F808000
    roundFp .bf16 (RMode.ofCode 0) 0 x = (0x3F80, 8) ∧ (roundFp .bf16 (RMode.ofCode 5) 0x7FFFFFFF x).1 = 0x3F81 ∧
    (roundFp .bf16 (RMode.ofCode 5) 0x80000000 x).1 = 0x3F80 := by decide +kernel
/-- 03 R65: the MXINT6 codes of its example. -/
theorem test_mx6_bytes : bytesOfFields 6 [1, 0x3F, 0x1F, 0x20] = [0xC1, 0xFF, 0x81] := by decide +kernel
/-- 10 R229: 2^24, 1, 1 and −2^24 in the order of the tree. -/
theorem test_vred_order :
    let v := ofLanes 32 4 fun i => [0x4B800000, 0x3F800000, 0x3F800000, 0xCB800000].getD i 0
    (landed (execVred ⟨0, 1, 3, 1, 0, some 0x20000003⟩ (vecs [(1, v)] [(1, 15)]))).map (fun x => lane x 32 0) = some 0x3F800000 := by decide +kernel
theorem test_vadd_int8_saturates :
    (landed (execVadd ⟨0, 5, 3, 1, 2, some 0x00400003⟩ (vecs [(1, 0x7F80), (2, 0x01FF)] []))).map (fun x => (lane x 8 0, lane x 8 1)) =
      some (0x80, 0x7F) := by decide +kernel
/-- 10 R234: 3 + 1 − 1 + 0 + 0.5. -/
theorem test_vdot4 :
    let a := ofLanes 8 4 fun i => [0x3C, 0x40, 0xA8, 0x7E].getD i 0
    let b := ofLanes 8 4 fun i => [0x40, 0x30, 0x48, 0x00].getD i 0
    (landed (execVdot4 ⟨0, 6, 5, 1, 2, some 0x00000006⟩ (vecs [(1, a), (2, b), (6, 0x3F000000)] []))).map (fun x => lane x 32 0) = some 0x40600000 := by
  decide +kernel
/-- 10 R235: 2^0.5, log2 of 8 and the reciprocal square root of 4. -/
theorem test_vector_functions :
    (fnLane .exp2 .fp32 (RMode.ofCode 0) 0 0x3F000000).1 = 0x3FB504F3 ∧ (fnLane .log2 .fp32 (RMode.ofCode 0) 0 0x41000000).1 = 0x40400000 ∧
    (fnLane .rsq .bf16 (RMode.ofCode 0) 0 0x4080).1 = 0x3F00 := by decide +kernel
/-- 11 R248: LDS.W of 0xBF80_0000 is sign-extended. -/
theorem test_lds_sign :
    word (execLds ⟨0, 1, 4, 5, 6, some 0x10⟩ (withHbm (placedS [(5, 0x1100), (6, 0x20)]) 0x130 [0, 0, 0x80, 0xBF])) = some 0xFFFFFFFFBF800000 := by
  decide +kernel
/-- A store joins the effects and changes no memory at issue (11 R248). -/
theorem test_sts_is_held :
    (match execSts ⟨0, 5, 4, 5, 63, none⟩ (placedS [(4, 0xABCD), (5, 0x1FFF)]) with
     | .next t => decide (t.cur.effs = [.store ⟨.hbm, 0xFFF⟩ [0xCD] 0] ∧ t.hbm.read 0xFFF = 0)
     | _ => false) = true := by decide +kernel
theorem test_aluAdd_leat :
    (match execAluAdd ⟨false, 0, false, 0x7FF, 0xFFFFFFFF⟩ (leating [(0x100, 1)] id) with
     | .next t => decide ((t.leat 0).flight = [⟨.port 0x100 0, 1⟩])
     | _ => false) = true := by decide +kernel
/-- One step of the machine issues the bundle at the program counter, ADDI s1, s0, 5 (OPC 19, D 1, A 0, IMM9 5), and its result of latency 1 has landed. -/
theorem test_step_issues :
    (match step (State.reset.withFetchWord 32 0x04C08005) with
     | .next t => decide ((t.core 0).live.sreg 1 = 5 ∧ (t.core 0).live.pc = 0x1008)
     | _ => false) = true := by decide +kernel

end Sys2Proof.Tests
end

namespace Sys2Proof.Machine

/-- Every operation and every event keeps the canonical form of the memories: each by the lemma about its own meaning (Laws/MemFormExec.lean). -/
theorem exec_memWf (i : Instr) {s : State} (h : s.memWf = true) : outWf (exec i s) := by
  cases i with
  | nop g => exact execNop_memWf g h
  | add f => exact execAdd_memWf f h
  | sub f => exact execSub_memWf f h
  | mul f => exact execMul_memWf f h
  | mulh f => exact execMulh_memWf f h
  | div f => exact execDiv_memWf f h
  | rem f => exact execRem_memWf f h
  | and f => exact execAnd_memWf f h
  | or f => exact execOr_memWf f h
  | xor f => exact execXor_memWf f h
  | shl f => exact execShl_memWf f h
  | shr f => exact execShr_memWf f h
  | sra f => exact execSra_memWf f h
  | min f => exact execMin_memWf f h
  | max f => exact execMax_memWf f h
  | clz f => exact execClz_memWf f h
  | popc f => exact execPopc_memWf f h
  | sel f => exact execSel_memWf f h
  | setp f => exact execSetp_memWf f h
  | addi f => exact execAddi_memWf f h
  | andi f => exact execAndi_memWf f h
  | ori f => exact execOri_memWf f h
  | xori f => exact execXori_memWf f h
  | shli f => exact execShli_memWf f h
  | shri f => exact execShri_memWf f h
  | srai f => exact execSrai_memWf f h
  | movi f => exact execMovi_memWf f h
  | movh f => exact execMovh_memWf f h
  | br f => exact execBr_memWf f h
  | jmp f => exact execJmp_memWf f h
  | call f => exact execCall_memWf f h
  | ret f => exact execRet_memWf f h
  | loop f => exact execLoop_memWf f h
  | loopi f => exact execLoopi_memWf f h
  | lbrk f => exact execLbrk_memWf f h
  | exit f => exact execExit_memWf f h
  | csrr f => exact execCsrr_memWf f h
  | csrw f => exact execCsrw_memWf f h
  | csrwSet f => exact execCsrwSet_memWf f h
  | csrwClr f => exact execCsrwClr_memWf f h
  | svc f => exact execSvc_memWf f h
  | sret f => exact execSret_memWf f h
  | fence f => exact execFence_memWf f h
  | join f => exact execJoin_memWf f h
  | leave f => exact execLeave_memWf f h
  | grp f => exact execGrp_memWf f h
  | launch f => exact execLaunch_memWf f h
  | yieldOp f => exact execYieldOp_memWf f h
  | dress f => exact execDress_memWf f h
  | plog f => exact execPlog_memWf f h
  | pmov f => exact execPmov_memWf f h
  | tdef f => exact execTdef_memWf f h
  | vadd f => exact execVadd_memWf f h
  | vsub f => exact execVsub_memWf f h
  | vmul f => exact execVmul_memWf f h
  | vfma f => exact execVfma_memWf f h
  | vmin f => exact execVmin_memWf f h
  | vmax f => exact execVmax_memWf f h
  | vabs f => exact execVabs_memWf f h
  | vneg f => exact execVneg_memWf f h
  | vand f => exact execVand_memWf f h
  | vor f => exact execVor_memWf f h
  | vxor f => exact execVxor_memWf f h
  | vshl f => exact execVshl_memWf f h
  | vshr f => exact execVshr_memWf f h
  | vsra f => exact execVsra_memWf f h
  | vcmp f => exact execVcmp_memWf f h
  | vsel f => exact execVsel_memWf f h
  | vred f => exact execVred_memWf f h
  | vscan f => exact execVscan_memWf f h
  | vperm f => exact execVperm_memWf f h
  | vbcast f => exact execVbcast_memWf f h
  | vextr f => exact execVextr_memWf f h
  | vrcp f => exact execVrcp_memWf f h
  | vrsq f => exact execVrsq_memWf f h
  | vexp2 f => exact execVexp2_memWf f h
  | vlog2 f => exact execVlog2_memWf f h
  | viota f => exact execViota_memWf f h
  | vdot4 f => exact execVdot4_memWf f h
  | lds f => exact execLds_memWf f h
  | sts f => exact execSts_memWf f h
  | ldv f => exact execLdv_memWf f h
  | stv f => exact execStv_memWf f h
  | ldvs f => exact execLdvs_memWf f h
  | stvs f => exact execStvs_memWf f h
  | ldvx f => exact execLdvx_memWf f h
  | stvx f => exact execStvx_memWf f h
  | pref f => exact execPref_memWf f h
  | atom f => exact execAtom_memWf f h
  | accv f => exact execAccv_memWf f h
  | cflush f => exact execCflush_memWf f h
  | cinv f => exact execCinv_memWf f h
  | cvt f => exact execCvt_memWf f h
  | qnt f => exact execQnt_memWf f h
  | dqnt f => exact execDqnt_memWf f h
  | ldk f => exact execLdk_memWf f h
  | stk f => exact execStk_memWf f h
  | movk f => exact execMovk_memWf f h
  | rndw f => exact execRndw_memWf f h
  | rndc f => exact execRndc_memWf f h
  | sealTile f => exact execSealTile_memWf f h
  | openTile f => exact execOpenTile_memWf f h
  | pack f => exact execPack_memWf f h
  | unpack f => exact execUnpack_memWf f h
  | mldb f => exact execMldb_memWf f h
  | mma f => exact execMma_memWf f h
  | mtrn f => exact execMtrn_memWf f h
  | mscl f => exact execMscl_memWf f h
  | madd f => exact execMadd_memWf f h
  | mcvt f => exact execMcvt_memWf f h
  | mzero f => exact execMzero_memWf f h
  | mcpy f => exact execMcpy_memWf f h
  | mvs f => exact execMvs_memWf f h
  | mqnt f => exact execMqnt_memWf f h
  | cpy f => exact execCpy_memWf f h
  | cpyD f => exact execCpyD_memWf f h
  | send f => exact execSend_memWf f h
  | arm f => exact execArm_memWf f h
  | disarm f => exact execDisarm_memWf f h
  | cadd f => exact execCadd_memWf f h
  | caddf f => exact execCaddf_memWf f h
  | caddm f => exact execCaddm_memWf f h
  | mcst f => exact execMcst_memWf f h
  | cload f => exact execCload_memWf f h
  | coll f => exact execColl_memWf f h
  | gen f => exact execGen_memWf f h
  | qstat f => exact execQstat_memWf f h
  | waitf f => exact execWaitf_memWf f h
  | watch f => exact execWatch_memWf f h
  | unwatch f => exact execUnwatch_memWf f h
  | bundleInstanceIssue agent => exact execBundleInstanceIssue_memWf agent h
  | releaseBufferDrain core => exact execReleaseBufferDrain_memWf core h
  | resultLanding core => exact execResultLanding_memWf core h
  | tileOperationComplete core => exact execTileOperationComplete_memWf core h
  | freezeClear core => exact execFreezeClear_memWf core h
  | loadEccFailure core addr => exact execLoadEccFailure_memWf core addr h
  | arrayReadFailure core addr => exact execArrayReadFailure_memWf core addr h
  | preemptionRequest core => exact execPreemptionRequest_memWf core h
  | preemptionFreezeTimeout core => exact execPreemptionFreezeTimeout_memWf core h
  | bankroleZeroingStart mill => exact execBankroleZeroingStart_memWf mill h
  | bankroleZeroingEnd mill => exact execBankroleZeroingEnd_memWf mill h
  | mOperationDispatch core => exact execMOperationDispatch_memWf core h
  | dressWaitExpiry core => exact execDressWaitExpiry_memWf core h
  | counterUpdate handle amount by_ => exact execCounterUpdate_memWf handle amount by_ h
  | hostintPost link vec => exact execHostintPost_memWf link vec h
  | waiterArrival w => exact execWaiterArrival_memWf w h
  | waiterRemoval ctx strand flag => exact execWaiterRemoval_memWf ctx strand flag h
  | watchDeadlineExpiry ctx strand flag => exact execWatchDeadlineExpiry_memWf ctx strand flag h
  | hostCounterStore link off width value => exact execHostCounterStore_memWf link off width value h
  | launchQueueEntryAccept pid queue => exact execLaunchQueueEntryAccept_memWf pid queue h
  | dispatch pid => exact execDispatch_memWf pid h
  | contextSwitchOut ctx base tagAddr => exact execContextSwitchOut_memWf ctx base tagAddr h
  | contextRestore ctx => exact execContextRestore_memWf ctx h
  | contextComplete ctx => exact execContextComplete_memWf ctx h
  | blockYield ctx => exact execBlockYield_memWf ctx h
  | agePeriodExpiry pid task => exact execAgePeriodExpiry_memWf pid task h
  | watchdog ctx => exact execWatchdog_memWf ctx h
  | gangSliceStart pid gang k => exact execGangSliceStart_memWf pid gang k h
  | gangSliceEnd pid gang => exact execGangSliceEnd_memWf pid gang h
  | gangMiss pid gang task k => exact execGangMiss_memWf pid gang task k h
  | idleStateEntry u level => exact execIdleStateEntry_memWf u level h
  | idleWake u => exact execIdleWake_memWf u h
  | translationWalkComplete die pid space va => exact execTranslationWalkComplete_memWf die pid space va h
  | pageDevice core mapped entryAddr entry => exact execPageDevice_memWf core mapped entryAddr entry h
  | pageRequestResponse die index code => exact execPageRequestResponse_memWf die index code h
  | atsTranslationCompletion die pid space page addr r w => exact execAtsTranslationCompletion_memWf die pid space page addr r w h
  | atsInvalidateRequest pid space page pages => exact execAtsInvalidateRequest_memWf pid space page pages h
  | hostLoss link => exact execHostLoss_memWf link h
  | hostlostGraceExpiry pid => exact execHostlostGraceExpiry_memWf pid h
  | engineCommandStart id => exact execEngineCommandStart_memWf id h
  | sluiceBeatDelivery id => exact execSluiceBeatDelivery_memWf id h
  | engineCommandComplete id => exact execEngineCommandComplete_memWf id h
  | mcstComplete id => exact execMcstComplete_memWf id h
  | armEffect id => exact execArmEffect_memWf id h
  | disarmEffect id => exact execDisarmEffect_memWf id h
  | cloadStart id => exact execCloadStart_memWf id h
  | collInstanceStart id => exact execCollInstanceStart_memWf id h
  | chunkOperationStart die slot op => exact execChunkOperationStart_memWf die slot op h
  | chunkOperationComplete die slot op => exact execChunkOperationComplete_memWf die slot op h
  | mvsComplete core => exact execMvsComplete_memWf core h
  | dataPacketReceive p => exact execDataPacketReceive_memWf p h
  | counterPacketReceive p => exact execCounterPacketReceive_memWf p h
  | ackReceive conn cumulative bitmap credit marked => exact execAckReceive_memWf conn cumulative bitmap credit marked h
  | instanceNotArmed conn psn inst slot => exact execInstanceNotArmed_memWf conn psn inst slot h
  | trimRx conn psn => exact execTrimRx_memWf conn psn h
  | rtoExpired conn => exact execRtoExpired_memWf conn h
  | llrReplay port frames first => exact execLlrReplay_memWf port frames first h
  | keyExpiry port conn key pn sublayer => exact execKeyExpiry_memWf port conn key pn sublayer h
  | ptpTimeCorrection backward ns => exact execPtpTimeCorrection_memWf backward ns h
  | connReq port node addr => exact execConnReq_memWf port node addr h
  | connectionHandshakeComplete conn => exact execConnectionHandshakeComplete_memWf conn h
  | connClose conn => exact execConnClose_memWf conn h
  | connectionClosed conn => exact execConnectionClosed_memWf conn h
  | linkDown port mask => exact execLinkDown_memWf port mask h
  | move m dst => exact execMove_memWf m dst h
  | aluAdd m => exact execAluAdd_memWf m h
  | aluSub m => exact execAluSub_memWf m h
  | aluAnd m => exact execAluAnd_memWf m h
  | aluOr m => exact execAluOr_memWf m h
  | aluXor m => exact execAluXor_memWf m h
  | aluShl m => exact execAluShl_memWf m h
  | aluShr m => exact execAluShr_memWf m h
  | aluSra m => exact execAluSra_memWf m h
  | aluEq m => exact execAluEq_memWf m h
  | aluLt m => exact execAluLt_memWf m h
  | aluLtu m => exact execAluLtu_memWf m h
  | aluSel m => exact execAluSel_memWf m h
  | lsuLd32 m => exact execLsuLd32_memWf m h
  | lsuLd64 m => exact execLsuLd64_memWf m h
  | lsuSt32 m => exact execLsuSt32_memWf m h
  | lsuSt64 m => exact execLsuSt64_memWf m h
  | evqPop m => exact execEvqPop_memWf m h
  | evqPeek m => exact execEvqPeek_memWf m h
  | txuTxdesc m => exact execTxuTxdesc_memWf m h
  | txuRetx m => exact execTxuRetx_memWf m h
  | txuAcknow m => exact execTxuAcknow_memWf m h
  | bmuBset m => exact execBmuBset_memWf m h
  | bmuBtest m => exact execBmuBtest_memWf m h
  | bmuBffc m => exact execBmuBffc_memWf m h
  | bmuBcnt m => exact execBmuBcnt_memWf m h
  | ccuWinupd m => exact execCcuWinupd_memWf m h
  | ccuRateset m => exact execCcuRateset_memWf m h
  | tmrTarm m => exact execTmrTarm_memWf m h
  | tmrTcancel m => exact execTmrTcancel_memWf m h
  | ctrCadd m => exact execCtrCadd_memWf m h
  | pcJump m => exact execPcJump_memWf m h
  | pcCall m => exact execPcCall_memWf m h
  | pcRet m => exact execPcRet_memWf m h
  | pcHalt m => exact execPcHalt_memWf m h
  | programTimerExpiry leat n => exact execProgramTimerExpiry_memWf leat n h
  | lctlRun leat value => exact execLctlRun_memWf leat value h
  | readBootStatus tag => exact execReadBootStatus_memWf tag h
  | writePartitionDescriptor tag body => exact execWritePartitionDescriptor_memWf tag body h
  | activatePartition tag pid => exact execActivatePartition_memWf tag pid h
  | destroyPartition tag pid => exact execDestroyPartition_memWf tag pid h
  | drainingComplete pid => exact execDrainingComplete_memWf pid h
  | writeLaunchQueueDescriptor tag pid queue body => exact execWriteLaunchQueueDescriptor_memWf tag pid queue body h
  | writeAddressSpaceDescriptor tag pid space body => exact execWriteAddressSpaceDescriptor_memWf tag pid space body h
  | writeGangDescriptor tag pid gang body => exact execWriteGangDescriptor_memWf tag pid gang body h
  | invalidateTranslations tag pid space base len => exact execInvalidateTranslations_memWf tag pid space base len h
  | openConnection tag pid index body => exact execOpenConnection_memWf tag pid index body h
  | closeConnection tag pid index => exact execCloseConnection_memWf tag pid index h
  | loadKeySlot tag slot body => exact execLoadKeySlot_memWf tag slot body h
  | detach tag pid => exact execDetach_memWf tag pid h
  | reattach tag pid => exact execReattach_memWf tag pid h
  | killSuspended tag pid => exact execKillSuspended_memWf tag pid h
  | readPartitionRecord tag pid which => exact execReadPartitionRecord_memWf tag pid which h
  | requestActivation tag kind image => exact execRequestActivation_memWf tag kind image h
  | raiseSvnFloor tag kind floor => exact execRaiseSvnFloor_memWf tag kind floor h
  | activationFreeze hver payload => exact execActivationFreeze_memWf hver payload h
  | activationHandover => exact execActivationHandover_memWf h
  | activationFreezeTimeout => exact execActivationFreezeTimeout_memWf h
  | heartbeat value => exact execHeartbeat_memWf value h
  | heartbeatTimeout => exact execHeartbeatTimeout_memWf h
  | getVersion msg => exact execGetVersion_memWf msg h
  | getCapabilities msg => exact execGetCapabilities_memWf msg h
  | negotiateAlgorithms msg => exact execNegotiateAlgorithms_memWf msg h
  | getDigests msg => exact execGetDigests_memWf msg h
  | getCertificate msg => exact execGetCertificate_memWf msg h
  | challenge msg => exact execChallenge_memWf msg h
  | getMeasurements msg => exact execGetMeasurements_memWf msg h
  | keyExchange msg => exact execKeyExchange_memWf msg h
  | finish msg => exact execFinish_memWf msg h
  | spdmHeartbeat msg => exact execSpdmHeartbeat_memWf msg h
  | keyUpdate msg => exact execKeyUpdate_memWf msg h
  | endSession msg => exact execEndSession_memWf msg h
  | doeObjectReceive object => exact execDoeObjectReceive_memWf object h
  | txgo len => exact execTxgo_memWf len h
  | rxdone => exact execRxdone_memWf h
  | hashReset cmd => exact execHashReset_memWf cmd h
  | hashAbsorb cmd => exact execHashAbsorb_memWf cmd h
  | hashDigest cmd => exact execHashDigest_memWf cmd h
  | hashSign cmd => exact execHashSign_memWf cmd h
  | hashClone cmd => exact execHashClone_memWf cmd h
  | randRead => exact execRandRead_memWf h
  | managementControllerFault code => exact execManagementControllerFault_memWf code h
  | hostMemoryWrite link addr data => exact execHostMemoryWrite_memWf link addr data h
  | hostMemoryRead link addr len => exact execHostMemoryRead_memWf link addr len h
  | packageReset => exact execPackageReset_memWf h
  | linkHotReset link => exact execLinkHotReset_memWf link h
  | functionLevelReset link => exact execFunctionLevelReset_memWf link h
  | thermalThrottle die => exact execThermalThrottle_memWf die h
  | thermalTrip => exact execThermalTrip_memWf h
  | sidePortResetRequest => exact execSidePortResetRequest_memWf h
  | activationStageTimeout => exact execActivationStageTimeout_memWf h
  | nackRx conn psn reason => exact execNackRx_memWf conn psn reason h
  | priReenable die => exact execPriReenable_memWf die h
  | linkUp port => exact execLinkUp_memWf port h
  | linkPartnerAcknowledgement port frame => exact execLinkPartnerAcknowledgement_memWf port frame h
  | debuggerHalt ctx halt => exact execDebuggerHalt_memWf ctx halt h
  | serviceKeyHashInstall pid hash => exact execServiceKeyHashInstall_memWf pid hash h
  | designPowerThrottle on => exact execDesignPowerThrottle_memWf on h
  | snoop link addr => exact execSnoop_memWf link addr h

/-- What a step runs, it runs on a state with the memories of s: time that passes, the agenda and the run queue are no memory. -/
theorem step_memWf {s : State} (h : s.memWf = true) : outWf (step s) := by
  unfold step
  split
  next i rest _ => exact exec_memWf i (memWf_of_same h rfl rfl rfl rfl)
  next =>
    split
    next => exact outWf_next (memWf_of_same h rfl rfl rfl rfl)
    next a as _ => exact exec_memWf (.bundleInstanceIssue a) (memWf_of_same h rfl rfl rfl rfl)

/-- Settles O56: the form of the memories goes through every constructor of Instr, and a step is one exec at most. -/
theorem stepKeepsMemoryForm : Obligations.StepKeepsMemoryForm :=
  fun _ _ h e => memWf_of_next e (step_memWf h)

end Sys2Proof.Machine

namespace Sys2Proof.Machine

/-! ### Registers of a file: a read after a write (R26, R141, R219) -/

/-- The register tables of the shadowed state are in canonical form. -/
def Arch.tablesWf (a : Arch) : Prop :=
  twf 0 a.s = true ∧ twf 0 a.v = true ∧ twf 0 a.o = true ∧ twf 0 a.p = true ∧ twf 0 a.k = true ∧ twf 0 a.t = true ∧ twf 0 a.steps = true ∧
    twf (some (0 : Vec)) a.latch = true

/-- s0 and p0 are no places of a result (R26). -/
def fixedReg (file : RegFile) (n : Nat) : Prop := n = 0 ∧ (file = .s ∨ file = .p)

/-- A write of a register changes no latch, loop, PC or position in the random range. -/
theorem put_frame (a : Arch) (file : RegFile) (n : Nat) (x : Vec) :
    (a.put file n x).latch = a.latch ∧ (a.put file n x).pc = a.pc ∧ (a.put file n x).loops = a.loops ∧ (a.put file n x).rngNext = a.rngNext := by
  cases file <;> simp only [Arch.put] <;> repeat' split
  all_goals simp only [and_self]

/-- A push into latches changes no register. -/
@[simp] theorem get_pushLatch (a : Arch) (slot : Nat) (x : Vec) (file : RegFile) (n : Nat) : (a.pushLatch slot x).get file n = a.get file n := by
  cases file <;> rfl

theorem put_tablesWf {a : Arch} (file : RegFile) (n : Nat) (x : Vec) (h : a.tablesWf) : (a.put file n x).tablesWf := by
  obtain ⟨hs, hv, ho, hp, hk, ht, hc, hl⟩ := h
  cases file with
  | s =>
    simp only [Arch.put]; split
    · exact ⟨hs, hv, ho, hp, hk, ht, hc, hl⟩
    · exact ⟨twf_tput _ _ hs, hv, ho, hp, hk, ht, hc, hl⟩
  | v => exact ⟨hs, twf_tput _ _ hv, ho, hp, hk, ht, hc, hl⟩
  | o => exact ⟨hs, hv, twf_tput _ _ ho, hp, hk, ht, hc, hl⟩
  | p =>
    simp only [Arch.put]; split
    · exact ⟨hs, hv, ho, hp, hk, ht, hc, hl⟩
    · exact ⟨hs, hv, ho, twf_tput _ _ hp, hk, ht, hc, hl⟩
  | k => exact ⟨hs, hv, ho, hp, twf_tput _ _ hk, ht, hc, hl⟩
  | t => exact ⟨hs, hv, ho, hp, hk, twf_tput _ _ ht, hc, hl⟩
  | csr =>
    simp only [Arch.put]; split
    · exact ⟨hs, hv, ho, hp, hk, ht, hc, hl⟩
    · split
      · exact ⟨hs, hv, ho, hp, hk, ht, hc, hl⟩
      · split
        · exact ⟨hs, hv, ho, hp, hk, ht, hc, hl⟩
        · exact ⟨hs, hv, ho, hp, hk, ht, twf_tput _ _ hc, hl⟩
  | none => exact ⟨hs, hv, ho, hp, hk, ht, hc, hl⟩

theorem pushLatch_tablesWf {a : Arch} (slot : Nat) (x : Vec) (h : a.tablesWf) : (a.pushLatch slot x).tablesWf := by
  obtain ⟨hs, hv, ho, hp, hk, ht, hc, hl⟩ := h
  exact ⟨hs, hv, ho, hp, hk, ht, hc, twf_tput _ _ (twf_tput _ _ hl)⟩

/-- The bits of a file's registers. -/
def RegFile.width (file : RegFile) : Nat := if file = .v ∨ file = .o then 2048 else 64

/-- A register reads as it was written, in the bits of its file. -/
theorem get_put_same {a : Arch} (h : a.tablesWf) {file : RegFile} {n i : Nat} (x : Vec) (hr : ¬ fixedReg file n) (hf : file ≠ .none)
    (hi : i < file.width) : ((a.put file n x).get file n).getLsbD i = x.getLsbD i := by
  obtain ⟨hs, hv, ho, hp, hk, ht, hc, -⟩ := h
  have narrow (hw : i < 64) : ((x.setWidth 64).setWidth 2048).getLsbD i = x.getLsbD i := by
    simp only [BitVec.getLsbD_setWidth, hw, show i < 2048 by omega, decide_true, Bool.true_and]
  cases file with
  | s =>
    have hn : n ≠ 0 := fun e => hr ⟨e, .inl rfl⟩
    simpa only [Arch.put, Arch.get, Arch.sreg, if_neg hn, tget_tput_same n _ hs] using narrow hi
  | v => simp only [Arch.put, Arch.get, tget_tput_same n _ hv]
  | o => simp only [Arch.put, Arch.get, tget_tput_same n _ ho]
  | p =>
    have hn : n ≠ 0 := fun e => hr ⟨e, .inr rfl⟩
    simpa only [Arch.put, Arch.get, Arch.pred, if_neg hn, tget_tput_same n _ hp] using narrow hi
  | k => simpa only [Arch.put, Arch.get, Arch.kreg, tget_tput_same n _ hk] using narrow hi
  | t => simpa only [Arch.put, Arch.get, Arch.treg, tget_tput_same n _ ht] using narrow hi
  | csr =>
    refine Eq.trans (congrArg (BitVec.getLsbD · i) ?_) (narrow hi)
    simp only [Arch.put, Arch.get]
    split
    · rfl
    · split
      · rfl
      · split
        · rfl
        · rw [tget_tput_same n _ hc]
  | none => exact absurd rfl hf

/-- A write changes no other register. -/
theorem get_put_ne {a : Arch} (h : a.tablesWf) {file g : RegFile} {n m : Nat} (x : Vec) (hne : g ≠ file ∨ m ≠ n) :
    (a.put file n x).get g m = a.get g m := by
  obtain ⟨hs, hv, ho, hp, hk, ht, hc, -⟩ := h
  by_cases hg : g = file
  · subst hg
    have hm : m ≠ n := hne.resolve_left (fun e => e rfl)
    cases g with
    | s => simp only [Arch.put]; split <;> simp only [Arch.get, Arch.sreg, tget_tput_ne _ hs hm]
    | v => exact tget_tput_ne _ hv hm
    | o => exact tget_tput_ne _ ho hm
    | p => simp only [Arch.put]; split <;> simp only [Arch.get, Arch.pred, tget_tput_ne _ hp hm]
    | k => simp only [Arch.put, Arch.get, Arch.kreg, tget_tput_ne _ hk hm]
    | t => simp only [Arch.put, Arch.get, Arch.treg, tget_tput_ne _ ht hm]
    | csr =>
      simp only [Arch.put]
      split
      · next h0 => simp [Arch.get, h0 ▸ hm]
      · split
        · next h1 => simp [Arch.get, h1 ▸ hm]
        · split
          · next h2 => simp [Arch.get, h2 ▸ hm]
          · simp only [Arch.get, tget_tput_ne _ hc hm]
    | none => rfl
  · cases file <;> simp only [Arch.put] <;> repeat' split
    all_goals cases g <;> simp_all [Arch.get, Arch.sreg, Arch.pred, Arch.kreg, Arch.treg]

/-! ### Latches (R141) -/

theorem latchOf_pushLatch_last {a : Arch} (h : twf (some (0 : Vec)) a.latch = true) (slot : Nat) (x : Vec) :
    (a.pushLatch slot x).latchOf slot 0 = some x :=
  tget_tput_same _ _ (twf_tput _ _ h)
theorem latchOf_pushLatch_previous {a : Arch} (h : twf (some (0 : Vec)) a.latch = true) (slot : Nat) (x : Vec) :
    (a.pushLatch slot x).latchOf slot 1 = a.latchOf slot 0 :=
  (tget_tput_ne _ (twf_tput _ _ h) (by omega)).trans (tget_tput_same _ _ h)
theorem latchOf_pushLatch_ne {a : Arch} (h : twf (some (0 : Vec)) a.latch = true) {slot k age : Nat} (x : Vec) (hk : k ≠ slot) (hage : age < 2) :
    (a.pushLatch slot x).latchOf k age = a.latchOf k age :=
  (tget_tput_ne _ (twf_tput _ _ h) (by omega)).trans (tget_tput_ne _ h (by omega))

/-! ### A landing (R139, R148) -/

theorem getLsbD_mergeV (old new mask : Vec) {i : Nat} (hi : i < 2048) :
    (mergeV old new mask).getLsbD i = if mask.getLsbD i then new.getLsbD i else old.getLsbD i := by
  simp only [mergeV, BitVec.getLsbD_or, BitVec.getLsbD_and, BitVec.getLsbD_not, hi, decide_true, Bool.true_and]
  cases mask.getLsbD i <;> simp

/-- The value that a landing leaves in its register (R219). -/
def landValue (a : Arch) (l : Landing) : Vec := mergeV (a.get l.file l.num) l.val l.mask

theorem land_eq (a : Arch) (l : Landing) :
    a.land l = if l.latch then (a.put l.file l.num (landValue a l)).pushLatch l.slot (landValue a l) else a.put l.file l.num (landValue a l) := rfl

/-- A landing writes its register; the latches keep apart from the registers. -/
theorem get_land (a : Arch) (l : Landing) (file : RegFile) (n : Nat) :
    (a.land l).get file n = (a.put l.file l.num (landValue a l)).get file n := by
  rw [land_eq]; split
  · exact get_pushLatch _ _ _ _ _
  · rfl

theorem land_tablesWf {a : Arch} (l : Landing) (h : a.tablesWf) : (a.land l).tablesWf := by
  rw [land_eq]; split
  · exact pushLatch_tablesWf _ _ (put_tablesWf _ _ _ h)
  · exact put_tablesWf _ _ _ h

theorem land_frame (a : Arch) (l : Landing) : (a.land l).pc = a.pc ∧ (a.land l).loops = a.loops ∧ (a.land l).rngNext = a.rngNext := by
  obtain ⟨-, hpc, hloops, hrng⟩ := put_frame a l.file l.num (landValue a l)
  rw [land_eq]; split <;> exact ⟨hpc, hloops, hrng⟩

/-- What a landing leaves in the latches (R141): the merged value first in those of its slot. -/
theorem land_latches {a : Arch} (l : Landing) (h : twf (some (0 : Vec)) a.latch = true) (hl : l.latch = true) :
    (a.land l).latchOf l.slot 0 = some (landValue a l) ∧ (a.land l).latchOf l.slot 1 = a.latchOf l.slot 0 ∧
      ∀ k age, k ≠ l.slot → age < 2 → (a.land l).latchOf k age = a.latchOf k age := by
  obtain ⟨hput, -, -, -⟩ := put_frame a l.file l.num (landValue a l)
  have hw : twf (some (0 : Vec)) (a.put l.file l.num (landValue a l)).latch = true := by rw [hput]; exact h
  have hkeep (k age : Nat) : (a.put l.file l.num (landValue a l)).latchOf k age = a.latchOf k age :=
    congrArg (tget (some 0) · (2 * k + age)) hput
  rw [land_eq, if_pos hl]
  exact ⟨latchOf_pushLatch_last hw _ _, (latchOf_pushLatch_previous hw _ _).trans (hkeep _ _),
    fun k age hk hage => (latchOf_pushLatch_ne hw _ hk hage).trans (hkeep _ _)⟩
theorem land_latch_unlatched (a : Arch) (l : Landing) (hl : l.latch = false) : (a.land l).latch = a.latch := by
  rw [land_eq, hl]; exact (put_frame a l.file l.num (landValue a l)).1

/-- Settles O59: a landing is one write of a register, whose rules are those above, and one push into the latches of its slot. -/
theorem resultsLandInTheirRegister : Obligations.ResultsLandInTheirRegister := by
  intro a l wf t (h : a.tablesWf)
  obtain ⟨hpc, hloops, hrng⟩ := land_frame a l
  have hlatch : twf (some (0 : Vec)) a.latch = true := by obtain ⟨-, -, -, -, -, -, -, hl⟩ := h; exact hl
  refine ⟨land_tablesWf l h, ?masked, ?others, rfl, rfl, hpc, hloops, hrng, land_latch_unlatched a l, land_latches l hlatch⟩
  case masked =>
    intro i hi hr hf
    rw [show t.get _ _ = _ from get_land a l _ _, get_put_same h _ hr hf hi, landValue, getLsbD_mergeV]
    split at hi <;> omega
  case others =>
    intro file n hne
    rw [show t.get _ _ = _ from get_land a l _ _, get_put_ne h _ hne]

end Sys2Proof.Machine

namespace Sys2Proof.Machine

/-! ### Operations that complete at issue (R191, R201, R207 to R216) -/

/-- The immediate of a branch is what ImmOf says (R172). -/
theorem immFB_of_immOf {f : FB} {imm : Int} (h : ImmOf f.ext 21 f.imm21 imm) : immFB f = BitVec.ofInt 64 imm := by
  rcases h with ⟨he, -, rfl⟩ | ⟨e, he, -, rfl⟩ <;> simp only [immFB, he, BitVec.signExtend]

/-- What only USER may run goes on (R191). -/
theorem notService_user {s : State} (h : s.curCore.live.priv_ ≠ 1) (k : State → State) : notService s k = k s := by
  simp [notService, h]
theorem notService_atSlot {s : State} (h : s.inUser) (slot : Nat) (k : State → State) : notService (s.atSlot slot) k = k (s.atSlot slot) :=
  notService_user (by rw [atSlot_curCore]; exact h) k
theorem notService_reads {s : State} (h : s.inUser) (slot : Nat) (codes : List Nat) (k : State → State) :
    notService (reads (s.atSlot slot) codes) k = k (reads (s.atSlot slot) codes) :=
  notService_user (by rw [reads_priv, atSlot_curCore]; exact h) k

theorem onLead_lead {s : State} (h : s.cur.follower = false) (k : State → State) : onLead s k = k s := by simp [onLead, h]
theorem onLead_follower {s : State} (h : s.cur.follower = true) (k : State → State) : onLead s k = s := by simp [onLead, h]

/-- The management controller runs at FIRM, any other core at its STATUS.PRIV. -/
theorem privOf_ne_zero {s : State} (h : s.cur.core = 768 ∨ s.curCore.live.priv_ ≠ 0) : privOf s s.cur.core ≠ 0 := by
  unfold privOf
  split
  · decide
  · next hc => exact h.resolve_left (fun e => hc (by rw [e]; decide))

/-- A FENCE with no counter read before it acquires nothing (R113). -/
theorem acquireSeen_of_nil {s : State} {c : Nat} (scope : Nat) (h : (s.core c).seen = []) : acquireSeen s c scope = s := by
  simp [acquireSeen, h]

/-- Settles O8: the gate passes, then each operation marks the cursor. -/
theorem endsComplete : Obligations.EndsComplete := by
  refine ⟨fun f s hi => ⟨fun hu hf => ?exit, fun hu hf => ?exitFollower, fun hp => ?sret,
    ⟨fun h0 => ?fence, fun h0 => ?fenceWide, fun hs => acquireSeen_of_nil _ hs⟩, fun hu hf => ?yield, fun hu hf => ?yieldFollower⟩,
    fun f s imm hi himm hu hv => ?svc⟩
  case exit =>
    show execExit f s = _
    rw [execExit, slotOp_issues hi, notService_atSlot hu, onLead_lead (s := s.atSlot 0) hf]
  case exitFollower =>
    show execExit f s = _
    rw [execExit, slotOp_issues hi, notService_atSlot hu, onLead_follower (s := s.atSlot 0) hf]
  case sret =>
    show execSret f s = _
    rw [execSret, slotOp_issues hi, if_neg (by simpa using privOf_ne_zero (s := s.atSlot 0) hp)]
  case fence =>
    show execFence f s = _
    rw [execFence, slotOp_issues hi]
    simp only [h0, beq_self_eq_true, if_true, atSlot_cur_core]
  case fenceWide =>
    show execFence f s = _
    rw [execFence, slotOp_issues hi]
    simp only [beq_iff_eq, h0, if_false, atSlot_cur_core]
  case yield =>
    show execYieldOp f s = _
    rw [execYieldOp, slotOp_issues hi, notService_atSlot hu, if_neg (by simp [State.atSlot, hf])]
    rfl
  case yieldFollower =>
    show execYieldOp f s = _
    rw [execYieldOp, slotOp_issues hi, notService_atSlot hu, if_pos (show (s.atSlot 0).cur.follower = true from hf)]
  case svc =>
    show execSvc f s = _
    rw [execSvc, slotOp_issues hi, notService_atSlot hu, if_neg (by simpa using hv), immFB_of_immOf himm]

/-! ### Groups (R36, R210 to R212) -/

/-- Reading sources changes no group, job or member of a core. -/
@[simp] theorem reads_coreGroup (s : State) (codes : List Nat) (c : Nat) : (reads s codes).coreGroup c = s.coreGroup c := by
  have hs : ((reads s codes).core c).strand = (s.core c).strand := by
    rw [reads_eq]; split
    · by_cases h : c = s.cur.core
      · subst h; rw [onCore_core]; rfl
      · rw [onCore_core_ne _ _ h]
    · rfl
  simp only [State.coreGroup, reads_coreJob, hs]

/-- The count and the LOCKSTEP bit of a JOIN's second source (R210). -/
theorem joinOperand_fields {b m : Nat} {lock : Bool} (hm : m ≤ 256) (hb : b = m + (if lock then 2 ^ 16 else 0)) :
    b % 512 = m ∧ b.testBit 16 = lock := by
  subst hb
  cases lock
  · refine ⟨by simp; omega, ?_⟩
    rw [testBit_eq_div_mod]; simp; omega
  · refine ⟨by simp; omega, ?_⟩
    rw [testBit_eq_div_mod]; simp; omega

/-- A JOIN whose sources and groups pass registers at the end of its bundle (R210). -/
theorem execJoin_joins {f : F3} {s : State} {m pol : Nat} {lock : Bool} (hi : Issues 0 f.g s) (hu : s.inUser) (h2 : 2 ≤ m) (h256 : m ≤ 256)
    (hb : (s.srcS 0 f.b).toNat = m + (if lock then 2 ^ 16 else 0)) (hp : joinPolicy s s.cur.core f.fn = pol)
    (hj : joinOk (reads (s.atSlot 0) [f.a, f.b]) s.cur.core (s.srcS 0 f.a) m pol lock = true) :
    execJoin f s = .next ((reads (s.atSlot 0) [f.a, f.b]).withEff (.join (s.srcS 0 f.a) m pol lock)) := by
  obtain ⟨hmod, hbit⟩ := joinOperand_fields h256 hb
  have hpol : joinPolicy (reads (s.atSlot 0) [f.a, f.b]) s.cur.core f.fn = pol := by
    simpa only [joinPolicy, reads_coreJob, atSlot_coreJob] using hp
  rw [execJoin, slotOp_issues hi, notService_reads hu]
  simp only [reads_sval, atSlot_sval, reads_cur, atSlot_cur_core, hmod, hbit, hpol, hj]
  rw [if_neg (by simpa [show ¬ m < 2 by omega, show ¬ 256 < m by omega] using hb), if_neg (by decide)]
  rfl

/-- GRP reads the group of the core (R212). -/
theorem execGrp_gives {f : F3} {s : State} (hi : Issues 0 f.g s) (hu : s.inUser) :
    execGrp f s = .next (s.delivers 0 [f.a] 0 [landS 0 f.d (grpValue (s.coreGroup s.cur.core) f.fn (s.srcS 0 f.a)) 1]) := by
  rw [execGrp, slotOp_issues hi, notService_reads hu, giveS_eq, deliver_reads, reads_coreGroup, reads_cur, reads_sval]
  rfl

/-- Settles O12: JOIN by its checks, LEAVE and GRP by the group of the core. -/
theorem groupsComplete : Obligations.GroupsComplete := by
  intro f s hi hu a b seen
  refine ⟨fun m pol lock h2 h256 hb hp hj => execJoin_joins hi hu h2 h256 hb ?policy hj, fun g hg => ?leave, ?grp⟩
  case policy => simp only [joinPolicy, beq_iff_eq, hp]
  case leave =>
    show execLeave f s = _
    rw [execLeave, slotOp_issues hi, notService_atSlot hu]
    simp only [show (s.atSlot 0).coreGroup (s.atSlot 0).cur.core = some g from hg]
    rfl
  case grp =>
    intro gives
    have reads_ (v : Word) (hv : grpValue (s.coreGroup s.cur.core) f.fn a = v) : gives v := hv ▸ execGrp_gives hi hu
    refine ⟨fun hn => ⟨fun h0 => ?_, fun h0 => ?_⟩, fun g hg => ⟨fun h0 => ?_, fun h1 st hst => ?_, fun h2 hnone => ?_, fun h2 st hst => ?_⟩⟩
    all_goals apply reads_
    · simp [hn, grpValue, h0]
    · simp [hn, grpValue, h0, allOnes]
    · simp [hg, grpValue, h0]
    · simp [hg, grpValue, h1, hst]
    · simp [hg, grpValue, h2, hnone, allOnes]
    · simp [hg, grpValue, h2, hst]

/-! ### LAUNCH, DRESS and TDEF (R213, R215, R216) -/

/-- A part of the state that every step of a fold keeps, the fold keeps. -/
theorem foldl_keeps {α β : Type} (part : State → β) (f : State → α → State) (h : ∀ t x, part (f t x) = part t) (xs : List α) (s : State) :
    part (xs.foldl f s) = part s := by
  induction xs generalizing s with
  | nil => rfl
  | cons x xs ih => rw [List.foldl_cons, ih, h]

/-- Waking a die changes no more than the dies (R366). -/
theorem wakeDie_dies (s : State) (d : Nat) : wakeDie s d = { s with dies := (wakeDie s d).dies } := by
  simp only [wakeDie]; split <;> rfl
@[simp] theorem wakeDie_cur (s : State) (d : Nat) : (wakeDie s d).cur = s.cur := by rw [wakeDie_dies]
@[simp] theorem wakeWalks_cur (s : State) (held es : List TlbEnt) : (wakeWalks s held es).cur = s.cur := by
  refine foldl_keeps (·.cur) _ (fun t e => ?_) es s
  split
  · rfl
  · exact foldl_keeps (·.cur) _ (fun u d => wakeDie_cur u d) _ t
@[simp] theorem keepPages_cur (s : State) (c : Nat) (es : List TlbEnt) : (keepPages s c es).cur = s.cur := wakeWalks_cur s _ es

/-- An access whose check passes goes on with its pieces (R246). -/
theorem withAccess_reaches {s : State} {va n align : Nat} {need : Need} {noHost : Bool} {ps : List Piece} {es : List TlbEnt}
    (h : Reaches s va n align need noHost ps es) (k : State → List Piece → State) :
    withAccess s va n align need noHost k = k (keepPages s s.cur.core es) ps := by
  simp only [withAccess, show coreAccess s s.cur.core va n align need noHost = _ from h]

/-- LAUNCH whose record passes (R213). -/
theorem execLaunch_launches {f : F3} {s : State} {p : Piece} {ps : List Piece} {es : List TlbEnt} (hi : Issues 0 f.g s) (hu : s.inUser)
    (hr : Reaches (reads (s.atSlot 0) [f.a]) (s.srcS 0 f.a).toNat 128 128 .read false (p :: ps) es) :
    let u := keepPages (reads (s.atSlot 0) [f.a]) s.cur.core es
    let job := u.coreJob s.cur.core
    let got := loadWhole u s.cur.core (p :: ps)
    let part := u.part job.pid
    let held := if recDepabs got.1 = true then part else part.reserve (recDeph got.1)
    job.depth < 24 → part.tickets < part.pool → recordFaultAt got.2 job.pid got.1 = none →
      execLaunch f s = .next ((got.2.setPart job.pid { held with tickets := part.tickets + 1 }).withEff (.cmd (.launch got.1 p.loc))) := by
  intro u job got part held hd ht hf
  rw [execLaunch, slotOp_issues hi, notService_reads hu]
  simp only [reads_sval, atSlot_sval]
  rw [withAccess_reaches hr]
  simp only [keepPages_cur, reads_cur, atSlot_cur_core]
  rw [if_neg (by rw [decide_eq_true_eq, Nat.not_le]; exact hd), if_neg (by rw [decide_eq_true_eq, Nat.not_le]; exact ht),
    show recordFaultAt _ _ _ = none from hf]
  rfl

/-- DRESS takes the rules it has read (R215); none are read for a count of 0. -/
theorem execDress_empty {f : F3} {s : State} (hi : Issues 0 f.g s) (hu : s.inUser) (ha : (s.srcS 0 f.a).toNat % 32 = 0)
    (hn : (s.srcS 0 f.b).toNat = 0) : execDress f s = .next ((reads (s.atSlot 0) [f.a, f.b]).withEff (.cmd (.dress []))) := by
  rw [execDress, slotOp_issues hi, notService_reads hu]
  simp only [reads_sval, atSlot_sval, ha, hn]
  rfl
theorem execDress_rules {f : F3} {s : State} {ps : List Piece} {es : List TlbEnt} (hi : Issues 0 f.g s) (hu : s.inUser)
    (ha : (s.srcS 0 f.a).toNat % 32 = 0) (h1 : 1 ≤ (s.srcS 0 f.b).toNat) (h64 : (s.srcS 0 f.b).toNat ≤ 64)
    (hr : Reaches (reads (s.atSlot 0) [f.a, f.b]) (s.srcS 0 f.a).toNat (32 * (s.srcS 0 f.b).toNat) 32 .read false ps es) :
    let got := loadWhole (keepPages (reads (s.atSlot 0) [f.a, f.b]) s.cur.core es) s.cur.core ps
    let rules := chunksOf 32 (s.srcS 0 f.b).toNat got.1
    (∀ r ∈ rules, ruleBad r = false) → execDress f s = .next (got.2.withEff (.cmd (.dress rules))) := by
  intro got rules hbad
  have hany : rules.any ruleBad = false := by simpa using hbad
  rw [execDress, slotOp_issues hi, notService_reads hu]
  simp only [reads_sval, atSlot_sval]
  rw [if_neg (by simpa using ha), if_neg (by simpa using h64), if_neg (by simp; omega), withAccess_reaches hr]
  simp only [keepPages_cur, reads_cur, atSlot_cur_core]
  rw [if_neg (by rw [show List.any _ ruleBad = false from hany]; decide)]
  rfl

/-- Settles O13: LAUNCH and DRESS once their accesses pass, TDEF as one result in flight. -/
theorem launchDressTdefComplete : Obligations.LaunchDressTdefComplete := by
  intro f s hi
  refine ⟨fun p ps es hu hr => execLaunch_launches hi hu hr,
    fun hu ha => ⟨execDress_empty hi hu ha, fun ps es h1 h64 hr => execDress_rules hi hu ha h1 h64 hr⟩, fun hb => ?tdef⟩
  case tdef =>
    show execTdef f s = _
    rw [execTdef, slotOp_issues hi]
    simp only [reads_sval, atSlot_sval]
    rw [if_neg (by rw [hb]; decide), deliver_reads]
    rfl

end Sys2Proof.Machine

namespace Sys2Proof.Machine

/-! ### Ageing, the watchdog and gang slices (R47, R361 to R364, R427) -/

/-- A raise that is due (R47): it waits while the scheduler is paused, and is made otherwise. -/
theorem execAgePeriodExpiry_due {s : State} {pid task : Nat} (hpid : (s.job task).pid = pid) (hready : (s.job task).phase = .ready)
    (hlevel : (s.part pid).ceiling + s.mgmt.act.deferred.count (.event (.agePeriodExpiry pid task)) < (s.job task).level)
    (hdue : (s.job task).readyAt + (s.mgmt.act.deferred.count (.event (.agePeriodExpiry pid task)) + 1) * ((s.part pid).agePeriod.toNat * 1000) ≤
      s.fabricTime) :
    execAgePeriodExpiry pid task s =
      if s.schedPaused then .next (s.defer (.event (.agePeriodExpiry pid task)))
      else .next ((s.setJob task { s.job task with
        level := (s.job task).level - 1, readyAt := (s.job task).readyAt + (s.part pid).agePeriod.toNat * 1000 }).push [.dispatch pid]) := by
  rw [execAgePeriodExpiry, if_neg]
  simp only [hpid, hready, bne_self_eq_false, Bool.false_or, Bool.or_eq_true, decide_eq_true_eq]
  omega

/-- The watchdog counts up to now where its context is resident, not halted, and waits for no page (R364). -/
theorem noteWatch_counts {s : State} {id : Nat} (hw : recWdog (s.job id).record ≠ 0) (hc : watchCounts s id = true) :
    noteWatch s id =
      s.setJob id { s.job id with wdogNs := (s.job id).wdogNs + (s.fabricTime - (s.job id).wdogAt), wdogAt := s.fabricTime } := by
  simp only [noteWatch, beq_iff_eq, hw, if_false, hc, if_true]

@[simp] theorem setJob_setJob (s : State) (id : Nat) (j k : Job) : (s.setJob id j).setJob id k = s.setJob id k := by
  simp only [State.setJob, tins_tins]

/-- A watchdog whose count is reached is offered once (R364). -/
theorem execWatchdog_offers {s : State} {id : Nat} (hw : recWdog (s.job id).record ≠ 0) (hrun : (s.job id).phase = .running)
    (himg : (s.job id).image = none) (hhalt : (s.job id).halted = false) (hhit : (s.job id).wdogHit = false) (hpage : awaitsPage s id = false)
    (hdue : recWdog (s.job id).record * 1000 ≤ (s.job id).wdogNs + (s.fabricTime - (s.job id).wdogAt)) :
    execWatchdog id s = .next (offerAll (offerContext (s.setJob id { s.job id with
      wdogNs := (s.job id).wdogNs + (s.fabricTime - (s.job id).wdogAt), wdogAt := s.fabricTime, wdogHit := true }) id cWatchdog 0)) := by
  have hc : watchCounts s id = true := by simp [watchCounts, hw, hrun, himg, hhalt, hpage]
  rw [execWatchdog, noteWatch_counts hw hc]
  simp only [job_setJob, setJob_setJob, hc, hhit]
  rw [if_neg (by simpa using hdue)]
  rfl

theorem inSlice_iff (s : State) (d : List Byte) (k : Nat) :
    inSlice s d k = true ↔ gangOn d = true ∧ sliceStart d k ≤ s.fabricTime ∧ s.fabricTime < sliceEnd d k := by
  simp only [inSlice, Bool.and_eq_true, decide_eq_true_eq, and_assoc]

/-- A slice that is due starts (R362): one that still runs ends first. -/
theorem execGangSliceStart_due {s : State} {pid gang k : Nat} (hact : (s.part pid).st = .active)
    (hin : inSlice s (tget [] (s.part pid).gangs gang) k = true) (hnew : tget none (s.part pid).slice gang ≠ some k) :
    execGangSliceStart pid gang k s =
      if s.schedPaused then .next (s.deferOnce (.gangSliceStart pid gang k))
      else
        let t := if tget none (s.part pid).slice gang = none then s else endSlice s pid gang
        .next (offerAll ((t.setPart pid { t.part pid with slice := tins (t.part pid).slice gang (some k) }).push [.dispatch pid])) := by
  rw [execGangSliceStart, if_neg (by simp [hact, hin, hnew])]
  cases tget none (s.part pid).slice gang <;> rfl

theorem execGangSliceEnd_due {s : State} {pid gang k : Nat} (hopen : tget none (s.part pid).slice gang = some k)
    (hin : ¬ inSlice s (tget [] (s.part pid).gangs gang) k = true) :
    execGangSliceEnd pid gang s =
      if s.schedPaused then .next (s.deferOnce (.gangSliceEnd pid gang)) else .next (offerAll (endSlice s pid gang)) := by
  simp only [execGangSliceEnd, hopen, if_neg hin]
  rfl

/-- A member that its slice could not place in time is skipped for it (R363). -/
theorem execGangMiss_skips {s : State} {pid gang task k : Nat} (hp : s.schedPaused = false) (hpid : (s.job task).pid = pid)
    (hready : (s.job task).phase = .ready) (hg : recGang (s.job task).record = true) (hix : recGangix (s.job task).record = gang)
    (hopen : tget none (s.part pid).slice gang = some k) (hin : inSlice s (tget [] (s.part pid).gangs gang) k = true)
    (hskip : (s.job task).skipped ≠ some k) (hlate : sliceStart (tget [] (s.part pid).gangs gang) k + 20000 ≤ s.fabricTime) :
    execGangMiss pid gang task k s = .next (((recordSet (recordAdd s pid (40 + 4 * gang) 4 1) pid (104 + 8 * gang) 8 k).setJob task
      { s.job task with skipped := some k }).push [.dispatch pid]) := by
  have ho : gangOpen s (s.job task) = true := by simp [gangOpen, hpid, hix, hopen, hin, hskip]
  rw [execGangMiss, if_neg, hp]
  · rfl
  · simp only [hpid, hready, hg, hix, ho, hopen, bne_self_eq_false, Bool.not_true, Bool.false_or, decide_eq_true_eq]
    exact Nat.not_lt.2 hlate

/-! ### Idle states (R365, R366) -/

theorem wakeDie_idle (s : State) (d : Nat) : ((wakeDie s d).die d).idle = 0 := by
  simp only [wakeDie]; split
  · next h => simp only [Bool.and_eq_true, beq_iff_eq] at h; exact h.1
  · rw [die_setDie]
/-- Waking a mill changes no more than the dies and the mills (R366). -/
theorem wakeMill_frame (s : State) (m : Nat) : wakeMill s m = { s with dies := (wakeMill s m).dies, mills := (wakeMill s m).mills } := by
  simp only [wakeMill]; repeat' split
  all_goals rfl
theorem wakeMill_mill_idle (s : State) (m : Nat) : ((wakeMill s m).mill m).idle = 0 := by
  simp only [wakeMill]; split
  · next h => simp only [Bool.and_eq_true, beq_iff_eq] at h; split <;> exact h.1
  · rw [mill_setMill]
theorem wakeMill_die_idle (s : State) (m : Nat) : ((wakeMill s m).die (millDie m)).idle = 0 := by
  have h : (wakeMill s m).die (millDie m) = (wakeDie s (millDie m)).die (millDie m) := by
    simp only [wakeMill, wakeDie]; repeat' split
    all_goals rfl
  rw [h, wakeDie_idle]
/-- Waking a core changes no more than its idle state, and the dies and the mills (R366). -/
theorem wakeCore_frame (s : State) (c : Nat) :
    wakeCore s c = { s with dies := (wakeCore s c).dies, mills := (wakeCore s c).mills, cores := (wakeCore s c).cores } := by
  rw [wakeCore, wakeMill_frame]; split <;> rfl
theorem wakeCore_core (s : State) (c : Nat) : (wakeCore s c).core c = { s.core c with power := 0, idleAt := none } := by
  rw [wakeCore, wakeMill_frame]; split
  · next h =>
    simp only [Bool.and_eq_true, beq_iff_eq, Option.isNone_iff_eq_none] at h
    obtain ⟨hp, hi⟩ := h
    show s.core c = _
    rw [← hp, ← hi]
  · exact core_setCore _ _ _

/-- A condition that has held for its exit time lets a unit in; one that begins to hold is noted. -/
theorem idleStep_enters {now exit_ a : Nat} (h : a + exit_ ≤ now) : idleStep now exit_ true (some a) = (true, some a) := by
  simp [idleStep, h]
theorem idleStep_notes (now exit_ : Nat) : idleStep now exit_ true none = (false, some now) := rfl

/-- What IDLE_STATE_ENTRY does to a core, a mill and a die (R365). -/
theorem execIdleStateEntry_core {s : State} {u : Nat} (hu : u < 768) :
    execIdleStateEntry u 1 s =
      let r := idleStep s.fabricTime 50 (coreIdle s u && tolerates s (u / 2) 50) (s.core u).idleAt
      .next (s.setCore u { s.core u with power := if r.1 then 1 else (s.core u).power, idleAt := r.2 }) := by
  rw [execIdleStateEntry, if_pos (by rw [Bool.and_eq_true, decide_eq_true_eq]; exact ⟨rfl, hu⟩)]
  rfl
theorem execIdleStateEntry_mill {s : State} {u : Nat} (hu : u < 384) :
    execIdleStateEntry (768 + u) 2 s =
      let r := idleStep s.fabricTime 5000 (millIdle s u && tolerates s u 5000) (s.mill u).idleAt
      .next (s.setMill u { s.mill u with idle := if r.1 then 2 else (s.mill u).idle, idleAt := r.2 }) := by
  rw [execIdleStateEntry, if_neg (by simp), if_pos]
  case hc => simp only [Bool.and_eq_true, decide_eq_true_eq]; exact ⟨⟨rfl, Nat.le_add_right _ _⟩, Nat.add_lt_add_left hu 768⟩
  simp only [millUnit, Nat.add_sub_cancel_left]
theorem execIdleStateEntry_die {s : State} {u : Nat} (hu : u < 8) :
    execIdleStateEntry (1152 + u) 3 s =
      let r := idleStep s.fabricTime 200000 (dieIdle s u && (dieMills u).all fun m => tolerates s m 200000) (s.die u).idleAt
      .next (s.setDie u { s.die u with idle := if r.1 then 3 else (s.die u).idle, idleAt := r.2 }) := by
  rw [execIdleStateEntry, if_neg (by simp), if_neg (by simp), if_pos]
  case hc => simp only [Bool.and_eq_true, decide_eq_true_eq]; exact ⟨⟨rfl, Nat.le_add_right _ _⟩, Nat.add_lt_add_left hu 1152⟩
  simp only [dieUnit, Nat.add_sub_cancel_left]

/-- A unit whose condition has held for its exit time enters its state, and its time stays noted. -/
theorem execIdleStateEntry_core_enters {s : State} {u a : Nat} (hu : u < 768) (hidle : coreIdle s u = true) (htol : tolerates s (u / 2) 50 = true)
    (hsome : (s.core u).idleAt = some a) (hlong : a + 50 ≤ s.fabricTime) :
    execIdleStateEntry u 1 s = .next (s.onCore u fun x => { x with power := 1 }) := by
  rw [execIdleStateEntry_core hu, hidle, htol, hsome, Bool.and_self, idleStep_enters hlong, State.onCore, ← hsome]
  rfl
theorem execIdleStateEntry_mill_enters {s : State} {u a : Nat} (hu : u < 384) (hidle : millIdle s u = true) (htol : tolerates s u 5000 = true)
    (hsome : (s.mill u).idleAt = some a) (hlong : a + 5000 ≤ s.fabricTime) :
    execIdleStateEntry (768 + u) 2 s = .next (s.setMill u { s.mill u with idle := 2 }) := by
  rw [execIdleStateEntry_mill hu, hidle, htol, hsome, Bool.and_self, idleStep_enters hlong, ← hsome]
  rfl
theorem execIdleStateEntry_die_enters {s : State} {u a : Nat} (hu : u < 8) (hidle : dieIdle s u = true)
    (htol : ∀ m ∈ dieMills u, tolerates s m 200000 = true) (hsome : (s.die u).idleAt = some a) (hlong : a + 200000 ≤ s.fabricTime) :
    execIdleStateEntry (1152 + u) 3 s = .next (s.setDie u { s.die u with idle := 3 }) := by
  rw [execIdleStateEntry_die hu, hidle, List.all_eq_true.2 htol, hsome, Bool.and_self, idleStep_enters hlong, ← hsome]
  rfl
theorem execIdleStateEntry_core_notes {s : State} {u : Nat} (hu : u < 768) (hidle : coreIdle s u = true) (htol : tolerates s (u / 2) 50 = true)
    (hnone : (s.core u).idleAt = none) :
    execIdleStateEntry u 1 s = .next (s.onCore u fun x => { x with idleAt := some s.fabricTime }) := by
  rw [execIdleStateEntry_core hu, hidle, htol, hnone]
  rfl

/-- Settles O40: each event by its rule, in a pause of the scheduler and out of it. -/
theorem schedulerTimersComplete : Obligations.SchedulerTimersComplete := by
  refine ⟨fun s pid task => ?age, fun s id => execWatchdog_offers, fun s pid gang k => ?gang,
    fun s u => ⟨fun hu => ⟨?wakeCore, fun hidle htol => ?enterCore⟩, fun hu => ⟨?wakeMill, fun a hidle htol => execIdleStateEntry_mill_enters hu hidle htol⟩,
      fun hu => ⟨?wakeDie, fun a hidle htol => execIdleStateEntry_die_enters hu hidle htol⟩⟩⟩
  case age =>
    intro j act ask waits period hpid hready hlevel hdue
    have h := execAgePeriodExpiry_due hpid hready hlevel hdue
    exact ⟨fun hp => h.trans (by rw [if_pos hp]; rfl), fun hp => h.trans (by rw [hp]; rfl)⟩
  case gang =>
    intro p d within ended
    have hin : inSlice s d k = true ↔ within := inSlice_iff s d k
    have hended : endSlice s pid gang = ended := rfl
    refine ⟨fun hact hw hnew => ?start, fun hopen hw => ?stop, fun task hp hpid hready hg hix hopen hw hskip hlate => ?miss⟩
    case start =>
      have h := execGangSliceStart_due hact (hin.2 hw) hnew
      rw [hended] at h
      exact ⟨fun hp => h.trans (if_pos hp), fun hp => h.trans (by rw [hp]; rfl)⟩
    case stop =>
      have h := execGangSliceEnd_due hopen (fun e => hw (hin.1 e))
      rw [hended] at h
      exact ⟨fun hp => h.trans (if_pos hp), fun hp => h.trans (by rw [hp]; rfl)⟩
    case miss => exact execGangMiss_skips hp hpid hready hg hix hopen (hin.2 hw) hskip hlate
  case enterCore => exact ⟨execIdleStateEntry_core_notes hu hidle htol, fun a => execIdleStateEntry_core_enters hu hidle htol⟩
  case wakeCore =>
    have hexec : exec (.idleWake u) s = .next (wakeCore s u) := if_pos hu
    have hdie : millDie (coreMill u) = u / 96 := Nat.div_div_eq_div_mul u 2 48
    refine ⟨_, hexec, by rw [wakeCore_core], by rw [wakeCore_core], wakeMill_mill_idle _ _, hdie ▸ wakeMill_die_idle _ _, by rw [wakeCore_core],
      by rw [wakeCore_frame], by rw [wakeCore_frame], by rw [wakeCore_frame]⟩
  case wakeMill =>
    have hexec : exec (.idleWake (768 + u)) s = .next (wakeMill s u) := by
      show execIdleWake (768 + u) s = _
      rw [execIdleWake, if_neg (show ¬ 768 + u < millUnit from Nat.not_lt.2 (Nat.le_add_right _ _)),
        if_pos (show 768 + u < dieUnit from Nat.add_lt_add_left hu 768), millUnit, Nat.add_sub_cancel_left]
    refine ⟨_, hexec, wakeMill_mill_idle s u, wakeMill_die_idle s u, by rw [wakeMill_frame]⟩
  case wakeDie =>
    have hexec : exec (.idleWake (1152 + u)) s = .next (wakeDie s u) := by
      show execIdleWake (1152 + u) s = _
      rw [execIdleWake, if_neg (show ¬ 1152 + u < millUnit from Nat.not_lt.2 (Nat.le_add_right_of_le (by decide))),
        if_neg (show ¬ 1152 + u < dieUnit from Nat.not_lt.2 (Nat.le_add_right _ _)), dieUnit,
        Nat.add_sub_cancel_left]
    refine ⟨_, hexec, wakeDie_idle s u, by rw [wakeDie_dies], by rw [wakeDie_dies]⟩

end Sys2Proof.Machine

namespace Sys2Proof.Machine

/-! ### Launch queues and dispatch (R350 to R352, R358, R359) -/

/-- An entry that is due is consumed with no record while the partition drains (R351). -/
theorem execLaunchQueueEntryAccept_draining {s : State} {pid queue : Nat} (hdue : nextDue (s.part pid) = some queue) (hp : s.schedPaused = false)
    (hst : (s.part pid).st = .draining) :
    execLaunchQueueEntryAccept pid queue s = .next (offerAll (acceptMore (countTaken (consumeEntry s pid queue 2 0) pid queue) pid)) := by
  rw [execLaunchQueueEntryAccept]
  simp only [hdue, hp, hst, bne_self_eq_false]
  rfl

/-- The entry of a queue that is accepted next (R350). -/
def dueEntry (s : State) (pid queue : Nat) : List Byte :=
  let q := tget {} (s.part pid).queues queue
  s.bytesAt ⟨.hbm, lqRing q.desc + 16 * (q.taken % 2 ^ lqLogn q.desc)⟩ 16

/-- An entry that is due and has a place is refused with the fault of its checks (R351, R352). -/
theorem execLaunchQueueEntryAccept_refuses {s : State} {pid queue code : Nat} (hdue : nextDue (s.part pid) = some queue)
    (hp : s.schedPaused = false) (hst : (s.part pid).st = .active) (hroom : hostPending s pid < 4096 - (s.part pid).pool)
    (hf : entryFault s pid (dueEntry s pid queue) = some code) :
    execLaunchQueueEntryAccept pid queue s = .next (offerAll (acceptMore (countTaken (consumeEntry s pid queue 2 code) pid queue) pid)) := by
  rw [dueEntry] at hf
  rw [execLaunchQueueEntryAccept]
  simp only [hdue, hp, hst, Nat.not_le.2 hroom, bne_self_eq_false, hf]
  rfl
/-- One that passes is submitted (R351). -/
theorem execLaunchQueueEntryAccept_submits {s : State} {pid queue : Nat} (hdue : nextDue (s.part pid) = some queue)
    (hp : s.schedPaused = false) (hst : (s.part pid).st = .active) (hroom : hostPending s pid < 4096 - (s.part pid).pool)
    (hf : entryFault s pid (dueEntry s pid queue) = none) :
    let loc : Loc := ⟨.hbm, fieldLE (dueEntry s pid queue) 0 8⟩
    let n := nextSubmission (consumeEntry (wakeHome s loc) pid queue 1 0) pid
    execLaunchQueueEntryAccept pid queue s = .next (offerAll (acceptMore (submit (countTaken
      (writeAt n.2 (s.part pid).schedDie ⟨.hbm, loc.addr + 100⟩ (zeros 3)) pid queue) pid (s.bytesAt loc 128) loc 0 none [n.1] false) pid)) := by
  rw [dueEntry] at hf
  rw [execLaunchQueueEntryAccept]
  simp only [hdue, hp, hst, Nat.not_le.2 hroom, bne_self_eq_false, hf]
  rfl

/-- The head of the ready queues is placed where its quads are free, else its victims are pre-empted (R358, R359). -/
theorem execDispatch_head {s : State} {pid : Nat} {h : Job} (hst : (s.part pid).st = .active) (hp : s.schedPaused = false)
    (hh : readyHead s pid = some h) :
    execDispatch pid s =
      if quadsNeeded h ≤ (freeQuads s pid).length then
        .next (offerAll (serveQueues ((if h.dispatched then placeAgain s h else firstDispatch s h).push [.dispatch pid]) pid))
      else .next (offerAll ((victims s pid h).foldl (preemptVictim h) s)) := by
  rw [execDispatch]
  simp only [hst, hp, hh, bne_self_eq_false]
  rfl

/-! ### Completion (R30) -/

/-- A context that is done completes (R30): its status, its completion add, then its quads. -/
theorem execContextComplete_completes {s : State} {id : Nat} (hd : jobDone s id = true) (hp : s.schedPaused = false) :
    let j := s.job id
    let s1 := writeStatus (dropSlots (endClaims s j.pid id) id) j j.outcome (if j.outcome = 2 then 0 else j.fcode)
    let s2 := { s1 with waiters := s1.waiters.filter (notOfJob id) }
    let s3 := addFrom s2 (s.part j.pid).schedDie (recDoneh j.record) (recDoneinc j.record) ⟨id, 0⟩ 9
    execContextComplete id s = .next (offerAll ((s3.setJob id { s3.job id with
      phase := .ended, mills := [], kept := [], keptMills := [], keptCtrs := [], keptWaiters := [], groups := [] }).push
        [if (s.part j.pid).st = .draining then .drainingComplete j.pid else .dispatch j.pid])) := by
  intro j s1 s2 s3
  have hret : returnQuads (s3.setJob id { s3.job id with phase := .ended }) id = s3.setJob id { s3.job id with
      phase := .ended, mills := [], kept := [], keptMills := [], keptCtrs := [], keptWaiters := [], groups := [] } := by
    simp only [returnQuads, job_setJob, setJob_setJob]
  rw [execContextComplete, hd, hp, ← hret]
  simp only [beq_iff_eq]
  rfl
/-- In a pause of the scheduler it waits, once (R427). -/
theorem execContextComplete_paused {s : State} {id : Nat} (hd : jobDone s id = true) (hp : s.schedPaused = true)
    (hnew : .event (.contextComplete id) ∉ s.mgmt.act.deferred) :
    execContextComplete id s = .next (s.defer (.event (.contextComplete id))) := by
  rw [execContextComplete, hd, hp]
  simp [State.deferOnce, hnew]

/-! ### Restore (R345, R347, R348) -/

/-- A context whose image is good is restored from it (R345): its mills and counters where it took new ones, then its strands. -/
theorem execContextRestore_restores {s : State} {id base tagAddr nonce : Nat} (himg : (s.job id).image = some (base, tagAddr, nonce))
    (hrun : (s.job id).phase = .running) (hleave : (s.job id).leaving = false) :
    let j := s.job id
    let p := s.part j.pid
    let hold := j.keptMills.isEmpty
    let recs (i : Nat) : List Byte := rangeBytes s (saveRange p) (base + (1 + 2 * i) * chunkSize) 131072
    let s0 := wakeRange s (saveRange p) base (imageChunks j.strands.length (if hold then 0 else j.mills.length) * chunkSize)
    let s1 := if hold then s0 else
      moveWaiters (restoreLocals recs j
        (j.mills.zipIdx.foldl (fun t x => restoreMill p base (1 + 2 * j.strands.length) j (zeroLocals t x.1) x.1 x.2) s0)) j
    let places := placesOf j
    let cmds := j.savedCmds.map fun (e : ECmd) => { e with core := newCore j e.core }
    let s2 := ({ s1 with engines := s1.engines ++ cmds } : State).setJob id
      { j with
        strands := j.strands.zipIdx.map fun x => ((places.find? fun q => q.1 == x.2).map fun q => StrandAt.core q.2).getD x.1,
        image := none, kept := [], keptMills := [], keptCtrs := [], keptWaiters := [], savedCmds := [],
        groups := rebuildGroups j.groups (places.filterMap fun q => groupFrom q.1 (recs q.1)),
        wdogNs := fieldLE (rangeBytes s (saveRange p) base 64) 56 8, wdogAt := s.fabricTime }
    let s3 := formFull (places.foldl (fun t q => restoreStrand recs j t q.1 q.2) s2) id
    imageGood s p base tagAddr (imageChunks j.strands.length (if hold then 0 else j.mills.length)) nonce = true →
      execContextRestore id s = .next (offerAll ((tryComplete s3 id).push (cmds.map engineEvent))) := by
  intro j p hold recs s0 s1 places cmds s2 s3 hgood
  have hbad : ¬ (!imageGood s p base tagAddr (imageChunks j.strands.length (if hold then 0 else j.mills.length)) nonce) = true := by
    rw [hgood]; decide
  rw [execContextRestore]
  simp only [himg]
  rw [if_neg (show ¬ ((s.job id).phase != .running) = true by rw [hrun]; decide), if_neg hbad,
    if_neg (show ¬ (s.job id).leaving = true by rw [hleave]; decide)]
  rfl

end Sys2Proof.Machine

namespace Sys2Proof.Machine

/-! ### Writes to HBM change what HBM holds, and wake dies (R366) -/

/-- The state without what HBM holds and without the dies. -/
def State.offHbm (s : State) : State := { s with hbm := [], hbmWritten := [], poison := [], dies := [] }

theorem parts_of_offHbm {s t : State} (h : s.offHbm = t.offHbm) :
    s.jobs = t.jobs ∧ s.parts = t.parts ∧ s.cores = t.cores ∧ s.ctrs = t.ctrs ∧ s.banks = t.banks ∧
      s.waiters = t.waiters :=
  ⟨(congrArg State.jobs h :), (congrArg State.parts h :), (congrArg State.cores h :), (congrArg State.ctrs h :), (congrArg State.banks h :),
    (congrArg State.waiters h :)⟩

theorem putBytes_offHbm (s : State) (a : Nat) (bs : List Byte) : (s.putBytes ⟨.hbm, a⟩ bs).offHbm = s.offHbm := by
  induction bs generalizing s a with
  | nil => rfl
  | cons b bs ih => exact (ih (s.putByte ⟨.hbm, a⟩ b) (a + 1)).trans rfl
theorem wakeDie_offHbm (s : State) (d : Nat) : (wakeDie s d).offHbm = s.offHbm := by rw [wakeDie_dies]; rfl
theorem wakeHome_offHbm (s : State) (l : Loc) : (wakeHome s l).offHbm = s.offHbm := by
  rw [wakeHome]; split
  · exact wakeDie_offHbm _ _
  · rfl
theorem putInRange_offHbm (s : State) (r : HbmRange) (off : Nat) (bs : List Byte) : (putInRange s r off bs).offHbm = s.offHbm :=
  foldl_keeps State.offHbm _ (fun t _ => (wakeHome_offHbm _ _).trans (putBytes_offHbm t _ _)) _ s
/-- A context's image goes to HBM (R345). -/
theorem writeImage_offHbm (s : State) (j : Job) (base tagAddr nonce : Nat) (hold : Bool) : (writeImage s j base tagAddr nonce hold).offHbm = s.offHbm :=
  (putInRange_offHbm _ _ _ _).trans (putInRange_offHbm _ _ _ _)

/-! ### Switch-out (R345, R346, R348, R357) -/

/-- The watchdog's count is the only part of a context that noteWatch changes. -/
theorem noteWatch_frame (s : State) (id : Nat) :
    (noteWatch s id).cores = s.cores ∧ (noteWatch s id).ctrs = s.ctrs ∧ (noteWatch s id).banks = s.banks ∧ (noteWatch s id).hbm = s.hbm := by
  rw [noteWatch]; split <;> exact ⟨rfl, rfl, rfl, rfl⟩
theorem noteWatch_strands (s : State) (id : Nat) : ((noteWatch s id).job id).strands = (s.job id).strands := by
  rw [noteWatch]; split
  · rfl
  · rw [job_setJob]

theorem job_congr {s t : State} (h : s.jobs = t.jobs) (id : Nat) : s.job id = t.job id := by rw [State.job, h]; rfl
theorem part_congr {s t : State} (h : s.parts = t.parts) (pid : Nat) : s.part pid = t.part pid := by rw [State.part, h]; rfl
theorem core_congr {s t : State} (h : s.cores = t.cores) (c : Nat) : s.core c = t.core c := by rw [State.core, h]; rfl

theorem emptyCores_frame (cs : List Nat) (s : State) :
    (cs.foldl emptyCore s).jobs = s.jobs ∧ (cs.foldl emptyCore s).parts = s.parts ∧ (cs.foldl emptyCore s).ctrs = s.ctrs ∧
      (cs.foldl emptyCore s).banks = s.banks :=
  ⟨foldl_keeps State.jobs emptyCore (fun _ _ => rfl) cs s, foldl_keeps State.parts emptyCore (fun _ _ => rfl) cs s,
    foldl_keeps State.ctrs emptyCore (fun _ _ => rfl) cs s, foldl_keeps State.banks emptyCore (fun _ _ => rfl) cs s⟩

@[simp] theorem push_job (s : State) (is : List Instr) (id : Nat) : (s.push is).job id = s.job id := rfl

/-- No strand is on a core, and the core does not issue. -/
def State.vacant (s : State) (c : Nat) : Prop := (s.core c).job = none ∧ c ∉ s.runQueue
theorem emptyCore_vacant_same (s : State) (c : Nat) : (emptyCore s c).vacant c :=
  ⟨congrArg Core.job (core_setCore s c _), by simp [emptyCore]⟩
theorem emptyCore_vacant {s : State} {c : Nat} (d : Nat) (h : s.vacant c) : (emptyCore s d).vacant c := by
  obtain ⟨hj, hq⟩ := h
  by_cases hd : c = d
  · subst hd; exact emptyCore_vacant_same s c
  · exact ⟨(congrArg Core.job (core_setCore_ne s _ hd)).trans hj, fun hm => hq (List.mem_of_mem_filter hm)⟩
/-- The cores that a context leaves are vacant. -/
theorem emptyCores_vacant {cs : List Nat} {s : State} {c : Nat} (h : c ∈ cs ∨ s.vacant c) : (cs.foldl emptyCore s).vacant c := by
  induction cs generalizing s with
  | nil => exact h.resolve_left (List.not_mem_nil)
  | cons d cs ih =>
    rw [List.foldl_cons]
    rcases h with hm | hv
    · rcases List.mem_cons.1 hm with rfl | hm
      · exact ih (.inr (emptyCore_vacant_same s c))
      · exact ih (.inl hm)
    · exact ih (.inr (emptyCore_vacant d hv))

/-- The count of suspended contexts is a field of the partition record alone (R382). -/
theorem noteSuspended_frame (s : State) (pid : Nat) (b : Bool) :
    let t := if b then noteSuspended s pid else s
    t.jobs = s.jobs ∧ t.cores = s.cores ∧ t.runQueue = s.runQueue ∧ t.ctrs = s.ctrs ∧ t.banks = s.banks ∧
      (t.part pid).nonce = (s.part pid).nonce := by
  cases b with
  | false => exact ⟨rfl, rfl, rfl, rfl, rfl, rfl⟩
  | true => exact ⟨rfl, rfl, rfl, rfl, rfl, by rw [if_pos rfl, noteSuspended, recordSet, part_setPart]⟩
theorem outPhase_ne_running (s : State) (j : Job) : outPhase s j ≠ .running := by
  rw [outPhase]; repeat' split
  all_goals decide

/-- CONTEXT_SWITCH_OUT of a context that may leave (R345, R348, R357): its image, the strands that are saved, the mills it keeps if it is pinned, and
the cores that are vacant after it. -/
theorem execContextSwitchOut_switches {s : State} {id base tagAddr : Nat} (hsw : switchable s ((noteWatch s id).job id) = true)
    (hp : s.schedPaused = false) :
    let j := (noteWatch s id).job id
    let p := s.part j.pid
    imageFits p base tagAddr (imageChunks j.strands.length (if pinned s j then 0 else j.mills.length)) = true →
    ∃ t, exec (.contextSwitchOut id base tagAddr) s = .next (offerAll t) ∧
      (t.job id).image = some (base, tagAddr, p.nonce + 1) ∧ (t.part j.pid).nonce = p.nonce + 1 ∧ (t.job id).phase ≠ .running ∧
      (t.job id).strands = j.strands.map (fun x => match x with | .core _ => .saved | y => y) ∧
      (t.job id).mills = (if pinned s j then j.mills else []) ∧
      (∀ c ∈ s.jobCores id, (t.core c).job = none ∧ c ∉ t.runQueue) ∧ t.ctrs = s.ctrs ∧ t.banks = s.banks := by
  intro j p hfit
  have hgo : ¬ (!switchable s j || s.schedPaused ||
      !imageFits p base tagAddr (imageChunks j.strands.length (if pinned s j then 0 else j.mills.length))) = true := by
    rw [show switchable s j = true from hsw, hp, hfit]; decide
  obtain ⟨o, ho⟩ : ∃ o, exec (.contextSwitchOut id base tagAddr) s = o := ⟨_, rfl⟩
  rw [ho]
  change execContextSwitchOut id base tagAddr s = o at ho
  unfold execContextSwitchOut at ho
  rw [if_neg hgo] at ho
  extract_lets s1 cs all kept q s2 j1 j2 s3 at ho
  subst ho
  obtain ⟨hjobs1, hparts1, -, hctrs1, hbanks1, -⟩ : s1.jobs = _ ∧ s1.parts = _ ∧ _ ∧ s1.ctrs = _ ∧ s1.banks = _ ∧ _ :=
    parts_of_offHbm (writeImage_offHbm ((noteWatch s id).setPart j.pid { p with nonce := p.nonce + 1 }) j base tagAddr _ (pinned s j))
  obtain ⟨-, hctrs0, hbanks0, -⟩ := noteWatch_frame s id
  have hcs : cs = s.jobCores id := by
    simp only [cs, State.jobCores, show s1.job id = j from job_congr hjobs1 id]
    rw [show j.strands = _ from noteWatch_strands s id]
  obtain ⟨hparts2, hctrs2, hbanks2⟩ : s2.parts = s1.parts ∧ s2.ctrs = s1.ctrs ∧ s2.banks = s1.banks := by
    simp only [s2]; split <;> exact ⟨rfl, rfl, rfl⟩
  obtain ⟨hjobs3, hparts3, hctrs3, hbanks3⟩ := emptyCores_frame cs (s2.setJob id j2)
  have hjob3 : s3.job id = j2 := (job_congr hjobs3 id).trans (job_setJob _ _ _)
  have hnonce3 : (s3.part j.pid).nonce = p.nonce + 1 := by
    rw [part_congr ((hparts3.trans hparts2).trans hparts1) j.pid, part_setPart]
  have hctrs3' : s3.ctrs = s.ctrs := hctrs3.trans (hctrs2.trans (hctrs1.trans hctrs0))
  have hbanks3' : s3.banks = s.banks := hbanks3.trans (hbanks2.trans (hbanks1.trans hbanks0))
  have hvacant (c : Nat) (hc : c ∈ s.jobCores id) : s3.vacant c := emptyCores_vacant (.inl (hcs ▸ hc))
  have himage : j2.image = some (base, tagAddr, p.nonce + 1) := rfl
  have hphase : j2.phase ≠ .running := outPhase_ne_running _ _
  have hstrands : j2.strands = j.strands.map (fun x => match x with | .core _ => .saved | y => y) := rfl
  have hmills : j2.mills = if pinned s j then j.mills else [] := rfl
  clear_value s3 j2
  obtain ⟨hjobs, hcores, hqueue, hctrs, hbanks, hnonce⟩ := noteSuspended_frame s3 j.pid (j2.phase == .suspended)
  have hjob : (if j2.phase == .suspended then noteSuspended s3 j.pid else s3).job id = j2 := (job_congr hjobs id).trans hjob3
  refine ⟨_, rfl, ?image, hnonce.trans hnonce3, ?phase, ?strands, ?mills, fun c hc => ?vacant, hctrs.trans hctrs3', hbanks.trans hbanks3'⟩
  case image => rw [push_job, hjob, himage]
  case phase => rw [push_job, hjob]; exact hphase
  case strands => rw [push_job, hjob, hstrands]
  case mills => rw [push_job, hjob, hmills]
  case vacant =>
    obtain ⟨hj, hq⟩ := hvacant c hc
    exact ⟨(congrArg Core.job (core_congr hcores c)).trans hj, fun hm => hq (hqueue.subst (motive := fun q => c ∈ q) hm)⟩

/-- Settles O39: every event of a context's life by the lemma about it. -/
theorem contextEventsComplete : Obligations.ContextEventsComplete := by
  refine ⟨fun s pid queue hdue hp => ⟨execLaunchQueueEntryAccept_draining hdue hp, fun hst hroom =>
      ⟨fun code => execLaunchQueueEntryAccept_refuses hdue hp hst hroom, execLaunchQueueEntryAccept_submits hdue hp hst hroom⟩⟩,
    fun s pid h hst hp hh => ⟨fun hfit => ?placed, fun hfull => ?victims⟩,
    fun s id hd => ⟨execContextComplete_paused hd, fun hp => ?completes⟩,
    fun s id base tagAddr hsw hp => execContextSwitchOut_switches hsw hp,
    fun s id base tagAddr nonce himg hrun _ hgood hleave => execContextRestore_restores himg hrun hleave hgood,
    fun s id hb => if_pos hb⟩
  case placed => exact (execDispatch_head hst hp hh).trans (if_pos hfit)
  case victims => exact (execDispatch_head hst hp hh).trans (if_neg (Nat.not_le.2 hfull))
  case completes => exact ⟨_, execContextComplete_completes hd hp, by rw [push_job, job_setJob], by rw [push_job, job_setJob], rfl⟩

end Sys2Proof.Machine

namespace Sys2Proof.Machine

/-! ### Fields of a record of bytes (00 R3) -/

theorem natLE_length (n x : Nat) : (natLE n x).length = n := by
  induction n generalizing x with
  | zero => rfl
  | succ n ih => rw [natLE, List.length_cons, ih]
theorem leNat_natLE (n x : Nat) : leNat (natLE n x) = x % 256 ^ n := by
  induction n generalizing x with
  | zero => simp [natLE, leNat, Nat.mod_one]
  | succ n ih =>
    have hsplit : x % (256 * 256 ^ n) = x % 256 + 256 * (x / 256 % 256 ^ n) := Nat.mod_mul
    rw [natLE, leNat, ih, BitVec.toNat_ofNat, Nat.pow_succ' (n := n), hsplit]
/-- A field at the head of a record. -/
theorem fieldLE_head (n x : Nat) (bs : List Byte) : fieldLE (natLE n x ++ bs) 0 n = x % 256 ^ n := by
  rw [fieldLE, List.drop_zero, List.take_left' (natLE_length n x), leNat_natLE]
/-- A field behind another. -/
theorem fieldLE_behind {k off : Nat} (h : k ≤ off) (n x : Nat) (bs : List Byte) : fieldLE (natLE k x ++ bs) off n = fieldLE bs (off - k) n := by
  rw [fieldLE, fieldLE, List.drop_append, List.drop_eq_nil_of_le (by rw [natLE_length]; exact h), List.nil_append, natLE_length]

/-- The fields of a fault record (R379) that the statement names, at their places in its 64 bytes. -/
theorem faultRecord_length (s : State) (f : FaultAt) (id strand core retry priv level action : Nat) (ckpt : Word) (lost : Bool) :
    (faultRecord s f id strand core retry priv level action ckpt lost).length = 64 := by
  simp only [faultRecord, List.length_append, natLE_length, zeros, List.length_replicate]
theorem faultRecord_fields (s : State) (f : FaultAt) (id strand core retry priv level action : Nat) (ckpt : Word) (lost : Bool) :
    let r := faultRecord s f id strand core retry priv level action ckpt lost
    fieldLE r 0 1 = f.code % 256 ∧ fieldLE r 2 1 = level % 256 ∧ fieldLE r 3 1 = action % 256 ∧ fieldLE r 8 4 = (s.job id).ctxid % 2 ^ 32 ∧
      fieldLE r 12 2 = strand % 2 ^ 16 ∧ fieldLE r 14 2 = core % 2 ^ 16 ∧ fieldLE r 16 8 = f.epc.toNat ∧ fieldLE r 24 8 = ckpt.toNat ∧
      fieldLE r 32 8 = f.info % 2 ^ 64 := by
  have hword (w : Word) : w.toNat % 18446744073709551616 = w.toNat := Nat.mod_eq_of_lt w.isLt
  simp only [faultRecord, List.append_assoc, fieldLE_head, fieldLE_behind, hword, Nat.reduceLeDiff, Nat.reduceSub, Nat.reducePow, Nat.sub_self, le_refl,
    and_self]

/-! ### Memory (R102) -/

theorem Memory.bytes_eq_map (m : Memory) (a n : Nat) : m.bytes a n = (List.range n).map fun i => m.read (a + i) := by
  induction n generalizing a with
  | zero => rfl
  | succ n ih =>
    rw [Memory.bytes, ih, List.range_succ_eq_map, List.map_cons, List.map_map]
    refine congrArg₂ List.cons rfl (List.map_congr_left fun i _ => ?_)
    rw [Function.comp_apply, Nat.add_right_comm, Nat.add_assoc]
/-- What was stored reads back. -/
theorem Memory.bytes_store {m : Memory} (a : Nat) (bs : List Byte) (h : m.wf = true) : (m.store a bs).bytes a bs.length = bs := by
  rw [Memory.bytes_eq_map]
  refine List.ext_getElem (by simp) fun i _ hi => ?_
  rw [List.getElem_map, List.getElem_range, Memory.read_store_inside bs h hi]

/-! ### Rolling one core back (R154) -/

/-- A state in which no core but c, no job, counter, waiter or memory has changed, and of the partitions no space and no place in a fault
ring. -/
structure State.OnlyCore (s t : State) (c : Nat) : Prop where
  cores : ∀ d, d ≠ c → t.core d = s.core d
  jobs : t.jobs = s.jobs
  hbm : t.hbm = s.hbm
  banks : t.banks = s.banks
  ctrs : t.ctrs = s.ctrs
  waiters : t.waiters = s.waiters
  hbmForm : t.hbmForm = s.hbmForm
  poison : t.poison = s.poison
  spaces : ∀ pid, (t.part pid).spaces = (s.part pid).spaces
  fring : ∀ pid, (t.part pid).fring = (s.part pid).fring

theorem State.OnlyCore.refl (s : State) (c : Nat) : s.OnlyCore s c :=
  ⟨fun _ _ => rfl, rfl, rfl, rfl, rfl, rfl, rfl, rfl, fun _ => rfl, fun _ => rfl⟩
theorem State.OnlyCore.trans {s t u : State} {c : Nat} (h : s.OnlyCore t c) (k : t.OnlyCore u c) : s.OnlyCore u c where
  cores d hd := (k.cores d hd).trans (h.cores d hd)
  jobs := k.jobs.trans h.jobs
  hbm := k.hbm.trans h.hbm
  banks := k.banks.trans h.banks
  ctrs := k.ctrs.trans h.ctrs
  waiters := k.waiters.trans h.waiters
  hbmForm := k.hbmForm.trans h.hbmForm
  poison := k.poison.trans h.poison
  spaces pid := (k.spaces pid).trans (h.spaces pid)
  fring pid := (k.fring pid).trans (h.fring pid)
theorem onCore_onlyCore (s : State) (c : Nat) (f : Core → Core) : s.OnlyCore (s.onCore c f) c :=
  ⟨fun _ hd => onCore_core_ne s f hd, rfl, rfl, rfl, rfl, rfl, rfl, rfl, fun _ => rfl, fun _ => rfl⟩
/-- A change of a partition that leaves its spaces and its fault rings. -/
theorem setPart_onlyCore (s : State) (c pid : Nat) {p : Partition} (hs : p.spaces = (s.part pid).spaces) (hf : p.fring = (s.part pid).fring) :
    s.OnlyCore (s.setPart pid p) c := by
  refine ⟨fun _ _ => rfl, rfl, rfl, rfl, rfl, rfl, rfl, rfl, fun q => ?_, fun q => ?_⟩ <;> by_cases hq : q = pid
  · subst hq; rw [part_setPart, hs]
  · rw [part_setPart_ne s p hq]
  · subst hq; rw [part_setPart, hf]
  · rw [part_setPart_ne s p hq]

/-- What a buffered command reserved is in the partitions and among the engine commands. -/
theorem undoCmd_onlyCore (s : State) (c : Nat) (k : BufCmd) : s.OnlyCore (undoCmd s c k) c ∧ (undoCmd s c k).cores = s.cores := by
  cases k with
  | engine id => exact ⟨⟨fun _ _ => rfl, rfl, rfl, rfl, rfl, rfl, rfl, rfl, fun _ => rfl, fun _ => rfl⟩, rfl⟩
  | launch rec loc => exact ⟨setPart_onlyCore s c _ (by split <;> rfl) (by split <;> rfl), rfl⟩
  | watch w => exact ⟨setPart_onlyCore s c _ rfl rfl, rfl⟩
  | gen seed base len => exact ⟨setPart_onlyCore s c _ rfl rfl, rfl⟩
  | _ => exact ⟨.refl s c, rfl⟩

/-- A core whose release buffer has been discarded (R154, step 2). -/
def Core.dropped (x : Core) : Core := { x with buf := [], stale := if x.stale == 1 then 2 else x.stale }

theorem dropBuf_onlyCore (s : State) (c : Nat) : s.OnlyCore (dropBuf s c) c ∧ (dropBuf s c).core c = (s.core c).dropped := by
  unfold dropBuf
  extract_lets s1
  obtain ⟨ho, hc⟩ : s.OnlyCore s1 c ∧ s1.cores = s.cores := by
    refine List.foldlRecOn (motive := fun t => s.OnlyCore t c ∧ t.cores = s.cores) _ _ ⟨.refl s c, rfl⟩ fun t ⟨ho, hc⟩ e _ => ?_
    cases e with
    | write l bs hint => exact ⟨ho, hc⟩
    | cmd k => exact ⟨ho.trans (undoCmd_onlyCore t c k).1, (undoCmd_onlyCore t c k).2.trans hc⟩
  refine ⟨ho.trans (onCore_onlyCore _ c _), ?_⟩
  rw [onCore_core, core_congr hc]
  rfl

/-- Nothing is left of a match that has begun (R303), where the first staged operation stands for original ones. -/
theorem finishMatch_none {s : State} {c : Nat} (h : ∀ m ms, (s.core c).staged = m :: ms → m.orig ≠ 0) : finishMatch s c = s := by
  have hs : startedMatch (s.core c) = [] := by
    rw [startedMatch]
    cases hst : (s.core c).staged with
    | nil => rfl
    | cons m ms => exact List.takeWhile_cons_of_neg (by simpa using h m ms hst)
  rw [finishMatch, hs]
  rfl

/-- The state that a fault leaves on its core before it is held or offered (R154, steps 2 to 5). -/
def rolledBack (s : State) (c : Nat) (f : FaultAt) : State := (rollback s c).onCore c (·.saveFault f)

/-- A core that issues alone rolls back alone. -/
theorem rolledBack_onlyCore {s : State} {c : Nat} (f : FaultAt) (halone : s.issueCores c = [c])
    (hstaged : ∀ m ms, (s.core c).staged = m :: ms → m.orig ≠ 0) :
    s.OnlyCore (rolledBack s c f) c ∧ (rolledBack s c f).core c = ((s.core c).dropped.restore).saveFault f := by
  obtain ⟨ho, hc⟩ := dropBuf_onlyCore s c
  have hroll : rolledBack s c f = ((dropBuf s c).onCore c Core.restore).onCore c (·.saveFault f) := by
    rw [rolledBack, rollback, halone, List.foldl_cons, List.foldl_nil, rollbackCore, finishMatch_none (by rw [hc]; exact hstaged)]
  rw [hroll, onCore_onCore]
  exact ⟨ho.trans (onCore_onlyCore _ c _), by rw [onCore_core, hc]⟩

/-! ### Where a fault goes (R39 to R41, R374) -/

section
variable {s : State} {c : Nat} {f : FaultAt} (hmgmt : c ≠ 768) (huser : (s.core c).live.priv_ = 0)
include hmgmt huser

theorem takeFault_pageDevice (hcode : f.code = cPageDevice) :
    takeFault s c f false = holdOnPage (rolledBack s c f) c f (.pageDevice f.info) := by
  simp only [takeFault, rolledBack, hcode, huser, Bool.false_and]
  rw [if_neg (by simpa [mgmtCore] using hmgmt)]
  rfl

theorem takeFault_offers (hcode : f.code ∉ [cPageDevice, cPageHost, cSegmentAuth, cWatchdog, cPoison]) :
    takeFault s c f false = offerOnCore (rolledBack s c f) c f {} (coreLevels (rolledBack s c f) c) := by
  simp only [List.mem_cons, not_or] at hcode
  obtain ⟨hdev, hhost, hseg, hdog, -⟩ := hcode
  simp only [takeFault, rolledBack, huser, Bool.false_and]
  rw [if_neg (by simpa [mgmtCore] using hmgmt), if_neg (by decide), if_neg (by simpa using hdev), if_neg (by simpa using hhost),
    if_neg (by simpa using ⟨hseg, hdog⟩)]
end

theorem resolve_retry {co : Course} (hkill : co.kill = false) (hretry : co.retries < Config.retryLimit) (ls : List (Nat × Nat)) :
    resolve co ((0, 2) :: ls) = (0, 2) := by
  simp [resolve, hkill, hretry]

/-- A strand that is in no formed group is offered a fault at its own level first (R39). -/
theorem coreLevels_alone {s : State} {c id : Nat} (hjob : (s.core c).job = some id) (hgroup : (s.job id).memberOf (s.core c).strand = none) :
    coreLevels s c = (0, recPolicy (s.job id).record % 8) :: upperLevels s id := by
  rw [coreLevels, hjob, Option.getD_some, strandLevels, hgroup]
  rfl

/-! ### Writing a fault record (R379) -/

theorem putBytes_hbm (s : State) (a : Nat) (bs : List Byte) : (s.putBytes ⟨.hbm, a⟩ bs).hbm = s.hbm.store a bs := by
  induction bs generalizing s a with
  | nil => rfl
  | cons b bs ih => exact (ih (s.putByte ⟨.hbm, a⟩ b) (a + 1)).trans rfl
theorem wakeHome_hbm (s : State) (l : Loc) : (wakeHome s l).hbm = s.hbm := by
  rw [wakeHome]; split
  · rw [wakeDie_dies]
  · rfl
theorem writeAt_hbm (s : State) (die a : Nat) (bs : List Byte) : (writeAt s die ⟨.hbm, a⟩ bs).hbm = s.hbm.store a bs := by
  rw [writeAt, wakeHome_hbm]; exact putBytes_hbm s a bs
theorem writeAt_offHbm (s : State) (die a : Nat) (bs : List Byte) : (writeAt s die ⟨.hbm, a⟩ bs).offHbm = s.offHbm :=
  (wakeHome_offHbm _ _).trans (putBytes_offHbm s a bs)

/-- An add that rings no bell and finds no waiter changes no core, job or memory (R123). -/
theorem applyAdd_frame {s : State} {h : Nat} (a : Nat) (hk : hKind h = 1) (hw : s.waiters = []) :
    (applyAdd s h a).hbm = s.hbm ∧ (applyAdd s h a).cores = s.cores ∧ (applyAdd s h a).jobs = s.jobs ∧ (applyAdd s h a).banks = s.banks := by
  simp only [applyAdd, setCtr_waiters, hw, List.filter_nil, List.foldl_nil, ringBells, hk]
  exact ⟨rfl, rfl, rfl, rfl⟩

/-- Events asked for change no core, job or memory. -/
theorem pushUnless_frame (s : State) (b : Bool) (is : List Instr) :
    let t := if b then s else s.push is
    t.hbm = s.hbm ∧ t.cores = s.cores ∧ t.jobs = s.jobs ∧ t.banks = s.banks := by
  cases b <;> exact ⟨rfl, rfl, rfl, rfl⟩

/-- A record that finds room in its ring (R379, R380). -/
theorem writeRecord_writes {s : State} {id : Nat} (rec : Bool → List Byte) :
    let j := s.job id
    let d := tget [] (s.part j.pid).spaces j.aspace
    let a := spaceFrbase d + 64 * (tget 0 (s.part j.pid).fring j.aspace % 2 ^ spaceFrlog d)
    hKind (spaceFrctr d) = 1 → (s.ctr (spaceFrctr d) - s.ctr (spaceFrack d)).toNat < 2 ^ spaceFrlog d → s.hbmForm = [] → s.poison = [] →
    s.waiters = [] →
    ∃ t lost, writeRecord s id rec = (t, true) ∧ t.hbm = s.hbm.store a (rec lost) ∧ t.cores = s.cores ∧ t.jobs = s.jobs ∧ t.banks = s.banks := by
  intro j d a hk hroom hform hpoison hw
  have hline : ¬ (s.form ⟨.hbm, a⟩ || s.poisoned ⟨.hbm, a⟩) = true := by
    simp [State.form, State.poisoned, hform, hpoison]
  obtain ⟨r, hr⟩ : ∃ r, writeRecord s id rec = r := ⟨_, rfl⟩
  rw [hr]
  unfold writeRecord at hr
  rw [if_neg (by rw [decide_eq_true_eq, Nat.not_le]; exact hroom), if_neg hline] at hr
  extract_lets s1 p1 s2 s3 at hr
  subst hr
  obtain ⟨hjobs1, -, hcores1, -, hbanks1, hwaiters1⟩ := parts_of_offHbm (writeAt_offHbm s (homeDie a) a (rec ((s.part j.pid).lost.contains j.aspace)))
  obtain ⟨hhbm2, hcores2, hjobs2, hbanks2⟩ := applyAdd_frame (s := s2) 1 hk (hwaiters1.trans hw)
  have hhbm1 : s1.hbm = s.hbm.store a (rec ((s.part j.pid).lost.contains j.aspace)) := writeAt_hbm s _ a _
  obtain ⟨hhbm3, hcores3, hjobs3, hbanks3⟩ := pushUnless_frame s3 s3.offers.isEmpty [.counterUpdate (spaceFrctr d) 0 ⟨id, 0⟩]
  exact ⟨_, (s.part j.pid).lost.contains j.aspace, rfl, hhbm3.trans (hhbm2.trans hhbm1), hcores3.trans (hcores2.trans hcores1),
    hjobs3.trans (hjobs2.trans hjobs1), hbanks3.trans (hbanks2.trans hbanks1)⟩

/-- The record of a fault that RETRY absorbs at the strand's level (R379). -/
def retryRecord (s : State) (c id : Nat) (f : FaultAt) (lost : Bool) : List Byte :=
  faultRecord s f id (s.core c).strand c (s.core c).retrycnt.toNat ((s.core c).live.priv_ % 2) 0 2 (s.core c).ckptPc lost

/-- Under RETRY the strand goes on, its retry counted, once the record is in its ring (R40, R379). -/
theorem offerOnCore_retries {s t : State} {c id : Nat} {f : FaultAt} {ls : List (Nat × Nat)} (hjob : (s.core c).job = some id)
    (hcode : f.code ≠ cPoison) (hretry : (s.core c).retrycnt.toNat < Config.retryLimit)
    (hw : writeRecord s id (retryRecord s c id f) = (t, true)) (hcores : t.cores = s.cores) :
    offerOnCore s c f {} ((0, 2) :: ls) = t.onCore c fun x => { x with retrycnt := x.retrycnt + 1 } := by
  have htjob : ((t.core c).job == some id) = true := by rw [core_congr hcores, hjob]; exact beq_self_eq_true _
  unfold retryRecord at hw
  simp only [offerOnCore, hjob, Option.getD_some]
  rw [resolve_retry rfl hretry, hw]
  simp only [beq_iff_eq, hcode, if_false, if_true, htjob]
  rfl

/-- The fields of the record of a retry, with the checkpoint and the strand as they stood before the rollback (R379). -/
theorem retryRecord_fields {s : State} {c : Nat} {f : FaultAt} (id : Nat) (halone : s.issueCores c = [c])
    (hstaged : ∀ m ms, (s.core c).staged = m :: ms → m.orig ≠ 0) (hinfo : f.info < 2 ^ 64) (lost : Bool) :
    let r := retryRecord (rolledBack s c f) c id f lost
    fieldLE r 0 1 = f.code % 256 ∧ fieldLE r 2 1 = 0 ∧ fieldLE r 3 1 = 2 ∧ fieldLE r 8 4 = (s.job id).ctxid % 2 ^ 32 ∧
      fieldLE r 12 2 = (s.core c).strand % 2 ^ 16 ∧ fieldLE r 14 2 = c % 2 ^ 16 ∧ fieldLE r 16 8 = f.epc.toNat ∧
      fieldLE r 24 8 = (s.core c).ckptPc.toNat ∧ fieldLE r 32 8 = f.info := by
  intro r
  obtain ⟨hbase, hcore⟩ := rolledBack_onlyCore f halone hstaged
  obtain ⟨hcode, hlevel, haction, hctx, hstrand, hc, hepc, hckpt, hfi⟩ := faultRecord_fields (rolledBack s c f) f id
    ((rolledBack s c f).core c).strand c ((rolledBack s c f).core c).retrycnt.toNat (((rolledBack s c f).core c).live.priv_ % 2) 0 2
    ((rolledBack s c f).core c).ckptPc lost
  rw [job_congr hbase.jobs] at hctx
  rw [Nat.mod_eq_of_lt hinfo] at hfi
  refine ⟨hcode, hlevel, haction, hctx, hstrand.trans ?_, hc, hepc, hckpt.trans ?_, hfi⟩ <;> rw [hcore] <;> rfl

section
variable {s : State} {c : Nat} {f : FaultAt} (hmgmt : c ≠ 768) (halone : s.issueCores c = [c]) (huser : (s.core c).live.priv_ = 0)
  (hstaged : ∀ m ms, (s.core c).staged = m :: ms → m.orig ≠ 0)
include hmgmt halone huser hstaged

/-- A device page holds the strand, rolled back, and writes no record (R374). -/
theorem takeFault_holds (hcode : f.code = cPageDevice) :
    let t := takeFault s c f false
    t.core c = { (s.core c).dropped.restore.saveFault f with
      hold := some (.pageDevice f.info), idle := 0,
      pageFault := some { code := f.code, info := f.info, pc := f.epc, slot := f.slot, inst := f.inst, flags := f.flags } } ∧
      (∀ d, d ≠ c → t.core d = s.core d) ∧ t.hbm = s.hbm ∧ t.banks = s.banks ∧ t.ctrs = s.ctrs := by
  intro t
  obtain ⟨hbase, hcore⟩ := rolledBack_onlyCore f halone hstaged
  obtain ⟨hcores, hctrs, hbanks, hhbm⟩ := noteWatch_frame (rolledBack s c f) (((rolledBack s c f).core c).job.getD 0)
  have ht : t = holdOnPage (rolledBack s c f) c f (.pageDevice f.info) := takeFault_pageDevice hmgmt huser hcode
  simp only [holdOnPage] at ht
  rw [ht]
  refine ⟨by rw [onCore_core, core_congr hcores, hcore], fun d hd => ?others, ?hbm, ?banks, ?ctrs⟩
  case others => rw [onCore_core_ne _ _ hd, core_congr hcores, hbase.cores d hd]
  case hbm => rw [onCore_hbm, hhbm, hbase.hbm]
  case banks => rw [onCore_banks, hbanks, hbase.banks]
  case ctrs => rw [onCore_ctrs, hctrs, hbase.ctrs]

/-- RETRY at the strand's level writes one record and counts the retry (R40, R379). -/
theorem takeFault_retries {id : Nat} (hjob : (s.core c).job = some id) :
    let j := s.job id
    let d := tget [] (s.part j.pid).spaces j.aspace
    let a := spaceFrbase d + 64 * (tget 0 (s.part j.pid).fring j.aspace % 2 ^ spaceFrlog d)
    let t := takeFault s c f false
    f.code ∉ [cPageDevice, cPageHost, cSegmentAuth, cWatchdog, cPoison] → recPolicy j.record % 8 = 2 → j.memberOf (s.core c).strand = none →
    (s.core c).retrycnt.toNat < Config.retryLimit → s.hbmForm = [] → s.poison = [] → s.waiters = [] → hKind (spaceFrctr d) = 1 →
    (s.ctr (spaceFrctr d) - s.ctr (spaceFrack d)).toNat < 2 ^ spaceFrlog d →
    t.core c = { (s.core c).dropped.restore.saveFault f with retrycnt := (s.core c).retrycnt + 1 } ∧ (∀ e, e ≠ c → t.core e = s.core e) ∧
      t.banks = s.banks ∧ ∃ lost, t.hbm = s.hbm.store a (retryRecord (rolledBack s c f) c id f lost) := by
  intro j d a t hcode hpol hgroup hretry hform hpoison hwaiters hkind hroom
  obtain ⟨hbase, hcore⟩ := rolledBack_onlyCore f halone hstaged
  have hjobs (i : Nat) : (rolledBack s c f).job i = s.job i := job_congr hbase.jobs i
  have hbjob : ((rolledBack s c f).core c).job = some id := by rw [hcore]; exact hjob
  have hctr (h : Nat) : (rolledBack s c f).ctr h = s.ctr h := congrArg (tget 0 · (ctrKey h)) hbase.ctrs
  have hlevels : coreLevels (rolledBack s c f) c = (0, 2) :: upperLevels (rolledBack s c f) id := by
    rw [coreLevels_alone hbjob (by rw [hjobs, hcore]; exact hgroup), hjobs, hpol]
  obtain ⟨u, lost, hw, hhbm, hcores, -, hbanks⟩ := writeRecord_writes (s := rolledBack s c f) (id := id) (retryRecord (rolledBack s c f) c id f)
    (by rw [hjobs, hbase.spaces]; exact hkind) (by rw [hjobs, hbase.spaces, hctr, hctr]; exact hroom) (hbase.hbmForm.trans hform)
    (hbase.poison.trans hpoison) (hbase.waiters.trans hwaiters)
  have ht : t = u.onCore c fun y => { y with retrycnt := y.retrycnt + 1 } := by
    rw [show t = _ from takeFault_offers hmgmt huser hcode, hlevels]
    exact offerOnCore_retries hbjob (fun e => hcode (by simp [e])) (by rw [hcore]; exact hretry) hw hcores
  rw [hjobs, hbase.spaces, hbase.fring, hbase.hbm] at hhbm
  rw [ht]
  refine ⟨?here, fun e he => ?others, ?banks, lost, hhbm⟩
  case here => rw [onCore_core, core_congr hcores, hcore]; rfl
  case others => rw [onCore_core_ne _ _ he, core_congr hcores, hbase.cores e he]
  case banks => rw [onCore_banks, hbanks, hbase.banks]
end

/-- Settles O58: a core that issues alone rolls back; a device page holds it, RETRY writes its record. -/
theorem faultEntry : Obligations.FaultEntry := by
  intro s c id f hmgmt halone hjob huser hstaged x rolled
  refine ⟨fun hcode => ?pageDevice, ?retry⟩
  case pageDevice =>
    obtain ⟨hcore, hothers, hframe⟩ := takeFault_holds hmgmt halone huser hstaged hcode
    refine ⟨?_, by rw [hcore], hothers, hframe⟩
    rw [hcore]
    exact ⟨rfl, rfl, rfl, rfl, rfl, rfl, rfl, rfl, rfl, rfl, rfl, rfl, rfl, rfl⟩
  case retry =>
    intro j d k a t hcode hinfo hpol hgroup hretry hwf hform hpoison hwaiters hkind hroom
    obtain ⟨hcore, hothers, hbanks, lost, hhbm⟩ :=
      takeFault_retries hmgmt halone huser hstaged hjob hcode hpol hgroup hretry hform hpoison hwaiters hkind hroom
    obtain ⟨⟨⟨hwf', -⟩, -⟩, -⟩ : ((s.hbm.wf = true ∧ _) ∧ _) ∧ _ := by simpa only [State.memWf, Bool.and_eq_true] using hwf
    have hlen : (retryRecord (rolledBack s c f) c id f lost).length = 64 := faultRecord_length _ _ _ _ _ _ _ _ _ _ _
    have hback : t.hbm.bytes a 64 = retryRecord (rolledBack s c f) c id f lost := by
      have h := Memory.bytes_store a (retryRecord (rolledBack s c f) c id f lost) hwf'
      rw [hlen] at h
      exact (congrArg (Memory.bytes · a 64) hhbm).trans h
    refine ⟨?rolled, by rw [hcore], hothers, ?record, fun p hp => ?frame, hbanks⟩
    case rolled => rw [hcore]; exact ⟨rfl, rfl, rfl, rfl, rfl, rfl, rfl, rfl, rfl, rfl, rfl, rfl, rfl, rfl⟩
    case record =>
      intro r
      rw [show r = _ from hback]
      exact retryRecord_fields id halone hstaged hinfo lost
    case frame =>
      rw [show t.hbm = _ from hhbm]
      exact Memory.read_store_outside _ hwf' (by rw [hlen]; exact hp)

end Sys2Proof.Machine

namespace Sys2Proof.Machine

/-! ### Bits, shifts, reductions and scans (R225, R228, R229) -/

/-- A bitwise V operation acts on whole registers (R225). -/
theorem vBits_delivers {f : F3} {s : State} (h : Issues 1 f.g s) (op : Vec → Vec → Vec) :
    vBits f s op = .next (s.delivers 1 [f.a, f.b] 0
      [landV 1 f.d (op (s.srcV 1 f.a) (s.srcV 1 f.b)) (groupMask (s.curCore.live.pred (vMsk f))) 2]) := by
  rw [vBits, slotOp_issues h, giveV_eq, deliver_reads]
  rfl

/-- A V operation of latency 2 whose lanes set no status: its lanes by what each is (R222). -/
theorem vLanes_delivers_two {f : F3} {s t : State} {u : Nat → Nat} (hi : Issues 1 f.g s) (hd : Draws s (vRm f) t u) (op : Nat → Nat → Nat)
    (g : Nat → Nat) (hg : ∀ i, op (lane (s.srcV 1 f.a) (ltWidth f.fn) i) (lane (s.srcV 1 f.b) (ltWidth f.fn) i) = g i) :
    DeliversLanes t 1 [f.a, f.b, vCs f] f.d (ltWidth f.fn) 2 (fun i => (s.curCore.live.pred (vMsk f)).getLsbD (i * ltWidth f.fn / 32))
      (groupMask (s.curCore.live.pred (vMsk f))) (fun i => (g i, 0)) (vLanes f 2 2 s fun _ _ _ x n _ => (op x n, 0)) := by
  have h := vLanes_delivers hi hd 2 2 fun _ _ _ x n _ => (op x n, 0)
  simpa only [ite_self, hg] using h

/-- A shift to the left by the lane width or more leaves no bit of the lane. -/
theorem shl_eq_of_width (w x n : Nat) : (if w ≤ n then 0 else x * 2 ^ n % 2 ^ w) = x * 2 ^ n % 2 ^ w := by
  split
  · next h => exact (Nat.mod_eq_zero_of_dvd (Dvd.dvd.mul_left (Nat.pow_dvd_pow 2 h) x)).symm
  · rfl

/-- A shift to the right by the lane width or more leaves no bit of a lane. -/
theorem shr_eq_of_width {w x : Nat} (hx : x < 2 ^ w) (n : Nat) : (if w ≤ n then 0 else x / 2 ^ n) = x / 2 ^ n := by
  split
  · next h => exact (Nat.div_eq_of_lt (hx.trans_le (Nat.pow_le_pow_right (by decide) h))).symm
  · rfl

/-- An integer within 2^w on either side, shifted by w or more, is its sign. -/
theorem ediv_two_pow_of_small {z : Int} {w : Nat} (hlo : -(2 ^ w : Int) ≤ z) (hhi : z < 2 ^ w) {n : Nat} (h : w ≤ n) :
    z / 2 ^ n = if z < 0 then -1 else 0 := by
  have hp : (2 : Int) ^ w ≤ 2 ^ n := by exact_mod_cast Nat.pow_le_pow_right (by decide : 0 < 2) h
  split
  · next hz => exact Int.ediv_eq_neg_one_of_neg_of_le hz (by omega)
  · next hz => exact Int.ediv_eq_zero_of_lt (by omega) (by omega)

theorem sint_bounds (w x : Nat) : -(2 ^ w : Int) ≤ sint w x ∧ sint w x < 2 ^ w := by
  have h : ((x % 2 ^ w : Nat) : Int) < 2 ^ w := by exact_mod_cast Nat.mod_lt x (Nat.two_pow_pos w)
  rw [Int.natCast_emod, Nat.cast_pow, Nat.cast_ofNat] at h
  have h0 : (0 : Int) ≤ (x : Int) % 2 ^ w := Int.emod_nonneg _ (by positivity)
  rw [sint]
  split <;> omega

/-- A signed shift by the lane width or more leaves copies of the top bit. -/
theorem sra_eq_of_width (w x n : Nat) : sint w x / 2 ^ Nat.min n w = sint w x / 2 ^ n := by
  obtain ⟨hlo, hhi⟩ := sint_bounds w x
  rcases Nat.le_total n w with h | h
  · rw [show Nat.min n w = n from Nat.min_eq_left h]
  · rw [show Nat.min n w = w from Nat.min_eq_right h, ediv_two_pow_of_small hlo hhi le_rfl, ediv_two_pow_of_small hlo hhi h]

/-- A number of few bits stands in a register as it is. -/
theorem toNat_ofNat_of_lt {x k n : Nat} (hx : x < 2 ^ k) (h : k ≤ n) : (BitVec.ofNat n x).toNat = x := by
  rw [BitVec.toNat_ofNat, Nat.mod_eq_of_lt (hx.trans_le (Nat.pow_le_pow_right Nat.two_pos h))]
/-- Lane 0 of a register that holds one lane, and the lanes above it. -/
theorem lane_ofNat_zero {x : Nat} (hx : x < 2 ^ 32) : lane (BitVec.ofNat 2048 x) 32 0 = x := by
  rw [lane_eq, toNat_ofNat_of_lt hx (by decide), Nat.mul_zero, pow_zero, Nat.div_one, Nat.mod_eq_of_lt hx]
theorem lane_ofNat_above {x i : Nat} (hx : x < 2 ^ 32) (hi : 0 < i) : lane (BitVec.ofNat 2048 x) 32 i = 0 := by
  have h : x < 2 ^ (32 * i) := hx.trans_le (Nat.pow_le_pow_right Nat.two_pos (by omega))
  rw [lane_eq, toNat_ofNat_of_lt hx (by decide), Nat.div_eq_of_lt h, Nat.zero_mod]

theorem islice_lt (w : Nat) (z : Int) : islice w z < 2 ^ w := by
  have h := Int.emod_lt_of_pos z (by positivity : (0 : Int) < 2 ^ w)
  have h0 := Int.emod_nonneg z (by positivity : (2 : Int) ^ w ≠ 0)
  rw [islice]
  zify
  omega

/-- A scan gives a value for every lane (R71). -/
theorem scanLanes_length (ap : Nat → Nat → Nat × Nat) (o : Option Nat) (xs : List (Option Nat)) : (scanLanes ap o xs).length = xs.length := by
  induction xs generalizing o with
  | nil => cases o <;> rfl
  | cons x xs ih => cases o <;> cases x <;> simp only [scanLanes, List.length_cons, ih]

/-- VRED: the tree's result in lane 0, zero elsewhere (R228). -/
theorem execVred_delivers {f : F3} {s : State} (h : Issues 1 f.g s) :
    let w := ltWidth f.fn
    let m := s.curCore.live.pred (vMsk f)
    let ty := redType f.fn (vSub f)
    let r := treeReduce (redApply ty (vSub f) (vSat f) (RMode.ofCode (vRm f))) 8 ((List.range (2048 / w)).map fun i =>
      if m.getLsbD (i * w / 32) then some (redEnter f.fn (vSub f) (lane (s.srcV 1 f.a) w i)) else none)
    ∃ v : Vec, execVred f s = .next (s.delivers 1 [f.a] r.2 [landV 1 f.d v (BitVec.allOnes 2048) 12]) ∧
      lane v 32 0 = (if ltInt ty then islice 32 (sint (ltWidth ty) r.1) else canonNaN (ltFmt ty) r.1 % 2 ^ 32) ∧
      ∀ i, 0 < i → i < 64 → lane v 32 i = 0 := by
  intro w m ty r
  have hout : (if ltInt ty then islice 32 (sint (ltWidth ty) r.1) else canonNaN (ltFmt ty) r.1 % 2 ^ 32) < 2 ^ 32 := by
    split
    · exact islice_lt _ _
    · exact Nat.mod_lt _ (by decide)
  refine ⟨_, ?_, lane_ofNat_zero hout, fun i hi _ => lane_ofNat_above hout hi⟩
  rw [execVred, slotOp_issues h]
  simp only [giveV_delivers]
  rfl

/-- VSCAN: the running values, lane by lane (R228). -/
theorem execVscan_delivers {f : F3} {s : State} (h : Issues 1 f.g s) :
    let w := ltWidth f.fn
    let m := s.curCore.live.pred (vMsk f)
    let rs := scanLanes (redApply f.fn (vSub f) (vSat f) (RMode.ofCode (vRm f))) none ((List.range (2048 / w)).map fun i =>
      if m.getLsbD (i * w / 32) then some (lane (s.srcV 1 f.a) w i) else none)
    ∃ v : Vec,
      execVscan f s = .next (s.delivers 1 [f.a] (rs.foldl (fun acc r => acc ||| r.2) 0) [landV 1 f.d v (BitVec.allOnes 2048) 12]) ∧
      ∀ i, i < 2048 / w →
        lane v w i = (let x := (rs.getD i (0, 0)).1; if ltInt f.fn then x else canonNaN (ltFmt f.fn) x) % 2 ^ w := by
  intro w m rs
  have hlen : rs.length = 2048 / w := by simp only [rs, scanLanes_length, List.length_map, List.length_range]
  refine ⟨packLanes w (rs.map fun r => if ltInt f.fn then r.1 else canonNaN (ltFmt f.fn) r.1), ?_, fun i hi => ?_⟩
  · rw [execVscan, slotOp_issues h]
    simp only [giveV_delivers]
    rfl
  · have hi' : i < rs.length := hlen ▸ hi
    rw [lane_packLanes w _ i (by simpa using hi') (by simpa [hlen] using Nat.mul_div_le 2048 w), List.getElem_map,
      List.getD_eq_getElem _ _ hi']

/-- Settles O17: bits on whole registers, the shifts lane by lane, VRED and VSCAN by their results. -/
theorem vectorBitsAndReductionsComplete : Obligations.VectorBitsAndReductionsComplete := by
  refine ⟨fun f s t u hi hd => ?bits, fun f s hi => ⟨?red, execVscan_delivers hi⟩⟩
  case bits =>
    intro w m a b whole done
    refine ⟨vBits_delivers hi _, vBits_delivers hi _, vBits_delivers hi _, ?shl, ?shr, ?sra⟩
    case shl =>
      exact vLanes_delivers_two hi hd (fun x n => if w ≤ n then 0 else x * 2 ^ n % 2 ^ w)
        (fun i => lane a w i * 2 ^ lane b w i % 2 ^ w) fun i => shl_eq_of_width _ _ _
    case shr =>
      exact vLanes_delivers_two hi hd (fun x n => if w ≤ n then 0 else x / 2 ^ n)
        (fun i => lane a w i / 2 ^ lane b w i) fun i => shr_eq_of_width (lane_lt _ _ _) _
    case sra =>
      exact vLanes_delivers_two hi hd (fun x n => islice w (sint w x / 2 ^ Nat.min n w))
        (fun i => islice w (sint w (lane a w i) / 2 ^ lane b w i)) fun i => congrArg (islice w) (sra_eq_of_width _ _ _)
  case red =>
    have h := execVred_delivers hi
    simp only [redType, beq_iff_eq] at h
    exact h

end Sys2Proof.Machine

namespace Sys2Proof.Machine

/-! ### Reading sources changes registers of the issuing core alone (R37, R141) -/

/-- Reading sources changes no more than the cores. -/
theorem reads_cores (s : State) (codes : List Nat) : reads s codes = { s with cores := (reads s codes).cores } := by
  rw [reads_eq]; split <;> rfl
@[simp] theorem reads_part (s : State) (codes : List Nat) (p : Nat) : (reads s codes).part p = s.part p := by rw [reads_cores]; rfl
@[simp] theorem atSlot_part (s : State) (k p : Nat) : (s.atSlot k).part p = s.part p := rfl
@[simp] theorem atSlot_cur_place (s : State) (k : Nat) : (s.atSlot k).cur.pc = s.cur.pc ∧ (s.atSlot k).cur.inst = s.cur.inst := ⟨rfl, rfl⟩
@[simp] theorem reads_mill (s : State) (codes : List Nat) (m : Nat) : (reads s codes).mill m = s.mill m := by rw [reads_cores]; rfl
@[simp] theorem reads_corePart (s : State) (codes : List Nat) (c : Nat) : (reads s codes).corePart c = s.corePart c := by
  simp only [State.corePart, reads_coreJob, reads_part]
@[simp] theorem atSlot_corePart (s : State) (k c : Nat) : (s.atSlot k).corePart c = s.corePart c := rfl
@[simp] theorem reads_jobMill (s : State) (codes : List Nat) (c : Nat) : (reads s codes).jobMill c = s.jobMill c := by
  funext m; simp only [State.jobMill, reads_coreJob]
@[simp] theorem atSlot_jobMill (s : State) (k c : Nat) : (s.atSlot k).jobMill c = s.jobMill c := rfl
@[simp] theorem reads_kreg (s : State) (codes : List Nat) (n : Nat) : (reads s codes).curCore.live.kreg n = s.curCore.live.kreg n := by
  rw [reads_curCore]; rfl
@[simp] theorem reads_treg (s : State) (codes : List Nat) (n : Nat) : (reads s codes).curCore.live.treg n = s.curCore.live.treg n := by
  rw [reads_curCore]; rfl
@[simp] theorem reads_context (s : State) (codes : List Nat) :
    (reads s codes).curCore.job = s.curCore.job ∧ (reads s codes).curCore.strand = s.curCore.strand := by
  rw [reads_curCore]; exact ⟨rfl, rfl⟩

/-! ### What an access at issue may change (R108, R142, R157, R246, R366, R372) -/

/-- A core without its TLB, its read bitmap and its pending checks. -/
def Core.offAccess (x : Core) : Core := { x with tlb := [], readBits := [], loads := [] }
/-- The state without what an access of the issuing core may change: those parts of the core, caches, dies, and the bytes touched. -/
def State.offAccess (s : State) : State :=
  { s.onCore s.cur.core Core.offAccess with dies := [], mills := [], cur := { s.cur with locals := [] } }

theorem offAccess_curCore (s : State) : s.offAccess.curCore = s.curCore.offAccess := onCore_curCore s Core.offAccess

/-- A change of the issuing core that an access may make. -/
theorem onCore_offAccess (s : State) {f : Core → Core} (h : ∀ x, (f x).offAccess = x.offAccess) :
    (s.onCore s.cur.core f).offAccess = s.offAccess := by
  simp only [State.offAccess, onCore_cur, onCore_onCore, h]

/-- What the checks of an operation read, the same in two states: the cursor's place, and the context, job and partition of the issuing core. -/
structure State.KeepsIssue (s t : State) : Prop where
  core : t.cur.core = s.cur.core
  off : t.cur.off = s.cur.off
  pops : t.cur.pops = s.cur.pops
  context : t.curCore.job = s.curCore.job
  coreJob : t.coreJob s.cur.core = s.coreJob s.cur.core
  corePart : t.corePart s.cur.core = s.corePart s.cur.core

theorem State.KeepsIssue.trans {s t u : State} (h : s.KeepsIssue t) (k : t.KeepsIssue u) : s.KeepsIssue u where
  core := k.core.trans h.core
  off := k.off.trans h.off
  pops := k.pops.trans h.pops
  context := k.context.trans h.context
  coreJob := (h.core ▸ k.coreJob :).trans h.coreJob
  corePart := (h.core ▸ k.corePart :).trans h.corePart
theorem reads_keepsIssue (s : State) (slot : Nat) (codes : List Nat) : s.KeepsIssue (reads (s.atSlot slot) codes) where
  core := by rw [reads_cur]; rfl
  off := by rw [reads_cur]; rfl
  pops := by rw [reads_cur]; rfl
  context := (reads_context _ _).1
  coreJob := reads_coreJob _ _ _
  corePart := reads_corePart _ _ _

theorem live_of_offAccess {s t : State} (h : t.offAccess = s.offAccess) : t.curCore.live = s.curCore.live := by
  have hx : t.curCore.offAccess = s.curCore.offAccess := by rw [← offAccess_curCore, ← offAccess_curCore, h]
  exact (congrArg Core.live hx :)
theorem keepsIssue_of_offAccess {s t : State} (h : t.offAccess = s.offAccess) : s.KeepsIssue t := by
  have hcur : t.offAccess.cur = s.offAccess.cur := congrArg State.cur h
  have hcore : t.cur.core = s.cur.core := (congrArg Cursor.core hcur :)
  have hx : t.curCore.offAccess = s.curCore.offAccess := by rw [← offAccess_curCore, ← offAccess_curCore, h]
  have hjob : t.curCore.job = s.curCore.job := (congrArg Core.job hx :)
  have hcoreJob : t.coreJob s.cur.core = s.coreJob s.cur.core := by
    have hid : (t.core s.cur.core).job = s.curCore.job := hcore ▸ hjob
    exact (congrArg (fun o : Option Nat => t.job (o.getD 0)) hid).trans (job_congr (congrArg State.jobs h :) _)
  have hcorePart : t.corePart s.cur.core = s.corePart s.cur.core :=
    (congrArg (fun j : Job => t.part j.pid) hcoreJob).trans (part_congr (congrArg State.parts h :) _)
  exact ⟨hcore, (congrArg Cursor.off hcur :), (congrArg Cursor.pops hcur :), hjob, hcoreJob, hcorePart⟩

/-- Waking dies for walks changes no more than the dies (R366). -/
theorem wakeWalks_dies (s : State) (held es : List TlbEnt) : wakeWalks s held es = { s with dies := (wakeWalks s held es).dies } := by
  have hwake (u : State) (d : Nat) : { wakeDie u d with dies := [] } = { u with dies := [] } := by rw [wakeDie_dies]
  have h : { wakeWalks s held es with dies := [] } = { s with dies := [] } := by
    refine foldl_keeps (fun t : State => { t with dies := [] }) _ (fun t e => ?_) es s
    split
    · rfl
    · exact foldl_keeps (fun t : State => { t with dies := [] }) wakeDie hwake _ t
  exact congrArg (fun t : State => { t with dies := (wakeWalks s held es).dies }) h

theorem keepPages_offAccess (s : State) (es : List TlbEnt) : (keepPages s s.cur.core es).offAccess = s.offAccess := by
  have h (tlb : List TlbEnt) : (s.setCore s.cur.core { s.core s.cur.core with tlb := tlb }).offAccess = s.offAccess :=
    onCore_offAccess s (f := fun x => { x with tlb := tlb }) fun _ => rfl
  rw [keepPages, wakeWalks_dies]
  exact h _

/-- A load of bytes changes no more than the caches and the dies (R86, R108). -/
theorem loadLine_offAccess (s : State) (mill line hint : Nat) : (loadLine s mill line hint).2.2.offAccess = s.offAccess := by
  rw [loadLine]
  split
  · rfl
  · split <;> split <;> rfl
theorem mergeFrom_offAccess (s : State) (die home : Nat) : (mergeFrom s die home).offAccess = s.offAccess := by
  rw [mergeFrom]; split <;> rfl
theorem wakeDie_offAccess (s : State) (d : Nat) : (wakeDie s d).offAccess = s.offAccess := by rw [wakeDie_dies]; rfl
theorem loadHbm_offAccess (mill hint fuel : Nat) (s : State) (a n : Nat) : (loadHbm s mill hint fuel a n).2.2.offAccess = s.offAccess := by
  induction fuel generalizing s a n with
  | zero => rfl
  | succ fuel ih =>
    simp only [loadHbm]
    split
    · rfl
    · refine (ih _ _ _).trans ?_
      split
      · exact loadLine_offAccess _ _ _ _
      · exact (wakeDie_offAccess _ _).trans ((mergeFrom_offAccess _ _ _).trans (loadLine_offAccess _ _ _ _))
theorem loadPieces_offAccess (c hint : Nat) (ps : List Piece) (s : State) : (loadPieces s c hint ps).2.2.offAccess = s.offAccess := by
  induction ps generalizing s with
  | nil => rfl
  | cons p ps ih =>
    refine (ih _).trans ?_
    split
    · exact loadHbm_offAccess _ _ _ _ _ _
    · rfl
theorem offAccess_locals (s : State) (ls : List (Nat × Nat × Bool)) : ({ s with cur := { s.cur with locals := ls } } : State).offAccess = s.offAccess :=
  rfl
theorem noteTouched_offAccess (s : State) (ps : List Piece) (write : Bool) : (noteTouched s ps write).offAccess = s.offAccess := by
  refine (offAccess_locals _ _).trans ?_
  split
  · rfl
  · rw [noteLocalReads]
    split
    · rfl
    · exact onCore_offAccess s fun _ => rfl
theorem noteChecks_offAccess (s : State) (ps : List Piece) : (noteChecks s s.cur.core ps).offAccess = s.offAccess :=
  onCore_offAccess s fun _ => rfl

/-- Sources read and pages kept, by an operation of a slot. -/
theorem keepPages_reads_keepsIssue (s : State) (slot : Nat) (codes : List Nat) (es : List TlbEnt) :
    s.KeepsIssue (keepPages (reads (s.atSlot slot) codes) s.cur.core es) := by
  have h := keepPages_offAccess (reads (s.atSlot slot) codes) es
  rw [(reads_keepsIssue s slot codes).core] at h
  exact (reads_keepsIssue s slot codes).trans (keepsIssue_of_offAccess h)

/-! ### Descriptors read at issue (R280) -/

/-- What a descriptor's load at issue gives: the state after it, and its bytes. -/
def loadedDesc (s : State) (c : Nat) (ps : List Piece) (es : List TlbEnt) : State × List Byte :=
  let l := loadWhole (keepPages s c es) c ps
  (noteChecks (noteTouched l.2 ps false) c ps, l.1)

theorem loadedDesc_offAccess (s : State) (ps : List Piece) (es : List TlbEnt) : (loadedDesc s s.cur.core ps es).1.offAccess = s.offAccess := by
  have hl : (noteTouched (loadWhole (keepPages s s.cur.core es) s.cur.core ps).2 ps false).offAccess = s.offAccess :=
    (noteTouched_offAccess _ _ _).trans ((loadPieces_offAccess _ _ _ _).trans (keepPages_offAccess s es))
  have hc := noteChecks_offAccess (noteTouched (loadWhole (keepPages s s.cur.core es) s.cur.core ps).2 ps false) ps
  rw [(keepsIssue_of_offAccess hl).core] at hc
  exact hc.trans hl

/-- A descriptor read by an operation of slot C. -/
theorem loadedDesc_reads_keepsIssue (s : State) (codes : List Nat) (ps : List Piece) (es : List TlbEnt) :
    s.KeepsIssue (loadedDesc (reads (s.atSlot 6) codes) s.cur.core ps es).1 := by
  have h := loadedDesc_offAccess (reads (s.atSlot 6) codes) ps es
  rw [(reads_keepsIssue s 6 codes).core] at h
  exact (reads_keepsIssue s 6 codes).trans (keepsIssue_of_offAccess h)

/-- A descriptor whose access passes (R280). -/
theorem withDesc_reaches {s : State} {va n align : Nat} {ps : List Piece} {es : List TlbEnt} (h : Reaches s va n align .read false ps es)
    (k : State → List Byte → State) :
    withDesc s va n align k = k (loadedDesc s s.cur.core ps es).1 (loadedDesc s s.cur.core ps es).2 := by
  rw [withDesc, withAccess_reaches h]
  simp only [keepPages_cur]
  rfl

end Sys2Proof.Machine

namespace Sys2Proof.Machine

/-! ### Scales, random words, SEAL and OPEN (R241 to R244) -/

/-- The lanes of a register built from them (R217). -/
theorem ofLanes_fold (w n : Nat) (f : Nat → Nat) :
    (List.range n).foldl (fun acc i => acc ||| ((f i % 2 ^ w) <<< (w * i))) 0 < 2 ^ (w * n) ∧
    ∀ i, i < n → (List.range n).foldl (fun acc i => acc ||| ((f i % 2 ^ w) <<< (w * i))) 0 / 2 ^ (w * i) % 2 ^ w = f i % 2 ^ w := by
  induction n with
  | zero => exact ⟨by simp, fun i hi => absurd hi (by omega)⟩
  | succ n ih =>
    obtain ⟨hlt, hget⟩ := ih
    rw [List.range_succ, List.foldl_append, List.foldl_cons, List.foldl_nil]
    generalize (List.range n).foldl (fun acc i => acc ||| ((f i % 2 ^ w) <<< (w * i))) 0 = low at hlt hget ⊢
    have hx : f n % 2 ^ w < 2 ^ w := Nat.mod_lt _ (Nat.two_pow_pos w)
    have hsum : low ||| ((f n % 2 ^ w) <<< (w * n)) = f n % 2 ^ w * 2 ^ (w * n) + low := by
      rw [Nat.or_comm, ← Nat.shiftLeft_add_eq_or_of_lt hlt, Nat.shiftLeft_eq]
    rw [hsum]
    constructor
    · calc f n % 2 ^ w * 2 ^ (w * n) + low < (f n % 2 ^ w + 1) * 2 ^ (w * n) := by rw [Nat.add_mul]; omega
        _ ≤ 2 ^ w * 2 ^ (w * n) := Nat.mul_le_mul_right _ hx
        _ = 2 ^ (w * (n + 1)) := by rw [← Nat.pow_add, Nat.mul_succ, Nat.add_comm]
    · intro i hi
      rcases Nat.lt_succ_iff_lt_or_eq.mp hi with h | rfl
      · obtain ⟨k, rfl⟩ := Nat.exists_eq_add_of_lt h
        have hsplit : f (i + k + 1) % 2 ^ w * 2 ^ (w * (i + k + 1)) = f (i + k + 1) % 2 ^ w * 2 ^ (w * k) * 2 ^ w * 2 ^ (w * i) := by ring
        rw [hsplit, Nat.add_comm, Nat.add_mul_div_right _ _ (Nat.two_pow_pos _), Nat.add_mul_mod_self_right, hget i h]
      · rw [Nat.add_comm, Nat.add_mul_div_right _ _ (Nat.two_pow_pos _), Nat.div_eq_of_lt hlt, Nat.zero_add, Nat.mod_mod]

theorem lane_ofLanes {w n i : Nat} (f : Nat → Nat) (hi : i < n) (hw : w * n ≤ 2048) : lane (ofLanes w n f) w i = f i % 2 ^ w := by
  obtain ⟨hlt, hget⟩ := ofLanes_fold w n f
  rw [lane_eq, ofLanes, toNat_ofNat_of_lt hlt hw, hget i hi]

/-- The address of an access does not change as its sources are read (R245). -/
@[simp] theorem effAddr_reads (s : State) (slot : Nat) (codes : List Nat) (x y : Word) (off : Int) :
    effAddr (reads (s.atSlot slot) codes) x y off = effAddr s x y off := by
  simp only [effAddr, reads_cur]; rfl

/-- The address of LDK and STK (R241). -/
def scaleAddr (s : State) (f : F3) : Nat := effAddr s (s.srcS 3 f.a) (s.srcS 3 f.b) (xOff f)

/-- LDK and STK move 8 bytes of LOCAL once their checks pass (R241). -/
theorem withScale_reaches {f : F3} {s : State} {need : Need} {ps : List Piece} {es : List TlbEnt} (hl : isLocal (scaleAddr s f) = true)
    (h8 : scaleAddr s f % 8 = 0) (hr : Reaches (reads (s.atSlot 3) [f.a, f.b]) (scaleAddr s f) 8 8 need false ps es)
    (k : State → List Piece → State) :
    withScale (s.atSlot 3) f need k = k (keepPages (reads (s.atSlot 3) [f.a, f.b]) s.cur.core es) ps := by
  have hea : effAddr (reads (s.atSlot 3) [f.a, f.b]) (s.srcS 3 f.a) (s.srcS 3 f.b) (xOff f) = scaleAddr s f := effAddr_reads s 3 _ _ _ _
  simp only [withScale, reads_sval, atSlot_sval, hea, hl, h8]
  rw [if_neg (by decide), if_neg (by decide), withAccess_reaches hr, reads_cur]
  rfl

theorem loadK_eq (s : State) (d : Nat) (v : Word) :
    loadK s d v = addLanding s { landK 3 d v (BitVec.allOnes 64) 6 true with mem := true } := by
  have hm : mask64 = (BitVec.allOnes 64).setWidth 2048 := by
    apply BitVec.eq_of_toNat_eq
    rw [mask64, BitVec.toNat_ofNat, BitVec.toNat_setWidth, BitVec.toNat_allOnes]
  rw [loadK, landK, hm]

theorem execLdk_loads {f : F3} {s : State} {ps : List Piece} {es : List TlbEnt} (hi : Issues 3 f.g s) (hl : isLocal (scaleAddr s f) = true)
    (h8 : scaleAddr s f % 8 = 0) (hr : Reaches (reads (s.atSlot 3) [f.a, f.b]) (scaleAddr s f) 8 8 .read false ps es) :
    let r := loadNow (keepPages (reads (s.atSlot 3) [f.a, f.b]) s.cur.core es) 0 ps
    execLdk f s = .next (addLanding r.2.2 { landK 3 f.d (BitVec.ofNat 64 (leNat r.1)) (BitVec.allOnes 64) 6 true with mem := true }) := by
  intro r
  rw [execLdk, slotOp_issues hi, withScale_reaches hl h8 hr, loadK_eq]

theorem execStk_stores {f : F3} {s : State} {ps : List Piece} {es : List TlbEnt} (hi : Issues 3 f.g s) (hl : isLocal (scaleAddr s f) = true)
    (h8 : scaleAddr s f % 8 = 0) (hr : Reaches (reads (s.atSlot 3) [f.a, f.b]) (scaleAddr s f) 8 8 .write false ps es) :
    execStk f s = .next (storeEffs (noteTouched (keepPages (reads (s.atSlot 3) [f.a, f.b]) s.cur.core es) ps true) 0 ps
      (natLE 8 (s.curCore.live.kreg f.d).toNat)) := by
  have hk := live_of_offAccess (keepPages_offAccess (reads (s.atSlot 3) [f.a, f.b]) es)
  rw [reads_cur, atSlot_cur_core] at hk
  rw [execStk, slotOp_issues hi, withScale_reaches hl h8 hr, hk, reads_kreg, atSlot_curCore]

/-- A strand finds a word in its range, and takes it (R73, R75). -/
theorem popRandom_pops {s : State} (hd : (s.coreJob s.cur.core).det = false ∨ s.curCore.rngClaim = true)
    (hr : s.curCore.live.rngNext < s.curCore.rngEnd) (k : State → Word → State) :
    popRandom s k = k (s.onArch fun a => { a with rngNext := a.rngNext + 1 }) (genG s.curCore.rngKey (BitVec.ofNat 64 s.curCore.live.rngNext)) := by
  have hclaim : ((s.coreJob s.cur.core).det && !s.curCore.rngClaim) = false := by rcases hd with h | h <;> simp [h]
  simp only [popRandom, hclaim, Core.popWord, if_pos hr]
  rfl

/-- The tile operation of SEAL (opcode 16) and OPEN (17) (R243). -/
def sealOp (s : State) (f : F3) (opc : Nat) : MOp :=
  { slot := 3, opc := opc, fn := 0, td := ⟨f.d, s.curCore.live.treg f.d⟩, key := (s.srcS 3 f.a).toNat, iv := s.srcS 3 f.b, pc := s.cur.pc,
    inst := s.cur.inst }
/-- The checks of SEAL and OPEN at issue (R244). -/
def sealFault (s : State) (f : F3) (opc : Nat) : Option (Nat × Nat) :=
  sealCheck (reads (s.atSlot 3) [f.a, f.b]) s.cur.core (sealOp s f opc) (tileOf (s.curCore.live.treg f.d) 0).outside

/-- SEAL and OPEN join the tile operations or raise what their checks say (R244). -/
theorem sealIssue_joins {f : F3} {s : State} {opc : Nat} (hi : Issues 3 f.g s) (h : sealFault s f opc = none) :
    sealIssue opc f s = .next ((reads (s.atSlot 3) [f.a, f.b]).withEff (.tile (sealOp s f opc))) := by
  rw [sealIssue, slotOp_issues hi]
  simp only [reads_sval, atSlot_sval, reads_cur, reads_treg, atSlot_curCore, atSlot_cur_core, atSlot_cur_place]
  simp only [sealFault, sealOp] at h
  simp only [h]
  rfl
theorem sealIssue_raises {f : F3} {s : State} {opc : Nat} {v : Nat × Nat} (hi : Issues 3 f.g s) (h : sealFault s f opc = some v) :
    sealIssue opc f s = .next (raise (reads (s.atSlot 3) [f.a, f.b]) v.1 v.2) := by
  rw [sealIssue, slotOp_issues hi]
  simp only [reads_sval, atSlot_sval, reads_cur, reads_treg, atSlot_curCore, atSlot_cur_core, atSlot_cur_place]
  simp only [sealFault, sealOp] at h
  simp only [h]

/-- Settles O26: LDK and STK once their access passes, MOVK by its form, RNDW and RNDC by the word they take, SEAL and OPEN by their checks. -/
theorem scalesRandomWordsAndSealsComplete : Obligations.ScalesRandomWordsAndSealsComplete := by
  refine ⟨fun f s hi => ⟨fun ps es hl h8 => ⟨fun hr => execLdk_loads hi hl h8 hr, fun hr => execStk_stores hi hl h8 hr⟩,
    fun h0 => ?toScale, fun h1 => ?fromScale, fun h2 => ?move, fun hd hr => ⟨?word, ?lanes⟩⟩,
    fun f s hi => ⟨sealIssue_joins hi, sealIssue_joins hi⟩⟩
  case toScale =>
    show execMovk f s = _
    rw [execMovk, slotOp_issues hi]
    simp only [h0, giveK_eq, deliver_reads]
    rfl
  case fromScale =>
    show execMovk f s = _
    rw [execMovk, slotOp_issues hi]
    simp only [h1, giveS_eq, deliver_plain]
    rfl
  case move =>
    show execMovk f s = _
    rw [execMovk, slotOp_issues hi]
    simp only [h2, giveK_eq, deliver_plain]
    rfl
  case word =>
    show execRndw f s = _
    rw [execRndw, slotOp_issues hi, popRandom_pops (s := s.atSlot 3) hd hr, giveS_eq, ← onArch_atSlot, deliver_plain]
    rfl
  case lanes =>
    refine ⟨_, ?_, fun j hj => lane_ofLanes _ hj (by decide) |>.trans (Nat.mod_mod _ _)⟩
    show execRndc f s = _
    rw [execRndc, slotOp_issues hi, popRandom_pops (s := s.atSlot 3) hd hr, giveV_eq, ← onArch_atSlot, deliver_plain]
    rfl

/-! ### Counter adds, claims and channels (R262, R264, R265) -/

theorem execCadd_queues {f : F3} {s : State} (hi : Issues 6 f.g s)
    (h : addCheck (s.corePart s.cur.core) (s.jobMill s.cur.core) (s.srcS 6 f.a).toNat ((s.srcS 6 f.b).toNat + cImm f) = none) :
    execCadd f s = .next ((reads (s.atSlot 6) [f.a, f.b]).withEff (.cmd (.cadd (s.srcS 6 f.a).toNat ((s.srcS 6 f.b).toNat + cImm f)))) := by
  rw [execCadd, slotOp_issues hi]
  simp only [reads_sval, atSlot_sval, reads_cur, atSlot_cur_core, reads_corePart, atSlot_corePart, reads_jobMill, atSlot_jobMill, h]
  rfl

theorem execCaddf_queues {f : F3} {s : State} (hi : Issues 6 f.g s)
    (h : addCheck (s.corePart s.cur.core) (s.jobMill s.cur.core) (s.srcS 6 f.a).toNat ((s.srcS 6 f.b).toNat + cImm f) = none)
    (hl : isRemote (s.srcS 6 f.a).toNat = false) :
    execCaddf f s = .next ((reads (s.atSlot 6) [f.a, f.b]).withEff (.caddf (s.srcS 6 f.a).toNat ((s.srcS 6 f.b).toNat + cImm f) f.d)) := by
  rw [execCaddf, slotOp_issues hi]
  simp only [reads_sval, atSlot_sval, reads_cur, atSlot_cur_core, reads_corePart, atSlot_corePart, reads_jobMill, atSlot_jobMill, h, hl]
  rfl

theorem execCaddm_queues {f : F3} {s : State} {hs : List Nat} (hi : Issues 6 f.g s)
    (h : caddmHandles (s.corePart s.cur.core) (s.jobMill s.cur.core) (s.srcS 6 f.a).toNat (s.srcS 6 f.b).toNat
      ((List.range 16).filter fun j => (cImm f).testBit j) = .ok hs) :
    execCaddm f s = .next ((reads (s.atSlot 6) [f.a, f.b]).withEff (.cmd (.caddm hs (s.srcS 6 f.b).toNat))) := by
  rw [execCaddm, slotOp_issues hi]
  simp only [reads_sval, atSlot_sval, reads_cur, atSlot_cur_core, reads_corePart, atSlot_corePart, reads_jobMill, atSlot_jobMill, h]
  rfl

/-- QSTAT reads a channel of the core's mill (R265). -/
theorem execQstat_gives {f : F3} {s : State} (hi : Issues 6 f.g s) :
    execQstat f s = .next (s.delivers 6 [] 0 [landS 6 f.d (BitVec.ofNat 64 (if f.fn == 0 then tget 0 (s.mill (coreMill s.cur.core)).stall (cChan f)
      else Nat.min 16 (heldCount s (coreMill s.cur.core) (cChan f)))) 4]) := by
  rw [execQstat, slotOp_issues hi, giveS_eq, deliver_plain]
  rfl

/-- GEN by its checks (R77, R264). -/
theorem execGen_eq {f : F3} {s : State} (hi : Issues 6 f.g s) :
    let seen := reads (s.atSlot 6) [f.a, f.b, f.d]
    let seed := s.srcS 6 f.d
    let base := (s.srcS 6 f.a).toNat
    let len := (s.srcS 6 f.b).toNat
    let pid := (s.coreJob s.cur.core).pid
    let p := s.part pid
    let id := s.curCore.job.getD 0
    execGen f s = .next
      (if len = 0 ∨ 2 ^ 64 < base + len then raise seen cBound len
       else if s.cur.core = 768 then seen.withEff (.cmd (.gen seed base len))
       else if claimConflict p (some id) seed base len then raise seen cRngOverlap base
       else if 1024 ≤ p.claims.length then raise seen cQueueFull 0
       else (seen.setPart pid { p with claims := p.claims ++ [⟨seed, base, len, id, some s.curCore.strand, false⟩] }).withEff
         (.cmd (.gen seed base len))) := by
  intro seen seed base len pid p id
  rw [execGen, slotOp_issues hi]
  simp only [reads_sval, atSlot_sval, reads_cur, atSlot_cur_core, reads_coreJob, atSlot_coreJob, reads_part, atSlot_part, reads_context,
    atSlot_curCore, mgmtCore, Bool.or_eq_true, beq_iff_eq, decide_eq_true_eq]
  rfl

/-- Settles O32: the commands by their checks, QSTAT by its form. -/
theorem counterAndClaimCommandsComplete : Obligations.CounterAndClaimCommandsComplete := by
  intro f s hi c a b p seen m
  refine ⟨fun h0 => ?stalls, fun h0 => ?length, fun h => ⟨execCadd_queues hi h, execCaddf_queues hi h⟩, fun hs h => execCaddm_queues hi h,
    ?gen⟩
  case stalls => exact (execQstat_gives hi).trans (by rw [if_pos (by simpa using h0)]; rfl)
  case length => exact (execQstat_gives hi).trans (by rw [if_neg (by simpa using h0)]; rfl)
  case gen =>
    intro seed pid seen id h1 hmax
    have hlen : ¬ (b = 0 ∨ 2 ^ 64 < a + b) := by omega
    refine ⟨fun hc => (execGen_eq hi).trans ?_, fun hc hfree hroom => (execGen_eq hi).trans ?_⟩
    · rw [if_neg hlen, if_pos hc]
    · rw [if_neg hlen, if_neg hc, if_neg (Bool.not_eq_true _ |>.mpr hfree), if_neg (Nat.not_le.mpr hroom)]

end Sys2Proof.Machine

namespace Sys2Proof.Machine

/-! ### No word to draw (R75, R76, R221) -/

/-- The strand finds no word to draw, and why: DET without a claim, or the end of its range (R75, R221). -/
def NoDraw (s : State) (code : Nat) : Prop :=
  (s.coreJob s.cur.core).det = true ∧ s.curCore.rngClaim = false ∧ code = cDetViolation ∨
  ((s.coreJob s.cur.core).det = false ∨ s.curCore.rngClaim = true) ∧ s.curCore.rngEnd ≤ s.curCore.live.rngNext ∧ code = cBound

theorem popRandom_noDraw {s : State} {code : Nat} (h : NoDraw s code) (k : State → Word → State) : popRandom s k = raise s code 0 := by
  rcases h with ⟨hdet, hclaim, rfl⟩ | ⟨hd, hr, rfl⟩
  · simp only [popRandom, hdet, hclaim, Bool.not_false, Bool.and_self, if_true]
  · have hclaim : ((s.coreJob s.cur.core).det && !s.curCore.rngClaim) = false := by rcases hd with h | h <;> simp [h]
    simp only [popRandom, hclaim, Core.popWord, if_neg (Nat.not_lt.mpr hr)]
    rfl
theorem noDraw_reads {s : State} {code : Nat} (h : NoDraw s code) (slot : Nat) (codes : List Nat) : NoDraw (reads (s.atSlot slot) codes) code := by
  simp only [NoDraw, reads_curCore, reads_coreJob, reads_cur]
  exact h
theorem withDraws_noDraw {s : State} {code rm : Nat} (h : NoDraw s code) (hrm : rm = 5) (k : State → (Nat → Nat) → State) :
    withDraws s rm k = raise s code 0 := by
  rw [withDraws, if_pos (by simpa using hrm), popRandom_noDraw h]

/-- A V operation on lanes without its draw (R221). -/
theorem vLanes_noDraw {f : F3} {s : State} {code : Nat} (h : NoDraw s code) (hi : Issues 1 f.g s) (hrm : vRm f = 5) (latI latF : Nat)
    (g : RMode → Nat → Nat → Nat → Nat → Nat → Nat × Nat) :
    vLanes f latI latF s g = .next (raise (reads (s.atSlot 1) [f.a, f.b, vCs f]) code 0) := by
  rw [vLanes, slotOp_issues hi]
  exact congrArg _ (withDraws_noDraw (noDraw_reads h 1 _) hrm _)

/-! ### Accesses that fail (R246) -/

theorem accessFail_faults {t : State} {e : Flt} (h : e.atsPage = none) :
    accessFail t e = raiseFlt t { code := e.code, info := e.info, flags := if e.malformed then 8 else 0, page := e.page } := by
  simp only [accessFail, h]
theorem accessFail_freezes {t : State} {e : Flt} {page : Nat} (h : e.atsPage = some page) :
    accessFail t e = { t with cur := { t.cur with frozen := true, freezePage := some page } } := by
  simp only [accessFail, h, freeze]

theorem withAccess_fails {s : State} {va n align : Nat} {need : Need} {noHost : Bool} {e : Flt}
    (h : coreAccess s s.cur.core va n align need noHost = .error e) (k : State → List Piece → State) :
    withAccess s va n align need noHost k = accessFail s e := by
  simp only [withAccess, h]
theorem withDesc_fails {s : State} {va n align : Nat} {e : Flt} (h : coreAccess s s.cur.core va n align .read false = .error e)
    (k : State → List Byte → State) : withDesc s va n align k = accessFail s e := withAccess_fails h _

/-- The checks of a LOCAL range: roles, then bounds in USER (R80, R82). -/
theorem localCheck_role {s : State} {mill off n va : Nat} {lb : List Word} {user : Bool} {u : BankUse}
    (hr : rolesAdmit (s.mill mill).bankrole u off n = false) : localCheck s mill lb user u off n va = some { code := cAccess, info := va } := by
  simp [localCheck, hr]
theorem localCheck_bound {s : State} {mill off n va : Nat} {lb : List Word} {u : BankUse}
    (hr : rolesAdmit (s.mill mill).bankrole u off n = true) (hb : inBounds lb off n = false) :
    localCheck s mill lb true u off n va = some { code := cBound, info := va } := by
  simp [localCheck, hr, hb]

section
variable {s : State} {c va n align : Nat} {need : Need} {noHost : Bool}

/-- Step 1 of R246. -/
theorem coreAccess_notCanonical (h : spanCanonical va n = false) : coreAccess s c va n align need noHost = .error { code := cAccess, info := va } := by
  simp [coreAccess, h]
/-- Step 2 of R246. -/
theorem coreAccess_straddlesLocal (hc : c ≠ 768) (h : spanCanonical va n = true) (hl : isLocal va ≠ isLocal (va + n - 1)) :
    coreAccess s c va n align need noHost = .error { code := cAccess, info := va } := by
  simp [coreAccess, h, mgmtCore, hc, hl]
/-- Steps 3 to 5 of R246 in LOCAL: alignment, roles and bounds (R80, R82). -/
theorem coreAccess_local_misaligned (hc : c ≠ 768) (h : spanCanonical va n = true) (hl : isLocal va = true) (hl' : isLocal (va + n - 1) = true)
    (ha : aligned va align = false) : coreAccess s c va n align need noHost = .error { code := cAlign, info := va } := by
  simp [coreAccess, h, mgmtCore, hc, hl, hl', ha]
theorem coreAccess_local_checked {e : Flt} (hc : c ≠ 768) (h : spanCanonical va n = true) (hl : isLocal va = true)
    (hl' : isLocal (va + n - 1) = true) (ha : aligned va align = true)
    (he : localCheck s (coreMill c) (s.core c).lbound ((s.core c).live.priv_ == 0) .core (va - localBase) n va = some e) :
    coreAccess s c va n align need noHost = .error e := by
  simp only [coreAccess, h, show (c == mgmtCore) = false by simpa [mgmtCore] using hc, hl, hl', ha, he]
  rfl
theorem coreAccess_millQual (hc : c ≠ 768) (h : spanCanonical va n = true) (hl : isLocal va = false) (hl' : isLocal (va + n - 1) = false)
    (hq : isMillQual va = true) : coreAccess s c va n align need noHost = .error { code := cAccess, info := va } := by
  simp [coreAccess, h, mgmtCore, hc, hl, hl', hq]
/-- Steps 3 and 6 to 8 of R246 elsewhere, in USER: alignment, then page by page; a host page that the form refuses is found last. -/
theorem coreAccess_user_misaligned (hc : c ≠ 768) (h : spanCanonical va n = true) (hl : isLocal va = false) (hl' : isLocal (va + n - 1) = false)
    (hq : isMillQual va = false) (hq' : isMillQual (va + n - 1) = false) (hp : (s.core c).live.priv_ = 0) (ha : aligned va align = false) :
    coreAccess s c va n align need noHost = .error { code := cAlign, info := va } := by
  simp [coreAccess, h, mgmtCore, hc, hl, hl', hq, hq', hp, ha]
theorem coreAccess_user (hc : c ≠ 768) (h : spanCanonical va n = true) (hl : isLocal va = false) (hl' : isLocal (va + n - 1) = false)
    (hq : isMillQual va = false) (hq' : isMillQual (va + n - 1) = false) (hp : (s.core c).live.priv_ = 0) (ha : aligned va align = true)
    (hv : isSvc (s.corePart c) va = false) (hv' : isSvc (s.corePart c) (va + n - 1) = false) :
    let cuts := translateCuts s (s.core c).tlb (coreDie c) (s.coreJob c).pid (s.coreJob c).aspace need (pageCuts (n / 4096 + 2) va n)
    (∀ e, cuts = .error e → coreAccess s c va n align need noHost = .error e) ∧
    ∀ r, cuts = .ok r → noHost = true → (∃ p ∈ r.1, p.loc.sp = .host) →
      coreAccess s c va n align need noHost = .error { code := cAccess, info := va } := by
  intro cuts
  constructor
  · intro e (he : translateCuts _ _ _ _ _ _ _ = _)
    simp [coreAccess, h, mgmtCore, hc, hl, hl', hq, hq', hp, ha, hv, hv', he]
  · intro r (hr : translateCuts _ _ _ _ _ _ _ = _) hn hhost
    simp [coreAccess, h, mgmtCore, hc, hl, hl', hq, hq', hp, ha, hv, hv', hr, hn, hhost]

/-- The management controller reaches MCRAM and its control window alone (R432). -/
theorem coreAccess_mgmt_outside (h : spanCanonical va n = true) (hm : isMcram va = false) (hw : isCtl va = false) :
    coreAccess s 768 va n align need noHost = .error { code := cAccess, info := va } := by
  simp [coreAccess, h, mgmtCore, hm, hw]
theorem coreAccess_mgmt_misaligned (h : spanCanonical va n = true) (hm : isMcram va = true) (hm' : isMcram (va + n - 1) = true)
    (ha : aligned va align = false) : coreAccess s 768 va n align need noHost = .error { code := cAlign, info := va } := by
  simp [coreAccess, h, mgmtCore, hm, hm', ha]
end

/-! ### Faults of the L slot (R245 to R256) -/

/-- The address of an L operation, and of the forms whose B has another purpose, as its sources are read (R245). -/
theorem lAddr_reads (s : State) (f : F3) (codes : List Nat) :
    lAddr (reads (s.atSlot 2) codes) f = effAddr s (s.srcS 2 f.a) (s.srcS 2 f.b) (lOff f) := by
  simp only [lAddr, effAddr_reads, reads_sval, atSlot_sval]
theorem lBase_reads (s : State) (f : F3) (codes : List Nat) : lBase (reads (s.atSlot 2) codes) f = effAddr s (s.srcS 2 f.a) 0 (lOff f) := by
  simp only [lBase, effAddr_reads, reads_sval, atSlot_sval]

section
variable {f : F3} {s : State} {e : Flt}

theorem execLds_fails {n : Nat} (hi : Issues 2 f.g s) (hn : (f.fn, n) ∈ [(0, 8), (1, 4), (2, 4), (3, 2), (4, 2), (5, 1), (6, 1)])
    (h : coreAccess (reads (s.atSlot 2) [f.a, f.b]) s.cur.core (effAddr s (s.srcS 2 f.a) (s.srcS 2 f.b) (lOff f)) n 0 .read false = .error e) :
    execLds f s = .next (accessFail (reads (s.atSlot 2) [f.a, f.b]) e) := by
  have hsize : lsSize f.fn = n := by
    simp only [List.mem_cons, Prod.mk.injEq, List.not_mem_nil, or_false] at hn
    rcases hn with ⟨hf, rfl⟩ | ⟨hf, rfl⟩ | ⟨hf, rfl⟩ | ⟨hf, rfl⟩ | ⟨hf, rfl⟩ | ⟨hf, rfl⟩ | ⟨hf, rfl⟩ <;> rw [hf] <;> rfl
  rw [execLds, slotOp_issues hi]
  simp only [lAddr_reads, hsize]
  rw [withAccess_fails (by rw [reads_cur]; exact h)]

theorem execSts_fails {n : Nat} (hi : Issues 2 f.g s) (hn : (f.fn, n) ∈ [(0, 8), (1, 4), (3, 2), (5, 1)])
    (h : coreAccess (reads (s.atSlot 2) [f.a, f.b, f.d]) s.cur.core (effAddr s (s.srcS 2 f.a) (s.srcS 2 f.b) (lOff f)) n 0 .write false =
      .error e) : execSts f s = .next (accessFail (reads (s.atSlot 2) [f.a, f.b, f.d]) e) := by
  have hsize : lsSize f.fn = n := by
    simp only [List.mem_cons, Prod.mk.injEq, List.not_mem_nil, or_false] at hn
    rcases hn with ⟨hf, rfl⟩ | ⟨hf, rfl⟩ | ⟨hf, rfl⟩ | ⟨hf, rfl⟩ <;> rw [hf] <;> rfl
  rw [execSts, slotOp_issues hi]
  simp only [lAddr_reads, hsize]
  rw [withAccess_fails (by rw [reads_cur]; exact h)]

/-- A vector access whose elements fail their checks (R250). -/
theorem withElems_fails {t : State} {w : Nat} {addr : Nat → Nat} {need : Need}
    (h : vecAccess t t.cur.core (w / 8) need (activeElems (t.curCore.live.pred (lMsk f)) w addr) = .error e)
    (k : State → List (Nat × List Piece) → State) : withElems t f w addr need k = accessFail t e := by
  have h' : vecAccess t t.cur.core (w / 8) need (((List.range (laneCount w)).filter (activeLane (t.curCore.live.pred (lMsk f)) w)).map
      fun i => (i, addr i % 2 ^ 64)) = .error e := h
  simp only [withElems, h']
theorem vecLoad_fails {w : Nat} {codes : List Nat} {addr : State → Nat → Nat} (hi : Issues 2 f.g s)
    (h : vecAccess (reads (s.atSlot 2) codes) s.cur.core (w / 8) .read
      (activeElems (s.curCore.live.pred (lMsk f)) w (addr (reads (s.atSlot 2) codes))) = .error e) :
    vecLoad f w codes addr s = .next (accessFail (reads (s.atSlot 2) codes) e) := by
  rw [vecLoad, slotOp_issues hi]
  exact congrArg _ (withElems_fails (by rw [reads_cur, reads_pred]; exact h) _)
theorem vecStore_fails {w : Nat} {codes : List Nat} {addr : State → Nat → Nat} (hi : Issues 2 f.g s)
    (h : vecAccess (reads (s.atSlot 2) (f.d :: codes)) s.cur.core (w / 8) .write
      (activeElems (s.curCore.live.pred (lMsk f)) w (addr (reads (s.atSlot 2) (f.d :: codes)))) = .error e) :
    vecStore f w codes addr s = .next (accessFail (reads (s.atSlot 2) (f.d :: codes)) e) := by
  rw [vecStore, slotOp_issues hi]
  exact congrArg _ (withElems_fails (by rw [reads_cur, reads_pred]; exact h) _)

/-- The addresses of elements, as the sources are read (R250). -/
theorem addrGroup_reads (codes : List Nat) :
    addrGroup f (reads (s.atSlot 2) codes) = fun j => effAddr s (s.srcS 2 f.a) (s.srcS 2 f.b) (lOff f) + 4 * j := by
  funext j; rw [addrGroup, lAddr_reads]
theorem addrStride_reads (codes : List Nat) : addrStride f (reads (s.atSlot 2) codes) = fun (i : Nat) =>
    (((effAddr s (s.srcS 2 f.a) 0 (lOff f) : Int) + i * (s.srcS 2 f.b).toInt) % 2 ^ 64).toNat := by
  funext i; rw [addrStride, lBase_reads, reads_sval, atSlot_sval]
theorem addrIndex_reads (codes : List Nat) : addrIndex f (reads (s.atSlot 2) codes) = fun i =>
    effAddr s (s.srcS 2 f.a) 0 (lOff f) + lane (s.srcV 2 f.b) (elemWidth f.fn) i * (elemWidth f.fn / 8) := by
  funext i; rw [addrIndex, lBase_reads, reads_vval, atSlot_vval]
theorem elemWidth_eq (n : Nat) : elemWidth n = if n = 0 then 32 else if n = 1 then 16 else 8 := by
  rcases n with _ | _ | n <;> rfl

theorem execPref_fails (hi : Issues 2 f.g s)
    (h : spanCanonical (effAddr s (s.srcS 2 f.a) (s.srcS 2 f.b) (lOff f) / 128 * 128) (128 * (f.fn + 1)) = false) :
    execPref f s = .next (raise (reads (s.atSlot 2) [f.a, f.b]) cAccess (effAddr s (s.srcS 2 f.a) (s.srcS 2 f.b) (lOff f))) := by
  rw [execPref, slotOp_issues hi]
  simp only [lAddr_reads, h]
  rfl

/-- CFLUSH and CINV of an address that is not canonical (R253). -/
theorem withLine_fails (h0 : f.fn = 0) (h : canonical (effAddr s (s.srcS 2 f.a) (s.srcS 2 f.b) (lOff f)) = false)
    (k : State → Option Nat → State) :
    withLine (s.atSlot 2) f k = raise (reads (s.atSlot 2) [f.a, f.b]) cAccess (effAddr s (s.srcS 2 f.a) (s.srcS 2 f.b) (lOff f)) := by
  rw [withLine, if_neg (by simp [h0])]
  simp only [lAddr_reads, h]
  rfl

theorem execAtom_fails (hi : Issues 2 f.g s)
    (h : coreAccess (reads (s.atSlot 2) [f.a, f.b, f.d]) s.cur.core (effAddr s (s.srcS 2 f.a) 0 (lOff f)) (atomWidth f / 8) (atomWidth f / 8)
      .both true = .error e) : execAtom f s = .next (accessFail (reads (s.atSlot 2) [f.a, f.b, f.d]) e) := by
  rw [execAtom, slotOp_issues hi]
  simp only [lBase_reads]
  rw [withAccess_fails (by rw [reads_cur]; exact h)]

theorem execAccv_fails (hi : Issues 2 f.g s)
    (h : coreAccess (reads (s.atSlot 2) [f.a, f.b, f.d]) s.cur.core (effAddr s (s.srcS 2 f.a) (s.srcS 2 f.b) (lOff f)) 256 256 .both true =
      .error e) : execAccv f s = .next (accessFail (reads (s.atSlot 2) [f.a, f.b, f.d]) e) := by
  rw [execAccv, slotOp_issues hi]
  simp only [lAddr_reads]
  rw [withAccess_fails (by rw [reads_cur]; exact h)]

/-- What ACCV raises of the 256 bytes that its access reaches (R256): the control window, ciphertext, a floating add under DET. -/
theorem execAccv_reaches {p : Piece} {es : List TlbEnt} (hi : Issues 2 f.g s)
    (hr : Reaches (reads (s.atSlot 2) [f.a, f.b, f.d]) (effAddr s (s.srcS 2 f.a) (s.srcS 2 f.b) (lOff f)) 256 256 .both true [p] es) :
    let ea := effAddr s (s.srcS 2 f.a) (s.srcS 2 f.b) (lOff f)
    let u := keepPages (reads (s.atSlot 2) [f.a, f.b, f.d]) s.cur.core es
    (p.loc.sp = .ctl → execAccv f s = .next (raise u cAccess ea)) ∧
    (p.loc.sp ≠ .ctl → formBlocks u s.cur.core p.loc 256 = true → execAccv f s = .next (raise u cForm ea)) ∧
    (p.loc.sp ≠ .ctl → formBlocks u s.cur.core p.loc 256 = false → (s.coreJob s.cur.core).det = true → ltInt f.fn = false →
      execAccv f s = .next (raise u cDetViolation ea)) := by
  intro ea u
  have hk : s.KeepsIssue u := keepPages_reads_keepsIssue s 2 _ es
  rw [execAccv, slotOp_issues hi]
  simp only [lAddr_reads]
  rw [withAccess_reaches hr, reads_cur, atSlot_cur_core]
  refine ⟨fun hctl => congrArg _ (if_pos ?ctl), fun hctl hform => congrArg _ ((if_neg ?elsewhere).trans (if_pos ?form)),
    fun hctl hform hdet hfloat => congrArg _ ((if_neg ?elsewhere').trans ((if_neg ?plain).trans (if_pos ?det)))⟩
  case ctl => rw [hctl]; rfl
  case elsewhere => simpa using hctl
  case form => rw [show u.cur.core = _ from hk.core]; exact hform
  case elsewhere' => simpa using hctl
  case plain => rw [show u.cur.core = _ from hk.core, Bool.not_eq_true]; exact hform
  case det => rw [show u.cur.core = _ from hk.core, show u.coreJob _ = _ from hk.coreJob, hdet, hfloat]; rfl
end

/-! ### Faults of LDK, STK, SEAL and OPEN (R241, R244) -/

theorem withScale_notLocal {f : F3} {s : State} (need : Need) (hl : isLocal (scaleAddr s f) = false) (k : State → List Piece → State) :
    withScale (s.atSlot 3) f need k = raise (reads (s.atSlot 3) [f.a, f.b]) cAccess (scaleAddr s f) := by
  simp only [withScale, reads_sval, atSlot_sval, effAddr_reads, show effAddr s _ _ _ = scaleAddr s f from rfl, hl]
  rfl
theorem withScale_misaligned {f : F3} {s : State} (need : Need) (hl : isLocal (scaleAddr s f) = true) (h8 : scaleAddr s f % 8 ≠ 0)
    (k : State → List Piece → State) :
    withScale (s.atSlot 3) f need k = raise (reads (s.atSlot 3) [f.a, f.b]) cAlign (scaleAddr s f) := by
  simp only [withScale, reads_sval, atSlot_sval, effAddr_reads, show effAddr s _ _ _ = scaleAddr s f from rfl, hl]
  rw [if_neg (by decide), if_pos (by simpa using h8)]
theorem withScale_fails {f : F3} {s : State} {need : Need} {e : Flt} (hl : isLocal (scaleAddr s f) = true) (h8 : scaleAddr s f % 8 = 0)
    (h : coreAccess (reads (s.atSlot 3) [f.a, f.b]) s.cur.core (scaleAddr s f) 8 8 need false = .error e) (k : State → List Piece → State) :
    withScale (s.atSlot 3) f need k = accessFail (reads (s.atSlot 3) [f.a, f.b]) e := by
  simp only [withScale, reads_sval, atSlot_sval, effAddr_reads, show effAddr s _ _ _ = scaleAddr s f from rfl, hl, h8]
  rw [if_neg (by decide), if_neg (by decide), withAccess_fails (by rw [reads_cur]; exact h)]

/-- The first two checks of SEAL and OPEN: the key slot's number, and whose it is (R244). -/
theorem sealFault_keyNumber {s : State} {f : F3} {opc : Nat} (h : 128 ≤ (sealOp s f opc).key) :
    sealFault s f opc = some (cBound, (sealOp s f opc).key) := by
  simp only [sealFault, sealCheck, if_pos h]
theorem sealFault_keyOwner {s : State} {f : F3} {opc : Nat} (h : (sealOp s f opc).key < 128)
    (hk : (s.corePart s.cur.core).hasKey (sealOp s f opc).key = false) : sealFault s f opc = some (cAccess, (sealOp s f opc).key) := by
  simp only [sealFault, sealCheck, if_neg (Nat.not_le.mpr h), reads_corePart, atSlot_corePart, hk]
  rfl

/-! ### Faults of the M slots (R267, R269, R276) -/

theorem mSlot_eq (s : State) : mSlot s = if s.cur.slot = 5 then 5 else 4 := by simp only [mSlot, beq_iff_eq]
theorem mSlot_atSlot (s : State) : mSlot (s.atSlot (mSlot s)) = mSlot s := by
  simp only [mSlot_eq, atSlot_cur_slot]
  split <;> rfl

/-- The checks of R267 on an M operation at issue; det tells that it would draw without a claim. -/
def mFault (s : State) (opc : Nat) (f : FM) (det : Bool) : Option (Nat × Nat) :=
  mCheck (s.atSlot (mSlot s)) s.cur.core opc f.fn (mTr f) (mTile (s.atSlot (mSlot s)) (mUses opc).1 f.td)
    (mTile (s.atSlot (mSlot s)) (mUses opc).2.1 f.ta) (mTile (s.atSlot (mSlot s)) (mUses opc).2.2 f.tb)
    (matesClash s.cur || storeClash s.cur (mSlot s)) det
/-- The operation draws, and has no claim under DET (R269). -/
def mUnclaimed (s : State) (f : FM) : Bool := mRm f == 5 && (s.coreJob s.cur.core).det && !s.curCore.rngClaim

/-- DET_VIOLATION is the last check of R267. -/
theorem mCheck_det {s : State} {c opc fn : Nat} {tr : Bool} {td ta tb : Tile} {clash : Bool}
    (h : mCheck s c opc fn tr td ta tb clash false = none) : mCheck s c opc fn tr td ta tb clash true = some (cDetViolation, 0) := by
  simp only [mCheck] at h ⊢
  repeat' split at h
  all_goals simp_all

/-- The first two checks of R267: formats, then shapes, bounds and overlaps. -/
theorem mCheck_format {s : State} {c opc fn : Nat} {tr : Bool} {td ta tb : Tile} {clash det : Bool} (h : mFormatOk opc fn tr td ta tb = false) :
    mCheck s c opc fn tr td ta tb clash det = some (cFormat, 0) := by
  simp [mCheck, h]
theorem mCheck_shape {s : State} {c opc fn : Nat} {tr : Bool} {td ta tb : Tile} {clash det : Bool} (h : mFormatOk opc fn tr td ta tb = true)
    (hs : (mShapeOk opc tr td ta tb && !(mLocals opc td ta tb).any Tile.outside && mOverlapOk opc td ta tb && !clash) = false) :
    mCheck s c opc fn tr td ta tb clash det = some (cTileShape, 0) := by
  have hs' : (!mShapeOk opc tr td ta tb || (mLocals opc td ta tb).any Tile.outside || !mOverlapOk opc td ta tb || clash) = true := by
    rw [← Bool.not_eq_false', ← hs]; simp
  rw [mCheck, if_neg (by simp [h])]
  exact if_pos hs'

section
variable {opc : Nat} {f : FM} {s : State} {sr : State → Option Nat} {more : State → MOp → State}

theorem mIssue_raises {v : Nat × Nat} (hi : Issues (mSlot s) f.g s) (h : mFault s opc f (mUnclaimed s f) = some v) :
    mIssue opc f s sr more = .next (raise (s.atSlot (mSlot s)) v.1 v.2) := by
  simp only [mFault, mUnclaimed] at h
  rw [mIssue, slotOp_issues hi]
  simp only [mSlot_atSlot, atSlot_cur_core, atSlot_coreJob, atSlot_curCore, mPops]
  simp only [show matesClash (s.atSlot (mSlot s)).cur = matesClash s.cur from rfl,
    show storeClash (s.atSlot (mSlot s)).cur = storeClash s.cur from rfl, h]

theorem mIssue_passes (hi : Issues (mSlot s) f.g s) (h : mFault s opc f (mUnclaimed s f) = none) :
    mIssue opc f s sr more = .next
      (if mRm f = 5 then popRandom (s.atSlot (mSlot s)) fun v w =>
          more v (mBuild (s.atSlot (mSlot s)) opc f (sr (s.atSlot (mSlot s))) w)
        else more (s.atSlot (mSlot s)) (mBuild (s.atSlot (mSlot s)) opc f (sr (s.atSlot (mSlot s))) 0)) := by
  simp only [mFault, mUnclaimed] at h
  rw [mIssue, slotOp_issues hi]
  simp only [mSlot_atSlot, atSlot_cur_core, atSlot_coreJob, atSlot_curCore, mPops]
  simp only [show matesClash (s.atSlot (mSlot s)).cur = matesClash s.cur from rfl,
    show storeClash (s.atSlot (mSlot s)).cur = storeClash s.cur from rfl, h, beq_iff_eq]

/-- An M operation that needs nothing more joins the tile operations (R290). -/
theorem mPlain_eq (opc : Nat) (f : FM) (s : State) :
    mPlain opc f s = mIssue opc f s (fun _ => none) fun t m => addEff t (.tile m) := rfl

/-- Where an M operation traps: its checks, and the word it cannot draw (R267, R269). -/
theorem mIssue_traps {v : Nat × Nat} {o : Out} (opc : Nat) (hi : Issues (mSlot s) f.g s) (ho : o = mIssue opc f s sr more) :
    (mFault s opc f (mUnclaimed s f) = some v → o = .next (raise (s.atSlot (mSlot s)) v.1 v.2)) ∧
    (mFault s opc f false = none → mRm f = 5 → ((s.coreJob s.cur.core).det = true ∧ s.curCore.rngClaim = false) →
      o = .next (raise (s.atSlot (mSlot s)) cDetViolation 0)) ∧
    (mFault s opc f false = none → mRm f = 5 → ((s.coreJob s.cur.core).det = false ∨ s.curCore.rngClaim = true) →
      s.curCore.rngEnd ≤ s.curCore.live.rngNext → o = .next (raise (s.atSlot (mSlot s)) cBound 0)) := by
  subst ho
  refine ⟨mIssue_raises hi, fun h hrm hdet => ?unclaimed, fun h hrm hclaim hend => ?exhausted⟩
  case unclaimed =>
    have hu : mUnclaimed s f = true := by simp [mUnclaimed, hrm, hdet]
    exact mIssue_raises hi (v := (cDetViolation, 0)) (by rw [hu]; exact mCheck_det h)
  case exhausted =>
    have hu : mUnclaimed s f = false := by rcases hclaim with h | h <;> simp [mUnclaimed, h]
    rw [mIssue_passes hi (by rw [hu]; exact h), if_pos hrm, popRandom_noDraw (s := s.atSlot (mSlot s)) (.inr ⟨hclaim, hend, rfl⟩)]

/-- An M operation that passes its checks and draws what its rounding wants. -/
theorem mIssue_draws {t : State} {u : Nat → Nat} (hi : Issues (mSlot s) f.g s) (hd : Draws s (mRm f) t u) (h : mFault s opc f false = none) :
    ∃ w, mIssue opc f s sr more = .next (more (t.atSlot (mSlot s)) (mBuild (s.atSlot (mSlot s)) opc f (sr (s.atSlot (mSlot s))) w)) := by
  rcases hd with ⟨hrm, rfl, -⟩ | ⟨hrm, hclaim, hr, rfl, -⟩
  · have hu : mUnclaimed t f = false := by simp [mUnclaimed, hrm]
    exact ⟨0, by rw [mIssue_passes hi (by rw [hu]; exact h), if_neg hrm]⟩
  · have hu : mUnclaimed s f = false := by rcases hclaim with h | h <;> simp [mUnclaimed, h]
    exact ⟨_, by rw [mIssue_passes hi (by rw [hu]; exact h), if_pos hrm, popRandom_pops (s := s.atSlot (mSlot s)) hclaim hr]; rfl⟩
end

/-- A draw changes neither tile registers nor what the checks read. -/
theorem draws_treg {s t : State} {rm : Nat} {u : Nat → Nat} (h : Draws s rm t u) (n : Nat) : t.curCore.live.treg n = s.curCore.live.treg n := by
  rcases h with ⟨-, rfl, -⟩ | ⟨-, -, -, rfl, -⟩
  · rfl
  · simp only [onArch_curCore]; rfl
theorem draws_core {s t : State} {rm : Nat} {u : Nat → Nat} (h : Draws s rm t u) :
    t.cur.core = s.cur.core ∧ t.corePart s.cur.core = s.corePart s.cur.core := by
  rcases h with ⟨-, rfl, -⟩ | ⟨-, -, -, rfl, -⟩
  · exact ⟨rfl, rfl⟩
  · exact ⟨rfl, congrArg (fun j : Job => s.part j.pid) (onCore_coreJob s _ _ _ rfl)⟩

theorem mvsHandle_some {f : FM} {t : State} {codes : List Nat} (h0 : mHr f ≠ 0) (h63 : mHr f ≠ 63) :
    mvsHandle (reads (t.atSlot 4) codes) f = some (t.srcS 4 (mHr f)).toNat := by
  simp only [mvsHandle, beq_iff_eq, Bool.or_eq_true, h0, h63, or_self, if_false, reads_sval, atSlot_sval]

/-- MVS after the checks of R267: the address of B, its pieces, their form, and the completion handle (R276, R278). -/
theorem execMvs_traps {f : FM} {s t : State} {u : Nat → Nat} (h5 : s.cur.slot ≠ 5) (hi : Issues 4 f.g s) (hd : Draws s (mRm f) t u)
    (hm : mFault s 9 f false = none) :
    let seen := reads (t.atSlot 4) [mSr f, mHr f]
    let va := (s.srcS 4 (mSr f)).toNat
    let n := mvsExtent (tileOf (s.curCore.live.treg f.tb) 0)
    (va % 2048 ≠ 0 → execMvs f s = .next (raise seen cAlign va)) ∧
    (va % 2048 = 0 → ∀ e, mvsPieces seen va n = .error e → execMvs f s = .next (accessFail seen e)) ∧
    (∀ ps es, va % 2048 = 0 → mvsPieces seen va n = .ok (ps, es) →
      ((∃ p ∈ ps, seen.anyForm p.loc p.len = true) → execMvs f s = .next (raise seen cForm va)) ∧
      (∀ code, (∀ p ∈ ps, seen.anyForm p.loc p.len = false) → mHr f ≠ 0 → mHr f ≠ 63 →
        addCheck (s.corePart s.cur.core) (s.corePart s.cur.core).hasMill (s.srcS 4 (mHr f)).toNat 1 = some code →
        execMvs f s = .next (raise seen code (s.srcS 4 (mHr f)).toNat))) := by
  dsimp only
  have hslot : mSlot s = 4 := by rw [mSlot_eq, if_neg h5]
  obtain ⟨w, hw⟩ := mIssue_draws (opc := 9) (sr := fun _ => none) (by rw [hslot]; exact hi) hd hm
  obtain ⟨hcore, hpart⟩ := draws_core hd
  rw [execMvs, hw]
  simp only [hslot, reads_sval, atSlot_sval, draws_srcS hd, reads_treg, atSlot_curCore, draws_treg hd, MOp.bT, reads_corePart, atSlot_corePart,
    reads_cur, atSlot_cur_core, hcore, hpart]
  refine ⟨fun ha => ?align, fun ha e he => ?pieces, fun ps es ha hp => ⟨fun hf => ?form, fun code hf h0 h63 hc => ?handle⟩⟩
  case align => rw [if_pos (by simpa using ha)]
  case pieces =>
    rw [if_neg (by simpa using ha)]
    simp only [he]
  case form =>
    rw [if_neg (by simpa using ha)]
    simp only [hp]
    rw [if_pos (by simpa using hf)]
  case handle =>
    rw [if_neg (by simpa using ha)]
    simp only [hp]
    rw [if_neg (by simpa using hf)]
    simp only [mvsHandle_some h0 h63, draws_srcS hd, hc, Option.map_some]

/-! ### Faults of the C commands (R262 to R264, R279 to R289) -/

/-- A completion handle that fails its check (R118, R120, R123). -/
theorem withHandle_fails {s t : State} {h inc code : Nat} (hk : s.KeepsIssue t)
    (hc : addCheck (s.corePart s.cur.core) (s.corePart s.cur.core).hasMill h inc = some code) (k : State → State) :
    withHandle t h inc k = raise t code h := by
  simp only [withHandle, hk.core, hk.corePart, hc]
theorem withHandle_passes {s t : State} {h inc : Nat} (hk : s.KeepsIssue t)
    (hc : addCheck (s.corePart s.cur.core) (s.corePart s.cur.core).hasMill h inc = none) (k : State → State) : withHandle t h inc k = k t := by
  simp only [withHandle, hk.core, hk.corePart, hc]
theorem withD_none (s : State) {code : Nat} (inc : Nat) (h : code = 63) (k : State → Option Nat → State) : withD s code inc k = k s none := by
  rw [withD, if_pos (by simpa using h)]
theorem withD_fails {s : State} {codes : List Nat} {d inc code : Nat} (h63 : d ≠ 63)
    (hc : addCheck (s.corePart s.cur.core) (s.corePart s.cur.core).hasMill (s.srcS 6 d).toNat inc = some code) (k : State → Option Nat → State) :
    withD (reads (s.atSlot 6) codes) d inc k = raise (reads (reads (s.atSlot 6) codes) [d]) code (s.srcS 6 d).toNat := by
  rw [withD, if_neg (by simpa using h63)]
  simp only [reads_sval, atSlot_sval, withHandle, reads_cur, atSlot_cur_core, reads_corePart, atSlot_corePart, hc]
/-- A sticky step of an address (R282). -/
theorem stepVa_keeps {s t : State} (hk : s.KeepsIssue t) (va : Nat) : stepVa t va = stepVa s va := by
  rw [stepVa, stepVa, hk.off]

section
variable {f : F3} {s : State} {e : Flt}

theorem withDesc_reads_fails {codes : List Nat} {va n align : Nat}
    (h : coreAccess (reads (s.atSlot 6) codes) s.cur.core va n align .read false = .error e) (k : State → List Byte → State) :
    withDesc (reads (s.atSlot 6) codes) va n align k = accessFail (reads (s.atSlot 6) codes) e :=
  withDesc_fails (by rw [reads_cur]; exact h) k
theorem withDesc_reads_reaches {codes : List Nat} {va n align : Nat} {ps : List Piece} {es : List TlbEnt}
    (h : Reaches (reads (s.atSlot 6) codes) va n align .read false ps es) (k : State → List Byte → State) :
    withDesc (reads (s.atSlot 6) codes) va n align k =
      k (loadedDesc (reads (s.atSlot 6) codes) s.cur.core ps es).1 (loadedDesc (reads (s.atSlot 6) codes) s.cur.core ps es).2 := by
  rw [withDesc_reaches h, reads_cur]; rfl

/-- CPY in register form whose handle fails (R283). -/
theorem execCpy_handle {code : Nat} (hi : Issues 6 f.g s) (h63 : f.d ≠ 63)
    (hc : addCheck (s.corePart s.cur.core) (s.corePart s.cur.core).hasMill (s.srcS 6 f.d).toNat (cImm f) = some code) :
    execCpy f s = .next (raise (reads (reads (s.atSlot 6) [f.a, f.b]) [f.d]) code (s.srcS 6 f.d).toNat) := by
  rw [execCpy, slotOp_issues hi]
  exact congrArg _ (withD_fails h63 hc _)

/-- DISARM: its handle, then its slot (R287). -/
theorem execDisarm_handle {code : Nat} (hi : Issues 6 f.g s) (h63 : f.d ≠ 63)
    (hc : addCheck (s.corePart s.cur.core) (s.corePart s.cur.core).hasMill (s.srcS 6 f.d).toNat (cImm f) = some code) :
    execDisarm f s = .next (raise (reads (reads (s.atSlot 6) [f.b]) [f.d]) code (s.srcS 6 f.d).toNat) := by
  rw [execDisarm, slotOp_issues hi]
  exact congrArg _ (withD_fails h63 hc _)
theorem execDisarm_notOwned (hi : Issues 6 f.g s) (h63 : f.d = 63)
    (ho : slotOwned (reads (s.atSlot 6) [f.b]) (coreDie s.cur.core) (s.srcS 6 f.b).toNat (s.curCore.job.getD 0) = false) :
    execDisarm f s = .next (raise (reads (s.atSlot 6) [f.b]) cAccess (s.srcS 6 f.b).toNat) := by
  rw [execDisarm, slotOp_issues hi]
  simp only [withD_none _ _ h63, reads_sval, atSlot_sval, reads_cur, atSlot_cur_core, reads_context, atSlot_curCore, ho]
  rfl

/-! CPY.D (R283) -/

theorem execCpyD_fails (hi : Issues 6 f.g s)
    (h : coreAccess (reads (s.atSlot 6) [f.a]) s.cur.core (s.srcS 6 f.a).toNat 64 64 .read false = .error e) :
    execCpyD f s = .next (accessFail (reads (s.atSlot 6) [f.a]) e) := by
  rw [execCpyD, slotOp_issues hi]
  simp only [reads_sval, atSlot_sval]
  rw [withDesc_reads_fails h]

/-- The fields of a CPY.D descriptor are within their limits (R283). -/
def CpyDescOk (d : List Byte) : Prop :=
  1 ≤ fieldLE d 16 4 ∧ fieldLE d 16 4 ≤ 2 ^ 24 ∧ 1 ≤ fieldLE d 20 4 ∧ fieldLE d 20 4 ≤ 65536 ∧ fieldLE d 48 1 < 2 ∧ allZero (d.drop 49) = true
theorem cpyDescOk_iff (d : List Byte) :
    (fieldLE d 16 4 == 0 || decide (2 ^ 24 < fieldLE d 16 4) || fieldLE d 20 4 == 0 || decide (65536 < fieldLE d 20 4) ||
      decide (2 ≤ fieldLE d 48 1) || !allZero (d.drop 49)) = true ↔ ¬ CpyDescOk d := by
  rw [CpyDescOk]
  cases allZero (d.drop 49)
  · simp
  · simp only [Bool.or_eq_true, beq_iff_eq, decide_eq_true_eq, Bool.not_true, Bool.false_eq_true, or_false, and_true]
    omega

theorem execCpyD_reaches {ps : List Piece} {es : List TlbEnt} (hi : Issues 6 f.g s)
    (hr : Reaches (reads (s.atSlot 6) [f.a]) (s.srcS 6 f.a).toNat 64 64 .read false ps es) :
    let r := loadedDesc (reads (s.atSlot 6) [f.a]) s.cur.core ps es
    (¬ CpyDescOk r.2 → execCpyD f s = .next (raise r.1 cBound (s.srcS 6 f.a).toNat)) ∧
    (∀ code, CpyDescOk r.2 → fieldLE r.2 48 1 = 1 →
      addCheck (s.corePart s.cur.core) (s.corePart s.cur.core).hasMill (fieldLE r.2 32 8) (fieldLE r.2 40 8) = some code →
      execCpyD f s = .next (raise r.1 code (fieldLE r.2 32 8))) := by
  intro r
  rw [execCpyD, slotOp_issues hi]
  simp only [reads_sval, atSlot_sval]
  rw [withDesc_reads_reaches hr]
  refine ⟨fun hbad => congrArg _ (if_pos ((cpyDescOk_iff _).mpr hbad)), fun code hok hadd hc => ?_⟩
  rw [if_neg ((cpyDescOk_iff _).not.mpr (not_not.mpr hok)), if_pos (by rw [show fieldLE _ 48 1 = 1 from hadd]; rfl),
    withHandle_fails (loadedDesc_reads_keepsIssue s _ ps es) hc]

/-! SEND (R285, R316) -/

theorem execSend_fails (hi : Issues 6 f.g s)
    (h : coreAccess (reads (s.atSlot 6) [f.a]) s.cur.core (s.srcS 6 f.a).toNat 192 64 .read false = .error e) :
    execSend f s = .next (accessFail (reads (s.atSlot 6) [f.a]) e) := by
  rw [execSend, slotOp_issues hi]
  simp only [reads_sval, atSlot_sval]
  rw [withDesc_reads_fails h]

/-- The late check of R166. -/
theorem withExcess_raises {t : State} {sto : Bool} (hs : sto = true) (hp : 0 < t.cur.pops) (k : State → State) :
    withExcess t sto k =
      let w := raise { t with cur := { t.cur with slot := 9 } } cIllegalBundle 0
      { w with cur := { w.cur with illegal := true } } := by
  rw [withExcess, if_pos (by simp [hs, hp])]
theorem withExcess_passes {t : State} {sto : Bool} (h : sto = false ∨ t.cur.pops = 0) (k : State → State) : withExcess t sto k = k t := by
  rw [withExcess, if_neg (by rcases h with h | h <;> simp [h])]

theorem execSend_reaches {ps : List Piece} {es : List TlbEnt} (hi : Issues 6 f.g s)
    (hr : Reaches (reads (s.atSlot 6) [f.a]) (s.srcS 6 f.a).toNat 192 64 .read false ps es) :
    let r := loadedDesc (reads (s.atSlot 6) [f.a]) s.cur.core ps es
    (sendSto r.2 = true → 0 < s.cur.pops →
      let w := raise { r.1 with cur := { r.1.cur with slot := 9 } } cIllegalBundle 0
      execSend f s = .next { w with cur := { w.cur with illegal := true } }) ∧
    (sendSto r.2 = false ∨ s.cur.pops = 0 → sendOk r.2 = false → execSend f s = .next (raise r.1 cBound (s.srcS 6 f.a).toNat)) := by
  intro r
  have hpops : r.1.cur.pops = s.cur.pops := (loadedDesc_reads_keepsIssue s _ ps es).pops
  rw [execSend, slotOp_issues hi]
  simp only [reads_sval, atSlot_sval]
  rw [withDesc_reads_reaches hr]
  refine ⟨fun hs hp => congrArg _ (withExcess_raises hs (hpops ▸ hp) _), fun hs hok => ?_⟩
  rw [withExcess_passes (by rw [hpops]; exact hs)]
  exact congrArg _ (if_pos (by rw [hok]; rfl))

/-! ARM (R286) -/

theorem execArm_fails (hi : Issues 6 f.g s)
    (h : coreAccess (reads (s.atSlot 6) [f.a, f.b]) s.cur.core (s.srcS 6 f.a).toNat 64 64 .read false = .error e) :
    execArm f s = .next (accessFail (reads (s.atSlot 6) [f.a, f.b]) e) := by
  rw [execArm, slotOp_issues hi]
  simp only [reads_sval, atSlot_sval]
  rw [withDesc_reads_fails h]

/-- An ARM descriptor with its addresses stepped (R282). -/
def armStepped (s : State) (d : List Byte) : List Byte :=
  setLE (setLE (setLE d 0 8 (stepVa s (armBase d))) 32 8 (stepVa s (armBitmap d))) 40 8 (stepVa s (armRing d))

theorem execArm_reaches {ps : List Piece} {es : List TlbEnt} (hi : Issues 6 f.g s)
    (hr : Reaches (reads (s.atSlot 6) [f.a, f.b]) (s.srcS 6 f.a).toNat 64 64 .read false ps es) :
    let r := loadedDesc (reads (s.atSlot 6) [f.a, f.b]) s.cur.core ps es
    let a := (s.srcS 6 f.a).toNat
    let b := (s.srcS 6 f.b).toNat
    let p := s.corePart s.cur.core
    let d := armStepped s r.2
    (bits b 31 10 ≠ 0 → execArm f s = .next (raise r.1 cBound b)) ∧
    (bits b 31 10 = 0 → armOk r.2 = false → execArm f s = .next (raise r.1 cBound a)) ∧
    (∀ code, bits b 31 10 = 0 → armOk r.2 = true → addCheck p p.hasMill (armRingctr d) 1 = some code →
      execArm f s = .next (raise r.1 code (armRingctr d))) ∧
    (bits b 31 10 = 0 → armOk r.2 = true → addCheck p p.hasMill (armRingctr d) 1 = none →
      addCheck p p.hasMill (armDonectr d) 1 = none → f.d = 63 → slotTaken r.1 (coreDie s.cur.core) (b % 1024) = true →
      execArm f s = .next (raise r.1 cAccess b)) := by
  intro r a b p d
  have hk := loadedDesc_reads_keepsIssue s [f.a, f.b] ps es
  rw [execArm, slotOp_issues hi]
  simp only [reads_sval, atSlot_sval, reads_cur, atSlot_cur_core]
  rw [withDesc_reads_reaches hr]
  simp only [stepVa_keeps hk]
  refine ⟨fun hb => ?slotNumber, fun hb hok => ?descriptor, fun code hb hok hc => ?ring, fun hb hok hc hc' h63 ht => ?taken⟩
  case slotNumber => exact congrArg _ (if_pos (by simpa using hb))
  case descriptor => exact congrArg _ ((if_neg (by simpa using hb)).trans (if_pos (by rw [hok]; rfl)))
  case ring =>
    rw [if_neg (by simpa using hb), if_neg (by rw [hok]; decide)]
    exact congrArg _ (withHandle_fails hk hc _)
  case taken =>
    rw [if_neg (by simpa using hb), if_neg (by rw [hok]; decide)]
    refine congrArg _ ((withHandle_passes hk hc _).trans ((withHandle_passes hk hc' _).trans ((withD_none _ _ h63 _).trans (if_pos ht))))

/-! CLOAD (R288) -/

theorem execCload_slotNumber (hi : Issues 6 f.g s) (hb : 64 ≤ (s.srcS 6 f.b).toNat) :
    execCload f s = .next (raise (reads (s.atSlot 6) [f.a, f.b]) cBound (s.srcS 6 f.b).toNat) := by
  rw [execCload, slotOp_issues hi]
  simp only [reads_sval, atSlot_sval]
  rw [if_pos (by simpa using hb)]

theorem execCload_fails (hi : Issues 6 f.g s) (hb : (s.srcS 6 f.b).toNat < 64)
    (h : coreAccess (reads (s.atSlot 6) [f.a, f.b]) s.cur.core (stepVa s (s.srcS 6 f.a).toNat) 64 64 .read false = .error e) :
    execCload f s = .next (accessFail (reads (s.atSlot 6) [f.a, f.b]) e) := by
  rw [execCload, slotOp_issues hi]
  simp only [reads_sval, atSlot_sval, stepVa_keeps (reads_keepsIssue s 6 _)]
  rw [if_neg (by simpa using hb)]
  exact congrArg _ (withDesc_reads_fails h _)

theorem execCload_reaches {ps : List Piece} {es : List TlbEnt} (hi : Issues 6 f.g s) (hb : (s.srcS 6 f.b).toNat < 64)
    (hr : Reaches (reads (s.atSlot 6) [f.a, f.b]) (stepVa s (s.srcS 6 f.a).toNat) 64 64 .read false ps es) :
    let r := loadedDesc (reads (s.atSlot 6) [f.a, f.b]) s.cur.core ps es
    let b := (s.srcS 6 f.b).toNat
    (graphHeadOk r.2 = false → execCload f s = .next (raise r.1 cBound (stepVa s (s.srcS 6 f.a).toNat))) ∧
    (graphHeadOk r.2 = true → f.d = 63 → graphTaken r.1 (coreDie s.cur.core) b (s.curCore.job.getD 0) = true →
      execCload f s = .next (raise r.1 cAccess b)) := by
  intro r b
  have hk := loadedDesc_reads_keepsIssue s [f.a, f.b] ps es
  rw [execCload, slotOp_issues hi]
  simp only [reads_sval, atSlot_sval, stepVa_keeps (reads_keepsIssue s 6 _), reads_cur, atSlot_cur_core]
  rw [if_neg (by simpa using hb), show withDesc _ _ _ _ _ = _ from withDesc_reads_reaches hr _]
  refine ⟨fun hok => congrArg _ (if_pos (by rw [hok]; rfl)), fun hok h63 ht => ?_⟩
  refine congrArg _ ((if_neg (by rw [hok]; decide)).trans ((withD_none _ _ h63 _).trans (if_pos ?_)))
  rw [hk.context]
  exact ht
end

section
variable {f : F3} {s : State} {e : Flt}

/-! COLL (R289) -/

theorem execColl_slotNumber (hi : Issues 6 f.g s) (hb : bits (s.srcS 6 f.b).toNat 31 6 ≠ 0) :
    execColl f s = .next (raise (reads (s.atSlot 6) [f.a, f.b]) cBound (s.srcS 6 f.b).toNat) := by
  rw [execColl, slotOp_issues hi]
  simp only [reads_sval, atSlot_sval]
  rw [if_pos (by simpa using hb)]

theorem execColl_fails (hi : Issues 6 f.g s) (hb : bits (s.srcS 6 f.b).toNat 31 6 = 0)
    (h : coreAccess (reads (s.atSlot 6) [f.a, f.b]) s.cur.core (s.srcS 6 f.a).toNat 256 64 .read false = .error e) :
    execColl f s = .next (accessFail (reads (s.atSlot 6) [f.a, f.b]) e) := by
  rw [execColl, slotOp_issues hi]
  simp only [reads_sval, atSlot_sval]
  rw [if_neg (by simpa using hb)]
  exact congrArg _ (withDesc_reads_fails h _)

/-- No region of a base table passes the top of the address space (R289). -/
def CollRegionsOk (d : List Byte) : Prop := ∀ k, k < 8 → (collRegion d k).2 = 0 ∨ (collRegion d k).1 + (collRegion d k).2 ≤ 2 ^ 64
theorem collRegionsOk_iff (d : List Byte) :
    (List.range 8).any (fun k => (collRegion d k).2 != 0 && decide (2 ^ 64 < (collRegion d k).1 + (collRegion d k).2)) = true ↔
      ¬ CollRegionsOk d := by
  simp only [CollRegionsOk, List.any_eq_true, List.mem_range, Bool.and_eq_true, bne_iff_ne, decide_eq_true_eq, not_forall, not_or, Nat.not_le,
    exists_prop]

theorem execColl_reaches {ps : List Piece} {es : List TlbEnt} (hi : Issues 6 f.g s) (hb : bits (s.srcS 6 f.b).toNat 31 6 = 0)
    (hr : Reaches (reads (s.atSlot 6) [f.a, f.b]) (s.srcS 6 f.a).toNat 256 64 .read false ps es) :
    let r := loadedDesc (reads (s.atSlot 6) [f.a, f.b]) s.cur.core ps es
    let a := (s.srcS 6 f.a).toNat
    let b := (s.srcS 6 f.b).toNat
    let job := s.curCore.job.getD 0
    slotSto r.1 (coreDie s.cur.core) (b % 64) job = false ∨ s.cur.pops = 0 →
    (¬ CollRegionsOk (collStep r.1 r.2) → execColl f s = .next (raise r.1 cBound a)) ∧
    (CollRegionsOk (collStep r.1 r.2) → f.d = 63 →
      (r.1.graphSlot (coreDie s.cur.core) (b % 64) = none → execColl f s = .next (raise r.1 cAccess b)) ∧
      (∀ g, r.1.graphSlot (coreDie s.cur.core) (b % 64) = some g →
        g.job ≠ job ∨ b / 2 ^ 32 = 0 ∨ b / 2 ^ 32 = lastInstance r.1 (coreDie s.cur.core) (b % 64) job g →
        execColl f s = .next (raise r.1 cAccess b))) := by
  dsimp only
  intro hsto
  rw [execColl, slotOp_issues hi]
  simp only [reads_sval, atSlot_sval, reads_cur, atSlot_cur_core, reads_context, atSlot_curCore]
  rw [if_neg (by simpa using hb), withDesc_reads_reaches hr,
    withExcess_passes (by rw [(loadedDesc_reads_keepsIssue s _ ps es).pops]; exact hsto)]
  refine ⟨fun hbad => ?regions, fun hok h63 => ?slots⟩
  case regions => rw [if_pos ((collRegionsOk_iff _).mpr hbad)]
  case slots =>
    rw [if_neg ((collRegionsOk_iff _).not.mpr (not_not.mpr hok)), withD_none _ _ h63]
    refine ⟨fun hnone => ?_, fun g hg hbad => ?_⟩
    · simp only [hnone]
    · simp only [hg]
      rw [if_pos (by simpa [or_assoc] using hbad)]

/-! Counter adds (R262) -/

theorem execCadd_raises {code : Nat} (hi : Issues 6 f.g s)
    (h : addCheck (s.corePart s.cur.core) (s.jobMill s.cur.core) (s.srcS 6 f.a).toNat ((s.srcS 6 f.b).toNat + cImm f) = some code) :
    execCadd f s = .next (raise (reads (s.atSlot 6) [f.a, f.b]) code (s.srcS 6 f.a).toNat) ∧
    execCaddf f s = .next (raise (reads (s.atSlot 6) [f.a, f.b]) code (s.srcS 6 f.a).toNat) := by
  rw [execCadd, execCaddf, slotOp_issues hi, slotOp_issues hi]
  simp only [reads_sval, atSlot_sval, reads_cur, atSlot_cur_core, reads_corePart, atSlot_corePart, reads_jobMill, atSlot_jobMill, h, and_self]
theorem execCaddf_remote (hi : Issues 6 f.g s)
    (h : addCheck (s.corePart s.cur.core) (s.jobMill s.cur.core) (s.srcS 6 f.a).toNat ((s.srcS 6 f.b).toNat + cImm f) = none)
    (hr : isRemote (s.srcS 6 f.a).toNat = true) :
    execCaddf f s = .next (raise (reads (s.atSlot 6) [f.a, f.b]) cCounterHandle (s.srcS 6 f.a).toNat) := by
  rw [execCaddf, slotOp_issues hi]
  simp only [reads_sval, atSlot_sval, reads_cur, atSlot_cur_core, reads_corePart, atSlot_corePart, reads_jobMill, atSlot_jobMill, h, hr, if_true]
theorem execCaddm_raises {v : Nat × Nat} (hi : Issues 6 f.g s)
    (h : caddmHandles (s.corePart s.cur.core) (s.jobMill s.cur.core) (s.srcS 6 f.a).toNat (s.srcS 6 f.b).toNat
      ((List.range 16).filter fun j => (cImm f).testBit j) = .error v) :
    execCaddm f s = .next (raise (reads (s.atSlot 6) [f.a, f.b]) v.1 v.2) := by
  rw [execCaddm, slotOp_issues hi]
  simp only [reads_sval, atSlot_sval, reads_cur, atSlot_cur_core, reads_corePart, atSlot_corePart, reads_jobMill, atSlot_jobMill, h]

/-! MCST (R263) -/

theorem execMcst_notLocal (hi : Issues 6 f.g s) (hl : isLocal (stepVa s (s.srcS 6 f.b).toNat) = false) :
    execMcst f s = .next (raise (reads (s.atSlot 6) [f.a, f.b]) cAccess (stepVa s (s.srcS 6 f.b).toNat)) := by
  rw [execMcst, slotOp_issues hi]
  simp only [reads_sval, atSlot_sval, stepVa_keeps (reads_keepsIssue s 6 _)]
  rw [if_pos (by rw [hl]; rfl)]

theorem execMcst_fails (hi : Issues 6 f.g s) (hl : isLocal (stepVa s (s.srcS 6 f.b).toNat) = true)
    (h : coreAccess (reads (s.atSlot 6) [f.a, f.b]) s.cur.core (stepVa s (s.srcS 6 f.b).toNat) 64 64 .read false = .error e) :
    execMcst f s = .next (accessFail (reads (s.atSlot 6) [f.a, f.b]) e) := by
  rw [execMcst, slotOp_issues hi]
  simp only [reads_sval, atSlot_sval, stepVa_keeps (reads_keepsIssue s 6 _)]
  rw [if_neg (by rw [hl]; decide)]
  exact congrArg _ (withDesc_reads_fails h _)

theorem execMcst_reaches {ps : List Piece} {es : List TlbEnt} (hi : Issues 6 f.g s) (hl : isLocal (stepVa s (s.srcS 6 f.b).toNat) = true)
    (hr : Reaches (reads (s.atSlot 6) [f.a, f.b]) (stepVa s (s.srcS 6 f.b).toNat) 64 64 .read false ps es) :
    let r := loadedDesc (reads (s.atSlot 6) [f.a, f.b]) s.cur.core ps es
    let c := s.cur.core
    let a := stepVa s (s.srcS 6 f.a).toNat
    let b := stepVa s (s.srcS 6 f.b).toNat
    (replicaList r.2 = [] → execMcst f s = .next (raise r.1 cBound b)) ∧
    (∀ e, replicaList r.2 ≠ [] → coreAccess r.1 c a 128 128 .read false = .error e → execMcst f s = .next (accessFail r.1 e)) ∧
    ∀ qs gs e, replicaList r.2 ≠ [] → Reaches r.1 a 128 128 .read false qs gs →
      replicaFault (keepPages r.1 c gs) c [] (replicaList r.2) = some e → execMcst f s = .next (accessFail (keepPages r.1 c gs) e) := by
  dsimp only
  have hcore := (loadedDesc_reads_keepsIssue s [f.a, f.b] ps es).core
  rw [execMcst, slotOp_issues hi]
  simp only [reads_sval, atSlot_sval, stepVa_keeps (reads_keepsIssue s 6 _)]
  rw [if_neg (by rw [hl]; decide), withDesc_reads_reaches hr]
  refine ⟨fun hz => ?none, fun e hz h => ?source, fun qs gs e hz h hf => ?replica⟩
  case none => rw [if_pos (by rw [hz]; rfl)]
  case source => rw [if_neg (by simpa using hz), withAccess_fails (by rw [hcore]; exact h)]
  case replica =>
    rw [if_neg (by simpa using hz), withAccess_reaches h]
    simp only [keepPages_cur, hcore, hf]
end

/-! ### Faults of WATCH (R260) -/

section
variable {f : FY} {s : State}

theorem execWatch_raises {v : Nat × Nat} (hi : Issues 7 f.g s)
    (h : watchCheck (reads (s.atSlot 7) [f.a, f.b]) s.cur.core f.kind (s.srcS 7 f.a).toNat
      (if f.kind = 0 then 0 else (s.srcS 7 (extField f.ext 5 0 0)).toNat)
      (if f.kind = 1 ∨ f.kind = 3 then (s.srcS 7 (extField f.ext 11 6 0)).toNat else 0) = some v) :
    execWatch f s = .next (raise (reads (s.atSlot 7) [f.a, f.b]) v.1 v.2) := by
  rw [execWatch, slotOp_issues hi]
  simp only [reads_sval, atSlot_sval, reads_cur, atSlot_cur_core, beq_iff_eq, Bool.or_eq_true, extCode, h]

variable {c kind h x y : Nat}

/-- Step 1 of R260: the handle. -/
theorem watchCheck_handle (hh : watchHandleOk c kind h = false) : watchCheck s c kind h x y = some (cCounterHandle, h) := by
  rw [watchCheck, if_pos (by rw [hh]; rfl)]
theorem watchHandle_invalid (hh : handleOk h = false ∨ hKind h = 4) : watchHandleOk c kind h = false := by
  rcases hh with hh | hh <;> simp [watchHandleOk, hh]
theorem watchHandle_local (h0 : hKind h = 0) (hh : kind ≠ 0 ∨ hPkgMill h ≠ c / 2) : watchHandleOk c kind h = false := by
  rcases hh with hh | hh <;> simp [watchHandleOk, coreMill, h0, hh]
/-- Step 2: the partition's counters. -/
theorem watchCheck_owner (h1 : watchHandleOk c kind h = true) (h2 : handleIn (s.corePart c) (fun _ => true) h = false) :
    watchCheck s c kind h x y = some (cAccess, h) := by
  simp [watchCheck, h1, h2]
/-- Steps 3 to 6: the target of an EVENT, HOSTINT or FORWARD waiter, and the entries left. -/
theorem watchCheck_target (h1 : watchHandleOk c kind h = true) (h2 : handleIn (s.corePart c) (fun _ => true) h = true) :
    (kind = 1 → isLocal x = true ∨ isMillQual x = true → watchCheck s c kind h x y = some (cAccess, x)) ∧
    (kind = 1 → isLocal x = false → isMillQual x = false → x % 32 ≠ 0 → watchCheck s c kind h x y = some (cAlign, x)) ∧
    (kind = 2 → 2047 < x → watchCheck s c kind h x y = some (cBound, x)) ∧
    (kind = 3 → handleOk x = false ∨ hKind x = 4 ∨ isWritePtr x = true ∨ 2 ^ 62 ≤ y → watchCheck s c kind h x y = some (cCounterHandle, x)) ∧
    (kind = 0 → waiterFull s (s.coreJob c).pid h = true → watchCheck s c kind h x y = some (cWaiterExhausted, h)) := by
  refine ⟨?_, ?_, ?_, ?_, ?_⟩ <;> rintro rfl
  · intro hx; simp [watchCheck, h1, h2, hx]
  · intro hl hq ha; simp [watchCheck, h1, h2, hl, hq, ha]
  · intro hx; simp [watchCheck, h1, h2, hx]
  · intro hx
    have hb : (!handleOk x || hKind x == 4 || isWritePtr x || decide (2 ^ 62 ≤ y)) = true := by simpa [or_assoc] using hx
    simp only [watchCheck, h1, h2, hb]
    rfl
  · intro hw; simp [watchCheck, h1, h2, hw]
end

section
variable {f : F3} {s : State} {code : Nat}

/-- Every V operation that rounds raises what it finds instead of a word (R221). -/
theorem vSlot_noDraw (hn : NoDraw s code) (hi : Issues 1 f.g s) (hrm : vRm f = 5) :
    let trap := Host.Outcome.next (raise (reads (s.atSlot 1) [f.a, f.b, vCs f]) code 0)
    execVadd f s = trap ∧ execVsub f s = trap ∧ execVmul f s = trap ∧ execVfma f s = trap ∧ execVdot4 f s = trap ∧
    execVrcp f s = trap ∧ execVrsq f s = trap ∧ execVexp2 f s = trap ∧ execVlog2 f s = trap ∧
    execViota f s = .next (raise (reads (s.atSlot 1) [f.a]) code 0) := by
  have hdot : execVdot4 f s = .next (raise (reads (s.atSlot 1) [f.a, f.b, vCs f]) code 0) := by
    rw [execVdot4, slotOp_issues hi]
    exact congrArg _ (withDraws_noDraw (noDraw_reads hn 1 _) hrm _)
  have hiota : execViota f s = .next (raise (reads (s.atSlot 1) [f.a]) code 0) := by
    rw [execViota, slotOp_issues hi]
    exact congrArg _ (withDraws_noDraw (noDraw_reads hn 1 _) hrm _)
  simp only [execVadd, execVsub, execVmul, execVfma, execVrcp, execVrsq, execVexp2, execVlog2, vFunction, vLanes_noDraw hn hi hrm, hdot, hiota,
    and_self]

/-- So does every X operation that rounds or takes a word (R221, R242). -/
theorem xSlot_noDraw (hn : NoDraw s code) (hi : Issues 3 f.g s) (hrm : xRm f = 5) :
    let trap := Host.Outcome.next (raise (reads (s.atSlot 3) [f.a]) code 0)
    execCvt f s = trap ∧ execQnt f s = trap ∧ execDqnt f s = trap := by
  rw [execCvt, execQnt, execDqnt, slotOp_issues hi, slotOp_issues hi, slotOp_issues hi]
  simp only [withDraws_noDraw (noDraw_reads hn 3 [f.a]) hrm, and_self]
theorem randomWords_noDraw (hn : NoDraw s code) (hi : Issues 3 f.g s) :
    execRndw f s = .next (raise (s.atSlot 3) code 0) ∧ execRndc f s = .next (raise (s.atSlot 3) code 0) := by
  rw [execRndw, execRndc, slotOp_issues hi, slotOp_issues hi]
  simp only [popRandom_noDraw (s := s.atSlot 3) hn, and_self]

/-- CINV and CFLUSH of an address that is not canonical (R253). -/
theorem cacheLine_notCanonical (hi : Issues 2 f.g s) (h0 : f.fn = 0)
    (h : canonical (effAddr s (s.srcS 2 f.a) (s.srcS 2 f.b) (lOff f)) = false) :
    let trap := Host.Outcome.next (raise (reads (s.atSlot 2) [f.a, f.b]) cAccess (effAddr s (s.srcS 2 f.a) (s.srcS 2 f.b) (lOff f)))
    execCinv f s = trap ∧ execCflush f s = trap := by
  rw [execCinv, execCflush, slotOp_issues hi, slotOp_issues hi]
  exact ⟨congrArg _ (withLine_fails h0 h _), congrArg _ (withLine_fails h0 h _)⟩

/-- LDK and STK by the checks of their address (R241). -/
theorem scales_notLocal (hi : Issues 3 f.g s) (hl : isLocal (scaleAddr s f) = false) :
    let trap := Host.Outcome.next (raise (reads (s.atSlot 3) [f.a, f.b]) cAccess (scaleAddr s f))
    execLdk f s = trap ∧ execStk f s = trap := by
  rw [execLdk, execStk, slotOp_issues hi, slotOp_issues hi]
  exact ⟨congrArg _ (withScale_notLocal _ hl _), congrArg _ (withScale_notLocal _ hl _)⟩
theorem scales_misaligned (hi : Issues 3 f.g s) (hl : isLocal (scaleAddr s f) = true) (h8 : scaleAddr s f % 8 ≠ 0) :
    let trap := Host.Outcome.next (raise (reads (s.atSlot 3) [f.a, f.b]) cAlign (scaleAddr s f))
    execLdk f s = trap ∧ execStk f s = trap := by
  rw [execLdk, execStk, slotOp_issues hi, slotOp_issues hi]
  exact ⟨congrArg _ (withScale_misaligned _ hl h8 _), congrArg _ (withScale_misaligned _ hl h8 _)⟩
theorem execLdk_fails {e : Flt} (hi : Issues 3 f.g s) (hl : isLocal (scaleAddr s f) = true) (h8 : scaleAddr s f % 8 = 0)
    (h : coreAccess (reads (s.atSlot 3) [f.a, f.b]) s.cur.core (scaleAddr s f) 8 8 .read false = .error e) :
    execLdk f s = .next (accessFail (reads (s.atSlot 3) [f.a, f.b]) e) := by
  rw [execLdk, slotOp_issues hi]
  exact congrArg _ (withScale_fails hl h8 h _)
theorem execStk_fails {e : Flt} (hi : Issues 3 f.g s) (hl : isLocal (scaleAddr s f) = true) (h8 : scaleAddr s f % 8 = 0)
    (h : coreAccess (reads (s.atSlot 3) [f.a, f.b]) s.cur.core (scaleAddr s f) 8 8 .write false = .error e) :
    execStk f s = .next (accessFail (reads (s.atSlot 3) [f.a, f.b]) e) := by
  rw [execStk, slotOp_issues hi]
  exact congrArg _ (withScale_fails hl h8 h _)
end

/-- Settles O60: each fault by the lemma about the check that raises it, slot by slot. -/
theorem slotTraps : Obligations.SlotTraps := by
  refine ⟨fun f s code hn => ⟨vSlot_noDraw hn, xSlot_noDraw hn, randomWords_noDraw hn⟩, fun s c va n align need noHost => ?access,
    fun f s e hi => ?slotL, fun f s e hi => ?slotX, fun f s slot v hslot hi => ?slotM, fun f s t u h5 hi hd => ?mvs, fun f s hi => ?slotC,
    fun f s hi => ?watch⟩
  case access =>
    refine ⟨coreAccess_notCanonical, fun hc h => ⟨coreAccess_straddlesLocal hc h, fun hl hl' => ⟨coreAccess_local_misaligned hc h hl hl',
      fun ha => ⟨fun hr => ?role, fun hr hp hb => ?bound⟩⟩, fun hl hl' => ⟨coreAccess_millQual hc h hl hl',
      fun hq hq' hp => ⟨coreAccess_user_misaligned hc h hl hl' hq hq' hp, fun ha hv hv' => coreAccess_user hc h hl hl' hq hq' hp ha hv hv'⟩⟩⟩,
      fun hc h => ?mgmt⟩
    case role => exact coreAccess_local_checked hc h hl hl' ha (localCheck_role hr)
    case bound => exact coreAccess_local_checked hc h hl hl' ha (by rw [hp]; exact localCheck_bound hr hb)
    case mgmt =>
      subst hc
      exact ⟨coreAccess_mgmt_outside h, coreAccess_mgmt_misaligned h⟩
  case slotL =>
    intro at_ ea three two m width stride index loads stores
    have hwidth : elemWidth f.fn = width f.fn := elemWidth_eq _
    refine ⟨fun n hn h => execLds_fails hi hn h, fun n hn h => execSts_fails hi hn h, ?ldv, ?stv, ?ldvs, ?stvs, ?ldvx, ?stvx,
      fun h => execPref_fails hi h, fun h0 h => cacheLine_notCanonical hi h0 h, fun h => execAtom_fails hi ?atom, fun h => execAccv_fails hi h,
      fun p es hr => execAccv_reaches hi hr, fun t => ⟨accessFail_faults, fun page => accessFail_freezes⟩⟩
    case ldv => exact fun h => vecLoad_fails hi (by rw [addrGroup_reads]; exact h)
    case stv => exact fun h => vecStore_fails hi (by rw [addrGroup_reads]; exact h)
    case ldvs => exact fun h => vecLoad_fails hi (by rw [addrStride_reads, hwidth]; exact h)
    case stvs => exact fun h => vecStore_fails hi (by rw [addrStride_reads, hwidth]; exact h)
    case ldvx => exact fun h => vecLoad_fails hi (by rw [addrIndex_reads, hwidth]; exact h)
    case stvx => exact fun h => vecStore_fails hi (by rw [addrIndex_reads, hwidth]; exact h)
    case atom =>
      have hsize : atomWidth f / 8 = if (lSub f).testBit 0 then 4 else 8 := by rw [atomWidth]; split <;> rfl
      rw [hsize]
      exact h
  case slotX =>
    exact ⟨fun hl => scales_notLocal hi hl, fun hl h8 => scales_misaligned hi hl h8, fun hl h8 => ⟨execLdk_fails hi hl h8, execStk_fails hi hl h8⟩,
      fun v => ⟨sealIssue_raises hi, sealIssue_raises hi⟩, fun opc => ⟨sealFault_keyNumber, sealFault_keyOwner⟩⟩
  case slotM =>
    obtain rfl : slot = mSlot s := hslot.trans (mSlot_eq s).symm
    exact ⟨mIssue_traps 1 hi (mPlain_eq 1 f s), mIssue_traps 2 hi (mPlain_eq 2 f s), mIssue_traps 3 hi (mPlain_eq 3 f s),
      mIssue_traps (o := execMscl f s) 4 hi rfl, mIssue_traps 5 hi (mPlain_eq 5 f s), mIssue_traps 6 hi (mPlain_eq 6 f s),
      mIssue_traps 7 hi (mPlain_eq 7 f s), mIssue_traps 8 hi (mPlain_eq 8 f s), mIssue_traps (o := execMvs f s) 9 hi rfl,
      mIssue_traps 10 hi (mPlain_eq 10 f s), fun x c opc fn tr td ta tb clash det => ⟨mCheck_format, mCheck_shape⟩⟩
  case mvs =>
    have hslot : mSlot s = 4 := by rw [mSlot_eq, if_neg h5]
    exact fun hm => execMvs_traps h5 hi hd (by rw [mFault, hslot]; exact hm)
  case slotC =>
    intro c step a b p one two got handleBad
    refine ⟨fun code hbad => ?handle, fun e => ?access, fun ps es hr => execCpyD_reaches hi hr, fun ps es hr => execSend_reaches hi hr,
      fun ps es hr => execArm_reaches hi hr, execDisarm_notOwned hi, execCload_slotNumber hi, fun ps es hb hr => execCload_reaches hi hb hr,
      execColl_slotNumber hi, fun ps es hb hr => execColl_reaches hi hb hr, fun code h => execCadd_raises hi h, execCaddf_remote hi,
      fun e h => execCaddm_raises hi h, execMcst_notLocal hi, fun ps es hl hr => execMcst_reaches hi hl hr, ?gen⟩
    case handle =>
      obtain ⟨h63, hc⟩ := hbad
      exact ⟨execCpy_handle hi h63 hc, execDisarm_handle hi h63 hc⟩
    case access =>
      exact ⟨execCpyD_fails hi, execSend_fails hi, execArm_fails hi, execCload_fails hi, execColl_fails hi, execMcst_fails hi⟩
    case gen =>
      intro seen part
      refine ⟨fun hbad => (execGen_eq hi).trans (congrArg _ (if_pos hbad)), fun h1 hmax hc => ?_⟩
      have hlen : ¬ (b = 0 ∨ 2 ^ 64 < a + b) := by omega
      refine ⟨fun hmeet => (execGen_eq hi).trans ?_, fun hfree hfull => (execGen_eq hi).trans ?_⟩
      · rw [if_neg hlen, if_neg hc, if_pos hmeet]
      · rw [if_neg hlen, if_neg hc, if_neg (Bool.not_eq_true _ |>.mpr hfree), if_pos hfull]
  case watch =>
    intro seen h x y check
    have hpart : seen.corePart s.cur.core = s.corePart s.cur.core := reads_corePart _ _ _
    have hjob : seen.coreJob s.cur.core = s.coreJob s.cur.core := reads_coreJob _ _ _
    rw [← hpart, ← hjob]
    exact ⟨fun v hv => execWatch_raises hi hv, fun hh => watchCheck_handle (watchHandle_invalid hh),
      fun h0 hh => watchCheck_handle (watchHandle_local h0 hh), watchCheck_owner, watchCheck_target⟩

end Sys2Proof.Machine

namespace Sys2Proof.Machine

/-! ### Freezes and pre-emption (R143, R159, R291) -/

/-- A change that is the same twice as once, made on the cores of a list. -/
theorem foldl_onCore_core {f : Core → Core} (hf : ∀ x, f (f x) = f x) (cs : List Nat) (s : State) (d : Nat) :
    (cs.foldl (fun u c => u.onCore c f) s).core d = if d ∈ cs then f (s.core d) else s.core d := by
  induction cs generalizing s with
  | nil => rfl
  | cons c cs ih =>
    rw [List.foldl_cons, ih]
    by_cases h : d = c
    · subst h; simp [hf]
    · simp [onCore_core_ne _ _ h, h]

/-- A freeze or a change of roles holds a pre-emption of the core off (R159). -/
def Busy (s : State) (d : Nat) : Prop := (s.core d).frozen = true ∨ rolesChange s d = true

/-- A pre-emption that nobody asked for, or that is held off, changes nothing (R159). -/
theorem preemptAsked_none {s : State} {cs : List Nat} (h : ∀ d ∈ cs, (s.core d).preempt = false) : preemptAsked s cs = s := by
  have hask : (cs.any fun d => (s.core d).preempt) = false := by simpa using h
  rw [preemptAsked, if_pos (by rw [hask]; rfl)]
theorem preemptAsked_waits {s : State} {cs : List Nat} (h : ∃ d ∈ cs, Busy s d) : preemptAsked s cs = s := by
  have hbusy : (cs.any fun d => (s.core d).frozen || rolesChange s d) = true := by simpa [Busy] using h
  rw [preemptAsked, if_pos (by rw [hbusy, Bool.or_true])]
theorem preemptAsked_now {s : State} {cs : List Nat} (hask : ∃ d ∈ cs, (s.core d).preempt = true) (hfree : ∀ d ∈ cs, ¬ Busy s d) :
    preemptAsked s cs = preemptHere s cs := by
  have ha : (cs.any fun d => (s.core d).preempt) = true := by simpa using hask
  have hb : (cs.any fun d => (s.core d).frozen || rolesChange s d) = false := by simpa [Busy] using hfree
  rw [preemptAsked, if_neg (by rw [ha, hb]; decide)]

theorem stagedRun_nil {s : State} {c : Nat} (n : Nat) (h : (s.core c).staged = []) : stagedRun c n s = s := by
  cases n with
  | zero => rfl
  | succ n => simp only [stagedRun, h]

/-- The stage of a core with nothing in its window and nothing staged rests (R290). -/
theorem stageRun_idle {s : State} {c : Nat} (nowait : Bool) (n : Nat) (hw : (s.core c).window = []) (hs : (s.core c).staged = []) :
    stageRun c nowait n s = s := by
  cases n with
  | zero => exact stagedRun_nil 9 hs
  | succ n =>
    have hstep (b : Bool) : stageStep s c b = (s, false) := by simp only [stageStep, hw]
    simp only [stageRun, stagedRun_nil 9 hs, hstep, Bool.false_eq_true, if_false, ite_self]

theorem foldl_stageRun_idle {s : State} {cs : List Nat} (h : ∀ d ∈ cs, (s.core d).window = [] ∧ (s.core d).staged = []) :
    cs.foldl (fun u d => stageRun d false 9 u) s = s := by
  induction cs with
  | nil => rfl
  | cons c cs ih =>
    obtain ⟨⟨hwindow, hstaged⟩, hcs⟩ := List.forall_mem_cons.1 h
    rw [List.foldl_cons, stageRun_idle _ _ hwindow hstaged, ih hcs]

theorem stageHeld_nil {s : State} {c : Nat} (h : (s.core c).staged = []) : stageHeld s c = false := by
  simp only [stageHeld, h]

/-- The freeze of a core ends (R143). -/
def Core.thaw (x : Core) : Core := { x with frozen := false }
/-- The same of all the cores of a list. -/
def thawed (s : State) (cs : List Nat) : State := cs.foldl (fun u d => u.onCore d Core.thaw) s

/-- The cores that issue together stay frozen while a dispatch of theirs is held, and else issue again (R143, R291). -/
def afterStages (t : State) (cs : List Nat) : State :=
  if cs.any (stageHeld t) then t else preemptAsked (thawed t cs) cs

theorem execFreezeClear_runs {s : State} {c : Nat} (hf : (s.core c).frozen = true)
    (hats : ∀ d ∈ s.issueCores c, ∀ p, (s.core d).hold ≠ some (.ats p)) (hcl : ∀ d ∈ s.issueCores c, (s.core d).closing = none) :
    execFreezeClear c s =
      .next (offerAll (afterStages ((s.issueCores c).foldl (fun u d => stageRun d false 9 u) s) (s.issueCores c))) := by
  have hno : ((s.issueCores c).any fun d => atsHold (s.core d).hold) = false := by
    refine List.any_eq_false.2 fun d hd => ?_
    unfold atsHold
    split
    · next p hp => exact absurd hp (hats d hd p)
    · exact Bool.false_ne_true
  have hfind : ((s.issueCores c).find? fun d => (s.core d).closing.isSome) = none :=
    List.find?_eq_none.2 fun d hd => by rw [hcl d hd]; decide
  simp only [execFreezeClear, afterStages, hf, hno, hfind, Bool.not_true, Bool.or_self, Bool.false_eq_true, if_false]
  split <;> rfl

theorem afterStages_held {t : State} {cs : List Nat} (h : ∃ d ∈ cs, stageHeld t d = true) : afterStages t cs = t :=
  if_pos (List.any_eq_true.2 h)
theorem afterStages_free {t : State} {cs : List Nat} (h : ∀ d ∈ cs, stageHeld t d = false) :
    afterStages t cs = preemptAsked (thawed t cs) cs :=
  if_neg (by simpa using h)

/-- With nothing to dispatch and no pre-emption asked for, the cores issue again. -/
theorem afterStages_thaws {s : State} {cs : List Nat} (hstage : ∀ d ∈ cs, (s.core d).window = [] ∧ (s.core d).staged = [])
    (hask : ∀ d ∈ cs, (s.core d).preempt = false) :
    afterStages (cs.foldl (fun u d => stageRun d false 9 u) s) cs = thawed s cs := by
  have hfree : ∀ d ∈ cs, stageHeld s d = false := fun d hd => by
    obtain ⟨-, hstaged⟩ := hstage d hd
    exact stageHeld_nil hstaged
  rw [foldl_stageRun_idle hstage, afterStages_free hfree, preemptAsked_none]
  intro d hd
  rw [thawed, foldl_onCore_core (f := Core.thaw) (fun _ => rfl), if_pos hd]
  exact hask d hd

/-- A core is asked to stop at its next boundary (R159). -/
def Core.askStop (x : Core) : Core := { x with preempt := true }
/-- The same of all the cores of a list. -/
def asked (s : State) (cs : List Nat) : State := cs.foldl (fun u d => u.onCore d Core.askStop) s

theorem asked_core {s : State} {cs : List Nat} {d : Nat} (hd : d ∈ cs) : (asked s cs).core d = (s.core d).askStop := by
  rw [asked, foldl_onCore_core (f := Core.askStop) (fun _ => rfl), if_pos hd]
/-- What holds a pre-emption off is as before the request. -/
theorem asked_busy {s : State} {cs : List Nat} {d : Nat} (hd : d ∈ cs) : Busy (asked s cs) d ↔ Busy s d := by
  have hmills : (asked s cs).mills = s.mills := foldl_keeps (·.mills) (fun u d => u.onCore d Core.askStop) (fun _ _ => rfl) cs s
  simp only [Busy, asked_core hd, rolesChange, State.mill, hmills, Core.askStop]

theorem execPreemptionRequest_asks {s : State} {c : Nat} (hc : c ≠ 768) (hjob : (s.core c).job ≠ none) (hst : (s.core c).stopped = false) :
    execPreemptionRequest c s = .next (offerAll (preemptAsked (asked s (s.issueCores c)) (s.issueCores c))) := by
  have hcond : ¬ (c == mgmtCore || (s.core c).job.isNone || (s.core c).stopped) = true := by
    simp [mgmtCore, hst, hc, hjob]
  rw [execPreemptionRequest, if_neg hcond]
  rfl

theorem execPreemptionFreezeTimeout_due {s : State} {c : Nat} (hp : (s.core c).preempt = true)
    (hf : ∃ d ∈ s.issueCores c, (s.core d).frozen = true) (hroles : ∀ d ∈ s.issueCores c, (s.mill (d / 2)).change = none) :
    execPreemptionFreezeTimeout c s =
      if matchWaits s c then .next (matchesFirst s c (.preemptionFreezeTimeout c))
      else .next (offerAll ((s.issueCores c).foldl stopRolledBack (rollback s c))) := by
  have hchange : (s.issueCores c).any (rolesChange s) = false :=
    List.any_eq_false.2 fun d hd => by simp [rolesChange, coreMill, hroles d hd]
  rw [execPreemptionFreezeTimeout, if_neg]
  · rfl
  · rw [List.any_eq_true.2 hf, hp, hchange]; decide

/-! ### A change of BANKROLE (R83) -/

/-- Zeroing starts once neither a core nor an engine works on the banks that change. -/
theorem execBankroleZeroingStart_starts {s : State} {mill : Nat} {ch : RoleChange} (hch : (s.mill mill).change = some ch)
    (hz : ch.zeroing = false) (heng : engineInBanks s mill (changedBanks (s.mill mill)) = false)
    (hcl : ∀ c ∈ millCores mill, (s.core c).closing = none)
    (htiles : ∀ c ∈ millCores mill, ∀ t ∈ (s.core c).tiles, ∀ r ∈ t.reads ++ t.writes,
      inBanks (changedBanks (s.mill mill)) r.1 r.2 = false) :
    let t := (millCores mill).foldl drainAll s
    execBankroleZeroingStart mill s =
      .next (offerAll ((t.setMill mill { t.mill mill with change := some { ch with zeroing := true } }).push [.bankroleZeroingEnd mill])) := by
  have hbusy : ((millCores mill).any fun c => (s.core c).tiles.any fun t => (t.reads ++ t.writes).any fun r =>
      inBanks (changedBanks (s.mill mill)) r.1 r.2) = false := by
    simp only [List.any_eq_false, Bool.not_eq_true]
    exact htiles
  have hclosing : ((millCores mill).any fun c => (s.core c).closing.isSome) = false :=
    List.any_eq_false.2 fun c hc => by rw [hcl c hc]; decide
  simp only [execBankroleZeroingStart, hch, hz, hbusy, hclosing, heng, Bool.or_self, Bool.false_eq_true, if_false]
  rfl

/-- A key inside the range that is cut reads as the default, one outside as before. -/
theorem tget_tcut {α : Type} (d : α) (t : Table α) (a n k : Nat) :
    tget d (tcut t a n) k = if a ≤ k ∧ k < a + n then d else tget d t k := by
  induction t with
  | nil => simp [tcut, tget]
  | cons e t ih =>
    obtain ⟨i, v⟩ := e
    rw [tcut] at ih ⊢
    by_cases hi : a ≤ i ∧ i < a + n
    · rw [List.filter_cons_of_neg (by simp [hi]), ih, tget]
      by_cases hk : k = i
      · rw [hk, if_pos hi, if_pos hi]
      · rw [if_neg hk]
    · rw [List.filter_cons_of_pos (by simpa only [Bool.not_eq_true', Bool.and_eq_false_iff, decide_eq_false_iff_not, ← not_and_or] using hi),
        tget, tget, ih]
      by_cases hk : k = i
      · rw [if_pos hk, if_pos hk, hk, if_neg hi]
      · rw [if_neg hk, if_neg hk]

/-- Some banks of a mill zeroed (R83). -/
def zeroed (s : State) (mill : Nat) (bs : List Nat) : State :=
  bs.foldl (fun t b => zeroBanks t (mill * 2 ^ 23 + b * 262144) 262144) s

/-- A byte of bank b of a mill, by its address in the bank memory. -/
def InBank (mill b a : Nat) : Prop := mill * 2 ^ 23 + b * 262144 ≤ a ∧ a < mill * 2 ^ 23 + b * 262144 + 262144

theorem zeroed_outside {mill : Nat} {bs : List Nat} {a : Nat} (s : State) (h : ∀ b ∈ bs, ¬ InBank mill b a) :
    (zeroed s mill bs).banks.read a = s.banks.read a := by
  induction bs generalizing s with
  | nil => rfl
  | cons b bs ih =>
    obtain ⟨hb, hbs⟩ := List.forall_mem_cons.1 h
    exact (ih _ hbs).trans ((tget_tcut 0 s.banks _ _ a).trans (if_neg hb))
theorem zeroed_inside {mill : Nat} {bs : List Nat} {a : Nat} (s : State) (h : ∃ b ∈ bs, InBank mill b a) :
    (zeroed s mill bs).banks.read a = 0 := by
  induction bs generalizing s with
  | nil => simp at h
  | cons b bs ih =>
    by_cases hbs : ∃ k ∈ bs, InBank mill k a
    · exact ih _ hbs
    · have hb : InBank mill b a := by simpa [hbs] using h
      exact (zeroed_outside _ fun k hk hin => hbs ⟨k, hk, hin⟩).trans ((tget_tcut 0 s.banks _ _ a).trans (if_pos hb))

/-- Zeroing changes the banks, the forms of their lines and their poison marks, and nothing else. -/
theorem zeroed_frame (s : State) (mill : Nat) (bs : List Nat) :
    let t := zeroed s mill bs
    t = { s with banks := t.banks, bankForm := t.bankForm, poison := t.poison } := by
  refine List.foldlRecOn (motive := fun (t : State) => t = { s with banks := t.banks, bankForm := t.bankForm, poison := t.poison }) bs _ rfl ?_
  intro t ht b hb
  rw [ht]
  rfl

/-- A mill after its change: the new roles stand, and its cache is empty where the banks of the cache are others (R83, R90). -/
def Mill.changed (m : Mill) (ch : RoleChange) : Mill :=
  let caches (w : Word) : List Nat := (List.range 32).filter fun b => roleOf w b == 1
  { m with bankrole := ch.roles, change := none, cache := if caches m.bankrole == caches ch.roles then m.cache else [] }

/-- The state in which a change of roles ends. -/
def rolesChanged (s : State) (mill : Nat) (ch : RoleChange) : State :=
  (zeroed s mill (changedBanks (s.mill mill))).setMill mill ((s.mill mill).changed ch)

/-- A change of roles ends with the banks zeroed and the new roles; no core stops where none is asked to. -/
theorem execBankroleZeroingEnd_ends {s : State} {mill : Nat} {ch : RoleChange} (hch : (s.mill mill).change = some ch) (hz : ch.zeroing = true)
    (hask : ∀ c ∈ millCores mill, ∀ d ∈ s.issueCores c, (s.core d).preempt = false) :
    execBankroleZeroingEnd mill s = .next (offerAll (rolesChanged s mill ch)) := by
  have hframe := zeroed_frame s mill (changedBanks (s.mill mill))
  have hissue (c : Nat) : (rolesChanged s mill ch).issueCores c = s.issueCores c := by rw [rolesChanged, hframe]; rfl
  have hcore (d : Nat) : (rolesChanged s mill ch).core d = s.core d := by rw [rolesChanged, hframe]; rfl
  have hstays : (millCores mill).foldl (fun t c => if (t.core c).stopped then t else preemptAsked t (t.issueCores c)) (rolesChanged s mill ch) =
      rolesChanged s mill ch := by
    refine List.foldlRecOn (motive := fun (t : State) => t = rolesChanged s mill ch) _ _ rfl ?_
    rintro t rfl c hc
    rw [preemptAsked_none, ite_self]
    intro d hd
    rw [hissue] at hd
    rw [hcore]
    exact hask c hc d hd
  simp only [execBankroleZeroingEnd, hch, hz, Bool.not_true, Bool.false_eq_true, if_false]
  exact congrArg (fun t => Host.Outcome.next (offerAll t)) hstays

/-- With no fault left to offer, the end of an event changes no more than the agenda (R447). -/
theorem offerAll_agenda {s : State} (h : s.offers = []) : offerAll s = { s with agenda := (offerAll s).agenda } := by
  have hs : offerAll s = askInvals s := by
    rw [offerAll, h, List.foldl_nil, ← h]
  rw [hs, askInvals]
  split <;> rfl

/-- Settles O37: freezes and pre-emptions by the lemmas about what the cores wait for, the end of a change by what zeroing leaves. -/
theorem freezeAndRoleEventsComplete : Obligations.FreezeAndRoleEventsComplete := by
  refine ⟨fun s c => ⟨fun hf hats hcl => ?clear, fun hc hjob hst hne => ?request, fun hp hf hroles => ?timeout⟩, fun s mill ch hch => ⟨?start, ?stop⟩⟩
  case clear =>
    have h := execFreezeClear_runs hf hats hcl
    exact ⟨⟨fun hheld => h.trans (by rw [afterStages_held hheld]), fun hfree => h.trans (by rw [afterStages_free hfree]; rfl)⟩,
      fun hstage hask => h.trans (by rw [afterStages_thaws hstage hask]; rfl)⟩
  case request =>
    have h := execPreemptionRequest_asks hc hjob hst
    obtain ⟨d, hd⟩ := List.exists_mem_of_ne_nil _ hne
    refine ⟨fun ⟨e, he, hbusy⟩ => h.trans ?_, fun hfree => h.trans ?_⟩
    · rw [preemptAsked_waits ⟨e, he, (asked_busy he).2 hbusy⟩]; rfl
    · rw [preemptAsked_now ⟨d, hd, by rw [asked_core hd]; rfl⟩ fun e he hbusy => hfree e he ((asked_busy he).1 hbusy)]; rfl
  case timeout =>
    have h := execPreemptionFreezeTimeout_due hp hf hroles
    exact ⟨fun hm => h.trans (if_pos hm), fun hm => h.trans (if_neg (by rw [hm]; decide))⟩
  case start => exact fun hz heng hcl htiles => execBankroleZeroingStart_starts hch hz heng hcl htiles
  case stop =>
    intro hz hoff hask
    have hframe := zeroed_frame s mill (changedBanks (s.mill mill))
    have hend : (rolesChanged s mill ch).offers = [] := by rw [rolesChanged, hframe]; exact hoff
    refine ⟨_, execBankroleZeroingEnd_ends hch hz hask, ?_⟩
    rw [offerAll_agenda hend]
    have hmill : (rolesChanged s mill ch).mill mill = (s.mill mill).changed ch := mill_setMill _ _ _
    refine ⟨congrArg Mill.bankrole hmill, congrArg Mill.change hmill, fun b hb off hlt => zeroed_inside s ⟨b, hb, Nat.le_add_right _ _, Nat.add_lt_add_left hlt _⟩,
      fun a ha => zeroed_outside s fun b hb ⟨hlow, hhigh⟩ => ?_, ?_⟩
    · exact (ha b hb).elim (Nat.not_lt.2 hlow) (Nat.not_le.2 hhigh)
    · rw [rolesChanged, hframe]; exact ⟨rfl, rfl, rfl, rfl⟩

end Sys2Proof.Machine

namespace Sys2Proof.Machine

/-! ### CSR writes (R202, R204 to R206) -/

/-- Reading sources changes no privilege, no armed slot and no mill. -/
@[simp] theorem reads_privOf (s : State) (codes : List Nat) : privOf (reads s codes) s.cur.core = privOf s s.cur.core := by
  have h : ((reads s codes).core s.cur.core).live.priv_ = (s.core s.cur.core).live.priv_ := by
    simpa only [State.curCore, reads_cur] using reads_priv s codes
  rw [privOf, privOf, h]

/-- What a CSR write of a form leaves in flight: 0 replaces the writable bits rw, 1 sets and 2 clears those of the source (R202). -/
def csrLanding (n form : Nat) (rw a : Word) : Landing :=
  landCsr n (if form == 2 then 0 else a &&& rw) (if form == 0 then rw else a &&& rw)

theorem giveCsr_delivers (s : State) (codes : List Nat) (n form : Nat) (rw a : Word) :
    giveCsr (reads (s.atSlot 0) codes) n form rw a = s.delivers 0 codes 0 [csrLanding n form rw a] :=
  deliver_reads s 0 codes (csrLanding n form rw a)

/-- The CSRs that a write changes once the bundle has issued, by the core and its privilege (R202, R204). -/
def WrittenLater (s : State) (n : Nat) : Prop :=
  n = 0x006 ∨ n = 0x101 ∧ privOf s s.cur.core ≠ 0 ∨
    s.cur.core = 768 ∧ n ∈ [0x010, 0x011, 0x012, 0x013, 0x030, 0x031, 0x104, 0x200, 0x201]

theorem csrWritable_later {s : State} {n : Nat} (h : WrittenLater s n) : csrWritable (privOf s s.cur.core) n = true := by
  rcases h with rfl | ⟨rfl, hp⟩ | ⟨hc, hn⟩
  · rfl
  · have h1 : 1 ≤ privOf s s.cur.core := Nat.pos_of_ne_zero hp
    simp [csrWritable, h1]
  · have hfirm : privOf s s.cur.core = 2 := by rw [hc]; rfl
    have hall : ∀ k ∈ [0x010, 0x011, 0x012, 0x013, 0x030, 0x031, 0x104, 0x200, 0x201], csrWritable 2 k = true := by decide
    rw [hfirm]
    exact hall n hn

section
variable {f : FK} {s : State} (hi : Issues 0 f.g s) (form : Nat)
include hi

/-- A shadowed CSR takes the write as a result of latency 1 (R202). -/
theorem csrwOp_status (h : f.csr = 0x000) :
    csrwOp form f s = .next (s.delivers 0 [f.reg] 0 [csrLanding f.csr form statusRw (s.srcS 0 f.reg)]) := by
  rw [csrwOp, slotOp_issues hi]
  simp only [h, ← giveCsr_delivers, reads_sval, atSlot_sval]
  rfl
theorem csrwOp_qmode (h : f.csr = 0x020) :
    csrwOp form f s = .next (s.delivers 0 [f.reg] 0 [csrLanding f.csr form 1 (s.srcS 0 f.reg)]) := by
  rw [csrwOp, slotOp_issues hi]
  simp only [h, ← giveCsr_delivers, reads_sval, atSlot_sval]
  rfl
theorem csrwOp_dressperm (h : f.csr = 0x021) :
    csrwOp form f s = .next ((s.delivers 0 [f.reg] 0 [csrLanding f.csr form 3 (s.srcS 0 f.reg)]).withEff .flush) := by
  rw [csrwOp, slotOp_issues hi]
  simp only [h, ← giveCsr_delivers, reads_sval, atSlot_sval]
  rfl
theorem csrwOp_step (hlo : 0x018 ≤ f.csr) (hhi : f.csr ≤ 0x01C) :
    csrwOp form f s = .next (s.delivers 0 [f.reg] 0 [csrLanding f.csr form 0xFFFFFFFF (s.srcS 0 f.reg)]) := by
  have hw (p : Nat) : csrWritable p f.csr = true := by simp [csrWritable, hlo, hhi]
  have h0 : f.csr ≠ 0 := by omega
  have h20 : f.csr ≠ 0x20 := by omega
  have h21 : f.csr ≠ 0x21 := by omega
  rw [csrwOp, slotOp_issues hi]
  simp only [hw, beq_iff_eq, h0, h20, h21, hlo, hhi, ← giveCsr_delivers, reads_sval, atSlot_sval]
  rfl

/-- FTO, EPC and the controller's own CSRs are written once the bundle has issued (R202, R206). -/
theorem csrwOp_later (h : WrittenLater s f.csr) :
    csrwOp form f s = .next ((reads (s.atSlot 0) [f.reg]).withEff (.csr f.csr form (s.srcS 0 f.reg))) := by
  have hw : csrWritable (privOf (reads (s.atSlot 0) [f.reg]) s.cur.core) f.csr = true :=
    (congrArg (csrWritable · f.csr) (reads_privOf (s.atSlot 0) [f.reg])).trans (csrWritable_later h)
  have hn : f.csr ≠ 0 ∧ f.csr ≠ 0x20 ∧ f.csr ≠ 0x21 ∧ ¬ (0x018 ≤ f.csr ∧ f.csr ≤ 0x01C) ∧ ¬ (f.csr = 0x031 ∧ s.cur.core ≠ 768) := by
    rcases h with h | ⟨h, -⟩ | ⟨hc, h⟩
    · omega
    · omega
    · simp only [List.mem_cons, List.not_mem_nil, or_false] at h
      omega
  obtain ⟨h0, h20, h21, hstep, hroles⟩ := hn
  rw [csrwOp, slotOp_issues hi]
  simp only [reads_sval, atSlot_sval, reads_cur, atSlot_cur_core]
  rw [if_neg (by rw [hw]; decide), if_neg (by simpa using h0), if_neg (by simpa using h20), if_neg (by simpa using h21),
    if_neg (by simpa using hstep), if_neg (by simpa [mgmtCore] using hroles)]
  rfl

/-- A write of BANKROLE on a strand's core (R83): it traps under an armed receive, and leaves an effect where it may change a role. -/
theorem csrwOp_roles (hc : s.cur.core ≠ 768) (h : f.csr = 0x031) :
    let seen := reads (s.atSlot 0) [f.reg]
    let m := s.mill (s.cur.core / 2)
    let new := rolesAfter (rolesNow m) (s.srcS 0 f.reg) form
    csrwOp form f s = .next
      (if armedIn seen (s.cur.core / 2) m.bankrole new then raise seen cAccess 0
       else if new == rolesNow m && !((seen.issueCores s.cur.core).any fun d => d != s.cur.core && d / 2 == s.cur.core / 2) then seen
       else seen.withEff (.csr 0x031 form (s.srcS 0 f.reg))) := by
  intro seen m new
  have hm : (s.cur.core != mgmtCore) = true := by simpa [mgmtCore] using hc
  rw [csrwOp, slotOp_issues hi]
  simp only [h, reads_sval, atSlot_sval, reads_cur, atSlot_cur_core, hm, reads_mill]
  rfl
end

/-- Element k of a list with element k replaced. -/
theorem getD_setAt_same {α : Type} {xs : List α} {k : Nat} (y d : α) (h : k < xs.length) : (setAt xs k y).getD k d = y := by
  induction xs generalizing k with
  | nil => simp at h
  | cons x xs ih =>
    cases k with
    | zero => rfl
    | succ k => simpa [setAt] using ih (by simpa using h)

/-- A write of a field in the three forms (R202), and of a register that is writable as a whole. -/
theorem csrWrite_eq (form : Nat) (rw old a : Word) :
    csrWrite form rw old a = if form = 0 then old &&& ~~~rw ||| a &&& rw else if form = 1 then old ||| a &&& rw else old &&& ~~~(a &&& rw) := by
  match form with
  | 0 => rfl
  | 1 => rfl
  | n + 2 => simp [csrWrite]
theorem csrWrite_allOnes (form : Nat) (old a : Word) :
    csrWrite form allOnes old a = if form = 0 then a else if form = 1 then old ||| a else old &&& ~~~a := by
  rw [csrWrite_eq, show allOnes = BitVec.allOnes 64 from rfl, BitVec.and_allOnes, BitVec.not_allOnes, BitVec.and_zero, BitVec.zero_or]

/-- The controller's own CSRs, by number (R204, R432). -/
theorem writeCsr_firm {s : State} {n : Nat} (form : Nat) (a : Word) (h : n ∈ [0x030, 0x031, 0x200, 0x201]) :
    ((writeCsr s 768 n form a).core 768).firm = (s.core 768).firm.write n form a := by
  have hw : writeCsr s 768 n form a = s.onCore 768 fun x => { x with firm := x.firm.write n form a } := by
    simp only [List.mem_cons, List.not_mem_nil, or_false] at h
    rcases h with rfl | rfl | rfl | rfl <;> rfl
  rw [hw, onCore_core]
theorem writeCsr_svcvec (s : State) (form : Nat) (a : Word) :
    ((writeCsr s 768 0x104 form a).core 768).svcvec = csrWrite form (~~~3) (s.core 768).svcvec a :=
  congrArg Core.svcvec (onCore_core s 768 fun x => { x with svcvec := csrWrite form (~~~3) x.svcvec a })
theorem writeCsr_lbound {s : State} {n : Nat} (form : Nat) (a : Word) (hlo : 0x010 ≤ n) (hhi : n ≤ 0x013)
    (hlen : n - 0x010 < (s.core 768).lbound.length) :
    ((writeCsr s 768 n form a).core 768).lbound.getD (n - 0x010) 0 = csrWrite form 0xFFFFFFFF ((s.core 768).lbound.getD (n - 0x010) 0) a := by
  have hn : n ≠ 6 ∧ n ≠ 0x101 ∧ n ≠ 0x031 ∧ n ≠ 0x104 := by omega
  obtain ⟨h6, h101, h31, h104⟩ := hn
  rw [writeCsr, if_neg (by simpa using h6), if_neg (by simpa using h101), if_neg (by simp [h31]), if_neg (by simpa using h104),
    if_pos (by simp [hlo, hhi]), onCore_core]
  exact getD_setAt_same _ _ hlen

/-- A cursor whose one effect is a write of BANKROLE, on a strand's core (R83). -/
theorem roles_of_write {u : Cursor} {form : Nat} {a : Word} (hu : u.core ≠ 768) (he : u.effs = [.csr 0x031 form a]) : u.roles = [(form, a)] := by
  simp [Cursor.roles, he, mgmtCore, hu]

/-- Settles O11: each CSR by the lemma about its write, the roles by the writes of a bundle in order. -/
theorem csrWritesComplete : Obligations.CsrWritesComplete := by
  refine ⟨fun f s hi => ?issue, fun s u v form form' a a' hu hmill heu hev => ?roles, fun s n form a hform => ?firm, fun s c form a hform => ?written⟩
  case issue =>
    intro a seen lands later
    have hlater (h : WrittenLater s f.csr) : later := ⟨csrwOp_later hi 0 h, csrwOp_later hi 1 h, csrwOp_later hi 2 h⟩
    refine ⟨fun h => ⟨csrwOp_status hi 0 h, csrwOp_status hi 1 h, csrwOp_status hi 2 h⟩,
      fun h => ⟨csrwOp_qmode hi 0 h, csrwOp_qmode hi 1 h, csrwOp_qmode hi 2 h⟩,
      fun hlo hhi => ⟨csrwOp_step hi 0 hlo hhi, csrwOp_step hi 1 hlo hhi, csrwOp_step hi 2 hlo hhi⟩,
      fun h => ⟨csrwOp_dressperm hi 0 h, csrwOp_dressperm hi 1 h, csrwOp_dressperm hi 2 h⟩,
      fun h => hlater (.inl h), fun h hp => hlater (.inr (.inl ⟨h, privOf_ne_zero ?_⟩)), fun hc h => hlater (.inr (.inr ⟨hc, h⟩)),
      fun hc h form i hform => ?_⟩
    · exact hp.imp_right fun e => by rw [e]; decide
    · intro now new
      have hexec : exec i s = csrwOp form f s := by
        rcases hform with ⟨rfl, rfl⟩ | ⟨rfl, rfl⟩ | ⟨rfl, rfl⟩ <;> rfl
      have hroles := hexec.trans (csrwOp_roles hi form hc h)
      refine ⟨fun harm => hroles.trans ?_, fun harm => ⟨fun hnew hboth => hroles.trans ?_, fun hchange => hroles.trans ?_⟩⟩
      · rw [if_pos harm]
      · rw [if_neg (by rw [harm]; decide), if_pos (by rw [hboth, Bool.not_false, Bool.and_true, beq_iff_eq]; exact hnew)]
      · rw [if_neg (by rw [harm]; decide), if_neg]
        rw [Bool.and_eq_true, beq_iff_eq, Bool.not_eq_true']
        rintro ⟨hnew, hboth⟩
        exact hchange.elim (fun e => e hnew) fun e => Bool.false_ne_true (hboth.symm.trans e)
  case roles =>
    intro now
    have hru := roles_of_write hu heu
    refine ⟨?_, fun hv => ?_⟩
    · simp [changesRoles, rolesWritten, hru, coreMill, now]
    · simp [changesRoles, rolesWritten, hru, roles_of_write hv hev, coreMill, hmill, now]
  case firm =>
    intro x put t
    have hput (rw_ old : Word) : csrWrite form rw_ old a = put rw_ old := csrWrite_eq form rw_ old a
    have hfirm (h : n ∈ [0x030, 0x031, 0x200, 0x201]) : (t.core 768).firm = x.firm.write n form a := writeCsr_firm form a h
    refine ⟨?_, fun hlo hhi hlen => (writeCsr_lbound form a hlo hhi hlen).trans (hput _ _), ?_, ?_, ?_, ?_⟩
    · rintro rfl
      exact (writeCsr_svcvec s form a).trans (hput _ _)
    all_goals
      rintro rfl
      rw [hfirm (by decide)]
    · rw [firm_write_millmode, hput]
    · rw [firm_write_bankrole, hput]; rfl
    · rw [firm_write_lattol, hput]
    · rw [firm_write_agePeriod, hput]
  case written =>
    refine ⟨rfl, ?_⟩
    simp only [← csrWrite_allOnes]
    rfl

end Sys2Proof.Machine

namespace Sys2Proof.Machine

/-! ### Prefetch and cache maintenance (R252, R253) -/

/-- A prefetch changes no more than the caches of the mills (R86, R252). -/
theorem prefLine_mills (s : State) (mill line hint : Nat) : prefLine s mill line hint = { s with mills := (prefLine s mill line hint).mills } := by
  unfold prefLine
  extract_lets m
  split
  · rfl
  · cases cacheFind m line <;> rfl
theorem prefLines_mills (s : State) (hint n va : Nat) : prefLines s hint n va = { s with mills := (prefLines s hint n va).mills } := by
  induction n generalizing s va with
  | zero => rfl
  | succ n ih =>
    unfold prefLines
    extract_lets t
    have ht : t = { s with mills := t.mills } := by
      unfold t
      split
      · split
        · split
          · exact prefLine_mills s _ _ hint
          · rfl
        · rfl
      · rfl
    have h := ih t (va + 128)
    rw [h]
    exact congrArg (fun u : State => { u with mills := (prefLines t hint n (va + 128)).mills }) ht

section
variable {f : F3} {s : State} (hi : Issues 2 f.g s)
include hi

theorem execPref_prefetches (h : spanCanonical (effAddr s (s.srcS 2 f.a) (s.srcS 2 f.b) (lOff f) / 128 * 128) (128 * (f.fn + 1)) = true) :
    execPref f s = .next (prefLines (reads (s.atSlot 2) [f.a, f.b]) (lHint f) (f.fn + 1)
      (effAddr s (s.srcS 2 f.a) (s.srcS 2 f.b) (lOff f) / 128 * 128)) := by
  rw [execPref, slotOp_issues hi]
  simp only [lAddr_reads, h]
  rfl

omit hi in
/-- FN other than 0 names every line, and reads no register (R253). -/
theorem withLine_all (t : State) (h0 : f.fn ≠ 0) (k : State → Option Nat → State) : withLine t f k = k t none :=
  if_pos (by simpa using h0)
omit hi in
/-- FN 0 names the line of an address in device memory, if any (R253). -/
theorem withLine_address (h0 : f.fn = 0) (h : canonical (effAddr s (s.srcS 2 f.a) (s.srcS 2 f.b) (lOff f)) = true)
    (k : State → Option Nat → State) :
    withLine (s.atSlot 2) f k = k (reads (s.atSlot 2) [f.a, f.b])
      (deviceLine (reads (s.atSlot 2) [f.a, f.b]) s.cur.core (effAddr s (s.srcS 2 f.a) (s.srcS 2 f.b) (lOff f))) := by
  rw [withLine, if_neg (by simp [h0])]
  simp only [lAddr_reads, h, reads_cur]
  rfl

theorem execCinv_all (h0 : f.fn ≠ 0) : execCinv f s = .next ((s.atSlot 2).withEff (.cmd (.cinv f.fn none))) := by
  rw [execCinv, slotOp_issues hi, withLine_all _ h0, if_neg (by simp [h0])]
  rfl
theorem execCflush_all (h0 : f.fn ≠ 0) : execCflush f s =
    .next { s.atSlot 2 with cur := { (s.atSlot 2).cur with effs := s.cur.effs ++ [.cmd (.cflush f.fn none)], ckpt := true, sync := true } } := by
  rw [execCflush, slotOp_issues hi, withLine_all _ h0, if_neg (by simp [h0])]
  rfl

variable (h0 : f.fn = 0) (h : canonical (effAddr s (s.srcS 2 f.a) (s.srcS 2 f.b) (lOff f)) = true)
include h0 h

/-- An address of no line of device memory has no effect. -/
theorem cacheLine_none
    (hl : deviceLine (reads (s.atSlot 2) [f.a, f.b]) s.cur.core (effAddr s (s.srcS 2 f.a) (s.srcS 2 f.b) (lOff f)) = none) :
    execCinv f s = .next (reads (s.atSlot 2) [f.a, f.b]) ∧ execCflush f s = .next (reads (s.atSlot 2) [f.a, f.b]) := by
  refine ⟨?_, ?_⟩
  · rw [execCinv, slotOp_issues hi, withLine_address h0 h, hl, if_pos (by simp [h0])]
  · rw [execCflush, slotOp_issues hi, withLine_address h0 h, hl, if_pos (by simp [h0])]
theorem cacheLine_some {line : Nat}
    (hl : deviceLine (reads (s.atSlot 2) [f.a, f.b]) s.cur.core (effAddr s (s.srcS 2 f.a) (s.srcS 2 f.b) (lOff f)) = some line) :
    let seen := reads (s.atSlot 2) [f.a, f.b]
    execCinv f s = .next (seen.withEff (.cmd (.cinv 0 (some line)))) ∧
      execCflush f s =
        .next { seen with cur := { seen.cur with effs := seen.cur.effs ++ [.cmd (.cflush 0 (some line))], ckpt := true, sync := true } } := by
  refine ⟨?_, ?_⟩
  · rw [execCinv, slotOp_issues hi, withLine_address h0 h, hl, if_neg (by simp), h0]
    rfl
  · rw [execCflush, slotOp_issues hi, withLine_address h0 h, hl, if_neg (by simp), h0]
    rfl
end

/-- Settles O22: PREF by its lines, CFLUSH and CINV by the line that they name. -/
theorem cacheMaintenanceComplete : Obligations.CacheMaintenanceComplete := by
  intro f s hi seen ea
  refine ⟨fun h => ⟨_, execPref_prefetches hi h, rfl, ?prefetch⟩, fun h0 => ⟨execCinv_all hi h0, execCflush_all hi h0⟩,
    fun h0 h => ⟨cacheLine_none hi h0 h, fun line => cacheLine_some hi h0 h⟩⟩
  case prefetch =>
    rw [prefLines_mills, reads_cores]
    exact ⟨rfl, rfl, rfl, rfl, rfl⟩

end Sys2Proof.Machine

namespace Sys2Proof.Machine

/-! ### Engine commands (R95, R96, R117, R280 to R287) -/

section
variable {s : State} {id : Nat} {e : ECmd} (he : s.cmd id = some e)
include he

/-- A CPY that its channel takes starts (R284), and one whose checks pass runs. -/
theorem execEngineCommandStart_cpy (hk : e.kind = .cpy) (hnext : (nextCopy s (e.core / 2) e.chan).map (·.id) = some id) :
    execEngineCommandStart id s = .next (offerAll (startCpy s e)) := by
  simp only [execEngineCommandStart, he]
  rw [if_pos (by simpa [hk, coreMill] using hnext)]
  rfl
omit he in
theorem startCpy_starts (hr : regionsMeet e.reads e.writes = false) (hc : startCheck s e = none) :
    startCpy s e = (setStage (wakeMill s (e.core / 2)) { e with begun := true } .running).push [.sluiceBeatDelivery e.id] := by
  simp only [startCpy, hr, Bool.false_eq_true, if_false, hc]
  rfl

/-- A SEND in its turn starts (R285, R314); one that does not compress queues its packets as its checks pass. -/
theorem execEngineCommandStart_send (hk : e.kind = .send) (hm : mayStart s e = true) :
    execEngineCommandStart id s = .next (offerAll (startSend s e)) := by
  simp only [execEngineCommandStart, he]
  rw [if_neg (by simp [hk]), if_pos (by simp [hk, hm])]
  rfl
omit he in
theorem startSend_queues (hconn : sendConnFault s e = none) (hres : residFault s e = none) (hc : startCheck s e = none)
    (hcomp : sendComp e.desc = 0) : startSend s e = sendQueue s e [] := by
  simp only [startSend, hconn, hres, hc, hcomp, beq_self_eq_true, if_true]

/-- A CPY that runs delivers its next beat (R95, R96): the bytes land, and the write pointer of its channel follows. -/
theorem execSluiceBeatDelivery_delivers (hk : e.kind = .cpy) (hs : e.stage = .running) (hd : e.done < cpyTotal e) :
    execSluiceBeatDelivery id s = .next (offerAll (cpyDeliver s e)) := by
  simp only [execSluiceBeatDelivery, he]
  rw [if_pos (by simp [hk, hs, hd])]
  rfl
omit he in
theorem cpyDeliver_lands {bytes : List Byte} {forms : List Bool} {t : State}
    (hr : cmdRead s e (cpyBeat e).1 (cpyBeat e).2.2 = .ok (bytes, forms)) (hw : cmdWrite s e (cpyBeat e).2.1 bytes forms = .ok t) :
    let e1 := { e with done := e.done + (cpyBeat e).2.2 }
    cpyDeliver s e = (writePointer (cmdMerge (updCmd t e1) e (cpyBeat e).1 (cpyBeat e).2.2) e (cpyBeat e).2.2).push
      [if e1.done < cpyTotal e then .sluiceBeatDelivery e.id else .engineCommandComplete e.id] := by
  simp only [cpyDeliver, hr, hw]

/-- A CPY that has delivered every byte, and a SEND with no packet left, complete (R280, R284, R285). -/
theorem execEngineCommandComplete_completes (hs : e.stage = .running)
    (hwhole : (e.kind = .cpy ∧ cpyTotal e ≤ e.done) ∨ (e.kind = .send ∧ e.done = 1 ∧ packetsLeft s id none = false)) :
    execEngineCommandComplete id s = .next (offerAll (completeCmd s e)) := by
  simp only [execEngineCommandComplete, he]
  rcases hwhole with ⟨hk, hall⟩ | ⟨hk, hdone, hleft⟩
  · rw [if_pos (by simp [hs, hk, hall])]; rfl
  · rw [if_pos (by simp [hs, hk, hdone, hleft])]; rfl

/-- An MCST in its turn writes every replica, then completes (R117, R263). -/
theorem execMcstComplete_completes (hk : e.kind = .mcst) (hm : mayStart s e = true) {x : List Byte × List Bool} {t : State}
    (hr : cmdRead s e (regionVa e.core e.src) 128 = .ok x) (hw : mcstWrite s e x e.replicas = .ok t) :
    execMcstComplete id s =
      .next (offerAll (completeCmd (tickClock (cmdMerge t e (regionVa e.core e.src) 128) (coreDie e.core)) e)) := by
  simp only [execMcstComplete, he, hr, hw]
  rw [if_neg (by simp [hk, hm])]
  rfl

/-- An ARM in its turn whose check passes arms its slot, then completes (R286). -/
theorem execArmEffect_arms (hk : e.kind = .arm) (hm : mayStart s e = true) (hc : startCheck s e = none) {t : State}
    (ht : armSlot (wakeMill s (e.core / 2)) e = .ok t) : execArmEffect id s = .next (offerAll (completeCmd t e)) := by
  have harm : armSlot (wakeMill s (coreMill e.core)) e = .ok t := ht
  simp only [execArmEffect, he, hc, harm]
  rw [if_neg (by simp [hk, hm])]
  rfl

variable (hk : e.kind = .disarm) (hm : mayStart s e = true) (harms : ∀ a ∈ slotCmds s .arm (coreDie e.core) e.slot, ¬ a.id < e.id)
include hk hm harms

omit he in
/-- A DISARM has its turn behind every ARM of its slot that was issued before it (R287). -/
theorem disarm_inTurn :
    (e.kind != .disarm || !mayStart s e || (slotCmds s .arm (coreDie e.core) e.slot).any fun a => decide (a.id < e.id)) = false := by
  simpa [hk, hm] using harms

/-- It frees the slot that its context armed, and makes no add where there is none to end (R287). -/
theorem execDisarmEffect_frees {a : Armed} (ha : s.armedSlot (coreDie e.core) e.slot = some a) (hjob : a.job = e.job) :
    execDisarmEffect id s = .next (offerAll (completeCmd (freeSlot s (coreDie e.core) e.slot) e)) := by
  simp only [execDisarmEffect, he, disarm_inTurn hk hm harms, ha, hjob, beq_self_eq_true, if_true]
  rfl
theorem execDisarmEffect_none (ha : ∀ a, s.armedSlot (coreDie e.core) e.slot = some a → a.job ≠ e.job) :
    execDisarmEffect id s = .next (offerAll (completeCmd s { e with handle := none })) := by
  cases hslot : s.armedSlot (coreDie e.core) e.slot with
  | none => simp only [execDisarmEffect, he, disarm_inTurn hk hm harms, hslot]; rfl
  | some a => simp only [execDisarmEffect, he, disarm_inTurn hk hm harms, hslot, beq_iff_eq, ha a hslot]; rfl
end

/-- Settles O42: each command by the lemma about its start, its beat or its end. -/
theorem engineEventsComplete : Obligations.EngineEventsComplete := by
  intro s id e he
  refine ⟨fun hk hnext hr hc => ?start, fun hk hm => ⟨execEngineCommandStart_send he hk hm, fun hconn hres hc hcomp => ?queue⟩,
    fun hk hs hd => ?beat, execEngineCommandComplete_completes he, fun hk hm x t => execMcstComplete_completes he hk hm,
    fun hk hm hc t => execArmEffect_arms he hk hm hc,
    fun hk hm harms => ⟨fun a => execDisarmEffect_frees he hk hm harms, execDisarmEffect_none he hk hm harms⟩⟩
  case start => exact (execEngineCommandStart_cpy he hk hnext).trans (by rw [startCpy_starts hr hc])
  case queue => exact (execEngineCommandStart_send he hk hm).trans (by rw [startSend_queues hconn hres hc hcomp])
  case beat =>
    intro b e1 bytes forms t hr hw
    exact (execSluiceBeatDelivery_delivers he hk hs hd).trans (by rw [cpyDeliver_lands hr hw]; rfl)

end Sys2Proof.Machine

namespace Sys2Proof.Machine

/-! ### Results that land (R139, R140, R148) -/

/-- Landings in order: each in the live copy, those of earlier regions in the shadow copy too. -/
theorem foldl_land (ls : List Landing) (x : Core) :
    ls.foldl Core.land x =
      { x with live := ls.foldl Arch.land x.live, shadow := (ls.filter fun l => l.older).foldl Arch.land x.shadow } := by
  induction ls generalizing x with
  | nil => rfl
  | cons l ls ih =>
    rw [List.foldl_cons, ih, List.filter_cons]
    cases h : l.older <;> simp [Core.land, h]

/-- What is due lands in issue order (R140); what is not stays in flight. -/
theorem landDue_eq (x : Core) :
    x.landDue =
      let due := x.inflight.filter fun l => l.left = 0
      { x with
        live := due.foldl Arch.land x.live, shadow := (due.filter fun l => l.older).foldl Arch.land x.shadow,
        inflight := x.inflight.filter fun l => l.left ≠ 0 } := by
  have hkeep : (fun l : Landing => l.left != 0) = fun l => decide (l.left ≠ 0) := funext fun l => decide_not.symm
  rw [Core.landDue, foldl_land, hkeep]
  rfl

/-! ### The oldest released entry (R102, R150) -/

/-- How a drain goes on: with the next entry, or, behind the last, to the end of a context that is done (R30). -/
def afterDrain (t : State) (c id : Nat) : State :=
  if (t.core c).drain = [] then tryComplete t id else t.push [.releaseBufferDrain c]

/-- Going on after a drain changes no more than the agenda. -/
theorem afterDrain_agenda (t : State) (c id : Nat) : afterDrain t c id = { t with agenda := (afterDrain t c id).agenda } := by
  rw [afterDrain]
  split
  · rw [tryComplete]; split <;> rfl
  · rfl

/-- With no fault left to offer, neither does the end of the event. -/
theorem offerAll_afterDrain {t : State} (c id : Nat) (h : t.offers = []) :
    ∃ agenda, offerAll (afterDrain t c id) = { t with agenda := agenda } := by
  have hafter := afterDrain_agenda t c id
  have hoffer := offerAll_agenda ((congrArg State.offers hafter).trans h)
  exact ⟨_, hoffer.trans (congrArg (fun u : State => { u with agenda := (offerAll (afterDrain t c id)).agenda }) hafter)⟩

/-- The state after the oldest entry of a core has been performed, where es stand behind it. -/
def entryPerformed (s : State) (c : Nat) (e : BufEnt) (es : List BufEnt) : State :=
  performEntry (s.onCore c fun x => { x with drain := es }) c (s.core c).drainBy e

theorem execReleaseBufferDrain_nil {s : State} {c : Nat} (h : (s.core c).drain = []) : execReleaseBufferDrain c s = .next s := by
  simp [execReleaseBufferDrain, h]
theorem execReleaseBufferDrain_cons {s : State} {c : Nat} {e : BufEnt} {es : List BufEnt} (h : (s.core c).drain = e :: es) :
    execReleaseBufferDrain c s = .next (offerAll (afterDrain (entryPerformed s c e es) c (s.core c).drainBy.ctx)) := by
  have hone : drainOne s c = entryPerformed s c e es := by rw [drainOne, h]; rfl
  simp only [execReleaseBufferDrain, h, hone, afterDrain, List.isEmpty_iff, reduceCtorEq, if_false]
  rfl

/-! ### Bytes stored from a place up (R102) -/

/-- The memory behind the places of a space; the control window has none. -/
def State.memory (s : State) : Space → Memory
  | .bank => s.banks
  | .hbm => s.hbm
  | .host => s.hostMem
  | .mcram => s.mcram
  | .ctl => []

theorem byteAt_memory (s : State) {p : Loc} (hp : p.sp ≠ .ctl) : s.byteAt p = (s.memory p.sp).read p.addr := by
  obtain ⟨sp, a⟩ := p
  cases sp with
  | ctl => exact absurd rfl hp
  | _ => rfl

theorem memory_wf {s : State} (h : s.memWf = true) (sp : Space) : (s.memory sp).wf = true := by
  simp only [State.memWf, Bool.and_eq_true] at h
  obtain ⟨⟨⟨hhbm, hbanks⟩, hhost⟩, hmcram⟩ := h
  cases sp with
  | bank => exact hbanks
  | hbm => exact hhbm
  | host => exact hhost
  | mcram => exact hmcram
  | ctl => rfl

/-- One byte goes to the memory of its place. -/
theorem memory_putByte (s : State) {l : Loc} (b : Byte) (sp : Space) (hl : l.sp ≠ .ctl) :
    (s.putByte l b).memory sp = if sp = l.sp then (s.memory sp).write l.addr b else s.memory sp := by
  obtain ⟨lsp, a⟩ := l
  cases lsp with
  | ctl => exact absurd rfl hl
  | _ => cases sp <;> rfl

/-- Stored bytes are one store in the memory of their place (R102), and leave every other memory. -/
theorem memory_putBytes_same (s : State) {l : Loc} (bs : List Byte) (hl : l.sp ≠ .ctl) :
    (s.putBytes l bs).memory l.sp = (s.memory l.sp).store l.addr bs := by
  induction bs generalizing s l with
  | nil => rfl
  | cons b bs ih =>
    have hrest := ih (s.putByte l b) (l := ⟨l.sp, l.addr + 1⟩) hl
    rw [memory_putByte s b l.sp hl, if_pos rfl] at hrest
    exact hrest

theorem memory_putBytes_ne (s : State) {l : Loc} {sp : Space} (bs : List Byte) (hl : l.sp ≠ .ctl) (h : sp ≠ l.sp) :
    (s.putBytes l bs).memory sp = s.memory sp := by
  induction bs generalizing s l with
  | nil => rfl
  | cons b bs ih =>
    have hrest := ih (s.putByte l b) (l := ⟨l.sp, l.addr + 1⟩) hl h
    rw [memory_putByte s b sp hl, if_neg h] at hrest
    exact hrest

theorem byteAt_putBytes_inside {s : State} {l : Loc} {k : Nat} (bs : List Byte) (h : s.memWf = true) (hl : l.sp ≠ .ctl) (hk : k < bs.length) :
    (s.putBytes l bs).byteAt ⟨l.sp, l.addr + k⟩ = bs.getD k 0 := by
  calc
    (s.putBytes l bs).byteAt ⟨l.sp, l.addr + k⟩ = ((s.putBytes l bs).memory l.sp).read (l.addr + k) := byteAt_memory _ hl
    _ = bs[k] := by rw [memory_putBytes_same s bs hl, Memory.read_store_inside bs (memory_wf h l.sp) hk]
    _ = bs.getD k 0 := (List.getD_eq_getElem bs 0 hk).symm

theorem byteAt_putBytes_outside {s : State} {l p : Loc} (bs : List Byte) (h : s.memWf = true) (hl : l.sp ≠ .ctl) (hp : p.sp ≠ .ctl)
    (hout : p.sp ≠ l.sp ∨ p.addr < l.addr ∨ l.addr + bs.length ≤ p.addr) : (s.putBytes l bs).byteAt p = s.byteAt p := by
  rw [byteAt_memory _ hp, byteAt_memory _ hp]
  by_cases hsp : p.sp = l.sp
  · have haddr := hout.resolve_left fun hne => hne hsp
    rw [hsp, memory_putBytes_same s bs hl, Memory.read_store_outside bs (memory_wf h l.sp) haddr]
  · rw [memory_putBytes_ne s bs hl hsp]

/-- Bytes stored at a place change no core, partition or counter, and leave no fault. -/
theorem putBytes_frame (s : State) (l : Loc) (bs : List Byte) :
    (s.putBytes l bs).cores = s.cores ∧ (s.putBytes l bs).parts = s.parts ∧ (s.putBytes l bs).ctrs = s.ctrs ∧
      (s.putBytes l bs).offers = s.offers := by
  induction bs generalizing s l with
  | nil => exact ⟨rfl, rfl, rfl, rfl⟩
  | cons b bs ih =>
    obtain ⟨hcores, hparts, hctrs, hoffers⟩ := ih (s.putByte l b) ⟨l.sp, l.addr + 1⟩
    rw [State.putBytes, hcores, hparts, hctrs, hoffers]
    obtain ⟨sp, a⟩ := l
    cases sp with
    | ctl => simp only [State.putByte]; split <;> exact ⟨rfl, rfl, rfl, rfl⟩
    | _ => exact ⟨rfl, rfl, rfl, rfl⟩

/-! ### A released store (R86, R102, R108) -/

/-- Beside its bytes, a write changes no more than the dies (R108, R366). -/
theorem writeAt_bytes (s : State) (die : Nat) (l : Loc) (bs : List Byte) :
    writeAt s die l bs = { s.putBytes l bs with dies := (writeAt s die l bs).dies } := by
  rw [writeAt, wakeHome]
  split
  · rw [wakeDie_dies]; rfl
  · rfl

/-- Beside its bytes, a store changes no more than the dies and the storing mill's cache (R86). -/
theorem storeHome_bytes (s : State) (c : Nat) (l : Loc) (bs : List Byte) (hint : Nat) :
    storeHome s c l bs hint = { s.putBytes l bs with dies := (storeHome s c l bs hint).dies, mills := (storeHome s c l bs hint).mills } := by
  have hwrite := writeAt_bytes s (coreDie c) l bs
  simp only [storeHome]
  split
  · split
    · rw [hwrite]
    · rw [hwrite]; rfl
  · rw [hwrite]

/-- The drain of a store (R102): its bytes stand, and beside them no more changes than the entries that drain, the dies, the caches and the
agenda. -/
theorem execReleaseBufferDrain_write {s : State} {c hint : Nat} {l : Loc} {bs : List Byte} {es : List BufEnt}
    (hd : (s.core c).drain = .write l bs hint :: es) (hoff : s.offers = []) :
    ∃ dies mills agenda,
      execReleaseBufferDrain c s =
        .next { (s.onCore c fun x => { x with drain := es }).putBytes l bs with dies := dies, mills := mills, agenda := agenda } := by
  have hstore := storeHome_bytes (s.onCore c fun x => { x with drain := es }) c l bs hint
  obtain ⟨-, -, -, hoffers⟩ := putBytes_frame (s.onCore c fun x => { x with drain := es }) l bs
  have hnone : (entryPerformed s c (.write l bs hint) es).offers = [] := (congrArg State.offers hstore).trans (hoffers.trans hoff)
  obtain ⟨agenda, hend⟩ := offerAll_afterDrain c (s.core c).drainBy.ctx hnone
  exact ⟨_, _, agenda, (execReleaseBufferDrain_cons hd).trans
    (congrArg Host.Outcome.next (hend.trans (congrArg (fun t : State => { t with agenda := agenda }) hstore)))⟩

/-- Settles O35: landings by their fold, a drain by what its oldest entry does, a released store by the bytes it puts. -/
theorem landingsAndDrainsComplete : Obligations.LandingsAndDrainsComplete := by
  refine ⟨fun s c => ⟨?landing, execReleaseBufferDrain_nil, fun e es hd => ⟨fun hlast => ?last, fun hmore => ?more⟩⟩,
    fun s c hint l bs es hd hoff hwf hl => ?store⟩
  case landing => exact congrArg (fun x => Host.Outcome.next (s.setCore c x)) (landDue_eq (s.core c))
  case last => exact (execReleaseBufferDrain_cons hd).trans (congrArg (fun t => Host.Outcome.next (offerAll t)) (if_pos hlast))
  case more => exact (execReleaseBufferDrain_cons hd).trans (congrArg (fun t => Host.Outcome.next (offerAll t)) (if_neg hmore))
  case store =>
    obtain ⟨dies, mills, agenda, hexec⟩ := execReleaseBufferDrain_write hd hoff
    obtain ⟨hcores, hparts, hctrs, -⟩ := putBytes_frame (s.onCore c fun x => { x with drain := es }) l bs
    have hcore := (core_congr hcores c).trans (onCore_core s c fun x => { x with drain := es })
    exact ⟨_, hexec, fun k hk => byteAt_putBytes_inside bs hwf hl hk, fun p hp hout => byteAt_putBytes_outside bs hwf hl hp hout, hparts, hctrs,
      (congrArg Core.live hcore :), (congrArg Core.drain hcore :)⟩

end Sys2Proof.Machine

namespace Sys2Proof.Machine

/-! ### What an event leaves to be offered (R447) -/

/-- With no fault left to offer, the end of an event asks for the invalidations that wait, and does no more. -/
theorem offerAll_none {s : State} (h : s.offers = []) : offerAll s = askInvals s := by
  rw [offerAll, h, List.foldl_nil, ← h]

/-! ### Adds (R121, R123, R127, R350) -/

theorem doAdd_home {s : State} {h : Nat} (hhome : isRemote h = false) (a : Nat) (by_ : Issuer) (slot : Nat) :
    doAdd s h a by_ slot = applyAdd s (ownHandle h) a := by
  simp [doAdd, hhome]

/-- An update that takes no waiter of its counter from not reached to reached fires none (R127). -/
theorem fires_none {s : State} {h : Nat} {v vn : Word}
    (hsame : ∀ w ∈ s.waiters, ctrKey w.h = ctrKey h → reached v (BitVec.ofNat 64 w.threshold) = reached vn (BitVec.ofNat 64 w.threshold)) :
    ∀ w ∈ s.waiters, fires h v vn w = false := by
  intro w hw
  by_cases hkey : ctrKey w.h = ctrKey h
  · rw [fires, hsame w hw hkey, Bool.and_assoc, Bool.not_and_self, Bool.and_false]
  · rw [fires, beq_false_of_ne hkey, Bool.false_and, Bool.false_and]

/-- An add to a counter that is no doorbell, and that fires no waiter, changes that counter alone. -/
theorem applyAdd_quiet {s : State} {h a : Nat} (hbell : hKind h ≠ 3)
    (hquiet : ∀ w ∈ s.waiters, fires h (s.ctr h) (s.ctr h + BitVec.ofNat 64 a) w = false) :
    applyAdd s h a = s.setCtr h (s.ctr h + BitVec.ofNat 64 a) := by
  have hfired : s.waiters.filter (fires h (s.ctr h) (s.ctr h + BitVec.ofNat 64 a)) = [] :=
    List.filter_eq_nil_iff.mpr fun w hw => by simp [hquiet w hw]
  have hkept : s.waiters.filter (fun w => !fires h (s.ctr h) (s.ctr h + BitVec.ofNat 64 a) w) = s.waiters :=
    List.filter_eq_self.mpr fun w hw => by simp [hquiet w hw]
  rw [applyAdd, setCtr_waiters, hfired, hkept, List.foldl_nil, ringBells, if_pos (by simpa using hbell)]
  rfl

/-! ### Waiters (R128 to R130) -/

/-- A waiter that sets no flag, and whose threshold is not reached, takes an entry, and its deadline counts from now. -/
theorem armWaiter_waits {s : State} {w : Waiter} (hkind : ∀ j st n, w.kind ≠ .flag j st n)
    (hnot : reached (s.ctr w.h) (BitVec.ofNat 64 w.threshold) = false) :
    armWaiter s w = { s with waiters := s.waiters ++ [{ w with armed := s.cycle }] } := by
  cases hk : w.kind with
  | flag j st n => exact absurd hk (hkind j st n)
  | _ => simp [armWaiter, targetLives, hk, hnot]

theorem removeFlagWaiter_eq (s : State) (ctx strand flag : Nat) :
    removeFlagWaiter s ctx strand flag = { s with waiters := s.waiters.filter fun w => w.kind ≠ .flag ctx strand flag } := by
  simp only [removeFlagWaiter, isFlagOf, ne_eq, decide_not]
  rfl

theorem deadlinePassed_iff {s : State} {ctx strand flag : Nat} {w : Waiter} :
    deadlinePassed s ctx strand flag w = true ↔
      w.kind = .flag ctx strand flag ∧ w.deadline ≠ 0 ∧ w.armed + w.deadline ≤ s.cycle := by
  simp [deadlinePassed, isFlagOf, and_assoc]

theorem execWatchDeadlineExpiry_passed {s : State} {ctx strand flag : Nat}
    (h : ∃ w ∈ s.waiters, w.kind = .flag ctx strand flag ∧ w.deadline ≠ 0 ∧ w.armed + w.deadline ≤ s.cycle) :
    execWatchDeadlineExpiry ctx strand flag s = .next (setFlag (removeFlagWaiter s ctx strand flag) ctx strand flag true 0) := by
  have hany : s.waiters.any (deadlinePassed s ctx strand flag) = true :=
    List.any_eq_true.mpr (h.imp fun w hw => ⟨hw.1, deadlinePassed_iff.mpr hw.2⟩)
  rw [execWatchDeadlineExpiry, if_pos hany]

/-! ### The host's counter window (R120, R122, R441) -/

theorem hostCounterHeld_iff {s : State} {i : Nat} :
    hostCounterHeld s i = true ↔ ∃ p ∈ s.parts, p.2.st ≠ .free ∧ p.2.hostBase ≤ i ∧ i < p.2.hostBase + p.2.hostCnt := by
  simp [hostCounterHeld, and_assoc]

/-- An aligned 8-byte store to a counter that a partition holds adds; an amount of 2^62 or more is refused. -/
theorem execHostCounterStore_held {s : State} {i : Nat} (hi : i < 2 ^ 20) (hheld : hostCounterHeld s i = true) (link value : Nat) :
    execHostCounterStore link (16 * i) 8 value s =
      if 2 ^ 62 ≤ value then .next (refuseHost s link) else .next (offerAll (applyAdd s (hostHandle i) value)) := by
  have hoff : 16 * i / 16 = i := Nat.mul_div_cancel_left i (by decide)
  have hin : ¬ 2 ^ 24 ≤ 16 * i := by omega
  simp only [execHostCounterStore, hoff, hheld, hin, done, bne_self_eq_false, Nat.mul_mod_right, decide_false, Bool.not_true, Bool.or_self,
    Bool.false_eq_true, if_false, decide_eq_true_eq]

/-- Settles O38: adds and arrivals by what offerAll offers when nothing fires, the window's stores by their one equation. -/
theorem counterEventsComplete : Obligations.CounterEventsComplete := by
  refine ⟨fun s h amount by_ hok ha => ?update, fun _ _ _ => rfl, fun s w hok hkind ht => ?arrival,
    fun s ctx strand flag => ⟨?removal, fun h => ?expiry⟩, fun s link i value hi hheld => ?store⟩
  case update =>
    have hexec : exec (.counterUpdate h amount by_) s = .next (offerAll (doAdd s h amount by_ 9)) := if_pos (by simpa [hok] using ha)
    refine ⟨hexec, fun hhome hbell hoff hsame => ?_⟩
    rw [hexec, doAdd_home hhome, applyAdd_quiet hbell (fires_none hsame)]
    exact congrArg Host.Outcome.next (offerAll_none hoff)
  case arrival =>
    have hexec : exec (.waiterArrival w) s = .next (offerAll (armWaiter s w)) := if_pos (by simpa [hok, hkind] using ht)
    refine ⟨hexec, fun hoff hflag hnot => ?_⟩
    rw [hexec, armWaiter_waits hflag hnot]
    exact congrArg Host.Outcome.next (offerAll_none hoff)
  case removal => exact congrArg Host.Outcome.next (removeFlagWaiter_eq s ctx strand flag)
  case expiry =>
    rw [← removeFlagWaiter_eq]
    exact execWatchDeadlineExpiry_passed h
  case store =>
    have hexec := execHostCounterStore_held hi (hostCounterHeld_iff.mpr hheld) link value
    exact ⟨fun hsmall => hexec.trans (if_neg (by omega)), fun hbig => hexec.trans (if_pos hbig)⟩

end Sys2Proof.Machine

namespace Sys2Proof.Machine

/-! ### Bytes written one by one to addresses of their own (R102) -/

/-- Write single bytes, each to its address, in the order of the list. -/
def Memory.writeEach (m : Memory) (xs : List (Nat × Byte)) : Memory := xs.foldl (fun m x => m.write x.1 x.2) m

theorem Memory.read_writeEach_ne {m : Memory} {a : Nat} (xs : List (Nat × Byte)) (hwf : m.wf = true) (h : ∀ x ∈ xs, x.1 ≠ a) :
    (m.writeEach xs).read a = m.read a := by
  induction xs generalizing m with
  | nil => rfl
  | cons x xs ih =>
    obtain ⟨hx, hxs⟩ := List.forall_mem_cons.mp h
    calc
      ((m.write x.1 x.2).writeEach xs).read a = (m.write x.1 x.2).read a := ih (Memory.write_wf x.1 x.2 hwf) hxs
      _ = m.read a := Memory.read_write_ne x.2 hwf hx.symm

/-- Where no address comes twice, each byte reads back. -/
theorem Memory.read_writeEach_mem {m : Memory} {a : Nat} {b : Byte} {xs : List (Nat × Byte)} (hwf : m.wf = true) (honce : (xs.map Prod.fst).Nodup)
    (h : (a, b) ∈ xs) : (m.writeEach xs).read a = b := by
  induction xs generalizing m with
  | nil => exact absurd h List.not_mem_nil
  | cons x xs ih =>
    obtain ⟨hx, hxs⟩ := List.nodup_cons.mp honce
    have hwf' := Memory.write_wf x.1 x.2 hwf
    rcases List.mem_cons.mp h with rfl | h
    · exact (Memory.read_writeEach_ne xs hwf' fun y hy he => hx (List.mem_map.mpr ⟨y, hy, he⟩)).trans (Memory.read_write_same a b hwf)
    · exact ih hwf' hxs h

/-! ### The bytes that the host may reach (R441) -/

/-- The host may reach the byte at an address of its link. -/
def hostMay (s : State) (a : Nat) : Bool := decide (a < deviceWindow) && hostReaches s a

theorem hostMay_iff {s : State} {a : Nat} : hostMay s a = true ↔ a < 2 ^ 40 ∧ hostReaches s a = true := by
  rw [hostMay, Bool.and_eq_true, decide_eq_true_iff]; rfl

/-! ### Host writes (R441) -/

/-- The bytes of a write, each with its address. -/
def addressed (addr : Nat) (data : List Byte) : List (Nat × Byte) := data.zipIdx.map fun x => (addr + x.2, x.1)
/-- Those of them that the host may reach. -/
def hostKept (s : State) (addr : Nat) (data : List Byte) : List (Nat × Byte) := (addressed addr data).filter fun x => hostMay s x.1

/-- Some byte of a write is one that the host may not reach. -/
def hostRefused (s : State) (addr : Nat) (data : List Byte) : Bool :=
  (addressed addr data).any fun x => decide (x.1 < deviceWindow) && !hostReaches s x.1

theorem mem_addressed {addr : Nat} {data : List Byte} {x : Nat × Byte} :
    x ∈ addressed addr data ↔ ∃ k, data[k]? = some x.2 ∧ x.1 = addr + k := by
  obtain ⟨a, b⟩ := x
  simp only [addressed, List.mem_map, Prod.exists, List.mk_mem_zipIdx_iff_getElem?, Prod.mk.injEq]
  exact ⟨fun ⟨_, k, hk, ha, hb⟩ => ⟨k, hb ▸ hk, ha.symm⟩, fun ⟨k, hk, ha⟩ => ⟨b, k, hk, ha.symm, rfl⟩⟩

theorem addressed_nodup (addr : Nat) (data : List Byte) : ((addressed addr data).map Prod.fst).Nodup := by
  have hfst : (addressed addr data).map Prod.fst = (List.range' 0 data.length).map (addr + ·) := by
    rw [← List.zipIdx_map_snd 0 data, addressed, List.map_map, List.map_map]; rfl
  rw [hfst]
  exact List.Nodup.map (add_right_injective addr) List.nodup_range'

theorem hostRefused_none {s : State} {addr : Nat} {data : List Byte} (h : ∀ k, k < data.length → hostReaches s (addr + k) = true) :
    hostRefused s addr data = false :=
  List.any_eq_false.mpr fun x hx => by
    obtain ⟨k, hget, hxk⟩ := mem_addressed.mp hx
    simp [hxk, h k (List.getElem?_eq_some_iff.mp hget).1]

/-- The state after bytes of a host write have been stored, as execHostMemoryWrite stores them. -/
def hostStored (s : State) (ok : List (Nat × Byte)) : State :=
  wakeDies
    (((ok.map fun x => x.1 / 128).eraseDups.filter fun n => (ok.filter fun x => x.1 / 128 == n).length == 128).foldl
      (fun t n => t.setForm ⟨.hbm, 128 * n⟩ false) (ok.foldl (fun t x => t.putByte ⟨.hbm, x.1⟩ x.2) s))
    (ok.map (·.1))

theorem execHostMemoryWrite_device {addr : Nat} (h : addr < 2 ^ 40) (s : State) (link : Nat) (data : List Byte) :
    execHostMemoryWrite link addr data s =
      .next (countRefusal (hostStored s (hostKept s addr data)) link (hostRefused s addr data)) :=
  if_neg (Nat.not_le.mpr h)

/-- The state without the dies, and without what HBM holds and in which form. -/
def State.offLines (s : State) : State := { s.offHbm with hbmForm := [] }

theorem wakeDies_hbm (s : State) (as : List Nat) : (wakeDies s as).hbm = s.hbm :=
  foldl_keeps (·.hbm) _ (fun t d => by rw [wakeDie_dies]) _ s
theorem wakeDies_offLines (s : State) (as : List Nat) : (wakeDies s as).offLines = s.offLines :=
  foldl_keeps State.offLines _ (fun t d => by rw [wakeDie_dies]; rfl) _ s

theorem hostStored_hbm (s : State) (ok : List (Nat × Byte)) : (hostStored s ok).hbm = s.hbm.writeEach ok :=
  calc
    (hostStored s ok).hbm = (ok.foldl (fun t x => t.putByte ⟨.hbm, x.1⟩ x.2) s).hbm :=
      (wakeDies_hbm _ _).trans (foldl_keeps State.hbm (fun t n => t.setForm ⟨.hbm, 128 * n⟩ false) (fun _ _ => rfl) _ _)
    _ = s.hbm.writeEach ok := (List.foldl_hom State.hbm fun _ _ => rfl).symm

theorem hostStored_offLines (s : State) (ok : List (Nat × Byte)) : (hostStored s ok).offLines = s.offLines :=
  calc
    (hostStored s ok).offLines = (ok.foldl (fun t x => t.putByte ⟨.hbm, x.1⟩ x.2) s).offLines :=
      (wakeDies_offLines _ _).trans (foldl_keeps State.offLines (fun t n => t.setForm ⟨.hbm, 128 * n⟩ false) (fun _ _ => rfl) _ _)
    _ = s.offLines := foldl_keeps State.offLines (fun t x => t.putByte ⟨.hbm, x.1⟩ x.2) (fun _ _ => rfl) ok s

theorem countRefusal_hbm (s : State) (link : Nat) (bad : Bool) : (countRefusal s link bad).hbm = s.hbm := by cases bad <;> rfl
/-- The state without the dies, the lines of HBM and the counts of refusals. -/
def State.offHost (s : State) : State := { s.offLines with hostRefusals := [] }
theorem countRefusal_offHost (s : State) (link : Nat) (bad : Bool) : (countRefusal s link bad).offHost = s.offHost := by cases bad <;> rfl

theorem read_hostStored_kept {s : State} {addr k : Nat} {data : List Byte} (hwf : s.memWf = true) (hk : k < data.length)
    (hmay : addr + k < 2 ^ 40 ∧ hostReaches s (addr + k) = true) :
    (hostStored s (hostKept s addr data)).hbm.read (addr + k) = data.getD k 0 := by
  have hget : data[k]? = some (data.getD k 0) := by rw [List.getD_eq_getElem data 0 hk, List.getElem?_eq_getElem hk]
  have honce : ((hostKept s addr data).map Prod.fst).Nodup := (addressed_nodup addr data).sublist (List.filter_sublist.map _)
  rw [hostStored_hbm]
  exact Memory.read_writeEach_mem (memory_wf hwf .hbm) honce (List.mem_filter.mpr ⟨mem_addressed.mpr ⟨k, hget, rfl⟩, hostMay_iff.mpr hmay⟩)

theorem read_hostStored_other {s : State} {addr a : Nat} {data : List Byte} (hwf : s.memWf = true)
    (h : ∀ k, k < data.length → addr + k = a → ¬ (a < 2 ^ 40 ∧ hostReaches s a = true)) :
    (hostStored s (hostKept s addr data)).hbm.read a = s.hbm.read a := by
  rw [hostStored_hbm]
  refine Memory.read_writeEach_ne _ (memory_wf hwf .hbm) fun x hx ha => ?_
  obtain ⟨hput, hmay⟩ := List.mem_filter.mp hx
  obtain ⟨k, hget, hxk⟩ := mem_addressed.mp hput
  exact h k (List.getElem?_eq_some_iff.mp hget).1 (hxk.symm.trans ha) (ha ▸ hostMay_iff.mp hmay)

/-! ### Host reads (R122, R441) -/

/-- The addresses of a read. -/
def hostSpan (addr len : Nat) : List Nat := (List.range len).map (addr + ·)
/-- The state after the bytes at some addresses have been read, as execHostMemoryRead reads them. -/
def hostGiven (s : State) (link : Nat) (as : List Nat) : State :=
  countRefusal (wakeDies (s.emit (.hostRead (as.map fun a => if hostMay s a then s.hbm.read a else 0xFF))) (as.filter (hostMay s))) link
    (as.any fun a => !hostMay s a)

theorem execHostMemoryRead_device {addr : Nat} (h : addr < 2 ^ 40) (s : State) (link len : Nat) :
    execHostMemoryRead link addr len s = .next (hostGiven s link (hostSpan addr len)) :=
  if_neg (Nat.not_le.mpr h)

theorem mem_hostSpan {addr len a : Nat} : a ∈ hostSpan addr len ↔ ∃ k, k < len ∧ addr + k = a := by
  simp [hostSpan]

theorem hostGiven_all {s : State} {as : List Nat} (h : ∀ a ∈ as, hostMay s a = true) (link : Nat) :
    hostGiven s link as = wakeDies (s.emit (.hostRead (as.map s.hbm.read))) as := by
  have hbytes : as.map (fun a => if hostMay s a then s.hbm.read a else 0xFF) = as.map s.hbm.read :=
    List.map_congr_left fun a ha => if_pos (h a ha)
  have hbad : (as.any fun a => !hostMay s a) = false := List.any_eq_false.mpr fun a ha => by simp [h a ha]
  rw [hostGiven, hbytes, List.filter_eq_self.mpr h, hbad]
  rfl

theorem hostGiven_none {s : State} {as : List Nat} (hne : as ≠ []) (h : ∀ a ∈ as, hostMay s a = false) (link : Nat) :
    hostGiven s link as = refuseHost (s.emit (.hostRead (List.replicate as.length 0xFF))) link := by
  have hbytes : as.map (fun a => if hostMay s a then s.hbm.read a else 0xFF) = List.replicate as.length 0xFF :=
    (List.map_congr_left fun a ha => if_neg (by simp [h a ha])).trans (List.map_const' ..)
  have hkept : as.filter (hostMay s) = [] := List.filter_eq_nil_iff.mpr fun a ha => by simp [h a ha]
  obtain ⟨a, ha⟩ := List.exists_mem_of_ne_nil as hne
  have hbad : (as.any fun a => !hostMay s a) = true := List.any_eq_true.mpr ⟨a, ha, by simp [h a ha]⟩
  rw [hostGiven, hbytes, hkept, hbad]
  rfl

theorem execHostMemoryRead_counter {s : State} {i : Nat} (hi : i < 2 ^ 20) (hheld : hostCounterHeld s i = true) (link : Nat) :
    execHostMemoryRead link (2 ^ 40 + 16 * i) 8 s = .next (s.emit (.hostRead (natLE 8 (s.ctr (hostHandle i)).toNat))) := by
  have hoff : 2 ^ 40 + 16 * i - deviceWindow = 16 * i := Nat.add_sub_cancel_left ..
  have hindex : 16 * i / 16 = i := Nat.mul_div_cancel_left i (by decide)
  have hin : 16 * i < 2 ^ 24 := by omega
  have hwindow : deviceWindow ≤ 2 ^ 40 + 16 * i := Nat.le_add_right ..
  simp only [execHostMemoryRead, hwindow, hoff, hindex, hin, hheld, Nat.mul_mod_right, beq_self_eq_true, decide_true, Bool.and_self, if_true]

/-! ### The debugger and the owner's key (R364, R423, R427) -/

theorem execDebuggerHalt_live {s : State} {ctx : Nat} (h : (s.job ctx).phase ≠ .ended) (on : Bool) :
    execDebuggerHalt ctx on s = .next ((noteWatch s ctx).setJob ctx { (noteWatch s ctx).job ctx with halted := on }) :=
  if_neg (by simpa using h)

theorem execServiceKeyHashInstall_waits {s : State} (h : s.mgmtWaits = true) (pid : Nat) (hash : List Byte) :
    execServiceKeyHashInstall pid hash s = .next (waitReq s ⟨opKeyHash, 0, [pid], hash⟩) :=
  if_pos h
theorem execServiceKeyHashInstall_now {s : State} (h : s.mgmtWaits = false) (pid : Nat) (hash : List Byte) :
    execServiceKeyHashInstall pid hash s = .next (installKeyHash s pid hash) := by
  have hfits : ([pid] == misfit) = false := by simp [misfit]
  simp only [execServiceKeyHashInstall, Request.run, h, hfits, Bool.false_eq_true, if_false, beq_self_eq_true, if_true, List.getD_cons_zero]
theorem installKeyHash_open {s : State} {pid : Nat} {hash : List Byte} (hst : (s.part pid).st = .configured ∨ (s.part pid).st = .active)
    (hlen : hash.length = 48) : installKeyHash s pid hash = s.setPart pid { s.part pid with svcHash := hash } :=
  if_pos (by simpa [Partition.open_, hlen] using hst)

/-- Settles O52: a write by the bytes of it that the host may reach, a read by what it may reach of all its bytes. -/
theorem hostAndModuleEventsComplete : Obligations.HostAndModuleEventsComplete := by
  refine ⟨fun s link off data => ?window, fun s link addr data hwf haddr => ?write,
    fun s link addr len => ⟨fun hend hlen => ⟨fun hall => ?readAll, fun hnone => ?readNone⟩, fun i hi hheld => ?readCounter, rfl⟩,
    fun s die ctx pid on hash => ⟨rfl, rfl, fun hlive => ?halt, fun hwaits => ?keyWaits, fun hnow hst hlen => ?key⟩⟩
  case window =>
    refine (if_pos (Nat.le_add_right ..)).trans ?_
    rw [show 2 ^ 40 + off - deviceWindow = off from Nat.add_sub_cancel_left ..]
    rfl
  case write =>
    have hstored := hostStored_offLines s (hostKept s addr data)
    have hframe := (countRefusal_offHost _ link (hostRefused s addr data)).trans
      (congrArg (fun t : State => { t with hostRefusals := [] }) hstored)
    refine ⟨_, execHostMemoryWrite_device haddr s link data, fun k hk hmay => ?_, fun k _ hnot => ?_, fun a hout => ?_, fun hall => ?_,
      (congrArg State.cores hframe :), (congrArg State.parts hframe :), (congrArg State.ctrs hframe :), (congrArg State.banks hframe :),
      (congrArg State.hostMem hframe :)⟩
    · rw [countRefusal_hbm, read_hostStored_kept hwf hk hmay]
    · rw [countRefusal_hbm, read_hostStored_other hwf fun _ _ _ => hnot]
    · rw [countRefusal_hbm, read_hostStored_other hwf fun _ _ _ => by omega]
    · rw [hostRefused_none fun k hk => (hall k hk).2]
      exact (congrArg State.hostRefusals hstored :)
  case readAll =>
    have hgiven := hostGiven_all (s := s) (as := hostSpan addr len) (fun a ha => by
      obtain ⟨k, hk, rfl⟩ := mem_hostSpan.mp ha
      exact hostMay_iff.mpr ⟨by omega, hall k hk⟩) link
    rw [hostSpan, List.map_map] at hgiven
    exact (execHostMemoryRead_device (by omega) s link len).trans (congrArg Host.Outcome.next hgiven)
  case readNone =>
    have hgiven : hostGiven s link (hostSpan addr len) = _ :=
      hostGiven_none (List.ne_nil_of_mem (mem_hostSpan.mpr ⟨0, hlen, rfl⟩)) (fun a ha => by
        obtain ⟨k, hk, rfl⟩ := mem_hostSpan.mp ha
        rw [hostMay, hnone k hk, Bool.and_false]) link
    rw [hostSpan, List.length_map, List.length_range] at hgiven
    exact (execHostMemoryRead_device (by omega) s link len).trans (congrArg Host.Outcome.next hgiven)
  case readCounter => exact execHostMemoryRead_counter hi hheld link
  case halt => exact execDebuggerHalt_live hlive on
  case keyWaits => exact execServiceKeyHashInstall_waits hwaits pid hash
  case key => exact (execServiceKeyHashInstall_now hnow pid hash).trans (congrArg Host.Outcome.next (installKeyHash_open hst hlen))

end Sys2Proof.Machine

namespace Sys2Proof.Machine

/-! ### Scalar loads and stores (R247 to R249) -/

/-- The sizes and extensions of LDS by FN (R249); a store has the size of the signed load of its FN. -/
def LoadForm (fn n : Nat) (signed : Bool) : Prop :=
  (fn, n, signed) ∈ [(0, 8, true), (1, 4, true), (2, 4, false), (3, 2, true), (4, 2, false), (5, 1, true), (6, 1, false)]

theorem loadForm_iff {fn n : Nat} {signed : Bool} :
    LoadForm fn n signed ↔ fn < 7 ∧ n = lsSize fn ∧ signed = !(fn == 2 || fn == 4 || fn == 6) := by
  constructor
  · intro h
    simp only [LoadForm, List.mem_cons, Prod.mk.injEq, List.not_mem_nil, or_false] at h
    rcases h with h | h | h | h | h | h | h <;> obtain ⟨rfl, rfl, rfl⟩ := h <;> decide
  · rintro ⟨h, rfl, rfl⟩
    unfold LoadForm
    interval_cases fn <;> decide

/-- The number that w bits hold as a signed one. -/
theorem sint_eq_toInt {w : Nat} (hw : 0 < w) (x : Nat) : sint w x = (BitVec.ofNat w x).toInt := by
  have hp : 2 ^ w = 2 * 2 ^ (w - 1) := by rw [← Nat.pow_succ', Nat.succ_eq_add_one, Nat.sub_add_cancel hw]
  rw [sint, BitVec.toInt_eq_toNat_cond, BitVec.toNat_ofNat]
  push_cast
  split <;> split <;> omega

/-- The register value of loaded bytes, by the extension of FN (R249). -/
theorem loadedValue_of_loadForm {fn n : Nat} {signed : Bool} (h : LoadForm fn n signed) (x : Nat) :
    loadedValue fn x = if signed then (BitVec.ofNat (8 * n) x).signExtend 64 else BitVec.ofNat 64 x := by
  obtain ⟨hfn, rfl, rfl⟩ := loadForm_iff.mp h
  have hpos : 0 < 8 * lsSize fn := by interval_cases fn <;> decide
  rw [loadedValue, sint_eq_toInt hpos]
  cases (fn == 2 || fn == 4 || fn == 6) <;> rfl

/-- An access outside the control window is one of memory. -/
theorem anyCtl_false {ps : List Piece} (h : ∀ p ∈ ps, p.loc.sp ≠ .ctl) : anyCtl ps = false := by
  simpa [anyCtl] using h

/-- The stores of an access join the effects, and nothing else changes (R248). -/
theorem storeEffs_cur (s : State) (hint : Nat) (ps : List Piece) (bs : List Byte) :
    storeEffs s hint ps bs = { s with cur := (storeEffs s hint ps bs).cur } := by
  induction ps generalizing s bs with
  | nil => rfl
  | cons p ps ih => exact (ih (addEff s (.store p.loc (bs.take p.len) hint)) (bs.drop p.len)).trans rfl

/-- Every memory is the same in two states. -/
def State.SameMemory (s t : State) : Prop := t.hbm = s.hbm ∧ t.banks = s.banks ∧ t.hostMem = s.hostMem ∧ t.mcram = s.mcram

theorem State.SameMemory.trans {s t u : State} (h : s.SameMemory t) (k : t.SameMemory u) : s.SameMemory u := by
  obtain ⟨h1, h2, h3, h4⟩ := h
  obtain ⟨k1, k2, k3, k4⟩ := k
  exact ⟨k1.trans h1, k2.trans h2, k3.trans h3, k4.trans h4⟩

/-- What an access of the issuing core may change is no memory. -/
theorem sameMemory_of_offAccess {s t : State} (h : t.offAccess = s.offAccess) : s.SameMemory t :=
  ⟨(congrArg State.hbm h :), (congrArg State.banks h :), (congrArg State.hostMem h :), (congrArg State.mcram h :)⟩

/-- Sources read, pages kept and bytes noted change no memory, nor do the stores that join the effects (R248). -/
theorem storeEffs_sameMemory (s : State) (slot hint : Nat) (codes : List Nat) (es : List TlbEnt) (ps : List Piece) (bs : List Byte) :
    s.SameMemory (storeEffs (noteTouched (keepPages (reads (s.atSlot slot) codes) s.cur.core es) ps true) hint ps bs) := by
  have hreads : s.SameMemory (reads (s.atSlot slot) codes) := by rw [reads_cores]; exact ⟨rfl, rfl, rfl, rfl⟩
  have hpages := keepPages_offAccess (reads (s.atSlot slot) codes) es
  rw [reads_cur, atSlot_cur_core] at hpages
  refine (hreads.trans (sameMemory_of_offAccess ((noteTouched_offAccess _ ps true).trans hpages))).trans ?_
  rw [storeEffs_cur]
  exact ⟨rfl, rfl, rfl, rfl⟩

section
variable {f : F3} {s : State} {n : Nat} {es : List TlbEnt} (hi : Issues 2 f.g s)
include hi

theorem execLds_loads {signed : Bool} {ps : List Piece} (hn : LoadForm f.fn n signed) (hps : ∀ p ∈ ps, p.loc.sp ≠ .ctl)
    (hr : Reaches (reads (s.atSlot 2) [f.a, f.b]) (effAddr s (s.srcS 2 f.a) (s.srcS 2 f.b) (lOff f)) n 0 .read false ps es) :
    let r := loadNow (keepPages (reads (s.atSlot 2) [f.a, f.b]) s.cur.core es) (lHint f) ps
    execLds f s = .next (addLanding r.2.2 (landS 2 f.d
      (if signed then (BitVec.ofNat (8 * n) (leNat r.1)).signExtend 64 else BitVec.ofNat 64 (leNat r.1)) r.2.1)) := by
  obtain ⟨-, rfl, -⟩ := loadForm_iff.mp hn
  intro r
  rw [execLds, slotOp_issues hi]
  simp only [lAddr_reads]
  rw [withAccess_reaches hr, anyCtl_false hps, giveS_eq, loadedValue_of_loadForm hn, reads_cur]
  rfl

theorem execLds_control {signed : Bool} {p : Piece} (hn : LoadForm f.fn n signed) (hp : p.loc.sp = .ctl)
    (hr : Reaches (reads (s.atSlot 2) [f.a, f.b]) (effAddr s (s.srcS 2 f.a) (s.srcS 2 f.b) (lOff f)) n 0 .read false [p] es) :
    execLds f s = .next ((keepPages (reads (s.atSlot 2) [f.a, f.b]) s.cur.core es).withEff (.ctlLoad p.loc.addr n f.fn f.d)) := by
  obtain ⟨-, rfl, -⟩ := loadForm_iff.mp hn
  rw [execLds, slotOp_issues hi]
  simp only [lAddr_reads]
  rw [withAccess_reaches hr, if_pos (by simp [anyCtl, hp]), reads_cur]
  rfl

theorem execSts_stores {ps : List Piece} (hn : LoadForm f.fn n true) (hps : ∀ p ∈ ps, p.loc.sp ≠ .ctl)
    (hr : Reaches (reads (s.atSlot 2) [f.a, f.b, f.d]) (effAddr s (s.srcS 2 f.a) (s.srcS 2 f.b) (lOff f)) n 0 .write false ps es) :
    execSts f s = .next (storeEffs (noteTouched (keepPages (reads (s.atSlot 2) [f.a, f.b, f.d]) s.cur.core es) ps true) (lHint f) ps
      (natLE n (s.srcS 2 f.d).toNat)) := by
  obtain ⟨-, rfl, -⟩ := loadForm_iff.mp hn
  rw [execSts, slotOp_issues hi]
  simp only [lAddr_reads]
  rw [withAccess_reaches hr, anyCtl_false hps, reads_cur, reads_sval]
  rfl

theorem execSts_control {p : Piece} (hn : LoadForm f.fn n true) (hp : p.loc.sp = .ctl)
    (hr : Reaches (reads (s.atSlot 2) [f.a, f.b, f.d]) (effAddr s (s.srcS 2 f.a) (s.srcS 2 f.b) (lOff f)) n 0 .write false [p] es) :
    execSts f s = .next ((keepPages (reads (s.atSlot 2) [f.a, f.b, f.d]) s.cur.core es).withEff
      (.ctlStore p.loc.addr n ((s.srcS 2 f.d).toNat % 2 ^ (8 * n)))) := by
  obtain ⟨-, rfl, -⟩ := loadForm_iff.mp hn
  rw [execSts, slotOp_issues hi]
  simp only [lAddr_reads]
  rw [withAccess_reaches hr, if_pos (by simp [anyCtl, hp]), reads_cur, reads_sval]
  rfl
end

/-- The sizes of LDS and of STS by FN (R249). -/
theorem loadForm_of_load {fn n : Nat} (h : (fn, n) ∈ [(0, 8), (1, 4), (2, 4), (3, 2), (4, 2), (5, 1), (6, 1)]) :
    ∃ signed, LoadForm fn n signed := by
  simp only [List.mem_cons, Prod.mk.injEq, List.not_mem_nil, or_false] at h
  rcases h with h | h | h | h | h | h | h <;> obtain ⟨rfl, rfl⟩ := h <;> exact ⟨_, loadForm_iff.mpr ⟨by decide, rfl, rfl⟩⟩
theorem loadForm_of_store {fn n : Nat} (h : (fn, n) ∈ [(0, 8), (1, 4), (3, 2), (5, 1)]) : LoadForm fn n true := by
  simp only [List.mem_cons, Prod.mk.injEq, List.not_mem_nil, or_false] at h
  rcases h with h | h | h | h <;> obtain ⟨rfl, rfl⟩ := h <;> exact loadForm_iff.mpr (by decide)

/-- Settles O20: the gate and the access pass; a load delivers or stands for the control window, a store joins the effects piece by piece. -/
theorem scalarLoadsAndStoresComplete : Obligations.ScalarLoadsAndStoresComplete := by
  refine ⟨fun f s ps es hi hps => ⟨fun n signed hn hr => execLds_loads hi hn hps hr, fun n hn hr => ?store⟩,
    fun f s p es hi hp => ⟨fun n hn hr => ?controlLoad, fun n hn hr => execSts_control hi (loadForm_of_store hn) hp hr⟩,
    fun s c off n fn d val => ⟨rfl, rfl⟩, fun s hint p ps bs => ⟨rfl, rfl⟩⟩
  case store =>
    have h := execSts_stores hi (loadForm_of_store hn) hps hr
    refine ⟨h, fun t ht => ?_⟩
    obtain rfl := Host.Outcome.next.inj (h.symm.trans ht)
    exact storeEffs_sameMemory s 2 (lHint f) _ es ps _
  case controlLoad =>
    obtain ⟨signed, hform⟩ := loadForm_of_load hn
    exact execLds_control hi hform hp hr

end Sys2Proof.Machine

namespace Sys2Proof.Machine

/-! ### Commands that are held at issue (R280 to R282, R284, R316, R432) -/

/-- A command whose regions its engine may reach is held (R280, R432). -/
theorem holdEngine_holds {e : ECmd} (h : Holdable e) (t : State) : holdEngine t e = t.holds e := by
  have hnone : (if e.core == mgmtCore then (e.reads ++ e.writes).find? outsideMcram else none) = none := by
    split
    · next hc => exact List.find?_eq_none.mpr fun r hr => by rw [h (by simpa [mgmtCore] using hc) r hr]; decide
    · rfl
  rw [holdEngine, hnone]
  rfl

/-- A channel with a free entry takes the command (R284). -/
theorem withQueue_room {s : State} {chan : Nat} (h : heldCount s (s.cur.core / 2) chan < 16) (k : State → State) : withQueue s chan k = k s :=
  if_pos h

/-- An operation that reads one more source still issues on the same core, for the same context. -/
theorem keepsIssue_reads {s t : State} (h : s.KeepsIssue t) (codes : List Nat) : s.KeepsIssue (reads t codes) :=
  h.trans (reads_keepsIssue t t.cur.slot codes)

/-- The state after D is read at issue: no read for 63 (R173). seenAt is this behind the reads of the other sources. -/
def readD (t : State) (d : Nat) : State := if d = 63 then t else reads t [d]

theorem readD_keepsIssue {s t : State} (h : s.KeepsIssue t) (d : Nat) : s.KeepsIssue (readD t d) := by
  rw [readD]; split
  · exact h
  · exact keepsIssue_reads h _
theorem readD_dies (t : State) (d : Nat) : (readD t d).dies = t.dies := by
  rw [readD]; split
  · rfl
  · rw [reads_cores]
theorem readD_graphSlot (t : State) (d die slot : Nat) : (readD t d).graphSlot die slot = t.graphSlot die slot :=
  (congrArg (fun ds : Table Die => tget none (tget {} ds die).graphs slot) (readD_dies t d) :)

/-- The completion handle that D names, where its check passes (R118 to R123). -/
theorem withD_passes {s t : State} {d inc : Nat} {h : Option Nat} (hk : s.KeepsIssue t) (hv : t.sval d = s.srcS 6 d) (hh : handleAt s d inc h)
    (k : State → Option Nat → State) : withD t d inc k = k (readD t d) h := by
  rcases hh with ⟨h63, rfl⟩ | ⟨h63, rfl, hc⟩
  · rw [withD_none _ _ h63, readD, if_pos h63]
  · rw [withD, if_neg (by simpa using h63), readD, if_neg h63]
    simp only [reads_sval, hv]
    exact withHandle_passes (keepsIssue_reads hk _) hc _

/-- What an access may change is no source of the operation. -/
theorem sval_of_offAccess {s t : State} (h : t.offAccess = s.offAccess) (d : Nat) : t.sval d = s.sval d := by
  have hslot : t.cur.slot = s.cur.slot := (congrArg (fun u : State => u.cur.slot) h :)
  rw [State.sval, State.sval, live_of_offAccess h, hslot]
theorem loadedDesc_reads_sval (s : State) (codes : List Nat) (ps : List Piece) (es : List TlbEnt) (d : Nat) :
    (loadedDesc (reads (s.atSlot 6) codes) s.cur.core ps es).1.sval d = s.srcS 6 d := by
  have h := loadedDesc_offAccess (reads (s.atSlot 6) codes) ps es
  rw [reads_cur, atSlot_cur_core] at h
  rw [sval_of_offAccess h, reads_sval, atSlot_sval]

/-- A command that draws takes the next word of the range (R316). -/
theorem popCommand_draws {s t : State} {sto : Bool} {w : Word} (h : DrawsCommand s sto t w) (k : State → Word → State) :
    popCommand s sto k = k t w := by
  rcases h with ⟨rfl, rfl, rfl⟩ | ⟨rfl, -, hd, hr, rfl, rfl⟩
  · rfl
  · exact popRandom_pops (s := { s with cur := { s.cur with pops := 1 } }) hd hr k

/-! ### CPY and CPY.D (R283, R284) -/

/-- A CPY command with its fields (R283). -/
def cpyCommand (t : State) (f : F3) (src dst rowBytes rows : Nat) (sp dp : Int) (handle : Option Nat) (inc : Nat) : ECmd :=
  { newEngine t .cpy with
    chan := cChan f, slack := cSlack f, src := src, dst := dst, rowBytes := rowBytes, rows := rows, spitch := sp, dpitch := dp,
    handle := handle, inc := inc, reads := [region t.cur.core (rowsExtent src sp rows rowBytes)],
    writes := [region t.cur.core (rowsExtent dst dp rows rowBytes)] }

theorem issueCpy_holds {s t : State} {f : F3} {src dst rowBytes rows inc : Nat} {sp dp : Int} {handle : Option Nat} (hk : s.KeepsIssue t) :
    let e := cpyCommand t f (stepVa s src) (stepVa s dst) rowBytes rows sp dp handle inc
    heldCount t (s.cur.core / 2) (cChan f) < 16 → Holdable e →
    issueCpy t f (stepVa t src) (stepVa t dst) rowBytes rows sp dp handle inc = t.holds e := by
  intro e hroom hh
  rw [stepVa_keeps hk, stepVa_keeps hk]
  exact (withQueue_room (by rw [hk.core]; exact hroom) _).trans (holdEngine_holds hh t)

/-- One row is its own extent (R281). -/
theorem rowsExtent_row {base : Nat} (h : base < 2 ^ 64) (n : Nat) : rowsExtent base 0 1 n = (base, n) := by
  simp only [rowsExtent, zero_mul, add_zero, min_self, max_self]
  exact Prod.ext (by omega) (by omega)
theorem stepVa_lt (s : State) (va : Nat) : stepVa s va < 2 ^ 64 := by
  rw [stepVa]; omega

section
variable {f : F3} {s : State} {h : Option Nat} (hi : Issues 6 f.g s)
include hi

theorem execCpy_holds (hh : handleAt s f.d (cImm f) h) :
    let t := seenAt s [f.a, f.b] f.d
    let e := cpyCommand t f (stepVa s (s.srcS 6 f.a).toNat) (stepVa s (s.srcS 6 f.b).toNat) (cImm f) 1 0 0 h (cImm f)
    heldCount t (s.cur.core / 2) (cChan f) < 16 → Holdable e → execCpy f s = .next (t.holds e) := by
  intro t e hroom hhold
  have hk : s.KeepsIssue t := readD_keepsIssue (reads_keepsIssue s 6 _) f.d
  rw [execCpy, slotOp_issues hi]
  simp only [reads_sval, atSlot_sval]
  rw [withD_passes (reads_keepsIssue s 6 _) (reads_sval _ _ _) hh]
  exact congrArg _ (issueCpy_holds hk hroom hhold)

theorem execCpyD_holds {ps : List Piece} {es : List TlbEnt}
    (hr : Reaches (reads (s.atSlot 6) [f.a]) (s.srcS 6 f.a).toNat 64 64 .read false ps es) :
    let r := loadedDesc (reads (s.atSlot 6) [f.a]) s.cur.core ps es
    let add := decide (fieldLE r.2 48 1 = 1)
    let e := cpyCommand r.1 f (stepVa s (fieldLE r.2 0 8)) (stepVa s (fieldLE r.2 8 8)) (fieldLE r.2 16 4) (fieldLE r.2 20 4)
      (sint 32 (fieldLE r.2 24 4)) (sint 32 (fieldLE r.2 28 4)) (if add then some (fieldLE r.2 32 8) else none) (fieldLE r.2 40 8)
    CpyDescOk r.2 → heldCount r.1 (s.cur.core / 2) (cChan f) < 16 →
    (add = true → addCheck (s.corePart s.cur.core) (s.corePart s.cur.core).hasMill (fieldLE r.2 32 8) (fieldLE r.2 40 8) = none) →
    Holdable e → execCpyD f s = .next (r.1.holds e) := by
  intro r add e hok hroom hcheck hhold
  have hk : s.KeepsIssue r.1 := loadedDesc_reads_keepsIssue s _ ps es
  have hadd : (fieldLE r.2 48 1).testBit 0 = add := by
    obtain ⟨-, -, -, -, hlt, -⟩ := hok
    have h2 : fieldLE r.2 48 1 = 0 ∨ fieldLE r.2 48 1 = 1 := by omega
    rcases h2 with h2 | h2 <;> simp [add, h2]
  rw [execCpyD, slotOp_issues hi]
  simp only [reads_sval, atSlot_sval]
  rw [withDesc_reads_reaches hr, if_neg ((cpyDescOk_iff _).not.mpr (not_not.mpr hok))]
  rw [show Nat.testBit _ 0 = add from hadd]
  have hgo := issueCpy_holds hk hroom hhold
  by_cases ha : add = true
  · exact congrArg _ ((if_pos ha).trans ((withHandle_passes hk (hcheck ha) _).trans hgo))
  · exact congrArg _ ((if_neg ha).trans hgo)

/-! ### MCST (R117, R263) -/

theorem execMcst_holds {ps qs : List Piece} {es gs : List TlbEnt} (hh : handleAt s f.d (cImm f) h)
    (hl : isLocal (stepVa s (s.srcS 6 f.b).toNat) = true)
    (hr : Reaches (reads (s.atSlot 6) [f.a, f.b]) (stepVa s (s.srcS 6 f.b).toNat) 64 64 .read false ps es) :
    let r := loadedDesc (reads (s.atSlot 6) [f.a, f.b]) s.cur.core ps es
    let src := stepVa s (s.srcS 6 f.a).toNat
    let w := keepPages r.1 s.cur.core gs
    let t := readD w f.d
    replicaList r.2 ≠ [] → Reaches r.1 src 128 128 .read false qs gs → replicaFault w s.cur.core [] (replicaList r.2) = none →
    execMcst f s = .next (t.holds { newEngine t .mcst with src := src, replicas := replicaList r.2, handle := h, inc := cImm f }) := by
  dsimp only
  intro hz hsrc hf
  have hkr := loadedDesc_reads_keepsIssue s [f.a, f.b] ps es
  have hpages := keepPages_offAccess (loadedDesc (reads (s.atSlot 6) [f.a, f.b]) s.cur.core ps es).1 gs
  rw [hkr.core] at hpages
  have hv := (sval_of_offAccess hpages f.d).trans (loadedDesc_reads_sval s _ ps es _)
  rw [execMcst, slotOp_issues hi]
  simp only [reads_sval, atSlot_sval, stepVa_keeps (reads_keepsIssue s 6 _)]
  rw [if_neg (by rw [hl]; decide), withDesc_reads_reaches hr, if_neg (by simpa using hz), withAccess_reaches hsrc]
  simp only [keepPages_cur, hkr.core, hf]
  rw [withD_passes (hkr.trans (keepsIssue_of_offAccess hpages)) hv hh, holdEngine_holds fun _ r hr => absurd hr List.not_mem_nil]
end

/-- Settles O29: the command's descriptor, handle and queue entry pass, and it is held. -/
theorem copiesComplete : Obligations.CopiesComplete := by
  intro f s h hi c step room
  refine ⟨fun hh => ?cpy, fun ps es hr => ?descriptor, fun ps es qs gs hh hl hr => ?multicast⟩
  case cpy =>
    intro t src dst e hroom hhold
    have he : e = cpyCommand t f src dst (cImm f) 1 0 0 h (cImm f) := by
      have hc : t.cur.core = c := (readD_keepsIssue (reads_keepsIssue s 6 [f.a, f.b]) f.d).core
      rw [cpyCommand, rowsExtent_row (show src < 2 ^ 64 from stepVa_lt s _), rowsExtent_row (show dst < 2 ^ 64 from stepVa_lt s _), hc]
      rfl
    rw [he] at hhold ⊢
    exact execCpy_holds hi hh hroom hhold
  case descriptor =>
    intro l t d rb rows add hrb hrb' hrows hrows' hadd hzero hroom hcheck e hhold
    have he : e = cpyCommand t f (step (fieldLE d 0 8)) (step (fieldLE d 8 8)) rb rows (sint 32 (fieldLE d 24 4)) (sint 32 (fieldLE d 28 4))
        (if add then some (fieldLE d 32 8) else none) (fieldLE d 40 8) := by
      have hc : t.cur.core = c := (loadedDesc_reads_keepsIssue s [f.a] ps es).core
      rw [cpyCommand, hc]
    rw [he] at hhold ⊢
    exact execCpyD_holds hi hr ⟨hrb, hrb', hrows, hrows', hadd, hzero⟩ hroom hcheck hhold
  case multicast =>
    intro l u rs hz hsrc w hf t
    exact execMcst_holds hi hh hl hr hz hsrc hf

/-! ### CLOAD and COLL (R288, R289, R316) -/

/-- What a graph pops is known when its descriptor has been read: D changes no slot (R166, R316). -/
theorem slotSto_of_draws {s r x : State} {g : Graph} {w : Word} {d die slot job : Nat} (hk : s.KeepsIssue r)
    (hg : (readD r d).graphSlot die slot = some g) (hd : DrawsCommand (readD r d) (graphSto g.image) x w) :
    slotSto r die slot job = false ∨ r.cur.pops = 0 := by
  rw [readD_graphSlot] at hg
  rcases hd with ⟨hsto, -⟩ | ⟨-, hpops, -⟩
  · exact .inl (by simp only [slotSto, hg, hsto, Bool.and_false])
  · exact .inr (hk.pops.trans ((readD_keepsIssue hk d).pops.symm.trans hpops))

section
variable {f : F3} {s : State} {h : Option Nat} {ps : List Piece} {es : List TlbEnt} (hi : Issues 6 f.g s)
include hi

theorem execCload_holds (hb : (s.srcS 6 f.b).toNat < 64)
    (hr : Reaches (reads (s.atSlot 6) [f.a, f.b]) (stepVa s (s.srcS 6 f.a).toNat) 64 64 .read false ps es) (hh : handleAt s f.d (cImm f) h) :
    let r := loadedDesc (reads (s.atSlot 6) [f.a, f.b]) s.cur.core ps es
    let t := readD r.1 f.d
    let b := (s.srcS 6 f.b).toNat
    let a := stepVa s (s.srcS 6 f.a).toNat
    let e := { newEngine t .cload with
      slack := cSlack f, desc := r.2, src := a, slot := b, handle := h, inc := cImm f, reads := [region s.cur.core (a, graphLen r.2)] }
    graphHeadOk r.2 = true → graphTaken t (coreDie s.cur.core) b (s.curCore.job.getD 0) = false → Holdable e →
    execCload f s = .next (t.holds e) := by
  intro r t b a e hok hfree hhold
  have hk : s.KeepsIssue r.1 := loadedDesc_reads_keepsIssue s _ ps es
  rw [execCload, slotOp_issues hi]
  simp only [reads_sval, atSlot_sval, stepVa_keeps (reads_keepsIssue s 6 _), reads_cur, atSlot_cur_core]
  rw [if_neg (by simpa using hb), show withDesc _ _ _ _ _ = _ from withDesc_reads_reaches hr _]
  refine congrArg _ ((if_neg (by rw [hok]; decide)).trans
    ((withD_passes hk (loadedDesc_reads_sval s _ ps es _) hh _).trans ((if_neg ?_).trans (holdEngine_holds hhold t))))
  rw [(readD_keepsIssue hk _).context, Bool.not_eq_true]
  exact hfree

theorem execColl_holds (hb : bits (s.srcS 6 f.b).toNat 31 6 = 0)
    (hr : Reaches (reads (s.atSlot 6) [f.a, f.b]) (s.srcS 6 f.a).toNat 256 64 .read false ps es) (hh : handleAt s f.d (cImm f) h) :
    let r := loadedDesc (reads (s.atSlot 6) [f.a, f.b]) s.cur.core ps es
    let t := readD r.1 f.d
    let d := collStep r.1 r.2
    let die := coreDie s.cur.core
    let slot := (s.srcS 6 f.b).toNat % 64
    let inst := (s.srcS 6 f.b).toNat / 2 ^ 32
    let job := s.curCore.job.getD 0
    ∀ g x w, CollRegionsOk d → t.graphSlot die slot = some g → g.job = job → inst ≠ 0 → inst ≠ lastInstance t die slot job g →
    DrawsCommand t (graphSto g.image) x w →
    let e := { newEngine x .coll with
      slack := cSlack f, desc := d, slot := slot, number := inst, handle := h, inc := cImm f, rnd := w,
      reads := (List.range 4).map fun k => region s.cur.core (collRegion d k),
      writes := (List.range 4).map fun k => region s.cur.core (collRegion d (4 + k)) }
    Holdable e → execColl f s = .next (x.holds e) := by
  dsimp only
  intro g x w hok hg hjob hinst hlast hd hhold
  have hk := loadedDesc_reads_keepsIssue s [f.a, f.b] ps es
  rw [execColl, slotOp_issues hi]
  simp only [reads_sval, atSlot_sval, reads_cur, atSlot_cur_core, reads_context, atSlot_curCore]
  rw [if_neg (by simpa using hb), withDesc_reads_reaches hr, withExcess_passes (slotSto_of_draws hk hg hd),
    if_neg ((collRegionsOk_iff _).not.mpr (not_not.mpr hok)), withD_passes hk (loadedDesc_reads_sval s _ ps es _) hh]
  simp only [hg]
  have hpass : ¬ ((g.job ≠ s.curCore.job.getD 0 ∨ (s.srcS 6 f.b).toNat / 2 ^ 32 = 0) ∨ (s.srcS 6 f.b).toNat / 2 ^ 32 = lastInstance _ _ _ _ g) :=
    fun hbad => hbad.elim (fun hbad => hbad.elim (fun e => e hjob) hinst) hlast
  rw [if_neg (by simpa only [Bool.or_eq_true, bne_iff_ne, beq_iff_eq] using hpass), popCommand_draws hd, holdEngine_holds hhold]
end

/-- Settles O31: the header or base table, the slot and the handle pass, the graph draws, and the command is held. -/
theorem graphCommandsComplete : Obligations.GraphCommandsComplete := by
  intro f s h ps es hi c step job b a seen l u t d0
  refine ⟨fun hb hr hok hh hfree => execCload_holds hi hb hr hh hok hfree, fun g x w => ?collective⟩
  case collective =>
    intro d hb hr hok hh hg hjob hinst hlast hd
    exact execColl_holds hi hb hr hh g x w hok hg hjob hinst hlast hd

end Sys2Proof.Machine

namespace Sys2Proof.Machine

/-! ### Service code (R155, R205, R207, R208) -/

/-- A change of privilege leaves the other bits of STATUS, and PRIV reads as it was set (R205). -/
theorem setPriv_status (a : Arch) {p : Nat} (hp : p < 4) : (a.setPriv p).status &&& ~~~(0xC000 : Word) = a.status &&& ~~~(0xC000 : Word) := by
  have hout : BitVec.ofNat 64 (p * 2 ^ 14) &&& ~~~(0xC000 : Word) = 0 := by interval_cases p <;> decide
  rw [Arch.setPriv, BitVec.and_or_distrib_right, BitVec.and_assoc, BitVec.and_self, hout]
  exact BitVec.or_zero

theorem setPriv_priv (a : Arch) {p : Nat} (hp : p < 4) : (a.setPriv p).priv_ = p := by
  have hkept : (~~~(0xC000 : Word)).toNat >>> 14 % 4 = 0 := by decide
  have hset : (BitVec.ofNat 64 (p * 2 ^ 14)).toNat >>> 14 % 2 ^ 2 = p := by interval_cases p <;> decide
  simp only [Arch.priv_, Arch.setPriv, bits, BitVec.toNat_or, BitVec.toNat_and, Nat.shiftRight_or_distrib, Nat.shiftRight_and_distrib]
  rw [Nat.or_mod_two_pow, Nat.and_mod_two_pow, hset, show _ >>> 14 % 2 ^ (15 + 1 - 14) = 0 from hkept, Nat.and_zero, Nat.zero_or]

/-- An address that is a multiple of 4 has no low bits to drop. -/
theorem dropLow_of_aligned {a : Word} (h : a &&& 3 = 0) : a &&& ~~~3 = a := by
  calc a &&& ~~~3 = (a &&& 3) ||| (a &&& ~~~3) := by rw [h]; exact BitVec.zero_or.symm
    _ = a &&& (3 ||| ~~~3) := BitVec.and_or_distrib_left.symm
    _ = a := by rw [show (3 : Word) ||| ~~~3 = BitVec.allOnes 64 by decide]; exact BitVec.and_allOnes

/-- Settles O9: entry and return change one core, its privilege by setPriv. -/
theorem serviceEntryAndReturn : Obligations.ServiceEntryAndReturn := by
  intro s c after imm
  refine ⟨?controller, fun hc => ?entry, ?return_⟩
  case controller =>
    intro x y
    have hy : y = { x with epc := after, ecause := BitVec.ofNat 64 cSvc, faultinfo := BitVec.ofNat 64 imm, live := { x.live with pc := x.svcvec } } :=
      onCore_core s 768 _
    rw [hy]
    exact ⟨rfl, rfl, rfl, rfl, rfl⟩
  case entry =>
    intro x t y
    have hy : y = { x with epc := after, ecause := BitVec.ofNat 64 cSvc, faultinfo := BitVec.ofNat 64 imm,
                           live := { x.live.setPriv 1 with pc := x.svcvec } } := by
      have hlive : (if c == mgmtCore then x.live else x.live.setPriv 1) = x.live.setPriv 1 := if_neg (by simpa [mgmtCore] using hc)
      rw [← hlive]
      exact onCore_core s c _
    rw [hy]
    exact ⟨rfl, rfl, rfl, rfl, setPriv_priv x.live (by decide), rfl, setPriv_status x.live (by decide), rfl, fun d hd => onCore_core_ne s _ hd⟩
  case return_ =>
    intro x t y
    have hy : y = { x with live := { x.live.setPriv 0 with pc := x.epc &&& ~~~(3 : Word) } } := onCore_core s c _
    rw [hy]
    exact ⟨rfl, dropLow_of_aligned, setPriv_priv x.live (by decide), rfl, setPriv_status x.live (by decide), rfl, fun d hd => onCore_core_ne s _ hd⟩

/-! ### What issue leaves unchanged (R37, R139, R153, R248) -/

/-- Where only the cores and the cursor change, every byte of memory and every counter is as before. -/
theorem bytes_ctrs_of_offCores {s t : State} (h : { t with cores := s.cores, cur := s.cur } = s) :
    (∀ l : Loc, l.sp ≠ .ctl → t.byteAt l = s.byteAt l) ∧ ∀ k, t.ctr k = s.ctr k := by
  refine ⟨fun l hl => ?_, fun k => (congrArg (State.ctr · k) h :)⟩
  rw [byteAt_memory t hl, byteAt_memory s hl]
  exact (congrArg (fun u : State => (u.memory l.sp).read l.addr) h :)

/-- Results and STATUS, on the issuing core alone. -/
theorem delivers_core_ne (s : State) (slot : Nat) (codes : List Nat) (st : Nat) (ls : List Landing) {d : Nat} (hd : d ≠ s.cur.core) :
    (s.delivers slot codes st ls).core d = s.core d :=
  onCore_core_ne (s.atSlot slot) _ hd
theorem reads_core_ne (s : State) (codes : List Nat) {d : Nat} (hd : d ≠ s.cur.core) : (reads s codes).core d = s.core d := by
  rw [reads_eq]; split
  · exact onCore_core_ne s _ hd
  · rfl

/-- Settles O34: each state by what its construction changes; a fault with no effect queued has nothing to undo. -/
theorem issueFrame : Obligations.IssueFrame := by
  intro s slot codes st ls e x frame
  have framed {t : State} (h : { t with cores := s.cores, cur := s.cur } = s) (hne : ∀ d, d ≠ s.cur.core → t.core d = s.core d) : frame t :=
    ⟨h, (bytes_ctrs_of_offCores h).1, (bytes_ctrs_of_offCores h).2, hne⟩
  refine ⟨?delivers, ?reads, ⟨rfl, rfl⟩, fun code info he => ?raise⟩
  case delivers =>
    intro t y
    have hy : y = { x with live := { x.live with status := x.live.status ||| latchStatus s slot codes ||| BitVec.ofNat 64 st },
                           inflight := x.inflight ++ ls } := onCore_core (s.atSlot slot) s.cur.core _
    rw [hy]
    exact ⟨framed rfl fun d hd => delivers_core_ne s slot codes st ls hd, rfl, rfl, rfl, rfl⟩
  case reads =>
    intro t y
    have hcur : t.cur = { s.cur with slot := slot } := reads_cur (s.atSlot slot) codes
    have hy : y = { x with live := { x.live with status := x.live.status ||| latchStatus s slot codes } } := by
      have h := reads_curCore (s.atSlot slot) codes
      rw [State.curCore, reads_cur] at h
      exact h
    have hrest : { t with cores := s.cores, cur := s.cur } = s := by
      rw [show t = _ from reads_cores (s.atSlot slot) codes]
      rfl
    rw [hy]
    exact ⟨framed hrest fun d hd => reads_core_ne (s.atSlot slot) codes hd, hcur, rfl, rfl⟩
  case raise =>
    intro u
    rw [raise, raiseFlt, he]
    rfl

/-! ### Tile operations that complete, loads that fail their checks, the clock of the stage (R142, R157, R158, R291, R292) -/

/-- The first element with a property is the one that none before it shares. -/
theorem takeFirst_append {α : Type} {p : α → Bool} {pre : List α} {x : α} (post : List α) (hpre : ∀ y ∈ pre, p y = false) (hx : p x = true) :
    takeFirst p (pre ++ x :: post) = some (x, pre ++ post) := by
  induction pre with
  | nil => simp only [List.nil_append, takeFirst, hx, if_true]
  | cons y pre ih =>
    obtain ⟨hy, hrest⟩ := List.forall_mem_cons.mp hpre
    simp only [List.cons_append, takeFirst, hy, Bool.false_eq_true, if_false, ih hrest]

section
variable {s : State} {c : Nat} {pre post : List MOp} {m : MOp} (ht : (s.core c).tiles = pre ++ m :: post)
include ht

theorem execTileOperationComplete_oldest (hpre : ∀ q ∈ pre, q.opc = 9) (hm : m.opc ≠ 9) :
    execTileOperationComplete c s =
      .next (offerAll (tileDone (tileResult (s.onCore c fun x => { x with tiles := pre ++ post }) c m) c)) := by
  rw [execTileOperationComplete, ht, takeFirst_append post (fun q hq => by simp [hpre q hq]) (by simpa using hm)]
  rfl

theorem execMvsComplete_oldest (hpre : ∀ q ∈ pre, q.opc ≠ 9) (hm : m.opc = 9) (hstart : ∀ e, s.cmd m.cmd = some e → mayStart s e = true) :
    execMvsComplete c s = .next (offerAll (tileDone (mvsFinish (s.onCore c fun x => { x with tiles := pre ++ post }) c m) c)) := by
  rw [execMvsComplete, ht, takeFirst_append post (fun q hq => by simpa using hpre q hq) (by simpa using hm)]
  refine if_neg ?_
  cases he : s.cmd m.cmd with
  | none => exact Bool.false_ne_true
  | some e =>
    show ¬ (!mayStart s e) = true
    rw [hstart e he]
    exact Bool.false_ne_true

theorem execArrayReadFailure_reader {addr : Nat} (hpre : ∀ q ∈ pre, q.opc = 9 ∨ rangesMeet [(addr, 1)] q.reads = false) (hm : m.opc ≠ 9)
    (hreads : rangesMeet [(addr, 1)] m.reads = true) :
    let l := bankLoc (c / 2) addr
    execArrayReadFailure c addr s = .next (offerAll (tileDone
      (tileFault ((s.onCore c fun x => { x with tiles := pre ++ post }).setPoison l) c m cPoison (lineInfo l)) c)) := by
  intro l
  rw [execArrayReadFailure, ht, takeFirst_append post (fun q hq => by rcases hpre q hq with h | h <;> simp [h]) (by simp [hm, hreads])]
  rfl
end

/-- The check that fails is that of the oldest pending load of the address; a match that has begun goes on first (R157, R303). -/
theorem execLoadEccFailure_oldest {s : State} {c addr : Nat} {pre post : List LoadCheck} {k : LoadCheck} (hl : (s.core c).loads = pre ++ k :: post)
    (hpre : ∀ q ∈ pre, addr < q.loc.addr ∨ q.loc.addr + q.len ≤ addr) (hlo : k.loc.addr ≤ addr) (hhi : addr < k.loc.addr + k.len) :
    execLoadEccFailure c addr s =
      .next (if matchWaits s c then ((s.issueCores c).foldl finishMatch s).push [.loadEccFailure c addr]
        else offerAll (eccFailure s c k ⟨k.loc.sp, addr⟩)) := by
  have hnone : pre.find? (fun k => decide (k.loc.addr ≤ addr) && decide (addr < k.loc.addr + k.len)) = none :=
    List.find?_eq_none.mpr fun q hq => by have := hpre q hq; simp only [Bool.and_eq_true, decide_eq_true_eq]; omega
  rw [execLoadEccFailure, hl, List.find?_append, hnone, List.find?_cons_of_pos (by simp [hlo, hhi])]
  cases matchWaits s c <;> rfl

/-- A failure at a new place rolls the region back; a second one at it is POISON (R157). -/
theorem eccFailure_first {s : State} {c : Nat} {l : Loc} (h : (s.core c).eccAddr ≠ some l) (k : LoadCheck) :
    eccFailure s c k l = (rollback s c).onCore c fun x => { x with eccAddr := some l } :=
  if_neg (by simpa using h)
theorem eccFailure_second {s : State} {c : Nat} {l : Loc} (h : (s.core c).eccAddr = some l) (k : LoadCheck) :
    eccFailure s c k l = takeFault ((s.onCore c fun x => { x with eccAddr := none }).setPoison l) c
      { code := cPoison, info := lineInfo l, slot := k.slot, inst := k.inst, epc := k.pc } false :=
  if_pos (by simpa using h)

/-- The stage takes a step, and one more entry waits no longer (R291, R292). -/
theorem execMOperationDispatch_steps {s : State} {c : Nat} (hp : (s.core c).pending = []) (h : (s.core c).window ≠ [] ∨ (s.core c).staged ≠ []) :
    execMOperationDispatch c s = .next (offerAll (stageRun c false 1 s)) := by
  have hflushed : (s.core c).flushed = false := by rcases h with h | h <;> simp [Core.flushed, h]
  exact if_neg (by simp [hflushed, hp])
theorem execDressWaitExpiry_due {s : State} {c : Nat} {e : MOp} {es : List MOp} (hp : (s.core c).pending = [])
    (hw : (s.core c).window = e :: es) (hage : Config.dressWait ≤ e.age) :
    execDressWaitExpiry c s = .next (offerAll (stageRun c false 9 s)) := by
  have hfull : stageFull (s.core c) = true := by simp [stageFull, hw, hage]
  exact if_neg (by simp [hfull, hp, hw])

/-- Settles O36: the operation or load that the event is about is the first of its kind; then the event by its lemma. -/
theorem tileAndIntegrityEventsComplete : Obligations.TileAndIntegrityEventsComplete := by
  intro s c
  refine ⟨fun pre post m ht => ⟨execTileOperationComplete_oldest ht, execMvsComplete_oldest ht, fun addr => execArrayReadFailure_reader ht⟩,
    fun pre post k addr hl hpre hlo hhi => ?load, fun hp => ⟨execMOperationDispatch_steps hp, fun e es => execDressWaitExpiry_due hp⟩⟩
  case load =>
    intro l
    have h := execLoadEccFailure_oldest hl hpre hlo hhi
    refine ⟨fun hw => h.trans ?_, fun hw hne => h.trans ?_, fun hw he => h.trans ?_⟩
    · rw [if_pos hw]
    · rw [if_neg (by rw [hw]; decide), eccFailure_first hne]
    · rw [if_neg (by rw [hw]; decide), eccFailure_second he]

end Sys2Proof.Machine

namespace Sys2Proof.Machine

/-! ### Decoded operations and moves run as exec runs them (R138, R405) -/

/-- What has an encoding is a slot operation or a move, and exec runs it as its unit does. -/
theorem exec_encoded {i : Instr} {e : Encoded} (h : encode i = some e) (s : State) :
    exec i s = if e.slot < 8 then slotOut i s else runMove i s := by
  cases i <;> cases h <;> rfl

/-- Every slot operation, and every move, answers a next state. -/
theorem slotOut_next (i : Instr) (s : State) : slotOut i s = .next (runSlot i s) := by
  have h : ∃ t, slotOut i s = .next t := by cases i <;> exact ⟨_, rfl⟩
  obtain ⟨t, ht⟩ := h
  rw [runSlot, ht]
theorem runMove_next (s : State) (m : LeatMove) : runMove m.op s = .next (moveState s m) := by
  have h (i : Instr) : ∃ t, runMove i s = .next t := by cases i <;> exact ⟨_, rfl⟩
  obtain ⟨t, ht⟩ := h m.op
  rw [moveState, ht]

/-! ### A step (R138) -/

/-- Time passes before a step does anything (R397). -/
def State.timed (s : State) : State :=
  { s with ticks := s.ticks + 1, cycle := s.cycle + Config.elapsedCycles s.ticks, leatCycle := s.leatCycle + Config.leatCycles s.ticks }

theorem step_event {s : State} {i : Instr} {is : List Instr} (h : s.agenda = i :: is) : step s = exec i { s.timed with agenda := is } := by
  simp only [step, State.timed, h]
theorem step_issue {s : State} {a : Nat} {as : List Nat} (h : s.agenda = []) (hq : s.runQueue = a :: as) :
    step s = exec (.bundleInstanceIssue a) { s.timed with runQueue := as ++ [a] } := by
  simp only [step, State.timed, h, hq]
theorem step_idle {s : State} (h : s.agenda = []) (hq : s.runQueue = []) : step s = .next s.timed := by
  simp only [step, State.timed, h, hq]

/-- An operation runs where none before it has faulted or been held (R153). -/
theorem issueOp_runs {s : State} (ha : s.cur.aborted = false) (hf : s.cur.frozen = false) (p : Planned) :
    issueOp s p = runSlot p.op { s with cur := { s.cur with slot := p.slot, off := p.off } } :=
  if_neg (by rw [ha, hf]; decide)

/-! ### A core that issues alone (R138, R153) -/

/-- One core alone ends with what its operations come to. -/
theorem runMembers_one (len : Nat) (s : State) (m : Member) : runMembers len s [m] [] = (runMember s len m, [(runMember s len m).cur]) := by
  rw [runMembers]
  split <;> rfl

/-- Where no operation's pop shows at issue only, the operations issue in slot order (R153, R166). -/
theorem runMember_inOrder (s : State) (len : Nat) {m : Member} (h : ∀ p ∈ m.ops, latePop p.op = false) :
    runMember s len m = m.ops.foldl issueOp { s with cur := startCursor s m.core len m.ops } := by
  have hlate : m.ops.filter (fun p => latePop p.op) = [] := List.filter_eq_nil_iff.mpr fun p hp => by rw [h p hp]; decide
  simp only [runMember, hlate]
  rfl

section
variable {s : State} {c : Nat}

/-- Nothing keeps the core from issuing: the stage takes its turn, and the core fetches. -/
theorem coreIssue_tries (hstop : issueStops s c = false) (halone : s.issueCores c = [c]) (hpending : (s.core c).pending = [])
    (hclosing : (s.core c).closing = none) (hroles : rolesChange s c = false) (hdress : (s.core c).dressBad = false)
    (hpre : (s.core c).preempt = false) (hats : atsHold (s.core c).hold = false) (houter : outerHold (s.core c).hold = false)
    (hpending' : ((stageRun c false 9 s).core c).pending = []) (hheld : stageHeld (stageRun c false 9 s) c = false) :
    coreIssue c s = issueTry 6 c ((stageRun c false 9 s).onCore c fun x => { x with frozen := false }) := by
  simp [coreIssue, halone, hstop, hpending, hclosing, hroles, hdress, hpre, hats, houter, hpending', hheld, thawAll]

/-- A bundle that is fetched and decoded on a core alone is issued, once its region need not close first. -/
theorem issueTry_decodes {s1 : State} {h n : Nat} {ws : List Nat} {b : Bundle} (hfetch : fetchBundle s c = .ok (h, ws, s1))
    (halone : s1.issueCores c = [c]) (hphase : phaseWaits s1 c = false) (hmasks : (s1.core c).masks = [])
    (hdecode : decodeBundle (decodeCtx s1 c) h ws = .ok b) (hskip : ∀ l ls, (s1.core c).live.loops = l :: ls → l.skip = false) :
    let r := issueDecoded s1 c b [⟨c, planAll (s1.core c).live b ((s1.core c).live.rep != 0)⟩]
    issueTry (n + 1) c s = if r.2 then issueTry n c r.1 else r.1 := by
  have hloops : ((s1.core c).live.loops.head?.map (·.skip)).getD false = false := by
    cases hl : (s1.core c).live.loops with
    | nil => rfl
    | cons l ls => exact hskip l ls hl
  simp [issueTry, hfetch, halone, hphase, hmasks, decodeMembers, hdecode, hloops]

/-- No hold, fault or checkpoint stands before the end of the bundle's operations: their effects take place (R153). -/
theorem issueDecoded_commits {s2 r : State} {b : Bundle} {m : Member} (hs2 : fenceDrain s [m] = s2) (hr : runMember s2 b.len m = r)
    (hcore : m.core = c)
    (hopen : (s.core c).instCount = 0 ∨ (checkpointsBefore s [m] = false ∧ closesFor s2 r.cur = false ∧ changesRoles s2 [r.cur] = false))
    (hwaits : waitsFor s [m] c = none) (hfence : fenceWaits s [m] c = false) (hwindow : outOfWindow s [m] = false)
    (hcaddf : caddfWaits s [m] = false) (hc : r.cur.core = c) (ha : r.cur.aborted = false) (hf : r.cur.frozen = false)
    (hlend : b.lend = true → (s.core c).live.loops ≠ []) (hfull : bufferFull (s2.core c) r.cur = false)
    (hmeets : windowMeets r c r.cur = false) (hbusy : tileBusy (s2.core c) r.cur = false) (hpoison : poisonedLoad r c = none) :
    issueDecoded s c b [m] = (commitAll r b [m] [r.cur] c, false) := by
  have hbefore : ((s.core c).instCount != 0 && checkpointsBefore s [m]) = false := by
    rcases hopen with h | ⟨h, -⟩ <;> simp [h]
  have hafter : ((s.core c).instCount != 0 && (changesRoles s2 [r.cur] || closesFor s2 r.cur)) = false := by
    rcases hopen with h | ⟨-, h, h'⟩
    · simp [h]
    · simp [h, h']
  have hunder (last live : Bool) : (last && b.lend && (s.core c).live.loops.isEmpty && live) = false := by
    cases hb : b.lend with
    | false => simp
    | true => simp [hlend hb]
  simp only [issueDecoded, List.map_cons, List.map_nil, List.any_cons, List.any_nil, List.find?_cons, List.find?_nil, List.getLast?_singleton,
    Option.getD_some, Option.isSome_none, Bool.or_false, Bool.false_eq_true, if_false, runMembers_one, hs2, hr, hcore, hwaits, hfence, hwindow,
    hcaddf, hc, ha, hf, hbefore, hafter, hunder, hfull, hmeets, hbusy, hpoison]
end

/-! ### A word of a leat core (R405, R407, R413) -/

/-- The core with what is due landed, as its word begins (R405). -/
def Leat.begun (x : Leat) : Leat := { x.tick with fresh := 0 }
/-- A word of moves triggers a full TXU (R413). -/
def TxuStalls (s : State) (n : Nat) (ms : List LeatMove) : Prop :=
  64 ≤ txuHeld s n ∧ ∃ m ∈ ms, triggersTxu { s with cur := { core := 1000 + n } } m.op = true

/-- What a leat core's word comes to, once its moves have run. -/
def leatEnds (s t : State) (n : Nat) : State :=
  if t.cur.aborted then leatFaults s n t.cur.leatFault
  else if t.cur.leatHalt then leatHalts { t with cur := {} } n
  else ({ t with cur := {} } : State).setLeat n (leatAdvance (t.leat n) t.cur)

section
variable {s : State} {n : Nat} {ms : List LeatMove} (hrun : (s.leat n).begun.run = true) (hhalt : (s.leat n).begun.halted = false)
  (hdecode : decodeLeat ((s.leat n).begun.imem.bytes (s.leat n).begun.pc 16) = .ok ms)
include hrun hhalt hdecode

theorem leatIssue_decodes :
    let x := (s.leat n).begun
    let s1 := s.setLeat n x
    let at_ : State := { s1 with cur := { core := 1000 + n } }
    let t := (moveOrder ms).foldl moveState { s1 with cur := { core := 1000 + n, leatSeen := some (x.queue.length - (s.leat n).fresh, x.tmrx) } }
    leatIssue n s = if decide (txuSize ≤ txuHeld s1 n) && ms.any (fun m => triggersTxu at_ m.op) then s1 else leatEnds s1 t n := by
  intro x s1 at_ t
  have hgo : ¬ (!x.run || x.halted) = true := by rw [hrun, hhalt]; decide
  refine (if_neg hgo).trans ?_
  split
  · next e he => exact nomatch he.symm.trans hdecode
  · next ms' hms =>
    cases hms.symm.trans hdecode
    rfl
end

theorem execBundleInstanceIssue_leat (s : State) (n : Nat) : execBundleInstanceIssue (1000 + n) s = .next (offerAll (leatIssue n s)) := by
  rw [execBundleInstanceIssue, if_pos (Nat.le_add_right ..), Nat.add_sub_cancel_left]
  rfl
theorem execBundleInstanceIssue_core {c : Nat} (hc : c < 1000) (s : State) : execBundleInstanceIssue c s = .next (offerAll (coreIssue c s)) := by
  rw [execBundleInstanceIssue, if_neg (Nat.not_le.mpr hc)]
  rfl

theorem txuStalls_iff (s : State) (n : Nat) (ms : List LeatMove) :
    (decide (txuSize ≤ txuHeld s n) && ms.any fun m => triggersTxu { s with cur := { core := 1000 + n } } m.op) = true ↔ TxuStalls s n ms := by
  rw [TxuStalls, Bool.and_eq_true, List.any_eq_true, decide_eq_true_eq]
  rfl

/-- Settles O53: a step by what it runs, an encoded operation by its unit, a bundle by the checks it passes, a word by its moves. -/
theorem stepRunsDecoded : Obligations.StepRunsDecoded := by
  refine ⟨fun s => ⟨fun i is => step_event, fun a as => step_issue, step_idle⟩, fun s i e he => ⟨fun hslot p hp ha hf => ?operation,
    fun hslot m hm => ?move⟩, ?bundle, fun s n ms => ?word⟩
  case operation =>
    rw [exec_encoded he, if_pos hslot, slotOut_next, issueOp_runs ha hf, hp]
  case move =>
    subst hm
    rw [exec_encoded he, if_neg (by omega), runMove_next]
  case bundle =>
    intro s s1 c h ws b hc hstop halone halone1 hpending hclosing hroles hdress hpre hats houter w hpending' hheld s0 hfetch hphase hmasks hdecode
      hskip m s2 r u hopen hwaits hfence hwindow hcaddf huc hua huf hlend hfull hmeets hbusy hpoison
    refine ⟨?_, runMember_inOrder s2 b.len⟩
    have hcommit : issueDecoded s1 c b [m] = (commitAll r b [m] [u] c, false) :=
      issueDecoded_commits rfl rfl rfl hopen hwaits hfence hwindow hcaddf huc hua huf hlend hfull
        hmeets hbusy hpoison
    have hissue : coreIssue c s = commitAll r b [m] [u] c := by
      rw [coreIssue_tries hstop halone hpending hclosing hroles hdress hpre hats houter hpending' hheld,
        issueTry_decodes hfetch halone1 hphase hmasks hdecode hskip, hcommit]
      rfl
    exact (execBundleInstanceIssue_core hc s).trans (by rw [hissue])
  case word =>
    intro x s1 full hrun hhalt hdecode
    have hword := leatIssue_decodes hrun hhalt hdecode
    have hend {o : State} (ho : leatIssue n s = o) : exec (.bundleInstanceIssue (1000 + n)) s = .next (offerAll o) :=
      (execBundleInstanceIssue_leat s n).trans (by rw [ho])
    refine ⟨fun hfull => hend (hword.trans (if_pos ((txuStalls_iff s1 n ms).mpr hfull))), fun hfree => ?_⟩
    intro t u
    have hends : leatIssue n s = leatEnds s1 t n := hword.trans (if_neg ((txuStalls_iff s1 n ms).not.mpr hfree))
    refine ⟨fun ha => hend (hends.trans (if_pos ha)), fun ha hh => hend (hends.trans ?_), fun ha hh => hend (hends.trans ?_)⟩
    · exact (if_neg (by rw [ha]; decide)).trans (if_pos hh)
    · exact (if_neg (by rw [ha]; decide)).trans (if_neg (by rw [hh]; decide))

end Sys2Proof.Machine

namespace Sys2Proof

open Sys2Proof.Machine

/-! ### Decode after encode (R168 to R172, R402 to R404) -/

theorem Instr.wf_iff (i : Instr) : i.wf = true ↔ i.fits = true ∧ legal i = none := by
  rw [Instr.wf, Bool.and_eq_true, Option.isNone_iff_eq_none]

theorem firstFail_cons_none {ok : Bool} {code : Nat} {rest : List (Bool × Nat)} :
    firstFail ((ok, code) :: rest) = none ↔ ok = true ∧ firstFail rest = none := by
  cases ok <;> simp [firstFail]

theorem lt_of_extFits {ext : Option Nat} (h : extFits ext = true) : ∀ x, ext = some x → x < 2 ^ 32 := by
  rintro x rfl
  exact of_decide_eq_true h

theorem decodeSlot_of_raw {slot w : Nat} {ext : Option Nat} {i : Instr} (hl : legal i = none) (hd : decodeRaw slot w ext = some i) :
    decodeSlot slot w ext = .ok i := by
  simp only [decodeSlot, hd, hl]

/-- What the encoding of an instruction gives back: the instruction, in both M slots alike, from words of 32 bits, of which the first
says whether a second follows (R168, R403). -/
structure RoundTrips (i : Instr) (e : Encoded) : Prop where
  decodes : decodeEncoded e = some i
  word_lt : e.word < 2 ^ 32
  ext_lt : ∀ x, e.ext = some x → x < 2 ^ 32
  either : e.slot = 4 → decodeSlot 5 e.word e.ext = .ok i
  follows : if e.slot = 8 then (bits e.word 27 16 = 0x7FF ↔ e.ext.isSome = true) else e.word.testBit 21 = e.ext.isSome

/-! ### Slot words -/

theorem roundTrips_slot {i : Instr} {slot w : Nat} {ext : Option Nat} (hl : legal i = none) (hslot : slot < 8) (hw : w < 2 ^ 32)
    (hx : extFits ext = true) (ht : w.testBit 21 = ext.isSome) (hd : decodeRaw slot w ext = some i) : RoundTrips i ⟨slot, w, ext⟩ where
  decodes := by
    have hne : ¬ (slot == 8) = true := by simpa using Nat.ne_of_lt hslot
    rw [decodeEncoded, if_neg hne, decodeSlot_of_raw hl hd, Except.toOption]
  word_lt := hw
  ext_lt := lt_of_extFits hx
  either := by
    rintro rfl
    exact decodeSlot_of_raw hl hd
  follows := (if_neg (Nat.ne_of_lt hslot)).mpr ht

section
variable {i : Instr} {slot opc : Nat} (hl : legal i = none) (hslot : slot < 8) (ho : opc < 64)
include hl hslot ho

theorem roundTrips_F3 {f : F3} (hf : f.fits = true)
    (hd : ∀ w, bits w 27 22 = opc → getF3 w f.ext = f → decodeRaw slot w f.ext = some i) : RoundTrips i ⟨slot, putF3 opc f, f.ext⟩ := by
  obtain ⟨-, -, -, -, -, hx⟩ := f.fits_iff.mp hf
  exact roundTrips_slot hl hslot (putF3_lt opc f ho hf) hx (testBit_putF3_ext opc f hf)
    (hd _ (bits_putF3_opc opc f ho hf) (getF3_putF3 opc f ho hf))

theorem roundTrips_FI {f : FI} (hf : f.fits = true)
    (hd : ∀ w, bits w 27 22 = opc → getFI w f.ext = f → decodeRaw slot w f.ext = some i) : RoundTrips i ⟨slot, putFI opc f, f.ext⟩ := by
  obtain ⟨-, -, -, -, hx⟩ := f.fits_iff.mp hf
  exact roundTrips_slot hl hslot (putFI_lt opc f ho hf) hx (testBit_putFI_ext opc f hf)
    (hd _ (bits_putFI_opc opc f ho hf) (getFI_putFI opc f ho hf))

theorem roundTrips_FB {f : FB} (hf : f.fits = true)
    (hd : ∀ w, bits w 27 22 = opc → getFB w f.ext = f → decodeRaw slot w f.ext = some i) : RoundTrips i ⟨slot, putFB opc f, f.ext⟩ := by
  obtain ⟨-, -, hx⟩ := f.fits_iff.mp hf
  exact roundTrips_slot hl hslot (putFB_lt opc f ho hf) hx (testBit_putFB_ext opc f hf)
    (hd _ (bits_putFB_opc opc f ho hf) (getFB_putFB opc f ho hf))

theorem roundTrips_FK {f : FK} {fn : Nat} (hn : fn < 8) (hf : f.fits = true)
    (hd : ∀ w, bits w 27 22 = opc → bits w 21 21 = 0 → bits w 14 12 = fn → getFK w = f → decodeRaw slot w none = some i) :
    RoundTrips i ⟨slot, putFK opc fn f, none⟩ :=
  roundTrips_slot hl hslot (putFK_lt opc fn f ho hn hf) rfl (testBit_putFK_ext opc fn f hn hf)
    (hd _ (bits_putFK_opc opc fn f ho hn hf) (bits_putFK_ext opc fn f hn hf) (bits_putFK_fn opc fn f hn hf) (getFK_putFK opc fn f ho hn hf))

theorem roundTrips_FM {f : FM} (hf : f.fits = true)
    (hd : ∀ w, bits w 27 22 = opc → getFM w f.ext = f → decodeRaw slot w f.ext = some i) : RoundTrips i ⟨slot, putFM opc f, f.ext⟩ := by
  obtain ⟨-, -, -, -, -, -, -, hx⟩ := f.fits_iff.mp hf
  exact roundTrips_slot hl hslot (putFM_lt opc f ho hf) hx (testBit_putFM_ext opc f hf)
    (hd _ (bits_putFM_opc opc f ho hf) (getFM_putFM opc f ho hf))

theorem roundTrips_FY {f : FY} (hf : f.fits = true)
    (hd : ∀ w, bits w 27 22 = opc → bits w 13 12 = 0 → getFY w f.ext = f → decodeRaw slot w f.ext = some i) :
    RoundTrips i ⟨slot, putFY opc f, f.ext⟩ := by
  obtain ⟨-, -, -, -, -, hx⟩ := f.fits_iff.mp hf
  exact roundTrips_slot hl hslot (putFY_lt opc f ho hf) hx (testBit_putFY_ext opc f hf)
    (hd _ (bits_putFY_opc opc f ho hf) (bits_putFY_zero opc f hf) (getFY_putFY opc f ho hf))

theorem roundTrips_FW {f : FW} (hf : f.fits = true)
    (hd : ∀ w, bits w 27 22 = opc → bits w 21 16 = 0 → getFW w = f → decodeRaw slot w none = some i) :
    RoundTrips i ⟨slot, putFW opc f, none⟩ :=
  roundTrips_slot hl hslot (putFW_lt opc f ho hf) rfl (testBit_putFW_ext opc f hf)
    (hd _ (bits_putFW_opc opc f ho hf) (bits_putFW_zero opc f hf) (getFW_putFW opc f ho hf))
end

theorem roundTrips_nop {g : Nat} (hg : g < 16) : RoundTrips (.nop g) ⟨0, g * 268435456, none⟩ := by
  have hopc : bits (g * 268435456) 27 22 = 0 := by rw [bits_eq_div_mod]; omega
  have hzero : bits (g * 268435456) 21 0 = 0 := by rw [bits_eq_div_mod]; omega
  have hguard : bits (g * 268435456) 31 28 = g := by rw [bits_eq_div_mod]; omega
  have hext : (g * 268435456).testBit 21 = false := by rw [testBit_eq_div_mod]; exact decide_eq_false (by omega)
  exact roundTrips_slot rfl (by decide) (by omega) rfl hext (by simp [decodeRaw, decodeS, decodeNop, hopc, hzero, hguard])

/-! ### CPY and CPY.D share an opcode; FN tells them apart (R177) -/

theorem cpy_fn {f : F3} (h : legal (.cpy f) = none) : f.fn = 0 := by
  obtain ⟨hform, -⟩ := firstFail_cons_none.mp h
  simp only [Bool.and_eq_true, decide_eq_true_eq] at hform
  omega
theorem cpyD_fn {f : F3} (h : legal (.cpyD f) = none) : f.fn = 1 := by
  obtain ⟨hform, -⟩ := firstFail_cons_none.mp h
  obtain ⟨-, hfn⟩ := Bool.and_eq_true_iff.mp hform
  exact eq_of_beq hfn

/-! ### Moves (R402 to R404) -/

theorem roundTrips_move {i : Instr} {m : LM} {dst : Nat} (hl : legal i = none) (hm : m.fits = true) (hdst : dst < 4096)
    (hc : leatCtor m dst = i) : RoundTrips i ⟨8, putLM m dst, putImm m⟩ where
  decodes := by
    have hd : decodeMove (putLM m dst) ((putImm m).getD 0) = .ok i := by
      simp [decodeMove, bits_putLM_zero, bits_putLM_dst m dst hdst, getLM_putLM m dst hdst hm, hc, hl]
    exact congrArg Except.toOption hd
  word_lt := putLM_lt m dst hdst hm
  ext_lt := by
    obtain ⟨-, -, himm, -⟩ := m.fits_iff.mp hm
    intro x hx
    simp only [putImm] at hx
    split at hx
    · exact Option.some.inj hx ▸ himm
    · exact nomatch hx
  either := nofun
  follows := by
    simp only [if_true, bits_putLM_src m dst hdst hm, putImm]
    by_cases hs : m.src = 0x7FF <;> simp [hs]

/-- A plain destination is no trigger port (R404), so the decoder reads it as MOVE. -/
theorem leatCtor_plain {dst : Nat} (m : LM) (h : leatPlainDst dst = true) : leatCtor m dst = .move m dst := by
  rw [leatCtor.eq_def]
  split
  case h_35 => rfl
  all_goals exact absurd h (by decide)

theorem move_plain {m : LM} {dst : Nat} (h : legal (.move m dst) = none) : leatPlainDst dst = true := by
  obtain ⟨-, hsrc⟩ := firstFail_cons_none.mp h
  obtain ⟨-, hdst⟩ := firstFail_cons_none.mp hsrc
  exact (firstFail_cons_none.mp hdst).1

/-! ### Every instruction -/

theorem encode_roundTrips {i : Instr} {e : Encoded} (hwf : i.wf = true) (he : encode i = some e) : RoundTrips i e := by
  obtain ⟨hf, hl⟩ := i.wf_iff.mp hwf
  cases i
  case nop g =>
    cases he
    exact roundTrips_nop (of_decide_eq_true hf)
  case add f | sub f | mul f | mulh f | div f | rem f | and f | or f | xor f | shl f | shr f | sra f | min f | max f | clz f | popc f | sel f
      | setp f | jmp f | ret f | loop f | lbrk f | exit f | sret f | fence f | join f | leave f | grp f | launch f | yieldOp f | dress f | plog f
      | pmov f | tdef f =>
    cases he
    exact roundTrips_F3 hl (by decide) (by decide) hf fun w hopc hget => by simp only [decodeRaw, decodeS, hopc, hget]
  case addi f | andi f | ori f | xori f | shli f | shri f | srai f | movi f | movh f =>
    cases he
    exact roundTrips_FI hl (by decide) (by decide) hf fun w hopc hget => by simp only [decodeRaw, decodeS, hopc, hget]
  case br f | call f | loopi f | svc f =>
    cases he
    exact roundTrips_FB hl (by decide) (by decide) hf fun w hopc hget => by simp only [decodeRaw, decodeS, hopc, hget]
  case csrr f | csrw f | csrwSet f | csrwClr f =>
    cases he
    exact roundTrips_FK hl (by decide) (by decide) (by decide) hf fun w hopc hext hfn hget => by
      simp [decodeRaw, decodeS, decodeCsrw, hopc, hext, hfn, hget]
  case vadd f | vsub f | vmul f | vfma f | vmin f | vmax f | vabs f | vneg f | vand f | vor f | vxor f | vshl f | vshr f | vsra f | vcmp f
      | vsel f | vred f | vscan f | vperm f | vbcast f | vextr f | vrcp f | vrsq f | vexp2 f | vlog2 f | viota f | vdot4 f =>
    cases he
    exact roundTrips_F3 hl (by decide) (by decide) hf fun w hopc hget => by simp only [decodeRaw, decodeV, hopc, hget]
  case lds f | sts f | ldv f | stv f | ldvs f | stvs f | ldvx f | stvx f | pref f | atom f | accv f | cflush f | cinv f =>
    cases he
    exact roundTrips_F3 hl (by decide) (by decide) hf fun w hopc hget => by simp only [decodeRaw, decodeL, hopc, hget]
  case cvt f | qnt f | dqnt f | ldk f | stk f | movk f | rndw f | rndc f | sealTile f | openTile f | pack f | unpack f =>
    cases he
    exact roundTrips_F3 hl (by decide) (by decide) hf fun w hopc hget => by simp only [decodeRaw, decodeX, hopc, hget]
  case mldb f | mma f | mtrn f | mscl f | madd f | mcvt f | mzero f | mcpy f | mvs f | mqnt f =>
    cases he
    exact roundTrips_FM hl (by decide) (by decide) hf fun w hopc hget => by simp only [decodeRaw, decodeM, hopc, hget]
  case cpy f =>
    cases he
    refine roundTrips_F3 hl (by decide) (by decide) hf fun w hopc hget => ?_
    have hfn : bits w 20 18 = 0 := (congrArg F3.fn hget).trans (cpy_fn hl)
    simp [decodeRaw, decodeC, hopc, hget, hfn]
  case cpyD f =>
    cases he
    refine roundTrips_F3 hl (by decide) (by decide) hf fun w hopc hget => ?_
    have hfn : bits w 20 18 = 1 := (congrArg F3.fn hget).trans (cpyD_fn hl)
    simp [decodeRaw, decodeC, hopc, hget, hfn]
  case send f | arm f | disarm f | cadd f | caddf f | caddm f | mcst f | cload f | coll f | gen f | qstat f =>
    cases he
    exact roundTrips_F3 hl (by decide) (by decide) hf fun w hopc hget => by simp only [decodeRaw, decodeC, hopc, hget]
  case waitf f =>
    cases he
    exact roundTrips_FW hl (by decide) (by decide) hf fun w hopc hzero hget => by simp [decodeRaw, decodeY, hopc, hzero, hget]
  case watch f | unwatch f =>
    cases he
    exact roundTrips_FY hl (by decide) (by decide) hf fun w hopc hzero hget => by simp [decodeRaw, decodeY, hopc, hzero, hget]
  case move m dst =>
    cases he
    obtain ⟨hm, hdst⟩ := Bool.and_eq_true_iff.mp hf
    exact roundTrips_move hl hm (of_decide_eq_true hdst) (leatCtor_plain m (move_plain hl))
  case aluAdd m | aluSub m | aluAnd m | aluOr m | aluXor m | aluShl m | aluShr m | aluSra m | aluEq m | aluLt m | aluLtu m | aluSel m
      | lsuLd32 m | lsuLd64 m | lsuSt32 m | lsuSt64 m | evqPop m | evqPeek m | txuTxdesc m | txuRetx m | txuAcknow m | bmuBset m | bmuBtest m
      | bmuBffc m | bmuBcnt m | ccuWinupd m | ccuRateset m | tmrTarm m | tmrTcancel m | ctrCadd m | pcJump m | pcCall m | pcRet m | pcHalt m =>
    cases he
    exact roundTrips_move hl hf (by decide) rfl
  all_goals exact nomatch he

/-- Settles O55, instruction by instruction: its layout gives the fields back, its opcode the constructor. -/
theorem encodingRoundTrip : Obligations.EncodingRoundTrip := fun _ _ hwf he =>
  have h := encode_roundTrips hwf he
  ⟨h.decodes, h.word_lt, h.ext_lt, h.either, h.follows⟩

/-- Settles O54, word by word: the decoder computes each. -/
theorem decodeWords : Obligations.DecodeWords := by
  unfold Obligations.DecodeWords
  and_intros <;> rfl

end Sys2Proof

namespace Sys2Proof.Machine

/-! ### SEND, ARM and DISARM (R285 to R287, R305, R316) -/

/-- A SEND descriptor with its addresses stepped (R282). -/
def sendStepped (s : State) (d : List Byte) : List Byte := setLE (setLE d 0 8 (stepVa s (sendSrc d))) 32 8 (stepVa s (sendResid d))

/-- The residual of a SEND that compresses, as a region (R281, R285). -/
def sendResidual (c : Nat) (d : List Byte) : List (Nat × Nat) :=
  if sendComp d = 0 then [] else [region c (sendResid d, 4 * sendRows d * sendCols d)]

/-- A SEND command with its descriptor and its draw (R285). -/
def sendCommand (t : State) (f : F3) (d : List Byte) (w : Word) : ECmd :=
  { newEngine t .send with
    slack := cSlack f, desc := d, src := sendSrc d, handle := if sendAdd d then some (fieldLE d 40 8) else none, inc := fieldLE d 48 8, rnd := w,
    number := sendInst d,
    reads := region t.cur.core (rowsExtent (sendSrc d) (sendPitch d) (sendRows d) (sendCols d * sendElem d)) :: sendResidual t.cur.core d,
    writes := sendResidual t.cur.core d }

/-- An ARM command with its descriptor and the argument B (R286). -/
def armCommand (t : State) (f : F3) (d : List Byte) (b : Nat) (handle : Option Nat) : ECmd :=
  { newEngine t .arm with
    slack := cSlack f, desc := d, slot := b % 1024, number := b / 2 ^ 32, handle := handle, inc := cImm f,
    writes := [region t.cur.core (armExtent d), region t.cur.core (armBitmap d, armBitmapLen d),
      region t.cur.core (armRing d, 8 * 2 ^ armRinglog d)] }

/-- A handle that a descriptor gives or leaves out: where it is given, its check passes (R118 to R123). -/
theorem optionalHandle_passes {s t : State} {add : Bool} {h inc : Nat} (hk : s.KeepsIssue t)
    (hc : add = true → addCheck (s.corePart s.cur.core) (s.corePart s.cur.core).hasMill h inc = none) (k : State → State) :
    (if add then withHandle t h inc k else k t) = k t := by
  split
  · next ha => exact withHandle_passes hk (hc ha) k
  · rfl

theorem drawsCommand_core {s t : State} {sto : Bool} {w : Word} (h : DrawsCommand s sto t w) : t.cur.core = s.cur.core := by
  rcases h with ⟨-, rfl, -⟩ | ⟨-, -, -, -, rfl, -⟩ <;> rfl
/-- No word was popped before a command that draws (R166). -/
theorem drawsCommand_first {s t : State} {sto : Bool} {w : Word} (h : DrawsCommand s sto t w) : sto = false ∨ s.cur.pops = 0 := by
  rcases h with ⟨hsto, -⟩ | ⟨-, hpops, -⟩
  exacts [.inl hsto, .inr hpops]

section
variable {f : F3} {s : State} {h : Option Nat} {ps : List Piece} {es : List TlbEnt} (hi : Issues 6 f.g s)
include hi

theorem execSend_holds (hr : Reaches (reads (s.atSlot 6) [f.a]) (s.srcS 6 f.a).toNat 192 64 .read false ps es) :
    let r := loadedDesc (reads (s.atSlot 6) [f.a]) s.cur.core ps es
    let d := sendStepped s r.2
    ∀ x w, sendOk r.2 = true →
    (sendAdd d = true → addCheck (s.corePart s.cur.core) (s.corePart s.cur.core).hasMill (fieldLE d 40 8) (fieldLE d 48 8) = none) →
    DrawsCommand r.1 (sendSto r.2) x w → Holdable (sendCommand x f d w) → execSend f s = .next (x.holds (sendCommand x f d w)) := by
  intro r d x w hok hcheck hd hhold
  have hk : s.KeepsIssue r.1 := loadedDesc_reads_keepsIssue s _ ps es
  have hcore : r.1.cur.core = x.cur.core := (drawsCommand_core hd).symm
  rw [execSend, slotOp_issues hi]
  simp only [reads_sval, atSlot_sval]
  rw [withDesc_reads_reaches hr, withExcess_passes (drawsCommand_first hd), if_neg (by rw [hok]; decide)]
  simp only [stepVa_keeps hk, beq_iff_eq]
  refine congrArg _ ((optionalHandle_passes hk hcheck _).trans ((popCommand_draws hd _).trans ?_))
  rw [← holdEngine_holds hhold, sendCommand, ← hcore]
  rfl

theorem execArm_holds (hr : Reaches (reads (s.atSlot 6) [f.a, f.b]) (s.srcS 6 f.a).toNat 64 64 .read false ps es) (hh : handleAt s f.d (cImm f) h) :
    let r := loadedDesc (reads (s.atSlot 6) [f.a, f.b]) s.cur.core ps es
    let b := (s.srcS 6 f.b).toNat
    let d := armStepped s r.2
    let t := readD r.1 f.d
    bits b 31 10 = 0 → armOk r.2 = true → addCheck (s.corePart s.cur.core) (s.corePart s.cur.core).hasMill (armRingctr d) 1 = none →
    addCheck (s.corePart s.cur.core) (s.corePart s.cur.core).hasMill (armDonectr d) 1 = none →
    slotTaken t (coreDie s.cur.core) (b % 1024) = false → Holdable (armCommand t f d b h) →
    execArm f s = .next (t.holds (armCommand t f d b h)) := by
  intro r b d t hb hok hring hdone hfree hhold
  have hk := loadedDesc_reads_keepsIssue s [f.a, f.b] ps es
  have hcore : t.cur.core = s.cur.core := (readD_keepsIssue hk f.d).core
  rw [execArm, slotOp_issues hi]
  simp only [reads_sval, atSlot_sval, reads_cur, atSlot_cur_core]
  rw [withDesc_reads_reaches hr]
  simp only [stepVa_keeps hk]
  rw [if_neg (by simpa using hb), if_neg (by rw [hok]; decide)]
  refine congrArg _ ((withHandle_passes hk hring _).trans ((withHandle_passes hk hdone _).trans
    ((withD_passes hk (loadedDesc_reads_sval s _ ps es _) hh _).trans ((if_neg (by rw [hfree]; decide)).trans ?_))))
  rw [← holdEngine_holds hhold, armCommand, hcore]
  rfl

theorem execDisarm_holds (hh : handleAt s f.d (cImm f) h) :
    let b := (s.srcS 6 f.b).toNat
    let t := seenAt s [f.b] f.d
    slotOwned t (coreDie s.cur.core) b (s.curCore.job.getD 0) = true →
    execDisarm f s = .next (t.holds { newEngine t .disarm with slot := b, handle := h, inc := cImm f }) := by
  intro b t howned
  have hk : s.KeepsIssue t := readD_keepsIssue (reads_keepsIssue s 6 _) f.d
  rw [execDisarm, slotOp_issues hi]
  simp only [reads_sval, atSlot_sval]
  rw [withD_passes (reads_keepsIssue s 6 _) (reads_sval _ _ _) hh, show readD _ _ = t from rfl, hk.core, hk.context, howned]
  exact congrArg _ (holdEngine_holds (fun _ r hr => absurd hr List.not_mem_nil) t)
end

/-- Settles O30: the descriptor, the handles and the slot pass, a stochastic SEND draws, and the command is held. -/
theorem deliveryCommandsComplete : Obligations.DeliveryCommandsComplete := by
  intro f s h ps es hi c step b
  refine ⟨?send, ?arm, fun hh => execDisarm_holds hi hh⟩
  case send =>
    intro seen hr l t d0 d x w hok hcheck hd res e hhold
    have he : e = sendCommand x f d w := by
      have hc : x.cur.core = c := (drawsCommand_core hd).trans (loadedDesc_reads_keepsIssue s [f.a] ps es).core
      rw [sendCommand, hc]
      rfl
    rw [he] at hhold ⊢
    exact execSend_holds hi hr x w hok hcheck hd hhold
  case arm =>
    intro seen hr l u d0 d hb hok hring hdone hh t hfree e hhold
    have he : e = armCommand t f d b h := by
      have hc : t.cur.core = c := (readD_keepsIssue (loadedDesc_reads_keepsIssue s [f.a, f.b] ps es) f.d).core
      rw [armCommand, hc]
    rw [he] at hhold ⊢
    exact execArm_holds hi hr hh hb hok hring hdone hfree hhold

end Sys2Proof.Machine

namespace Sys2Proof.Machine

/-! ### Integer results of the S slot (R192, R193) -/

/-- Two's complement of an integer, by its bits. -/
theorem ofNat_islice (w : Nat) (z : Int) : BitVec.ofNat w (islice w z) = BitVec.ofInt w z := by
  refine BitVec.eq_of_toNat_eq ?_
  rw [BitVec.toNat_ofNat, BitVec.toNat_ofInt, Nat.mod_eq_of_lt (islice_lt w z), islice, Nat.cast_pow, Nat.cast_ofNat]

/-- A saturating fit is the nearest number of its range, and SAT where that is another number (R192, R223). -/
theorem fitInt_saturates (x : Int) (w : Nat) (unsigned : Bool) :
    let lo : Int := if unsigned then 0 else -(2 ^ (w - 1))
    let hi : Int := if unsigned then 2 ^ w - 1 else 2 ^ (w - 1) - 1
    BitVec.ofNat w (fitInt x w unsigned true).1 = BitVec.ofInt w (clampTo lo hi x) ∧ (fitInt x w unsigned true).2 = satBit lo hi x := by
  intro lo hi
  have hrange : lo ≤ hi := by
    have h1 : (0 : Int) < 2 ^ w := by positivity
    have h2 : (0 : Int) < 2 ^ (w - 1) := by positivity
    simp only [lo, hi]; split <;> omega
  have hfit : fitInt x w unsigned true = if x > hi then (islice w hi, fSAT) else if x < lo then (islice w lo, fSAT) else (islice w x, 0) := rfl
  rw [hfit, clampTo, satBit]
  by_cases hhi : hi < x
  · rw [if_pos hhi, if_neg (by omega), if_pos hhi, if_pos (.inr hhi)]
    exact ⟨ofNat_islice w hi, rfl⟩
  · by_cases hlo : x < lo
    · rw [if_neg hhi, if_pos hlo, if_pos hlo, if_pos (.inl hlo)]
      exact ⟨ofNat_islice w lo, rfl⟩
    · rw [if_neg hhi, if_neg hlo, if_neg hlo, if_neg hhi, if_neg (by omega)]
      exact ⟨ofNat_islice w x, rfl⟩

theorem fitInt_signed (x : Int) :
    let r := fitInt x 64 false true
    (BitVec.ofNat 64 r.1, r.2) = (BitVec.ofInt 64 (clampTo (-(2 ^ 63)) (2 ^ 63 - 1) x), satBit (-(2 ^ 63)) (2 ^ 63 - 1) x) :=
  Prod.ext_iff.mpr (fitInt_saturates x 64 false)
theorem fitInt_unsigned (x : Int) :
    let r := fitInt x 64 true true
    (BitVec.ofNat 64 r.1, r.2) = (BitVec.ofInt 64 (clampTo 0 (2 ^ 64 - 1) x), satBit 0 (2 ^ 64 - 1) x) :=
  Prod.ext_iff.mpr (fitInt_saturates x 64 true)

/-- A scalar operation on two sources, once its result and status bits are known (R190). -/
theorem opAB_gives {f : F3} {s : State} {lat st : Nat} {res : Word → Word → Word × Nat} {v : Word} (hi : Issues 0 f.g s)
    (hr : res (s.srcS 0 f.a) (s.srcS 0 f.b) = (v, st)) : opAB f lat s res = .next (s.delivers 0 [f.a, f.b] st [landS 0 f.d v lat]) := by
  rw [opAB_issues hi, hr]

/-- Settles O1: each sum by its FN, the clamps by what fits. -/
theorem integerSumsComplete : Obligations.IntegerSumsComplete := by
  intro f s hi a b out signed unsigned
  refine ⟨fun h => ⟨opAB_gives hi ?_, opAB_gives hi ?_⟩, fun h => ⟨opAB_gives hi ?_, opAB_gives hi ?_⟩,
    fun h => ⟨opAB_gives hi ?_, opAB_gives hi ?_⟩⟩
  · simp only [addSat, h, BitVec.ofInt_add, BitVec.ofInt_toInt, a, b]
  · simp only [subSat, h, a, b, Int.sub_eq_add_neg, BitVec.sub_eq_add_neg, BitVec.ofInt_add, BitVec.ofInt_neg, BitVec.ofInt_toInt]
  · simp only [addSat, h, fitInt_signed, a, b]
  · simp only [subSat, h, fitInt_signed, a, b]
  · simp only [addSat, h, fitInt_unsigned, a, b]
  · simp only [subSat, h, fitInt_unsigned, a, b]

/-! ### Products and shifts (R192) -/

/-- A signed shift by the width or more leaves copies of the sign. -/
theorem shiftA_eq (a b : Word) : shiftA a b = BitVec.ofInt 64 (a.toInt / 2 ^ b.toNat) := by
  rw [shiftA]
  split
  · next h =>
    have hlo : -(2 ^ 64 : Int) ≤ a.toInt := by have := a.le_two_mul_toInt; omega
    have hhi : a.toInt < 2 ^ 64 := by have := a.two_mul_toInt_lt; omega
    rw [ediv_two_pow_of_small hlo hhi h, BitVec.msb_eq_toInt]
    by_cases hz : a.toInt < 0
    · simp [hz, allOnes]
    · simp [hz]
  · rw [BitVec.sshiftRight, Int.shiftRight_eq_div_pow, Nat.cast_pow, Nat.cast_ofNat]
theorem shiftL_eq (a b : Word) : shiftL a b = BitVec.ofNat 64 (a.toNat * 2 ^ b.toNat) := by
  refine BitVec.eq_of_toNat_eq ?_
  rw [BitVec.toNat_ofNat, ← shl_eq_of_width, shiftL]
  split
  · rfl
  · rw [BitVec.toNat_shiftLeft, Nat.shiftLeft_eq]
theorem shiftR_eq (a b : Word) : shiftR a b = BitVec.ofNat 64 (a.toNat / 2 ^ b.toNat) := by
  refine BitVec.eq_of_toNat_eq ?_
  rw [toNat_ofNat_of_lt (Nat.lt_of_le_of_lt (Nat.div_le_self _ _) a.isLt) le_rfl, ← shr_eq_of_width a.isLt, shiftR]
  split
  · rfl
  · rw [BitVec.toNat_ushiftRight, Nat.shiftRight_eq_div_pow]

/-- The smaller and the larger of two words, read as numbers (R192). -/
theorem smaller_eq {α : Type} [LinearOrder α] (num : Word → α) (a b : Word) :
    (if num b < num a then b else a) = if num a ≤ num b then a else b := by
  simp only [← not_le, ite_not]
theorem larger_eq {α : Type} [LinearOrder α] {num : Word → α} (hnum : Function.Injective num) (a b : Word) :
    (if num a < num b then b else a) = if num a ≤ num b then b else a := by
  rcases lt_trichotomy (num a) (num b) with h | h | h
  · rw [if_pos h, if_pos h.le]
  · rw [hnum h, ite_self, ite_self]
  · rw [if_neg h.le.not_gt, if_neg h.not_ge]

/-- Settles O2: each result in integers or naturals, the shifts for every amount. -/
theorem integerOperationsComplete : Obligations.IntegerOperationsComplete := by
  intro f s hi a b out
  refine ⟨show execMul f s = _ from opAB_gives hi ?mul, fun h => show execMulh f s = _ from opAB_gives hi ?mulhSigned,
    fun h => show execMulh f s = _ from opAB_gives hi ?mulhUnsigned, fun h => show execMulh f s = _ from opAB_gives hi ?mulhMixed,
    show execAnd f s = _ from opAB_gives hi rfl, show execOr f s = _ from opAB_gives hi rfl, show execXor f s = _ from opAB_gives hi rfl,
    show execShl f s = _ from opAB_gives hi ?shl, show execShr f s = _ from opAB_gives hi ?shr, show execSra f s = _ from opAB_gives hi ?sra,
    fun h => ⟨show execMin f s = _ from opAB_gives hi ?minSigned, show execMax f s = _ from opAB_gives hi ?maxSigned⟩,
    fun h => ⟨show execMin f s = _ from opAB_gives hi ?minUnsigned, show execMax f s = _ from opAB_gives hi ?maxUnsigned⟩⟩
  case mul => rw [BitVec.ofInt_mul, BitVec.ofInt_toInt, BitVec.ofInt_toInt]
  case mulhSigned => simp only [mulHigh, h]; rfl
  case mulhUnsigned =>
    rw [← BitVec.ofInt_natCast]
    simp only [mulHigh, h]; push_cast; rfl
  case mulhMixed => simp only [mulHigh, h]; rfl
  case shl => rw [shiftL_eq]
  case shr => rw [shiftR_eq]
  case sra => rw [shiftA_eq]
  case minSigned => simp only [h, BitVec.slt, smaller_eq, beq_iff_eq, decide_eq_true_eq, zero_ne_one, if_false, a, b]
  case maxSigned =>
    simp only [h, BitVec.slt, larger_eq fun _ _ => BitVec.eq_of_toInt_eq, beq_iff_eq, decide_eq_true_eq, zero_ne_one, if_false, a, b]
  case minUnsigned => simp only [h, BitVec.ult, smaller_eq, beq_self_eq_true, decide_eq_true_eq, if_true, a, b]
  case maxUnsigned =>
    simp only [h, BitVec.ult, larger_eq fun _ _ => BitVec.eq_of_toNat_eq, beq_self_eq_true, decide_eq_true_eq, if_true, a, b]

/-! ### Quotients (R193) -/

/-- The remainder of a division truncated towards zero has the sign of the dividend, or is 0. -/
theorem tmod_mul_nonneg (x y : Int) : 0 ≤ x.tmod y * x := by
  rcases Int.le_total 0 x with h | h
  · exact mul_nonneg (Int.tmod_nonneg y h) h
  · have hneg : 0 ≤ (-x).tmod y := Int.tmod_nonneg y (by omega)
    rw [Int.neg_tmod] at hneg
    exact mul_nonneg_of_nonpos_of_nonpos (by omega) h

theorem divRem_zero (unsigned : Bool) (a : Word) : divRem unsigned a 0 = (BitVec.ofInt 64 (-1), a) := rfl
theorem divRem_signed {b : Word} (a : Word) (hb : b ≠ 0) :
    divRem false a b = (BitVec.ofInt 64 (a.toInt.tdiv b.toInt), BitVec.ofInt 64 (a.toInt.tmod b.toInt)) := by
  rw [divRem, if_neg hb]; rfl
theorem divRem_unsigned {b : Word} (a : Word) (hb : b ≠ 0) :
    divRem true a b = (BitVec.ofNat 64 (a.toNat / b.toNat), BitVec.ofNat 64 (a.toNat % b.toNat)) := by
  rw [divRem, if_neg hb, if_pos rfl, ← BitVec.toNat_udiv, ← BitVec.toNat_umod, BitVec.ofNat_toNat, BitVec.ofNat_toNat, BitVec.setWidth_eq,
    BitVec.setWidth_eq]

/-- DIV and REM together, by what DivRem answers. -/
theorem divisions_give {f : F3} {s : State} {q r : Word} (hi : Issues 0 f.g s)
    (h : divRem (f.fn == 1) (s.srcS 0 f.a) (s.srcS 0 f.b) = (q, r)) :
    execDiv f s = .next (s.delivers 0 [f.a, f.b] 0 [landS 0 f.d q 24]) ∧ execRem f s = .next (s.delivers 0 [f.a, f.b] 0 [landS 0 f.d r 24]) :=
  ⟨opAB_gives hi (by rw [h]), opAB_gives hi (by rw [h])⟩

/-- Settles O3: DivRem by zero, signed and unsigned. -/
theorem divisionsComplete : Obligations.DivisionsComplete := by
  intro f s hi a b out
  refine ⟨fun hb => divisions_give hi ?zero,
    fun hb h => ⟨a.toInt.tdiv b.toInt, a.toInt.tmod b.toInt, ?sum, ?small, tmod_mul_nonneg _ _, divisions_give hi ?signed⟩,
    fun hb h => divisions_give hi ?unsigned⟩
  case zero => rw [show s.srcS 0 f.b = 0 from hb, divRem_zero]
  case signed => rw [h]; exact divRem_signed a hb
  case unsigned => rw [h]; exact divRem_unsigned a hb
  case sum => exact (Int.mul_tdiv_add_tmod _ _).symm
  case small =>
    rw [Int.natAbs_tmod]
    exact Nat.mod_lt _ (Int.natAbs_pos.mpr fun h0 => hb (BitVec.eq_of_toInt_eq h0))

/-! ### Bits and predicates (R192, R195) -/

/-- A scalar operation on one source, once its result is known (R190). -/
theorem opA_gives {f : F3} {s : State} {lat : Nat} {res : Word → Word} {v : Word} (hi : Issues 0 f.g s) (hr : res (s.srcS 0 f.a) = v) :
    opA f lat s res = .next (s.delivers 0 [f.a] 0 [landS 0 f.d v lat]) := by
  rw [opA_issues hi, hr]

/-- The leading zeros of a word, by the powers of two it lies between. -/
theorem leadZeros_eq {a : Word} {n : Nat} (h : (n = 64 ∧ a.toNat = 0) ∨ (n < 64 ∧ 2 ^ (63 - n) ≤ a.toNat ∧ a.toNat < 2 ^ (64 - n))) :
    leadZeros a = n := by
  rw [leadZeros]
  rcases h with ⟨rfl, h0⟩ | ⟨hn, hlo, hhi⟩
  · rw [if_pos (BitVec.eq_of_toNat_eq h0)]
  · have hne : a.toNat ≠ 0 := by have := Nat.two_pow_pos (63 - n); omega
    have hlog : a.toNat.log2 = 63 - n := (Nat.log2_eq_iff hne).mpr ⟨hlo, by rwa [show 63 - n + 1 = 64 - n by omega]⟩
    rw [if_neg fun h => hne (congrArg BitVec.toNat h), hlog]
    omega

theorem countOnes_eq (a : Word) : countOnes a = (List.range 64).countP fun i => a.getLsbD i := List.countP_eq_length_filter.symm

theorem predOf_eq {c : Prop} [Decidable c] {b : Bool} (h : b = true ↔ c) : predOf b = if c then BitVec.allOnes 64 else 0 := by
  by_cases hc : c
  · rw [h.mpr hc, if_pos hc]; rfl
  · rw [Bool.eq_false_iff.mpr (mt h.mp hc), if_neg hc]; rfl

/-- SETP writes the outcome of its condition to every bit (R195). -/
theorem execSetp_gives {f : F3} {s : State} {c : Prop} [Decidable c] (hi : Issues 0 f.g s)
    (hc : setpCond f.fn (s.srcS 0 f.a) (s.srcS 0 f.b) = true ↔ c) :
    execSetp f s = .next (s.delivers 0 [f.a, f.b] 0 [landP 0 f.d (if c then BitVec.allOnes 64 else 0) (BitVec.allOnes 64) 1]) := by
  rw [execSetp, slotOp_issues hi]
  simp only [atSlot_sval, giveP_eq, deliver_reads, predOf_eq hc]
  rfl
theorem execPlog_gives {f : F3} {s : State} {v : Word} (hi : Issues 0 f.g s)
    (hv : plogOp f.fn (s.curCore.live.pred f.a) (s.curCore.live.pred f.b) = v) :
    execPlog f s = .next (s.delivers 0 [] 0 [landP 0 f.d v (BitVec.allOnes 64) 1]) := by
  rw [execPlog, slotOp_issues hi, giveP_eq, deliver_plain, ← hv]
  rfl

/-- PMOV from a predicate (FN 1), and to one by its value or a test (R195). -/
theorem execPmov_scalar {f : F3} {s : State} (hi : Issues 0 f.g s) (h : f.fn = 1) :
    execPmov f s = .next (s.delivers 0 [] 0 [landS 0 f.d (s.curCore.live.pred f.a) 1]) := by
  rw [execPmov, slotOp_issues hi, if_pos (by rw [h]; rfl), giveS_eq, deliver_plain]
  rfl
theorem execPmov_predicate {f : F3} {s : State} {v : Word} (hi : Issues 0 f.g s) (h : f.fn ≠ 1)
    (hv : (if f.fn == 0 then s.srcS 0 f.a else predOf (s.srcS 0 f.a != 0)) = v) :
    execPmov f s = .next (s.delivers 0 [f.a] 0 [landP 0 f.d v (BitVec.allOnes 64) 1]) := by
  rw [execPmov, slotOp_issues hi, if_neg (by simpa using h), giveP_eq, deliver_reads, ← hv]
  rfl

/-- Settles O4: CLZ by powers of two, POPC by counting, the rest by the outcome of FN. -/
theorem bitsAndPredicatesComplete : Obligations.BitsAndPredicatesComplete := by
  intro f s hi a b p all
  refine ⟨fun n hn => show execClz f s = _ from opA_gives hi ?clz, show execPopc f s = _ from opA_gives hi ?popc,
    show execSel f s = _ from opAB_gives hi rfl, ?setp, ?plog, fun h => execPmov_predicate hi ?_ ?value, fun h => execPmov_scalar hi h,
    fun h => execPmov_predicate hi ?_ ?test⟩
  case clz => rw [leadZeros_eq hn]
  case popc => rw [countOnes_eq]
  case setp =>
    intro cmp
    have gives (fn : Nat) (c : Prop) [Decidable c] (hc : setpCond fn a b = true ↔ c) : cmp fn c := fun h => execSetp_gives hi (h ▸ hc)
    refine ⟨gives 0 _ ?_, gives 1 _ ?_, gives 2 _ ?_, gives 3 _ ?_, gives 4 _ ?_, gives 5 _ ?_, gives 6 _ ?_, gives 7 _ ?_⟩ <;>
      simp [setpCond, BitVec.slt, BitVec.ult]
  case plog =>
    intro log
    exact ⟨fun h => execPlog_gives hi (h ▸ rfl), fun h => execPlog_gives hi (h ▸ rfl), fun h => execPlog_gives hi (h ▸ rfl),
      fun h => execPlog_gives hi (h ▸ rfl), fun h => execPlog_gives hi (h ▸ rfl), fun h => execPlog_gives hi (h ▸ rfl)⟩
  case value => rw [h]; rfl
  case test => rw [h]; exact predOf_eq bne_iff_ne
  all_goals omega

/-! ### Immediates (R172, R194) -/

theorem immFI_of_immOf {f : FI} {imm : Int} (h : ImmOf f.ext 9 f.imm9 imm) : immFI f = BitVec.ofInt 64 imm := by
  rcases h with ⟨he, -, rfl⟩ | ⟨e, he, -, rfl⟩ <;> simp only [immFI, he, BitVec.signExtend]

/-- The halves of MOVH, joined as numbers (R194). -/
theorem movh_eq (a i : Word) : (i <<< 32) ||| (a &&& 0xFFFFFFFF) = BitVec.ofNat 64 (i.toNat % 2 ^ 32 * 2 ^ 32 + a.toNat % 2 ^ 32) := by
  refine BitVec.eq_of_toNat_eq ?_
  have hlow : a.toNat % 2 ^ 32 < 2 ^ 32 := Nat.mod_lt _ (by decide)
  have hhigh : i.toNat * 2 ^ 32 % 2 ^ 64 = 2 ^ 32 * (i.toNat % 2 ^ 32) := by omega
  rw [BitVec.toNat_or, BitVec.toNat_and, BitVec.toNat_shiftLeft, Nat.shiftLeft_eq, hhigh, BitVec.toNat_ofNat,
    show (0xFFFFFFFF : Word).toNat = 2 ^ 32 - 1 from rfl, Nat.and_two_pow_sub_one_eq_mod, ← Nat.two_pow_add_eq_or_of_lt hlow]
  omega

theorem opImm_gives {f : FI} {s : State} {res : Word → Word → Word} {imm : Int} {v : Word} (hi : Issues 0 f.g s) (himm : ImmOf f.ext 9 f.imm9 imm)
    (hr : res (s.srcS 0 f.a) (BitVec.ofInt 64 imm) = v) : opImm f s res = .next (s.delivers 0 [f.a] 0 [landS 0 f.d v 1]) := by
  rw [opImm_issues hi, immFI_of_immOf himm, hr]

/-- Settles O5: the immediate is sign-extended, the results are those of the operations on two sources. -/
theorem immediatesComplete : Obligations.ImmediatesComplete := by
  intro f s imm hi himm a i out
  exact ⟨show execAddi f s = _ from opImm_gives hi himm rfl, show execAndi f s = _ from opImm_gives hi himm rfl,
    show execOri f s = _ from opImm_gives hi himm rfl, show execXori f s = _ from opImm_gives hi himm rfl,
    show execShli f s = _ from opImm_gives hi himm (shiftL_eq a i), show execShri f s = _ from opImm_gives hi himm (shiftR_eq a i),
    show execSrai f s = _ from opImm_gives hi himm (shiftA_eq a i),
    show execMovi f s = _ by rw [execMovi, slotOp_issues hi, immFI_of_immOf himm, giveS_eq, deliver_plain],
    show execMovh f s = _ from opImm_gives hi himm (movh_eq a i)⟩

/-! ### Branches and loops (R196 to R200) -/

/-- A word whose low two bits are 0 is a multiple of 4. -/
theorem lowBits_ne_zero_iff (a : Word) : (a &&& 3 != 0) = true ↔ a.toNat % 4 ≠ 0 := by
  have h : (a &&& 3).toNat = a.toNat % 4 := Nat.and_two_pow_sub_one_eq_mod a.toNat 2
  rw [bne_iff_ne, ne_eq, BitVec.toNat_eq, h]
  rfl

/-- The bytes of a branch's offset, from its immediate in bundles of four. -/
theorem branchOffset_eq {f : FB} {imm : Int} (h : ImmOf f.ext 21 f.imm21 imm) : immFB f <<< 2 = BitVec.ofInt 64 (4 * imm) := by
  rw [immFB_of_immOf h, BitVec.ofInt_mul, BitVec.shiftLeft_eq_mul_twoPow, BitVec.mul_comm]
  rfl

/-- A count that LOOPI gives as its immediate (R198). -/
theorem immFB_toNat {f : FB} {n : Nat} (h : ImmOf f.ext 21 f.imm21 n) : (immFB f).toNat = n := by
  have hn : n < 2 ^ 64 := by
    rcases h with ⟨-, -, h⟩ | ⟨e, -, -, h⟩
    · have := BitVec.toInt_lt (x := BitVec.ofNat 21 f.imm21); omega
    · have := BitVec.toInt_lt (x := BitVec.ofNat 32 e); omega
  rw [immFB_of_immOf h, BitVec.ofInt_natCast, BitVec.toNat_ofNat, Nat.mod_eq_of_lt hn]

theorem onLead_atSlot {s : State} (h : s.cur.follower = false) (slot : Nat) (k : State → State) : onLead (s.atSlot slot) k = k (s.atSlot slot) :=
  onLead_lead (s := s.atSlot slot) h k
theorem onLead_reads {s : State} (h : s.cur.follower = false) (slot : Nat) (codes : List Nat) (k : State → State) :
    onLead (reads (s.atSlot slot) codes) k = k (reads (s.atSlot slot) codes) :=
  onLead_lead (by rw [reads_cur]; exact h) k
theorem onLead_atSlot_follower {s : State} (h : s.cur.follower = true) (slot : Nat) (k : State → State) :
    onLead (s.atSlot slot) k = s.atSlot slot :=
  onLead_follower (s := s.atSlot slot) h k
theorem onLead_reads_follower {s : State} (h : s.cur.follower = true) (slot : Nat) (codes : List Nat) (k : State → State) :
    onLead (reads (s.atSlot slot) codes) k = reads (s.atSlot slot) codes :=
  onLead_follower (by rw [reads_cur]; exact h) k

/-- JMP on the lead, and RET, which is the same (R197): it traps or goes on at the address of its source. -/
theorem execJmp_lead {f : F3} {s : State} (hi : Issues 0 f.g s) (hl : s.cur.follower = false) :
    let seen := reads (s.atSlot 0) [f.a]
    execJmp f s = .next (if (s.srcS 0 f.a).toNat % 4 ≠ 0 then raise seen cAlign (s.srcS 0 f.a).toNat else seen.goes (s.srcS 0 f.a)) := by
  rw [execJmp, slotOp_issues hi, onLead_reads hl]
  simp only [reads_sval, atSlot_sval, lowBits_ne_zero_iff]
  rfl

/-- Settles O6: the lead goes to its target, a follower nowhere. -/
theorem branchesComplete : Obligations.BranchesComplete := by
  refine ⟨fun g s => rfl, fun f s imm hi himm => ⟨fun hl => ⟨?br, ?call⟩, fun hf => ⟨?brFollower, ?callFollower⟩⟩,
    fun f s hi => ⟨fun hl ha => ?jumps, fun hf => ⟨?jmpFollower, ?retFollower⟩⟩⟩
  case br =>
    show execBr f s = _
    rw [execBr, slotOp_issues hi, onLead_atSlot hl, branchOffset_eq himm]
    rfl
  case call =>
    show execCall f s = _
    rw [execCall, slotOp_issues hi, onLead_atSlot hl, branchOffset_eq himm, giveS_eq]
    exact congrArg _ (deliver_plain (s.goes _) 0 _)
  case brFollower =>
    show execBr f s = _
    rw [execBr, slotOp_issues hi, onLead_atSlot_follower hf]
  case callFollower =>
    show execCall f s = _
    rw [execCall, slotOp_issues hi, onLead_atSlot_follower hf]
  case jumps =>
    have h := (execJmp_lead hi hl).trans (congrArg _ (if_neg (not_not.mpr ha)))
    exact ⟨h, h⟩
  case jmpFollower =>
    show execJmp f s = _
    rw [execJmp, slotOp_issues hi, onLead_reads_follower hf]
  case retFollower =>
    show execRet f s = _
    rw [execRet, slotOp_issues hi, onLead_reads_follower hf]

/-- A push with room for its entry, and one without (R198). -/
theorem pushLoop_room {s : State} (h : s.curCore.live.loops.length < 6) (n : Nat) :
    pushLoop s n = s.onArch fun a => { a with loops := ⟨n, 0, s.cur.next, n == 0⟩ :: s.curCore.live.loops } := by
  rw [pushLoop, if_neg (Nat.not_le.mpr h)]
  rfl
theorem pushLoop_full {s : State} (h : s.curCore.live.loops.length = 6) (n : Nat) : pushLoop s n = raise s cLoopOverflow 0 := by
  rw [pushLoop, if_pos h.ge]

section
variable {f : F3} {b : FB} {s : State} (hl : s.cur.follower = false)
include hl

/-- LOOP, LOOPI and LBRK on the lead (R198, R200). -/
theorem execLoop_lead (hi : Issues 0 f.g s) :
    let seen := reads (s.atSlot 0) [f.a]
    let n := (s.srcS 0 f.a).toNat
    execLoop f s = .next (if 2 ^ 32 ≤ n then raise seen cBound n else pushLoop seen n) := by
  rw [execLoop, slotOp_issues hi, onLead_reads hl, reads_sval]
  rfl
theorem execLoopi_lead (hi : Issues 0 b.g s) : execLoopi b s = .next (pushLoop (s.atSlot 0) (immFB b).toNat) := by
  rw [execLoopi, slotOp_issues hi, onLead_atSlot hl]
theorem execLbrk_breaks (hi : Issues 0 f.g s) {e : LoopEnt} {es : List LoopEnt} (h : s.curCore.live.loops = e :: es) :
    execLbrk f s = .next ((s.atSlot 0).onArch fun a => { a with loops := { e with count := e.index + 1 } :: es }) := by
  rw [execLbrk, slotOp_issues hi, onLead_atSlot hl]
  simp only [atSlot_curCore, h]
  rfl
theorem execLbrk_underflows (hi : Issues 0 f.g s) (h : s.curCore.live.loops = []) :
    execLbrk f s = .next (raise (s.atSlot 0) cLoopUnderflow 0) := by
  rw [execLbrk, slotOp_issues hi, onLead_atSlot hl]
  simp only [atSlot_curCore, h]
end

/-- Settles O7: the lead pushes or breaks, a follower does neither. -/
theorem loopsComplete : Obligations.LoopsComplete := by
  refine ⟨fun f s hi hl hn hroom => ?loop, fun f s n hi hl hn hroom => ?loopi, fun f s e es hi hl h => execLbrk_breaks hl hi h,
    fun f b s hf => ⟨fun hi => ⟨?loopFollower, ?lbrkFollower⟩, fun hi => ?loopiFollower⟩⟩
  case loop =>
    have hroom' : (reads (s.atSlot 0) [f.a]).curCore.live.loops.length < 6 := by rw [reads_loops]; exact hroom
    refine (execLoop_lead hl hi).trans ?_
    rw [if_neg (Nat.not_le.mpr hn), pushLoop_room hroom', reads_loops, reads_cur]
    rfl
  case loopi =>
    refine (execLoopi_lead hl hi).trans ?_
    rw [immFB_toNat hn, pushLoop_room (s := s.atSlot 0) hroom]
    rfl
  case loopFollower =>
    show execLoop f s = _
    rw [execLoop, slotOp_issues hi, onLead_reads_follower hf]
  case lbrkFollower =>
    show execLbrk f s = _
    rw [execLbrk, slotOp_issues hi, onLead_atSlot_follower hf]
  case loopiFollower =>
    show execLoopi b s = _
    rw [execLoopi, slotOp_issues hi, onLead_atSlot_follower hf]

/-! ### CSR reads (R202 to R206) -/

/-- A CSR that its reader may read is delivered (R202, R204). -/
theorem execCsrr_gives {f : FK} {s : State} (hi : Issues 0 f.g s) (h : csrHidden (privOf s s.cur.core) f.csr = false) :
    execCsrr f s = .next (s.delivers 0 [] 0 [landS 0 f.reg (csrRead s s.cur.core f.csr) 1]) := by
  have hshown : csrHidden (privOf (s.atSlot 0) (s.atSlot 0).cur.core) f.csr = false := h
  rw [execCsrr, slotOp_issues hi, if_neg (ne_true_of_eq_false hshown), giveS_eq, deliver_plain]
  rfl
/-- SVCVEC alone is hidden, from a strand in USER (R204). -/
theorem csrHidden_ne {n : Nat} (p : Nat) (h : n ≠ 0x104) : csrHidden p n = false := by simp [csrHidden, h]
theorem csrHidden_above {p : Nat} (n : Nat) (h : p ≠ 0) : csrHidden p n = false := by simp [csrHidden, h]

/-- Settles O10: each CSR by its place in the table of R204. -/
theorem csrReadsComplete : Obligations.CsrReadsComplete := by
  intro f s hi x m p gives
  have reads_ (n : Nat) (v : Word) (hn : n ≠ 0x104) (hv : csrRead s s.cur.core n = v) : gives n v := fun h =>
    (execCsrr_gives hi (csrHidden_ne _ (h ▸ hn))).trans (by rw [h, hv])
  refine ⟨fun hc => ?strand, fun hc => ?controller, ?_⟩
  case strand =>
    have hm : (s.cur.core == mgmtCore) = false := by simpa [mgmtCore] using hc
    refine ⟨reads_ 0x000 _ (by decide) ?_, reads_ 0x030 _ (by decide) ?_, reads_ 0x031 _ (by decide) ?_, reads_ 0x200 _ (by decide) ?_,
      reads_ 0x201 _ (by decide) ?_⟩
    all_goals simp only [csrRead, hm]; rfl
  case controller =>
    have hm : (s.cur.core == mgmtCore) = true := by simp [mgmtCore, hc]
    refine ⟨reads_ 0x000 _ (by decide) ?_, reads_ 0x030 _ (by decide) ?_, reads_ 0x031 _ (by decide) ?_, reads_ 0x200 _ (by decide) ?_,
      reads_ 0x201 _ (by decide) ?_⟩
    all_goals simp only [csrRead, hm]; rfl
  have reads_rfl (n : Nat) (hn : n ≠ 0x104) : gives n (csrRead s s.cur.core n) := reads_ n _ hn rfl
  refine ⟨reads_rfl 0x001 (by decide), reads_rfl 0x002 (by decide), reads_rfl 0x003 (by decide), reads_rfl 0x004 (by decide),
    reads_rfl 0x005 (by decide), reads_rfl 0x006 (by decide), reads_rfl 0x007 (by decide), reads_rfl 0x008 (by decide),
    reads_rfl 0x009 (by decide), reads_rfl 0x00A (by decide), reads_rfl 0x00B (by decide), reads_rfl 0x00C (by decide),
    fun k hk => reads_ _ _ (by omega) ?lbound, fun k hk => reads_ _ _ (by omega) ?step, reads_rfl 0x020 (by decide), reads_rfl 0x021 (by decide),
    reads_rfl 0x028 (by decide), reads_rfl 0x029 (by decide), reads_rfl 0x100 (by decide), reads_rfl 0x101 (by decide),
    reads_rfl 0x102 (by decide), reads_rfl 0x103 (by decide), fun hp h => ?svcvec⟩
  case lbound => match k, hk with | 0, _ | 1, _ | 2, _ | 3, _ => rfl
  case step => match k, hk with | 0, _ | 1, _ | 2, _ | 3, _ | 4, _ => rfl
  case svcvec =>
    refine (execCsrr_gives hi (csrHidden_above _ (privOf_ne_zero hp))).trans ?_
    rw [h]
    rfl

/-! ### Faults of the S slot (R191, R197 to R200, R203, R204, R207, R208, R210, R211, R213, R215, R216) -/

/-- What only USER may run traps in SERVICE (R191). -/
theorem notService_service {s : State} (h : s.curCore.live.priv_ = 1) (k : State → State) : notService s k = raise s cPriv 0 := by
  simp [notService, h]
theorem notService_atSlot_service {s : State} (h : s.curCore.live.priv_ = 1) (slot : Nat) (k : State → State) :
    notService (s.atSlot slot) k = raise (s.atSlot slot) cPriv 0 :=
  notService_service (by rw [atSlot_curCore]; exact h) k
theorem notService_reads_service {s : State} (h : s.curCore.live.priv_ = 1) (slot : Nat) (codes : List Nat) (k : State → State) :
    notService (reads (s.atSlot slot) codes) k = raise (reads (s.atSlot slot) codes) cPriv 0 :=
  notService_service (by rw [reads_priv, atSlot_curCore]; exact h) k

/-- A core that runs strands is at its STATUS.PRIV (R205, R331). -/
theorem privOf_strand {s : State} (h : s.cur.core < 768) : privOf s s.cur.core = s.curCore.live.priv_ := if_neg (Nat.not_le.mpr h)

section
variable {f : F3} {s : State} (hi : Issues 0 f.g s)
include hi

theorem userOnly_trap (hp : s.curCore.live.priv_ = 1) :
    execExit f s = .next (raise (s.atSlot 0) cPriv 0) ∧ execLeave f s = .next (raise (s.atSlot 0) cPriv 0) ∧
    execYieldOp f s = .next (raise (s.atSlot 0) cPriv 0) ∧ execJoin f s = .next (raise (reads (s.atSlot 0) [f.a, f.b]) cPriv 0) ∧
    execGrp f s = .next (raise (reads (s.atSlot 0) [f.a]) cPriv 0) ∧ execLaunch f s = .next (raise (reads (s.atSlot 0) [f.a]) cPriv 0) ∧
    execDress f s = .next (raise (reads (s.atSlot 0) [f.a, f.b]) cPriv 0) := by
  simp only [execExit, execLeave, execYieldOp, execJoin, execGrp, execLaunch, execDress, slotOp_issues hi, notService_atSlot_service hp,
    notService_reads_service hp, and_self]

theorem execSret_user (hc : s.cur.core < 768) (hp : s.curCore.live.priv_ = 0) : execSret f s = .next (raise (s.atSlot 0) cPriv 0) := by
  have h : privOf (s.atSlot 0) (s.atSlot 0).cur.core = 0 := (privOf_strand hc).trans hp
  rw [execSret, slotOp_issues hi, if_pos (by rw [h]; rfl)]

theorem execTdef_raises (h : tdefBad (s.srcS 0 f.a) = true) : execTdef f s = .next (raise (reads (s.atSlot 0) [f.a]) cTileShape 0) := by
  rw [execTdef, slotOp_issues hi]
  simp only [reads_sval, atSlot_sval, h, if_true]

theorem execLeave_alone (hu : s.inUser) (h : s.coreGroup s.cur.core = none) : execLeave f s = .next (raise (s.atSlot 0) cAccess 0) := by
  rw [execLeave, slotOp_issues hi, notService_atSlot hu]
  simp only [show (s.atSlot 0).coreGroup (s.atSlot 0).cur.core = none from h]
end

theorem execSvc_service {b : FB} {s : State} (hi : Issues 0 b.g s) (hp : s.curCore.live.priv_ = 1) :
    execSvc b s = .next (raise (s.atSlot 0) cPriv 0) := by
  rw [execSvc, slotOp_issues hi, notService_atSlot_service hp]
theorem execSvc_noVector {b : FB} {s : State} (hi : Issues 0 b.g s) (hu : s.inUser) (hv : s.curCore.svcvec = 0) :
    execSvc b s = .next (raise (s.atSlot 0) cPriv 0) := by
  rw [execSvc, slotOp_issues hi, notService_atSlot hu, if_pos (by simpa using hv)]

/-- SVCVEC is hidden from a strand in USER (R204). -/
theorem execCsrr_hidden {f : FK} {s : State} (hi : Issues 0 f.g s) (hc : s.cur.core < 768) (hp : s.curCore.live.priv_ = 0) (h : f.csr = 0x104) :
    execCsrr f s = .next (raise (s.atSlot 0) cPriv 0) := by
  have hpriv : privOf (s.atSlot 0) (s.atSlot 0).cur.core = 0 := (privOf_strand hc).trans hp
  rw [execCsrr, slotOp_issues hi, if_pos (by rw [hpriv, h]; rfl)]

/-- A CSR write by privilege (R203): no field of the CSR is writable. -/
theorem csrwOp_forbidden {f : FK} {s : State} (hi : Issues 0 f.g s) (form : Nat) (h : csrWritable (privOf s s.cur.core) f.csr = false) :
    csrwOp form f s = .next (raise (reads (s.atSlot 0) [f.reg]) cPriv 0) := by
  have hw : csrWritable (privOf (reads (s.atSlot 0) [f.reg]) s.cur.core) f.csr = false :=
    (congrArg (csrWritable · f.csr) (reads_privOf (s.atSlot 0) [f.reg])).trans h
  rw [csrwOp, slotOp_issues hi]
  simp only [reads_cur, atSlot_cur_core, hw]
  rfl
/-- The CSRs with no field that a strand may write, in USER or in SERVICE (R204). -/
def strandReadOnlyCsrs : List Nat :=
  [0x001, 0x002, 0x003, 0x004, 0x005, 0x007, 0x008, 0x009, 0x00A, 0x00B, 0x00C, 0x010, 0x011, 0x012, 0x013, 0x028, 0x029, 0x030,
    0x100, 0x102, 0x103, 0x104, 0x200, 0x201]
/-- A strand writes none of those, and EPC in SERVICE alone. -/
theorem csrWritable_strand {p n : Nat} (hp : p < 2) (h : n ∈ strandReadOnlyCsrs ∨ n = 0x101 ∧ p = 0) : csrWritable p n = false := by
  rcases h with h | ⟨rfl, rfl⟩
  · have hall : ∀ p < 2, ∀ k ∈ strandReadOnlyCsrs, csrWritable p k = false := by decide
    exact hall p hp n h
  · rfl

/-! ### JOIN, DRESS and LAUNCH that fail (R210, R213, R215) -/

/-- The check of a JOIN's second source fails where it is no count with its LOCKSTEP bit (R210). -/
theorem joinOperand_refused {b : Nat} (h : ∀ (m : Nat) (lock : Bool), 2 ≤ m → m ≤ 256 → b ≠ m + (if lock then 2 ^ 16 else 0)) :
    (decide (b % 512 < 2) || decide (256 < b % 512) || b != b % 512 + (if b.testBit 16 then 65536 else 0)) = true := by
  by_contra hok
  simp only [Bool.or_eq_true, decide_eq_true_eq, bne_iff_ne, not_or, not_lt, not_not] at hok
  obtain ⟨⟨h2, h256⟩, hb⟩ := hok
  exact h _ _ h2 h256 hb

section
variable {f : F3} {s : State} (hi : Issues 0 f.g s) (hu : s.inUser)
include hi hu

theorem execJoin_bound (h : ∀ (m : Nat) (lock : Bool), 2 ≤ m → m ≤ 256 → (s.srcS 0 f.b).toNat ≠ m + (if lock then 2 ^ 16 else 0)) :
    execJoin f s = .next (raise (reads (s.atSlot 0) [f.a, f.b]) cBound (s.srcS 0 f.b).toNat) := by
  rw [execJoin, slotOp_issues hi, notService_reads hu]
  simp only [reads_sval, atSlot_sval]
  rw [if_pos (joinOperand_refused h)]

theorem execJoin_refused {m pol : Nat} {lock : Bool} (h2 : 2 ≤ m) (h256 : m ≤ 256)
    (hb : (s.srcS 0 f.b).toNat = m + (if lock then 2 ^ 16 else 0)) (hp : joinPolicy s s.cur.core f.fn = pol)
    (hj : joinOk (reads (s.atSlot 0) [f.a, f.b]) s.cur.core (s.srcS 0 f.a) m pol lock = false) :
    execJoin f s = .next (raise (reads (s.atSlot 0) [f.a, f.b]) cAccess 0) := by
  obtain ⟨hmod, hbit⟩ := joinOperand_fields h256 hb
  have hpol : joinPolicy (reads (s.atSlot 0) [f.a, f.b]) s.cur.core f.fn = pol := by
    simpa only [joinPolicy, reads_coreJob, atSlot_coreJob] using hp
  rw [execJoin, slotOp_issues hi, notService_reads hu]
  simp only [reads_sval, atSlot_sval, reads_cur, atSlot_cur_core, hmod, hbit, hpol, hj]
  rw [if_neg (by simpa [show ¬ m < 2 by omega, show ¬ 256 < m by omega] using hb)]
  rfl

/-- The checks of DRESS in order: the address, the count, the access, the rules (R215). -/
theorem execDress_misaligned (ha : (s.srcS 0 f.a).toNat % 32 ≠ 0) :
    execDress f s = .next (raise (reads (s.atSlot 0) [f.a, f.b]) cAlign (s.srcS 0 f.a).toNat) := by
  rw [execDress, slotOp_issues hi, notService_reads hu]
  simp only [reads_sval, atSlot_sval]
  rw [if_pos (by simpa using ha)]
theorem execDress_bound (ha : (s.srcS 0 f.a).toNat % 32 = 0) (hn : 64 < (s.srcS 0 f.b).toNat) :
    execDress f s = .next (raise (reads (s.atSlot 0) [f.a, f.b]) cBound (s.srcS 0 f.b).toNat) := by
  rw [execDress, slotOp_issues hi, notService_reads hu]
  simp only [reads_sval, atSlot_sval]
  rw [if_neg (by simpa using ha), if_pos (by simpa using hn)]
theorem execDress_badRule {ps : List Piece} {es : List TlbEnt} (ha : (s.srcS 0 f.a).toNat % 32 = 0) (h1 : 1 ≤ (s.srcS 0 f.b).toNat)
    (h64 : (s.srcS 0 f.b).toNat ≤ 64)
    (hr : Reaches (reads (s.atSlot 0) [f.a, f.b]) (s.srcS 0 f.a).toNat (32 * (s.srcS 0 f.b).toNat) 32 .read false ps es) :
    let got := loadWhole (keepPages (reads (s.atSlot 0) [f.a, f.b]) s.cur.core es) s.cur.core ps
    (∃ r ∈ chunksOf 32 (s.srcS 0 f.b).toNat got.1, ruleBad r = true) →
      execDress f s = .next (raise got.2 cDressTable (s.srcS 0 f.a).toNat) := by
  intro got hbad
  rw [execDress, slotOp_issues hi, notService_reads hu]
  simp only [reads_sval, atSlot_sval]
  rw [if_neg (by simpa using ha), if_neg (by simpa using h64), if_neg (by simp; omega), withAccess_reaches hr]
  simp only [keepPages_cur, reads_cur, atSlot_cur_core]
  rw [if_pos (List.any_eq_true.mpr hbad)]

theorem execLaunch_fails {e : Flt} (h : coreAccess (reads (s.atSlot 0) [f.a]) s.cur.core (s.srcS 0 f.a).toNat 128 128 .read false = .error e) :
    execLaunch f s = .next (accessFail (reads (s.atSlot 0) [f.a]) e) := by
  rw [execLaunch, slotOp_issues hi, notService_reads hu]
  simp only [reads_sval, atSlot_sval]
  rw [withAccess_fails (by rw [reads_cur]; exact h)]

/-- The checks of LAUNCH once its record is read, in the order of R213. -/
theorem execLaunch_traps {ps : List Piece} {es : List TlbEnt}
    (hr : Reaches (reads (s.atSlot 0) [f.a]) (s.srcS 0 f.a).toNat 128 128 .read false ps es) :
    let u := keepPages (reads (s.atSlot 0) [f.a]) s.cur.core es
    let job := u.coreJob s.cur.core
    let part := u.part job.pid
    let got := loadWhole u s.cur.core ps
    (24 ≤ job.depth → execLaunch f s = .next (raise got.2 cLaunchDepth 0)) ∧
    (job.depth < 24 → part.pool ≤ part.tickets → execLaunch f s = .next (raise got.2 cLaunchPool 0)) ∧
    (∀ code at_, job.depth < 24 → part.tickets < part.pool → recordFaultAt got.2 job.pid got.1 = some (code, at_) →
      execLaunch f s = .next (raise got.2 code (at_.getD (s.srcS 0 f.a).toNat))) := by
  intro u job part got
  rw [execLaunch, slotOp_issues hi, notService_reads hu]
  simp only [reads_sval, atSlot_sval]
  rw [withAccess_reaches hr]
  simp only [keepPages_cur, reads_cur, atSlot_cur_core, decide_eq_true_eq]
  refine ⟨fun hd => ?depth, fun hd ht => ?pool, fun code at_ hd ht hf => ?record⟩
  case depth => rw [if_pos (show Config.launchDepth ≤ _ from hd)]
  case pool => rw [if_neg (show ¬ Config.launchDepth ≤ _ from Nat.not_le.mpr hd), if_pos ht]
  case record =>
    rw [if_neg (show ¬ Config.launchDepth ≤ _ from Nat.not_le.mpr hd), if_neg (Nat.not_le.mpr ht),
      show recordFaultAt _ _ _ = some (code, at_) from hf]
end

/-- Settles O14: each fault by the lemma about the check that raises it. -/
theorem scalarTraps : Obligations.ScalarTraps := by
  intro f k b s hl
  refine ⟨fun hi ha => ?jumps, fun hi hn => ?loopBound, fun hi hn hfull => ?loopFull, fun hi hfull => ?loopiFull,
    fun hi h => execLbrk_underflows hl hi h, fun hi hp => userOnly_trap hi hp, fun hi hp => execSvc_service hi hp,
    fun hi hu hv => execSvc_noVector hi hu hv, fun hi hc hp => execSret_user hi hc hp, fun hi hc hp h => execCsrr_hidden hi hc hp h,
    fun hi hc hp h => ?csrw, fun hi hu => ?user, fun hi h => execTdef_raises hi h⟩
  case jumps =>
    have h := (execJmp_lead hi hl).trans (congrArg _ (if_pos ha))
    exact ⟨h, h⟩
  case loopBound => exact (execLoop_lead hl hi).trans (congrArg _ (if_pos hn))
  case loopFull =>
    refine (execLoop_lead hl hi).trans ?_
    rw [if_neg (Nat.not_le.mpr hn), pushLoop_full (by rw [reads_loops]; exact hfull)]
  case loopiFull => exact (execLoopi_lead hl hi).trans (congrArg _ (pushLoop_full (s := s.atSlot 0) hfull _))
  case csrw =>
    have hw : csrWritable (privOf s s.cur.core) k.csr = false := by rw [privOf_strand hc]; exact csrWritable_strand hp h
    exact ⟨csrwOp_forbidden hi 0 hw, csrwOp_forbidden hi 1 hw, csrwOp_forbidden hi 2 hw⟩
  case user =>
    refine ⟨fun h => execJoin_bound hi hu h, fun m pol lock h2 h256 hb hp hj => execJoin_refused hi hu h2 h256 hb ?policy hj,
      fun h => execLeave_alone hi hu h, fun ha => execDress_misaligned hi hu ha, fun ha hn => execDress_bound hi hu ha hn,
      fun ps es ha h1 h64 hr => execDress_badRule hi hu ha h1 h64 hr, fun e he => execLaunch_fails hi hu he,
      fun ps es hr => execLaunch_traps hi hu hr⟩
    case policy => simp only [joinPolicy, beq_iff_eq, hp]

end Sys2Proof.Machine

namespace Sys2Proof.Machine

/-! ### Lanes of the V operations (R218, R221 to R224) -/

section
variable {f : F3} {s t : State} {u : Nat → Nat}

/-- A V operation on lanes, by what each of its lanes is. -/
theorem vLanes_delivers_as (hi : Issues 1 f.g s) (hd : Draws s (vRm f) t u) {latI latF lat : Nat}
    {op : RMode → Nat → Nat → Nat → Nat → Nat → Nat × Nat} {g : Nat → Nat × Nat} (hlat : (if ltInt f.fn then latI else latF) = lat)
    (hg : ∀ i, op (RMode.ofCode (vRm f)) (u i) i (lane (s.srcV 1 f.a) (ltWidth f.fn) i) (lane (s.srcV 1 f.b) (ltWidth f.fn) i)
      (lane (s.srcV 1 (vCs f)) (ltWidth f.fn) i) = g i) :
    DeliversLanes t 1 [f.a, f.b, vCs f] f.d (ltWidth f.fn) lat (fun i => (s.curCore.live.pred (vMsk f)).getLsbD (i * ltWidth f.fn / 32))
      (groupMask (s.curCore.live.pred (vMsk f))) g (vLanes f latI latF s op) := by
  have h := vLanes_delivers hi hd latI latF op
  simpa only [hlat, hg] using h

/-- An integer form is its exact value under the reading of SUB, passed through Fit (R223). -/
theorem intLane_eq (op : Int → Int → Int → Int) (x y z : Nat) :
    let val := intOf (decide (vSub f = 1)) (ltWidth f.fn)
    intLane f op x y z = fitInt (op (val x) (val y) (val z)) (ltWidth f.fn) (decide (vSub f = 1)) (vSat f) := by
  simp only [intLane, beq_eq_decide]

/-- An integer form of latency 2: its lanes fitted (R222, R223). -/
theorem integerForm_delivers (hi : Issues 1 f.g s) (hd : Draws s (vRm f) t u) (h : ltInt f.fn = true) (op : Int → Int → Int → Int)
    {k : RMode → Nat → Nat → Nat → Nat → Nat → Nat × Nat} (hk : ∀ rm n j x y z, k rm n j x y z = intLane f op x y z) :
    let w := ltWidth f.fn
    let val (v : Vec) (i : Nat) := intOf (decide (vSub f = 1)) w (lane v w i)
    DeliversLanes t 1 [f.a, f.b, vCs f] f.d w 2 (fun i => (s.curCore.live.pred (vMsk f)).getLsbD (i * w / 32))
      (groupMask (s.curCore.live.pred (vMsk f)))
      (fun i => fitInt (op (val (s.srcV 1 f.a) i) (val (s.srcV 1 f.b) i) (val (s.srcV 1 (vCs f)) i)) w (decide (vSub f = 1)) (vSat f))
      (vLanes f 2 4 s k) :=
  vLanes_delivers_as hi hd (if_pos h) fun _ => (hk _ _ _ _ _ _).trans (intLane_eq op _ _ _)

end

/-- The high half of an unsigned product of two lanes is what lies above the lane width (R223). -/
theorem mulHi_unsigned {w x y : Nat} (hx : x < 2 ^ w) (hy : y < 2 ^ w) : mulHi true w x y = x * y / 2 ^ w := by
  have hlt : x * y / 2 ^ w < 2 ^ w := Nat.div_lt_of_lt_mul (Nat.mul_lt_mul'' hx hy)
  have hcast : intOf true w x * intOf true w y / 2 ^ w = ((x * y / 2 ^ w : Nat) : Int) := by simp [intOf]
  rw [mulHi, hcast, islice]
  exact_mod_cast Nat.mod_eq_of_lt hlt

/-- Settles O15: each operation lane by lane, its integer form by Fit and its floating form by one rounding. -/
theorem vectorArithmeticComplete : Obligations.VectorArithmeticComplete := by
  intro f s t u hi hd w m rm x y z unsigned val fp done rounded
  refine ⟨fun h => ?integer, fun h => ?floating⟩
  case integer =>
    refine ⟨?add, ?sub, ?fma, fun hs => ?mul, fun hs => ?high, fun hs => ?highUnsigned⟩
    case add =>
      show done 2 _ (execVadd f s)
      exact integerForm_delivers hi hd h (fun X Y _ => X + Y) fun _ _ _ _ _ _ => if_pos h
    case sub =>
      show done 2 _ (execVsub f s)
      exact integerForm_delivers hi hd h (fun X Y _ => X - Y) fun _ _ _ _ _ _ => if_pos h
    case fma =>
      show done 2 _ (execVfma f s)
      exact integerForm_delivers hi hd h (fun X Y Z => X * Y + Z) fun _ _ _ _ _ _ => if_pos h
    case mul =>
      show done 2 _ (execVmul f s)
      exact integerForm_delivers hi hd h (fun X Y _ => X * Y) fun _ _ _ _ _ _ => (if_pos h).trans (if_neg (Nat.not_le.mpr hs))
    case high =>
      show done 2 _ (execVmul f s)
      refine vLanes_delivers_as hi hd (if_pos h) fun i => (if_pos h).trans <| (if_pos hs.ge).trans ?_
      rw [hs]; rfl
    case highUnsigned =>
      show done 2 _ (execVmul f s)
      refine vLanes_delivers_as hi hd (if_pos h) fun i => (if_pos h).trans <| (if_pos (by omega)).trans ?_
      rw [hs]; exact congrArg (·, 0) (mulHi_unsigned (lane_lt _ _ _) (lane_lt _ _ _))
  case floating =>
    have hn : ¬ ltInt f.fn = true := by rw [h]; decide
    refine ⟨?add, ?sub, ?mul, ?fma⟩
    case add =>
      show done 4 _ (execVadd f s)
      exact vLanes_delivers_as hi hd (if_neg hn) fun i => if_neg hn
    case sub =>
      show done 4 _ (execVsub f s)
      exact vLanes_delivers_as hi hd (if_neg hn) fun i => if_neg hn
    case mul =>
      show done 4 _ (execVmul f s)
      exact vLanes_delivers_as hi hd (if_neg hn) fun i => if_neg hn
    case fma =>
      show done 4 _ (execVfma f s)
      exact vLanes_delivers_as hi hd (if_neg hn) fun i => if_neg hn

/-! ### Choices and comparisons (R224, R226, R227) -/

/-- An integer lane type chooses by the reading of SUB (R224). -/
theorem minMaxLane_integer {f : F3} (h : ltInt f.fn = true) (x y : Nat) :
    let val (k : Nat) : Int := if vSub f = 1 then k else sint (ltWidth f.fn) k
    minMaxLane f false x y = (if val x ≤ val y then x else y) ∧ minMaxLane f true x y = if val x < val y then y else x := by
  intro val
  have hval (k : Nat) : intOf (vSub f == 1) (ltWidth f.fn) k = val k := by simp only [intOf, beq_iff_eq, val]
  simp only [minMaxLane, h, hval, ← not_lt, ite_not, if_true, Bool.false_eq_true, if_false, and_self]

/-- A floating lane with its sign bit cleared, or turned (R224). -/
theorem signLane_clear (f : F3) (x : Nat) :
    signLane f x false = if (ltFmt f.fn).decode x = .nan then (ltFmt f.fn).nanCode else x % 2 ^ (ltWidth f.fn - 1) := by
  simp only [signLane, fpLane, beq_iff_eq, Bool.false_eq_true, if_false, Nat.add_zero]

/-- Every lane has at least one bit, and at most 32 (R176). -/
theorem ltWidth_pos (t : Nat) : 0 < ltWidth t := by
  unfold ltWidth; split <;> decide

theorem ltWidth_le (t : Nat) : ltWidth t ≤ 32 := by
  unfold ltWidth; split <;> decide

/-- The top bit of a lane tells on which side of half its range it lies. -/
theorem testBit_top {w x : Nat} (hw : 0 < w) (hx : x < 2 ^ w) : x.testBit (w - 1) = decide (2 ^ (w - 1) ≤ x) := by
  obtain ⟨n, rfl⟩ := Nat.exists_eq_add_of_lt hw
  simp only [Nat.zero_add, Nat.add_sub_cancel] at hx ⊢
  by_cases h : 2 ^ n ≤ x
  · rw [decide_eq_true h, Nat.testBit_of_two_pow_le_and_two_pow_add_one_gt h hx]
  · rw [decide_eq_false h, Nat.testBit_lt_two_pow (Nat.not_le.mp h)]

theorem signLane_turn {f : F3} {x : Nat} (hx : x < 2 ^ ltWidth f.fn) :
    let sign := 2 ^ (ltWidth f.fn - 1)
    signLane f x (!x.testBit (ltWidth f.fn - 1)) =
      if (ltFmt f.fn).decode x = .nan then (ltFmt f.fn).nanCode else if x < sign then x + sign else x - sign := by
  intro sign
  have hp : 2 ^ ltWidth f.fn = 2 * sign := by rw [← Nat.pow_succ', Nat.succ_eq_add_one, Nat.sub_add_cancel (ltWidth_pos f.fn)]
  simp only [signLane, fpLane, beq_iff_eq, testBit_top (ltWidth_pos f.fn) hx]
  refine if_congr Iff.rfl rfl ?_
  by_cases h : x < sign
  · rw [if_pos h, decide_eq_false (Nat.not_le.mpr h), Nat.mod_eq_of_lt h]; rfl
  · rw [if_neg h, decide_eq_true (Nat.not_lt.mp h), Nat.mod_eq_sub_mod (Nat.not_lt.mp h), Nat.mod_eq_of_lt (by omega)]; rfl

/-- The outcome of a lane group, over its lanes (R227). -/
theorem cmpGroup_iff (f : F3) (a b : Vec) (j : Nat) :
    let w := ltWidth f.fn
    let outcome (k : Nat) := cmpLane f (lane a w (32 / w * j + k)) (lane b w (32 / w * j + k)) = true
    cmpGroup f a b j = true ↔ if vSat f then ∃ k, k < 32 / w ∧ outcome k else ∀ k, k < 32 / w → outcome k := by
  intro w outcome
  simp only [cmpGroup]
  split <;> simp [outcome, w]

/-- The bits of a number given bit by bit, lowest first. -/
theorem getLsbD_bits (p : Nat → Bool) {n j : Nat} (hj : j < n) :
    (BitVec.ofNat n ((List.range n).foldr (fun j acc => (if p j then 1 else 0) + 2 * acc) 0)).getLsbD j = p j := by
  have hpack : (List.range n).foldr (fun j acc => (if p j then 1 else 0) + 2 * acc) 0 =
      ((List.range n).map fun j => if p j then 1 else 0).foldr (fun x acc => x % 2 ^ 1 + acc * 2 ^ 1) 0 := by
    rw [List.foldr_map]
    refine congrArg (fun g => List.foldr g 0 (List.range n)) ?_
    funext i acc
    split <;> simp [Nat.mul_comm]
  have hbit := pack_get 1 ((List.range n).map fun j => if p j then 1 else 0) j (by simpa using hj)
  rw [← hpack, Nat.one_mul, pow_one] at hbit
  rw [BitVec.getLsbD_ofNat, decide_eq_true hj, Bool.true_and, Nat.testBit_eq_decide_div_mod_eq, hbit]
  cases h : p j <;> simp [h]

/-- VCMP: the outcomes of the lane groups, under the mask (R227). -/
theorem execVcmp_delivers {f : F3} {s : State} (hi : Issues 1 f.g s) :
    ∃ p : Word, execVcmp f s = .next (s.delivers 1 [f.a, f.b] 0 [landP 1 f.d p (s.curCore.live.pred (vMsk f)) 2]) ∧
      ∀ j, j < 64 → p.getLsbD j = cmpGroup f (s.srcV 1 f.a) (s.srcV 1 f.b) j := by
  refine ⟨_, ?_, fun j hj => getLsbD_bits _ hj⟩
  rw [execVcmp, slotOp_issues hi]
  simp only [giveP_eq, deliver_reads]
  rfl

/-- The conditions of VCMP on integer lanes (R227). -/
theorem cmpLane_integer {f : F3} (h : ltInt f.fn = true) (x y : Nat) :
    let w := ltWidth f.fn
    (vSub f = 0 → (cmpLane f x y = true ↔ x = y)) ∧ (vSub f = 1 → (cmpLane f x y = true ↔ x ≠ y)) ∧
    (vSub f = 2 → (cmpLane f x y = true ↔ sint w x < sint w y)) ∧ (vSub f = 3 → (cmpLane f x y = true ↔ sint w x ≤ sint w y)) ∧
    (vSub f = 4 → (cmpLane f x y = true ↔ sint w y < sint w x)) ∧ (vSub f = 5 → (cmpLane f x y = true ↔ sint w y ≤ sint w x)) ∧
    (vSub f = 6 → (cmpLane f x y = true ↔ x < y)) ∧ (vSub f = 7 → (cmpLane f x y = true ↔ x ≤ y)) := by
  intro w
  refine ⟨fun hs => ?_, fun hs => ?_, fun hs => ?_, fun hs => ?_, fun hs => ?_, fun hs => ?_, fun hs => ?_, fun hs => ?_⟩
  all_goals simp [cmpLane, h, hs, w]

/-- Settles O16: choices lane by lane, VCMP by its groups and conditions. -/
theorem vectorChoicesComplete : Obligations.VectorChoicesComplete := by
  intro f s t u hi hd w m x y val sign nan done
  refine ⟨fun h => ⟨?min, ?max, ?abs, ?neg⟩, fun h => ⟨?fmin, ?fmax, ?fabs, ?fneg⟩, ?sel, ?cmp, fun h i => cmpLane_integer h _ _⟩
  case min =>
    show done _ (execVmin f s)
    exact vLanes_delivers_as hi hd (if_pos h) fun i => congrArg (·, 0) (minMaxLane_integer h (x i) (y i)).1
  case max =>
    show done _ (execVmax f s)
    exact vLanes_delivers_as hi hd (if_pos h) fun i => congrArg (·, 0) (minMaxLane_integer h (x i) (y i)).2
  case abs =>
    show done _ (execVabs f s)
    exact vLanes_delivers_as hi hd (ite_self 2) fun i => if_pos h
  case neg =>
    show done _ (execVneg f s)
    exact vLanes_delivers_as hi hd (ite_self 2) fun i => if_pos h
  case sel =>
    show done _ (execVsel f s)
    exact vLanes_delivers_as hi hd (ite_self 2) fun i => rfl
  case cmp =>
    obtain ⟨p, hp, hbits⟩ := execVcmp_delivers hi
    refine ⟨p, hp, fun j hj => ?_⟩
    rw [hbits j hj]
    exact cmpGroup_iff f _ _ j
  all_goals have hn : ¬ ltInt f.fn = true := by rw [h]; decide
  case fmin =>
    show DeliversLanes t 1 _ _ _ 4 _ _ _ (execVmin f s)
    exact vLanes_delivers_as hi hd (if_neg hn) fun i => congrArg (·, 0) (if_neg hn)
  case fmax =>
    show DeliversLanes t 1 _ _ _ 4 _ _ _ (execVmax f s)
    exact vLanes_delivers_as hi hd (if_neg hn) fun i => congrArg (·, 0) (if_neg hn)
  case fabs =>
    show done _ (execVabs f s)
    exact vLanes_delivers_as hi hd (ite_self 2) fun i => (if_neg hn).trans (congrArg (·, 0) (signLane_clear f (x i)))
  case fneg =>
    show done _ (execVneg f s)
    exact vLanes_delivers_as hi hd (ite_self 2) fun i => (if_neg hn).trans (congrArg (·, 0) (signLane_turn (lane_lt _ _ _)))

/-! ### Moving lanes (R230 to R233) -/

section
variable {f : F3} {s t : State} {u : Nat → Nat}

theorem execVperm_delivers (hi : Issues 1 f.g s) :
    let w := ltWidth f.fn
    let n := 2048 / w
    let m := s.curCore.live.pred (vMsk f)
    DeliversLanes s 1 [f.a, f.b, vCs f] f.d w 3 (fun i => m.getLsbD (i * w / 32)) (groupMask m)
      (fun i =>
        (let k := lane (s.srcV 1 f.b) w i
         if k / n % 2 = 0 then lane (s.srcV 1 f.a) w (k % n) else lane (s.srcV 1 (vCs f)) w (k % n), 0)) (execVperm f s) := by
  intro w n m
  rw [execVperm, slotOp_issues hi]
  simp only [beq_iff_eq]
  exact giveLanes_delivers s f _ _ _ _ m rfl

/-- The lane of a that VBCAST and VEXTR take (R231, R232). -/
def namedLane (s : State) (f : F3) : Nat :=
  lane (s.srcV 1 f.a) (ltWidth f.fn) (lane (s.srcV 1 f.b) 32 0 % (2048 / ltWidth f.fn))

theorem execVbcast_delivers (hi : Issues 1 f.g s) :
    let w := ltWidth f.fn
    let m := s.curCore.live.pred (vMsk f)
    DeliversLanes s 1 [f.a, f.b] f.d w 2 (fun i => m.getLsbD (i * w / 32)) (groupMask m) (fun _ => (namedLane s f, 0)) (execVbcast f s) := by
  intro w m
  rw [execVbcast, slotOp_issues hi]
  exact giveLanes_delivers s f _ _ _ _ m rfl

theorem execVextr_delivers (hi : Issues 1 f.g s) :
    ∃ v : Vec, execVextr f s = .next (s.delivers 1 [f.a, f.b] 0 [landV 1 f.d v (BitVec.allOnes 2048) 3]) ∧
      v.toNat = if ltInt f.fn then islice 64 (sint (ltWidth f.fn) (namedLane s f)) else namedLane s f := by
  have hlt : (if ltInt f.fn then islice 64 (sint (ltWidth f.fn) (namedLane s f)) else namedLane s f) < 2 ^ 64 := by
    split
    · exact islice_lt _ _
    · exact (lane_lt _ _ _).trans_le (Nat.pow_le_pow_right Nat.two_pos (ltWidth_le f.fn |>.trans (by decide)))
  refine ⟨_, ?_, toNat_ofNat_of_lt hlt (by decide)⟩
  rw [execVextr, slotOp_issues hi, giveV_eq, deliver_reads]
  rfl

theorem execViota_delivers (hi : Issues 1 f.g s) (hd : Draws s (vRm f) t u) :
    let w := ltWidth f.fn
    let m := s.curCore.live.pred (vMsk f)
    let step (i : Nat) := if vSub f = 1 then activeBelow m w i else i
    let x := lane (s.srcV 1 f.a) w 0
    let rm := RMode.ofCode (vRm f)
    DeliversLanes t 1 [f.a] f.d w 2 (fun i => m.getLsbD (i * w / 32)) (groupMask m)
      (fun i => if ltInt f.fn then ((x + step i) % 2 ^ w, 0)
        else floatLane f rm (u i) (Fp.add (rm == .rdn) (fpLane f x) (Fp.ofInt (step i)))) (execViota f s) := by
  intro w m step x rm
  rw [execViota, slotOp_issues hi]
  simp only []
  rw [withDraws_draws (draws_reads hd 1 _)]
  simp only [reads_vval, atSlot_vval, beq_iff_eq, vMask, reads_pred]
  exact giveLanes_delivers t f _ _ _ _ m (draws_pred hd _)

end

/-- Settles O18: each operation by the lemma about it. -/
theorem vectorMovesComplete : Obligations.VectorMovesComplete := by
  intro f s t u hi hd w n m a b act one below step rm
  have hiota := execViota_delivers hi hd
  refine ⟨execVperm_delivers hi, execVbcast_delivers hi, execVextr_delivers hi, fun h => ?integer, fun h => ?floating⟩
  case integer =>
    simp only [h, if_true] at hiota
    exact hiota
  case floating =>
    simp only [h, Bool.false_eq_true, if_false] at hiota
    exact hiota

/-! ### VDOT4 and the function instructions (R234, R235) -/

/-- The exact sum of VDOT4: its products, and c as a signed number, whatever order they are added in (R234; log entry 25). -/
theorem dotInt_eq (f : F3) (a b : Vec) (j c : Nat) :
    let w := ltWidth f.fn
    let wa (k : Nat) : Int := if vSub f = 1 then k else sint w k
    let wb (k : Nat) : Int := if vSub f = 0 then sint w k else k
    dotInt f a b j c =
      fitInt (((List.range (32 / w)).map fun k => wa (lane a w (32 / w * j + k)) * wb (lane b w (32 / w * j + k))).sum + sint 32 c)
        32 (vSub f == 1) (vSat f) := by
  intro w wa wb
  have ha (k : Nat) : intOf (vSub f == 1) w k = wa k := by simp only [intOf, beq_iff_eq, wa]
  have hb (k : Nat) : intOf (vSub f != 0) w k = wb k := by simp only [intOf, bne_iff_ne, ne_eq, ite_not, wb]
  have hsum (xs : List Int) (z : Int) : xs.foldl (· + ·) z = xs.sum + z := by
    rw [List.sum_eq_foldl, Int.add_comm, ← List.foldl_assoc (op := ((· + ·) : Int → Int → Int)), Int.add_zero]
  simp only [dotInt, ha, hb, hsum, w]

/-- VDOT4: its lanes of 32 bits, by lane type (R234). -/
theorem execVdot4_delivers {f : F3} {s t : State} {u : Nat → Nat} (hi : Issues 1 f.g s) (hd : Draws s (vRm f) t u) :
    let m := s.curCore.live.pred (vMsk f)
    let a := s.srcV 1 f.a
    let b := s.srcV 1 f.b
    let c := s.srcV 1 (vCs f)
    DeliversLanes t 1 [f.a, f.b, vCs f] f.d 32 4 (fun j => m.getLsbD j) (groupMask m)
      (fun j => if ltInt f.fn then dotInt f a b j (lane c 32 j) else dotFloat f (RMode.ofCode (vRm f)) (u j) a b j (lane c 32 j))
      (execVdot4 f s) := by
  intro m a b c
  rw [execVdot4, slotOp_issues hi]
  simp only []
  rw [withDraws_draws (draws_reads hd 1 _)]
  simp only [reads_vval, atSlot_vval]
  have h := giveLanes_delivers t f [f.a, f.b, vCs f] 32 4
    (fun j => if ltInt f.fn then dotInt f a b j (lane c 32 j) else dotFloat f (RMode.ofCode (vRm f)) (u j) a b j (lane c 32 j)) m
    (draws_pred hd _)
  simpa only [Nat.mul_div_cancel _ (by decide : 0 < 32)] using h

/-- A function instruction: its lanes, at latency 16 (R235). -/
theorem vFunction_delivers {f : F3} {s t : State} {u : Nat → Nat} (hi : Issues 1 f.g s) (hd : Draws s (vRm f) t u) (op : FnOp) :
    let w := ltWidth f.fn
    let m := s.curCore.live.pred (vMsk f)
    DeliversLanes t 1 [f.a, f.b, vCs f] f.d w 16 (fun i => m.getLsbD (i * w / 32)) (groupMask m)
      (fun i => fnLane op (ltFmt f.fn) (RMode.ofCode (vRm f)) (u i) (lane (s.srcV 1 f.a) w i)) (vFunction op f s) :=
  vLanes_delivers_as hi hd (ite_self 16) fun _ => rfl

/-- Settles O19: VDOT4 by the form of its lane type, the functions by their lanes. -/
theorem vectorDotAndFunctionsComplete : Obligations.VectorDotAndFunctionsComplete := by
  intro f s t u hi hd w m a b c rm wa wb fn
  have hdot := execVdot4_delivers hi hd
  refine ⟨fun h => ?integer, fun h => ?floating, vFunction_delivers hi hd .rcp, vFunction_delivers hi hd .rsq,
    vFunction_delivers hi hd .exp2, vFunction_delivers hi hd .log2⟩
  case integer =>
    simp only [h, if_true, dotInt_eq] at hdot
    exact hdot
  case floating =>
    simp only [h, Bool.false_eq_true, if_false] at hdot
    exact hdot

end Sys2Proof.Machine

namespace Sys2Proof.Machine

/-! ### Conversions (R237, R240) -/

section
variable (src dst part : Nat)

/-- The elements that CVT converts, and the lanes that element i comes from and goes to (R237). -/
def cvtCount : Nat := 2048 / (if ltWidth src < ltWidth dst then ltWidth dst else ltWidth src)
def cvtFrom (i : Nat) : Nat := if ltWidth src < ltWidth dst then part * cvtCount src dst + i else i
def cvtTo (i : Nat) : Nat := if ltWidth src < ltWidth dst then i else part * cvtCount src dst + i

theorem cvtPlan_eq : cvtPlan src dst part = (List.range (cvtCount src dst)).map fun i => (cvtFrom src dst part i, cvtTo src dst part i) := by
  by_cases h : ltWidth src < ltWidth dst <;> simp only [cvtPlan, cvtFrom, cvtTo, cvtCount, laneCount, h, if_true, if_false]

theorem cvtTo_inj {i j : Nat} : cvtTo src dst part i = cvtTo src dst part j ↔ i = j := by
  unfold cvtTo
  split <;> omega

end

/-- A list over the numbers below n, numbered. -/
theorem zipIdx_map_range {α : Type} (h : Nat → α) (n : Nat) : ((List.range n).map h).zipIdx = (List.range n).map fun i => (h i, i) :=
  List.ext_getElem (by simp) (by simp)

/-- What a list over the numbers below n holds under the key of i, where no two keys are equal. -/
theorem find?_map_range {α : Type} {key : Nat → Nat} (hkey : ∀ i j, key i = key j → i = j) (h : Nat → α) {n i : Nat} (hi : i < n) :
    ((List.range n).map fun j => (key j, h j)).find? (fun r => r.1 == key i) = some (key i, h i) := by
  have hfind : (List.range n).find? (fun j => key j == key i) = some i := by
    rw [List.find?_range_eq_some]
    refine ⟨beq_self_eq_true _, List.mem_range.mpr hi, fun j hj => ?_⟩
    simpa using fun hk => hj.ne (hkey j i hk)
  rw [List.find?_map]
  exact congrArg (Option.map _) hfind

/-- CVT: the lanes it writes, their mask, and the status of its elements (R237; log entry 26). -/
theorem execCvt_delivers {f : F3} {s t : State} {u : Nat → Nat} (hi : Issues 3 f.g s) (hd : Draws s (xRm f) t u) :
    let wd := ltWidth (xTy f)
    let n := cvtCount f.fn (xTy f)
    let dst := cvtTo f.fn (xTy f) (xOffBits f)
    let g (i : Nat) := cvtElem f.fn (xTy f) (RMode.ofCode (xRm f)) (u i)
      (lane (s.srcV 3 f.a) (ltWidth f.fn) (cvtFrom f.fn (xTy f) (xOffBits f) i))
    ∃ v mask : Vec,
      execCvt f s = .next (t.delivers 3 [f.a] ((List.range n).foldl (fun acc i => acc ||| (g i).2) 0) [landV 3 f.d v mask 4]) ∧
      (∀ i, i < n → dst i < 2048 / wd → lane v wd (dst i) = (g i).1 % 2 ^ wd ∧ lane mask wd (dst i) = 2 ^ wd - 1) ∧
      ∀ k, k < 2048 / wd → (∀ i, i < n → dst i ≠ k) → lane mask wd k = 0 := by
  intro wd n dst g
  let rs := (List.range n).map fun i => (dst i, g i)
  have hw : wd * (2048 / wd) ≤ 2048 := Nat.mul_div_le 2048 wd
  refine ⟨ofLanes wd (2048 / wd) fun i => ((rs.find? fun r => r.1 == i).map (·.2.1)).getD 0,
    ofLanes wd (2048 / wd) fun i => if rs.any fun r => r.1 == i then 2 ^ wd - 1 else 0, ?next, fun i hn hl => ⟨?value, ?written⟩,
    fun k hk hne => ?kept⟩
  case next =>
    rw [execCvt, slotOp_issues hi]
    simp only []
    rw [withDraws_draws (draws_reads hd 3 _)]
    simp only [reads_vval, atSlot_vval, cvtPlan_eq, zipIdx_map_range, List.map_map, giveV_delivers, Function.comp_def, orAll_map]
    rfl
  case value =>
    have hfind : (rs.find? fun r => r.1 == dst i) = some (dst i, g i) := find?_map_range (fun i j => (cvtTo_inj _ _ _).mp) g hn
    rw [lane_ofLanes _ hl hw, hfind]
    rfl
  case written =>
    have hany : (rs.any fun r => r.1 == dst i) = true :=
      List.any_eq_true.mpr ⟨_, List.mem_map.mpr ⟨i, List.mem_range.mpr hn, rfl⟩, beq_self_eq_true _⟩
    rw [lane_ofLanes _ hl hw, hany, if_pos rfl, Nat.mod_eq_of_lt (Nat.sub_lt (Nat.two_pow_pos wd) Nat.one_pos)]
  case kept =>
    have hany : (rs.any fun r => r.1 == k) = false := by simpa [rs] using hne
    rw [lane_ofLanes _ hk hw, hany, if_neg (by decide), Nat.zero_mod]

/-- The elements of a block format in a register: 256 of them fit (R240). -/
theorem width_mul_le (m : Mx) : m.width * 256 ≤ 2048 := by cases m <;> decide

theorem islice_mod (w : Nat) (z : Int) : islice w z % 2 ^ w = islice w z := Nat.mod_eq_of_lt (islice_lt w z)

/-- A lane of PACK: its element, as bits, and SAT where it clamps (R240). -/
theorem packCode_eq (m : Mx) (x : Int) :
    let lo : Int := -(2 ^ (m.width - 1))
    let hi : Int := 2 ^ (m.width - 1) - 1
    (packCode m x).1 % 2 ^ m.width = islice m.width (if x < lo then -(m.top : Int) else if hi < x then m.top else x) ∧
    (packCode m x).2 = if x < lo ∨ hi < x then 16 else 0 := by
  intro lo hi
  have htop : m.top % 2 ^ m.width = islice m.width m.top := by cases m <;> decide
  unfold packCode
  by_cases hlo : x < lo
  · simp only [lo, hlo, if_true, true_or, islice_mod, fSAT, and_self]
  · by_cases hhi : hi < x
    · simp only [lo, hi, hlo, hhi, if_false, if_true, or_true, htop, fSAT, and_self]
    · simp only [lo, hi, hlo, hhi, if_false, or_self, islice_mod, and_self]

/-- A register of packed lanes is zero above them. -/
theorem getLsbD_packLanes_above {w k : Nat} {xs : List Nat} (hk : w * xs.length ≤ k) : (packLanes w xs).getLsbD k = false := by
  rw [packLanes, BitVec.getLsbD_ofNat, Nat.testBit_lt_two_pow ((pack_lt w xs).trans_le (Nat.pow_le_pow_right Nat.two_pos hk)), Bool.and_false]

/-- PACK: its codes lane by lane, zero beyond them (R240). -/
theorem execPack_delivers {f : F3} {s : State} (hi : Issues 3 f.g s) :
    let m := efMx (xTy f)
    let r (i : Nat) := packCode m (sint 8 (lane (s.srcV 3 f.a) 8 i))
    ∃ v : Vec,
      execPack f s = .next (s.delivers 3 [f.a] ((List.range 256).foldl (fun acc i => acc ||| (r i).2) 0)
        [landV 3 f.d v (BitVec.allOnes 2048) 4]) ∧
      (∀ i, i < 256 → lane v m.width i = (r i).1 % 2 ^ m.width) ∧ ∀ k, 256 * m.width ≤ k → v.getLsbD k = false := by
  intro m r
  refine ⟨packLanes m.width ((List.range 256).map fun i => (r i).1), ?next, fun i h => ?code, fun k hk => ?above⟩
  case next =>
    rw [execPack, slotOp_issues hi]
    simp only [atSlot_vval, List.map_map, giveV_delivers, Function.comp_def, orAll_map]
    rfl
  case code =>
    rw [lane_packLanes _ _ _ (by simpa using h) (by simpa using width_mul_le m)]
    simp
  case above => exact getLsbD_packLanes_above (by simpa [Nat.mul_comm] using hk)

/-- UNPACK: each element as a signed INT8 lane (R240). -/
theorem execUnpack_delivers {f : F3} {s : State} (hi : Issues 3 f.g s) :
    let m := efMx (xTy f)
    ∃ v : Vec, execUnpack f s = .next (s.delivers 3 [f.a] 0 [landV 3 f.d v (BitVec.allOnes 2048) 4]) ∧
      ∀ i, i < 256 → lane v 8 i = islice 8 (sint m.width (lane (s.srcV 3 f.a) m.width i)) := by
  intro m
  refine ⟨_, ?_, fun i h => (lane_ofLanes _ h (by decide)).trans (islice_mod _ _)⟩
  rw [execUnpack, slotOp_issues hi, giveV_eq, deliver_reads]
  rfl

/-- Settles O24: CVT by the lanes it writes, PACK by its codes, UNPACK by its lanes. -/
theorem conversionsComplete : Obligations.ConversionsComplete := by
  intro f s t u hi
  refine ⟨fun hd => execCvt_delivers hi hd, ?pack, execUnpack_delivers hi⟩
  case pack =>
    intro m x lo hi'
    obtain ⟨v, hv, hcode, habove⟩ := execPack_delivers hi
    simp only [packCode_eq] at hv hcode
    exact ⟨v, hv, hcode, habove⟩

/-! ### Quantisation (R238, R239) -/

/-- A further result joins those in flight. -/
theorem addLanding_delivers (s : State) (slot : Nat) (codes : List Nat) (st : Nat) (ls : List Landing) (l : Landing) :
    addLanding (s.delivers slot codes st ls) l = s.delivers slot codes st (ls ++ [l]) := by
  simp only [addLanding, State.delivers, onCore_cur, atSlot_cur_core, onCore_onCore, List.append_assoc]

/-- A draw changes no scale register. -/
theorem draws_kreg {s t : State} {rm : Nat} {u : Nat → Nat} (h : Draws s rm t u) (n : Nat) : t.curCore.live.kreg n = s.curCore.live.kreg n := by
  rcases h with ⟨-, rfl, -⟩ | ⟨-, -, -, rfl, -⟩
  · rfl
  · simp only [onArch_curCore]; rfl

section
variable {f : F3} {s t : State} {u : Nat → Nat}

/-- The blocks of QNT: runs of 32 lanes of a, with their draws (R238). -/
def qntBlocks (s : State) (f : F3) (u : Nat → Nat) : List (Nat × List (Nat × Nat)) :=
  (chunksOf 32 8 ((List.range (2048 / ltWidth f.fn)).map fun i =>
    ((ltFmt f.fn).decode (lane (s.srcV 3 f.a) (ltWidth f.fn) i), u i))).map (mqntBlock (efMx (xTy f)) (RMode.ofCode (xRm f)))

/-- QNT: the codes placed in d, the scales in KR (R238). -/
theorem execQnt_delivers (hi : Issues 3 f.g s) (hd : Draws s (xRm f) t u) :
    let blocks := qntBlocks s f u
    let codes := placeBytes (32 * (xOffBits f / 8 % 8)) (bytesOfFields (efMx (xTy f)).width ((blocks.map fun b => b.2.map (·.1)).flatten))
    let scales := placeBytes (xOffBits f % 8) (blocks.map fun b => BitVec.ofNat 8 b.1)
    execQnt f s = .next (t.delivers 3 [f.a] (blocks.foldl (fun acc b => acc ||| orAll b.2) 0)
      [landV 3 f.d codes.1 codes.2 6, landK 3 (xKr f) (scales.1.setWidth 64) (scales.2.setWidth 64) 6 false]) := by
  intro blocks codes scales
  rw [execQnt, slotOp_issues hi]
  simp only []
  rw [withDraws_draws (draws_reads hd 3 _)]
  simp only [reads_vval, atSlot_vval, giveV_delivers, giveK_eq, addLanding_delivers]
  rfl

/-- The value of element i of DQNT: its code under the scale of its block (R239). -/
def dqntValue (s : State) (f : F3) (i : Nat) : Fp :=
  let m := efMx (xTy f)
  let code := (leNat ((vecBytes (s.srcV 3 f.a)).drop (32 * (xOffBits f / 8 % 8))) >>> (m.width * i)) % 2 ^ m.width
  mxValue m (kByte (s.curCore.live.kreg (xKr f)) (xOffBits f % 8 + i / 32)) (sint m.width code)

/-- DQNT: every lane of d, rounded (R239). -/
theorem execDqnt_delivers (hi : Issues 3 f.g s) (hd : Draws s (xRm f) t u) :
    DeliversLanes t 3 [f.a] f.d (ltWidth f.fn) 4 (fun _ => true) (BitVec.allOnes 2048)
      (fun i => roundFp (ltFmt f.fn) (RMode.ofCode (xRm f)) (u i) (dqntValue s f i)) (execDqnt f s) := by
  let r (i : Nat) := roundFp (ltFmt f.fn) (RMode.ofCode (xRm f)) (u i) (dqntValue s f i)
  refine ⟨packLanes (ltWidth f.fn) ((List.range (2048 / ltWidth f.fn)).map fun i => (r i).1), ?next, fun i hl _ => ?value⟩
  case next =>
    rw [execDqnt, slotOp_issues hi]
    simp only []
    rw [withDraws_draws (draws_reads hd 3 _)]
    simp only [reads_vval, atSlot_vval, reads_kreg, atSlot_curCore, draws_kreg hd, giveV_delivers, orAll_map, List.map_map, Function.comp_def]
    rfl
  case value =>
    rw [lane_packLanes _ _ _ (by simpa using hl) (by simpa using Nat.mul_div_le 2048 (ltWidth f.fn))]
    simp [r]

end

/-- Settles O25: QNT by its blocks, DQNT by its lanes. -/
theorem quantisationsComplete : Obligations.QuantisationsComplete := by
  intro f s t u hi hd
  exact ⟨execQnt_delivers hi hd, execDqnt_delivers hi hd⟩

end Sys2Proof.Machine

namespace Sys2Proof.Machine

/-! ### Vector loads and stores (R250, R251) -/

/-- Checks that pass go on with the pieces of the active elements (R246). -/
theorem withElems_reaches {f : F3} {t : State} {w : Nat} {addr : Nat → Nat} {need : Need} {ls : List (Nat × List Piece)} {es : List TlbEnt}
    (h : vecAccess t t.cur.core (w / 8) need (activeElems (t.curCore.live.pred (lMsk f)) w addr) = .ok (ls, es))
    (k : State → List (Nat × List Piece) → State) : withElems t f w addr need k = k (keepPages t t.cur.core es) ls := by
  have h' : vecAccess t t.cur.core (w / 8) need (((List.range (laneCount w)).filter (activeLane (t.curCore.live.pred (lMsk f)) w)).map
      fun i => (i, addr i % 2 ^ 64)) = .ok (ls, es) := h
  simp only [withElems, h']

/-- Keeping the pages of an access once its sources are read (R372). -/
theorem keepPages_reads_offAccess (s : State) (slot : Nat) (codes : List Nat) (es : List TlbEnt) :
    (keepPages (reads (s.atSlot slot) codes) s.cur.core es).offAccess = (reads (s.atSlot slot) codes).offAccess := by
  have h := keepPages_offAccess (reads (s.atSlot slot) codes) es
  rwa [reads_cur, atSlot_cur_core] at h
/-- Neither sources read nor pages kept change a predicate. -/
theorem keepPages_reads_pred (s : State) (slot : Nat) (codes : List Nat) (es : List TlbEnt) (n : Nat) :
    (keepPages (reads (s.atSlot slot) codes) s.cur.core es).curCore.live.pred n = s.curCore.live.pred n := by
  rw [live_of_offAccess (keepPages_reads_offAccess s slot codes es), reads_pred, atSlot_curCore]

/-- The effective address with the index last, as the element addresses of R250 have it. -/
theorem effAddr_index_last (s : State) (x y : Word) (off : Int) :
    effAddr s x y off = ((((x.toNat : Int) + off + s.cur.off) + y.toNat) % 2 ^ 64).toNat := by
  rw [effAddr]
  congr 2
  ring
theorem effAddr_base (s : State) (x : Word) (off : Int) : effAddr s x 0 off = (((x.toNat : Int) + off + s.cur.off) % 2 ^ 64).toNat := by
  simp only [effAddr_index_last, BitVec.ofNat_eq_ofNat, BitVec.toNat_zero, Nat.cast_zero, Int.add_zero]

section
variable {f : F3} {s : State} {w : Nat} {codes : List Nat} {addr : State → Nat → Nat} {ls : List (Nat × List Piece)} {es : List TlbEnt}

theorem vecLoad_loads (hi : Issues 2 f.g s)
    (h : vecAccess (reads (s.atSlot 2) codes) s.cur.core (w / 8) .read
      (activeElems (s.curCore.live.pred (lMsk f)) w (addr (reads (s.atSlot 2) codes))) = .ok (ls, es)) :
    let r := loadElems (touchCtl (keepPages (reads (s.atSlot 2) codes) s.cur.core es) ls) (lHint f) ls
    ∃ v : Vec,
      vecLoad f w codes addr s = .next (addLanding r.2.2 (landV 2 f.d v (groupMask (s.curCore.live.pred (lMsk f))) r.2.1)) ∧
      ∀ k, k < 2048 / w → lane v w k = ((r.1.find? fun e => e.1 == k).map (·.2)).getD 0 % 2 ^ w := by
  intro r
  refine ⟨_, ?_, fun k hk => lane_ofLanes _ hk (Nat.mul_div_le 2048 w)⟩
  rw [vecLoad, slotOp_issues hi]
  dsimp only
  rw [withElems_reaches (by rw [reads_cur, reads_pred]; exact h), giveV_eq, reads_cur, atSlot_cur_core, keepPages_reads_pred]
  rfl

theorem vecStore_stores (hi : Issues 2 f.g s)
    (h : vecAccess (reads (s.atSlot 2) (f.d :: codes)) s.cur.core (w / 8) .write
      (activeElems (s.curCore.live.pred (lMsk f)) w (addr (reads (s.atSlot 2) (f.d :: codes)))) = .ok (ls, es)) :
    vecStore f w codes addr s = .next (ls.foldl (fun x e => storeElem x f e.2 (natLE (w / 8) (lane (s.srcV 2 f.d) w e.1)))
      (keepPages (reads (s.atSlot 2) (f.d :: codes)) s.cur.core es)) := by
  rw [vecStore, slotOp_issues hi]
  dsimp only
  rw [withElems_reaches (by rw [reads_cur, reads_pred]; exact h), reads_cur, reads_vval, atSlot_vval, atSlot_cur_core]
end

/-- Settles O21: each form by its addresses; the loads deliver the elements loaded, the stores go element by element. -/
theorem vectorLoadsAndStoresComplete : Obligations.VectorLoadsAndStoresComplete := by
  intro f s ls es hi m base width ctl group stride index loads stores
  have hwidth : elemWidth f.fn = width f.fn := elemWidth_eq _
  have hgroup (codes : List Nat) : addrGroup f (reads (s.atSlot 2) codes) = group := by
    rw [addrGroup_reads, effAddr_index_last]
  have hstride (codes : List Nat) : addrStride f (reads (s.atSlot 2) codes) = stride := by
    rw [addrStride_reads, effAddr_base]
  have hindex (codes : List Nat) : addrIndex f (reads (s.atSlot 2) codes) = index := by
    rw [addrIndex_reads, effAddr_base, hwidth]
  have hload {w : Nat} {addr : Nat → Nat} {at_ : State → Nat → Nat} {i : Instr}
      (ha : ∀ codes, at_ (reads (s.atSlot 2) codes) = addr) (hx : exec i s = vecLoad f w [f.a, f.b] at_ s) : loads w addr i :=
    fun h => hx ▸ vecLoad_loads hi ((ha _).symm ▸ h)
  have hstore {w : Nat} {addr : Nat → Nat} {at_ : State → Nat → Nat} {i : Instr}
      (ha : ∀ codes, at_ (reads (s.atSlot 2) codes) = addr) (hx : exec i s = vecStore f w [f.a, f.b] at_ s) : stores w addr i :=
    fun h => hx ▸ vecStore_stores hi ((ha _).symm ▸ h)
  rw [← hwidth]
  exact ⟨hload hgroup rfl, hstore hgroup rfl, hload hstride rfl, hstore hstride rfl, hload hindex rfl, hstore hindex rfl⟩

/-! ### Atomics at issue (R254, R256, R433) -/

theorem atomWidth_eq (f : F3) : atomWidth f = 8 * if (lSub f).testBit 0 then 4 else 8 := by rw [atomWidth]; split <;> rfl
theorem atomWidth_bytes (f : F3) : atomWidth f / 8 = if (lSub f).testBit 0 then 4 else 8 := by
  rw [atomWidth_eq, Nat.mul_div_cancel_left _ (by decide)]

/-- Neither sources read nor pages kept change a form bit. -/
theorem keepPages_reads_anyForm (s : State) (slot : Nat) (codes : List Nat) (es : List TlbEnt) (l : Loc) (n : Nat) :
    (keepPages (reads (s.atSlot slot) codes) s.cur.core es).anyForm l n = s.anyForm l n := by
  calc
    _ = (reads (s.atSlot slot) codes).anyForm l n := (congrArg (State.anyForm · l n) (keepPages_reads_offAccess s slot codes es) :)
    _ = s.anyForm l n := by rw [reads_cores]; rfl

section
variable {f : F3} {s : State} {p : Piece} {es : List TlbEnt} (hi : Issues 2 f.g s)
include hi

theorem execAtom_reaches (hr : Reaches (reads (s.atSlot 2) [f.a, f.b, f.d]) (effAddr s (s.srcS 2 f.a) 0 (lOff f)) (atomWidth f / 8)
      (atomWidth f / 8) .both true [p] es) :
    let kept := keepPages (reads (s.atSlot 2) [f.a, f.b, f.d]) s.cur.core es
    execAtom f s = .next (if p.loc.sp == .ctl then kept.withEff (.ctlAtom p.loc.addr f (s.srcS 2 f.b) (s.srcS 2 f.d))
      else (noteTouched kept [p] true).withEff (.atom p.loc f (s.srcS 2 f.b) (s.srcS 2 f.d))) := by
  intro kept
  rw [execAtom, slotOp_issues hi]
  simp only [lBase_reads]
  rw [withAccess_reaches hr, reads_cur, reads_sval, reads_sval]
  rfl

/-- ACCV of 256 bytes of memory without ciphertext (R256); under DET its lanes are integers. -/
theorem execAccv_queues (hr : Reaches (reads (s.atSlot 2) [f.a, f.b, f.d]) (effAddr s (s.srcS 2 f.a) (s.srcS 2 f.b) (lOff f)) 256 256 .both
      true [p] es) (hp : p.loc.sp ≠ .ctl) (hform : s.anyForm p.loc 256 = false)
    (hdet : (s.coreJob s.cur.core).det = false ∨ ltInt f.fn = true) :
    execAccv f s = .next ((noteTouched (keepPages (reads (s.atSlot 2) [f.a, f.b, f.d]) s.cur.core es) [p] true).withEff
      (.cmd (.accv p.loc f.fn (lSub f) (groupMask (s.curCore.live.pred (lMsk f))) (s.srcV 2 f.d)))) := by
  have hk : s.KeepsIssue (keepPages (reads (s.atSlot 2) [f.a, f.b, f.d]) s.cur.core es) := keepPages_reads_keepsIssue s 2 _ es
  have hplain (c : Nat) : formBlocks (keepPages (reads (s.atSlot 2) [f.a, f.b, f.d]) s.cur.core es) c p.loc 256 = false := by
    rw [formBlocks, keepPages_reads_anyForm, hform, Bool.false_and]
  have hadds : ¬ ((s.coreJob s.cur.core).det && !ltInt f.fn) = true := by rcases hdet with h | h <;> simp [h]
  rw [execAccv, slotOp_issues hi]
  simp only [lAddr_reads]
  rw [withAccess_reaches hr, reads_cur, atSlot_cur_core]
  dsimp only
  rw [if_neg (by simpa using hp), hplain, if_neg (by decide), hk.core, hk.coreJob, if_neg hadds, keepPages_reads_pred, reads_vval]
  rfl
end

/-! ### The new value of ATOM (R254) -/

theorem leNat_lt (bs : List Byte) : leNat bs < 2 ^ (8 * bs.length) := by
  induction bs with
  | nil => decide
  | cons b bs ih =>
    have hb : b.toNat < 2 ^ 8 := b.isLt
    rw [leNat, List.length_cons, Nat.mul_succ, Nat.pow_add]
    omega
theorem bytesAt_length (s : State) (l : Loc) (n : Nat) : (s.bytesAt l n).length = n := by
  rw [State.bytesAt, List.length_map, List.length_range]

/-- The number that FN 5 and FN 6 compare: minimum and maximum (R254). -/
def atomNum (w : Nat) (unsigned : Bool) (x : Nat) : Int := if unsigned then x else sint w x

section
variable {w old y z : Nat} {unsigned : Bool}

theorem atomNew_lt (fn : Nat) (ho : old < 2 ^ w) (hy : y < 2 ^ w) (hz : z < 2 ^ w) : atomNew fn w unsigned old y z < 2 ^ w := by
  unfold atomNew
  extract_lets less
  split
  · exact hy
  · exact Nat.mod_lt _ (Nat.two_pow_pos w)
  · exact Nat.and_lt_two_pow _ hy
  · exact Nat.or_lt_two_pow ho hy
  · exact Nat.xor_lt_two_pow ho hy
  · split <;> assumption
  · split <;> assumption
  · split <;> assumption

theorem atomLess_iff :
    (if unsigned then decide (y < old) else decide (sint w y < sint w old)) = decide (atomNum w unsigned y < atomNum w unsigned old) := by
  cases unsigned <;> simp [atomNum]
theorem atomNew_min : atomNum w unsigned (atomNew 5 w unsigned old y z) = min (atomNum w unsigned old) (atomNum w unsigned y) := by
  simp only [atomNew, atomLess_iff, decide_eq_true_eq]
  split
  · next h => exact (min_eq_right h.le).symm
  · next h => exact (min_eq_left (not_lt.mp h)).symm
theorem atomNew_max : atomNum w unsigned (atomNew 6 w unsigned old y z) = max (atomNum w unsigned old) (atomNum w unsigned y) := by
  simp only [atomNew, atomLess_iff, Bool.or_eq_true, decide_eq_true_eq, beq_iff_eq]
  split
  · next h => exact (max_eq_left (h.elim le_of_lt fun heq => heq ▸ le_rfl)).symm
  · next h => exact (max_eq_right (not_lt.mp fun hlt => h (.inl hlt))).symm
/-- FN 7 is the compare and swap. -/
theorem atomNew_swap : atomNew 7 w unsigned old y z = if old = y then z else old := by simp only [atomNew, beq_iff_eq]
end

theorem atomResult_eq (f : F3) (old : Nat) :
    atomResult f old = if (lSub f).testBit 1 then BitVec.ofNat 64 old else (BitVec.ofNat (atomWidth f) old).signExtend 64 := by
  have hpos : 0 < atomWidth f := by rw [atomWidth]; split <;> decide
  rw [atomResult, sint_eq_toInt hpos]
  rfl

/-! ### ATOM performed (R86, R108, R254, R255) -/

theorem firstPoison_none {s : State} {l : Loc} {n : Nat} (h : s.anyPoison l n = false) : s.firstPoison l n = none := by
  rw [State.firstPoison]
  split
  · rfl
  · next hmarks =>
    have hlines : ((List.range ((l.addr + n - 1) / 128 + 1 - l.addr / 128)).any
        fun i => s.poisoned ⟨l.sp, (l.addr / 128 + i) * 128⟩) = false := by simpa [State.anyPoison, hmarks] using h
    rw [List.find?_eq_none, List.forall_mem_map]
    simpa using hlines

/-- A merge of clocks changes no more than the dies (R108). -/
theorem mergeFrom_dies (s : State) (die home : Nat) : mergeFrom s die home = { s with dies := (mergeFrom s die home).dies } := by
  rw [mergeFrom]; split <;> rfl
/-- Dropping lines changes no more than the caches of the mills (R86). -/
theorem dropLines_mills (s : State) (mill : Nat) (p : CacheLine → Bool) : dropLines s mill p = { s with mills := (dropLines s mill p).mills } := by
  unfold dropLines
  extract_lets m
  split <;> rfl

/-- Without poison, ATOM writes the new value, and beside its result it changes no more than the dies and the caches. -/
theorem performAtom_writes {s : State} {c : Nat} {l : Loc} {f : F3} {y z : Word}
    (h : (drainAll s c).anyPoison l (atomWidth f / 8) = false) :
    let before := drainAll s c
    let w := atomWidth f
    let old := leNat (before.bytesAt l (w / 8))
    let new := atomNew f.fn w ((lSub f).testBit 1) old (y.toNat % 2 ^ w) (z.toNat % 2 ^ w)
    ∃ dies mills, performAtom s c l f y z =
      addLanding { before.putBytes l (natLE (w / 8) new) with dies := dies, mills := mills } (landS 2 f.d (atomResult f old) 40) := by
  intro before w old new
  have hwrite := writeAt_bytes before (coreDie c) l (natLE (w / 8) new)
  have hmerge (t : State) : ∃ dies, (if l.sp == .hbm then mergeFrom t (coreDie c) (homeDie l.addr) else t) = { t with dies := dies } := by
    split
    · exact ⟨_, mergeFrom_dies _ _ _⟩
    · exact ⟨t.dies, rfl⟩
  have hdrop (t : State) : ∃ mills, (if l.sp == .hbm && c != mgmtCore then dropLines t (coreMill c) fun x => x.line == l.addr / 128 else t) =
      { t with mills := mills } := by
    split
    · exact ⟨_, dropLines_mills _ _ _⟩
    · exact ⟨t.mills, rfl⟩
  obtain ⟨dies, hdies⟩ := hmerge (writeAt before (coreDie c) l (natLE (w / 8) new))
  obtain ⟨mills, hmills⟩ := hdrop { writeAt before (coreDie c) l (natLE (w / 8) new) with dies := dies }
  refine ⟨dies, mills, ?_⟩
  unfold performAtom
  simp only [firstPoison_none h]
  rw [hdies, hmills, hwrite, giveS_eq]

/-- Bytes stored in memory change neither the control window nor the cursor. -/
theorem putBytes_mgmt_cur (s : State) {l : Loc} (bs : List Byte) (hl : l.sp ≠ .ctl) :
    (s.putBytes l bs).mgmt = s.mgmt ∧ (s.putBytes l bs).cur = s.cur := by
  induction bs generalizing s l with
  | nil => exact ⟨rfl, rfl⟩
  | cons b bs ih =>
    obtain ⟨hmgmt, hcur⟩ := ih (s.putByte l b) (l := ⟨l.sp, l.addr + 1⟩) hl
    rw [State.putBytes, hmgmt, hcur]
    obtain ⟨sp, a⟩ := l
    cases sp with
    | ctl => exact absurd rfl hl
    | _ => exact ⟨rfl, rfl⟩

/-- Stored bytes leave every byte elsewhere, the control window's too. -/
theorem byteAt_putBytes_elsewhere {s : State} {l k : Loc} (bs : List Byte) (h : s.memWf = true) (hl : l.sp ≠ .ctl)
    (hout : k.sp ≠ l.sp ∨ k.addr < l.addr ∨ l.addr + bs.length ≤ k.addr) : (s.putBytes l bs).byteAt k = s.byteAt k := by
  by_cases hk : k.sp = .ctl
  · simp only [State.byteAt, State.ctlByte, hk, (putBytes_mgmt_cur s bs hl).1]
  · exact byteAt_putBytes_outside bs h hl hk hout

/-- Stored bytes read back at their place. -/
theorem bytesAt_putBytes_same {s : State} {l : Loc} (bs : List Byte) (h : s.memWf = true) (hl : l.sp ≠ .ctl) :
    (s.putBytes l bs).bytesAt l bs.length = bs := by
  refine List.ext_getElem (bytesAt_length _ _ _) fun i _ hi => ?_
  simp only [State.bytesAt, List.getElem_map, List.getElem_range]
  rw [byteAt_putBytes_inside bs h hl hi, List.getD_eq_getElem bs 0 hi]

/-- ATOM performed on memory (R254): the new value stands, no other byte changes, the old value is in flight. -/
theorem performAtom_memory {s : State} {c : Nat} {l : Loc} {f : F3} {y z : Word} (hwf : (drainAll s c).memWf = true) (hl : l.sp ≠ .ctl)
    (h : (drainAll s c).anyPoison l (atomWidth f / 8) = false) :
    let before := drainAll s c
    let w := atomWidth f
    let old := leNat (before.bytesAt l (w / 8))
    let t := performAtom s c l f y z
    leNat (t.bytesAt l (w / 8)) = atomNew f.fn w ((lSub f).testBit 1) old (y.toNat % 2 ^ w) (z.toNat % 2 ^ w) ∧
    (∀ k : Loc, (k.sp ≠ l.sp ∨ k.addr < l.addr ∨ l.addr + w / 8 ≤ k.addr) → t.byteAt k = before.byteAt k) ∧
    (t.core before.cur.core).inflight = (before.core before.cur.core).inflight ++ [landS 2 f.d (atomResult f old) 40] := by
  intro before w old t
  obtain ⟨dies, mills, ht⟩ := performAtom_writes (y := y) (z := z) h
  generalize hnew : atomNew f.fn w ((lSub f).testBit 1) old (y.toNat % 2 ^ w) (z.toNat % 2 ^ w) = new at ht
  have hbits : 8 * (w / 8) = w := by rw [show w = _ from atomWidth_eq f, Nat.mul_div_cancel_left _ (by decide)]
  have hold : old < 2 ^ w := by
    have hbytes := leNat_lt (before.bytesAt l (w / 8))
    rwa [bytesAt_length, hbits] at hbytes
  have hlt : new < 2 ^ w := hnew ▸ atomNew_lt f.fn hold (Nat.mod_lt _ (Nat.two_pow_pos w)) (Nat.mod_lt _ (Nat.two_pow_pos w))
  have hlen : (natLE (w / 8) new).length = w / 8 := natLE_length _ _
  refine ⟨?value, fun k hk => ?frame, ?result⟩
  case value =>
    have hbytes : t.bytesAt l (w / 8) = natLE (w / 8) new := by
      have hstored := bytesAt_putBytes_same (natLE (w / 8) new) hwf hl
      rw [hlen] at hstored
      exact (congrArg (State.bytesAt · l (w / 8)) ht :).trans hstored
    have hpow : 256 ^ (w / 8) = 2 ^ w := by rw [show 256 = 2 ^ 8 from rfl, ← Nat.pow_mul, hbits]
    rw [hbytes, leNat_natLE, hpow, Nat.mod_eq_of_lt hlt]
  case frame =>
    have hbyte : t.byteAt k = (before.putBytes l (natLE (w / 8) new)).byteAt k := (congrArg (State.byteAt · k) ht :)
    exact hbyte.trans (byteAt_putBytes_elsewhere _ hwf hl (by rw [hlen]; exact hk))
  case result =>
    obtain ⟨hcores, -⟩ := putBytes_frame before l (natLE (w / 8) new)
    have hcur : (before.putBytes l (natLE (w / 8) new)).cur = before.cur := (putBytes_mgmt_cur before _ hl).2
    rw [show t = _ from ht, addLanding]
    dsimp only
    rw [hcur, onCore_core]
    exact congrArg (fun x : Core => x.inflight ++ [landS 2 f.d (atomResult f old) 40]) (core_congr hcores before.cur.core)

/-- Settles O23: ATOM and ACCV once their access passes, ATOM performed by what it writes, each FN by its new value. -/
theorem atomicsComplete : Obligations.AtomicsComplete := by
  refine ⟨fun f s p es hi hp => ?memory, fun f s p es hi hp => ?control, fun s c l f y z => ?performed⟩
  case memory =>
    intro seen n at_ u
    have hbase : at_ 0 = effAddr s (s.srcS 2 f.a) 0 (lOff f) := by rw [effAddr_base, ← Int.add_zero (s.srcS 2 f.a).toNat]
    refine ⟨fun hr => ?atom, fun hr hform hdet => execAccv_queues hi hr hp hform hdet⟩
    rw [hbase, show n = _ from (atomWidth_bytes f).symm] at hr
    exact (execAtom_reaches hi hr).trans (congrArg _ (if_neg (by simpa using hp)))
  case control =>
    intro seen n hr
    refine ⟨?issue, fun t c off y z => ?effect⟩
    case issue =>
      rw [← effAddr_base, show n = _ from (atomWidth_bytes f).symm] at hr
      exact (execAtom_reaches hi hr).trans (congrArg _ (if_pos (by simp [hp])))
    case effect =>
      rw [commitEff, atomWidth_bytes, atomWidth_eq]
  case performed =>
    intro before n unsigned old new t hwf hl hpoison
    have hw : atomWidth f = 8 * n := atomWidth_eq f
    have hn : atomWidth f / 8 = n := atomWidth_bytes f
    have hall := performAtom_memory (y := y) (z := z) hwf hl (by rw [hn]; exact hpoison)
    simp only [atomResult_eq, hn] at hall
    rw [hw] at hall
    obtain ⟨hvalue, hframe, hresult⟩ := hall
    have hnew {k : Nat} (h : f.fn = k) : new = atomNew k (8 * n) unsigned old (y.toNat % 2 ^ (8 * n)) (z.toNat % 2 ^ (8 * n)) := h ▸ rfl
    exact ⟨hvalue, hframe, hresult, hnew, fun h => (hnew h).trans (Nat.add_mod_mod _ _ _), hnew, hnew, hnew,
      ⟨fun h => (congrArg (atomNum (8 * n) unsigned) (hnew h)).trans atomNew_min,
        fun h => (congrArg (atomNum (8 * n) unsigned) (hnew h)).trans atomNew_max⟩,
      fun h => (hnew h).trans atomNew_swap⟩

/-! ### Flags and waiters (R111 to R113, R257 to R261) -/

/-- Flags that a deadline set, or with no kept home of their counter, acquire nothing (R88, R130, R258; log entry 48). -/
theorem acquireFlags_narrow {s : State} {c mask : Nat}
    (h : ∀ n, n < 16 → mask.testBit n = true → (s.core c).fto.getLsbD n = true ∨ tget 0 (s.core c).fhome n = 0) :
    acquireFlags s c mask = s := by
  unfold acquireFlags
  extract_lets x homes wide
  have hwide : wide = [] := by
    refine List.filter_eq_nil_iff.mpr (List.forall_mem_map.mpr fun n hn => ?_)
    obtain ⟨hn, hmask⟩ := List.mem_filter.mp hn
    simp only [Bool.and_eq_true, Bool.not_eq_true'] at hmask
    obtain ⟨hbit, hset⟩ := hmask
    have hzero := (h n (List.mem_range.mp hn) hbit).resolve_left (by rw [show (s.core c).fto.getLsbD n = false from hset]; decide)
    simpa using hzero
  rw [hwide]
  rfl

theorem reads_issuer (s : State) (codes : List Nat) : (reads s codes).issuer s.cur.core = s.issuer s.cur.core := by
  have h := reads_curCore s codes
  rw [State.curCore, reads_cur] at h
  rw [State.issuer, h]
  rfl

theorem watchKind_eq (s : State) (f : FY) (x y : Nat) :
    watchKind s f x y = if f.kind = 0 then .flag (s.curCore.job.getD 0) s.curCore.strand f.flag
      else if f.kind = 1 then .event x (y % 2 ^ 32) else if f.kind = 2 then .hostint x else .forward x y := by
  unfold watchKind
  split
  · next h => rw [if_pos h]
  · next h => rw [if_neg (by omega), if_pos h]
  · next h => rw [if_neg (by omega), if_neg (by omega), if_pos h]
  · next h0 h1 h2 => rw [if_neg h0, if_neg h1, if_neg h2]

theorem execWatch_arms {f : FY} {s : State} {x y : Nat} (hi : Issues 7 f.g s)
    (hx : x = if f.kind = 0 then 0 else (s.srcS 7 (extField f.ext 5 0 0)).toNat)
    (hy : y = if f.kind = 1 ∨ f.kind = 3 then (s.srcS 7 (extField f.ext 11 6 0)).toNat else 0)
    (h : watchCheck (reads (s.atSlot 7) [f.a, f.b]) s.cur.core f.kind (s.srcS 7 f.a).toNat x y = none) :
    let job := s.coreJob s.cur.core
    let handle := (s.srcS 7 f.a).toNat
    execWatch f s = .next (((reads (s.atSlot 7) [f.a, f.b]).setPart job.pid ((s.part job.pid).reserve handle)).withEff
      (.cmd (.watch
        { h := handle, threshold := (s.srcS 7 f.b).toNat, kind := watchKind s f x y, deadline := if f.kind = 0 then f.ext.getD 0 else 0,
          pid := job.pid, aspace := job.aspace, die := hHome handle, by_ := s.issuer s.cur.core }))) := by
  intro job handle
  rw [execWatch, slotOp_issues hi]
  have hissuer : (reads (s.atSlot 7) [f.a, f.b]).issuer s.cur.core = s.issuer s.cur.core := reads_issuer (s.atSlot 7) _
  simp only [reads_sval, atSlot_sval, reads_cur, atSlot_cur_core, beq_iff_eq, Bool.or_eq_true, extCode, ← hx, ← hy, h, hissuer, reads_coreJob,
    atSlot_coreJob, reads_part, atSlot_part, watchKind_eq, reads_context, atSlot_curCore]
  rfl

/-- Settles O33: WAITF by the homes of its flags, UNWATCH by its gate, WATCH by its checks. -/
theorem flagsComplete : Obligations.FlagsComplete := by
  refine ⟨fun f s hi => ⟨_, ?waitf, rfl, fun h => acquireFlags_narrow h⟩, fun f s hi => ⟨?unwatch, ?watch⟩⟩
  case waitf =>
    show execWaitf f s = _
    rw [execWaitf, slotOp_issues hi]
    rfl
  case unwatch =>
    show execUnwatch f s = _
    rw [execUnwatch, slotOp_issues hi]
    rfl
  case watch =>
    intro seen c h x y pid p kind hcheck
    exact (execWatch_arms hi rfl rfl hcheck).trans (by rw [watchKind_eq]; rfl)

end Sys2Proof.Machine

namespace Sys2Proof.Machine

/-! ### M operations at issue (R266 to R278) -/

/-- The random word of an M operation: the word its rounding pops under STO (R73, R269). -/
def mWord (s : State) (f : FM) : Word := if mRm f = 5 then genG s.curCore.rngKey (BitVec.ofNat 64 s.curCore.live.rngNext) else 0

section
variable {opc : Nat} {f : FM} {s t : State} {u : Nat → Nat}

theorem mIssue_goesOn {sr : State → Option Nat} {more : State → MOp → State} (hi : Issues (mSlot s) f.g s) (hd : Draws s (mRm f) t u)
    (h : mFault s opc f false = none) :
    mIssue opc f s sr more =
      .next (more (t.atSlot (mSlot s)) (mBuild (s.atSlot (mSlot s)) opc f (sr (s.atSlot (mSlot s))) (mWord s f))) := by
  rcases hd with ⟨hrm, rfl, -⟩ | ⟨hrm, hclaim, hr, rfl, -⟩
  · have hu : mUnclaimed t f = false := by simp [mUnclaimed, hrm]
    rw [mIssue_passes hi (by rw [hu]; exact h), if_neg hrm, mWord, if_neg hrm]
  · have hu : mUnclaimed s f = false := by rcases hclaim with h | h <;> simp [mUnclaimed, h]
    rw [mIssue_passes hi (by rw [hu]; exact h), if_pos hrm, mWord, if_pos hrm, popRandom_pops (s := s.atSlot (mSlot s)) hclaim hr]
    rfl

theorem mPlain_joins (hi : Issues (mSlot s) f.g s) (hd : Draws s (mRm f) t u) (h : mFault s opc f false = none) :
    mPlain opc f s = .next ((reads (t.atSlot (mSlot s)) []).withEff (.tile (mBuild (s.atSlot (mSlot s)) opc f none (mWord s f)))) := by
  rw [mPlain_eq, mIssue_goesOn hi hd h]
  rfl

theorem execMscl_joins (hi : Issues (mSlot s) f.g s) (hd : Draws s (mRm f) t u) (h : mFault s 4 f false = none) :
    execMscl f s = .next ((reads (t.atSlot (mSlot s)) [mSr f]).withEff (.tile (mBuild (s.atSlot (mSlot s)) 4 f
      (if mSr f = 63 then none else some (s.srcS (mSlot s) (mSr f)).toNat) (mWord s f)))) := by
  rw [execMscl, mIssue_goesOn hi hd h]
  simp only [beq_iff_eq, atSlot_sval]
  rfl

/-- The slot of an M operation stands in it (R266). -/
theorem mBuild_eq (s : State) (opc : Nat) (f : FM) (sr : Option Nat) (w : Word) :
    mBuild (s.atSlot (mSlot s)) opc f sr w =
      { slot := mSlot s, opc := opc, fn := f.fn, td := mRef s (mUses opc).1 f.td, ta := mRef s (mUses opc).2.1 f.ta,
        tb := mRef s (mUses opc).2.2 f.tb, off := s.cur.off, ka := s.curCore.live.kreg f.ka, kb := s.curCore.live.kreg f.kb,
        rm := mRm f, tr := mTr f, se := mSe f, sr := sr, rnd := w, pc := s.cur.pc, inst := s.cur.inst } := by
  rw [mBuild, mSlot_atSlot]
  rfl

end

/-- Settles O27: the checks of R267 pass, the rounding draws its word, and the operation joins the tile operations. -/
theorem matrixIssueComplete : Obligations.MatrixIssueComplete := by
  intro f s t slot u hslot hi hd desc word op joins
  obtain rfl : slot = mSlot s := hslot.trans (mSlot_eq s).symm
  have plain (opc : Nat) (h : mFault s opc f false = none) : mPlain opc f s = .next ((reads (t.atSlot (mSlot s)) []).withEff
      (.tile (op opc (mUses opc).1 (mUses opc).2.1 (mUses opc).2.2 none))) :=
    (mPlain_joins hi hd h).trans (by rw [mBuild_eq]; rfl)
  refine ⟨plain 1, plain 2, plain 3, fun h => ?mscl, plain 5, plain 6, plain 7, plain 8, plain 10⟩
  case mscl => exact (execMscl_joins hi hd h).trans (by rw [mBuild_eq]; rfl)

/-- The completion handle of MVS: codes 0 and 63 name none (R266, R278). -/
theorem mvsHandle_reads (f : FM) (t : State) (codes : List Nat) :
    mvsHandle (reads (t.atSlot 4) codes) f = if mHr f = 0 ∨ mHr f = 63 then none else some (t.srcS 4 (mHr f)).toNat := by
  simp only [mvsHandle, beq_iff_eq, Bool.or_eq_true, reads_sval, atSlot_sval]

/-- Settles O28: the checks of R267 pass, then the address, the pieces, their form and the handle. -/
theorem mvsIssueComplete : Obligations.MvsIssueComplete := by
  intro f s t u ps es h5 hi hd seen va handle desc op hm hform hva hp hh
  have hslot : mSlot s = 4 := by rw [mSlot_eq, if_neg h5]
  have hissue : Issues (mSlot s) f.g s := hslot.symm ▸ hi
  have hfault : mFault s 9 f false = none := by rw [mFault, hslot]; exact hm
  obtain ⟨hcore, hpart⟩ := draws_core hd
  have hhandle : mvsHandle seen f = handle := by rw [mvsHandle_reads, draws_srcS hd]
  have hva' : (seen.sval (mSr f)).toNat = va := by rw [reads_sval, atSlot_sval, draws_srcS hd]
  have htb : seen.curCore.live.treg f.tb = s.curCore.live.treg f.tb := by rw [reads_treg, atSlot_curCore, draws_treg hd]
  have hcur : seen.cur.core = s.cur.core := by rw [reads_cur, atSlot_cur_core, hcore]
  have hseen : seen.corePart s.cur.core = s.corePart s.cur.core := by rw [reads_corePart, atSlot_corePart, hpart]
  show execMvs f s = _
  rw [execMvs, mIssue_goesOn hissue hd hfault, mBuild_eq, hslot]
  simp only [show reads (t.atSlot 4) [mSr f, mHr f] = seen from rfl, hva', htb, hcur, hseen, hhandle]
  rw [if_neg (by simpa using hva)]
  have hp' : mvsPieces seen va (mvsExtent (tileOf (s.curCore.live.treg f.tb) 0)) = .ok (ps, es) := hp
  simp only [MOp.bT, hp']
  rw [if_neg (by simpa using hform)]
  cases hc : handle with
  | none => rfl
  | some h => simp only [hh h hc]; rfl

end Sys2Proof.Machine

namespace Sys2Proof.Machine

/-! ### What reset leaves (R418, R444) -/

theorem measOf_reset (n : Nat) : measOf State.reset n = zeros 48 := rfl
theorem byteAt_reset {l : Loc} (h : l.sp ≠ .ctl) : State.reset.byteAt l = 0 := by
  rw [byteAt_memory _ h]
  cases l.sp <;> rfl
theorem live_reset (c n : Nat) : (State.reset.core c).live.sreg n = 0 ∧ (State.reset.core c).live.vreg n = 0 ∧
    (State.reset.core c).live.kreg n = 0 ∧ (State.reset.core c).live.treg n = 0 ∧
    (1 ≤ n → (State.reset.core c).live.pred n = 0) ∧ (State.reset.core c).live.status = 0 := by
  refine ⟨?scalar, ?vector, rfl, rfl, fun hn => ?predicate, rfl⟩
  case scalar => rw [Arch.sreg]; split <;> rfl
  case vector => rw [Arch.vreg]; split <;> rfl
  case predicate => rw [Arch.pred, if_neg (by omega)]; rfl

/-- Settles O57: every table of the reset state is empty, so each read gives its default. -/
theorem resetState : Obligations.ResetState :=
  ⟨rfl, fun _ => rfl, measOf_reset, fun c => ⟨rfl, live_reset c⟩, fun _ => ⟨rfl, rfl⟩, fun _ => ⟨rfl, rfl⟩, fun _ => rfl,
    fun _ h => byteAt_reset h, rfl, rfl, rfl, rfl⟩

end Sys2Proof.Machine

namespace Sys2Proof.Machine

/-! ### Moves of a leat core (R402 to R408, R411, R416) -/

theorem leatOp_runs {m : LM} {s : State} (ha : s.cur.aborted = false) (hg : leatGuard s m = true) (k : State → Word → State) :
    leatOp m s k = k s (leatSource s m) := by
  rw [leatOp, if_neg (by simp [ha, hg])]

theorem boolWord_eq {c : Prop} [Decidable c] {b : Bool} (h : b = true ↔ c) : boolWord b = if c then 1 else 0 := by
  simp only [boolWord, h]

/-- Bits at or above the width are 0 (R408, R416). -/
theorem lt_of_getLsbD {a : Word} {n : Nat} (h : a.getLsbD n = true) : n < 64 := by
  by_contra hn
  rw [BitVec.getLsbD_of_ge a n (Nat.le_of_not_lt hn)] at h
  cases h

theorem shiftLeft_eq_ofNat (a : Word) (n : Nat) : a <<< n = BitVec.ofNat 64 (a.toNat * 2 ^ n) :=
  BitVec.eq_of_toNat_eq (by rw [BitVec.toNat_shiftLeft, Nat.shiftLeft_eq, BitVec.toNat_ofNat])
theorem ushiftRight_eq_ofNat (a : Word) (n : Nat) : a >>> n = BitVec.ofNat 64 (a.toNat / 2 ^ n) := by
  rw [← Nat.shiftRight_eq_div_pow, ← BitVec.toNat_ushiftRight, BitVec.ofNat_toNat, BitVec.setWidth_eq]
theorem sshiftRight_eq_ofInt (a : Word) (n : Nat) : a.sshiftRight n = BitVec.ofInt 64 (a.toInt / 2 ^ n) := by
  rw [BitVec.sshiftRight, Int.shiftRight_eq_div_pow, Nat.cast_pow, Nat.cast_ofNat]

/-- BSET sets one bit, or none from 64 on (R416). -/
theorem getLsbD_bset (a n : Word) {i : Nat} (hi : i < 64) :
    (if n.toNat < 64 then a ||| BitVec.ofNat 64 (2 ^ n.toNat) else a).getLsbD i = (a.getLsbD i || decide (i = n.toNat)) := by
  split
  · rw [BitVec.getLsbD_or, BitVec.getLsbD_ofNat, Nat.testBit_two_pow, decide_eq_true hi, Bool.true_and]
    simp only [eq_comm]
  · rw [decide_eq_false (by omega), Bool.or_false]

/-- BFFC's answer: the least bit at or above k that is 0, 64 when there is none (R416). -/
def LeastClear (a : Word) (k n : Nat) : Prop :=
  (k ≤ n ∧ n < 64 ∧ a.getLsbD n = false ∧ ∀ i, k ≤ i → i < n → a.getLsbD i = true) ∨
    (n = 64 ∧ ∀ i, k ≤ i → i < 64 → a.getLsbD i = true)

/-- A set bit is no answer. -/
theorem leastClear_step {a : Word} {k n : Nat} (h : LeastClear a k n) (hset : a.getLsbD k = true) : LeastClear a (k + 1) n := by
  rcases h with ⟨hkn, hn, hclear, hbelow⟩ | ⟨hn, hall⟩
  · have hne : k ≠ n := fun e => by rw [e, hclear] at hset; cases hset
    exact .inl ⟨by omega, hn, hclear, fun i hi => hbelow i (by omega)⟩
  · exact .inr ⟨hn, fun i hi => hall i (by omega)⟩
theorem leastClear_past {a : Word} {k n : Nat} (h : LeastClear a k n) (hk : 64 ≤ k) : n = 64 := by
  rcases h with ⟨hkn, hn, -, -⟩ | ⟨hn, -⟩ <;> omega
theorem leastClear_here {a : Word} {k n : Nat} (h : LeastClear a k n) (hk : k < 64) (hclear : a.getLsbD k = false) : n = k := by
  rcases h with ⟨hkn, -, -, hbelow⟩ | ⟨-, hall⟩
  · by_contra hne
    rw [hbelow k le_rfl (by omega)] at hclear; cases hclear
  · rw [hall k le_rfl hk] at hclear; cases hclear

theorem firstClear_eq {a : Word} {n : Nat} (fuel k : Nat) (hfuel : 64 ≤ k + fuel) (h : LeastClear a k n) : firstClear a fuel k = n := by
  induction fuel generalizing k with
  | zero => exact (leastClear_past h (by omega)).symm
  | succ fuel ih =>
    rw [firstClear]
    split
    · next hk => exact (leastClear_past h hk).symm
    · next hk =>
      split
      · next hset => exact ih (k + 1) (by omega) (leastClear_step h hset)
      · next hclear => exact (leastClear_here h (by omega) (by simpa using hclear)).symm

/-- A target of a PC trigger that is a word's address passes (R407). -/
theorem pcFault_none {a : Nat} (h16 : a % 16 = 0) (hlt : a < 65536) : pcFault a = none := by
  simp [pcFault, firstFail, h16, hlt]

section
variable {m : LM} {s : State} (ha : s.cur.aborted = false) (hg : leatGuard s m = true)
include ha hg

theorem aluOp_gives (f : Word → Word → Word) {w : Word} (hw : f (leatPort s 0x100) (leatSource s m) = w) :
    aluOp m s f = .next (leatGive s (.port 0x100 w) 1) := by
  rw [aluOp, leatOp_runs ha hg, hw]
theorem bmuOp_gives (f : Word → Word → Word) {w : Word} (hw : f (leatPort s 0x170) (leatSource s m) = w) :
    bmuOp m s f = .next (leatGive s (.port 0x105 w) 1) := by
  rw [bmuOp, leatOp_runs ha hg, hw]

theorem execEvqPeek_empty (hq : leatQueue s = []) : execEvqPeek m s = .next (leatGive s (.port 0x102 0) 2) := by
  rw [execEvqPeek, leatOp_runs ha hg]
  simp only [hq]
  rfl
theorem execEvqPeek_head {r : EventRec} {rs : List EventRec} (hq : leatQueue s = r :: rs) :
    execEvqPeek m s = .next (leatGive s (.port 0x102 (BitVec.ofNat 64 (fieldLE (recordOf r) (8 * ((leatSource s m).toNat % 4)) 8))) 2) := by
  rw [execEvqPeek, leatOp_runs ha hg]
  simp only [hq]

/-- POP of an empty queue at an address of DMEM (R411). -/
theorem execEvqPop_empty (h32 : (leatSource s m).toNat % 32 = 0) (hd : (leatSource s m).toNat + 32 ≤ 0x40000) (hq : leatQueue s = []) :
    execEvqPop m s = .next (leatGive s (.port 0x102 0) 2) := by
  rw [execEvqPop, leatOp_runs ha hg]
  simp only [hq]
  rw [if_neg (by simpa using h32), if_neg (by simpa [inDmem] using hd)]
/-- POP takes the head record (R411). -/
theorem execEvqPop_head (h32 : (leatSource s m).toNat % 32 = 0) (hd : (leatSource s m).toNat + 32 ≤ 0x40000) {r : EventRec} {rs : List EventRec}
    (hq : leatQueue s = r :: rs) :
    let t := s.onLeat fun x => ({ x with queue := rs } : Leat).refill
    execEvqPop m s = .next (firmwareTurn (firmwareTurn
      (leatGive (leatGive t (.pop (leatSource s m).toNat (recordOf r)) 2) (.port 0x102 1) 2) (pairPort s 0)) (pairPort s 1)) := by
  rw [execEvqPop, leatOp_runs ha hg]
  simp only [hq]
  rw [if_neg (by simpa using h32), if_neg (by simpa [inDmem] using hd)]
  rfl

theorem pcOp_runs (hx : s.leatNow.target = none) (k : State → Word → State) : pcOp m s k = .next (k s (leatSource s m)) := by
  rw [pcOp, leatOp_runs ha hg, if_neg (by simp [hx])]

theorem execPcJump_goes (hx : s.leatNow.target = none) (h16 : (leatSource s m).toNat % 16 = 0) (hlt : (leatSource s m).toNat < 65536) :
    execPcJump m s = .next (pcGo s (leatSource s m).toNat) := by
  rw [execPcJump, pcOp_runs ha hg hx]
  simp only [pcFault_none h16 hlt]
theorem execPcCall_goes (hx : s.leatNow.target = none) (h16 : (leatSource s m).toNat % 16 = 0) (hlt : (leatSource s m).toNat < 65536)
    (hroom : s.leatNow.stack.length < 8) :
    execPcCall m s = .next (pcGo (s.onLeat fun x => { x with stack := (x.pc + 32) % 65536 :: x.stack }) (leatSource s m).toNat) := by
  rw [execPcCall, pcOp_runs ha hg hx]
  simp only [pcFault_none h16 hlt]
  rw [if_neg (by omega)]
theorem execPcRet_goes (hx : s.leatNow.target = none) {a : Nat} {as : List Nat} (hs : s.leatNow.stack = a :: as) :
    execPcRet m s = .next (pcGo (s.onLeat fun x => { x with stack := as }) a) := by
  rw [execPcRet, pcOp_runs ha hg hx]
  simp only [hs]
end

/-- Settles O46: the guard passes, then each port by the result of its unit. -/
theorem leatComputeMovesComplete : Obligations.LeatComputeMovesComplete := by
  intro m s ha hg v x alu bmu a b one
  refine ⟨fun d hd => ?reg, fun d hd => ?port, aluOp_gives ha hg (· + ·) rfl, aluOp_gives ha hg (· - ·) rfl, aluOp_gives ha hg (· &&& ·) rfl,
    aluOp_gives ha hg (· ||| ·) rfl, aluOp_gives ha hg (· ^^^ ·) rfl, aluOp_gives ha hg (fun a t => a <<< t.toNat) ?shl,
    aluOp_gives ha hg (fun a t => a >>> t.toNat) ?shr, aluOp_gives ha hg (fun a t => a.sshiftRight t.toNat) ?sra,
    aluOp_gives ha hg (fun a t => boolWord (a == t)) ?eq, aluOp_gives ha hg (fun a t => boolWord (a.slt t)) ?lt,
    aluOp_gives ha hg (fun a t => boolWord (a.ult t)) ?ltu, ?sel, bmuOp_gives ha hg (fun a n => boolWord (a.getLsbD n.toNat)) ?btest,
    fun w hw => bmuOp_gives ha hg (fun a n => if n.toNat < 64 then a ||| BitVec.ofNat 64 (2 ^ n.toNat) else a) ?bset,
    fun n hn => bmuOp_gives ha hg (fun a n => BitVec.ofNat 64 (firstClear a 64 n.toNat)) ?bffc,
    bmuOp_gives ha hg (fun a t => BitVec.ofNat 64 ((List.range 64).filter fun i => (a &&& t).getLsbD i).length) ?bcnt,
    execEvqPeek_empty ha hg, fun r rs => execEvqPeek_head ha hg,
    fun h32 hd => ⟨execEvqPop_empty ha hg h32 hd, fun r rs => execEvqPop_head ha hg h32 hd⟩,
    fun hx => ⟨fun h16 hlt => ⟨execPcJump_goes ha hg hx h16 hlt, execPcCall_goes ha hg hx h16 hlt⟩, fun t ts => execPcRet_goes ha hg hx,
      pcOp_runs ha hg hx _⟩⟩
  case reg =>
    show execMove m d s = _
    rw [execMove, leatOp_runs ha hg, if_pos hd]
  case port =>
    show execMove m d s = _
    rw [execMove, leatOp_runs ha hg, if_neg (by omega)]
    rfl
  case shl => exact shiftLeft_eq_ofNat a v.toNat
  case shr => exact ushiftRight_eq_ofNat a v.toNat
  case sra => exact sshiftRight_eq_ofInt a v.toNat
  case eq => exact boolWord_eq beq_iff_eq
  case lt => exact boolWord_eq BitVec.slt_iff_toInt_lt
  case ltu => exact boolWord_eq BitVec.ult_iff_toNat_lt
  case btest => exact boolWord_eq ⟨fun h => ⟨lt_of_getLsbD h, h⟩, And.right⟩
  case bffc => exact congrArg _ (firstClear_eq 64 v.toNat (by omega) hn)
  case sel =>
    show execAluSel m s = _
    rw [execAluSel, leatOp_runs ha hg]
  case bset =>
    refine BitVec.eq_of_getLsbD_eq fun i hi => ?_
    rw [getLsbD_bset _ _ hi, hw i hi]
  case bcnt => simp only [BitVec.getLsbD_and]; rfl

end Sys2Proof.Machine

namespace Sys2Proof.Machine

/-! ### Units of a leat core (R409, R410, R412 to R415, R417) -/

/-- The connection window lies above DMEM (R410). -/
theorem inDmem_window {a : Nat} (n : Nat) (h : 0x10000000 ≤ a) : inDmem a n = false := by
  rw [inDmem, decide_eq_false (by omega)]
theorem inWindow_between {a : Nat} (hlo : 0x10000000 ≤ a) (hhi : a < 0x18000000) : inWindow a = true := by
  simp [inWindow, windowBase, hlo, hhi]

section
variable {m : LM} {s : State} (ha : s.cur.aborted = false) (hg : leatGuard s m = true)
include ha hg

/-! LSU (R409) -/

section
variable {n : Nat} (hn : (leatSource s m).toNat % n = 0)
include hn

theorem lsuLoad_dmem (hd : (leatSource s m).toNat + n ≤ 0x40000) :
    lsuLoad n m s = .next (leatGive s (.port 0x101 (BitVec.ofNat 64 (leNat (s.leatNow.dmem.bytes (leatSource s m).toNat n)))) 2) := by
  rw [lsuLoad, leatOp_runs ha hg]
  dsimp only
  rw [if_neg (by simpa using hn), if_pos (by simpa [inDmem] using hd)]
theorem lsuLoad_window (hlo : 0x10000000 ≤ (leatSource s m).toNat) (hhi : (leatSource s m).toNat < 0x18000000) {w : Nat × Nat}
    (hw : windowConn s (leatSource s m).toNat = some w) :
    lsuLoad n m s = .next (leatGive s (.port 0x101 (BitVec.ofNat 64 (fieldLE (entryBytes s w.1) w.2 n))) 2) := by
  rw [lsuLoad, leatOp_runs ha hg]
  simp only [inDmem_window n hlo, inWindow_between hlo hhi, hw]
  rw [if_neg (by simpa using hn)]
  rfl
theorem lsuStore_dmem (hd : (leatSource s m).toNat + n ≤ 0x40000) :
    lsuStore n m s =
      .next (s.onLeat fun x => { x with dmem := x.dmem.store (leatSource s m).toNat (natLE n (leatPort s 0x120).toNat) }) := by
  rw [lsuStore, leatOp_runs ha hg]
  dsimp only
  rw [if_neg (by simpa using hn), if_pos (by simpa [inDmem] using hd)]
theorem lsuStore_window (hlo : 0x10000000 ≤ (leatSource s m).toNat) (hhi : (leatSource s m).toNat < 0x18000000) {w : Nat × Nat}
    (hw : windowConn s (leatSource s m).toNat = some w) (hb : w.2 ≠ 0) (hclosed : connState (entryBytes s w.1) = 0) :
    lsuStore n m s =
      .next (s.setConn w.1 { s.conn w.1 with entry := setLE (entryBytes s w.1) w.2 n (leatPort s 0x120).toNat }) := by
  rw [lsuStore, leatOp_runs ha hg]
  simp only [inDmem_window n hlo, inWindow_between hlo hhi, hw]
  rw [if_neg (by simpa using hn), if_neg (by decide), if_pos trivial, if_neg (by simp [hb, hclosed])]
end

/-! TXU (R412, R413) -/

theorem execTxuAcknow_open {c : Nat} (hc : wordOpen s (leatPort s 0x150) = some c) :
    let n := (leatSource s m).toNat % 2 ^ 16
    execTxuAcknow m s =
      .next (txuGive (sendAck (s.setConn c { s.conn c with granted := (s.conn c).granted + n }) c n (s.conn c).rxPath 0) 0) := by
  rw [execTxuAcknow, leatOp_runs ha hg]
  simp only [hc]
theorem execTxuRetx_resends {c port : Nat} {k : Sent} (hc : wordOpen s (leatPort s 0x150) = some c)
    (hport : movePort s c (leatPort s 0x151) = some port) (hpsn : psnSent (s.conn c) ((leatSource s m).toNat % 2 ^ 32) = true)
    (hk : sentPacket s c ((leatSource s m).toNat % 2 ^ 32) = some k) :
    let p := leatPort s 0x151
    execTxuRetx m s =
      .next (txuGive (offerAll (resend (s.setConn c { s.conn c with port := port, timerOn := true, timerAt := s.fabricTime }) c k
        (if p.getLsbD 4 = true then bits p.toNat 3 0 else connPath (s.conn c).entry ((leatSource s m).toNat % 2 ^ 32)))) 0) := by
  rw [execTxuRetx, leatOp_runs ha hg]
  simp only [hc, hport, hpsn, hk]
  rfl
/-- A transmit descriptor at an address of DMEM, whose fields pass (R412). -/
theorem execTxuTxdesc_placed (h32 : (leatSource s m).toNat % 32 = 0) (hd : (leatSource s m).toNat + 32 ≤ 0x40000)
    (hok : txdescOk (s.leatNow.dmem.bytes (leatSource s m).toNat 32) = true) :
    let desc := s.leatNow.dmem.bytes (leatSource s m).toNat 32
    let k := fieldLE desc 0 1
    let w := leatPort s 0x150
    (k ≤ 3 → execTxuTxdesc m s = .next (txuGive (txdescOpen s k w).1 (txdescOpen s k w).2)) ∧
    (3 < k → ∀ c, wordOpen s w = some c →
      execTxuTxdesc m s = .next (txuGive (if k = 4 then offerAll (closeConn s c 4) else sendProbe s c (fieldLE desc 1 1)) 0)) := by
  intro desc k w
  rw [execTxuTxdesc, leatOp_runs ha hg]
  dsimp only
  rw [if_neg (by simpa using h32), if_neg (by simpa [inDmem] using hd), if_neg (by simp [hok])]
  refine ⟨fun hk => by rw [if_pos hk], fun hk c hc => ?_⟩
  rw [if_neg (Nat.not_le.mpr hk)]
  simp only [show wordOpen s (leatPort s 0x150) = some c from hc, beq_iff_eq]
  rfl

/-! CCU, TMR and CTR (R414, R415, R417) -/

theorem ccuOp_open (f : State → Nat → Conn → Conn) {c : Nat} (hc : wordOpen s (leatPort s 0x190) = some c) :
    ccuOp m s f =
      .next (leatGive (offerAll (sendOut (s.setConn c (f s ((leatSource s m).toNat % 2 ^ 32) (s.conn c))) c)) (.port 0x106 0) 2) := by
  rw [ccuOp, leatOp_runs ha hg]
  simp only [hc]

theorem execTmrTarm_program (hp : (leatPort s 0x1B0).getLsbD 63 = true) :
    let n := (leatPort s 0x1B0).toNat % 16
    execTmrTarm m s = .next (s.onLeat fun x =>
      { x with timers := tins x.timers n (some (s.fabricTime + (leatSource s m).toNat)), tmrx := x.clearX n }) := by
  rw [execTmrTarm, leatOp_runs ha hg]
  exact congrArg _ (if_pos hp)
theorem execTmrTarm_connection (hp : (leatPort s 0x1B0).getLsbD 63 = false) {c : Nat} (hc : wordConn s (leatPort s 0x1B0) = some c) :
    execTmrTarm m s = .next (s.setConn c
      { s.conn c with timeout := (leatSource s m).toNat % 2 ^ 32, timerOn := !(s.conn c).sent.isEmpty, timerAt := s.fabricTime }) := by
  rw [execTmrTarm, leatOp_runs ha hg]
  simp only [hp, hc]
  rfl
theorem execTmrTcancel_program (hp : (leatPort s 0x1B0).getLsbD 63 = true) :
    let n := (leatPort s 0x1B0).toNat % 16
    execTmrTcancel m s = .next (s.onLeat fun x => { x with timers := tdel x.timers n, tmrx := x.clearX n }) := by
  rw [execTmrTcancel, leatOp_runs ha hg]
  exact congrArg _ (if_pos hp)
theorem execTmrTcancel_connection (hp : (leatPort s 0x1B0).getLsbD 63 = false) {c : Nat} (hc : wordConn s (leatPort s 0x1B0) = some c) :
    execTmrTcancel m s = .next (s.setConn c { s.conn c with timerOn := false }) := by
  rw [execTmrTcancel, leatOp_runs ha hg]
  simp only [hp, hc]
  rfl

/-- CTR.CADD on a counter of a partition that owns one of the core's ports (R417). -/
theorem execCtrCadd_adds {side p : Nat}
    (hkind : hKind (leatPort s 0x1D0).toNat = 1 ∨ hKind (leatPort s 0x1D0).toNat = 2 ∨ hKind (leatPort s 0x1D0).toNat = 3)
    (hok : handleOk (leatPort s 0x1D0).toNat = true) (hlt : (leatSource s m).toNat < 2 ^ 62) (hside : side < 2)
    (hp : portOwner s (pairPort s side) = some p) (hin : handleIn (s.part p) (s.part p).hasMill (leatPort s 0x1D0).toNat = true) :
    execCtrCadd m s = .next (applyAdd s (leatPort s 0x1D0).toNat (leatSource s m).toNat) := by
  have hmem : p ∈ [portOwner s (pairPort s 0), portOwner s (pairPort s 1)].filterMap id := by
    refine List.mem_filterMap.mpr ⟨some p, ?_, rfl⟩
    rw [← hp]
    obtain rfl | rfl : side = 0 ∨ side = 1 := by omega
    · exact List.mem_cons_self
    · exact List.mem_cons_of_mem _ List.mem_cons_self
  rw [execCtrCadd, leatOp_runs ha hg]
  dsimp only
  rw [if_neg, if_pos (List.any_eq_true.mpr ⟨p, hmem, hin⟩)]
  have hlt' : ¬ 2 ^ 62 ≤ (leatSource s m).toNat := by omega
  simp only [hok, decide_eq_false hlt', Bool.not_true, Bool.or_false, Bool.not_eq_true', Bool.not_eq_false, Bool.or_eq_true, beq_iff_eq, or_assoc]
  exact hkind
end

/-! ### Program timers and LCTL (R415, R418) -/

theorem execProgramTimerExpiry_due {s : State} {n k e : Nat} (he : tget none (s.leat n).timers (k % 16) = some e) (hdue : e ≤ s.fabricTime) :
    execProgramTimerExpiry n k s = .next (s.setLeat n
      { s.leat n with timers := tdel (s.leat n).timers (k % 16), tmrx := (s.leat n).tmrx ||| BitVec.ofNat 16 (2 ^ (k % 16)) }) := by
  rw [execProgramTimerExpiry]
  dsimp only
  rw [if_neg (by simp [he, hdue])]

theorem execLctlRun_writes {s : State} {n : Nat} (k : Nat) (hn : n < 24) (hp : s.fabricPaused = false) :
    execLctlRun n k s = .next (lctlWrite s n k) := by
  rw [execLctlRun, if_neg (by simp [hp, hn])]
theorem lctlWrite_starts {s : State} {n k : Nat} (hh : (s.leat n).halted = true) (hk : k % 2 = 1) :
    lctlWrite s n k =
      { s.setLeat n { s.leat n with b := [], q := 0, operand := [], result := [], flight := [], stack := [], pc := 0, target := none,
                                    run := true, halted := false, fcode := 0, fpc := 0, timers := [], tmrx := 0 } with
        runQueue := s.runQueue.filter (· != 1000 + n) ++ [1000 + n] } := by
  rw [lctlWrite]
  dsimp only
  rw [if_pos (by simp [hk]), if_pos hh]
theorem lctlWrite_stops {s : State} {n k : Nat} (hh : (s.leat n).halted = false) (hk : k % 2 = 0) :
    lctlWrite s n k =
      { s.setLeat n { (s.leat n).settle with run := false, halted := true, fcode := 0, fpc := 0 } with
        runQueue := s.runQueue.filter (· != 1000 + n) } := by
  rw [lctlWrite]
  dsimp only
  rw [if_neg (by simp [hk]), if_neg (by simp [hh])]
/-- RUN is written as it stands (R418). -/
theorem lctlWrite_same {s : State} {n k : Nat} (h : (s.leat n).halted = true ↔ k % 2 = 0) : lctlWrite s n k = s := by
  rw [lctlWrite]
  dsimp only
  by_cases hk : k % 2 = 0
  · rw [if_neg (by simp [hk]), if_pos (h.mpr hk)]
  · rw [if_pos (by simpa using hk), if_neg (mt h.mp hk)]

/-- Settles O47: the guard passes, then each unit by what its port names; timers and LCTL by the core's state. -/
theorem leatUnitMovesComplete : Obligations.LeatUnitMovesComplete := by
  refine ⟨fun m s ha hg => ?moves, fun s n k => ⟨fun e he hdue => execProgramTimerExpiry_due he hdue, fun hn hp => ?lctl⟩⟩
  case moves =>
    intro v a d x load store w
    refine ⟨fun hn => ⟨fun hd => lsuLoad_dmem ha hg hn hd, fun hlo hhi w hw => lsuLoad_window ha hg hn hlo hhi hw⟩,
      fun hn => ⟨fun hd => lsuLoad_dmem ha hg hn hd, fun hlo hhi w hw => lsuLoad_window ha hg hn hlo hhi hw⟩,
      fun hn => ⟨fun hd => lsuStore_dmem ha hg hn hd, fun hlo hhi w hw hb hc => lsuStore_window ha hg hn hlo hhi hw hb hc⟩,
      fun hn => ⟨fun hd => lsuStore_dmem ha hg hn hd, fun hlo hhi w hw hb hc => lsuStore_window ha hg hn hlo hhi hw hb hc⟩,
      fun c hc => ⟨execTxuAcknow_open ha hg hc, fun port k hport hpsn hk => execTxuRetx_resends ha hg hc hport hpsn hk⟩,
      fun h32 hd => ?txdesc, fun c hc => ⟨ccuOp_open ha hg (fun _ n x => { x with window := some n }) hc,
        ccuOp_open ha hg (fun t n x => { x with rate := some (Nat.min n (portRate t x.port)) }) hc⟩,
      ⟨fun hp => ⟨execTmrTarm_program ha hg hp, execTmrTcancel_program ha hg hp⟩,
        fun hp c hc => ⟨execTmrTarm_connection ha hg hp hc, execTmrTcancel_connection ha hg hp hc⟩⟩,
      fun hkind hok hlt ⟨side, hside, p, hp, hin⟩ => execCtrCadd_adds ha hg hkind hok hlt hside hp hin⟩
    case txdesc =>
      intro desc k hok
      obtain ⟨hopen, hconn⟩ := execTxuTxdesc_placed ha hg h32 hd hok
      exact ⟨hopen, fun c hc => ⟨fun (h4 : k = 4) => (hconn (Nat.lt_of_lt_of_eq (by decide) h4.symm) c hc).trans (by rw [if_pos h4]),
        fun (h5 : k = 5) => (hconn (Nat.lt_of_lt_of_eq (by decide) h5.symm) c hc).trans
          (by rw [if_neg (fun h : k = 4 => absurd (h.symm.trans h5) (by decide))]; rfl)⟩⟩
  case lctl =>
    have hwrite : execLctlRun n k s = .next (lctlWrite s n k) := execLctlRun_writes k hn hp
    exact ⟨fun hh hk => hwrite.trans (congrArg _ (lctlWrite_starts hh hk)), fun hh hk => hwrite.trans (congrArg _ (lctlWrite_stops hh hk)),
      fun h => hwrite.trans (congrArg _ (lctlWrite_same h))⟩

end Sys2Proof.Machine

namespace Sys2Proof.Machine

/-! ### Answers of the shipped responder (R430, R438, R439) -/

/-- A request that is to be answered stands in RXBUF: the controller runs, and no activation of its firmware keeps it busy (R437, R438). -/
def Asked (s : State) (msg : List Byte) : Prop :=
  s.mgmt.rxready = true ∧ s.mgmt.rxbuf = msg ∧ (s.core 768).stopped = false ∧ s.mgmt.busyUntilPoll = false

section
variable {s : State} {msg : List Byte} (hasked : Asked s msg) {handler : State → Except Nat Answer} {a : Answer}
include hasked

/-- A request of version 1.2, answered by its handler. -/
theorem respond_answers {code : Nat} (hver : fieldLE msg 0 1 = 0x12) (hcode : fieldLE msg 1 1 = code) (ha : handler s = .ok a) :
    respond code msg handler s = .next (finishAnswer msg false a) := by
  obtain ⟨hready, hbuf, hrun, hbusy⟩ := hasked
  rw [respond]
  simp only [hready, hbuf, show (s.core mgmtCore).stopped = false from hrun, hbusy, hver, hcode, ha]
  simp

/-- GET_VERSION, whatever version its header says. -/
theorem respond_version (hcode : fieldLE msg 1 1 = 0x84) (ha : handler s = .ok a) (hcs : a.cs = 0) :
    respond 0x84 msg handler s = .next (finishAnswer msg false a) := by
  obtain ⟨hready, hbuf, hrun, hbusy⟩ := hasked
  rw [respond]
  simp only [hready, hbuf, show (s.core mgmtCore).stopped = false from hrun, hbusy, hcode, ha, finishAnswer, hcs]
  simp [hcs]
end

theorem inState_runs {n : Nat} {s : State} (h : s.mgmt.spdm.state = n) (f : State → Except Nat Answer) : inState n f s = f s := by
  rw [inState, if_pos (by simpa using h)]
theorem inSession_runs {n : Nat} {s : State} (h : s.mgmt.spdm.session = n) (f : State → Except Nat Answer) : inSession n f s = f s := by
  rw [inSession, if_pos (by simpa using h)]

theorem answerAlgorithms_offered {msg : List Byte} (hasym : (fieldLE msg 8 4).testBit 7 = true) (hhash : (fieldLE msg 12 4).testBit 1 = true)
    (s : State) : answerAlgorithms msg s =
      .ok { st := s, body := bytesOf [0x12, 0x63, 0, 0, 36, 0, 1, 2, 4, 0, 0, 0, 0x80, 0, 0, 0, 2] ++ zeros 19, ctxs := [0, 1, 2], after := 3,
            sign := 0, cs := 0 } := by
  rw [answerAlgorithms, if_pos (by rw [hasym, hhash]; rfl)]

theorem answerCertificate_portion {msg : List Byte} (hslot : fieldLE msg 2 1 % 16 = 0) (hoff : fieldLE msg 4 2 ≤ certLen) (s : State) :
    let off := fieldLE msg 4 2
    let n := Nat.min (fieldLE msg 6 2) (certLen - off)
    answerCertificate msg s =
      .ok { st := s, body := bytesOf [0x12, 0x02, 0, 0] ++ natLE 2 n ++ natLE 2 (certLen - off - n) ++ (chainBytes.drop off).take n, ctxs := [1],
            after := 3, sign := 0, cs := 0 } := by
  have h : ¬ (fieldLE msg 2 1 % 16 != 0 || decide (certLen < fieldLE msg 4 2)) = true := by
    rw [hslot, decide_eq_false (Nat.not_lt.mpr hoff)]; decide
  rw [answerCertificate]
  exact if_neg h

theorem activationBusy_false {s : State} (h : s.mgmt.act.state < 3) : activationBusy s = false := decide_eq_false (Nat.not_le.mpr h)

theorem answerChallenge_plain {msg : List Byte} (hslot : fieldLE msg 2 1 % 16 = 0) (hkind : fieldLE msg 3 1 = 0) (s : State) :
    answerChallenge msg s =
      .ok { st := (nonceOf s).2, body := bytesOf [0x12, 0x03, 0, 1] ++ sha384 chainBytes ++ (nonceOf s).1 ++ [] ++ zeros 2, ctxs := [1],
            after := 3, sign := 1, cs := 1 } := by
  rw [answerChallenge]
  simp only [hslot, hkind]
  rfl
theorem answerChallenge_summary {msg : List Byte} {s : State} (hslot : fieldLE msg 2 1 % 16 = 0) (hkind : fieldLE msg 3 1 = 0xFF)
    (hact : s.mgmt.act.state < 3) :
    let t := setHash s [3] fun _ => summaryBytes s
    answerChallenge msg s =
      .ok { st := (nonceOf t).2,
            body := bytesOf [0x12, 0x03, 0, 1] ++ sha384 chainBytes ++ (nonceOf t).1 ++ sha384 (summaryBytes s) ++ zeros 2, ctxs := [1],
            after := 3, sign := 1, cs := 1 } := by
  rw [answerChallenge]
  simp only [hslot, hkind, activationBusy_false hact]
  rfl

theorem answerMeasurements_blocks {msg : List Byte} {s : State} (hact : s.mgmt.act.state < 3)
    (hwhich : fieldLE msg 3 1 ≤ 5 ∨ fieldLE msg 3 1 = 0xFF) :
    let which := fieldLE msg 3 1
    let blocks := if which = 0 then [] else if which = 0xFF then allBlocks s else [measBlockOf s which]
    answerMeasurements msg s =
      .ok { st := (nonceOf s).2,
            body := bytesOf [0x12, 0x60, if which = 0 then 5 else 0, 0] ++ natLE 1 blocks.length ++ natLE 3 (55 * blocks.length) ++
              blocks.flatten ++ (nonceOf s).1 ++ zeros 2,
            ctxs := [2], after := 3, sign := 2, cs := if (fieldLE msg 2 1).testBit 0 = true then 2 else 0 } := by
  have h : ¬ (decide (5 < fieldLE msg 3 1) && fieldLE msg 3 1 != 0xFF) = true := by
    rw [Bool.and_eq_true, decide_eq_true_eq, bne_iff_ne]; omega
  rw [answerMeasurements]
  simp only [activationBusy_false hact, h, beq_iff_eq]
  rfl

/-- Settles O50: each request by its handler, in the state of the exchange that the handler wants. -/
theorem responderAnswersComplete : Obligations.ResponderAnswersComplete := by
  intro msg s hready hbuf hrun hbusy code answers session free sp
  have hasked : Asked s msg := ⟨hready, hbuf, hrun, hbusy⟩
  refine ⟨fun hc => ?version, fun hver => ⟨fun hc hst => ?capabilities, fun hc hst hasym hhash => ?algorithms, fun hst => ?negotiated⟩⟩
  case version =>
    show execGetVersion msg s = _
    rw [execGetVersion, respond_version hasked hc rfl rfl]
    rfl
  case capabilities => exact respond_answers hasked hver hc (inState_runs hst _)
  case algorithms => exact respond_answers hasked hver hc ((inState_runs hst _).trans (answerAlgorithms_offered hasym hhash s))
  case negotiated =>
    have gives {c : Nat} {h : State → Except Nat Answer} {a : Answer} (hc : code = c) (ha : h s = .ok a) :
        respond c msg (inState 3 h) s = .next (finishAnswer msg false a) := respond_answers hasked hver hc ((inState_runs hst h).trans ha)
    have frees {c : Nat} (hc : code = c) (ctxs : List Nat) (f : Spdm → Spdm) :
        freeAnswer c ctxs f s = .ok { st := session f, body := free, ctxs := ctxs, after := 3, sign := 0, cs := 0 } := by
      rw [← hc]; rfl
    have sessionGives {c n : Nat} (hc : code = c) (hs : sp.session = n) (f : Spdm → Spdm) :
        respond c msg (inState 3 (inSession n (freeAnswer c [] f))) s = .next (answers (session f) free [] 3 0 0) :=
      gives hc ((inSession_runs hs _).trans (frees hc _ _))
    exact ⟨fun hc => gives hc (frees hc _ _), fun hc hs => sessionGives hc hs _, fun hc hs => sessionGives hc hs _,
      fun hc hs => sessionGives hc hs _, fun hc hs => sessionGives hc hs _, fun hc hs => sessionGives hc hs _,
      fun hc hslot hoff => gives hc (answerCertificate_portion hslot hoff s),
      fun hc hslot => ⟨fun hkind => gives hc (answerChallenge_plain hslot hkind s),
        fun hkind hact => gives hc (answerChallenge_summary hslot hkind hact)⟩,
      fun hc hact hwhich => gives hc (answerMeasurements_blocks hact hwhich)⟩

end Sys2Proof.Machine

namespace Sys2Proof.Machine

/-! ### The mailbox (R434, R437) -/

theorem execDoeObjectReceive_long {object : List Byte} (h : 4096 < object.length) (s : State) :
    execDoeObjectReceive object s = .next { s with mgmt := { s.mgmt with rxlost := s.mgmt.rxlost + 1 } } := by
  rw [execDoeObjectReceive, if_pos (decide_eq_true h)]
  rfl
theorem execDoeObjectReceive_spdm {object : List Byte} (h : object.length ≤ 4096) (hv : fieldLE object 0 2 = 1) (ht : fieldLE object 2 1 = 1)
    (s : State) : execDoeObjectReceive object s = .next (receiveSpdm s (object.drop 8)) := by
  rw [execDoeObjectReceive, if_neg (by simpa using h)]
  simp only [hv, ht]
  rfl
theorem execDoeObjectReceive_mgmt {object : List Byte} (h : object.length ≤ 4096) (hv : fieldLE object 0 2 = 0x1E5C)
    (ht : fieldLE object 2 1 = 0x40) (s : State) : execDoeObjectReceive object s = receiveMgmt s (object.drop 8) := by
  rw [execDoeObjectReceive, if_neg (by simpa using h)]
  simp only [hv, ht]
  rfl

theorem receiveSpdm_stopped {s : State} (hst : (s.core 768).stopped = true) (msg : List Byte) :
    receiveSpdm s msg = s.emit (.doe (spdmError 0x05)) := if_pos hst

section
variable {s : State} (hrun : (s.core 768).stopped = false) (msg : List Byte)
include hrun

theorem receiveSpdm_busy (hb : s.mgmt.busyUntilPoll = true) : receiveSpdm s msg = s.emit (.doe (spdmError 0x03)) := by
  simp only [receiveSpdm, show (s.core mgmtCore).stopped = false from hrun, hb]
  rfl
theorem receiveSpdm_takes (hb : s.mgmt.busyUntilPoll = false) (hr : s.mgmt.rxready = false) :
    receiveSpdm s msg = { s with mgmt := { s.mgmt with rxbuf := msg, rxready := true } } := by
  simp only [receiveSpdm, show (s.core mgmtCore).stopped = false from hrun, hb, hr, State.onMgmt]
  rfl
theorem receiveSpdm_holds (hb : s.mgmt.busyUntilPoll = false) (hr : s.mgmt.rxready = true) (h2 : s.mgmt.rxsecond = none) :
    receiveSpdm s msg = { s with mgmt := { s.mgmt with rxsecond := some msg } } := by
  simp only [receiveSpdm, show (s.core mgmtCore).stopped = false from hrun, hb, hr, h2, State.onMgmt]
  rfl
end

/-- TXGO alone with a length that TXBUF holds (R434). -/
theorem doeCtl_sends {n : Nat} (h1 : 1 ≤ n) (h2 : n ≤ 4096) (s : State) : doeCtl s (n * 2 ^ 32 + 2) = sendTx s n := by
  have hgo : (n * 2 ^ 32 + 2).testBit 1 = true := by
    rw [Nat.mul_comm, Nat.testBit_two_pow_mul_add n (by decide)]; rfl
  have hdone : (n * 2 ^ 32 + 2).testBit 0 = false := by
    rw [Nat.mul_comm, Nat.testBit_two_pow_mul_add n (by decide)]; rfl
  have hlen : (n * 2 ^ 32 + 2) / 2 ^ 32 = n := by omega
  simp only [doeCtl, hgo, hdone, hlen, h1, h2]
  rfl

theorem freeRx_empty {s : State} (h : s.mgmt.rxsecond = none) : freeRx s = { s with mgmt := { s.mgmt with rxbuf := [], rxready := false } } := by
  simp only [freeRx, State.onMgmt, h]
theorem freeRx_next {s : State} {x : List Byte} (h : s.mgmt.rxsecond = some x) :
    freeRx s = { s with mgmt := { s.mgmt with rxbuf := x, rxready := true, rxsecond := none } } := by
  simp only [freeRx, State.onMgmt, h]

/-! ### The hash unit (R435) -/

/-- What HCMD keeps of a write, by its bits: those of OP, the context mask, CS, SRCCTX and V13 (R5, R435). -/
def HcmdBits (v n : Nat) : Prop := ∀ i, n.testBit i = (v.testBit i && (decide (i < 3) || (decide (4 ≤ i) && decide (i ≤ 12))))

theorem testBit_hcmdMask (i : Nat) : (0x1FF7 : Nat).testBit i = (decide (i < 3) || (decide (4 ≤ i) && decide (i ≤ 12))) := by
  by_cases h : i < 13
  · interval_cases i <;> rfl
  · have hlt : (0x1FF7 : Nat) < 2 ^ i := Nat.lt_of_lt_of_le (by decide : 0x1FF7 < 2 ^ 13) (Nat.pow_le_pow_right (by decide) (by omega))
    rw [Nat.testBit_lt_two_pow hlt, decide_eq_false (show ¬ i < 3 by omega), decide_eq_false (show ¬ i ≤ 12 by omega)]
    simp

theorem hcmdBits_eq {v n : Nat} (h : HcmdBits v n) : n = v &&& 0x1FF7 :=
  Nat.eq_of_testBit_eq fun i => by rw [h i, Nat.testBit_and, testBit_hcmdMask]

theorem hcmdKept_runs {v n : Nat} (h : HcmdBits v n) : hcmdKept v false = BitVec.ofNat 64 n := by
  rw [hcmdKept, ← hcmdBits_eq h]
  exact BitVec.or_zero
theorem hcmdKept_refused {v n : Nat} (h : HcmdBits v n) : hcmdKept v true = BitVec.ofNat 64 (n + 2 ^ 63) := by
  have hn : n < 2 ^ 63 := by rw [hcmdBits_eq h]; exact Nat.lt_of_le_of_lt Nat.and_le_right (by decide)
  rw [hcmdKept, ← hcmdBits_eq h, if_pos rfl, ← BitVec.ofNat_or, Nat.or_comm, show 2 ^ 63 ||| n = 2 ^ 63 + n by simpa using (Nat.two_pow_add_eq_or_of_lt hn 1).symm,
    Nat.add_comm]

/-- A command of the hash unit, the state it leaves named by its operation (R435). -/
def hashDone (s : State) (v n : Nat) : State :=
  let s1 := { s with mgmt := { s.mgmt with hcmd := BitVec.ofNat 64 n } }
  let ctx := hashCtx s ((hMask v).headD 0)
  match hOp v with
  | 1 => setHash s1 (hMask v) fun _ => []
  | 2 => setHash s1 (hMask v) (· ++ s.bytesAt (mgmtLoc s.mgmt.hsrc.toNat) s.mgmt.hlen.toNat)
  | 3 => s1.putBytes (mgmtLoc s.mgmt.hdst.toNat) (sha384 ctx)
  | 4 => s1.putBytes (mgmtLoc s.mgmt.hdst.toNat) (spdmSign (v.testBit 12) (hCs v) ctx)
  | _ => setHash s1 (hMask v) fun _ => hashCtx s (hSrcctx v)

theorem hashEvent_commands {s : State} {op v n : Nat} (hv : v < 2 ^ 63) (hn : HcmdBits v n) (hop : hOp v = op) :
    (hashRefused s v = false → hashEvent op v s = .next (hashDone s v n)) ∧
    (hashRefused s v = true → hashEvent op v s = .next { s with mgmt := { s.mgmt with hcmd := BitVec.ofNat 64 (n + 2 ^ 63) } }) := by
  rw [hashEvent, if_pos (by simpa using hop), hashCommand, Nat.mod_eq_of_lt hv]
  refine ⟨fun hr => ?_, fun hr => ?_⟩
  · simp only [hr, hcmdKept_runs hn]
    rfl
  · simp only [hr, hcmdKept_refused hn]
    rfl

/-! ### A fault of the controller (R432) -/

/-- The memories that a fault of the controller leaves alone. -/
def State.kept (s : State) : Memory × Memory := (s.hbm, s.mcram)

theorem onCore_kept (s : State) (c : Nat) (f : Core → Core) : (s.onCore c f).kept = s.kept := rfl
theorem errorWaiting_kept (s : State) (code : Nat) : (errorWaiting s code).kept = s.kept := rfl
theorem errorWaiting_core (s : State) (code c : Nat) : (errorWaiting s code).core c = s.core c := rfl
theorem wakeMill_kept (s : State) (m : Nat) : (wakeMill s m).kept = s.kept := by rw [wakeMill_frame]; rfl
theorem addPending_kept (s : State) (c : Nat) (m : MOp) (code info : Nat) : (addPending s c m code info).kept = s.kept := by
  rw [addPending]; split <;> rfl
theorem startTile_kept (s : State) (c : Nat) (m : MOp) : (startTile s c m).kept = s.kept := (wakeMill_kept s (coreMill c) :)
theorem noteLocalReads_kept (s : State) (c : Nat) (ps : List (Nat × Nat)) : (noteLocalReads s c ps).kept = s.kept := by
  simp only [noteLocalReads]; split <;> rfl
theorem startOp_kept (s : State) (c : Nat) (m : MOp) : (startOp s c m).kept = s.kept := by
  unfold startOp
  split
  next a _ => rw [onCore_kept, addPending_kept]
  next =>
    split
    next f _ => rw [onCore_kept, addPending_kept]
    next => rw [onCore_kept, startTile_kept, noteLocalReads_kept]
theorem startRest_kept (c : Nat) (ms : List MOp) (s : State) : (startRest s c ms).kept = s.kept := by
  induction ms generalizing s with
  | nil => rfl
  | cons m ms ih =>
    rw [startRest]
    split
    · rfl
    · exact (ih _).trans (startOp_kept _ c m)
theorem undoCmd_kept (s : State) (c : Nat) (k : BufCmd) : (undoCmd s c k).kept = s.kept := by cases k <;> rfl
theorem dropBuf_kept (s : State) (c : Nat) : (dropBuf s c).kept = s.kept :=
  foldl_keeps State.kept _ (fun t e => by cases e with
    | write l bs hint => rfl
    | cmd k => exact undoCmd_kept t c k) _ s
theorem rollback_kept (s : State) (c : Nat) : (rollback s c).kept = s.kept :=
  foldl_keeps State.kept rollbackCore (fun t d => (startRest_kept d _ (dropBuf t d)).trans (dropBuf_kept t d)) _ s

/-- The controller's core after its fault (R432). -/
def Core.halt (x : Core) : Core := { x with stopped := true }

/-- The controller stops with its fault saved, and changes no HBM and no MCRAM (R432). -/
theorem execManagementControllerFault_stops {s : State} (code : Nat) (hrun : (s.core 768).stopped = false) :
    ∃ t, execManagementControllerFault code s = .next t ∧ (t.core 768).stopped = true ∧ 768 ∉ t.runQueue ∧
      (t.core 768).ecause = BitVec.ofNat 64 code ∧ (t.core 768).epc = (s.core 768).live.pc ∧ t.kept = s.kept := by
  let f : FaultAt := { code := code, epc := (s.core 768).live.pc }
  have hfault : takeFault s mgmtCore f false = errorWaiting ((rolledBack s 768 f).onCore 768 Core.halt) 0x05 := by
    rw [takeFault]
    exact if_pos rfl
  have hcore : (takeFault s mgmtCore f false).core 768 = (((rollback s 768).core 768).saveFault f).halt := by
    rw [hfault, errorWaiting_core, onCore_core, rolledBack, onCore_core]
  refine ⟨{ takeFault s mgmtCore f false with runQueue := (takeFault s mgmtCore f false).runQueue.filter (· != 768) }, ?next, ?stopped, ?queue,
    ?cause, ?place, ?memory⟩
  case next =>
    rw [execManagementControllerFault, if_neg (by rw [show (s.core mgmtCore).stopped = false from hrun]; decide)]
    rfl
  case stopped => exact congrArg Core.stopped hcore
  case queue => simp
  case cause => exact congrArg Core.ecause hcore
  case place => exact congrArg Core.epc hcore
  case memory =>
    show (takeFault s mgmtCore f false).kept = s.kept
    rw [hfault, errorWaiting_kept, onCore_kept, rolledBack, onCore_kept, rollback_kept]

/-- Settles O51: the mailbox by what it holds, the hash unit by its command, the fault by what a rollback leaves. -/
theorem mailboxAndHashComplete : Obligations.MailboxAndHashComplete := by
  refine ⟨fun s object => ⟨fun h => execDoeObjectReceive_long h s, fun h hv ht => ?spdm, fun h hv ht => execDoeObjectReceive_mgmt h hv ht s⟩,
    fun s n h1 h2 => congrArg _ (doeCtl_sends h1 h2 s),
    fun s => ⟨fun h => congrArg _ (freeRx_empty h), fun x h => congrArg _ (freeRx_next h), rfl⟩,
    fun s v hv => ?hash, fun s code hrun => ?fault⟩
  case spdm =>
    intro msg
    have hreceive : execDoeObjectReceive object s = .next (receiveSpdm s msg) := execDoeObjectReceive_spdm h hv ht s
    exact ⟨fun hst => hreceive.trans (congrArg _ (receiveSpdm_stopped hst msg)),
      fun hrun => ⟨fun hb => hreceive.trans (congrArg _ (receiveSpdm_busy hrun msg hb)),
        fun hb => ⟨fun hr => hreceive.trans (congrArg _ (receiveSpdm_takes hrun msg hb hr)),
          fun hr h2 => hreceive.trans (congrArg _ (receiveSpdm_holds hrun msg hb hr h2))⟩⟩⟩
  case hash =>
    intro kept n hn s1 refused ctx src dst runs
    have command (op : Nat) (hop : hOp v = op) {o : Instr} {t : State} (ho : exec o s = hashEvent op v s) (ht : hashDone s v n = t) : runs o t := by
      obtain ⟨hruns, hrefused⟩ := hashEvent_commands (s := s) hv hn hop
      exact ⟨fun hr => ho.trans ((hruns hr).trans (congrArg _ ht)), fun hr => ho.trans (hrefused hr)⟩
    exact ⟨fun h => command 1 h rfl (by rw [hashDone, h]; rfl), fun h => command 2 h rfl (by rw [hashDone, h]; rfl),
      fun h => command 3 h rfl (by rw [hashDone, h]; rfl), fun h => command 4 h rfl (by rw [hashDone, h]; rfl),
      fun h => command 5 h rfl (by rw [hashDone, h]; rfl)⟩
  case fault =>
    obtain ⟨t, hnext, hstopped, hqueue, hcause, hplace, hkept⟩ := execManagementControllerFault_stops code hrun
    exact ⟨t, hnext, hstopped, hqueue, hcause, hplace, congrArg Prod.fst hkept, congrArg Prod.snd hkept⟩

end Sys2Proof.Machine

namespace Sys2Proof.Machine

/-! ### Live activation (R426 to R428) -/

theorem execRequestActivation_staged {s : State} {kind : Nat} (tag : Nat) (image : List Byte) (hw : s.mgmtWaits = false) (hst : s.mgmt.act.state = 0)
    (h1 : 1 ≤ kind) (h3 : kind ≤ 3) :
    let staged := s.onAct fun a => { a with state := 1, kind := kind, image := image, block := none, pendingMeas := [], since := s.fabricTime }
    execRequestActivation tag kind image s = .next
      (if stageOk s kind image = true then reply (if stageClear s = true then measureAct staged else staged) 0x10 tag 0
       else reply (s.onAct fun a => { a with kind := kind, result := 3 }) 0x10 tag 1) := by
  have hkind : ¬ (kind == 0 || decide (3 < kind)) = true := by
    rw [Bool.or_eq_true, beq_iff_eq, decide_eq_true_eq]; omega
  intro staged
  rw [execRequestActivation, if_neg (by simp [hw]), if_neg (by simp [hst]), if_neg hkind]
  by_cases hok : stageOk s kind image = true
  · rw [if_neg (by simp [hok]), if_pos hok]
    rfl
  · rw [if_pos (by simpa using hok), if_neg hok]
    rfl

theorem execActivationStageTimeout_due {s : State} (hst : s.mgmt.act.state = 1) (ht : 1000000000 ≤ s.actTime) :
    execActivationStageTimeout s = .next (s.onAct fun a => { a with state := 0, result := 3, image := [] }) := by
  rw [execActivationStageTimeout, if_pos]
  rw [hst, decide_eq_true (show stageNs ≤ s.actTime from ht)]
  rfl

/-- LCTL changes leat cores and the run queue (R418). -/
theorem lctlWrite_mgmt (s : State) (n v : Nat) : (lctlWrite s n v).mgmt = s.mgmt := by
  simp only [lctlWrite]
  repeat' split
  all_goals rfl
theorem haltLeats_mgmt (s : State) : (haltLeats s).mgmt = s.mgmt := foldl_keeps State.mgmt _ (fun t n => lctlWrite_mgmt t n 0) _ s

/-- The old image's stop changes neither the activation nor what runs (R427). -/
theorem freezeOld_act (s : State) (kind : Nat) :
    (freezeOld s kind).mgmt.act = s.mgmt.act ∧ (freezeOld s kind).mgmt.running = s.mgmt.running := by
  unfold freezeOld
  split
  · exact ⟨rfl, rfl⟩
  · split
    · rw [haltLeats_mgmt]; exact ⟨rfl, rfl⟩
    · exact ⟨rfl, rfl⟩

/-- FREEZE as the old image's stop leaves it (R426, R427). -/
def frozenAct (s : State) : State :=
  (freezeOld (if s.mgmt.act.state = 1 then measureAct s else s) s.mgmt.act.kind).onAct fun b => { b with state := 3, since := s.fabricTime }

/-- The kind of the activation and what runs stand through FREEZE. -/
theorem frozenAct_names (s : State) :
    (frozenAct s).mgmt.act.kind = s.mgmt.act.kind ∧ (frozenAct s).mgmt.running = s.mgmt.running := by
  obtain ⟨hact, hrunning⟩ := freezeOld_act (if s.mgmt.act.state = 1 then measureAct s else s) s.mgmt.act.kind
  refine ⟨(congrArg Activation.kind hact).trans ?_, hrunning.trans ?_⟩ <;> split <;> rfl

theorem execActivationFreeze_freezes {s : State} {payload : List Byte}
    (hst : s.mgmt.act.state = 2 ∨ (s.mgmt.act.state = 1 ∧ stageClear s = true ∧ s.actTime ≤ 1000000000)) :
    execActivationFreeze (imgHver (tget [] s.mgmt.running s.mgmt.act.kind)) payload s =
      .next ((writeBlock (frozenAct s) payload).getD (enterFallback (frozenAct s))) := by
  have hdue : (s.mgmt.act.state != 2 && !(s.mgmt.act.state == 1 && stageClear s && decide (s.actTime ≤ stageNs))) = false := by
    rcases hst with h | ⟨h, hclear, ht⟩
    · simp [h]
    · rw [h, hclear, decide_eq_true (show s.actTime ≤ stageNs from ht)]; rfl
  rw [execActivationFreeze]
  simp only [hdue, bne_self_eq_false, Bool.or_self, beq_iff_eq]
  rfl

section
variable {s : State} {payload : List Byte} (hlen : payload.length ≤ 2 ^ 22)

theorem writeBlock_none (himg : tget [] s.mgmt.running s.mgmt.act.kind = []) : writeBlock s payload = some s := by
  simp only [writeBlock, himg]
  rfl

variable (himg : tget [] s.mgmt.running s.mgmt.act.kind ≠ [])
include hlen himg

theorem writeBlock_writes (hown : firmwareOwn s (handoverAt s.mgmt.act.kind) (128 + payload.length) = true) :
    let img := tget [] s.mgmt.running s.mgmt.act.kind
    let at_ := handoverAt s.mgmt.act.kind
    writeBlock s payload = some ((writeAt s 0 ⟨.hbm, at_⟩ (handoverBlock (imgHver img) s.mgmt.act.kind (imgVer img) payload)).onAct
      fun b => { b with block := some at_ }) := by
  simp only [writeBlock, hown, decide_eq_false (Nat.not_lt.mpr hlen), List.isEmpty_eq_false_iff.mpr himg]
  rfl
theorem writeBlock_fails (hown : firmwareOwn s (handoverAt s.mgmt.act.kind) (128 + payload.length) = false) :
    writeBlock s payload = none := by
  simp only [writeBlock, hown, decide_eq_false (Nat.not_lt.mpr hlen), List.isEmpty_eq_false_iff.mpr himg]
  rfl
end

section
variable {s : State}

theorem execActivationHandover_frozen (h : s.mgmt.act.state = 3) :
    execActivationHandover s = .next ((s.onAct fun b => { b with state := 4 }).push [.activationHandover]) := by
  simp only [execActivationHandover, h]
theorem execActivationHandover_checks (h : s.mgmt.act.state = 4) : execActivationHandover s = .next (handOver s) := by
  simp only [execActivationHandover, h]
theorem execActivationHandover_resumes (h : s.mgmt.act.state = 5) :
    execActivationHandover s = done (resumeWork (s.onAct fun b => { b with state := 6 })) := by
  simp only [execActivationHandover, h]
theorem execActivationHandover_commits (h : s.mgmt.act.state = 7) : execActivationHandover s = done (commitAct s) := by
  simp only [execActivationHandover, h]
theorem execActivationHandover_fallsBack (h : s.mgmt.act.state = 8) : execActivationHandover s = done (resumeWork (fallbackAct s)) := by
  simp only [execActivationHandover, h]
end

theorem handOver_starts {s : State} (hok : blockOk s = true) (ht : s.actTime ≤ 2000000) :
    handOver s = ((startImage (stopImage s s.mgmt.act.kind) s.mgmt.act.kind s.mgmt.act.image s.mgmt.act.block).onAct fun b =>
      { b with state := 5, hbcnt := 0, since := s.fabricTime }).push [.activationHandover] := by
  rw [handOver]
  exact if_neg (by rw [hok, decide_eq_false (show ¬ freezeNs < s.actTime from Nat.not_lt.mpr ht)]; decide)
theorem handOver_fallsBack {s : State} (h : blockOk s = false ∨ 2000000 < s.actTime) : handOver s = enterFallback s := by
  rw [handOver]
  refine if_pos ?_
  rcases h with h | h
  · rw [h]; rfl
  · rw [decide_eq_true (show freezeNs < s.actTime from h), Bool.or_true]

theorem execActivationFreezeTimeout_due {s : State} (hst : s.mgmt.act.state = 3 ∨ s.mgmt.act.state = 4) (ht : 2000000 < s.actTime) :
    execActivationFreezeTimeout s = .next (enterFallback s) := by
  rw [execActivationFreezeTimeout, if_pos]
  rw [decide_eq_true (show freezeNs < s.actTime from ht), Bool.and_true]
  simpa using hst
theorem execHeartbeatTimeout_due {s : State} (hst : s.mgmt.act.state = 6) (ht : 50000000 ≤ s.actTime) :
    execHeartbeatTimeout s = .next (enterFallback s) := by
  rw [execHeartbeatTimeout, if_pos]
  rw [hst, decide_eq_true (show heartbeatNs ≤ s.actTime from ht)]
  rfl

theorem execHeartbeat_counts {s : State} {v : Nat} (h4 : v < 4) (h0 : v ≠ 0) (hnext : v = (s.mgmt.act.hbcnt + 1) % 4) :
    execHeartbeat v s = .next
      (if s.mgmt.act.state = 6 ∧ v = 3 ∧ s.actTime ≤ 50000000 then
        (s.onAct fun a => { a with hbcnt := v, state := 7 }).push [.activationHandover]
       else s.onAct fun a => { a with hbcnt := v }) := by
  have hwrite : ¬ (v != (s.mgmt.act.hbcnt + 1) % 4 || v == 0) = true := by
    rw [← hnext, bne_self_eq_false, Bool.false_or, beq_iff_eq]; exact h0
  have hthird : (s.mgmt.act.state == 6 && v == 3 && decide (s.actTime ≤ heartbeatNs)) = true ↔
      s.mgmt.act.state = 6 ∧ v = 3 ∧ s.actTime ≤ 50000000 := by
    rw [Bool.and_eq_true, Bool.and_eq_true, beq_iff_eq, beq_iff_eq, decide_eq_true_eq, and_assoc]; rfl
  rw [execHeartbeat, Nat.mod_eq_of_lt h4, heartbeatWrite]
  dsimp only
  rw [if_neg hwrite]
  simp only [hthird]
  rfl

/-! ### Package reset (R425, R444, R446) -/

/-- What a kind boots is in the flash, at its committed slot, with the floors of the fuses (R423, R425). -/
theorem bootImage_congr {s t : State} (hflash : t.mgmt.flash = s.mgmt.flash) (hcommitted : t.mgmt.committed = s.mgmt.committed)
    (hfloor : t.mgmt.svnFloor = s.mgmt.svnFloor) (kind : Nat) : bootImage t kind = bootImage s kind := by
  have haccepted : imgAccepted t kind = imgAccepted s kind := by funext img; simp only [imgAccepted, hfloor]
  simp only [bootImage, haccepted, hflash, hcommitted]

/-- With no image to boot, boot measures and starts nothing (R424, R425). -/
theorem boot_nothing {s : State} (h : ∀ kind, bootImage s kind = none) :
    boot s = (measExtend (measExtend s 0 Config.romDigest) 4 (fuseDigest s)).onMgmt fun m => { m with boots := m.boots + 1 } := by
  have hkind (kind : Nat) : bootKind (measExtend (measExtend s 0 Config.romDigest) 4 (fuseDigest s)) kind =
      measExtend (measExtend s 0 Config.romDigest) 4 (fuseDigest s) := by
    have hb : bootImage (measExtend (measExtend s 0 Config.romDigest) 4 (fuseDigest s)) kind = none :=
      (bootImage_congr rfl rfl rfl kind).trans (h kind)
    simp only [bootKind, hb]
  rw [boot]
  simp only [List.foldl_cons, List.foldl_nil, hkind]

/-- Settles O49: each stage by the state of the activation, and the resets by what boot finds. -/
theorem activationAndResetComplete : Obligations.ActivationAndResetComplete := by
  refine ⟨fun s tag kind image hw hst h1 h3 => execRequestActivation_staged tag image hw hst h1 h3, fun s => ?stages,
    fun s => ⟨rfl, rfl, rfl, fun h => ?reset⟩⟩
  case stages =>
    refine ⟨fun hst ht => execActivationStageTimeout_due hst ht, fun hver payload hst hlen => ?freeze, ?handover,
      fun hst ht => execActivationFreezeTimeout_due hst ht, fun hst ht => execHeartbeatTimeout_due hst ht,
      fun value h4 h0 hnext => execHeartbeat_counts h4 h0 hnext⟩
    case freeze =>
      intro img at_ hv s0 act s1
      have hs1 : s1 = frozenAct s := rfl
      clear_value s1
      subst hs1
      have hfreeze : execActivationFreeze hver payload s = _ := hv ▸ execActivationFreeze_freezes (payload := payload) hst
      obtain ⟨hkind, hrunning⟩ := frozenAct_names s
      have hold : tget [] (frozenAct s).mgmt.running (frozenAct s).mgmt.act.kind = img := by rw [hkind, hrunning]
      refine ⟨fun himg => hfreeze.trans ?none, fun himg => ?block⟩
      case none => rw [writeBlock_none (hold.trans himg)]; rfl
      case block =>
        have hat : handoverAt (frozenAct s).mgmt.act.kind = at_ := by rw [hkind]
        have himg' : tget [] (frozenAct s).mgmt.running (frozenAct s).mgmt.act.kind ≠ [] := fun h => himg (hold.symm.trans h)
        refine ⟨fun hown => hfreeze.trans ?written, fun hown => hfreeze.trans ?refused⟩
        case written =>
          rw [writeBlock_writes hlen himg' (by rw [hat]; exact hown), hold, hat, hkind, hv]
          rfl
        case refused =>
          rw [writeBlock_fails hlen himg' (by rw [hat]; exact hown)]
          rfl
    case handover =>
      exact ⟨fun h => execActivationHandover_frozen h,
        fun h => ⟨fun hok ht => (execActivationHandover_checks h).trans (congrArg _ (handOver_starts hok ht)),
          fun hbad => (execActivationHandover_checks h).trans (congrArg Host.Outcome.next (handOver_fallsBack hbad))⟩,
        fun h => execActivationHandover_resumes h, fun h => execActivationHandover_commits h, fun h => execActivationHandover_fallsBack h⟩
  case reset =>
    have hboot := boot_nothing fun kind => (bootImage_congr (s := s) (t := cleared s) rfl rfl rfl kind).trans (h kind)
    exact ⟨_, congrArg Host.Outcome.next hboot, rfl, rfl, rfl, rfl, rfl, rfl, rfl, rfl, rfl, rfl, rfl, rfl, rfl, rfl, rfl, rfl, rfl, rfl⟩

end Sys2Proof.Machine

namespace Sys2Proof.Machine

/-! ### Requests of the mailbox (R443) -/

/-- A descriptor for a partition that is not FREE is not accepted as a new one. -/
theorem descOk_of_not_free {s : State} {body : List Byte} (hst : (s.part (fieldLE body 2 1)).st ≠ .free) : descOk s body = false := by
  simp [descOk, hst]

theorem connPid_connId (pid : Nat) {n : Nat} (hn : n < 2 ^ 20) : connPid (connId pid n) = pid := by
  simp only [connPid, connId]
  omega

section Served
variable {s : State} (hw : s.mgmtWaits = false)
include hw

theorem serve_accepts (r : Request) (t : State) : serve r s (some t) = .next (offerAll (reply t r.op r.tag stOk)) :=
  if_neg (by simp [hw])
theorem serve_refuses (r : Request) : serve r s none = .next (reply s r.op r.tag stRefused) :=
  if_neg (by simp [hw])
/-- A request whose condition is met takes its effect and is answered with status 0. -/
theorem serve_if_true {c : Bool} (hc : c = true) (r : Request) (t : State) :
    serve r s (if c = true then some t else none) = .next (offerAll (reply t r.op r.tag stOk)) := by
  rw [if_pos hc, serve_accepts hw]
/-- A request whose condition is not met is answered with status 1. -/
theorem serve_if_false {c : Bool} (hc : c = false) (r : Request) (t : State) :
    serve r s (if c = true then some t else none) = .next (reply s r.op r.tag stRefused) := by
  rw [if_neg (by simp [hc]), serve_refuses hw]

/-! ### Partition descriptors and states (R335 to R338) -/

theorem execWritePartitionDescriptor_fresh (tag : Nat) {body : List Byte} (hok : descOk s body = true) :
    execWritePartitionDescriptor tag body s = .next (offerAll (reply
      (rekeyPart (generateKeys (configure s body) { desc := body }) { desc := body } none) 0x02 tag stOk)) := by
  rw [execWritePartitionDescriptor, if_pos hok, serve_accepts hw]

theorem execWritePartitionDescriptor_change (tag : Nat) {body : List Byte} (hst : (s.part (fieldLE body 2 1)).st = .active)
    (hok : descChangeOk (s.part (fieldLE body 2 1)) body = true) :
    execWritePartitionDescriptor tag body s = .next (offerAll (reply
      (serveQueues (changeDesc s body) (fieldLE body 2 1)) 0x02 tag stOk)) := by
  have hfree : ¬ descOk s body = true := Bool.eq_false_iff.mp (descOk_of_not_free (by simp [hst]))
  rw [execWritePartitionDescriptor, if_neg hfree, if_pos (by simp [hst, hok]), serve_accepts hw]

theorem execWritePartitionDescriptor_refused (tag : Nat) {body : List Byte} (hfresh : descOk s body = false)
    (hchange : (s.part (fieldLE body 2 1)).st = .active → descChangeOk (s.part (fieldLE body 2 1)) body = false) :
    execWritePartitionDescriptor tag body s = .next (reply s 0x02 tag stRefused) := by
  rw [execWritePartitionDescriptor, if_neg (by simp [hfresh]), if_neg (by simpa using hchange), serve_refuses hw]

theorem execActivatePartition_configured (tag : Nat) {pid : Nat} (hst : (s.part pid).st = .configured) (hkeys : keysLoaded s (s.part pid) = true)
    (hsvc : (s.part pid).svcLen = 0 ∨ servicePasses s (s.part pid) = true) (hboot : s.mgmt.bootBits % 8 = 7) :
    execActivatePartition tag pid s = .next (offerAll (reply (serveQueues (s.setPart pid
      { s.part pid with
        st := .active,
        pmeas := if (s.part pid).svcLen = 0 then (s.part pid).pmeas
          else extend (s.part pid).pmeas (imgDigest (serviceImage s (s.part pid))) }) pid) 0x03 tag stOk)) := by
  have hpass : servicePasses s (s.part pid) = true := hsvc.elim (fun h => by simp [servicePasses, h]) id
  rw [execActivatePartition, serve_if_true hw (by simp [hst, hkeys, hpass, hboot])]
  simp only [beq_iff_eq]

theorem execActivatePartition_refused (tag : Nat) {pid : Nat} (hst : (s.part pid).st ≠ .configured) :
    execActivatePartition tag pid s = .next (reply s 0x03 tag stRefused) := by
  rw [execActivatePartition, serve_if_false hw (by simp [hst])]

theorem execDestroyPartition_configured (tag : Nat) {pid : Nat} (hst : (s.part pid).st = .configured) :
    execDestroyPartition tag pid s = .next (offerAll (reply (freePart s pid) 0x04 tag stOk)) := by
  simp only [execDestroyPartition, hst, serve_accepts hw]
theorem execDestroyPartition_active (tag : Nat) {pid : Nat} (hst : (s.part pid).st = .active) :
    execDestroyPartition tag pid s = .next (offerAll (reply (drain s pid) 0x04 tag stOk)) := by
  simp only [execDestroyPartition, hst, serve_accepts hw]
theorem execDestroyPartition_refused (tag : Nat) {pid : Nat} (hst : (s.part pid).st = .free ∨ (s.part pid).st = .draining) :
    execDestroyPartition tag pid s = .next (reply s 0x04 tag stRefused) := by
  rcases hst with hst | hst <;> simp only [execDestroyPartition, hst, serve_refuses hw]

/-! ### Launch queues, address spaces, gangs, connections (R350, R361, R368, R369, R398) -/

theorem execWriteLaunchQueueDescriptor_open (tag : Nat) {pid n : Nat} {body : List Byte} (hopen : (s.part pid).open_ = true) (hn : n < 8)
    (hok : lqOk (s.part pid) body = true) :
    let p := s.part pid
    let q := tget {} p.queues n
    let fresh := lqEnabled body && !lqEnabled q.desc
    execWriteLaunchQueueDescriptor tag pid n body s = .next (offerAll (reply (s.setPart pid
      { p with
        queues := tins p.queues n (if fresh = true then { desc := body, base := (s.ctr (hostHandle (lqBell body))).toNat, taken := 0 }
          else { q with desc := body }),
        due := if lqEnabled body && lqEnabled q.desc then p.due else p.due.map fun u => u.filter fun e => e.1 != n }) 0x05 tag stOk)) := by
  intro p q fresh
  rw [execWriteLaunchQueueDescriptor, serve_if_true hw (by simp [hopen, hn, hok])]

theorem execWriteAddressSpaceDescriptor_open (tag : Nat) {pid n : Nat} {body : List Byte} (hopen : (s.part pid).open_ = true) (hn : n < 64)
    (hok : spaceOk (s.part pid) n body = true)
    (hidle : spaceEnabled (tget [] (s.part pid).spaces n) = false ∨ tget [] (s.part pid).spaces n = body ∨ spaceLive s pid n = false) :
    execWriteAddressSpaceDescriptor tag pid n body s =
      .next (offerAll (reply (s.setPart pid { s.part pid with spaces := tins (s.part pid).spaces n body }) 0x06 tag stOk)) := by
  rw [execWriteAddressSpaceDescriptor, serve_if_true hw]
  rcases hidle with h | h | h <;> simp [hopen, hn, hok, h]

theorem execWriteGangDescriptor_open (tag : Nat) {pid n : Nat} {body : List Byte} (hopen : (s.part pid).open_ = true) (hn : n < 16)
    (hok : gangOk body = true)
    (hidle : ∀ j ∈ s.jobsOf pid, j.phase = .running → recGang j.record = true → recGangix j.record ≠ n) :
    execWriteGangDescriptor tag pid n body s = .next (offerAll (reply
      (((s.jobsOf pid).filter fun j => recGang j.record && recGangix j.record == n).foldl
        (fun t j => t.setJob j.id { j with skipped := none })
        (s.setPart pid { s.part pid with gangs := tins (s.part pid).gangs n body, slice := tins (s.part pid).slice n none })) 0x07 tag stOk)) := by
  have hnone : ((s.jobsOf pid).any fun j => j.phase == .running && recGang j.record && recGangix j.record == n) = false :=
    List.any_eq_false.mpr fun j hj => by simpa using hidle j hj
  rw [execWriteGangDescriptor, serve_if_true hw (by simp [hopen, hn, hok, hnone])]

theorem execOpenConnection_open (tag : Nat) {pid n u : Nat} {body : List Byte} (hopen : (s.part pid).open_ = true) (hn : n < 2 ^ 20)
    (hlen : body.length = 64) (hclosed : connState (s.conn (connId pid n)).entry = 0) (hok : entryOk s (s.part pid) body = true)
    (hroom : ((s.part pid).conns.filter fun e => connState e.2.entry != 0).length < 65536) (hport : usablePort s body = some u) :
    execOpenConnection tag pid n body s = .next (offerAll (reply
      (sendCtl (s.setConn (connId pid n) { entry := setLE body 0 1 1, port := u }) (connId pid n) (.handshake (connId pid n) 1)) 0x09 tag stOk)) := by
  have htable : tableRoom s (connId pid n) = true := by
    simp only [tableRoom, connPid_connId pid hn]
    exact decide_eq_true hroom
  rw [execOpenConnection, if_pos (by simp only [hopen, decide_eq_true hn, hlen, hclosed, hok, htable, beq_self_eq_true, Bool.and_self]), hport]
  exact serve_accepts hw _ _

/-! ### Invalidations, key slots and what a partition that is not FREE may ask (R339, R373, R382, R383) -/

theorem execInvalidateTranslations_asks {pid n : Nat} (tag base len : Nat) (hst : (s.part pid).st ≠ .free) (hn : n < 64)
    (hready : s.invalReady (.invalidateTranslations tag pid n base len) = false) :
    let k := invalOf s (.invalidateTranslations tag pid n base len) true pid n false
    (k.cores = [] → k.cmds = [] → execInvalidateTranslations tag pid n base len s =
      .next (offerAll (reply (invalidateSpace s pid n base len) 0x08 tag stOk))) ∧
    (k.cores ≠ [] ∨ k.cmds ≠ [] → execInvalidateTranslations tag pid n base len s =
      .next (offerAll (waitInval (invalidateSpace s pid n base len) k false))) := by
  intro k
  have hok : ((s.part pid).st != .free && decide (n < 64)) = true := by simp [hst, hn]
  have hasks : execInvalidateTranslations tag pid n base len s = askInvalidate tag pid n base len s := if_neg (by simp [hready])
  refine ⟨fun hcores hcmds => ?_, fun hsome => ?_⟩
  · refine hasks.trans ((if_pos ?_).trans (serve_if_true hw hok _ _))
    show (s.mgmtWaits || !((s.part pid).st != .free && decide (n < 64)) || (k.cores.isEmpty && k.cmds.isEmpty)) = true
    simp [hcores, hcmds]
  · refine hasks.trans (if_neg ?_)
    show ¬ (s.mgmtWaits || !((s.part pid).st != .free && decide (n < 64)) || (k.cores.isEmpty && k.cmds.isEmpty)) = true
    rw [hw, hok]
    simpa [imp_iff_not_or] using hsome

theorem execCloseConnection_open (tag : Nat) {pid n : Nat} (hst : (s.part pid).st ≠ .free) (hn : n < 2 ^ 20)
    (hopen : connState (s.conn (connId pid n)).entry = 2) :
    execCloseConnection tag pid n s = .next (offerAll (reply (closeConn s (connId pid n) 2) 0x0A tag stOk)) := by
  rw [execCloseConnection, serve_if_true hw]
  simp only [hopen, decide_eq_true hn, bne_iff_ne.mpr hst, beq_self_eq_true, Bool.and_self]

theorem execDetach_held (tag : Nat) {pid : Nat} (hst : (s.part pid).st ≠ .free) :
    execDetach tag pid s = .next (offerAll (reply (loseHost s pid) 0x0C tag stOk)) := by
  rw [execDetach, serve_if_true hw (bne_iff_ne.mpr hst)]

theorem execReattach_held (tag : Nat) {pid : Nat} (hst : (s.part pid).st ≠ .free) :
    execReattach tag pid s = .next (offerAll (reply ((noteSuspended (rehost
      (((s.jobsOf pid).filter (·.suspendedNow)).foldl (fun t j => unsuspend t j.id)
        { s with hostLost := s.hostLost.filter (· != pid), lostAt := tdel s.lostAt pid }) pid) pid).push [.dispatch pid]) 0x0D tag stOk)) := by
  rw [execReattach, if_neg (by simp [hst]), serve_accepts hw]

theorem execKillSuspended_held (tag : Nat) {pid : Nat} (hst : (s.part pid).st ≠ .free) :
    execKillSuspended tag pid s = .next (offerAll (reply
      (((s.jobsOf pid).filter (·.suspendedNow)).foldl (fun t j => killJob t j.id 3 cHostlost) s) 0x0E tag stOk)) := by
  rw [execKillSuspended, if_neg (by simp [hst]), serve_accepts hw]

theorem execReadPartitionRecord_record (tag : Nat) {pid : Nat} (hst : (s.part pid).st ≠ .free) :
    execReadPartitionRecord tag pid 0 s =
      .next (replyWith (noteCorrected s pid) 0x0F tag stOk (padTo 512 ((noteCorrected s pid).part pid).record)) := by
  rw [execReadPartitionRecord, if_neg (by simp [hw]), if_neg (by simp [hst]), if_neg (by decide)]
theorem execReadPartitionRecord_events (tag : Nat) {pid : Nat} (hst : (s.part pid).st ≠ .free) :
    execReadPartitionRecord tag pid 1 s =
      .next (replyWith s 0x0F tag stOk ((s.part pid).events.flatten ++ natLE 4 (s.part pid).eventsLost)) := by
  rw [execReadPartitionRecord, if_neg (by simp [hw]), if_neg (by simp [hst]), if_pos (by decide)]

theorem execLoadKeySlot_secured (tag : Nat) {slot : Nat} {body : List Byte} (hslot : slot < 128) (hlen : body.length = 64)
    (hsession : s.mgmt.spdm.session = 2) :
    execLoadKeySlot tag slot body s = .next (offerAll (reply (rekeySlot { s with keys := tins s.keys slot body } slot) 0x0B tag stOk)) := by
  rw [execLoadKeySlot, serve_if_true hw (by simp [hslot, hlen, hsession])]
theorem execLoadKeySlot_refused (tag slot : Nat) (body : List Byte) (hsession : s.mgmt.spdm.session ≠ 2) :
    execLoadKeySlot tag slot body s = .next (reply s 0x0B tag stRefused) := by
  rw [execLoadKeySlot, serve_if_false hw (by simp [hsession])]

theorem execRaiseSvnFloor_raises (tag : Nat) {kind floor : Nat} (hkind : kind ∈ s.mgmt.commitKinds)
    (hmax : floor ≤ imgSvn (tget [] s.mgmt.running kind)) (hmin : tget 0 s.mgmt.svnFloor kind ≤ floor) :
    execRaiseSvnFloor tag kind floor s = .next (offerAll (reply
      { s with mgmt := { s.mgmt with svnFloor := tput 0 s.mgmt.svnFloor kind floor } } 0x11 tag stOk)) := by
  rw [execRaiseSvnFloor, serve_if_true hw (by simp [hkind, hmax, hmin])]
  rfl

end Served

theorem execInvalidateTranslations_ready {s : State} {tag pid n base len : Nat}
    (hready : s.invalReady (.invalidateTranslations tag pid n base len) = true) :
    execInvalidateTranslations tag pid n base len s =
      .next (offerAll (serveWaiting (reply (dropInval s (.invalidateTranslations tag pid n base len)) 0x08 tag stOk))) :=
  if_pos hready

/-- Settles O48, request by request: each is served at once, since none waits. -/
theorem managementRequestsComplete : Obligations.ManagementRequestsComplete := by
  refine ⟨fun s tag pid hw => ?requests, fun s tag pid n base len hready => execInvalidateTranslations_ready hready⟩
  refine ⟨if_neg (by simp [hw]), fun body hpid => ?descriptor, fun hst hkeys hsvc hboot => ?activate, fun hst => ?notConfigured,
    fun hst => ?destroy, fun hst => ?drains, fun hst => ?notDestroyed, fun hst hdrained => ?drained, fun hst => ?opened, fun hst => ?held,
    fun slot body hslot hlen => ⟨fun hsession => ?key, fun hsession => ?noSession⟩, fun kind floor hkind hmax hmin => ?floor⟩
  case descriptor =>
    subst hpid
    exact ⟨fun hok => execWritePartitionDescriptor_fresh hw tag hok, fun hst hok => execWritePartitionDescriptor_change hw tag hst hok,
      fun hfresh hchange => execWritePartitionDescriptor_refused hw tag hfresh hchange⟩
  case activate => exact execActivatePartition_configured hw tag hst hkeys hsvc hboot
  case notConfigured => exact execActivatePartition_refused hw tag hst
  case destroy => exact execDestroyPartition_configured hw tag hst
  case drains => exact execDestroyPartition_active hw tag hst
  case notDestroyed => exact execDestroyPartition_refused hw tag hst
  case drained => exact if_pos (by simp [hst, hdrained])
  case opened =>
    have hopen : (s.part pid).open_ = true := by simpa [Partition.open_] using hst
    exact ⟨fun n body hn hok => execWriteLaunchQueueDescriptor_open hw tag hopen hn hok,
      fun n body hn hok hidle => execWriteAddressSpaceDescriptor_open hw tag hopen hn hok hidle,
      fun n body hn hok hidle => execWriteGangDescriptor_open hw tag hopen hn hok hidle,
      fun n body u hn hlen hclosed hok hroom hport => execOpenConnection_open hw tag hopen hn hlen hclosed hok hroom hport⟩
  case held =>
    exact ⟨fun n base len hn hready => execInvalidateTranslations_asks hw tag base len hst hn hready,
      fun n hn hopen => execCloseConnection_open hw tag hst hn hopen, execDetach_held hw tag hst,
      ⟨execReattach_held hw tag hst, execKillSuspended_held hw tag hst⟩, execReadPartitionRecord_record hw tag hst,
      execReadPartitionRecord_events hw tag hst⟩
  case key => exact execLoadKeySlot_secured hw tag hslot hlen hsession
  case noSession => exact execLoadKeySlot_refused hw tag slot body hsession
  case floor => exact execRaiseSvnFloor_raises hw tag hkind hmax hmin

end Sys2Proof.Machine

namespace Sys2Proof.Machine

/-! ### Frames that a port takes (R395, R400, R401) -/

/-- A frame passes a port that is up, not blocked, and accepts its association. -/
theorem takeFrame_passes {s : State} {port an : Nat} (hup : (s.port port).down = false) (hfree : portBlocked s port = false)
    (hmac : macAccepts (s.port port).mac an = true) (k : State → State) : takeFrame s port an k = k (noteMac s port an) :=
  if_neg (by simp [hup, hfree, hmac])

theorem takeControl_passes {s t : State} {port : Nat} (h : TakesControl s port t) (k : State → State) : takeControl s port k = k t := by
  obtain ⟨hup, hfree, hmac, rfl⟩ := h
  exact takeFrame_passes hup hfree hmac k

theorem noteMac_parts (s : State) (port an : Nat) : (noteMac s port an).parts = s.parts := by
  simp only [noteMac]
  split <;> rfl
theorem noteMac_conn (s : State) (port an c : Nat) : (noteMac s port an).conn c = s.conn c := by
  simp only [State.conn, State.part, noteMac_parts]

/-- A frame that a port takes leaves the connections. -/
theorem TakesControl.conn_eq {s t : State} {port : Nat} (h : TakesControl s port t) (c : Nat) : t.conn c = s.conn c := by
  obtain ⟨_, _, _, rfl⟩ := h
  exact noteMac_conn s port _ c

/-! ### Ports, keys and fabric time (R393 to R397) -/

theorem foldl_emit_outputs (fs : List (Nat × Output)) (s : State) :
    fs.foldl (fun t f => t.emit f.2) s = { s with outputs := s.outputs ++ fs.map (·.2) } := by
  induction fs generalizing s with
  | nil => simp
  | cons f fs ih =>
    rw [List.foldl_cons, ih, State.emit, List.map_cons, List.append_assoc]
    rfl

theorem execLlrReplay_held {s : State} {port frames first : Nat} (hpos : 0 < frames)
    (hlen : ((s.port port).retry.filter fun f => decide (first ≤ f.1) && decide (f.1 < first + frames)).length = frames) :
    execLlrReplay port frames first s = .next (leatEvent
      { s with outputs := s.outputs ++
                ((s.port port).retry.filter fun f => decide (first ≤ f.1) && decide (f.1 < first + frames)).map (·.2) }
      port 0x0A noConn false (natLE 4 frames ++ natLE 4 first)) := by
  have hne : ((s.port port).retry.filter fun f => decide (first ≤ f.1) && decide (f.1 < first + frames)) ≠ [] :=
    List.ne_nil_of_length_pos (by omega)
  rw [execLlrReplay, if_neg (by simp only [hlen, List.isEmpty_eq_false_iff.mpr hne]; simp), foldl_emit_outputs]

theorem execLinkPartnerAcknowledgement_open {s : State} {port : Nat} (frame : Nat) (hroom : (s.port port).buffer = 0) :
    execLinkPartnerAcknowledgement port frame s =
      .next (offerAll (s.setPort port { s.port port with retry := (s.port port).retry.filter fun f => decide (frame < f.1) })) := by
  rw [execLinkPartnerAcknowledgement, if_pos (by simp [hroom]), done]
theorem execLinkPartnerAcknowledgement_sends {s : State} {port : Nat} (frame : Nat) (hroom : (s.port port).buffer ≠ 0) :
    execLinkPartnerAcknowledgement port frame s = .next (offerAll (sendPort
      (s.setPort port { s.port port with retry := (s.port port).retry.filter fun f => decide (frame < f.1) }) port)) := by
  rw [execLinkPartnerAcknowledgement, if_neg (by simp [hroom]), done]

theorem execKeyExpiry_mark {s : State} {port key : Nat} (conn pn : Nat) (hon : (s.port port).mac.on = true) (htx : (s.port port).mac.tx = key)
    (hmark : (s.port port).mac.mark.getD (2 ^ 62) ≤ tget 0 (s.port port).mac.pn key) :
    execKeyExpiry port conn key pn false s = .next (leatEvent s port 0x0B noConn false (natLE 1 key ++ zeros 7 ++ natLE 8 pn)) := by
  subst htx
  have hreached : (s.port port).mac.rekeyMark ≤ (s.port port).macPn := hmark
  rw [execKeyExpiry, if_neg (by simp [hon, hreached])]
  rfl

/-- At a client port that is up, fabric time steps forward by a correction of more than 1 µs (R397). -/
theorem execPtpTimeCorrection_client {s : State} {port : Nat} (hport : s.mgmt.ptpPort = some port) (hup : (s.port port).down = false)
    (backward : Bool) (ns : Nat) :
    execPtpTimeCorrection backward ns s =
      .next (if !backward && decide (1000 < ns) then { s with timeShift := s.timeShift + ns } else s) := by
  simp only [execPtpTimeCorrection, hport, hup, Bool.not_false, Bool.true_and]

/-! ### Connections (R398) -/

theorem execConnectionHandshakeComplete_opening {s t : State} {c : Nat} (htakes : TakesControl s (s.conn c).port t)
    (hst : connState (s.conn c).entry = 1) :
    execConnectionHandshakeComplete c s = .next (t.setConn c { t.conn c with entry := setLE (t.conn c).entry 0 1 2 }) := by
  rw [execConnectionHandshakeComplete, takeControl_passes htakes, if_neg (by simp [htakes.conn_eq, hst])]

theorem execConnClose_passes {s t : State} {c : Nat} (htakes : TakesControl s (s.conn c).port t) :
    execConnClose c s = .next (offerAll (closeConn t c 1)) := by
  rw [execConnClose, takeControl_passes htakes, done]

theorem closeConn_of_not_open {s : State} {c : Nat} (hst : connState (s.conn c).entry ≠ 2) (reason : Nat) : closeConn s c reason = s :=
  if_pos (bne_iff_ne.mpr hst)

theorem finishClose_closing {s : State} {c : Nat} (hst : connState (s.conn c).entry = 3) :
    finishClose s c = refuseAdds (s.setConn c { entry := setLE (s.conn c).entry 0 1 0, port := (s.conn c).port }) (s.conn c).sent :=
  if_neg (by simp [hst])

/-- Settles O45, event by event. -/
theorem portAndConnectionEventsComplete : Obligations.PortAndConnectionEventsComplete := by
  refine ⟨fun s port => ?ports, fun s ns port hport hup => ⟨?forward, ?backward⟩, fun s c => ⟨fun t htakes => ?takes, fun hst => ?closed⟩⟩
  case ports =>
    exact ⟨fun frames first hpos hlen => execLlrReplay_held hpos hlen,
      fun frame => ⟨execLinkPartnerAcknowledgement_open frame, execLinkPartnerAcknowledgement_sends frame⟩,
      fun conn key pn => ⟨execKeyExpiry_mark conn pn, rfl⟩, fun mask => rfl, rfl,
      fun t node addr htakes => congrArg Host.Outcome.next (takeControl_passes htakes _)⟩
  case forward =>
    refine (execPtpTimeCorrection_client hport hup false ns).trans ?_
    simp only [Bool.not_false, Bool.true_and, decide_eq_true_eq]
  case backward => exact execPtpTimeCorrection_client hport hup true ns
  case takes =>
    exact ⟨execConnectionHandshakeComplete_opening htakes, fun _ => execConnClose_passes htakes,
      fun hst => (execConnClose_passes htakes).trans
        (congrArg (fun u => Host.Outcome.next (offerAll u)) (closeConn_of_not_open (by rwa [htakes.conn_eq]) 1))⟩
  case closed => exact congrArg (fun u => Host.Outcome.next (offerAll u)) (finishClose_closing hst)

end Sys2Proof.Machine

namespace Sys2Proof.Machine

/-! ### What a packet passes (R384, R386, R389, R394) -/

/-- The first frame under a newer association changes a port's MACsec state alone (R395). -/
theorem noteMac_port_same (s : State) (port an : Nat) :
    ((noteMac s port an).port port).longHaul = (s.port port).longHaul ∧
    ∀ h n, packetBytes ((noteMac s port an).port port) h n = packetBytes (s.port port) h n := by
  simp only [noteMac]
  split
  · rw [port_setPort]
    exact ⟨rfl, fun _ _ => rfl⟩
  · exact ⟨rfl, fun _ _ => rfl⟩

/-- A packet that the port accepts and whose header, mode, authenticity and length pass. -/
structure PacketPasses (s : State) (p : Packet) : Prop where
  up : (s.port p.port).down = false
  free : portBlocked s p.port = false
  mac : macAccepts (s.port p.port).mac p.an = true
  mode : p.mode = 0
  auth : p.badAuth = false
  header : headerOk p.header = true
  fits : (s.port p.port).longHaul = true → packetBytes (s.port p.port) p.header p.payload.length ≤ 9216

/-- Such a packet finds its entry as the first frame under its association leaves it. -/
theorem receivePacket_passes {s0 : State} {p : Packet} (h : PacketPasses s0 p) (k : State → State) :
    receivePacket s0 p k =
      let s := noteMac s0 p.port p.an
      let st := connState (s.conn p.conn).entry
      if st != 2 && st != 3 then s
      else if rxHas (s.conn p.conn) p.psn then answerPacket s p
      else if st != 2 then s
      else if p.trimmed then sendCtl s p.conn (.trimAck p.conn p.psn)
      else k s := by
  obtain ⟨hlong, hbytes⟩ := noteMac_port_same s0 p.port p.an
  have hfits : ((s0.port p.port).longHaul && decide (longFrame < packetBytes (s0.port p.port) p.header p.payload.length)) = false := by
    rw [Bool.and_eq_false_imp]
    exact fun hlong => decide_eq_false (Nat.not_lt.mpr (h.fits hlong))
  rw [receivePacket, takeFrame_passes h.up h.free h.mac]
  refine if_neg ?_
  rw [hlong, hbytes, hfits, h.mode, h.auth, h.header]
  decide

section Passes
variable {s0 : State} {p : Packet} (h : PacketPasses s0 p)
include h

/-- A packet that has been accepted before is acknowledged again, while its entry closes too (R389, R420). -/
theorem receivePacket_duplicate (hst : connState (s0.conn p.conn).entry = 2 ∨ connState (s0.conn p.conn).entry = 3)
    (hseen : rxHas ((noteMac s0 p.port p.an).conn p.conn) p.psn = true) (k : State → State) :
    receivePacket s0 p k = answerPacket (noteMac s0 p.port p.an) p := by
  rw [receivePacket_passes h]
  exact (if_neg (by rw [noteMac_conn]; rcases hst with hst | hst <;> simp [hst])).trans (if_pos hseen)

/-- The first arrival of a packet on an OPEN entry: trimmed, or handed to what its type asks for. -/
theorem receivePacket_first (hst : connState (s0.conn p.conn).entry = 2)
    (hnew : rxHas ((noteMac s0 p.port p.an).conn p.conn) p.psn = false) (k : State → State) :
    receivePacket s0 p k =
      if p.trimmed then sendCtl (noteMac s0 p.port p.an) p.conn (.trimAck p.conn p.psn) else k (noteMac s0 p.port p.an) := by
  rw [receivePacket_passes h]
  rw [noteMac_conn] at hnew
  simp only [noteMac_conn, hnew, hst, bne_self_eq_false, Bool.false_and, Bool.false_eq_true, if_false]

theorem execDataPacketReceive_duplicate (hst : connState (s0.conn p.conn).entry = 2 ∨ connState (s0.conn p.conn).entry = 3)
    (hseen : rxHas ((noteMac s0 p.port p.an).conn p.conn) p.psn = true) :
    execDataPacketReceive p s0 = .next (offerAll (answerPacket (noteMac s0 p.port p.an) p)) := by
  rw [execDataPacketReceive, receivePacket_duplicate h hst hseen, done]
theorem execCounterPacketReceive_duplicate (hst : connState (s0.conn p.conn).entry = 2 ∨ connState (s0.conn p.conn).entry = 3)
    (hseen : rxHas ((noteMac s0 p.port p.an).conn p.conn) p.psn = true) :
    execCounterPacketReceive p s0 = .next (offerAll (answerPacket (noteMac s0 p.port p.an) p)) := by
  rw [execCounterPacketReceive, receivePacket_duplicate h hst hseen, done]

section First
variable (hst : connState (s0.conn p.conn).entry = 2) (hnew : rxHas ((noteMac s0 p.port p.an).conn p.conn) p.psn = false)
include hst hnew

theorem execDataPacketReceive_trimmed (htrim : p.trimmed = true) :
    execDataPacketReceive p s0 = .next (offerAll (sendCtl (noteMac s0 p.port p.an) p.conn (.trimAck p.conn p.psn))) := by
  rw [execDataPacketReceive, receivePacket_first h hst hnew, if_pos htrim, done]
theorem execCounterPacketReceive_trimmed (htrim : p.trimmed = true) :
    execCounterPacketReceive p s0 = .next (offerAll (sendCtl (noteMac s0 p.port p.an) p.conn (.trimAck p.conn p.psn))) := by
  rw [execCounterPacketReceive, receivePacket_first h hst hnew, if_pos htrim, done]

theorem execDataPacketReceive_tensor (htrim : p.trimmed = false) (htype : hdType p.header = 1) :
    execDataPacketReceive p s0 = .next (offerAll (receiveTensor (noteMac s0 p.port p.an) p)) := by
  rw [execDataPacketReceive, receivePacket_first h hst hnew, if_neg (by simp [htrim]), done]
  simp only [htype]
theorem execDataPacketReceive_graph (htrim : p.trimmed = false) (htype : hdType p.header = 2) :
    execDataPacketReceive p s0 = .next (offerAll (receiveGraph (noteMac s0 p.port p.an) p)) := by
  rw [execDataPacketReceive, receivePacket_first h hst hnew, if_neg (by simp [htrim]), done]
  simp only [htype]
theorem execCounterPacketReceive_counter (htrim : p.trimmed = false) (htype : hdType p.header = 3) :
    execCounterPacketReceive p s0 = .next (offerAll (receiveCounter (noteMac s0 p.port p.an) p)) := by
  rw [execCounterPacketReceive, receivePacket_first h hst hnew, if_neg (by simp [htrim]), if_pos (by simp [htype]), done]

end First
end Passes

/-! ### What a packet does (R121, R307, R308) -/

/-- A clean packet for an armed slot of its own number and partition, within the tensor and of the right length, is placed and accepted. -/
theorem receiveTensor_placed {s t : State} {p : Packet} {a : Armed} (harm : s.armedSlot (hdDie p.header) (hdTarget p.header % 1024) = some a)
    (hinst : a.inst = hdInst p.header) (hpid : a.pid = connPid p.conn) (hrows : hdPos p.header + hdRows p.header ≤ armRows a.desc)
    (hcols : hdCol p.header + hdCols p.header ≤ armCols a.desc) (hes : hdEs p.header = fieldLE a.desc 24 1)
    (hmx : hdMx p.header = true → armElem a.desc = 4 ∧ hdCols p.header % 32 = 0)
    (hlen : p.payload.length = tensorLen p.header (armElem a.desc)) (hpoison : hdPoison p.header = false) (hicv : p.badIcv = false)
    (hplace : placeTensor s (hdDie p.header) (hdTarget p.header % 1024) a p.header p.payload p.cipher = .ok t) :
    receiveTensor s p = acceptPacket t p := by
  have hshape : (hdMx p.header && (armElem a.desc != 4 || hdCols p.header % 32 != 0)) = false := by simpa using hmx
  simp only [receiveTensor, harm, hplace]
  rw [if_neg (by simp [hinst, hpid]), if_neg, if_neg (by simp [hpoison, hicv])]
  rw [hshape, decide_eq_false (Nat.not_lt.mpr hrows), decide_eq_false (Nat.not_lt.mpr hcols), hes, hlen]
  simp

theorem receiveCounter_adds {s : State} {p : Packet} (hkind : hdTarget p.header = 1 ∨ hdTarget p.header = 2)
    (hok : handleOk (mkHandle (hdTarget p.header) (hdDie p.header) (hdPos p.header)) = true)
    (hin : handleIn (s.part (connPid p.conn)) (s.part (connPid p.conn)).hasMill
      (mkHandle (hdTarget p.header) (hdDie p.header) (hdPos p.header)) = true) (haux : hdAux p.header < 2 ^ 62) :
    receiveCounter s p =
      acceptPacket (applyAdd s (mkHandle (hdTarget p.header) (hdDie p.header) (hdPos p.header)) (hdAux p.header)) p := by
  have hk : (hdTarget p.header == 1 || hdTarget p.header == 2) = true := by simpa using hkind
  refine if_neg ?_
  rw [hk, hok, hin, decide_eq_false (Nat.not_le.mpr haux)]
  decide

/-! ### Answers to the sender (R389 to R392) -/

theorem execAckReceive_live {s0 s : State} {c cum bitmap : Nat} (credit marked : Nat) (htakes : TakesControl s0 (s0.conn c).port s)
    (hcum : cum < 2 ^ 32) (hbitmap : bitmap < 2 ^ 64) (hst : connState (s.conn c).entry = 2 ∨ connState (s.conn c).entry = 3) :
    let t := applyAck s c cum bitmap credit
    let u := if bitmap = 0 then t else leatEvent t (s.conn c).port 0x01 c false (natLE 4 cum ++ natLE 8 bitmap)
    execAckReceive c cum bitmap credit marked s0 =
      .next (offerAll (if marked = 0 then u else leatEvent u (s.conn c).port 0x04 c false (natLE 4 cum ++ natLE 4 marked))) := by
  have hlive : (connState (s.conn c).entry == 2 || connState (s.conn c).entry == 3) = true := by simpa using hst
  rw [execAckReceive, takeControl_passes htakes, if_neg (by rw [hlive]; decide), done]
  simp only [Nat.mod_eq_of_lt hcum, Nat.mod_eq_of_lt hbitmap, beq_iff_eq]

theorem reportSent_unacknowledged {s : State} {c psn : Nat} {k : Sent} (h : sentPacket s c psn = some k) (code : Nat) (data : List Byte) :
    reportSent s c psn code data = leatEvent s (s.conn c).port code c false (natLE 4 psn ++ data) :=
  if_pos (by rw [h]; rfl)

/-- The data of a CHUNK_POISONED event after its PSN. -/
theorem poisonData_drop (psn slot chunk : Nat) : (poisonData psn slot chunk).drop 4 = zeros 4 ++ natLE 2 slot ++ natLE 4 chunk := by
  rw [poisonData, List.append_assoc, List.append_assoc, List.drop_left' (natLE_length 4 psn), List.append_assoc]

section Answers
variable {s0 s : State} {c psn : Nat} {k : Sent} (htakes : TakesControl s0 (s0.conn c).port s) (hsent : sentPacket s c psn = some k)
include htakes hsent

theorem execInstanceNotArmed_sent (inst slot : Nat) :
    execInstanceNotArmed c psn inst slot s0 =
      .next (leatEvent s (s.conn c).port 0x07 c false (natLE 4 psn ++ (natLE 4 inst ++ natLE 2 slot))) := by
  rw [execInstanceNotArmed, takeControl_passes htakes, reportSent_unacknowledged hsent]

theorem execTrimRx_sent : execTrimRx c psn s0 = .next (leatEvent s (s.conn c).port 0x05 c false (natLE 4 psn ++ [])) := by
  rw [execTrimRx, takeControl_passes htakes, reportSent_unacknowledged hsent]

theorem execNackRx_reported {reason : Nat} (hne : reason ≠ 3) (hlt : reason < 256) :
    execNackRx c psn reason s0 = .next (offerAll (leatEvent s (s.conn c).port 0x02 c false (natLE 4 psn ++ natLE 1 reason))) := by
  rw [execNackRx, takeControl_passes htakes, if_neg (Nat.not_le.mpr hlt), if_pos (bne_iff_ne.mpr hne), reportSent_unacknowledged hsent, done]

theorem execNackRx_poisoned {slot : Nat} (hslot : slot < 1024) (chunk : Nat) :
    execNackRx c psn (256 + slot + 1024 * chunk) s0 =
      .next (offerAll (leatEvent s (s.conn c).port 0x06 c false (natLE 4 psn ++ (zeros 4 ++ natLE 2 slot ++ natLE 4 chunk)))) := by
  have hslot' : (256 + slot + 1024 * chunk - 256) % 1024 = slot := by omega
  have hchunk : (256 + slot + 1024 * chunk - 256) / 1024 = chunk := by omega
  rw [execNackRx, takeControl_passes htakes, if_pos (by omega), hslot', hchunk, reportSent_unacknowledged hsent, poisonData_drop, done]

theorem execNackRx_access :
    execNackRx c psn 3 s0 =
      let x := s.conn c
      let s1 := s.setConn c
        { x with sent := x.sent.filter fun q => q.psn != psn, ackSel := if psnLe psn x.ackCum then x.ackSel else psn :: x.ackSel }
      .next (offerAll (afterAck (if k.cmd = 0 then refuseAdds s1 [k] else stopById s1 k.cmd) c [])) := by
  rw [execNackRx, takeControl_passes htakes, if_neg (by decide), if_neg (by decide), done]
  simp only [hsent, beq_iff_eq]

end Answers

theorem execRtoExpired_due {s : State} {c : Nat} {k : Sent} {ks : List Sent} (hsent : (s.conn c).sent = k :: ks)
    (hon : (s.conn c).timerOn = true) (hdue : (s.conn c).timerAt + (s.conn c).timeout ≤ s.fabricTime) :
    execRtoExpired c s = .next (leatEvent (s.setConn c { s.conn c with timerOn := false }) (s.conn c).port 0x03 c false
      (natLE 4 k.psn ++ natLE 4 (k.tx - 1))) := by
  simp only [execRtoExpired, hsent]
  exact if_neg (by rw [hon, decide_eq_false (Nat.not_lt.mpr hdue)]; decide)

/-- Settles O44: a packet by the checks that it passes, an answer by what the port takes. -/
theorem transportEventsComplete : Obligations.TransportEventsComplete := by
  refine ⟨fun s0 p hup hfree hmac hmode hauth hheader hfits hst => ?packets,
    fun s0 s c cum bitmap credit marked htakes hcum hbitmap hst => execAckReceive_live credit marked htakes hcum hbitmap hst,
    fun s0 s c psn k htakes hsent => ⟨execInstanceNotArmed_sent htakes hsent, execTrimRx_sent htakes hsent,
      fun reason hne hlt => execNackRx_reported htakes hsent hne hlt, fun slot chunk hslot => execNackRx_poisoned htakes hsent hslot chunk,
      execNackRx_access htakes hsent⟩,
    fun s c k ks hsent hon hdue => execRtoExpired_due hsent hon hdue⟩
  have h : PacketPasses s0 p := ⟨hup, hfree, hmac, hmode, hauth, hheader, hfits⟩
  refine ⟨fun hseen => ⟨execDataPacketReceive_duplicate h hst hseen, execCounterPacketReceive_duplicate h hst hseen⟩,
    fun hopen hnew htrim => ⟨execDataPacketReceive_trimmed h hopen hnew htrim, execCounterPacketReceive_trimmed h hopen hnew htrim⟩,
    fun hopen hnew htrim => ⟨fun htype => ⟨execDataPacketReceive_tensor h hopen hnew htrim htype, ?placed⟩,
      execDataPacketReceive_graph h hopen hnew htrim, fun htype hkind hok hin haux => ?counter⟩⟩
  case placed =>
    intro a t harm hinst hpid hrows hcols hes hmx hlen hpoison hicv hplace
    rw [← receiveTensor_placed harm hinst hpid hrows hcols hes hmx hlen hpoison hicv hplace]
    exact execDataPacketReceive_tensor h hopen hnew htrim htype
  case counter =>
    rw [← receiveCounter_adds hkind hok hin haux]
    exact execCounterPacketReceive_counter h hopen hnew htrim htype

end Sys2Proof.Machine

namespace Sys2Proof.Machine

/-! ### Graphs load and instances start (R288, R289, R319) -/

/-- A CLOAD or COLL has its turn behind the earlier ones of its context on its slot (R288, R289). -/
theorem graphCmd_inTurn {s : State} {e : ECmd}
    (hturn : ∀ x ∈ earlierCmds s e, (x.kind = .coll ∨ x.kind = .cload) → x.slot = e.slot → x.job ≠ e.job) :
    ((earlierCmds s e).any fun x => (x.kind == .coll || x.kind == .cload) && x.slot == e.slot && x.job == e.job) = false :=
  List.any_eq_false.mpr fun x hx => by simpa using hturn x hx

section Commands
variable {s : State} {id : Nat} {e : ECmd} (he : s.cmd id = some e)
include he

/-- An image that passes its checks becomes the graph of a slot that its context holds or nobody holds. -/
theorem execCloadStart_loads (hturn : ∀ x ∈ earlierCmds s e, (x.kind = .coll ∨ x.kind = .cload) → x.slot = e.slot → x.job ≠ e.job)
    (hm : mayStart s e = true) (hk : e.kind = .cload)
    (hslot : ∀ g, s.graphSlot (coreDie e.core) e.slot = some g → g.job = e.job ∧ g.inst = none) (hc : startCheck s e = none)
    {bytes : List Byte} {forms : List Bool} (hr : cmdRead s e (regionVa e.core (e.src + 64)) (graphLen e.desc - 64) = .ok (bytes, forms))
    (hgood : graphBad (e.desc ++ bytes) = false) :
    execCloadStart id s = .next (offerAll (completeCmd
      (s.setDie (coreDie e.core) { s.die (coreDie e.core) with
        graphs := tins (s.die (coreDie e.core)).graphs e.slot (some { job := e.job, image := e.desc ++ bytes }) }) e)) := by
  have hbusy := graphCmd_inTurn hturn
  cases hg : s.graphSlot (coreDie e.core) e.slot with
  | none => simp [execCloadStart, he, hbusy, hg, hk, hm, hc, hr, hgood, done]
  | some g =>
    obtain ⟨hjob, hinst⟩ := hslot g hg
    simp [execCloadStart, he, hbusy, hg, hjob, hinst, hk, hm, hc, hr, hgood, done]

/-- A COLL on its context's graph starts with the counters zero, and what is ready runs. -/
theorem execCollInstanceStart_starts (hturn : ∀ x ∈ earlierCmds s e, (x.kind = .coll ∨ x.kind = .cload) → x.slot = e.slot → x.job ≠ e.job)
    (hm : mayStart s e = true) (hk : e.kind = .coll) {g : Graph} (hg : s.graphSlot (coreDie e.core) e.slot = some g) (hjob : g.job = e.job)
    (hinst : g.inst = none) (hin : graphOutside e g.image = none) (hplain : graphPlain s e g.image = false) (hc : startCheck s e = none) :
    let g1 := { g with inst := some e.number, ctrs := [], ops := [], bases := e.desc, cmd := e.id }
    execCollInstanceStart id s = .next (offerAll (retryGraphs (pushReady
      (setGraph (setStage s e .running) (coreDie e.core) e.slot g1) (coreDie e.core) e.slot g1))) := by
  have hbusy := graphCmd_inTurn hturn
  simp [execCollInstanceStart, he, hbusy, hg, hjob, hinst, hk, hm, hin, hplain, hc, done]

end Commands

/-! ### Operations of a graph that runs (R319 to R322, R326) -/

section Operations
variable {s : State} {die slot op : Nat} {g : Graph} {e : ECmd} (hg : s.graphSlot die slot = some g) (he : s.cmd g.cmd = some e)
  (hinst : g.inst ≠ none) (hs : e.stage = .running)
include hinst hs

/-- An operation of a graph that runs starts once its conditions are met (R319). -/
theorem operation_starts (hop : op < graphNops g.image) (hready : opReady g op = true) :
    (g.inst.isNone || e.stage != .running || decide (graphNops g.image ≤ op) || !opReady g op) = false := by
  simp [Option.isNone_eq_false_iff.mpr (Option.isSome_iff_ne_none.mpr hinst), hs, hop, hready]
/-- It is done once it runs and its packets are acknowledged (R320). -/
theorem operation_ends (hrun : (g.op op).stage = .running) (hleft : packetsLeft s g.cmd (some op) = false) :
    (g.inst.isNone || e.stage != .running || (g.op op).stage != .running || packetsLeft s g.cmd (some op)) = false := by
  simp [Option.isNone_eq_false_iff.mpr (Option.isSome_iff_ne_none.mpr hinst), hs, hrun, hleft]

include hg he

section Start
variable (hop : op < graphNops g.image) (hready : opReady g op = true)
include hop hready

theorem execChunkOperationStart_effect (hopc : opOpc (graphOp g.image op) ≠ 1) {t : State} {st : Nat}
    (heff : opEffect s e op (graphOp g.image op) = .ok (t, st)) :
    execChunkOperationStart die slot op s = .next (offerAll
      ((opRuns (cmdMerge t e (opIn e (graphOp g.image op)) (opInLen (graphOp g.image op))) die slot g op st).push
        [.chunkOperationComplete die slot op])) := by
  simp only [execChunkOperationStart, hg, he, operation_starts hinst hs hop hready, heff, beq_false_of_ne hopc, Bool.false_and,
    Bool.false_eq_true, if_false, done]

theorem execChunkOperationStart_internal (hopc : opOpc (graphOp g.image op) = 1) (hpeer : opPeer (graphOp g.image op) = graphMe g.image) :
    execChunkOperationStart die slot op s = .next (offerAll (sendInternal s e die g op)) := by
  simp only [execChunkOperationStart, hg, he, operation_starts hinst hs hop hready, hopc, hpeer, beq_self_eq_true, Bool.and_self,
    Bool.false_eq_true, if_false, if_true, done]

theorem execChunkOperationStart_peer (hopc : opOpc (graphOp g.image op) = 1) (hpeer : opPeer (graphOp g.image op) ≠ graphMe g.image) :
    let c := connId e.pid (rankEntry g.image (opPeer (graphOp g.image op)) % 2 ^ 20)
    connState (s.conn c).entry = 2 → connE8 (s.conn c).entry = true →
      execChunkOperationStart die slot op s = .next (offerAll
        ((pumpConn ((graphPackets e (s.conn c) g op).foldl (fun t k => enqueue t c k) (opRuns s die slot g op 0)) c).push
          [.chunkOperationComplete die slot op])) := by
  intro c hst hkind
  simp only [execChunkOperationStart, hg, he, operation_starts hinst hs hop hready, hopc, beq_false_of_ne hpeer, beq_self_eq_true, Bool.and_false,
    Bool.false_eq_true, if_false, if_true]
  exact if_neg (by rw [hst, hkind]; decide)

end Start

/-- An operation that is done has its record written and counts; the last one ends the command, and otherwise what is ready starts. -/
theorem execChunkOperationComplete_finishes (hrun : (g.op op).stage = .running) (hleft : packetsLeft s g.cmd (some op) = false) {t : State}
    (hrecord : (if opRecord (graphOp g.image op) = true then cmdPut s e (recordAddr e g.image op) (completionRecord s die g op) else .ok s) = .ok t) :
    let g1 := g.setOp op { g.op op with stage := .done }
    let g2 := if opDone (graphOp g.image op) = 0xFFFF then g1 else { g1 with ctrs := tmod 0 g1.ctrs (opDone (graphOp g.image op)) (· + 1) }
    execChunkOperationComplete die slot op s = .next (offerAll
      (if ∀ i, i < graphNops g.image → (g2.op i).stage = .done then
        retryGraphs (completeCmd (setGraph t die slot { g2 with inst := none, last := e.number, ops := [], ctrs := [] }) e)
       else pushReady (setGraph t die slot g2) die slot g2)) := by
  intro g1 g2
  have hfinish : opFinish s e die slot g op = .ok
      (if ∀ i, i < graphNops g.image → (g2.op i).stage = .done then
        retryGraphs (completeCmd (setGraph t die slot { g2 with inst := none, last := e.number, ops := [], ctrs := [] }) e)
       else pushReady (setGraph t die slot g2) die slot g2) := by
    simp only [opFinish, hrecord, beq_iff_eq, List.all_eq_true, List.mem_range]
    exact (apply_ite Except.ok _ _ _).symm
  simp only [execChunkOperationComplete, hg, he, operation_ends hinst hs hrun hleft, hfinish, Bool.false_eq_true, if_false, done]

end Operations

/-- Settles O43: commands by their turn and their checks, operations by their conditions. -/
theorem graphEventsComplete : Obligations.GraphEventsComplete := by
  refine ⟨fun s id e he hm hturn => ⟨?load, ?start⟩,
    fun s die slot op g e hg he hinst hs => ⟨fun hop hready => ⟨?effect, ?internal, ?peer⟩, ?finish⟩⟩
  case load =>
    intro hk hslot hc bytes forms hr hgood
    exact execCloadStart_loads he hturn hm hk hslot hc hr hgood
  case start =>
    intro hk g hg hjob hinst hin hplain hc
    exact execCollInstanceStart_starts he hturn hm hk hg hjob hinst hin hplain hc
  case effect => exact fun hopc t st heff => execChunkOperationStart_effect hg he hinst hs hop hready hopc heff
  case internal => exact execChunkOperationStart_internal hg he hinst hs hop hready
  case peer => exact execChunkOperationStart_peer hg he hinst hs hop hready
  case finish =>
    intro hrun hleft t hrecord
    have hends := execChunkOperationComplete_finishes hg he hinst hs hrun hleft hrecord
    exact ⟨fun hall => hends.trans (by rw [if_pos hall]),
      fun ⟨i, hi, hne⟩ => hends.trans (by rw [if_neg fun hall => hne (hall i hi)])⟩

end Sys2Proof.Machine

namespace Sys2Proof.Machine

/-! ### Who waits for a page (R374, R376) -/

theorem pageWaiter_core {c : Nat} (h : c < 2 ^ 20) : pageWaiter c = .core c := if_pos h
theorem pageWaiter_saved {id strand : Nat} (h0 : 0 < id) (hid : id < 2 ^ 20) (hstrand : strand < 2 ^ 20) :
    pageWaiter (id * 2 ^ 20 + strand) = .saved id strand := by
  have hquot : (id * 2 ^ 20 + strand) / 2 ^ 20 = id := by omega
  have hrem : (id * 2 ^ 20 + strand) % 2 ^ 20 = strand := by omega
  rw [pageWaiter, if_neg (by omega), if_pos (by omega), hquot, hrem]
theorem pageWaiter_cmd {id : Nat} (h : id < 2 ^ 50 - 2 ^ 40) : pageWaiter (2 ^ 40 + id) = .cmd id := by
  rw [pageWaiter, if_neg (by omega), if_neg (by omega), if_pos (by omega), Nat.add_sub_cancel_left]
theorem pageWaiter_slot {slot : Nat} (die : Nat) (h : slot < 1024) : pageWaiter (2 ^ 50 + die * 1024 + slot) = .slot die slot := by
  have hdie : (2 ^ 50 + die * 1024 + slot - 2 ^ 50) / 1024 = die := by omega
  have hslot : (2 ^ 50 + die * 1024 + slot) % 1024 = slot := by omega
  rw [pageWaiter, if_neg (by omega), if_neg (by omega), if_neg (by omega), hdie, hslot]

/-! ### The firmware maps a page (R373, R374) -/

section Maps
variable {s : State} {ask : Instr} {pid asp va : Nat} (entryAddr entry : Nat) (k : State → State)

theorem mapThen_ready (h : s.invalReady ask = true) : mapThen s ask pid asp va entryAddr entry k = k (dropInval s ask) := if_pos h

/-- A page that is asked for the first time: its answer waits where what began with an old translation goes on. -/
theorem mapThen_first (hfirst : ∀ q ∈ s.mgmt.invals, q.ask ≠ ask) :
    mapThen s ask pid asp va entryAddr entry k =
      if pageCached s pid asp va &&
          !((invalOf s ask false pid asp false).cores.isEmpty && (invalOf s ask false pid asp false).cmds.isEmpty) then
        waitInval (mapPage s pid asp va entryAddr entry) (invalOf s ask false pid asp false) false
      else k (mapPage s pid asp va entryAddr entry) := by
  have hnone : s.mgmt.invals.any (·.ask == ask) = false := List.any_eq_false.mpr fun q hq => by simpa using hfirst q hq
  have hready : s.invalReady ask = false := List.any_eq_false.mpr fun q hq => by simp [hfirst q hq]
  rw [mapThen, if_neg (by simp [hready]), if_neg (by simp [hnone])]

/-- The three ways of a mapping: it completes an invalidation that waited, it is answered at once, or it begins to wait. -/
theorem execPageDevice_answers {who : Nat} (hexec : execPageDevice who true entryAddr entry s =
      done (mapThen s (.pageDevice who true entryAddr entry) pid asp va entryAddr entry k)) :
    let ask : Instr := .pageDevice who true entryAddr entry
    let w := invalOf s ask false pid asp false
    let t := mapPage s pid asp va entryAddr entry
    (s.invalReady ask = true → execPageDevice who true entryAddr entry s = .next (offerAll (k (dropInval s ask)))) ∧
    ((∀ q ∈ s.mgmt.invals, q.ask ≠ ask) →
      (pageCached s pid asp va = false ∨ (w.cores = [] ∧ w.cmds = []) → execPageDevice who true entryAddr entry s = .next (offerAll (k t))) ∧
      (pageCached s pid asp va = true → w.cores ≠ [] ∨ w.cmds ≠ [] →
        execPageDevice who true entryAddr entry s = .next (offerAll (waitInval t w false)))) := by
  intro ask w t
  refine ⟨fun hready => ?_, fun hfirst => ⟨fun hfree => ?_, fun hcached huses => ?_⟩⟩
  · rw [hexec, mapThen_ready entryAddr entry k hready, done]
  · rw [hexec, mapThen_first entryAddr entry k hfirst, if_neg, done]
    rcases hfree with h | ⟨hcores, hcmds⟩
    · simp [h]
    · simp [w, hcores, hcmds]
  · rw [hexec, mapThen_first entryAddr entry k hfirst, if_pos, done]
    rw [hcached, Bool.true_and, Bool.not_eq_true', Bool.and_eq_false_iff]
    exact huses.imp List.isEmpty_eq_false_iff.mpr List.isEmpty_eq_false_iff.mpr

end Maps

/-! ### Answers of the scheduler firmware (R374) -/

/-- A strand whose page is mapped goes on. -/
theorem answerCore_mapped (s : State) (c flags : Nat) : answerCore s c true flags = releasePage s c := if_pos rfl
/-- A page that is refused offers the fault which the strand holds (R374). -/
theorem answerCore_refused {s : State} {c : Nat} {f : PendingFault} (h : (s.core c).pageFault = some f) :
    answerCore s c false 0 = offerPage s c f := by
  simp only [answerCore, Bool.false_eq_true, if_false, h, Nat.or_zero]

section PageDevice
variable {s : State} (hp : s.schedPaused = false) {va : Nat} (entryAddr entry : Nat)
include hp

theorem execPageDevice_core {c : Nat} (hc : c < 2 ^ 20) (hhold : (s.core c).hold = some (.pageDevice va)) :
    execPageDevice c true entryAddr entry s = done (mapThen s (.pageDevice c true entryAddr entry) (s.coreJob c).pid (s.coreJob c).aspace va
      entryAddr entry fun t => releasePage t c) ∧
    execPageDevice c false entryAddr entry s = done (answerCore s c false 0) := by
  simp only [execPageDevice, hp, pageWaiter_core hc, hhold, answerCore_mapped, Bool.false_eq_true, if_false, if_true, and_self]

theorem execPageDevice_saved {id strand : Nat} (h0 : 0 < id) (hid : id < 2 ^ 20) (hstrand : strand < 2 ^ 20)
    (hsaved : (s.job id).strands[strand]? = some .saved) (hhold : (tget {} (s.job id).kept strand).hold = some (.pageDevice va)) :
    execPageDevice (id * 2 ^ 20 + strand) true entryAddr entry s =
      done (mapThen s (.pageDevice (id * 2 ^ 20 + strand) true entryAddr entry) (s.job id).pid (s.job id).aspace va entryAddr entry
        fun t => answerSaved t id strand true 0) ∧
    execPageDevice (id * 2 ^ 20 + strand) false entryAddr entry s = done (answerSaved s id strand false 0) := by
  simp only [execPageDevice, hp, pageWaiter_saved h0 hid hstrand, hsaved, hhold, Bool.false_eq_true, if_false, if_true, and_self]

theorem execPageDevice_cmd {id : Nat} {e : ECmd} (hid : id < 2 ^ 50 - 2 ^ 40) (he : s.cmd id = some e) (hs : e.stage = .stalledDevice va) :
    execPageDevice (2 ^ 40 + id) true entryAddr entry s =
      done (mapThen s (.pageDevice (2 ^ 40 + id) true entryAddr entry) e.pid e.aspace va entryAddr entry fun t => resumeCmd t e) ∧
    execPageDevice (2 ^ 40 + id) false entryAddr entry s =
      done (stopEngine s e cPageDevice va (malformedFlag s e.pid e.aspace va)) := by
  simp only [execPageDevice, hp, pageWaiter_cmd hid, he, hs, answerCmd, Bool.false_eq_true, if_false, if_true, and_self]

theorem execPageDevice_slot {die slot : Nat} {a : Armed} (hslot : slot < 1024) (ha : s.armedSlot die slot = some a) (hwait : a.waitDev = some va) :
    execPageDevice (2 ^ 50 + die * 1024 + slot) true entryAddr entry s =
      done (mapThen s (.pageDevice (2 ^ 50 + die * 1024 + slot) true entryAddr entry) a.pid a.aspace va entryAddr entry
        fun t => answerSlot t die slot a true 0 0 0) ∧
    execPageDevice (2 ^ 50 + die * 1024 + slot) false entryAddr entry s =
      done (answerSlot s die slot a false cPageDevice va (malformedFlag s a.pid a.aspace va)) := by
  simp only [execPageDevice, hp, pageWaiter_slot die hslot, ha, hwait, Bool.false_eq_true, if_false, if_true, and_self]

end PageDevice

/-! ### Walks, the host's answers and ATS (R372, R375 to R377) -/

theorem execTranslationWalkComplete_page {s : State} {pid space va : Nat} {e : TlbEnt} (die : Nat) (h : walk s pid space va = .page e) :
    execTranslationWalkComplete die pid space va s = .next (s.setDie die { s.die die with l2 := tlbAdd (s.die die).l2 8192 e }) := by
  simp only [execTranslationWalkComplete, h]

section Response
variable {s : State} {die index : Nat} {q : PageReq} (hq : (s.die die).pageReqs[index]? = some q)
include hq

/-- The host answers the request at a place: Success or Invalid Request (R376). -/
theorem execPageRequestResponse_answer {code : Nat} (hcode : code ≤ 1) :
    execPageRequestResponse die index code s = .next (offerAll (sendWaiting
      (answerPage (s.setDie die { s.die die with pageReqs := (s.die die).pageReqs.eraseIdx index }) die q (code == 0)) die)) := by
  simp only [execPageRequestResponse, hq, if_pos hcode, done]
/-- Any other code refuses every request of the die, which sends none until it is re-enabled (R376). -/
theorem execPageRequestResponse_failure {code : Nat} (hcode : 2 ≤ code) :
    execPageRequestResponse die index code s = .next (offerAll
      ((s.die die).pageReqs.foldl (fun t r => answerPage t die r false) (s.setDie die { s.die die with pageReqs := [], priOff := true }))) := by
  simp only [execPageRequestResponse, hq, if_neg (Nat.not_le.mpr hcode), done]

end Response

theorem resumeFirings_nil {s : State} (h : s.firings = []) (may : Waiter → Bool) : resumeFirings s may = s :=
  if_neg (by simp [h])

theorem execAtsInvalidateRequest_ready {s : State} {pid space page pages : Nat}
    (h : s.invalReady (.atsInvalidateRequest pid space page pages) = true) :
    execAtsInvalidateRequest pid space page pages s =
      .next (offerAll ((dropInval s (.atsInvalidateRequest pid space page pages)).emit (.atsInvalidateDone page))) :=
  if_pos h
theorem execAtsInvalidateRequest_asks {s : State} {pid space page pages : Nat}
    (h : s.invalReady (.atsInvalidateRequest pid space page pages) = false) :
    let t := invalidateHost s pid space page (Nat.max 1 pages * 4096)
    let k := invalOf s (.atsInvalidateRequest pid space page pages) false pid space true
    (k.cores = [] → execAtsInvalidateRequest pid space page pages s = .next (offerAll (t.emit (.atsInvalidateDone page)))) ∧
    (k.cores ≠ [] → execAtsInvalidateRequest pid space page pages s = .next (offerAll (waitInval t k true))) := by
  intro t k
  have hasks : execAtsInvalidateRequest pid space page pages s =
      .next (offerAll (if k.cores.isEmpty then t.emit (.atsInvalidateDone page) else waitInval t k true)) := if_neg (by simp [h])
  exact ⟨fun hcores => hasks.trans (by rw [hcores]; rfl), fun hcores => hasks.trans (by rw [List.isEmpty_eq_false_iff.mpr hcores]; rfl)⟩

/-! ### Host loss (R383) -/

theorem loseLink_lost {s : State} {link : Nat} (h : link < 2) :
    loseLink s link = ((s.parts.filter fun p => p.2.st ≠ .free).map (·.1)).foldl loseHost s := by
  have hheld : (fun p : Nat × Partition => p.2.st != .free) = fun p => decide (p.2.st ≠ .free) := funext fun p => decide_not.symm
  rw [loseLink, if_pos h, hheld]

theorem execHostlostGraceExpiry_over {s : State} {pid since : Nat} (hlost : pid ∈ s.hostLost)
    (hjobs : (s.jobsOf pid).filter (·.suspendedNow) ≠ []) (hat : tget none s.lostAt pid = some since)
    (hover : since + 2000000000 ≤ s.fabricTime) :
    let p := s.part pid
    execHostlostGraceExpiry pid s = .next (offerAll (((s.jobsOf pid).filter (·.suspendedNow)).foldl
      (fun t j => (leatPorts (partPorts p)).foldl (fun u q => leatEvent u q 0x0D noConn false (natLE 4 j.ctxid ++ natLE 1 pid)) t)
      (p.conns.foldl (fun t c => closeConn t (connId pid c.1) 3) { s with lostAt := tdel s.lostAt pid }))) := by
  have hgrace : graceOver s pid = true := by
    simp only [graceOver, hat]
    exact decide_eq_true hover
  rw [execHostlostGraceExpiry, if_neg, done]
  rw [List.contains_iff_mem.mpr hlost, List.isEmpty_eq_false_iff.mpr hjobs, hgrace]
  decide

/-- Settles O41, event by event. -/
theorem translationEventsComplete : Obligations.TranslationEventsComplete := by
  refine ⟨fun s die pid space va e hwalk => execTranslationWalkComplete_page die hwalk, fun s entryAddr entry va hp => ?device,
    fun s die index q hq => ⟨execPageRequestResponse_answer hq (Nat.zero_le 1), execPageRequestResponse_answer hq (Nat.le_refl 1),
      fun code hcode => execPageRequestResponse_failure hq hcode⟩,
    fun s die => rfl, fun s die pid space page addr r w => ⟨rfl, fun hcores hcmds hfirings hoffers => ?cached⟩,
    fun s pid space page pages => ⟨execAtsInvalidateRequest_asks, execAtsInvalidateRequest_ready⟩,
    fun s link hlink => ?links, fun s pid since hlost hjobs hat hover => execHostlostGraceExpiry_over hlost hjobs hat hover⟩
  case device =>
    refine ⟨fun c hc hhold => ?_, fun id strand h0 hid hstrand hsaved hhold => ?_, fun id e hid he hs => ?_, fun die slot a hslot ha hwait => ?_⟩
    · obtain ⟨hmaps, hrefuses⟩ := execPageDevice_core hp entryAddr entry hc hhold
      have hmapped := execPageDevice_answers entryAddr entry _ hmaps
      exact ⟨hmapped, fun f hf => hrefuses.trans (by rw [answerCore_refused hf, done])⟩
    · obtain ⟨hmaps, hrefuses⟩ := execPageDevice_saved hp entryAddr entry h0 hid hstrand hsaved hhold
      have hmapped := execPageDevice_answers entryAddr entry _ hmaps
      exact ⟨hmapped, hrefuses⟩
    · obtain ⟨hmaps, hrefuses⟩ := execPageDevice_cmd hp entryAddr entry hid he hs
      have hmapped := execPageDevice_answers entryAddr entry _ hmaps
      exact ⟨hmapped, hrefuses⟩
    · obtain ⟨hmaps, hrefuses⟩ := execPageDevice_slot hp entryAddr entry hslot ha hwait
      have hmapped := execPageDevice_answers entryAddr entry _ hmaps
      exact ⟨hmapped, hrefuses⟩
  case cached =>
    refine congrArg Host.Outcome.next (Eq.trans ?_ (offerAll_none hoffers))
    rw [hcores, hcmds, List.foldl_nil, List.foldl_nil, resumeFirings_nil]
    exact hfirings
  case links =>
    have hlost := congrArg done (loseLink_lost (s := s) hlink)
    exact ⟨hlost, hlost, hlost⟩

end Sys2Proof.Machine
